-- ==== Sys2Proof/Word.lean ====
section
/-!
DEFINITION. The widths of the J9's words (spec/01 R6, spec/06 R138, R158) and their plainest arithmetic.
-/
namespace Sys2Proof

/-- One byte of memory or scratchpad. -/
abbrev Byte := BitVec 8
/-- One lane of a vector register (R138). -/
abbrev W32 := BitVec 32
/-- A scalar register, an address, an instruction word (R138, R158). -/
abbrev W64 := BitVec 64
/-- One bit per lane (R138). -/
abbrev Mask := BitVec 32
/-- A vector register operand, v0 to v255 (R138). -/
abbrev VReg := BitVec 8
/-- A scalar register operand, s0 to s63 (R138). -/
abbrev SReg := BitVec 6
/-- A mask register operand, k0 to k15 (R138). -/
abbrev KReg := BitVec 4
/-- A core: CIDX is its number mod 4, its cluster the number / 4, its compute die the number / 32 (R2, R39). -/
abbrev CoreId := Fin 256
/-- A string slot of a core (R355). -/
abbrev SlotId := Fin 16
/-- A split slot of a string (R370). -/
abbrev SplitId := Fin 4
/-- An agent of the homes: 0 to 7 the compute-die L2s, 8 and 9 the I/O dies (R72). -/
abbrev AgentId := Fin 10
/-- A memory die M0 to M11 (R41). -/
abbrev DieId := Fin 12
/-- A bank abacus's logical pseudo-channel (R53). -/
abbrev PchId := Fin 64

/-- The 32 lanes. -/
def laneList : List Nat := List.range 32

/-- Bit l of a mask. -/
def Mask.has (m : Mask) (l : Nat) : Bool := m.getLsbD l

/-- The lanes of a mask, ascending. -/
def Mask.lanes (m : Mask) : List Nat := laneList.filter m.has

/-- The mask that holds the listed lanes. -/
def Mask.ofLanes (ls : List Nat) : Mask :=
  ls.foldl (fun m l => m ||| (1#32 <<< l)) 0#32

end Sys2Proof
end

