-- ==== Sys2Proof/Syntax.lean ====
section
/-!
DEFINITION. The syntax of Talvis v2: the codes of spec/06 R161, and ONE inductive `Instr` with a constructor for each row
of spec/opcode_table.json: the 191 core instructions, the 16 bank-abacus instructions and the 131 events; the operands of
an event, which unit and which choice, are those of `Ev` (spec/95).
-/
namespace Sys2Proof

/-- Type codes 0 to 15 (R161). -/
inductive Ty where
  | i8 | i16 | i32 | i64 | n8 | n16 | n32 | n64 | f32 | f16 | bf16 | e4m3 | e5m2 | e2m1 | b8 | b4
  deriving DecidableEq, Repr

/-- Rounding codes 0 to 4 (R161). -/
inductive Rnd where
  | rn | rz | ru | rd | rs
  deriving DecidableEq, Repr

/-- Scope codes 0 to 4 (R161). -/
inductive Scope where
  | core | clus | die | pkg | sys
  deriving DecidableEq, Repr

/-- The relations of scmp, vcmp and fcmp, F 0 to 5 (R163, R178). -/
inductive Cc where
  | eq | ne | lt | le | gt | ge
  deriving DecidableEq, Repr

/-- The size per lane of a memory access, F 0 to 4 (R163, R209). -/
inductive Size where
  | b1 | b2 | b4 | b8 | b16
  deriving DecidableEq, Repr

/-- The operations of vred, F 0 to 5 (R188). -/
inductive RedOp where
  | add | min | max | and | or | xor
  deriving DecidableEq, Repr

/-- The operations of amo, F 0 to 8 (R215). -/
inductive AmoOp where
  | add | min | max | and | or | xor | swap | cas | fadd
  deriving DecidableEq, Repr

/-- Fence kinds 0 to 2 (R219). -/
inductive FenceKind where
  | acq | rel | ar
  deriving DecidableEq, Repr

/-- Prefetch targets 0 to 2 (R212). -/
inductive PfTgt where
  | l1 | l2 | llc
  deriving DecidableEq, Repr

/-- The modes of a split (R376). -/
inductive Mode where
  | user | sup | hyp
  deriving DecidableEq, Repr

/-- A place that holds bytes: a scratchpad offset after R108, or a memory location (R42). -/
inductive Place where
  | scr (core : CoreId) (off : Nat)
  | mem (loc : Nat)
  deriving DecidableEq, Repr

/-- The structures of R82 and R408, with the error that the event reports. -/
inductive EccSite where
  /-- A corrected error, counted at a die (R82, R83). -/
  | corrected (d : DieId)
  /-- L1 or instruction-cache line: discarded, fetched again. -/
  | l1 (c : CoreId) (line : Nat)
  /-- L2 line: by R82 for a clean and for a dirty line. -/
  | l2 (a : AgentId) (line : Nat)
  /-- LLC line or DRAM symbol: PZ set. -/
  | home (line : Nat)
  /-- A line's metadata bits: the line is poisoned (R80). -/
  | metadata (line : Nat)
  /-- A scratchpad word: the aligned 8 bytes are poisoned (R408). -/
  | scratch (c : CoreId) (word : Nat)
  /-- Vector, scalar, mask, split or region state: a context fault of kind 3 (R408). -/
  | string (c : CoreId) (slot : SlotId)
  /-- A serai entry: discarded, a context fault of kind 5 (R408). -/
  | serai (c : CoreId) (idx : Nat)
  /-- An L2 partial: the line is poisoned (R276). -/
  | partialSum (a : AgentId) (line : Nat)
  deriving DecidableEq, Repr

/-- The kinds of a remote access (R430). -/
inductive RKind where
  | rd
  | wr
  /-- An atomic; its operands are the access's bytes. -/
  | amo (op : AmoOp) (t : Ty)
  /-- A contribution. -/
  | con (t : Ty)
  /-- A barrier update. -/
  | bar (arrivals expected landed : Nat)
  /-- `bar.init` with its EARR and EBYTES. -/
  | init (earr ebytes : Nat)
  /-- Word 0 of a barrier read, for a wait that polls (R120, R431). -/
  | poll
  /-- The arrival of a collective's rank on DNB, with the 4 KiB pages of the exchange area in order (R437; log 94). -/
  | dnb (pages : List Nat)
  deriving DecidableEq, Repr

/-- The instructions and events: one constructor per row of spec/opcode_table.json, in its order. -/
inductive Instr where
  | sadd (t : Ty) (d a b : SReg)
  | ssub (t : Ty) (d a b : SReg)
  | smul (t : Ty) (d a b : SReg)
  | smulh (t : Ty) (d a b : SReg)
  | sand (t : Ty) (d a b : SReg)
  | sor (t : Ty) (d a b : SReg)
  | sxor (t : Ty) (d a b : SReg)
  | sshl (t : Ty) (d a b : SReg)
  | sshr (t : Ty) (d a b : SReg)
  | ssar (t : Ty) (d a b : SReg)
  | smin (t : Ty) (d a b : SReg)
  | smax (t : Ty) (d a b : SReg)
  | sandn (t : Ty) (d a b : SReg)
  | saddI (d a : SReg) (imm : W32)
  | ssubI (d a : SReg) (imm : W32)
  | smulI (d a : SReg) (imm : W32)
  | smulhI (d a : SReg) (imm : W32)
  | sandI (d a : SReg) (imm : W32)
  | sorI (d a : SReg) (imm : W32)
  | sxorI (d a : SReg) (imm : W32)
  | sshlI (d a : SReg) (imm : W32)
  | sshrI (d a : SReg) (imm : W32)
  | ssarI (d a : SReg) (imm : W32)
  | sminI (d a : SReg) (imm : W32)
  | smaxI (d a : SReg) (imm : W32)
  | sandnI (d a : SReg) (imm : W32)
  | scmp (cc : Cc) (t : Ty) (d a b : SReg)
  | scmpI (cc : Cc) (d a : SReg) (imm : W32)
  | sdiv (t : Ty) (d a b : SReg)
  | srem (t : Ty) (d a b : SReg)
  | sliI (d : SReg) (imm : W32)
  | sliL (d : SReg) (imm : W64)
  | ssel (t : Ty) (d a b c : SReg)
  | spop (t : Ty) (d a : SReg)
  | sclz (t : Ty) (d a : SReg)
  | sctz (t : Ty) (d a : SReg)
  | slea (d a b : SReg) (sh : BitVec 3)
  | kand (d a b : KReg)
  | kor (d a b : KReg)
  | kxor (d a b : KReg)
  | kandn (d a b : KReg)
  | knot (d a : KReg)
  | kmov (d a : KReg)
  | kpop (d : SReg) (a : KReg)
  | kfirst (d : SReg) (a : KReg)
  | ktos (d : SReg) (a : KReg)
  | stok (d : KReg) (a : SReg)
  | vadd (g : KReg) (t : Ty) (d a b : VReg)
  | vsub (g : KReg) (t : Ty) (d a b : VReg)
  | vmul (g : KReg) (t : Ty) (d a b : VReg)
  | vmulh (g : KReg) (t : Ty) (d a b : VReg)
  | vand (g : KReg) (t : Ty) (d a b : VReg)
  | vor (g : KReg) (t : Ty) (d a b : VReg)
  | vxor (g : KReg) (t : Ty) (d a b : VReg)
  | vshl (g : KReg) (t : Ty) (d a b : VReg)
  | vshr (g : KReg) (t : Ty) (d a b : VReg)
  | vsar (g : KReg) (t : Ty) (d a b : VReg)
  | vmin (g : KReg) (t : Ty) (d a b : VReg)
  | vmax (g : KReg) (t : Ty) (d a b : VReg)
  | vabs (g : KReg) (t : Ty) (d a : VReg)
  | vneg (g : KReg) (t : Ty) (d a : VReg)
  | vadds (g : KReg) (t : Ty) (d a b : VReg)
  | vsubs (g : KReg) (t : Ty) (d a b : VReg)
  | vaddI (g : KReg) (d a : VReg) (imm : W32)
  | vsubI (g : KReg) (d a : VReg) (imm : W32)
  | vmulI (g : KReg) (d a : VReg) (imm : W32)
  | vmulhI (g : KReg) (d a : VReg) (imm : W32)
  | vandI (g : KReg) (d a : VReg) (imm : W32)
  | vorI (g : KReg) (d a : VReg) (imm : W32)
  | vxorI (g : KReg) (d a : VReg) (imm : W32)
  | vshlI (g : KReg) (d a : VReg) (imm : W32)
  | vshrI (g : KReg) (d a : VReg) (imm : W32)
  | vsarI (g : KReg) (d a : VReg) (imm : W32)
  | vminI (g : KReg) (d a : VReg) (imm : W32)
  | vmaxI (g : KReg) (d a : VReg) (imm : W32)
  | vcmp (g : KReg) (cc : Cc) (t : Ty) (d : KReg) (a b : VReg)
  | vcmpI (g : KReg) (cc : Cc) (d : KReg) (a : VReg) (imm : W32)
  | vsel (g : KReg) (t : Ty) (d a b : VReg) (c : KReg)
  | vmov (g : KReg) (t : Ty) (d a : VReg)
  | vbcast (g : KReg) (t : Ty) (d : VReg) (a : SReg)
  | vlid (g : KReg) (d : VReg)
  | vgetl (t : Ty) (d : SReg) (a : VReg) (b : SReg)
  | vsetl (g : KReg) (t : Ty) (d : VReg) (a b : SReg)
  | vperm (g : KReg) (t : Ty) (d a b : VReg)
  | vshup (g : KReg) (t : Ty) (d a : VReg) (dist : BitVec 5)
  | vshdn (g : KReg) (t : Ty) (d a : VReg) (dist : BitVec 5)
  | vshxor (g : KReg) (t : Ty) (d a : VReg) (dist : BitVec 5)
  | vrot (g : KReg) (t : Ty) (d a : VReg) (dist : BitVec 5)
  | vred (g : KReg) (op : RedOp) (t : Ty) (d : SReg) (a : VReg)
  | vscan (g : KReg) (t : Ty) (ex : Bool) (d a : VReg)
  | vmad (g : KReg) (t : Ty) (d a b c : VReg)
  | vdot4 (g : KReg) (t : Ty) (d a b c : VReg)
  | vpop (g : KReg) (t : Ty) (d a : VReg)
  | vclz (g : KReg) (t : Ty) (d a : VReg)
  | vctz (g : KReg) (t : Ty) (d a : VReg)
  | vext (g : KReg) (t : Ty) (d a b : VReg)
  | vgrow (n : W32)
  | vshrink (n : W32)
  | fadd (g : KReg) (t : Ty) (r : Rnd) (d a b : VReg)
  | fsub (g : KReg) (t : Ty) (r : Rnd) (d a b : VReg)
  | fmul (g : KReg) (t : Ty) (r : Rnd) (d a b : VReg)
  | fmin (g : KReg) (t : Ty) (d a b : VReg)
  | fmax (g : KReg) (t : Ty) (d a b : VReg)
  | fdiv (g : KReg) (t : Ty) (r : Rnd) (d a b : VReg)
  | fsqrt (g : KReg) (t : Ty) (r : Rnd) (d a : VReg)
  | fabs (g : KReg) (t : Ty) (d a : VReg)
  | fneg (g : KReg) (t : Ty) (d a : VReg)
  | ffma (g : KReg) (t : Ty) (r : Rnd) (d a b c : VReg)
  | ffms (g : KReg) (t : Ty) (r : Rnd) (d a b c : VReg)
  | ffnma (g : KReg) (t : Ty) (r : Rnd) (d a b c : VReg)
  | ffnms (g : KReg) (t : Ty) (r : Rnd) (d a b c : VReg)
  | frcp (g : KReg) (t : Ty) (d a : VReg)
  | frsq (g : KReg) (t : Ty) (d a : VReg)
  | fexp2 (g : KReg) (t : Ty) (d a : VReg)
  | flog2 (g : KReg) (t : Ty) (d a : VReg)
  | fcmp (g : KReg) (cc : Cc) (d : KReg) (a b : VReg)
  | fclass (g : KReg) (t : Ty) (d a : VReg)
  | fcvtFf (g : KReg) (dt st : Ty) (r : Rnd) (sat : Bool) (part : BitVec 3) (d a : VReg)
  | fcvtFi (g : KReg) (dt st : Ty) (r : Rnd) (sat : Bool) (part : BitVec 3) (d a : VReg)
  | fcvtIf (g : KReg) (dt st : Ty) (r : Rnd) (sat : Bool) (part : BitVec 3) (d a : VReg)
  | fpack (g : KReg) (dt : Ty) (r : Rnd) (sat : Bool) (d a b : VReg)
  | funpack (g : KReg) (st : Ty) (part : BitVec 3) (d a : VReg)
  | qblk (g : KReg) (t : Ty) (r : Rnd) (d a : VReg)
  | dqblk (g : KReg) (t : Ty) (d a : VReg)
  | ld (g : KReg) (sz : Size) (sx : Bool) (d : VReg) (a : SReg) (res : KReg) (off : BitVec 12)
  | st (g : KReg) (sz : Size) (a : SReg) (b : VReg) (off : BitVec 12)
  | gth (g : KReg) (sz : Size) (sx : Bool) (d a : VReg) (res : KReg) (off : BitVec 12)
  | sct (g : KReg) (sz : Size) (a b : VReg) (off : BitVec 12)
  | spld (g : KReg) (sz : Size) (am sx : Bool) (d : VReg) (a : BitVec 8) (off : BitVec 12)
  | spst (g : KReg) (sz : Size) (am : Bool) (a : BitVec 8) (b : VReg) (off : BitVec 12)
  | pf (g : KReg) (tgt : PfTgt) (a : VReg) (off : BitVec 12)
  | resid (g : KReg) (a : VReg) (off : BitVec 12)
  | sld (sz : Size) (sx : Bool) (d a : SReg) (off : BitVec 12)
  | sst (sz : Size) (a b : SReg) (off : BitVec 12)
  | amo (g : KReg) (op : AmoOp) (t : Ty) (sc : Scope) (ret sp : Bool) (d a b c : VReg)
  | racc (g : KReg) (t : Ty) (sc : Scope) (a b : VReg)
  | fence (sc : Scope) (k : FenceKind)
  | barInit (sp : Bool) (a b c : SReg)
  | barExp (sp : Bool) (a b : SReg)
  | barArr (sc : Scope) (expv sp : Bool) (a b : SReg)
  | barWait (sc : Scope) (sp : Bool) (d a b : SReg)
  | barTest (sc : Scope) (sp : Bool) (d a : SReg)
  | wcnt (ld st cp tl : BitVec 8)
  | seal (a b : SReg)
  | unseal (a b : SReg)
  | cmr (t : Ty) (sc : Scope) (a b : SReg)
  | cmrend (a : SReg)
  | br (imm : W32)
  | bnz (a : SReg) (imm : W32)
  | bz (a : SReg) (imm : W32)
  | bany (a : KReg) (imm : W32)
  | ball (a : KReg) (imm : W32)
  | bnone (a : KReg) (imm : W32)
  | bdiv (a : KReg) (imm : W32)
  | call (d : SReg) (imm : W32)
  | ret (a : SReg)
  | callr (d a : SReg)
  | jmpr (a : SReg)
  | spmask (d : KReg)
  | spawn (sc : Scope) (sp : Bool) (a : SReg)
  | spawnf (sc : Scope) (sp : Bool) (d a b : SReg)
  | join (sc : Scope) (d a b : SReg)
  | done (sc : Scope) (a : SReg)
  | yield (spill : Bool)
  | qpush (sc : Scope) (d a b : SReg)
  | qpop (sc : Scope) (d a b : SReg)
  | stlpause
  | stlresume
  | pdist (d a : SReg)
  | mwld (wt : Ty) (s24 : Bool) (a b : SReg)
  | mwsw
  | mmac (xt : Ty) (sc : Scope) (osp add asrc : Bool) (d : SReg) (a : BitVec 8) (b c : SReg)
  | mrdy
  | mwait (opnd : Bool) (n : BitVec 4)
  | mcnt (clr : Bool) (d : SReg)
  | cpy (sc : Scope) (dsp ssp bv bsp : Bool) (d a b c : SReg)
  | chain (sc : Scope) (bsp : Bool) (a b : SReg)
  | vwreg (d a : SReg)
  | vwdrop (a : SReg)
  | vwsync (sc : Scope) (d a : SReg)
  | bcmd (g : KReg) (sc : Scope) (a : VReg) (b : SReg)
  | bwait (sc : Scope) (d : SReg)
  | xscale (sc : Scope) (a : SReg)
  | xsum (sc : Scope) (a : SReg)
  | sys (g : KReg) (n : BitVec 16)
  | hyp (g : KReg) (n : BitVec 16)
  | sret
  | hret
  | rdsr (g : KReg) (n : BitVec 12) (d : BitVec 8)
  | wrsr (g : KReg) (n : BitVec 12) (a : BitVec 8)
  | wfi
  | ahalt
  | ali (d : BitVec 4) (imm : BitVec 16)
  | alih (d : BitVec 4) (imm : BitVec 16)
  | aadd (d a b : BitVec 4)
  | aaddi (d a : BitVec 4) (imm : BitVec 16)
  | aloop (a : BitVec 4) (t : BitVec 8)
  | abne (a b : BitVec 4) (t : BitVec 8)
  | aldw (inc : Bool) (d a b : BitVec 4)
  | adot (wf : BitVec 3) (inc : Bool) (d a b c : BitVec 4)
  | aclr (d n : BitVec 4)
  | astc (sf cl inc : Bool) (d a n : BitVec 4)
  | aemit (inc : Bool) (a b c : BitVec 4)
  | afadd (d a b : BitVec 4)
  | afmul (d a b : BitVec 4)
  | aldc (d a : BitVec 4)
  | anop
  | blockEntry
  | issueCycle
  | stringStarvation
  | splitStarvation
  | registerSpill
  | registerFill
  | interruptDelivery
  | wfiWake
  | l2WaitingStorePerform
  | l1LeaseExpiry
  | l2VictimEvict
  | homeReadRequest
  | homeOwnRequest
  | homeWriteback
  | homeAtomic
  | discover
  | agentProbeAnswer
  | linkUp
  | linkWakeTimeout
  | agentDeclaredDead
  | agentReset
  | directoryEccError
  | eccError
  | memoryDieDead
  | pchRequestServe
  | pchAgeLimit
  | bankRefresh
  | pageWalkComplete
  | tcinvAll
  | tcinvCtx
  | tcinvPage
  | tcinvDrained
  | regionEntryValidate
  | regionEntryInvalidate
  | regionWordWrite
  | regionDrainDone
  | timeExchange
  | domainTimeLost
  | barrierUpdate
  | barrierPoll
  | convoyTransferStart
  | convoyLanding
  | engineBankStarvation
  | chainCopy
  | chainGather
  | chainScatter
  | chainLoop
  | chainCond
  | chainWait
  | chainArrive
  | chainEnd
  | chainStop
  | porterStagingComplete
  | partitionRelease
  | arrayClaimGrant
  | tileMwldLoad
  | tileMwswExchange
  | tileMmacStream
  | tileOpComplete
  | rodContribution
  | cmRegistration
  | partialRecallAnswer
  | partialWriteback
  | cmrComplete
  | cmrendComplete
  | masterWrite
  | derivationDelayExpiry
  | derivationStart
  | derivationComplete
  | viewRead
  | vwdropComplete
  | vwsyncComplete
  | bankCommandEnqueue
  | bankCommandStart
  | bankCommandEnd
  | abacusStepLimit
  | launchSubmit
  | bazaarQueueEnable
  | bazaarQueueDisable
  | stealSearch
  | stealRetry
  | stealTake
  | droveSummary
  | stealPauseLapse
  | caravanToken
  | caravanTokenPass
  | taskStart
  | parkSpill
  | spillRestore
  | contextFault
  | ctxSave
  | ctxRestore
  | ctxRestoreCluster
  | ctxPreempt
  | ctxEnd
  | evictedShareReturn
  | hostRead
  | hostWrite
  | hostSnoop
  | snoopFilterRecall
  | dbellWrite
  | naeshLinkReturn
  | caravanLaneFail
  | caravanRetrainDone
  | remoteAccess
  | remoteRefusal
  | remoteAccessTimeout
  | xscaleUnitContribute
  | xscaleUnitFinish
  | xsumUnitContribute
  | xsumUnitFinish
  | collectiveAreaClear
  | packageReset
  | powerAverage
  | linkSleep
  | clusterGate
  | clusterUngate
  | caravanPortIdle
  | caravanPortWake
  | thermalThrottle
  | memoryDieHot
  | thermalStop
  | resqRead
  | elogRead
  | mcmdRoutes
  | mcmdStealRing
  | registerWrite
  | illegalInstruction
  | flitRetransmit
  | thermalThrottleEnd
  | memoryDieCooled
  deriving DecidableEq, Repr

/-- The unit map's contents (R443) with the size of host memory, the fitted LPDDR6 and the device number (R43, R47). -/
structure Machine.UnitMap where
  clmask : W64
  mdie : BitVec 12
  mpcw : Vector Nat 12
  portl : Vector Nat 24
  fold : Vector (BitVec 4) 8
  devnum : BitVec 14
  hostBytes : Nat
  lpddr : Bool
  deriving DecidableEq, Repr

/-- The hypervisor part of a verified boot image (R441, R445): its bytes, the offset of its entry header, and the local physical address of the
parameter block that it names. -/
structure Machine.BootImage where
  bytes : List Byte
  entry : Nat
  param : W64
  deriving DecidableEq, Repr

/-- An event with its operands: which unit it concerns and which choice is made (spec/95). The rows of the opcode table give events no
encoding and no operands; the operands of the event at work stand in `State.ev` (log 7). -/
inductive Ev where
  | blockEntry
  | issueCycle (c : CoreId)
  | stringStarvation (c : CoreId) (slot : SlotId)
  | splitStarvation (c : CoreId) (slot : SlotId) (sp : SplitId)
  | registerSpill (c : CoreId)
  | registerFill (c : CoreId) (slot : SlotId) (r : VReg)
  | interruptDelivery (c : CoreId)
  | wfiWake (c : CoreId) (slot : SlotId) (sp : Nat)
  | l2WaitingStorePerform (a : AgentId) (line : Nat)
  | l1LeaseExpiry (c : CoreId) (line : Nat)
  | l2VictimEvict (a : AgentId) (line : Nat)
  | homeReadRequest (line : Nat) (a : AgentId) (inc : BitVec 16)
  | homeOwnRequest (line : Nat) (a : AgentId) (inc : BitVec 16) (full : List Byte)
  | homeWriteback (line : Nat) (a : AgentId) (inc : BitVec 16) (poisoned : Bool) (data : List Byte)
  | homeAtomic (op : AmoOp) (t : Ty) (loc : Nat) (b c : W64)
  | discover (line : Nat)
  | agentProbeAnswer (a : AgentId) (line : Nat) (inval : Bool) (inc : BitVec 16)
  | linkUp (a : AgentId)
  | linkWakeTimeout (a : AgentId)
  | agentDeclaredDead (a : AgentId)
  | agentReset (a : AgentId)
  | directoryEccError (line : Nat)
  | eccError (site : EccSite)
  | memoryDieDead (d : DieId)
  | pchRequestServe (d : DieId) (p : PchId)
  | pchAgeLimit (d : DieId) (p : PchId)
  | bankRefresh (d : DieId) (p : PchId) (bank : Fin 32)
  | pageWalkComplete (c : CoreId) (slot : SlotId) (va : W64)
  | tcinvAll (c : CoreId) (dev : Bool)
  | tcinvCtx (c : CoreId) (dev : Bool) (ctx : BitVec 12)
  | tcinvPage (c : CoreId) (dev : Bool) (ctx : BitVec 12)
  | tcinvDrained (c : CoreId)
  | regionEntryValidate (i : Fin 64) (v : W64)
  | regionEntryInvalidate (i : Fin 64) (v : W64)
  | regionWordWrite (i : Fin 64) (w : Fin 4) (v : W64)
  | regionDrainDone
  | timeExchange (ppm : Int)
  | domainTimeLost
  | barrierUpdate (p : Place) (arrivals expected landed : Nat)
  | barrierPoll (p : Place)
  | convoyTransferStart (c : CoreId)
  | convoyLanding (c : CoreId) (k : Nat)
  | engineBankStarvation (c : CoreId) (bank : Fin 64)
  | chainCopy (c : CoreId) (k : Fin 8)
  | chainGather (c : CoreId) (k : Fin 8)
  | chainScatter (c : CoreId) (k : Fin 8)
  | chainLoop (c : CoreId) (k : Fin 8)
  | chainCond (c : CoreId) (k : Fin 8)
  | chainWait (c : CoreId) (k : Fin 8)
  | chainArrive (c : CoreId) (k : Fin 8)
  | chainEnd (c : CoreId) (k : Fin 8)
  | chainStop (c : CoreId) (k : Fin 8)
  | porterStagingComplete (c : CoreId) (slot : SlotId)
  | partitionRelease (c : CoreId) (ctx : BitVec 12)
  | arrayClaimGrant (c : CoreId)
  | tileMwldLoad (c : CoreId)
  | tileMwswExchange (c : CoreId)
  | tileMmacStream (c : CoreId)
  | tileOpComplete (c : CoreId)
  | rodContribution (l2 : Option (Fin 8)) (t : Ty) (loc : Nat) (v : W64)
  | cmRegistration (a : Fin 8) (line : Nat)
  | partialRecallAnswer (a : Fin 8) (line : Nat) (inc : BitVec 16)
  | partialWriteback (a : Fin 8) (line : Nat) (inc : BitVec 16)
  | cmrComplete (i : Fin 256)
  | cmrendComplete (i : Fin 256)
  | masterWrite (line : Nat) (bytes : BitVec 128)
  | derivationDelayExpiry (v : Fin 64) (b : Nat)
  | derivationStart (v : Fin 64) (b : Nat)
  | derivationComplete (v : Fin 64) (b : Nat)
  | viewRead (v : Fin 64) (b : Nat) (engine : Bool)
  | vwdropComplete (v : Fin 64)
  | vwsyncComplete (c : CoreId) (slot : SlotId) (sp : SplitId)
  | bankCommandEnqueue (d : DieId) (p : PchId)
  | bankCommandStart (d : DieId) (p : PchId) (k : Nat)
  | bankCommandEnd (d : DieId) (p : PchId)
  | abacusStepLimit (d : DieId) (p : PchId)
  | launchSubmit (v : W64)
  | bazaarQueueEnable (q : Fin 16) (v : W64)
  | bazaarQueueDisable (q : Fin 16) (v : W64)
  | stealSearch (c : CoreId)
  | stealRetry (c : CoreId)
  | stealTake (thief victim : CoreId)
  | droveSummary (die : Fin 8)
  | stealPauseLapse (c : CoreId) (ctx : BitVec 12)
  | caravanToken (loads : List (Nat × Nat)) (reqs : List (Nat × BitVec 16 × Nat)) (entries : List (Nat × BitVec 16 × List Byte))
  | caravanTokenPass
  | taskStart (c : CoreId) (slot : SlotId)
  | parkSpill (c : CoreId)
  | spillRestore (c : CoreId) (slot : SlotId)
  | contextFault (ctx : BitVec 12) (kind : BitVec 8)
  | ctxSave (e : Fin 64)
  | ctxRestore (e : Fin 64)
  | ctxRestoreCluster (e : Fin 64) (j : Nat)
  | ctxPreempt (e : Fin 64) (ncore nslot ngran nreg : Nat)
  | ctxEnd (e : Fin 64)
  | evictedShareReturn (c : CoreId)
  | hostRead (pa n : Nat)
  | hostWrite (pa : Nat) (data : List Byte)
  | hostSnoop (line : Nat) (inval : Bool)
  | snoopFilterRecall (line : Nat)
  | dbellWrite (v : W64)
  | naeshLinkReturn
  | caravanLaneFail (p : Fin 24) (lanes : Fin 9)
  | caravanRetrainDone (p : Fin 24)
  | remoteAccess (dev : BitVec 14) (k : RKind) (pa n : Nat) (data : List Byte)
  | remoteRefusal (c : CoreId) (slot : SlotId) (lanes : Mask) (va : W64)
  | remoteAccessTimeout (c : CoreId) (slot : SlotId) (lanes : Mask) (va : W64)
  | xscaleUnitContribute (k : Nat)
  | xscaleUnitFinish (k : Nat)
  | xsumUnitContribute (k : Nat)
  | xsumUnitFinish (k : Nat)
  | collectiveAreaClear (k : Nat)
  /-- `image` and `map` are absent where their signatures do not verify (R442); `stop` is a step of R441 that fails. -/
  | packageReset (image : Option Machine.BootImage) (map : Option Machine.UnitMap) (domain : Option Nat) (stop : Option (Fin 7))
  | powerAverage (watts : Nat)
  | linkSleep (a : AgentId)
  | clusterGate (j : Fin 64)
  | clusterUngate (j : Fin 64)
  | caravanPortIdle (p : Fin 24)
  | caravanPortWake (p : Fin 24)
  | thermalThrottle (t : BitVec 8)
  | memoryDieHot (d : DieId)
  | thermalStop
  | resqRead
  | elogRead
  | mcmdRoutes (pa : Nat)
  | mcmdStealRing (pa : Nat)
  | registerWrite (pa size : Nat) (v : W64)
  | illegalInstruction (w : W64)
  | flitRetransmit (naesh : Bool)
  | thermalThrottleEnd (t : BitVec 8)
  | memoryDieCooled (d : DieId)
  deriving DecidableEq, Repr

/-- The opcode table row of an event. -/
def Ev.instr : Ev → Instr
  | .blockEntry => .blockEntry
  | .issueCycle .. => .issueCycle
  | .stringStarvation .. => .stringStarvation
  | .splitStarvation .. => .splitStarvation
  | .registerSpill .. => .registerSpill
  | .registerFill .. => .registerFill
  | .interruptDelivery .. => .interruptDelivery
  | .wfiWake .. => .wfiWake
  | .l2WaitingStorePerform .. => .l2WaitingStorePerform
  | .l1LeaseExpiry .. => .l1LeaseExpiry
  | .l2VictimEvict .. => .l2VictimEvict
  | .homeReadRequest .. => .homeReadRequest
  | .homeOwnRequest .. => .homeOwnRequest
  | .homeWriteback .. => .homeWriteback
  | .homeAtomic .. => .homeAtomic
  | .discover .. => .discover
  | .agentProbeAnswer .. => .agentProbeAnswer
  | .linkUp .. => .linkUp
  | .linkWakeTimeout .. => .linkWakeTimeout
  | .agentDeclaredDead .. => .agentDeclaredDead
  | .agentReset .. => .agentReset
  | .directoryEccError .. => .directoryEccError
  | .eccError .. => .eccError
  | .memoryDieDead .. => .memoryDieDead
  | .pchRequestServe .. => .pchRequestServe
  | .pchAgeLimit .. => .pchAgeLimit
  | .bankRefresh .. => .bankRefresh
  | .pageWalkComplete .. => .pageWalkComplete
  | .tcinvAll .. => .tcinvAll
  | .tcinvCtx .. => .tcinvCtx
  | .tcinvPage .. => .tcinvPage
  | .tcinvDrained .. => .tcinvDrained
  | .regionEntryValidate .. => .regionEntryValidate
  | .regionEntryInvalidate .. => .regionEntryInvalidate
  | .regionWordWrite .. => .regionWordWrite
  | .regionDrainDone => .regionDrainDone
  | .timeExchange .. => .timeExchange
  | .domainTimeLost => .domainTimeLost
  | .barrierUpdate .. => .barrierUpdate
  | .barrierPoll .. => .barrierPoll
  | .convoyTransferStart .. => .convoyTransferStart
  | .convoyLanding .. => .convoyLanding
  | .engineBankStarvation .. => .engineBankStarvation
  | .chainCopy .. => .chainCopy
  | .chainGather .. => .chainGather
  | .chainScatter .. => .chainScatter
  | .chainLoop .. => .chainLoop
  | .chainCond .. => .chainCond
  | .chainWait .. => .chainWait
  | .chainArrive .. => .chainArrive
  | .chainEnd .. => .chainEnd
  | .chainStop .. => .chainStop
  | .porterStagingComplete .. => .porterStagingComplete
  | .partitionRelease .. => .partitionRelease
  | .arrayClaimGrant .. => .arrayClaimGrant
  | .tileMwldLoad .. => .tileMwldLoad
  | .tileMwswExchange .. => .tileMwswExchange
  | .tileMmacStream .. => .tileMmacStream
  | .tileOpComplete .. => .tileOpComplete
  | .rodContribution .. => .rodContribution
  | .cmRegistration .. => .cmRegistration
  | .partialRecallAnswer .. => .partialRecallAnswer
  | .partialWriteback .. => .partialWriteback
  | .cmrComplete .. => .cmrComplete
  | .cmrendComplete .. => .cmrendComplete
  | .masterWrite .. => .masterWrite
  | .derivationDelayExpiry .. => .derivationDelayExpiry
  | .derivationStart .. => .derivationStart
  | .derivationComplete .. => .derivationComplete
  | .viewRead .. => .viewRead
  | .vwdropComplete .. => .vwdropComplete
  | .vwsyncComplete .. => .vwsyncComplete
  | .bankCommandEnqueue .. => .bankCommandEnqueue
  | .bankCommandStart .. => .bankCommandStart
  | .bankCommandEnd .. => .bankCommandEnd
  | .abacusStepLimit .. => .abacusStepLimit
  | .launchSubmit .. => .launchSubmit
  | .bazaarQueueEnable .. => .bazaarQueueEnable
  | .bazaarQueueDisable .. => .bazaarQueueDisable
  | .stealSearch .. => .stealSearch
  | .stealRetry .. => .stealRetry
  | .stealTake .. => .stealTake
  | .droveSummary .. => .droveSummary
  | .stealPauseLapse .. => .stealPauseLapse
  | .caravanToken .. => .caravanToken
  | .caravanTokenPass => .caravanTokenPass
  | .taskStart .. => .taskStart
  | .parkSpill .. => .parkSpill
  | .spillRestore .. => .spillRestore
  | .contextFault .. => .contextFault
  | .ctxSave .. => .ctxSave
  | .ctxRestore .. => .ctxRestore
  | .ctxRestoreCluster .. => .ctxRestoreCluster
  | .ctxPreempt .. => .ctxPreempt
  | .ctxEnd .. => .ctxEnd
  | .evictedShareReturn .. => .evictedShareReturn
  | .hostRead .. => .hostRead
  | .hostWrite .. => .hostWrite
  | .hostSnoop .. => .hostSnoop
  | .snoopFilterRecall .. => .snoopFilterRecall
  | .dbellWrite .. => .dbellWrite
  | .naeshLinkReturn => .naeshLinkReturn
  | .caravanLaneFail .. => .caravanLaneFail
  | .caravanRetrainDone .. => .caravanRetrainDone
  | .remoteAccess .. => .remoteAccess
  | .remoteRefusal .. => .remoteRefusal
  | .remoteAccessTimeout .. => .remoteAccessTimeout
  | .xscaleUnitContribute .. => .xscaleUnitContribute
  | .xscaleUnitFinish .. => .xscaleUnitFinish
  | .xsumUnitContribute .. => .xsumUnitContribute
  | .xsumUnitFinish .. => .xsumUnitFinish
  | .collectiveAreaClear .. => .collectiveAreaClear
  | .packageReset .. => .packageReset
  | .powerAverage .. => .powerAverage
  | .linkSleep .. => .linkSleep
  | .clusterGate .. => .clusterGate
  | .clusterUngate .. => .clusterUngate
  | .caravanPortIdle .. => .caravanPortIdle
  | .caravanPortWake .. => .caravanPortWake
  | .thermalThrottle .. => .thermalThrottle
  | .memoryDieHot .. => .memoryDieHot
  | .thermalStop => .thermalStop
  | .resqRead => .resqRead
  | .elogRead => .elogRead
  | .mcmdRoutes .. => .mcmdRoutes
  | .mcmdStealRing .. => .mcmdStealRing
  | .registerWrite .. => .registerWrite
  | .illegalInstruction .. => .illegalInstruction
  | .flitRetransmit .. => .flitRetransmit
  | .thermalThrottleEnd .. => .thermalThrottleEnd
  | .memoryDieCooled .. => .memoryDieCooled

end Sys2Proof
end

