-- ==== Sys2Proof/WellFormed.lean ====
section
/-!
DEFINITION. Which instructions have an encoding: the type lists, register parities and limits that spec/06 R139, R159 and the
entries of spec/07 to spec/16 lay down. A term that fails here is encoded by no legal word; events have no encoding and
are well-formed.
-/
namespace Sys2Proof

/-- Element width in bits (R173, R12, R30 for the block elements). -/
def Ty.width : Ty → Nat
  | .i8 | .n8 | .e4m3 | .e5m2 | .b8 => 8
  | .i16 | .n16 | .f16 | .bf16 => 16
  | .i32 | .n32 | .f32 => 32
  | .i64 | .n64 => 64
  | .e2m1 | .b4 => 4

/-- Elements per lane, or per pair for a 64-bit type (R173). -/
def Ty.elems : Ty → Nat
  | .i8 | .n8 | .e4m3 | .e5m2 | .b8 => 4
  | .i16 | .n16 | .f16 | .bf16 => 2
  | .i32 | .n32 | .f32 | .i64 | .n64 => 1
  | .e2m1 | .b4 => 8

/-- Codes 0 to 7 of R161. -/
def Ty.isInt : Ty → Bool
  | .i8 | .i16 | .i32 | .i64 | .n8 | .n16 | .n32 | .n64 => true
  | _ => false

/-- Signed integer types. -/
def Ty.isSigned : Ty → Bool
  | .i8 | .i16 | .i32 | .i64 => true
  | _ => false

/-- A type that names register pairs (R139). -/
def Ty.is64 : Ty → Bool
  | .i64 | .n64 => true
  | _ => false

/-- Integer types of 8, 16 and 32 bits. -/
def Ty.isInt32 (t : Ty) : Bool := t.isInt && !t.is64

/-- The arithmetic float types of R191. -/
def Ty.isArith : Ty → Bool
  | .f32 | .f16 | .bf16 => true
  | _ => false

/-- The float types of R197. -/
def Ty.isFloat : Ty → Bool
  | .f32 | .f16 | .bf16 | .e4m3 | .e5m2 | .e2m1 => true
  | _ => false

/-- The block formats of R30. -/
def Ty.isBlock : Ty → Bool
  | .b8 | .b4 => true
  | _ => false

/-- Weight and activation formats of the matrix array (R248, R255). -/
def Ty.isMatrix : Ty → Bool
  | .f16 | .bf16 | .e4m3 | .e5m2 | .e2m1 | .b8 | .b4 => true
  | _ => false

/-- Bytes of a size (R209). -/
def Size.bytes : Size → Nat
  | .b1 => 1 | .b2 => 2 | .b4 => 4 | .b8 => 8 | .b16 => 16

/-- An even register number (R139). -/
def VReg.isEven (r : VReg) : Bool := r.toNat % 2 == 0

/-- The registers of a type start at an even number when the type has 64 bits (R139). -/
def Ty.okRegs (t : Ty) (rs : List VReg) : Bool := !t.is64 || rs.all VReg.isEven

/-- The first data register of a size (R209): a pair starts even, a quad at a multiple of 4. -/
def Size.okReg (sz : Size) (r : VReg) : Bool :=
  match sz with
  | .b8 => r.toNat % 2 == 0
  | .b16 => r.toNat % 4 == 0
  | _ => true

/-- SX = 1 only for 1 and 2 bytes on the vector forms (R209). -/
def Size.okSx (sz : Size) (sx : Bool) : Bool := !sx || sz == .b1 || sz == .b2

/-- Scopes `.die`, `.pkg`, `.sys` (R230, R257, R278). -/
def Scope.isWide : Scope → Bool
  | .die | .pkg | .sys => true
  | _ => false

/-- Scopes `.pkg`, `.sys` (R293, R301, R306, R436). -/
def Scope.isHome : Scope → Bool
  | .pkg | .sys => true
  | _ => false

/-- The numbers of R150 that are held per lane. -/
def sysLane (n : BitVec 12) : Bool := [0x030, 0x031, 0x032, 0x040, 0x041, 0x042].contains n.toNat

/-- The numbers of R150 that are held elsewhere. -/
def sysOther (n : BitVec 12) : Bool :=
  [0x000, 0x001, 0x002, 0x003, 0x004, 0x005, 0x010, 0x011, 0x012, 0x013, 0x014, 0x015, 0x016, 0x017, 0x020, 0x021,
   0x022, 0x033, 0x034, 0x043, 0x044].contains n.toNat

/-- The lane registers of 32 bits (R150). -/
def sysNarrow (n : BitVec 12) : Bool := [0x031, 0x041].contains n.toNat

/-- The guard and the register operand of rdsr and wrsr (R149, R392): a lane register goes with a vector register, a
pair for 64 bits, under any guard; every other one with a scalar register and G = 0. -/
def okSys (g : KReg) (n : BitVec 12) (r : BitVec 8) : Bool :=
  if sysLane n then sysNarrow n || r.toNat % 2 == 0
  else sysOther n && g == 0 && r.toNat < 64

/-- PART lies in range for ns source and nd destination elements (R197). -/
def okPart (ns nd : Nat) (p : BitVec 3) : Bool :=
  if nd ≤ ns then p.toNat < ns / nd else p.toNat < nd / ns

/-- The types of an amo (R215). -/
def AmoOp.okTy : AmoOp → Ty → Bool
  | .add, t | .min, t | .max, t | .and, t | .or, t | .xor, t => [Ty.i32, .n32, .i64, .n64].contains t
  | .swap, t | .cas, t => [Ty.n32, .n64].contains t
  | .fadd, t => t == .f32

/-- The instruction has a legal encoding (R139, R159 and its own entry); every event has this form. -/
def Instr.wellFormed : Instr → Bool
  | .sadd t .. | .ssub t .. | .smul t .. | .smulh t .. | .sand t .. | .sor t .. | .sxor t .. | .sshl t .. | .sshr t ..
  | .ssar t .. | .smin t .. | .smax t .. | .sandn t .. | .scmp _ t .. | .sdiv t .. | .srem t .. | .spop t .. | .sclz t ..
  | .sctz t .. => t.isInt
  | .ssel t .. => t.is64
  | .vadd _ t d a b | .vsub _ t d a b | .vand _ t d a b | .vor _ t d a b | .vxor _ t d a b | .vshl _ t d a b
  | .vshr _ t d a b | .vsar _ t d a b | .vmin _ t d a b | .vmax _ t d a b => t.isInt && t.okRegs [d, a, b]
  | .vmul _ t .. | .vmulh _ t .. | .vadds _ t .. | .vsubs _ t .. | .vmad _ t .. | .vpop _ t .. | .vclz _ t ..
  | .vctz _ t .. => t.isInt32
  | .vabs _ t .. | .vneg _ t .. => t.isInt32 && t.isSigned
  | .vcmp _ _ t _ a b => [Ty.i32, .n32, .i64, .n64].contains t && t.okRegs [a, b]
  | .vsel _ t d a b _ => [Ty.n32, .n64].contains t && t.okRegs [d, a, b]
  | .vmov _ t d a => [Ty.n32, .n64].contains t && t.okRegs [d, a]
  | .vbcast _ t d _ | .vsetl _ t d _ _ => [Ty.n32, .n64].contains t && t.okRegs [d]
  | .vgetl t _ a _ => [Ty.i32, .n32, .n64].contains t && t.okRegs [a]
  | .vperm _ t d a _ => [Ty.n32, .n64].contains t && t.okRegs [d, a]
  | .vshup _ t d a _ | .vshdn _ t d a _ | .vshxor _ t d a _ | .vrot _ t d a _ =>
      [Ty.n32, .n64].contains t && t.okRegs [d, a]
  | .vred _ _ t _ a => [Ty.i32, .n32, .i64, .n64].contains t && t.okRegs [a]
  | .vscan _ t .. | .vext _ t .. => [Ty.i32, .n32].contains t
  | .vdot4 _ t .. => [Ty.i8, .n8].contains t
  | .vgrow n | .vshrink n => 1 ≤ n.toNat && n.toNat ≤ 256
  | .fadd _ t .. | .fsub _ t .. | .fmul _ t .. | .fmin _ t .. | .fmax _ t .. | .fdiv _ t .. | .fsqrt _ t .. | .fabs _ t ..
  | .fneg _ t .. | .ffma _ t .. | .ffms _ t .. | .ffnma _ t .. | .ffnms _ t .. | .frcp _ t .. | .frsq _ t .. | .fexp2 _ t ..
  | .flog2 _ t .. | .fclass _ t .. => t.isArith
  | .fcvtFf _ dt ty _ sat p _ _ =>
      dt.isFloat && ty.isFloat && dt != ty && (!sat || dt == .e5m2) && okPart ty.elems dt.elems p
  | .fcvtFi _ dt ty _ sat p d _ =>
      dt.isInt && ty.isFloat && (!dt.is64 || ty == .f32) && !sat && okPart ty.elems dt.elems p && dt.okRegs [d]
  | .fcvtIf _ dt ty _ sat p _ a =>
      dt.isFloat && ty.isInt && (!ty.is64 || dt == .f32) && (!sat || dt == .e5m2) && okPart ty.elems dt.elems p
        && ty.okRegs [a]
  | .fpack _ dt _ sat _ a b =>
      [Ty.f16, .bf16, .e4m3, .e5m2].contains dt && (!sat || dt == .e5m2)
        && (dt.width != 8 || (a.isEven && b.isEven))
  | .funpack _ ty p d _ =>
      [Ty.f16, .bf16, .e4m3, .e5m2, .e2m1].contains ty && d.isEven && decide (2 * p.toNat < ty.elems)
  | .qblk _ t .. | .dqblk _ t .. => t.isBlock
  | .ld _ sz sx d _ _ _ => sz.okSx sx && sz.okReg d
  | .gth _ sz sx d a _ _ => sz.okSx sx && sz.okReg d && a.isEven
  | .st _ sz _ b _ => sz.okReg b
  | .sct _ sz a b _ => sz.okReg b && a.isEven
  | .spld _ sz am sx d a _ => sz.okSx sx && sz.okReg d && (!am || decide (a.toNat < 64))
  | .spst _ sz am a b _ => sz.okReg b && (!am || decide (a.toNat < 64))
  | .sld sz sx _ _ _ => sz != .b16 && !(sx && sz == .b8)
  | .sst sz _ _ _ => sz != .b16
  | .pf _ _ a _ | .resid _ a _ => a.isEven
  | .amo _ op t sc rt sp d a b c =>
      op.okTy t && !(sp && sc.isWide) && (sp || a.isEven) && (rt || d == 0) && (op == .cas || c == 0)
        && t.okRegs [d, b, c]
  | .racc _ t sc a b => [Ty.f32, .i32, .i64].contains t && sc.isWide && a.isEven && t.okRegs [b]
  | .barArr _ expv _ _ b => expv || b == 0
  | .wcnt l1 l2 l3 l4 => l1.toNat ≤ 63 && l2.toNat ≤ 63 && l3.toNat ≤ 15 && l4.toNat ≤ 15
  | .cmr t sc _ _ => [Ty.f32, .i32, .i64].contains t && sc.isWide
  | .mwld wt s24 _ b => wt.isMatrix && (wt.isBlock || s24 || b == 0)
  | .mmac xt sc osp add asrc _ a _ c =>
      xt.isMatrix && (if osp then sc == .core else sc.isWide && add) && !(asrc && xt.isBlock) && (xt.isBlock || c == 0)
        && (asrc || decide (a.toNat < 64))
  | .cpy _ _ _ bv bsp _ _ _ c => bv || (!bsp && c == 0)
  | .vwsync sc _ _ | .bcmd _ sc _ _ | .bwait sc _ | .xscale sc _ | .xsum sc _ => sc.isHome
  | .rdsr g n d => okSys g n d
  | .wrsr g n a => okSys g n a
  | .adot wf _ _ a _ _ => wf.toNat ≤ 5 && (wf.toNat < 4 || a.toNat % 2 == 0)
  | .aclr d n => d.toNat + n.toNat ≤ 15
  | .astc _ _ _ _ a n => a.toNat + n.toNat ≤ 15
  | .saddI .. | .ssubI .. | .smulI .. | .smulhI .. | .sandI .. | .sorI .. | .sxorI .. | .sshlI .. | .sshrI .. | .ssarI ..
  | .sminI .. | .smaxI .. | .sandnI .. | .scmpI .. | .sliI .. | .sliL .. | .slea .. | .kand .. | .kor .. | .kxor ..
  | .kandn .. | .knot .. | .kmov .. | .kpop .. | .kfirst .. | .ktos .. | .stok .. | .vaddI .. | .vsubI .. | .vmulI ..
  | .vmulhI .. | .vandI .. | .vorI .. | .vxorI .. | .vshlI .. | .vshrI .. | .vsarI .. | .vminI .. | .vmaxI .. | .vcmpI ..
  | .vlid .. | .fcmp .. | .fence .. | .barInit .. | .barExp .. | .barWait .. | .barTest .. | .seal .. | .unseal ..
  | .cmrend .. | .br .. | .bnz .. | .bz .. | .bany .. | .ball .. | .bnone .. | .bdiv .. | .call .. | .ret .. | .callr ..
  | .jmpr .. | .spmask .. | .spawn .. | .spawnf .. | .join .. | .done .. | .yield .. | .qpush .. | .qpop .. | .stlpause
  | .stlresume | .pdist .. | .mwsw | .mrdy | .mwait .. | .mcnt .. | .chain .. | .vwreg .. | .vwdrop .. | .sys .. | .hyp ..
  | .sret | .hret | .wfi => true
  | .ahalt | .ali .. | .alih .. | .aadd .. | .aaddi .. | .aloop .. | .abne .. | .aldw .. | .aemit .. | .afadd .. | .afmul ..
  | .aldc .. | .anop => true
  | .blockEntry | .issueCycle | .stringStarvation | .splitStarvation | .registerSpill | .registerFill
  | .interruptDelivery | .wfiWake | .l2WaitingStorePerform | .l1LeaseExpiry | .l2VictimEvict
  | .homeReadRequest | .homeOwnRequest | .homeWriteback | .homeAtomic | .discover
  | .agentProbeAnswer | .linkUp | .linkWakeTimeout | .agentDeclaredDead | .agentReset
  | .directoryEccError | .eccError | .memoryDieDead | .pchRequestServe | .pchAgeLimit
  | .bankRefresh | .pageWalkComplete | .tcinvAll | .tcinvCtx | .tcinvPage | .tcinvDrained
  | .regionEntryValidate | .regionEntryInvalidate | .regionWordWrite | .regionDrainDone | .timeExchange
  | .domainTimeLost | .barrierUpdate | .barrierPoll | .convoyTransferStart | .convoyLanding
  | .engineBankStarvation | .chainCopy | .chainGather | .chainScatter | .chainLoop | .chainCond
  | .chainWait | .chainArrive | .chainEnd | .chainStop | .porterStagingComplete | .partitionRelease
  | .arrayClaimGrant | .tileMwldLoad | .tileMwswExchange | .tileMmacStream | .tileOpComplete
  | .rodContribution | .cmRegistration | .partialRecallAnswer | .partialWriteback | .cmrComplete
  | .cmrendComplete | .masterWrite | .derivationDelayExpiry | .derivationStart | .derivationComplete
  | .viewRead | .vwdropComplete | .vwsyncComplete | .bankCommandEnqueue | .bankCommandStart
  | .bankCommandEnd | .abacusStepLimit | .launchSubmit | .bazaarQueueEnable | .bazaarQueueDisable
  | .stealSearch | .stealRetry | .stealTake | .droveSummary | .stealPauseLapse | .caravanToken
  | .caravanTokenPass | .taskStart | .parkSpill | .spillRestore | .contextFault | .ctxSave
  | .ctxRestore | .ctxRestoreCluster | .ctxPreempt | .ctxEnd | .evictedShareReturn | .hostRead
  | .hostWrite | .hostSnoop | .snoopFilterRecall | .dbellWrite | .naeshLinkReturn | .caravanLaneFail
  | .caravanRetrainDone | .remoteAccess | .remoteRefusal | .remoteAccessTimeout
  | .xscaleUnitContribute | .xscaleUnitFinish | .xsumUnitContribute | .xsumUnitFinish
  | .collectiveAreaClear | .packageReset | .powerAverage | .linkSleep | .clusterGate | .clusterUngate
  | .caravanPortIdle | .caravanPortWake | .thermalThrottle | .memoryDieHot | .thermalStop | .resqRead
  | .elogRead | .mcmdRoutes | .mcmdStealRing | .registerWrite | .illegalInstruction | .flitRetransmit
  | .thermalThrottleEnd | .memoryDieCooled => true

end Sys2Proof
end

