-- ==== Sys2Proof/Decode.lean ====
section
/-!
DEFINITION. Words and instructions (spec/06 R152 to R166, spec/11 R307, R308): the layouts R, I and L, the encoder of every
instruction from the encoding tables of its entry, and the decoder. `rawCore` and `rawAbacus` read the fields; a word
decodes to an instruction only if the instruction is well-formed and the word is exactly its encoding, so every reserved
field that is not zero and every reserved code is refused (R159, R165).
-/
namespace Sys2Proof

/-- The type's code (R161). -/
def Ty.code : Ty → BitVec 4
  | .i8 => 0 | .i16 => 1 | .i32 => 2 | .i64 => 3 | .n8 => 4 | .n16 => 5 | .n32 => 6 | .n64 => 7 | .f32 => 8 | .f16 => 9
  | .bf16 => 10 | .e4m3 => 11 | .e5m2 => 12 | .e2m1 => 13 | .b8 => 14 | .b4 => 15

/-- The type of a code (R161: all sixteen are assigned). -/
def Ty.ofCode (c : BitVec 4) : Ty :=
  match c.toNat with
  | 0 => .i8 | 1 => .i16 | 2 => .i32 | 3 => .i64 | 4 => .n8 | 5 => .n16 | 6 => .n32 | 7 => .n64 | 8 => .f32 | 9 => .f16
  | 10 => .bf16 | 11 => .e4m3 | 12 => .e5m2 | 13 => .e2m1 | 14 => .b8 | _ => .b4

/-- The rounding mode's code (R161). -/
def Rnd.code : Rnd → BitVec 3
  | .rn => 0 | .rz => 1 | .ru => 2 | .rd => 3 | .rs => 4

/-- The rounding mode of a code; a reserved code reads as `.rs` here and is refused by the comparison with the encoding. -/
def Rnd.ofCode (c : BitVec 3) : Rnd :=
  match c.toNat with
  | 0 => .rn | 1 => .rz | 2 => .ru | 3 => .rd | _ => .rs

/-- The scope's code (R161). -/
def Scope.code : Scope → BitVec 3
  | .core => 0 | .clus => 1 | .die => 2 | .pkg => 3 | .sys => 4

/-- The scope of a code; a reserved code reads as `.sys` here and is refused by the comparison with the encoding. -/
def Scope.ofCode (c : BitVec 3) : Scope :=
  match c.toNat with
  | 0 => .core | 1 => .clus | 2 => .die | 3 => .pkg | _ => .sys

/-- The relation's function code (R163). -/
def Cc.code : Cc → BitVec 4
  | .eq => 0 | .ne => 1 | .lt => 2 | .le => 3 | .gt => 4 | .ge => 5

/-- The relation of a function code; an unassigned code is refused by the comparison with the encoding. -/
def Cc.ofCode (c : BitVec 4) : Cc :=
  match c.toNat with
  | 0 => .eq | 1 => .ne | 2 => .lt | 3 => .le | 4 => .gt | _ => .ge

/-- The size's function code (R163). -/
def Size.code : Size → BitVec 4
  | .b1 => 0 | .b2 => 1 | .b4 => 2 | .b8 => 3 | .b16 => 4

/-- The size of a function code; an unassigned code is refused by the comparison with the encoding. -/
def Size.ofCode (c : BitVec 4) : Size :=
  match c.toNat with
  | 0 => .b1 | 1 => .b2 | 2 => .b4 | 3 => .b8 | _ => .b16

/-- The function code of vred (R188). -/
def RedOp.code : RedOp → BitVec 4
  | .add => 0 | .min => 1 | .max => 2 | .and => 3 | .or => 4 | .xor => 5

/-- The reduction of a function code; an unassigned code is refused by the comparison with the encoding. -/
def RedOp.ofCode (c : BitVec 4) : RedOp :=
  match c.toNat with
  | 0 => .add | 1 => .min | 2 => .max | 3 => .and | 4 => .or | _ => .xor

/-- The function code of amo (R215). -/
def AmoOp.code : AmoOp → BitVec 4
  | .add => 0 | .min => 1 | .max => 2 | .and => 3 | .or => 4 | .xor => 5 | .swap => 6 | .cas => 7 | .fadd => 8

/-- The atomic of a function code; an unassigned code is refused by the comparison with the encoding. -/
def AmoOp.ofCode (c : BitVec 4) : AmoOp :=
  match c.toNat with
  | 0 => .add | 1 => .min | 2 => .max | 3 => .and | 4 => .or | 5 => .xor | 6 => .swap | 7 => .cas | _ => .fadd

/-- The kind of a fence (R219). -/
def FenceKind.code : FenceKind → BitVec 2
  | .acq => 0 | .rel => 1 | .ar => 2

/-- The fence kind of a code; kind 3 is refused by the comparison with the encoding. -/
def FenceKind.ofCode (c : BitVec 2) : FenceKind :=
  match c.toNat with
  | 0 => .acq | 1 => .rel | _ => .ar

/-- The target of a prefetch (R212). -/
def PfTgt.code : PfTgt → BitVec 2
  | .l1 => 0 | .l2 => 1 | .llc => 2

/-- The prefetch target of a code; target 3 is refused by the comparison with the encoding. -/
def PfTgt.ofCode (c : BitVec 2) : PfTgt :=
  match c.toNat with
  | 0 => .l1 | 1 => .l2 | _ => .llc

/-- A scalar register in an operand field (R139). -/
def ofS (r : SReg) : Byte := r.setWidth 8
/-- A mask register in an operand field (R139). -/
def ofK (r : KReg) : Byte := r.setWidth 8

/-- The R layout (R158). -/
def rWord (op : BitVec 8) (g f : BitVec 4) (d a b c : Byte) (m : BitVec 16) : W64 :=
  op ++ g ++ f ++ d ++ a ++ b ++ c ++ m

/-- The I layout, and word 1 of the L layout with imm = 0 (R158). -/
def iWord (op : BitVec 8) (g f : BitVec 4) (d a : Byte) (imm : W32) : W64 :=
  op ++ g ++ f ++ d ++ a ++ imm

/-- An abacus word: OP, D, A, B and the low 16 bits (R307). -/
def qWord (op d a b : BitVec 4) (low : BitVec 16) : W32 := op ++ d ++ a ++ b ++ low

/-- What an instruction is encoded by. -/
inductive Enc where
  /-- One word of 64 bits (R158, layouts R and I). -/
  | word (w : W64)
  /-- Two words (layout L). -/
  | long (w w2 : W64)
  /-- An abacus word (R307). -/
  | abacus (w : W32)
  /-- An event: no encoding. -/
  | event
  deriving DecidableEq, Repr

/-- The encoding of an instruction, from the tables of its entry. -/
def encode : Instr → Enc
  | .sadd t d a b => .word (rWord 0x00#8 0 0#4 (ofS d) (ofS a) (ofS b) 0 (t.code ++ 0#12))
  | .ssub t d a b => .word (rWord 0x00#8 0 1#4 (ofS d) (ofS a) (ofS b) 0 (t.code ++ 0#12))
  | .smul t d a b => .word (rWord 0x00#8 0 2#4 (ofS d) (ofS a) (ofS b) 0 (t.code ++ 0#12))
  | .smulh t d a b => .word (rWord 0x00#8 0 3#4 (ofS d) (ofS a) (ofS b) 0 (t.code ++ 0#12))
  | .sand t d a b => .word (rWord 0x00#8 0 4#4 (ofS d) (ofS a) (ofS b) 0 (t.code ++ 0#12))
  | .sor t d a b => .word (rWord 0x00#8 0 5#4 (ofS d) (ofS a) (ofS b) 0 (t.code ++ 0#12))
  | .sxor t d a b => .word (rWord 0x00#8 0 6#4 (ofS d) (ofS a) (ofS b) 0 (t.code ++ 0#12))
  | .sshl t d a b => .word (rWord 0x00#8 0 7#4 (ofS d) (ofS a) (ofS b) 0 (t.code ++ 0#12))
  | .sshr t d a b => .word (rWord 0x00#8 0 8#4 (ofS d) (ofS a) (ofS b) 0 (t.code ++ 0#12))
  | .ssar t d a b => .word (rWord 0x00#8 0 9#4 (ofS d) (ofS a) (ofS b) 0 (t.code ++ 0#12))
  | .smin t d a b => .word (rWord 0x00#8 0 10#4 (ofS d) (ofS a) (ofS b) 0 (t.code ++ 0#12))
  | .smax t d a b => .word (rWord 0x00#8 0 11#4 (ofS d) (ofS a) (ofS b) 0 (t.code ++ 0#12))
  | .sandn t d a b => .word (rWord 0x00#8 0 12#4 (ofS d) (ofS a) (ofS b) 0 (t.code ++ 0#12))
  | .saddI d a imm => .word (iWord 0x01#8 0 0#4 (ofS d) (ofS a) imm)
  | .ssubI d a imm => .word (iWord 0x01#8 0 1#4 (ofS d) (ofS a) imm)
  | .smulI d a imm => .word (iWord 0x01#8 0 2#4 (ofS d) (ofS a) imm)
  | .smulhI d a imm => .word (iWord 0x01#8 0 3#4 (ofS d) (ofS a) imm)
  | .sandI d a imm => .word (iWord 0x01#8 0 4#4 (ofS d) (ofS a) imm)
  | .sorI d a imm => .word (iWord 0x01#8 0 5#4 (ofS d) (ofS a) imm)
  | .sxorI d a imm => .word (iWord 0x01#8 0 6#4 (ofS d) (ofS a) imm)
  | .sshlI d a imm => .word (iWord 0x01#8 0 7#4 (ofS d) (ofS a) imm)
  | .sshrI d a imm => .word (iWord 0x01#8 0 8#4 (ofS d) (ofS a) imm)
  | .ssarI d a imm => .word (iWord 0x01#8 0 9#4 (ofS d) (ofS a) imm)
  | .sminI d a imm => .word (iWord 0x01#8 0 10#4 (ofS d) (ofS a) imm)
  | .smaxI d a imm => .word (iWord 0x01#8 0 11#4 (ofS d) (ofS a) imm)
  | .sandnI d a imm => .word (iWord 0x01#8 0 12#4 (ofS d) (ofS a) imm)
  | .scmp cc t d a b => .word (rWord 0x02#8 0 cc.code (ofS d) (ofS a) (ofS b) 0 (t.code ++ 0#12))
  | .scmpI cc d a imm => .word (iWord 0x03#8 0 cc.code (ofS d) (ofS a) imm)
  | .sdiv t d a b => .word (rWord 0x04#8 0 0#4 (ofS d) (ofS a) (ofS b) 0 (t.code ++ 0#12))
  | .srem t d a b => .word (rWord 0x04#8 0 1#4 (ofS d) (ofS a) (ofS b) 0 (t.code ++ 0#12))
  | .sliI d imm => .word (iWord 0x05#8 0 0#4 (ofS d) 0 imm)
  | .sliL d imm => .long (iWord 0x05#8 0 1#4 (ofS d) 0 0) imm
  | .ssel t d a b c => .word (rWord 0x06#8 0 0#4 (ofS d) (ofS a) (ofS b) (ofS c) (t.code ++ 0#12))
  | .spop t d a => .word (rWord 0x06#8 0 1#4 (ofS d) (ofS a) 0 0 (t.code ++ 0#12))
  | .sclz t d a => .word (rWord 0x06#8 0 2#4 (ofS d) (ofS a) 0 0 (t.code ++ 0#12))
  | .sctz t d a => .word (rWord 0x06#8 0 3#4 (ofS d) (ofS a) 0 0 (t.code ++ 0#12))
  | .slea d a b sh => .word (rWord 0x07#8 0 0#4 (ofS d) (ofS a) (ofS b) 0 (7#4 ++ 0#9 ++ sh))
  | .kand d a b => .word (rWord 0x08#8 0 0#4 (ofK d) (ofK a) (ofK b) 0 0)
  | .kor d a b => .word (rWord 0x08#8 0 1#4 (ofK d) (ofK a) (ofK b) 0 0)
  | .kxor d a b => .word (rWord 0x08#8 0 2#4 (ofK d) (ofK a) (ofK b) 0 0)
  | .kandn d a b => .word (rWord 0x08#8 0 3#4 (ofK d) (ofK a) (ofK b) 0 0)
  | .knot d a => .word (rWord 0x08#8 0 4#4 (ofK d) (ofK a) 0 0 0)
  | .kmov d a => .word (rWord 0x08#8 0 5#4 (ofK d) (ofK a) 0 0 0)
  | .kpop d a => .word (rWord 0x08#8 0 6#4 (ofS d) (ofK a) 0 0 0)
  | .kfirst d a => .word (rWord 0x08#8 0 7#4 (ofS d) (ofK a) 0 0 0)
  | .ktos d a => .word (rWord 0x08#8 0 8#4 (ofS d) (ofK a) 0 0 0)
  | .stok d a => .word (rWord 0x08#8 0 9#4 (ofK d) (ofS a) 0 0 0)
  | .vadd g t d a b => .word (rWord 0x20#8 g 0#4 d a b 0 (t.code ++ 0#12))
  | .vsub g t d a b => .word (rWord 0x20#8 g 1#4 d a b 0 (t.code ++ 0#12))
  | .vmul g t d a b => .word (rWord 0x20#8 g 2#4 d a b 0 (t.code ++ 0#12))
  | .vmulh g t d a b => .word (rWord 0x20#8 g 3#4 d a b 0 (t.code ++ 0#12))
  | .vand g t d a b => .word (rWord 0x20#8 g 4#4 d a b 0 (t.code ++ 0#12))
  | .vor g t d a b => .word (rWord 0x20#8 g 5#4 d a b 0 (t.code ++ 0#12))
  | .vxor g t d a b => .word (rWord 0x20#8 g 6#4 d a b 0 (t.code ++ 0#12))
  | .vshl g t d a b => .word (rWord 0x20#8 g 7#4 d a b 0 (t.code ++ 0#12))
  | .vshr g t d a b => .word (rWord 0x20#8 g 8#4 d a b 0 (t.code ++ 0#12))
  | .vsar g t d a b => .word (rWord 0x20#8 g 9#4 d a b 0 (t.code ++ 0#12))
  | .vmin g t d a b => .word (rWord 0x20#8 g 10#4 d a b 0 (t.code ++ 0#12))
  | .vmax g t d a b => .word (rWord 0x20#8 g 11#4 d a b 0 (t.code ++ 0#12))
  | .vabs g t d a => .word (rWord 0x20#8 g 12#4 d a 0 0 (t.code ++ 0#12))
  | .vneg g t d a => .word (rWord 0x20#8 g 13#4 d a 0 0 (t.code ++ 0#12))
  | .vadds g t d a b => .word (rWord 0x20#8 g 14#4 d a b 0 (t.code ++ 0#12))
  | .vsubs g t d a b => .word (rWord 0x20#8 g 15#4 d a b 0 (t.code ++ 0#12))
  | .vaddI g d a imm => .word (iWord 0x21#8 g 0#4 d a imm)
  | .vsubI g d a imm => .word (iWord 0x21#8 g 1#4 d a imm)
  | .vmulI g d a imm => .word (iWord 0x21#8 g 2#4 d a imm)
  | .vmulhI g d a imm => .word (iWord 0x21#8 g 3#4 d a imm)
  | .vandI g d a imm => .word (iWord 0x21#8 g 4#4 d a imm)
  | .vorI g d a imm => .word (iWord 0x21#8 g 5#4 d a imm)
  | .vxorI g d a imm => .word (iWord 0x21#8 g 6#4 d a imm)
  | .vshlI g d a imm => .word (iWord 0x21#8 g 7#4 d a imm)
  | .vshrI g d a imm => .word (iWord 0x21#8 g 8#4 d a imm)
  | .vsarI g d a imm => .word (iWord 0x21#8 g 9#4 d a imm)
  | .vminI g d a imm => .word (iWord 0x21#8 g 10#4 d a imm)
  | .vmaxI g d a imm => .word (iWord 0x21#8 g 11#4 d a imm)
  | .vcmp g cc t d a b => .word (rWord 0x22#8 g cc.code (ofK d) a b 0 (t.code ++ 0#12))
  | .vcmpI g cc d a imm => .word (iWord 0x23#8 g cc.code (ofK d) a imm)
  | .vsel g t d a b c => .word (rWord 0x24#8 g 0#4 d a b (ofK c) (t.code ++ 0#12))
  | .vmov g t d a => .word (rWord 0x24#8 g 1#4 d a 0 0 (t.code ++ 0#12))
  | .vbcast g t d a => .word (rWord 0x24#8 g 2#4 d (ofS a) 0 0 (t.code ++ 0#12))
  | .vlid g d => .word (rWord 0x24#8 g 3#4 d 0 0 0 (6#4 ++ 0#12))
  | .vgetl t d a b => .word (rWord 0x24#8 0 4#4 (ofS d) a (ofS b) 0 (t.code ++ 0#12))
  | .vsetl g t d a b => .word (rWord 0x24#8 g 5#4 d (ofS a) (ofS b) 0 (t.code ++ 0#12))
  | .vperm g t d a b => .word (rWord 0x25#8 g 0#4 d a b 0 (t.code ++ 0#12))
  | .vshup g t d a dist => .word (rWord 0x25#8 g 1#4 d a 0 0 (t.code ++ 0#7 ++ dist))
  | .vshdn g t d a dist => .word (rWord 0x25#8 g 2#4 d a 0 0 (t.code ++ 0#7 ++ dist))
  | .vshxor g t d a dist => .word (rWord 0x25#8 g 3#4 d a 0 0 (t.code ++ 0#7 ++ dist))
  | .vrot g t d a dist => .word (rWord 0x25#8 g 4#4 d a 0 0 (t.code ++ 0#7 ++ dist))
  | .vred g op t d a => .word (rWord 0x26#8 g op.code (ofS d) a 0 0 (t.code ++ 0#12))
  | .vscan g t ex d a => .word (rWord 0x26#8 g 8#4 d a 0 0 (t.code ++ 0#11 ++ BitVec.ofBool ex))
  | .vmad g t d a b c => .word (rWord 0x27#8 g 0#4 d a b c (t.code ++ 0#12))
  | .vdot4 g t d a b c => .word (rWord 0x27#8 g 1#4 d a b c (t.code ++ 0#12))
  | .vpop g t d a => .word (rWord 0x28#8 g 0#4 d a 0 0 (t.code ++ 0#12))
  | .vclz g t d a => .word (rWord 0x28#8 g 1#4 d a 0 0 (t.code ++ 0#12))
  | .vctz g t d a => .word (rWord 0x28#8 g 2#4 d a 0 0 (t.code ++ 0#12))
  | .vext g t d a b => .word (rWord 0x28#8 g 3#4 d a b 0 (t.code ++ 0#12))
  | .vgrow n => .word (iWord 0x3F#8 0 0#4 0 0 n)
  | .vshrink n => .word (iWord 0x3F#8 0 1#4 0 0 n)
  | .fadd g t r d a b => .word (rWord 0x40#8 g 0#4 d a b 0 (t.code ++ r.code ++ 0#9))
  | .fsub g t r d a b => .word (rWord 0x40#8 g 1#4 d a b 0 (t.code ++ r.code ++ 0#9))
  | .fmul g t r d a b => .word (rWord 0x40#8 g 2#4 d a b 0 (t.code ++ r.code ++ 0#9))
  | .fmin g t d a b => .word (rWord 0x40#8 g 3#4 d a b 0 (t.code ++ 0#12))
  | .fmax g t d a b => .word (rWord 0x40#8 g 4#4 d a b 0 (t.code ++ 0#12))
  | .fdiv g t r d a b => .word (rWord 0x40#8 g 5#4 d a b 0 (t.code ++ r.code ++ 0#9))
  | .fsqrt g t r d a => .word (rWord 0x40#8 g 6#4 d a 0 0 (t.code ++ r.code ++ 0#9))
  | .fabs g t d a => .word (rWord 0x40#8 g 7#4 d a 0 0 (t.code ++ 0#12))
  | .fneg g t d a => .word (rWord 0x40#8 g 8#4 d a 0 0 (t.code ++ 0#12))
  | .ffma g t r d a b c => .word (rWord 0x41#8 g 0#4 d a b c (t.code ++ r.code ++ 0#9))
  | .ffms g t r d a b c => .word (rWord 0x41#8 g 1#4 d a b c (t.code ++ r.code ++ 0#9))
  | .ffnma g t r d a b c => .word (rWord 0x41#8 g 2#4 d a b c (t.code ++ r.code ++ 0#9))
  | .ffnms g t r d a b c => .word (rWord 0x41#8 g 3#4 d a b c (t.code ++ r.code ++ 0#9))
  | .frcp g t d a => .word (rWord 0x42#8 g 0#4 d a 0 0 (t.code ++ 0#12))
  | .frsq g t d a => .word (rWord 0x42#8 g 1#4 d a 0 0 (t.code ++ 0#12))
  | .fexp2 g t d a => .word (rWord 0x42#8 g 2#4 d a 0 0 (t.code ++ 0#12))
  | .flog2 g t d a => .word (rWord 0x42#8 g 3#4 d a 0 0 (t.code ++ 0#12))
  | .fcmp g cc d a b => .word (rWord 0x43#8 g cc.code (ofK d) a b 0 (8#4 ++ 0#12))
  | .fclass g t d a => .word (rWord 0x43#8 g 6#4 d a 0 0 (t.code ++ 0#12))
  | .fcvtFf g dt src r sat part d a =>
      .word (rWord 0x44#8 g 0#4 d a 0 0 (dt.code ++ r.code ++ src.code ++ BitVec.ofBool sat ++ 0#1 ++ part))
  | .fcvtFi g dt src r sat part d a =>
      .word (rWord 0x44#8 g 1#4 d a 0 0 (dt.code ++ r.code ++ src.code ++ BitVec.ofBool sat ++ 0#1 ++ part))
  | .fcvtIf g dt src r sat part d a =>
      .word (rWord 0x44#8 g 2#4 d a 0 0 (dt.code ++ r.code ++ src.code ++ BitVec.ofBool sat ++ 0#1 ++ part))
  | .fpack g dt r sat d a b =>
      .word (rWord 0x45#8 g 0#4 d a b 0 (dt.code ++ r.code ++ 0#4 ++ BitVec.ofBool sat ++ 0#4))
  | .funpack g src part d a => .word (rWord 0x45#8 g 1#4 d a 0 0 (src.code ++ 0#9 ++ part))
  | .qblk g t r d a => .word (rWord 0x46#8 g 0#4 d a 0 0 (t.code ++ r.code ++ 0#9))
  | .dqblk g t d a => .word (rWord 0x46#8 g 1#4 d a 0 0 (t.code ++ 0#12))
  | .ld g sz sx d a res off =>
      .word (rWord 0x60#8 g sz.code d (ofS a) 0 (ofK res) (BitVec.ofBool
        (res != 0) ++ BitVec.ofBool sx ++ 0#2 ++ off))
  | .st g sz a b off => .word (rWord 0x61#8 g sz.code 0 (ofS a) b 0 (0#4 ++ off))
  | .gth g sz sx d a res off =>
      .word (rWord 0x62#8 g sz.code d a 0 (ofK res) (BitVec.ofBool (res != 0) ++ BitVec.ofBool sx ++ 0#2 ++ off))
  | .sct g sz a b off => .word (rWord 0x63#8 g sz.code 0 a b 0 (0#4 ++ off))
  | .spld g sz am sx d a off =>
      .word (rWord 0x64#8 g sz.code d a 0 0 (BitVec.ofBool am ++ BitVec.ofBool sx ++ 0#2 ++ off))
  | .spst g sz am a b off => .word (rWord 0x65#8 g sz.code 0 a b 0 (BitVec.ofBool am ++ 0#3 ++ off))
  | .pf g tgt a off => .word (rWord 0x66#8 g 0#4 0 a 0 0 (0#2 ++ tgt.code ++ off))
  | .resid g a off => .word (rWord 0x66#8 g 1#4 0 a 0 0 (0#4 ++ off))
  | .sld sz sx d a off => .word (rWord 0x67#8 0 sz.code (ofS d) (ofS a) 0 0 (0#1 ++ BitVec.ofBool sx ++ 0#2 ++ off))
  | .sst sz a b off => .word (rWord 0x68#8 0 sz.code 0 (ofS a) (ofS b) 0 (0#4 ++ off))
  | .amo g op t sc rt sp d a b c =>
      .word (rWord 0x80#8 g op.code d a b c (t.code ++ sc.code ++ BitVec.ofBool rt ++ BitVec.ofBool sp ++ 0#7))
  | .racc g t sc a b => .word (rWord 0x81#8 g 0#4 0 a b 0 (t.code ++ sc.code ++ 0#9))
  | .fence sc k => .word (rWord 0x90#8 0 0#4 0 0 0 0 (0#4 ++ sc.code ++ 0#7 ++ k.code))
  | .barInit sp a b c => .word (rWord 0x91#8 0 0#4 0 (ofS a) (ofS b) (ofS c) (0#10 ++ BitVec.ofBool sp ++ 0#5))
  | .barExp sp a b => .word (rWord 0x91#8 0 1#4 0 (ofS a) (ofS b) 0 (0#10 ++ BitVec.ofBool sp ++ 0#5))
  | .barArr sc expv sp a b =>
      .word (rWord 0x91#8 0 2#4 0 (ofS a) (ofS b) 0
        (0#4 ++ sc.code ++ 0#1 ++ BitVec.ofBool expv ++ 0#1 ++ BitVec.ofBool sp ++ 0#5))
  | .barWait sc sp d a b =>
      .word (rWord 0x91#8 0 3#4 (ofS d) (ofS a) (ofS b) 0 (0#4 ++ sc.code ++ 0#3 ++ BitVec.ofBool sp ++ 0#5))
  | .barTest sc sp d a =>
      .word (rWord 0x91#8 0 4#4 (ofS d) (ofS a) 0 0 (0#4 ++ sc.code ++ 0#3 ++ BitVec.ofBool sp ++ 0#5))
  | .wcnt l1 l2 l3 l4 => .word (iWord 0x92#8 0 0#4 0 0 (l1 ++ l2 ++ l3 ++ l4))
  | .seal a b => .word (rWord 0x93#8 0 0#4 0 (ofS a) (ofS b) 0 0)
  | .unseal a b => .word (rWord 0x93#8 0 1#4 0 (ofS a) (ofS b) 0 0)
  | .cmr t sc a b => .word (rWord 0x94#8 0 0#4 0 (ofS a) (ofS b) 0 (t.code ++ sc.code ++ 0#9))
  | .cmrend a => .word (rWord 0x94#8 0 1#4 0 (ofS a) 0 0 0)
  | .br imm => .word (iWord 0xA0#8 0 0#4 0 0 imm)
  | .bnz a imm => .word (iWord 0xA0#8 0 1#4 0 (ofS a) imm)
  | .bz a imm => .word (iWord 0xA0#8 0 2#4 0 (ofS a) imm)
  | .bany a imm => .word (iWord 0xA0#8 0 3#4 0 (ofK a) imm)
  | .ball a imm => .word (iWord 0xA0#8 0 4#4 0 (ofK a) imm)
  | .bnone a imm => .word (iWord 0xA0#8 0 5#4 0 (ofK a) imm)
  | .bdiv a imm => .word (iWord 0xA0#8 0 6#4 0 (ofK a) imm)
  | .call d imm => .word (iWord 0xA1#8 0 0#4 (ofS d) 0 imm)
  | .ret a => .word (rWord 0xA1#8 0 1#4 0 (ofS a) 0 0 0)
  | .callr d a => .word (rWord 0xA1#8 0 2#4 (ofS d) (ofS a) 0 0 0)
  | .jmpr a => .word (rWord 0xA1#8 0 3#4 0 (ofS a) 0 0 0)
  | .spmask d => .word (rWord 0xA2#8 0 0#4 (ofK d) 0 0 0 0)
  | .spawn sc sp a => .word (rWord 0xB0#8 0 0#4 0 (ofS a) 0 0 (0#4 ++ sc.code ++ 0#3 ++ BitVec.ofBool sp ++ 0#5))
  | .spawnf sc sp d a b =>
      .word (rWord 0xB0#8 0 1#4 (ofS d) (ofS a) (ofS b) 0 (0#4 ++ sc.code ++ 0#3 ++ BitVec.ofBool sp ++ 0#5))
  | .join sc d a b => .word (rWord 0xB0#8 0 2#4 (ofS d) (ofS a) (ofS b) 0 (0#4 ++ sc.code ++ 0#9))
  | .done sc a => .word (rWord 0xB0#8 0 3#4 0 (ofS a) 0 0 (0#4 ++ sc.code ++ 0#9))
  | .yield spill => .word (rWord 0xB0#8 0 4#4 0 0 0 0 (0#15 ++ BitVec.ofBool spill))
  | .qpush sc d a b => .word (rWord 0xB1#8 0 0#4 (ofS d) (ofS a) (ofS b) 0 (0#4 ++ sc.code ++ 0#9))
  | .qpop sc d a b => .word (rWord 0xB1#8 0 1#4 (ofS d) (ofS a) (ofS b) 0 (0#4 ++ sc.code ++ 0#9))
  | .stlpause => .word (rWord 0xB2#8 0 0#4 0 0 0 0 0)
  | .stlresume => .word (rWord 0xB2#8 0 1#4 0 0 0 0 0)
  | .pdist d a => .word (rWord 0xB2#8 0 2#4 (ofS d) (ofS a) 0 0 0)
  | .mwld wt s24 a b => .word (rWord 0xC0#8 0 0#4 0 (ofS a) (ofS b) 0 (wt.code ++ 0#1 ++ BitVec.ofBool s24 ++ 0#10))
  | .mwsw => .word (rWord 0xC0#8 0 1#4 0 0 0 0 0)
  | .mmac xt sc osp add asrc d a b c =>
      .word (rWord 0xC0#8 0 2#4 (ofS d) a (ofS b) (ofS c)
        (xt.code ++ sc.code ++ BitVec.ofBool osp ++ 0#1 ++ BitVec.ofBool add ++ BitVec.ofBool asrc ++ 0#5))
  | .mrdy => .word (rWord 0xC0#8 0 3#4 0 0 0 0 0)
  | .mwait opnd n => .word (rWord 0xC0#8 0 4#4 0 0 0 0 (0#11 ++ BitVec.ofBool opnd ++ n))
  | .mcnt clr d => .word (rWord 0xC0#8 0 5#4 (ofS d) 0 0 0 (0#15 ++ BitVec.ofBool clr))
  | .cpy sc dsp ssp bv bsp d a b c =>
      .word (rWord 0xD0#8 0 0#4 (ofS d) (ofS a) (ofS b) (ofS c)
        (0#4 ++ sc.code ++ BitVec.ofBool dsp ++ BitVec.ofBool ssp ++ BitVec.ofBool bv ++ BitVec.ofBool bsp ++ 0#5))
  | .chain sc bsp a b =>
      .word (rWord 0xD0#8 0 1#4 0 (ofS a) (ofS b) 0 (0#4 ++ sc.code ++ 0#3 ++ BitVec.ofBool bsp ++ 0#5))
  | .vwreg d a => .word (rWord 0xD1#8 0 0#4 (ofS d) (ofS a) 0 0 0)
  | .vwdrop a => .word (rWord 0xD1#8 0 1#4 0 (ofS a) 0 0 0)
  | .vwsync sc d a => .word (rWord 0xD1#8 0 2#4 (ofS d) (ofS a) 0 0 (0#4 ++ sc.code ++ 0#9))
  | .bcmd g sc a b => .word (rWord 0xD2#8 g 0#4 0 a (ofS b) 0 (0#4 ++ sc.code ++ 0#9))
  | .bwait sc d => .word (rWord 0xD2#8 0 1#4 (ofS d) 0 0 0 (0#4 ++ sc.code ++ 0#9))
  | .xscale sc a => .word (rWord 0xD3#8 0 0#4 0 (ofS a) 0 0 (0#4 ++ sc.code ++ 0#9))
  | .xsum sc a => .word (rWord 0xD3#8 0 1#4 0 (ofS a) 0 0 (0#4 ++ sc.code ++ 0#9))
  | .sys g n => .word (rWord 0xE0#8 g 0#4 0 0 0 0 n)
  | .hyp g n => .word (rWord 0xE0#8 g 1#4 0 0 0 0 n)
  | .sret => .word (rWord 0xE0#8 0 2#4 0 0 0 0 0)
  | .hret => .word (rWord 0xE0#8 0 3#4 0 0 0 0 0)
  | .rdsr g n d => .word (rWord 0xE0#8 g 4#4 d 0 0 0 (0#4 ++ n))
  | .wrsr g n a => .word (rWord 0xE0#8 g 5#4 0 a 0 0 (0#4 ++ n))
  | .wfi => .word (rWord 0xE0#8 0 6#4 0 0 0 0 0)
  | .ahalt => .abacus (qWord 0 0 0 0 0)
  | .ali d imm => .abacus (qWord 1 d 0 0 imm)
  | .alih d imm => .abacus (qWord 2 d 0 0 imm)
  | .aadd d a b => .abacus (qWord 3 d a b 0)
  | .aaddi d a imm => .abacus (qWord 4 d a 0 imm)
  | .aloop a t => .abacus (qWord 5 0 a 0 (0#8 ++ t))
  | .abne a b t => .abacus (qWord 6 0 a b (0#8 ++ t))
  | .aldw inc d a b => .abacus (qWord 7 d a b (0#4 ++ BitVec.ofBool inc ++ 0#11))
  | .adot wf inc d a b c => .abacus (qWord 8 d a b (c ++ wf ++ BitVec.ofBool inc ++ 0#8))
  | .aclr d n => .abacus (qWord 9 d 0 0 (n ++ 0#12))
  | .astc sf cl inc d a n =>
      .abacus (qWord 10 d a 0 (n ++ BitVec.ofBool sf ++ BitVec.ofBool cl ++ BitVec.ofBool inc ++ 0#9))
  | .aemit inc a b c => .abacus (qWord 11 0 a b (c ++ BitVec.ofBool inc ++ 0#11))
  | .afadd d a b => .abacus (qWord 12 d a b 0)
  | .afmul d a b => .abacus (qWord 13 d a b 0)
  | .aldc d a => .abacus (qWord 14 d a 0 0)
  | .anop => .abacus (qWord 15 0 0 0 0)
  | .blockEntry | .issueCycle | .stringStarvation | .splitStarvation | .registerSpill | .registerFill
  | .interruptDelivery | .wfiWake | .l2WaitingStorePerform | .l1LeaseExpiry | .l2VictimEvict | .homeReadRequest
  | .homeOwnRequest | .homeWriteback | .homeAtomic | .discover | .agentProbeAnswer | .linkUp | .linkWakeTimeout
  | .agentDeclaredDead | .agentReset | .directoryEccError | .eccError | .memoryDieDead | .pchRequestServe
  | .pchAgeLimit | .bankRefresh | .pageWalkComplete | .tcinvAll | .tcinvCtx | .tcinvPage | .tcinvDrained
  | .regionEntryValidate | .regionEntryInvalidate | .regionWordWrite | .regionDrainDone | .timeExchange
  | .domainTimeLost | .barrierUpdate | .barrierPoll | .convoyTransferStart | .convoyLanding | .engineBankStarvation
  | .chainCopy | .chainGather | .chainScatter | .chainLoop | .chainCond | .chainWait | .chainArrive | .chainEnd
  | .chainStop | .porterStagingComplete | .partitionRelease | .arrayClaimGrant | .tileMwldLoad | .tileMwswExchange
  | .tileMmacStream | .tileOpComplete | .rodContribution | .cmRegistration | .partialRecallAnswer | .partialWriteback
  | .cmrComplete | .cmrendComplete | .masterWrite | .derivationDelayExpiry | .derivationStart | .derivationComplete
  | .viewRead | .vwdropComplete | .vwsyncComplete | .bankCommandEnqueue | .bankCommandStart | .bankCommandEnd
  | .abacusStepLimit | .launchSubmit | .bazaarQueueEnable | .bazaarQueueDisable | .stealSearch | .stealRetry
  | .stealTake | .droveSummary | .stealPauseLapse | .caravanToken | .caravanTokenPass | .taskStart | .parkSpill
  | .spillRestore | .contextFault | .ctxSave | .ctxRestore | .ctxRestoreCluster | .ctxPreempt | .ctxEnd
  | .evictedShareReturn | .hostRead | .hostWrite | .hostSnoop | .snoopFilterRecall | .dbellWrite | .naeshLinkReturn
  | .caravanLaneFail | .caravanRetrainDone | .remoteAccess | .remoteRefusal | .remoteAccessTimeout
  | .xscaleUnitContribute | .xscaleUnitFinish | .xsumUnitContribute | .xsumUnitFinish | .collectiveAreaClear
  | .packageReset | .powerAverage | .linkSleep | .clusterGate | .clusterUngate | .caravanPortIdle | .caravanPortWake
  | .thermalThrottle | .memoryDieHot | .thermalStop | .resqRead | .elogRead | .mcmdRoutes | .mcmdStealRing
  | .registerWrite | .illegalInstruction | .flitRetransmit | .thermalThrottleEnd | .memoryDieCooled => .event

/-- The words of 64 bits an instruction takes in its block (R158). -/
def Instr.words (i : Instr) : Nat :=
  match encode i with
  | .word _ => 1
  | .long _ _ => 2
  | .abacus _ | .event => 0

/-- The first word of a core instruction, which the illegal-instruction and privilege traps report (R159, R393). -/
def Instr.firstWord (i : Instr) : W64 :=
  match encode i with
  | .word w | .long w _ => w
  | .abacus _ | .event => 0

/-- The destination field as a scalar register. -/
def sD (w : W64) : SReg := w.extractLsb' 40 6
/-- Field A as a scalar register. -/
def sA (w : W64) : SReg := w.extractLsb' 32 6
/-- Field B as a scalar register. -/
def sB (w : W64) : SReg := w.extractLsb' 24 6
/-- Field C as a scalar register. -/
def sC (w : W64) : SReg := w.extractLsb' 16 6
/-- The destination field as a mask register. -/
def kD (w : W64) : KReg := w.extractLsb' 40 4
/-- Field A as a mask register. -/
def kA (w : W64) : KReg := w.extractLsb' 32 4
/-- Field B as a mask register. -/
def kB (w : W64) : KReg := w.extractLsb' 24 4
/-- Field C as a mask register. -/
def kC (w : W64) : KReg := w.extractLsb' 16 4
/-- The destination field (R158). -/
def vD (w : W64) : VReg := w.extractLsb' 40 8
/-- Field A. -/
def vA (w : W64) : VReg := w.extractLsb' 32 8
/-- Field B. -/
def vB (w : W64) : VReg := w.extractLsb' 24 8
/-- Field C. -/
def vC (w : W64) : VReg := w.extractLsb' 16 8
/-- The guard (R9, R158). -/
def fG (w : W64) : KReg := w.extractLsb' 52 4
/-- The function (R158). -/
def fF (w : W64) : BitVec 4 := w.extractLsb' 48 4
/-- The immediate of the I layout. -/
def fImm (w : W64) : W32 := w.extractLsb' 0 32
/-- OFF (R202). -/
def fOff (w : W64) : BitVec 12 := w.extractLsb' 0 12
/-- The type in M[15:12] (R162). -/
def fTy (w : W64) : Ty := Ty.ofCode (w.extractLsb' 12 4)
/-- The rounding mode in M[11:9] (R162). -/
def fRnd (w : W64) : Rnd := Rnd.ofCode (w.extractLsb' 9 3)
/-- The scope in M[11:9]. -/
def fScope (w : W64) : Scope := Scope.ofCode (w.extractLsb' 9 3)

/-- The fields of a word of major 0x00 (R163). -/
def raw00 (w : W64) : Option Instr :=
  match (fF w).toNat with
  | 0 => some (.sadd (fTy w) (sD w) (sA w) (sB w))
  | 1 => some (.ssub (fTy w) (sD w) (sA w) (sB w))
  | 2 => some (.smul (fTy w) (sD w) (sA w) (sB w))
  | 3 => some (.smulh (fTy w) (sD w) (sA w) (sB w))
  | 4 => some (.sand (fTy w) (sD w) (sA w) (sB w))
  | 5 => some (.sor (fTy w) (sD w) (sA w) (sB w))
  | 6 => some (.sxor (fTy w) (sD w) (sA w) (sB w))
  | 7 => some (.sshl (fTy w) (sD w) (sA w) (sB w))
  | 8 => some (.sshr (fTy w) (sD w) (sA w) (sB w))
  | 9 => some (.ssar (fTy w) (sD w) (sA w) (sB w))
  | 10 => some (.smin (fTy w) (sD w) (sA w) (sB w))
  | 11 => some (.smax (fTy w) (sD w) (sA w) (sB w))
  | 12 => some (.sandn (fTy w) (sD w) (sA w) (sB w))
  | _ => none

/-- The fields of a word of major 0x01 (R163). -/
def raw01 (w : W64) : Option Instr :=
  match (fF w).toNat with
  | 0 => some (.saddI (sD w) (sA w) (fImm w))
  | 1 => some (.ssubI (sD w) (sA w) (fImm w))
  | 2 => some (.smulI (sD w) (sA w) (fImm w))
  | 3 => some (.smulhI (sD w) (sA w) (fImm w))
  | 4 => some (.sandI (sD w) (sA w) (fImm w))
  | 5 => some (.sorI (sD w) (sA w) (fImm w))
  | 6 => some (.sxorI (sD w) (sA w) (fImm w))
  | 7 => some (.sshlI (sD w) (sA w) (fImm w))
  | 8 => some (.sshrI (sD w) (sA w) (fImm w))
  | 9 => some (.ssarI (sD w) (sA w) (fImm w))
  | 10 => some (.sminI (sD w) (sA w) (fImm w))
  | 11 => some (.smaxI (sD w) (sA w) (fImm w))
  | 12 => some (.sandnI (sD w) (sA w) (fImm w))
  | _ => none

/-- The fields of a word of major 0x02 (R163). -/
def raw02 (w : W64) : Option Instr :=
  some (.scmp (Cc.ofCode (fF w)) (fTy w) (sD w) (sA w) (sB w))

/-- The fields of a word of major 0x03 (R163). -/
def raw03 (w : W64) : Option Instr :=
  some (.scmpI (Cc.ofCode (fF w)) (sD w) (sA w) (fImm w))

/-- The fields of a word of major 0x04 (R163). -/
def raw04 (w : W64) : Option Instr :=
  match (fF w).toNat with
  | 0 => some (.sdiv (fTy w) (sD w) (sA w) (sB w))
  | 1 => some (.srem (fTy w) (sD w) (sA w) (sB w))
  | _ => none

/-- The fields of a word of major 0x05 (R163). -/
def raw05 (w w2 : W64) : Option Instr :=
  match (fF w).toNat with
  | 0 => some (.sliI (sD w) (fImm w))
  | 1 => some (.sliL (sD w) w2)
  | _ => none

/-- The fields of a word of major 0x06 (R163). -/
def raw06 (w : W64) : Option Instr :=
  match (fF w).toNat with
  | 0 => some (.ssel (fTy w) (sD w) (sA w) (sB w) (sC w))
  | 1 => some (.spop (fTy w) (sD w) (sA w))
  | 2 => some (.sclz (fTy w) (sD w) (sA w))
  | 3 => some (.sctz (fTy w) (sD w) (sA w))
  | _ => none

/-- The fields of a word of major 0x07 (R163). -/
def raw07 (w : W64) : Option Instr :=
  match (fF w).toNat with
  | 0 => some (.slea (sD w) (sA w) (sB w) (w.extractLsb' 0 3))
  | _ => none

/-- The fields of a word of major 0x08 (R163). -/
def raw08 (w : W64) : Option Instr :=
  match (fF w).toNat with
  | 0 => some (.kand (kD w) (kA w) (kB w))
  | 1 => some (.kor (kD w) (kA w) (kB w))
  | 2 => some (.kxor (kD w) (kA w) (kB w))
  | 3 => some (.kandn (kD w) (kA w) (kB w))
  | 4 => some (.knot (kD w) (kA w))
  | 5 => some (.kmov (kD w) (kA w))
  | 6 => some (.kpop (sD w) (kA w))
  | 7 => some (.kfirst (sD w) (kA w))
  | 8 => some (.ktos (sD w) (kA w))
  | 9 => some (.stok (kD w) (sA w))
  | _ => none

/-- The fields of a word of major 0x20 (R163). -/
def raw20 (w : W64) : Option Instr :=
  match (fF w).toNat with
  | 0 => some (.vadd (fG w) (fTy w) (vD w) (vA w) (vB w))
  | 1 => some (.vsub (fG w) (fTy w) (vD w) (vA w) (vB w))
  | 2 => some (.vmul (fG w) (fTy w) (vD w) (vA w) (vB w))
  | 3 => some (.vmulh (fG w) (fTy w) (vD w) (vA w) (vB w))
  | 4 => some (.vand (fG w) (fTy w) (vD w) (vA w) (vB w))
  | 5 => some (.vor (fG w) (fTy w) (vD w) (vA w) (vB w))
  | 6 => some (.vxor (fG w) (fTy w) (vD w) (vA w) (vB w))
  | 7 => some (.vshl (fG w) (fTy w) (vD w) (vA w) (vB w))
  | 8 => some (.vshr (fG w) (fTy w) (vD w) (vA w) (vB w))
  | 9 => some (.vsar (fG w) (fTy w) (vD w) (vA w) (vB w))
  | 10 => some (.vmin (fG w) (fTy w) (vD w) (vA w) (vB w))
  | 11 => some (.vmax (fG w) (fTy w) (vD w) (vA w) (vB w))
  | 12 => some (.vabs (fG w) (fTy w) (vD w) (vA w))
  | 13 => some (.vneg (fG w) (fTy w) (vD w) (vA w))
  | 14 => some (.vadds (fG w) (fTy w) (vD w) (vA w) (vB w))
  | 15 => some (.vsubs (fG w) (fTy w) (vD w) (vA w) (vB w))
  | _ => none

/-- The fields of a word of major 0x21 (R163). -/
def raw21 (w : W64) : Option Instr :=
  match (fF w).toNat with
  | 0 => some (.vaddI (fG w) (vD w) (vA w) (fImm w))
  | 1 => some (.vsubI (fG w) (vD w) (vA w) (fImm w))
  | 2 => some (.vmulI (fG w) (vD w) (vA w) (fImm w))
  | 3 => some (.vmulhI (fG w) (vD w) (vA w) (fImm w))
  | 4 => some (.vandI (fG w) (vD w) (vA w) (fImm w))
  | 5 => some (.vorI (fG w) (vD w) (vA w) (fImm w))
  | 6 => some (.vxorI (fG w) (vD w) (vA w) (fImm w))
  | 7 => some (.vshlI (fG w) (vD w) (vA w) (fImm w))
  | 8 => some (.vshrI (fG w) (vD w) (vA w) (fImm w))
  | 9 => some (.vsarI (fG w) (vD w) (vA w) (fImm w))
  | 10 => some (.vminI (fG w) (vD w) (vA w) (fImm w))
  | 11 => some (.vmaxI (fG w) (vD w) (vA w) (fImm w))
  | _ => none

/-- The fields of a word of major 0x22 (R163). -/
def raw22 (w : W64) : Option Instr :=
  some (.vcmp (fG w) (Cc.ofCode (fF w)) (fTy w) (kD w) (vA w) (vB w))

/-- The fields of a word of major 0x23 (R163). -/
def raw23 (w : W64) : Option Instr :=
  some (.vcmpI (fG w) (Cc.ofCode (fF w)) (kD w) (vA w) (fImm w))

/-- The fields of a word of major 0x24 (R163). -/
def raw24 (w : W64) : Option Instr :=
  match (fF w).toNat with
  | 0 => some (.vsel (fG w) (fTy w) (vD w) (vA w) (vB w) (kC w))
  | 1 => some (.vmov (fG w) (fTy w) (vD w) (vA w))
  | 2 => some (.vbcast (fG w) (fTy w) (vD w) (sA w))
  | 3 => some (.vlid (fG w) (vD w))
  | 4 => some (.vgetl (fTy w) (sD w) (vA w) (sB w))
  | 5 => some (.vsetl (fG w) (fTy w) (vD w) (sA w) (sB w))
  | _ => none

/-- The fields of a word of major 0x25 (R163). -/
def raw25 (w : W64) : Option Instr :=
  match (fF w).toNat with
  | 0 => some (.vperm (fG w) (fTy w) (vD w) (vA w) (vB w))
  | 1 => some (.vshup (fG w) (fTy w) (vD w) (vA w) (w.extractLsb' 0 5))
  | 2 => some (.vshdn (fG w) (fTy w) (vD w) (vA w) (w.extractLsb' 0 5))
  | 3 => some (.vshxor (fG w) (fTy w) (vD w) (vA w) (w.extractLsb' 0 5))
  | 4 => some (.vrot (fG w) (fTy w) (vD w) (vA w) (w.extractLsb' 0 5))
  | _ => none

/-- The fields of a word of major 0x26 (R163). -/
def raw26 (w : W64) : Option Instr :=
  match (fF w).toNat with
  | 8 => some (.vscan (fG w) (fTy w) (w.getLsbD 0) (vD w) (vA w))
  | _ => some (.vred (fG w) (RedOp.ofCode (fF w)) (fTy w) (sD w) (vA w))

/-- The fields of a word of major 0x27 (R163). -/
def raw27 (w : W64) : Option Instr :=
  match (fF w).toNat with
  | 0 => some (.vmad (fG w) (fTy w) (vD w) (vA w) (vB w) (vC w))
  | 1 => some (.vdot4 (fG w) (fTy w) (vD w) (vA w) (vB w) (vC w))
  | _ => none

/-- The fields of a word of major 0x28 (R163). -/
def raw28 (w : W64) : Option Instr :=
  match (fF w).toNat with
  | 0 => some (.vpop (fG w) (fTy w) (vD w) (vA w))
  | 1 => some (.vclz (fG w) (fTy w) (vD w) (vA w))
  | 2 => some (.vctz (fG w) (fTy w) (vD w) (vA w))
  | 3 => some (.vext (fG w) (fTy w) (vD w) (vA w) (vB w))
  | _ => none

/-- The fields of a word of major 0x3F (R163). -/
def raw3F (w : W64) : Option Instr :=
  match (fF w).toNat with
  | 0 => some (.vgrow (fImm w))
  | 1 => some (.vshrink (fImm w))
  | _ => none

/-- The fields of a word of major 0x40 (R163). -/
def raw40 (w : W64) : Option Instr :=
  match (fF w).toNat with
  | 0 => some (.fadd (fG w) (fTy w) (fRnd w) (vD w) (vA w) (vB w))
  | 1 => some (.fsub (fG w) (fTy w) (fRnd w) (vD w) (vA w) (vB w))
  | 2 => some (.fmul (fG w) (fTy w) (fRnd w) (vD w) (vA w) (vB w))
  | 3 => some (.fmin (fG w) (fTy w) (vD w) (vA w) (vB w))
  | 4 => some (.fmax (fG w) (fTy w) (vD w) (vA w) (vB w))
  | 5 => some (.fdiv (fG w) (fTy w) (fRnd w) (vD w) (vA w) (vB w))
  | 6 => some (.fsqrt (fG w) (fTy w) (fRnd w) (vD w) (vA w))
  | 7 => some (.fabs (fG w) (fTy w) (vD w) (vA w))
  | 8 => some (.fneg (fG w) (fTy w) (vD w) (vA w))
  | _ => none

/-- The fields of a word of major 0x41 (R163). -/
def raw41 (w : W64) : Option Instr :=
  match (fF w).toNat with
  | 0 => some (.ffma (fG w) (fTy w) (fRnd w) (vD w) (vA w) (vB w) (vC w))
  | 1 => some (.ffms (fG w) (fTy w) (fRnd w) (vD w) (vA w) (vB w) (vC w))
  | 2 => some (.ffnma (fG w) (fTy w) (fRnd w) (vD w) (vA w) (vB w) (vC w))
  | 3 => some (.ffnms (fG w) (fTy w) (fRnd w) (vD w) (vA w) (vB w) (vC w))
  | _ => none

/-- The fields of a word of major 0x42 (R163). -/
def raw42 (w : W64) : Option Instr :=
  match (fF w).toNat with
  | 0 => some (.frcp (fG w) (fTy w) (vD w) (vA w))
  | 1 => some (.frsq (fG w) (fTy w) (vD w) (vA w))
  | 2 => some (.fexp2 (fG w) (fTy w) (vD w) (vA w))
  | 3 => some (.flog2 (fG w) (fTy w) (vD w) (vA w))
  | _ => none

/-- The fields of a word of major 0x43 (R163). -/
def raw43 (w : W64) : Option Instr :=
  match (fF w).toNat with
  | 6 => some (.fclass (fG w) (fTy w) (vD w) (vA w))
  | _ => some (.fcmp (fG w) (Cc.ofCode (fF w)) (kD w) (vA w) (vB w))

/-- The fields of a word of major 0x44 (R163). -/
def raw44 (w : W64) : Option Instr :=
  match (fF w).toNat with
  | 0 => some (.fcvtFf (fG w) (fTy w) (Ty.ofCode (w.extractLsb' 5 4)) (fRnd w) (w.getLsbD 4)
      (w.extractLsb' 0 3) (vD w) (vA w))
  | 1 => some (.fcvtFi (fG w) (fTy w) (Ty.ofCode (w.extractLsb' 5 4)) (fRnd w) (w.getLsbD 4)
      (w.extractLsb' 0 3) (vD w) (vA w))
  | 2 => some (.fcvtIf (fG w) (fTy w) (Ty.ofCode (w.extractLsb' 5 4)) (fRnd w) (w.getLsbD 4)
      (w.extractLsb' 0 3) (vD w) (vA w))
  | _ => none

/-- The fields of a word of major 0x45 (R163). -/
def raw45 (w : W64) : Option Instr :=
  match (fF w).toNat with
  | 0 => some (.fpack (fG w) (fTy w) (fRnd w) (w.getLsbD 4) (vD w) (vA w) (vB w))
  | 1 => some (.funpack (fG w) (fTy w) (w.extractLsb' 0 3) (vD w) (vA w))
  | _ => none

/-- The fields of a word of major 0x46 (R163). -/
def raw46 (w : W64) : Option Instr :=
  match (fF w).toNat with
  | 0 => some (.qblk (fG w) (fTy w) (fRnd w) (vD w) (vA w))
  | 1 => some (.dqblk (fG w) (fTy w) (vD w) (vA w))
  | _ => none

/-- The fields of a word of major 0x60 (R163). -/
def raw60 (w : W64) : Option Instr :=
  some (.ld (fG w) (Size.ofCode (fF w)) (w.getLsbD 14) (vD w) (sA w) (kC w) (fOff w))

/-- The fields of a word of major 0x61 (R163). -/
def raw61 (w : W64) : Option Instr :=
  some (.st (fG w) (Size.ofCode (fF w)) (sA w) (vB w) (fOff w))

/-- The fields of a word of major 0x62 (R163). -/
def raw62 (w : W64) : Option Instr :=
  some (.gth (fG w) (Size.ofCode (fF w)) (w.getLsbD 14) (vD w) (vA w) (kC w) (fOff w))

/-- The fields of a word of major 0x63 (R163). -/
def raw63 (w : W64) : Option Instr :=
  some (.sct (fG w) (Size.ofCode (fF w)) (vA w) (vB w) (fOff w))

/-- The fields of a word of major 0x64 (R163). -/
def raw64 (w : W64) : Option Instr :=
  some (.spld (fG w) (Size.ofCode (fF w)) (w.getLsbD 15) (w.getLsbD 14) (vD w) (vA w) (fOff w))

/-- The fields of a word of major 0x65 (R163). -/
def raw65 (w : W64) : Option Instr :=
  some (.spst (fG w) (Size.ofCode (fF w)) (w.getLsbD 15) (vA w) (vB w) (fOff w))

/-- The fields of a word of major 0x66 (R163). -/
def raw66 (w : W64) : Option Instr :=
  match (fF w).toNat with
  | 0 => some (.pf (fG w) (PfTgt.ofCode (w.extractLsb' 12 2)) (vA w) (fOff w))
  | 1 => some (.resid (fG w) (vA w) (fOff w))
  | _ => none

/-- The fields of a word of major 0x67 (R163). -/
def raw67 (w : W64) : Option Instr :=
  some (.sld (Size.ofCode (fF w)) (w.getLsbD 14) (sD w) (sA w) (fOff w))

/-- The fields of a word of major 0x68 (R163). -/
def raw68 (w : W64) : Option Instr :=
  some (.sst (Size.ofCode (fF w)) (sA w) (sB w) (fOff w))

/-- The fields of a word of major 0x80 (R163). -/
def raw80 (w : W64) : Option Instr :=
  some (.amo (fG w) (AmoOp.ofCode (fF w)) (fTy w) (fScope w) (w.getLsbD 8) (w.getLsbD 7) (vD w) (vA w) (vB w) (vC w))

/-- The fields of a word of major 0x81 (R163). -/
def raw81 (w : W64) : Option Instr :=
  match (fF w).toNat with
  | 0 => some (.racc (fG w) (fTy w) (fScope w) (vA w) (vB w))
  | _ => none

/-- The fields of a word of major 0x90 (R163). -/
def raw90 (w : W64) : Option Instr :=
  match (fF w).toNat with
  | 0 => some (.fence (fScope w) (FenceKind.ofCode (w.extractLsb' 0 2)))
  | _ => none

/-- The fields of a word of major 0x91 (R163). -/
def raw91 (w : W64) : Option Instr :=
  match (fF w).toNat with
  | 0 => some (.barInit (w.getLsbD 5) (sA w) (sB w) (sC w))
  | 1 => some (.barExp (w.getLsbD 5) (sA w) (sB w))
  | 2 => some (.barArr (fScope w) (w.getLsbD 7) (w.getLsbD 5) (sA w) (sB w))
  | 3 => some (.barWait (fScope w) (w.getLsbD 5) (sD w) (sA w) (sB w))
  | 4 => some (.barTest (fScope w) (w.getLsbD 5) (sD w) (sA w))
  | _ => none

/-- The fields of a word of major 0x92 (R163). -/
def raw92 (w : W64) : Option Instr :=
  match (fF w).toNat with
  | 0 => some (.wcnt (vB w) (vC w) (w.extractLsb' 8 8) (w.extractLsb' 0 8))
  | _ => none

/-- The fields of a word of major 0x93 (R163). -/
def raw93 (w : W64) : Option Instr :=
  match (fF w).toNat with
  | 0 => some (.seal (sA w) (sB w))
  | 1 => some (.unseal (sA w) (sB w))
  | _ => none

/-- The fields of a word of major 0x94 (R163). -/
def raw94 (w : W64) : Option Instr :=
  match (fF w).toNat with
  | 0 => some (.cmr (fTy w) (fScope w) (sA w) (sB w))
  | 1 => some (.cmrend (sA w))
  | _ => none

/-- The fields of a word of major 0xA0 (R163). -/
def rawA0 (w : W64) : Option Instr :=
  match (fF w).toNat with
  | 0 => some (.br (fImm w))
  | 1 => some (.bnz (sA w) (fImm w))
  | 2 => some (.bz (sA w) (fImm w))
  | 3 => some (.bany (kA w) (fImm w))
  | 4 => some (.ball (kA w) (fImm w))
  | 5 => some (.bnone (kA w) (fImm w))
  | 6 => some (.bdiv (kA w) (fImm w))
  | _ => none

/-- The fields of a word of major 0xA1 (R163). -/
def rawA1 (w : W64) : Option Instr :=
  match (fF w).toNat with
  | 0 => some (.call (sD w) (fImm w))
  | 1 => some (.ret (sA w))
  | 2 => some (.callr (sD w) (sA w))
  | 3 => some (.jmpr (sA w))
  | _ => none

/-- The fields of a word of major 0xA2 (R163). -/
def rawA2 (w : W64) : Option Instr :=
  match (fF w).toNat with
  | 0 => some (.spmask (kD w))
  | _ => none

/-- The fields of a word of major 0xB0 (R163). -/
def rawB0 (w : W64) : Option Instr :=
  match (fF w).toNat with
  | 0 => some (.spawn (fScope w) (w.getLsbD 5) (sA w))
  | 1 => some (.spawnf (fScope w) (w.getLsbD 5) (sD w) (sA w) (sB w))
  | 2 => some (.join (fScope w) (sD w) (sA w) (sB w))
  | 3 => some (.done (fScope w) (sA w))
  | 4 => some (.yield (w.getLsbD 0))
  | _ => none

/-- The fields of a word of major 0xB1 (R163). -/
def rawB1 (w : W64) : Option Instr :=
  match (fF w).toNat with
  | 0 => some (.qpush (fScope w) (sD w) (sA w) (sB w))
  | 1 => some (.qpop (fScope w) (sD w) (sA w) (sB w))
  | _ => none

/-- The fields of a word of major 0xB2 (R163). -/
def rawB2 (w : W64) : Option Instr :=
  match (fF w).toNat with
  | 0 => some (.stlpause )
  | 1 => some (.stlresume )
  | 2 => some (.pdist (sD w) (sA w))
  | _ => none

/-- The fields of a word of major 0xC0 (R163). -/
def rawC0 (w : W64) : Option Instr :=
  match (fF w).toNat with
  | 0 => some (.mwld (fTy w) (w.getLsbD 10) (sA w) (sB w))
  | 1 => some (.mwsw )
  | 2 => some (.mmac (fTy w) (fScope w) (w.getLsbD 8) (w.getLsbD 6) (w.getLsbD 5) (sD w) (vA w) (sB w) (sC w))
  | 3 => some (.mrdy )
  | 4 => some (.mwait (w.getLsbD 4) (w.extractLsb' 0 4))
  | 5 => some (.mcnt (w.getLsbD 0) (sD w))
  | _ => none

/-- The fields of a word of major 0xD0 (R163). -/
def rawD0 (w : W64) : Option Instr :=
  match (fF w).toNat with
  | 0 => some (.cpy (fScope w) (w.getLsbD 8) (w.getLsbD 7) (w.getLsbD 6) (w.getLsbD 5) (sD w) (sA w) (sB w) (sC w))
  | 1 => some (.chain (fScope w) (w.getLsbD 5) (sA w) (sB w))
  | _ => none

/-- The fields of a word of major 0xD1 (R163). -/
def rawD1 (w : W64) : Option Instr :=
  match (fF w).toNat with
  | 0 => some (.vwreg (sD w) (sA w))
  | 1 => some (.vwdrop (sA w))
  | 2 => some (.vwsync (fScope w) (sD w) (sA w))
  | _ => none

/-- The fields of a word of major 0xD2 (R163). -/
def rawD2 (w : W64) : Option Instr :=
  match (fF w).toNat with
  | 0 => some (.bcmd (fG w) (fScope w) (vA w) (sB w))
  | 1 => some (.bwait (fScope w) (sD w))
  | _ => none

/-- The fields of a word of major 0xD3 (R163). -/
def rawD3 (w : W64) : Option Instr :=
  match (fF w).toNat with
  | 0 => some (.xscale (fScope w) (sA w))
  | 1 => some (.xsum (fScope w) (sA w))
  | _ => none

/-- The fields of a word of major 0xE0 (R163). -/
def rawE0 (w : W64) : Option Instr :=
  match (fF w).toNat with
  | 0 => some (.sys (fG w) (w.extractLsb' 0 16))
  | 1 => some (.hyp (fG w) (w.extractLsb' 0 16))
  | 2 => some (.sret )
  | 3 => some (.hret )
  | 4 => some (.rdsr (fG w) (fOff w) (vD w))
  | 5 => some (.wrsr (fG w) (fOff w) (vA w))
  | 6 => some (.wfi )
  | _ => none

/-- The fields of a core word; an absent major and an absent function have none (R165). `w2` is the word after it. -/
def rawCore (w w2 : W64) : Option Instr :=
  match (w.extractLsb' 56 8).toNat with
  | 0x00 => raw00 w
  | 0x01 => raw01 w
  | 0x02 => raw02 w
  | 0x03 => raw03 w
  | 0x04 => raw04 w
  | 0x05 => raw05 w w2
  | 0x06 => raw06 w
  | 0x07 => raw07 w
  | 0x08 => raw08 w
  | 0x20 => raw20 w
  | 0x21 => raw21 w
  | 0x22 => raw22 w
  | 0x23 => raw23 w
  | 0x24 => raw24 w
  | 0x25 => raw25 w
  | 0x26 => raw26 w
  | 0x27 => raw27 w
  | 0x28 => raw28 w
  | 0x3F => raw3F w
  | 0x40 => raw40 w
  | 0x41 => raw41 w
  | 0x42 => raw42 w
  | 0x43 => raw43 w
  | 0x44 => raw44 w
  | 0x45 => raw45 w
  | 0x46 => raw46 w
  | 0x60 => raw60 w
  | 0x61 => raw61 w
  | 0x62 => raw62 w
  | 0x63 => raw63 w
  | 0x64 => raw64 w
  | 0x65 => raw65 w
  | 0x66 => raw66 w
  | 0x67 => raw67 w
  | 0x68 => raw68 w
  | 0x80 => raw80 w
  | 0x81 => raw81 w
  | 0x90 => raw90 w
  | 0x91 => raw91 w
  | 0x92 => raw92 w
  | 0x93 => raw93 w
  | 0x94 => raw94 w
  | 0xA0 => rawA0 w
  | 0xA1 => rawA1 w
  | 0xA2 => rawA2 w
  | 0xB0 => rawB0 w
  | 0xB1 => rawB1 w
  | 0xB2 => rawB2 w
  | 0xC0 => rawC0 w
  | 0xD0 => rawD0 w
  | 0xD1 => rawD1 w
  | 0xD2 => rawD2 w
  | 0xD3 => rawD3 w
  | 0xE0 => rawE0 w
  | _ => none

/-- The instruction of a core word, `w2` being the word after it (read by the L layout only). -/
def decode (w w2 : W64) : Option Instr :=
  match rawCore w w2 with
  | some i =>
    if i.wellFormed && (encode i == .word w || encode i == .long w w2) then some i else none
  | none => none

/-- The fields of an abacus word (R307, R308). -/
def rawAbacus (w : W32) : Instr :=
  let d : BitVec 4 := w.extractLsb' 24 4
  let a : BitVec 4 := w.extractLsb' 20 4
  let b : BitVec 4 := w.extractLsb' 16 4
  let c : BitVec 4 := w.extractLsb' 12 4
  match (w.extractLsb' 28 4).toNat with
  | 0 => .ahalt
  | 1 => .ali d (w.extractLsb' 0 16)
  | 2 => .alih d (w.extractLsb' 0 16)
  | 3 => .aadd d a b
  | 4 => .aaddi d a (w.extractLsb' 0 16)
  | 5 => .aloop a (w.extractLsb' 0 8)
  | 6 => .abne a b (w.extractLsb' 0 8)
  | 7 => .aldw (w.getLsbD 11) d a b
  | 8 => .adot (w.extractLsb' 9 3) (w.getLsbD 8) d a b c
  | 9 => .aclr d c
  | 10 => .astc (w.getLsbD 11) (w.getLsbD 10) (w.getLsbD 9) d a c
  | 11 => .aemit (w.getLsbD 11) a b c
  | 12 => .afadd d a b
  | 13 => .afmul d a b
  | 14 => .aldc d a
  | _ => .anop

/-- The instruction of an abacus word; none for the words that end the command with ACODE 1 (R311). -/
def decodeAbacus (w : W32) : Option Instr :=
  let i := rawAbacus w
  if i.wellFormed && encode i == .abacus w then some i else none

/-- The instruction whose bits are `w`: an abacus word of 32 bits, or a core word of 64 bits with the word after it above. -/
def decodeTableWord (nbits w : Nat) : Option Instr :=
  if nbits = 32 then decodeAbacus (BitVec.ofNat 32 w)
  else decode (BitVec.ofNat 64 w) (BitVec.ofNat 64 (w >>> 64))

end Sys2Proof
end

