-- ==== Sys2Proof/Config.lean ====
section
/-!
DEFINITION. What an implementation fixes, and the free values: constants without a body, of which nothing can be
proved, applied to the operands they depend on or to the counter `State.free` (log 8).
-/
namespace Sys2Proof

/-- A value the manual leaves undefined, the n-th of a run (R261: a loaned register; log 8). -/
opaque Config.freeLane : Nat → Nat → W32
/-- A choice the manual leaves to the device, the n-th of a run: granules (R110), a steal's victim among equals (R347),
an abacus's next command (R304), a view handle (R294). The chooser takes it modulo the number of candidates (log 8). -/
opaque Config.choose : Nat → Nat
/-- The results of frcp, frsq, fexp2 and flog2 that R195 leaves to the implementation; the same input always gives the
same bits (R195). The meaning keeps the value only if it lies within the bound of R195 (log 12). -/
opaque Config.frcp : W32 → W32
/-- As `Config.frcp`, for frsq. -/
opaque Config.frsq : W32 → W32
/-- As `Config.frcp`, for fexp2. -/
opaque Config.fexp2 : W32 → W32
/-- As `Config.frcp`, for flog2. -/
opaque Config.flog2 : W32 → W32
/-- The fixed hash that spreads a pseudo-channel offset over banks and rows outside bank-local regions (R54): the bank. -/
opaque Config.bankHash : Nat → Nat
/-- The fixed hashes by which a cache or directory places a name in a set (R62: software cannot see them): the structure's number, then the
name. -/
opaque Config.setHash : Nat → Nat → Nat
/-- Which entry of a full set gives way: the core cycle and the name that comes in (R62, R94; log 18). -/
opaque Config.victim : Nat → Nat → Nat
/-- The hash of a line address that spreads traffic over the ports of a route (R453; log 104). -/
opaque Config.portHash : Nat → Nat
/-- The base of the place tokens after the n-th reset, of a context, after its m-th placing (R39, R40: opaque, and different between boots; log 4). -/
opaque Config.placeBase : Nat → BitVec 12 → Nat → W32
/-- A value is the place token of a core of another device of the steal ring (R40, R368; log 4). -/
opaque Config.ringToken : W32 → Bool

end Sys2Proof
end

