-- ==== Sys2Proof/Machine/State.lean ====
section
/-!
DEFINITION. The state of one J9 package as plain data: every register, table, queue and memory that spec/ gives the
machine (INVENTORY.md, '## State'), the model's own schedule fields, the stop reasons, and the state after reset
(spec/17 R441 to R445).
-/
namespace Sys2Proof.Machine
open Sys2Proof

/-- Why a step stops with a fault. Nothing the spec describes stops the machine: a stopped core idles (R445, R449). -/
inductive Fault where
  /-- Raised by an event's meaning when `State.ev` holds another event's operands: `exec` was asked for an event that the
  schedule has not set up. No step does that. Safe: no behaviour of the hardware is given for it. -/
  | notThisEvent
  deriving DecidableEq, Repr

/-- Why a step is refused. -/
inductive Refusal where
  /-- Raised by an arm of `exec` whose row has no meaning yet. Safe. -/
  | notModelled (mnemonic : String)
  deriving DecidableEq, Repr

/-- The 32 lanes of a vector register. -/
abbrev LaneVec := Vector W32 32

/-- `n` entries, entry i being `f i`. -/
def gen (n : Nat) (f : Nat → α) : Vector α n := ⟨⟨(List.range n).map f⟩, by simp⟩

/-- A string slot's states in a slot (R355). PARKED is READY with every split waiting, computed by `Str.parked`. -/
inductive SlotState where
  | free | staging | ready | spilling | restoring
  deriving DecidableEq, Repr

/-- What keeps a split from issuing. -/
inductive Wait where
  /-- Nothing. -/
  | none
  /-- A hold that is no wait for R356 (wcnt, mwait, mrdy, counters, queues): tried again in a later core cycle. -/
  | held (at_ : Nat)
  /-- A hold of the same kind that keeps the string's other splits from issuing too (R130, R303). -/
  | whole (at_ : Nat)
  /-- bar.wait and join: until the barrier's PHASE differs (R118, R363). -/
  | barrier (p : Place) (phase : Byte)
  /-- A `bar.wait` whose wait at a place is satisfied: no hold; it completes when it next issues (R118, R224). -/
  | passed (p : Place)
  /-- bwait: until BKN is 0 (R306). -/
  | bank
  /-- wfi (R389). -/
  | wfi
  /-- An array claim at a header (R244). -/
  | array
  /-- A push to a full serai (R345). -/
  | push
  /-- A hold of the same kind by an instruction that has begun with these values of its operands (R229). -/
  | opnds (at_ : Nat) (a b : W64)
  /-- cmr or cmrend until CMR_COMPLETE or CMREND_COMPLETE of that entry, with its operands (R274, R275). -/
  | range (i : Fin 256) (a b : W64)
  /-- The wrsr of TCINV until TCINV_DRAINED (R95), for every core of the device if `dev`. -/
  | tcinv (dev : Bool)
  /-- vwdrop until VWDROP_COMPLETE (R295). -/
  | drop (v : Fin 64)
  /-- vwsync with its samples n(b), its scope and its destination, until VWSYNC_COMPLETE (R296). -/
  | sync (v : Fin 64) (ns : List (Nat × Nat)) (sc : Scope) (d : SReg)
  deriving DecidableEq, Repr

/-- An entry of a reconvergence stack (R374). -/
structure StackEnt where
  rpc : W64
  rmask : Mask
  ppc : W64
  pmask : Mask
  deriving DecidableEq, Repr

/-- A split (R370). A slot whose mask is 0 holds no split: every split holds at least one lane. -/
structure Split where
  pc : W64
  m : Mask
  e : Mask
  mode : Mode
  stack : List StackEnt
  /-- Staged flags NV DZ OF UF NX (R201). -/
  t : BitVec 5
  /-- Staged PFDROP increments, each with the lane it is counted for (R406). -/
  pf : List Nat
  /-- Address of the header that governs the split, and that header's word (R460). -/
  blk : W64
  hdr : W64
  /-- The word at PC is still to be entered by R153: branch target, task start, trap entry. -/
  enter : Bool
  wait : Wait
  starve : Nat
  deriving DecidableEq, Repr

/-- No split. -/
def Split.empty : Split :=
  { pc := 0, m := 0, e := 0, mode := .user, stack := [], t := 0, pf := [], blk := 0, hdr := 0, enter := false,
    wait := .none, starve := 0 }

/-- A region record (R401). -/
structure Region where
  rentry : W64
  rblk : W64
  /-- The task's first region, whose replay stages the operands again (R133, R404). -/
  first : Bool
  allot : Nat
  vstate : BitVec 256
  gen : W32
  mark : Bool
  fpc : W64
  /-- Flags staged in a split all of whose lanes have left it, and dropped pages counted for a lane that left at an interrupt: they are
  committed when the lane returns without replay (R201, R406). -/
  t : BitVec 5
  pf : Nat
  deriving DecidableEq, Repr

/-- The region record after reset (R444: zero). -/
def Region.zero : Region := { rentry := 0, rblk := 0, first := false, allot := 0, vstate := 0, gen := 0, mark := false, fpc := 0, t := 0, pf := 0 }

/-- What is held per lane of a string: trap records (R378), generator state (R23), region records (R401). -/
structure Lane where
  sepc : W64
  scause : W32
  stval : W64
  hepc : W64
  hcause : W32
  htval : W64
  sblk : W64
  hblk : W64
  gen : W32
  urec : Region
  srec : Region
  deriving DecidableEq, Repr

/-- The classes of R134. -/
inductive OpClass where
  | ld | st | cp | tl
  deriving DecidableEq, Repr

/-- An operation counted by R134, oldest first in its string's list; it leaves the count in issue order (R135). -/
structure OutOp where
  cls : OpClass
  id : Nat
  done : Bool
  /-- A tile operation that has read its operands (R259, OPND = 1). -/
  readDone : Bool
  deriving DecidableEq, Repr

/-- The matrix exception counters of R263. -/
structure MCnt where
  nan : BitVec 16
  inf : BitVec 16
  scnan : BitVec 16
  spidx : BitVec 16
  deriving DecidableEq, Repr

/-- Counts of a tile operation that are not committed yet (R263). -/
structure MStage where
  op : Nat
  opDone : Bool
  /-- The lanes whose region of mode `mode`, in which the operation was issued, has not ended yet. -/
  mode : Mode
  openL : Mask
  cnt : MCnt
  deriving DecidableEq, Repr

/-- A manifest in a serai or bazaar queue: its 128 bytes and the context and launch that pushed it (R338, R343). -/
structure SEnt where
  bytes : List Byte
  ctx : BitVec 12
  launch : Fin 64
  deriving DecidableEq, Repr

/-- The manifest a slot has taken (R353), kept until the task's first region ends, since a replay of that region stages again
(R133). `begun` is set once the task has been started and its operands are to be staged; `entered` once its entry header has been entered. -/
structure Staging where
  ent : SEnt
  begun : Bool
  entered : Bool
  deriving DecidableEq, Repr

/-- A released register's value on the lanes whose region of a mode has released it, kept for a replay (R146, R405). -/
structure Kept where
  reg : Nat
  mode : Mode
  lanes : Mask
  v : LaneVec
  deriving DecidableEq, Repr

/-- A string with its slot's state (R138, R355). -/
structure Str where
  st : SlotState
  ptroot : W64
  sreg : Vector W64 64
  kreg : Vector Mask 16
  vreg : Vector (Option LaneVec) 256
  vspill : BitVec 256
  vstamp : Vector Nat 256
  kept : List Kept
  /-- Registers with the lanes on which they hold no value although others hold one: they were released while those carried a replay
  mark (R405). Such a lane stands as zero in `vreg`. -/
  gone : List (Nat × Mask)
  allot : Nat
  fflags : BitVec 5
  fz : Bool
  rseed : W64
  pfdrop : W32
  cperr : W64
  ops : List OutOp
  loans : List (VReg × Nat)
  /-- The physical registers that tile operations read asynchronously, each with the register that still stands in it and the operations
  (R147). -/
  lent : List (Option VReg × List Nat)
  /-- The string's latest tile operations, newest first, at most 15 (R259). -/
  tls : List Nat
  mcnt : MCnt
  mstage : List MStage
  al : Bool
  sl : Bool
  bkn : BitVec 12
  bkf : BitVec 16
  launch : Option (Fin 64)
  rsc : Scope
  fut : Option W64
  lanes : Vector Lane 32
  splits : Vector Split 4
  park : List Split
  age : Nat
  ready : Nat
  parkedAt : Nat
  pool : Option Nat
  /-- The pool record was taken for a spill of R147: it is kept until the task is done (R411). -/
  poolKept : Bool
  staging : Option Staging
  uid : Nat
  deriving DecidableEq, Repr

/-- Generator state of lane l from RSEED (R23). -/
def genSeed (rseed : W64) (l : Nat) : W32 :=
  let g := rseed.extractLsb' 0 32 ^^^ rseed.extractLsb' 32 32 ^^^ (BitVec.ofNat 32 (l * 0x9E3779B9))
  if g = 0 then 1 else g

/-- A lane after task start: records zero, generator from RSEED (R354, R444). -/
def Lane.start (rseed : W64) (l : Nat) : Lane :=
  { sepc := 0, scause := 0, stval := 0, hepc := 0, hcause := 0, htval := 0, sblk := 0, hblk := 0,
    gen := genSeed rseed l, urec := Region.zero, srec := Region.zero }

/-- An empty slot (R444). -/
def Str.empty : Str :=
  { st := .free, ptroot := 0, sreg := Vector.replicate 64 0, kreg := Vector.replicate 16 0,
    vreg := Vector.replicate 256 none, vspill := 0, vstamp := Vector.replicate 256 0,
    kept := [], gone := [], allot := 64,
    fflags := 0, fz := false, rseed := 0, pfdrop := 0, cperr := 0, ops := [], loans := [], lent := [], tls := [],
    mcnt := { nan := 0, inf := 0, scnan := 0, spidx := 0 }, mstage := [], al := false, sl := false, bkn := 0, bkf := 0,
    launch := none, rsc := .core, fut := none, lanes := gen 32 (Lane.start 0), splits := Vector.replicate 4 Split.empty,
    park := [], age := 0, ready := 0, parkedAt := 0, pool := none, poolKept := false, staging := none, uid := 0 }

/-- A context's partition on a core (R108, R110). -/
structure Part where
  ctx : BitVec 12
  gmask : BitVec 16
  keep : Bool
  deriving DecidableEq, Repr

/-- A line of a core's L1, or of its instruction cache if `code`, with its lease; `none` is the unbounded lease of a sealed
page (R65). -/
structure L1Line where
  core : CoreId
  code : Bool
  line : Nat
  exp : Option Nat
  deriving DecidableEq, Repr

/-- A translation in a core's caches (R94): tagged by CTXID, covering 2^log bytes from `base`, holding the whole leaf, its
place, the sealed state (R103), the master state (R284), and the region table entry, as it stood at the walk, by which its lines have
their canonical locations (R62); `data`, `code` and `second` say which of the core's three caches hold it. -/
structure Tr where
  core : CoreId
  ctx : BitVec 12
  base : Nat
  log : Nat
  pte : W64
  pteLoc : Nat
  isSealed : Bool
  isMaster : Bool
  entry : Option (Vector W64 4)
  data : Bool
  code : Bool
  second : Bool
  deriving DecidableEq, Repr

/-- A pointer entry in a core's walk cache (R94): of level `level`, 4 to 2, for the addresses whose bits from the level's index upward
are `tag`, with the node that it names. -/
structure WalkEnt where
  core : CoreId
  ctx : BitVec 12
  level : Nat
  tag : Nat
  node : Nat
  deriving DecidableEq, Repr

/-- The shape of a convoy transfer (R124). -/
inductive XferKind where
  | copy | gather | scatter
  deriving DecidableEq, Repr

/-- Who issued an engine transfer, chain or tile operation, and under which translation (R123, R317). -/
structure Issuer where
  slot : SlotId
  uid : Nat
  op : Nat
  ptroot : W64
  mode : Mode
  deriving DecidableEq, Repr

/-- A convoy transfer (R124). `data` is none until the engine has taken it (CONVOY_TRANSFER_START). -/
structure Xfer where
  kind : XferKind
  who : Issuer
  chain : Option (Fin 8)
  ssp : Bool
  dsp : Bool
  src : W64
  dst : W64
  len : Nat
  idx : Nat
  nrows : Nat
  rlen : Nat
  rstr : Nat
  bar : Option Place
  scope : Scope
  /-- Addresses of the memory rows, read from the index list when the engine takes the transfer; none where the list could not be
  read. -/
  rows : List (Option Nat)
  /-- Bytes taken from the source, by their offset in the transfer, and the first fault's ECODE and address (R126). -/
  data : Option (List (Nat × Byte))
  err : Nat
  errAddr : W64
  deriving DecidableEq, Repr

/-- A chain context (R127). -/
structure Chain where
  who : Issuer
  ptr : Nat
  idx : List Nat
  bar : Place
  /-- The address of the chain barrier and whether it is one of scratchpad: its place may differ after a restore (R108, R419). -/
  barVa : W64
  barSp : Bool
  scope : Scope
  suspended : Bool
  deriving DecidableEq, Repr

/-- A weight set: the image as read, its format and compression (R239, R241). A cleared set holds zero bytes. -/
structure WSet where
  fmt : Ty
  s24 : Bool
  plane : List (Nat × Byte)
  aux : List (Nat × Byte)
  deriving DecidableEq, Repr

/-- A cleared set (R240). -/
def WSet.cleared : WSet := { fmt := .bf16, s24 := false, plane := [], aux := [] }

/-- A tile operation (R252), with what it captured at issue (R261). -/
inductive TileKind where
  | mwld (wt : Ty) (s24 : Bool) (a b : Nat)
  | mwsw
  | mmac (xt : Ty) (sc : Scope) (osp add asrc : Bool) (out a c : Nat) (geo : W64) (regs : List LaneVec) (lines : List Nat)
  /-- The clearing of both sets at a change of owner, queued behind earlier operations (R246). -/
  | clear
  deriving DecidableEq, Repr

/-- A queued tile operation. `ran` is set once its reads and emissions are done and only its completion remains. -/
structure TileOp where
  kind : TileKind
  who : Issuer
  ran : Bool
  cnt : MCnt
  deriving DecidableEq, Repr

/-- The matrix array of a core (R239 to R246). -/
structure ArrayU where
  owner : Option (SlotId × Nat)
  last : Option Nat
  /-- The waiting splits, oldest first: their string's uid and their lanes. -/
  waiters : List (Nat × Mask)
  active : WSet
  shadow : WSet
  queue : List TileOp
  deriving DecidableEq, Repr

/-- A string spilled by R358 with its pool record and whether it has been woken (R355). -/
structure Spilled where
  str : Str
  woken : Bool
  at_ : Nat
  deriving DecidableEq, Repr

/-- What a context holds on one core, apart from it (R413): its strings and those spilled by R358, each with its string slot in the
image (16 for one that finds none free), the partition with its bytes by the offset OFF of R108, the serai entries hot end first, and its
chains. -/
structure Share where
  strs : List (Nat × Str)
  spilled : List (Nat × Str)
  part : Option Part
  scr : List (Nat × Byte)
  /-- Poisoned words of the partition, by their offset / 8 (R408). -/
  scrPz : List Nat
  serai : List SEnt
  chains : List Chain
  deriving DecidableEq, Repr

/-- A string, or a whole share, evicted from a core by pre-emption (R416, R417). -/
structure Evicted where
  ctx : BitVec 12
  prio : Nat
  /-- The slot that a single string has left. -/
  slot : Option SlotId
  share : Share
  at_ : Nat
  deriving DecidableEq, Repr

/-- What PREEMPT asks of a core (R416): the incoming context, string slots, granules, physical registers. -/
structure Demand where
  ctx : BitVec 12
  nslot : Nat
  ngran : Nat
  nreg : Nat
  deriving DecidableEq, Repr

/-- A core (R138, R150, R346). -/
structure Core where
  lease : W64
  stealdist : W64
  tciva : W64
  tcinv : W64
  svec : W64
  hvec : W64
  hdeleg : W64
  strs : Vector Str 16
  parts : List Part
  convoy : List Xfer
  /-- Whose transfer the convoy engine took last: a chain context, or 8 for the queue of single copies (R123). -/
  turn : Nat
  chains : Vector (Option Chain) 8
  arr : ArrayU
  /-- The serai, its hot end first (R343). -/
  serai : List SEnt
  /-- Contexts whose entries `stlpause` keeps from thieves, with the cycle of the latest (R367). -/
  closed : List (BitVec 12 × Nat)
  spilled : List Spilled
  evicted : List Evicted
  bazRot : Nat
  retryAt : Nat
  /-- The count of takeable entries that the core reported to its cluster peers in the last core cycle (R346). -/
  shown : Nat
  /-- The victim that a search has found, from which an entry is taken after the hot-end operations of the core cycle (R344, R346). -/
  probe : Option CoreId
  /-- The victims that the search may still probe if it finds that one empty (R347). -/
  probes : List CoreId
  /-- Cycle since which every slot of the core has been PARKED (R358). -/
  allParked : Option Nat
  /-- Splits whose next write finds too few free physical registers, each with the cycle since which it waits (R147). -/
  regWait : List (SlotId × SplitId × Nat)
  /-- The context for which PREEMPT has freed resources here, until it places a string on the core (R416). -/
  kept : Option (BitVec 12)
  /-- The physical registers per lane that those evictions have freed. -/
  keptRegs : Nat
  /-- The demand for which this core is still evicting. -/
  demand : Option Demand
  /-- The strings that have issued in this core cycle, each with its split (R357, R372). -/
  issued : List (SlotId × SplitId)
  stopped : Bool
  gated : Bool
  deriving DecidableEq, Repr

/-- The place of the boot image's entry header: DESIGN CHOICE (log 3); R441 step 5 puts the image into the direct window
of the lowest memory die. -/
def bootEntry : W64 := 0x100000000000

/-- A core after R444. -/
def Core.reset : Core :=
  { lease := 8, stealdist := 0xFFFF0202, tciva := 0, tcinv := 0, svec := 0, hvec := bootEntry,
    hdeleg := BitVec.allOnes 64, strs := Vector.replicate 16 Str.empty, parts := [], convoy := [], turn := 8, chains := Vector.replicate 8 none,
    arr := { owner := none, last := none, waiters := [], active := WSet.cleared, shadow := WSet.cleared, queue := [] },
    serai := [], closed := [], spilled := [], evicted := [], bazRot := 0, retryAt := 0, shown := 0, probe := none, probes := [], allParked := none, regWait := [], kept := none, keptRegs := 0, demand := none, issued := [],
    stopped := false, gated := false }

/-- The states of a directory entry (R73); UNC is the absence of an entry, PZ lies in the metadata. -/
inductive DState where
  | sh (mask : BitVec 10)
  | ex (owner : AgentId)
  | cm (mask : BitVec 10)
  deriving DecidableEq, Repr

/-- The metadata of a dropped entry (R74). -/
structure Meta where
  line : Nat
  xcl : Bool
  agent : AgentId
  inc : BitVec 4
  deriving DecidableEq, Repr

/-- How an L2 holds a line. -/
inductive L2State where
  | shared | exClean | exDirty
  deriving DecidableEq, Repr

/-- A line of an agent's cache, with the latest unexpired lease the slice has granted (R65). -/
structure L2Line where
  agent : AgentId
  line : Nat
  st : L2State
  lease : Nat
  /-- Inserted at the lowest replacement priority (R101). -/
  low : Bool
  deriving DecidableEq, Repr

/-- A line of an LLC slice; `dirty` lines are written back to DRAM on eviction (R61). -/
structure LlcLine where
  line : Nat
  dirty : Bool
  deriving DecidableEq, Repr

/-- Why a line was poisoned (R76, R77, R82). -/
inductive PzCause where
  /-- A live agent neither held the line nor had written it back: a protocol error. -/
  | lostCopy
  /-- The holder has been reset since the entry was dropped. -/
  | holderReset
  /-- Conflicting answers to a broadcast. -/
  | conflict
  /-- The agent that owned the line, or held a partial of it, was reset or declared dead. -/
  | agentGone
  /-- An error beyond correction, or a write-back marked poisoned. -/
  | uncorrected
  deriving DecidableEq, Repr

/-- A store that waits at its slice for a lease (R68). -/
structure PStore where
  die : Fin 8
  core : CoreId
  slot : SlotId
  uid : Nat
  op : Nat
  line : Nat
  /-- To a line of a bank page (R61). -/
  bank : Bool
  cells : List Host.Cell
  deriving DecidableEq, Repr

/-- A commutative range (R231, R273). -/
structure Range where
  base : Nat
  len : Nat
  /-- The lines of the range that this device holds, by location, in ascending address. -/
  lines : List Nat
  /-- Where the part of the declaration that other devices hold begins, if there is one (R231). -/
  far : Option Nat
  fmt : Ty
  scope : Scope
  /-- Entered but not all of its lines CM yet (R274). -/
  starting : Bool
  ending : Bool
  deriving DecidableEq, Repr

/-- An L2 partial of a line (R267): elements of the range's width, low element first. -/
structure Partial where
  agent : Fin 8
  line : Nat
  elems : List W64
  deriving DecidableEq, Repr

/-- A derived view (R281, R294): record words 0 to 10 and the recorded pages (virtual base, location lines). -/
structure View where
  ctx : BitVec 12
  words : Vector W64 11
  mlines : List Nat
  elines : List (List Nat)
  slines : List (List Nat)
  tlines : List Nat
  dropping : Bool
  deriving DecidableEq, Repr

/-- A derivation in flight (R287). -/
structure Deriv where
  view : Fin 64
  blk : Nat
  n : Nat
  started : Bool
  deriving DecidableEq, Repr

/-- Who reads view bytes: some lanes of a split's string at an address, or an engine (no lanes). -/
structure Reader where
  core : CoreId
  slot : SlotId
  uid : Nat
  lanes : Mask
  va : W64
  deriving DecidableEq, Repr

/-- A read of a view's block that waits, with the OWED that it sampled at its arrival (R289). -/
structure VRead where
  who : Reader
  view : Fin 64
  blk : Nat
  n : Nat
  deriving DecidableEq, Repr

/-- A bank command with the locations its checks found (R303). -/
structure BankCmd where
  core : CoreId
  slot : SlotId
  uid : Nat
  wlines : List Nat
  wlen : Nat
  plines : List Nat
  poff : Nat
  plen : Nat
  ilines : List Nat
  ioff : Nat
  ilen : Nat
  iboff : Nat
  olines : List Nat
  ooff : Nat
  olen : Nat
  spa : Nat
  sloc : Nat
  arg : W64
  bar : Place
  scope : Scope
  deriving DecidableEq, Repr

/-- A running abacus (R298, R304). -/
structure AbRun where
  cmd : BankCmd
  prog : List W32
  buf : List (Nat × Byte)
  q : Vector W32 16
  c : Vector W32 16
  pc : Nat
  steps : Nat
  emitted : Nat
  refused : Option Nat
  /-- The end of the program: ACODE, ECODE, PC. -/
  ended : Option (Nat × Nat × Nat)
  deriving DecidableEq, Repr

/-- A bank abacus. `coming` are committed commands on their way to the queue. -/
structure Abacus where
  die : DieId
  pch : PchId
  coming : List BankCmd
  queue : List BankCmd
  run : Option AbRun
  deriving DecidableEq, Repr

/-- A launch slot (R340, R342). -/
structure Launch where
  on : Bool
  live : Nat
  tasks : Nat
  words : Vector W64 8
  ptroot : W64
  poolUsed : List Nat
  /-- Virtual address of the launch record (R341, R413). -/
  record : W64
  /-- END of its context has discarded its tasks: it completes with STATE 3 (R409). -/
  ended : Bool
  /-- The range list of R101, as its words, read when the launch was accepted. -/
  rlist : List (W64 × W64)
  /-- The counts of R102 per range: accesses and misses. -/
  counts : List (Nat × Nat)
  deriving DecidableEq, Repr

/-- A bazaar queue (R350); `head` is the place of its oldest entry in the ring. -/
structure Bazaar where
  w0 : W64
  w1 : W64
  head : Nat
  q : List SEnt
  deriving DecidableEq, Repr

/-- A saved core share in a context image (R413), with its image cluster and CIDX. -/
structure SavedCore where
  cluster : Nat
  cidx : Nat
  share : Share
  deriving DecidableEq, Repr

/-- A saved context (R413): what the device remembers beside its image (log 62). While it is restored, `pending` are the image clusters still
to be placed and `slots` gives the new launch slot of each old one. -/
structure Image where
  ctx : BitVec 12
  cores : List SavedCore
  launches : List (Fin 64 × Launch)
  pending : List Nat
  slots : List (Fin 64 × Fin 64)
  deriving DecidableEq, Repr

/-- A record of the memory error logs (R452). -/
structure ERec where
  kind : BitVec 7
  agent : BitVec 4
  pa : BitVec 48
  time : W64
  /-- The cause of a poisoning (R76); no bits of R452's record show it. -/
  cause : Option PzCause
  deriving DecidableEq, Repr

/-- An exact collective at work (R437). -/
structure Coll where
  sum : Bool
  words : Vector W64 8
  ptroot : W64
  mode : Mode
  scope : Scope
  core : CoreId
  bar : Place
  /-- 0 before the contribution, 1 after it; for `xsum` 2 with the results written, 3 with the area cleared for the phase of DNB that
  this rank completes, 4 after the arrival on DNB. -/
  stage : Nat
  ecode : Nat
  mism : Bool
  err : Bool
  ovf : Nat
  deriving DecidableEq, Repr

/-- A DRAM request of a pseudo-channel queue (R60). -/
structure PchReq where
  die : DieId
  pch : PchId
  bank : Nat
  row : Nat
  at_ : Nat
  deriving DecidableEq, Repr

/-- A message held for a sleeping link (R79): the core, slot, lanes and address that wait. -/
structure HeldMsg where
  agent : AgentId
  core : CoreId
  slot : SlotId
  lanes : Mask
  va : W64
  since : Nat
  /-- An engine's message (no lanes) that has been answered with link-wake timeout. -/
  late : Bool
  deriving DecidableEq, Repr

/-- A remote access that awaits its answer (R432); an engine's has no lanes, and `fault` is the answer that refuses it. -/
structure Remote where
  core : CoreId
  slot : SlotId
  uid : Nat
  lanes : Mask
  va : W64
  /-- Where it goes: a location of another device. -/
  loc : Nat
  since : Nat
  /-- A write of an engine; of a string, an access that returns it no value. -/
  wr : Bool
  /-- An access to an SC page (R104). -/
  sc : Bool
  /-- A fetch (R106). -/
  code : Bool
  fault : Option Nat
  deriving DecidableEq, Repr

/-- What a core or the device has reported to the management controller: a double trap with its core, slot and lanes (R384), a
context fault (R409), a start-up failure (R442, R445). -/
inductive Report where
  | doubleTrap (core : CoreId) (slot : SlotId) (lanes : Mask)
  | contextFault (ctx : BitVec 12) (kind : BitVec 8)
  | startFailed
  deriving DecidableEq, Repr

/-- A `done` that gave its future a result: its release scope and its core (R327). -/
structure DoneAt where
  place : Place
  scope : Scope
  core : CoreId
  deriving DecidableEq, Repr

/-- A route of R453. -/
structure Route where
  lo : BitVec 14
  hi : BitVec 14
  ports : BitVec 24
  deriving DecidableEq, Repr

/-- What the model's schedule lets issue: a split, or an abacus. -/
inductive IssueRef where
  | split (c : CoreId) (slot : SlotId) (sp : SplitId)
  | abacus (d : DieId) (p : PchId)
  deriving DecidableEq, Repr

/-- The issuing split of a core instruction. -/
structure Cur where
  core : CoreId
  slot : SlotId
  split : SplitId
  deriving DecidableEq, Repr

/-- The caravan token while it stays at the device (R352): a load byte per device; requests, each with the asking device, its RING tag
and a number of manifests; entries on their way, each with the device it goes to, its tag and its manifest. -/
structure Token where
  loads : List (Nat × Nat)
  reqs : List (Nat × BitVec 16 × Nat)
  entries : List (Nat × BitVec 16 × List Byte)
  since : Nat
  deriving DecidableEq, Repr

/-- The state of one J9 package. -/
structure State where
  -- time
  acc : Nat
  ppm : Int
  cyc : Nat
  pskew : W64
  timeLost : Bool
  /-- PTIME of the latest successful time exchange (R433). -/
  exchanged : Nat
  -- units
  um : UnitMap
  /-- IRECV of each core (R387). -/
  irecv : Vector W64 256
  /-- How often the device has been reset: place tokens differ between boots (R40). -/
  boots : Nat
  /-- Contexts that have been restored, each with a number of its latest restore: a restore reassigns every token (R40). -/
  placings : List (BitVec 12 × Nat)
  cores : Vector Core 256
  -- memory side
  regions : Vector (Vector W64 4) 64
  rtstat : W64
  /-- Ranges of region entries whose invalidation drains (R51): BASE and LIMIT. -/
  draining : List (Nat × Nat)
  mem : List Host.Cell
  pz : List Nat
  /-- Scratchpad bytes: the byte at offset p of core c has the key c * 2^22 + p. -/
  scr : List Host.Cell
  /-- Poisoned aligned 8-byte words of scratchpad, by their key / 8 (R408). -/
  scrPz : List Nat
  l1 : List L1Line
  tlb : List Tr
  walks : List WalkEnt
  /-- The physical pages that the latest leaf seen by a walker has marked with the bank attribute, each with its log2 size (R61, R86; log 81). -/
  bkPages : List (Nat × Nat)
  deadDies : List DieId
  dir : List (Nat × DState)
  metas : List Meta
  /-- Lines whose directory entry was discarded after an error and is not discovered anew yet (R80). -/
  lost : List Nat
  inc : Vector (BitVec 16) 10
  deadAgents : List AgentId
  l2 : List L2Line
  pend : List PStore
  /-- Lines whose leases an operation other than a store of R68 waits for, each with the PTIME until which no slice grants a new lease on it
  (R69, R217; log 43). -/
  closing : List (Nat × Nat)
  /-- Requests that wait at their home, by line, in the order in which they arrived, each with the PTIME at which it counts as given up
  unless its agent has asked again (R75; log 95). -/
  lineq : List (Nat × AgentId × Nat)
  /-- The locations of global barrier objects of this device that a barrier operation has named (R121; log 93). -/
  bars : List Nat
  asleep : List AgentId
  held : List HeldMsg
  /-- Agents with an unanswered message, and the PTIME of the first (R79). -/
  silent : List (AgentId × Nat)
  llc : List LlcLine
  pchq : List PchReq
  rows : List (DieId × PchId × Nat × Nat)
  /-- Banks in refresh, each with the core cycle at which it is over. -/
  refreshing : List (DieId × PchId × Nat × Nat)
  hot : List DieId
  seals : List Nat
  ranges : Vector (Option Range) 256
  partials : List Partial
  views : Vector (Option View) 64
  derivs : List Deriv
  timers : List (Fin 64 × Nat × Nat)
  vreads : List VRead
  /-- Waiter registrations: the barrier, the core, the waiting string's uid (R118, R120). -/
  regs : List (Place × CoreId × Nat)
  abaci : List Abacus
  -- tasks and contexts
  /-- The scope and the place of the latest `done` of each future that has had one (R327). -/
  dones : List DoneAt
  launches : Vector Launch 64
  ldoor0 : W64
  ldoor1 : W64
  lstat : W64
  bazaar : Vector Bazaar 16
  drove : List (Fin 8 × List (CoreId × Nat))
  ctab : Vector (Vector W64 4) 64
  ctxcmd : W64
  ctxroot : W64
  ctxstat : W64
  images : List Image
  /-- Image clusters of a context (R413, R416): the context, the image cluster, the working cluster. -/
  imap : List (BitVec 12 × Nat × Fin 64)
  uids : Nat
  -- host, fabric, collectives
  resq : List (BitVec 12 × BitVec 45)
  elog : List ERec
  elogLost : Option W64
  corr : Vector Nat 12
  apert : Vector (Vector W64 2) 16
  hipend : BitVec 16
  naesh : List (BitVec 4)
  naeshDown : Bool
  fat : Vector (Vector W64 4) 64
  cport : Vector (BitVec 5) 24
  portIdle : List (Fin 24)
  routes : List Route
  ring : Option (BitVec 16 × List (BitVec 14))
  token : Option Token
  remote : List Remote
  colls : List Coll
  /-- Lines that a held instruction has accessed and that R102 has counted already, by its split. -/
  counted : List (Cur × Nat)
  /-- What the host's latest access was answered: bytes read, nothing for a write, none for an error or poison response (R423). -/
  hostGot : Option (List Byte)
  /-- The same for the latest access from another device; none is a refusal (R430). -/
  fabricGot : Option (List Byte)
  -- management
  ready : Bool
  pwrcap : W64
  therm : BitVec 8
  lsidle : W64
  /-- What has been reported to the management controller, oldest first. -/
  reports : List Report
  mcmd : W64
  mstat : W64
  /-- A double trap of the boot string: no other core runs a string until a reset (R445). -/
  bootFailed : Bool
  withhold : Bool
  halved : Bool
  throttled : Bool
  -- the model's schedule and free values
  agenda : List Ev
  /-- The event at work, with its operands. -/
  ev : Ev
  issue : List IssueRef
  cur : Cur
  /-- The abacus whose instruction issues. -/
  curAb : DieId × PchId
  free : Nat
  deriving DecidableEq, Repr

/-- The boot split (R445): 32 lanes in hypervisor mode at the header that HVEC names. -/
def Split.boot : Split :=
  { Split.empty with pc := bootEntry, m := BitVec.allOnes 32, e := BitVec.allOnes 32, mode := .hyp, enter := true }

/-- The boot string (R445): R354's state, v0 holding the lane index, no launch. -/
def Str.boot : Str :=
  { Str.empty with
    st := .ready, uid := 1,
    vreg := (Vector.replicate 256 none).set 0 (some (gen 32 (BitVec.ofNat 32))),
    splits := (Vector.replicate 4 Split.empty).set 0 Split.boot }

/-- Core 0 after reset: the boot string in slot 0 and its one-granule partition (R445; the granule: log 5). -/
def Core.boot : Core :=
  { Core.reset with
    strs := (Vector.replicate 16 Str.empty).set 0 Str.boot
    parts := [{ ctx := 0, gmask := 1, keep := false }] }

/-- A full JN9-P768 (R1, R2; log 2). -/
def UnitMap.full : UnitMap :=
  { clmask := BitVec.allOnes 64, mdie := 0xFFF, mpcw := Vector.replicate 12 64, portl := Vector.replicate 24 8,
    fold := gen 8 (BitVec.ofNat 4), devnum := 0, hostBytes := 2 ^ 36, lpddr := false }

/-- An unused launch slot. -/
def Launch.none : Launch :=
  { on := false, live := 0, tasks := 0, words := Vector.replicate 8 0, ptroot := 0, poolUsed := [], record := 0, ended := false, rlist := [], counts := [] }

/-- The lanes at which a port with some working lanes trains (R429). -/
def trainLanes (n : Nat) : Nat := if 8 ≤ n then 8 else if 4 ≤ n then 4 else if 2 ≤ n then 2 else n

/-- CPORT of a port that has trained (R429). -/
def trained (n : Nat) : BitVec 5 := if n = 0 then 0 else BitVec.ofNat 5 (16 + trainLanes n)

/-- The device right after reset (R444, R445) with the unit map `um` and core 0 given as the boot core. -/
def State.resetWith (um : UnitMap) (boot : CoreId) : State :=
  { acc := 0, ppm := 0, cyc := 0, pskew := 0, timeLost := false, exchanged := 0,
    um := um, irecv := Vector.replicate 256 0, boots := 0, placings := [], cores := (Vector.replicate 256 Core.reset).set boot Core.boot,
    regions := Vector.replicate 64 (Vector.replicate 4 0), rtstat := 0, draining := [], mem := [], pz := [], scr := [], scrPz := [],
    l1 := [], tlb := [], walks := [], bkPages := [], deadDies := [],
    dir := [], metas := [], lost := [], inc := Vector.replicate 10 0, deadAgents := [], l2 := [], pend := [], closing := [], lineq := [], bars := [], asleep := [],
    held := [], silent := [], llc := [], pchq := [], rows := [], refreshing := [], hot := [], seals := [],
    ranges := Vector.replicate 256 Option.none, partials := [], views := Vector.replicate 64 Option.none, derivs := [], timers := [], vreads := [],
    regs := [], abaci := [], dones := [],
    launches := Vector.replicate 64 Launch.none, ldoor0 := 0, ldoor1 := 0, lstat := 0,
    bazaar := Vector.replicate 16 { w0 := 0, w1 := 0, head := 0, q := [] }, drove := [],
    ctab := Vector.replicate 64 (Vector.replicate 4 0), ctxcmd := 0, ctxroot := 0, ctxstat := 0, images := [], imap := [], uids := 2,
    resq := [], elog := [], elogLost := Option.none, corr := Vector.replicate 12 0,
    apert := Vector.replicate 16 (Vector.replicate 2 0), hipend := 0, naesh := [], naeshDown := false,
    fat := Vector.replicate 64 (Vector.replicate 4 0), cport := um.portl.map trained, portIdle := [], routes := [],
    ring := Option.none, token := Option.none, remote := [], colls := [], counted := [], hostGot := Option.none, fabricGot := Option.none,
    ready := true, pwrcap := 3410, therm := 0, lsidle := 20, reports := [], mcmd := 0, mstat := 0, bootFailed := false,
    withhold := false, halved := false, throttled := false,
    agenda := [], ev := .blockEntry, issue := [], cur := { core := boot, slot := 0, split := 0 }, curAb := (0, 0), free := 0 }

/-- The machine right after reset (R441 to R445), on a full part (log 2). -/
def State.reset : State := State.resetWith UnitMap.full 0

end Sys2Proof.Machine
end

