-- ==== Sys2Proof/Machine/Mem.lean ====
section
/-!
DEFINITION. Bytes in place: the canonical list of cells, little-endian words (spec/00 R6), the physical map and the region
decode (spec/02 R43 to R56), package time (R57), and bytes at a `Place`.
-/
namespace Sys2Proof.Machine
open Sys2Proof

-- ## Cells

/-- The byte a list of cells holds at a key; an unlisted key reads as zero (spec/17 R441 step 3; log 6). -/
def cellGet : List Host.Cell → Nat → Byte
  | [], _ => 0
  | (x, v) :: r, a => if x = a then v else cellGet r a

/-- The list with byte `b` at key `a`, in its canonical form. -/
def cellSet : List Host.Cell → Nat → Byte → List Host.Cell
  | [], a, b => if b = 0 then [] else [(a, b)]
  | (x, v) :: r, a, b =>
    if a < x then (if b = 0 then (x, v) :: r else (a, b) :: (x, v) :: r)
    else if a = x then (if b = 0 then r else (a, b) :: r)
    else (x, v) :: cellSet r a b

/-- Every key is above `lo` and the keys rise, and no listed byte is zero. -/
def Memory.wfFrom : Option Nat → List Host.Cell → Bool
  | _, [] => true
  | lo, (x, v) :: r => (match lo with | none => true | some l => decide (l < x)) && v != 0 && Memory.wfFrom (some x) r

/-- The canonical form: keys strictly rising, no entry equal to what an unlisted key reads as. -/
def Memory.wf (m : List Host.Cell) : Bool := Memory.wfFrom none m

/-- The cells written one after another, the first first. -/
def cellPut (m : List Host.Cell) (cs : List Host.Cell) : List Host.Cell :=
  cs.foldl (fun m c => cellSet m c.1 c.2) m

-- ## Words

/-- The value of bytes, the lowest first (R6). -/
def leNat : List Byte → Nat
  | [] => 0
  | b :: r => b.toNat + 256 * leNat r

/-- The n low bytes of a value, the lowest first (R6). -/
def leBytes : Nat → Nat → List Byte
  | 0, _ => []
  | n + 1, v => BitVec.ofNat 8 v :: leBytes n (v / 256)

/-- Four bytes as a lane. -/
def le32 (bs : List Byte) : W32 := BitVec.ofNat 32 (leNat bs)
/-- Eight bytes as a word. -/
def le64 (bs : List Byte) : W64 := BitVec.ofNat 64 (leNat bs)

/-- Word i of a list of bytes. -/
def wordAt (bs : List Byte) (i : Nat) : W64 := le64 ((bs.drop (8 * i)).take 8)

/-- Bits [hi:lo] of a word as a number. -/
def fld (w : W64) (hi lo : Nat) : Nat := (w.toNat / 2 ^ lo) % 2 ^ (hi + 1 - lo)

/-- A word with bits [hi:lo] replaced. -/
def fput (w : W64) (hi lo v : Nat) : W64 :=
  BitVec.ofNat 64 (w.toNat - fld w hi lo * 2 ^ lo + v % 2 ^ (hi + 1 - lo) * 2 ^ lo)

/-- A 57-bit virtual address with bit 56 extended (R84, R237). -/
def va57 (w : W64) : W64 := (w.extractLsb' 0 57).signExtend 64

-- ## Time

/-- PTIME in nanoseconds (R57): a core cycle is 10/17 ns at the nominal rate (R3), corrected by `ppm` (R58). -/
def State.ptime (s : State) : Nat := s.acc / 17000000

/-- One more core cycle. -/
def State.tick (s : State) : State :=
  let s : State := { s with cyc := s.cyc + 1, acc := s.acc + 10 * (1000000 + s.ppm).toNat }
  { s with closing := s.closing.filter (fun x => decide (s.ptime < x.2)), lineq := s.lineq.filter (fun x => decide (s.ptime < x.2.2)) }

-- ## The physical map

/-- Where a physical address leads. -/
inductive Phys where
  /-- A byte of this device's memory, by its location (R42, R62). -/
  | loc (l : Nat)
  /-- A byte of another device's memory (R47). -/
  | remote (l : Nat)
  /-- The device-register window (R45). -/
  | reg (a : Nat)
  /-- No memory (R43, R44). -/
  | unmapped
  deriving DecidableEq, Repr

/-- The base of the LPDDR6 window (R43). -/
def lpddrBase : Nat := 0x200000000000
/-- The base of the host window (R43). -/
def hostBase : Nat := 0x400000000000
/-- The base of the device-register window (R43). -/
def regBase : Nat := 0x7F0000000000

/-- The location of offset cof in logical pseudo-channel pch of die d. -/
def hbmLoc (d pch cof : Nat) : Nat := d * 2 ^ 36 + pch * 2 ^ 30 + cof

/-- The working pseudo-channels of a die (R55). -/
def State.pchCount (s : State) (d : Nat) : Nat :=
  if s.um.mdie.getLsbD d then (s.um.mpcw.toArray.getD d 0) else 0

/-- R53: a die-local address spread over the die's pseudo-channels. -/
def State.dlaLoc (s : State) (d dla : Nat) : Phys :=
  let w := s.pchCount d
  if dla < w * 2 ^ 30 then
    let u := dla / 256
    .loc (hbmLoc d (u % w) (u / w * 256 + dla % 256))
  else .unmapped

/-- The k-th set bit of a mask of n bits, the first being the 0th. -/
def kthBit (m n k : Nat) : Option Nat := ((List.range n).filter (fun i => m.testBit i))[k]?

/-- The fields of a region table entry (R49). -/
def regBASE (e : Vector W64 4) : Nat := fld e[0] 47 21 * 2 ^ 21
/-- LIMIT (R49). -/
def regLIMIT (e : Vector W64 4) : Nat := fld e[1] 47 21 * 2 ^ 21
/-- V (R49). -/
def regV (e : Vector W64 4) : Bool := e[2].getLsbD 63
/-- MODE (R49). -/
def regMODE (e : Vector W64 4) : Nat := fld e[2] 57 56
/-- GLOG (R49). -/
def regGLOG (e : Vector W64 4) : Nat := fld e[2] 52 48
/-- PCH (R49). -/
def regPCH (e : Vector W64 4) : Nat := fld e[2] 44 39
/-- PCNT (R49). -/
def regPCNT (e : Vector W64 4) : Nat := fld e[2] 38 32
/-- DIEMASK (R49). -/
def regDIEMASK (e : Vector W64 4) : Nat := fld e[2] 11 0
/-- DOFF (R49). -/
def regDOFF (e : Vector W64 4) : Nat := fld e[3] 35 8 * 256

/-- R52 by one entry: the location of an address of its range. -/
def State.entryLoc (s : State) (e : Vector W64 4) (pa : Nat) : Phys :=
  let off := pa - regBASE e
  let G := 2 ^ regGLOG e
  let g := off / G
  let inner := off % G
  let dm := regDIEMASK e
  let n := ((List.range 12).filter (fun i => dm.testBit i)).length
  match regMODE e with
  | 0 =>
    match kthBit dm 12 (g % n) with
    | some d => s.dlaLoc d (regDOFF e + g / n * G + inner)
    | none => .unmapped
  | 1 =>
    match kthBit dm 12 (g % n) with
    | some d =>
      let pch := regPCH e + g / n % regPCNT e
      let cof := regDOFF e + g / (n * regPCNT e) * G + inner
      if cof < 2 ^ 30 ∧ pch < s.pchCount d then .loc (hbmLoc d pch cof) else .unmapped
    | none => .unmapped
  | _ =>
    match kthBit dm 12 0 with
    | some d => s.dlaLoc d (regDOFF e + off)
    | none => .unmapped

/-- The valid entry whose range contains an interleaved address (R52). -/
def State.regionOf (s : State) (pa : Nat) : Option (Vector W64 4) :=
  s.regions.toList.find? (fun e => regV e && decide (regBASE e ≤ pa) && decide (pa < regLIMIT e))

/-- The decode of a local physical address (R43, R46, R52, R53). -/
def State.decodePa (s : State) (pa : Nat) : Phys :=
  if pa < 0xC000000000 then
    match s.regionOf pa with
    | some e => s.entryLoc e pa
    | none => .unmapped
  else if pa < 0x100000000000 then .unmapped
  else if pa < 0x10C000000000 then s.dlaLoc ((pa - 0x100000000000) / 2 ^ 36) (pa % 2 ^ 36)
  else if pa < lpddrBase then .unmapped
  else if pa < 0x208000000000 then (if s.um.lpddr then .loc pa else .unmapped)
  else if pa < hostBase then .unmapped
  else if pa < regBase then (if pa - hostBase < s.um.hostBytes then .loc pa else .unmapped)
  else if pa < 0x800000000000 then .reg pa
  else .unmapped

/-- The ports of the first route that covers a device (R453). -/
def State.portsTo (s : State) (dev : Nat) : BitVec 24 :=
  ((s.routes.find? (fun r => decide (r.lo.toNat ≤ dev) && decide (dev ≤ r.hi.toNat))).map (·.ports)).getD 0

/-- Some route reaches a device (R47, R453). -/
def State.routed (s : State) (dev : BitVec 14) : Bool := s.portsTo dev.toNat != 0

/-- The port that the messages of a line of another device take: one of the route's that are UP, by a hash of the line address (R453);
none while the route has none. -/
def State.portOf (s : State) (loc : Nat) : Option (Fin 24) :=
  let m := s.portsTo (loc / 2 ^ 48 - 1)
  let up := (List.finRange 24).filter (fun p => m.getLsbD p.val && (s.cport[p]).getLsbD 4)
  up[Config.portHash (loc / 128) % up.length]?

/-- A flit to a location can leave: its route has a port that is UP and not idle (R429, R448, R453). -/
def State.flitGoes (s : State) (loc : Nat) : Bool := match s.portOf loc with | some p => !s.portIdle.contains p | none => false

/-- The decode of a global address (R47): the device's own number is the local path; one that no route reaches is unmapped. -/
def State.decodeGa (s : State) (dev : BitVec 14) (pa : Nat) : Phys :=
  if dev = s.um.devnum then s.decodePa pa
  else if s.routed dev then .remote ((dev.toNat + 1) * 2 ^ 48 + pa)
  else .unmapped

/-- The tier of a local physical address by the windows of R43 (R89). -/
inductive Tier where
  | hbm | lpddr | host | reg | none
  deriving DecidableEq, Repr

/-- The window in which a physical address lies, whatever the part has fitted (R89). -/
def tierOf (pa : Nat) : Tier :=
  if pa < 0xC000000000 then .hbm
  else if pa < 0x100000000000 then .none
  else if pa < 0x10C000000000 then .hbm
  else if pa < lpddrBase then .none
  else if pa < 0x208000000000 then .lpddr
  else if pa < hostBase then .none
  else if pa < regBase then .host
  else if pa < 0x800000000000 then .reg
  else .none

/-- The first address of a die-local address's inverse under R53: offset cof of logical pseudo-channel pch among w of them. -/
def dlaOf (w pch cof : Nat) : Nat := ((cof / 256) * w + pch) * 256 + cof % 256

/-- A line lies in a physical page: pages are made of whole 256-byte blocks (R49, R53). -/
def State.pageHas (s : State) (pa log line : Nat) : Bool :=
  (List.range (2 ^ log / 256)).any (fun i =>
    match s.decodePa (pa + 256 * i) with | .loc l => l / 256 == line / 2 | _ => false)

/-- The line of a location (128 bytes). -/
def lineOf (loc : Nat) : Nat := loc / 128

/-- A line of HBM4E of this device. -/
def lineHbm (line : Nat) : Bool := decide (line < 12 * 2 ^ 29)

/-- The home die of an HBM4E line (R42). -/
def homeOf (line : Nat) : Option DieId :=
  if h : line / 2 ^ 29 < 12 then some ⟨line / 2 ^ 29, h⟩ else none

/-- A line of another device. -/
def lineRemote (line : Nat) : Bool := decide (2 ^ 41 ≤ line)

-- ## Bytes in memory

/-- The byte at a location. -/
def State.peek (s : State) (loc : Nat) : Byte := cellGet s.mem loc

/-- n bytes from a location upward, within one line. -/
def State.peekN (s : State) (loc n : Nat) : List Byte := (List.range n).map (fun i => s.peek (loc + i))

/-- Memory with the cells written. -/
def State.poke (s : State) (cs : List Host.Cell) : State := { s with mem := cellPut s.mem cs }

/-- The cells of bytes at consecutive locations. -/
def cellsAt (loc : Nat) (bs : List Byte) : List Host.Cell :=
  (List.range bs.length).zipWith (fun i b => (loc + i, b)) bs

/-- Memory with bytes written from a location upward. -/
def State.pokeN (s : State) (loc : Nat) (bs : List Byte) : State := s.poke (cellsAt loc bs)

/-- The 8-byte word at a location. -/
def State.peek64 (s : State) (loc : Nat) : W64 := le64 (s.peekN loc 8)

-- ## Scratchpad bytes and places

/-- The key of offset p of core c's scratchpad. -/
def scrKey (c : CoreId) (p : Nat) : Nat := c.val * 2 ^ 22 + p

/-- Scratchpad with the cells written; a write of all 8 bytes of a word clears its poison (R408). -/
def State.scrPut (s : State) (cs : List Host.Cell) : State :=
  { s with scr := cellPut s.scr cs
           scrPz := s.scrPz.filter (fun w => !(List.range 8).all (fun i => cs.any (fun c => c.1 == 8 * w + i))) }

/-- Bytes at a place. -/
def State.placeGet (s : State) (p : Place) (n : Nat) : List Byte :=
  match p with
  | .scr c o => (List.range n).map (fun i => cellGet s.scr (scrKey c o + i))
  | .mem l => s.peekN l n

/-- Bytes written at a place. -/
def State.placePut (s : State) (p : Place) (bs : List Byte) : State :=
  match p with
  | .scr c o => s.scrPut (cellsAt (scrKey c o) bs)
  | .mem l => s.pokeN l bs

/-- The place i bytes on, within its object. -/
def placeAdd (p : Place) (i : Nat) : Place :=
  match p with
  | .scr c o => .scr c (o + i)
  | .mem l => .mem (l + i)

end Sys2Proof.Machine
end

