-- ==== Sys2Proof/Machine/Flags.lean ====
section
/-!
DEFINITION. The sticky flags NV DZ OF UF NX (spec/01 R29, spec/07 R200) as one 5-bit value, bit 4 NV to bit 0 NX.
-/
namespace Sys2Proof

/-- A set of flags, laid out as FFLAGS (R200). -/
abbrev Flags := BitVec 5

/-- Invalid. -/
def fNV : Flags := 0b10000
/-- Divide by zero. -/
def fDZ : Flags := 0b01000
/-- Overflow. -/
def fOF : Flags := 0b00100
/-- Underflow. -/
def fUF : Flags := 0b00010
/-- Inexact. -/
def fNX : Flags := 0b00001

/-- A flag raised under a condition. -/
def Flags.when (b : Bool) (f : Flags) : Flags := if b then f else 0

/-- The flags of a rounding (R29): a flush under FZ raises UF and NX (R20); otherwise UF needs tiny and inexact, and an
overflow raises OF and NX (R26). -/
def Flags.round (inexact tiny large flushed : Bool) : Flags :=
  if flushed then fUF ||| fNX
  else if large then fOF ||| fNX
  else Flags.when inexact fNX ||| Flags.when (tiny && inexact) fUF

end Sys2Proof
end

