-- ==== Sys2Proof/Machine/Num.lean ====
section
/-!
DEFINITION. Number formats (spec/01): the values of codes (R12 to R19), rounding (R20 to R29), exact arithmetic on dyadic
values, blocks (R30 to R33), the exact sums (R34) and the fixed form (R37). Values are exact: a finite value is
(−1)^neg * m * 2^e with m a natural number of any size.
-/
namespace Sys2Proof

/-- The value of a floating code, or an exact intermediate result. -/
inductive FVal where
  | nan (sig : Bool)
  | inf (neg : Bool)
  | fin (neg : Bool) (m : Nat) (e : Int)
  deriving DecidableEq, Repr

/-- +0. -/
def FVal.zero : FVal := .fin false 0 0

/-- Exponent width of a floating format (R12). -/
def Ty.expW : Ty → Nat
  | .f32 | .bf16 => 8 | .f16 | .e5m2 => 5 | .e4m3 => 4 | _ => 2

/-- Mantissa width (R12). -/
def Ty.manW : Ty → Nat
  | .f32 => 23 | .bf16 => 7 | .f16 => 10 | .e5m2 => 2 | .e4m3 => 3 | _ => 1

/-- Bias (R12). -/
def Ty.bias : Ty → Nat
  | .f32 | .bf16 => 127 | .f16 | .e5m2 => 15 | .e4m3 => 7 | _ => 1

/-- The format has infinities and NaN codes at the top exponent (R12). -/
def Ty.hasInf : Ty → Bool
  | .f32 | .bf16 | .f16 | .e5m2 => true
  | _ => false

/-- Exponent of the least normal value. -/
def Ty.emin (t : Ty) : Int := 1 - (t.bias : Int)

/-- The largest finite code without its sign (R12, R13). -/
def Ty.maxCode : Ty → Nat
  | .f32 => 0x7F7FFFFF | .bf16 => 0x7F7F | .f16 => 0x7BFF | .e5m2 => 0x7B | .e4m3 => 0x7E | _ => 0x7

/-- The code of +∞ of a format that has one. -/
def Ty.infCode (t : Ty) : Nat := (2 ^ t.expW - 1) * 2 ^ t.manW

/-- The canonical NaN (R17). -/
def Ty.nanCode : Ty → Nat
  | .f32 => 0x7FC00000 | .bf16 => 0x7FC0 | .f16 => 0x7E00 | .e5m2 => 0x7E | .e4m3 => 0x7F | _ => 0

/-- The sign bit added to a code. -/
def Ty.signed (t : Ty) (neg : Bool) (code : Nat) : Nat := if neg then code + 2 ^ (t.width - 1) else code

/-- The magnitude of a finite code without its sign, as m * 2^e (R12). -/
def Ty.mag (t : Ty) (code : Nat) : Nat × Int :=
  let e := code / 2 ^ t.manW
  let m := code % 2 ^ t.manW
  if e = 0 then (m, t.emin - t.manW) else (2 ^ t.manW + m, t.emin - t.manW + (e - 1 : Nat))

/-- The value of a code (R12, R13, R18). -/
def Ty.decode (t : Ty) (code : Nat) : FVal :=
  let neg := code / 2 ^ (t.width - 1) % 2 == 1
  let c := code % 2 ^ (t.width - 1)
  if t.hasInf && t.infCode ≤ c then
    if c = t.infCode then .inf neg
    else .nan (c / 2 ^ (t.manW - 1) % 2 == 0)
  else if t == .e4m3 && c = 0x7F then .nan false
  else .fin neg (t.mag c).1 (t.mag c).2

/-- A finite non-zero value below the least normal value of the format. -/
def Ty.isSub (t : Ty) : FVal → Bool
  | .fin _ m e => m != 0 && decide ((Nat.log2 m : Int) + e < t.emin)
  | _ => false

/-- R20 on an input: a subnormal FP32, FP16 or BF16 input becomes a zero of the same sign. -/
def Ty.flushIn (t : Ty) (fz : Bool) (v : FVal) : FVal :=
  match v with
  | .fin neg m e => if fz && t.isArith && t.isSub (.fin neg m e) then .fin neg 0 0 else v
  | _ => v

/-- m * 2^(-sh) truncated, with the part cut off as a natural number of scale 2^(-sh). -/
def cut (m : Nat) (sh : Int) : Nat × Nat :=
  if sh ≤ 0 then (m * 2 ^ (-sh).toNat, 0) else (m / 2 ^ sh.toNat, m % 2 ^ sh.toNat)

/-- Whether the magnitude a, with the part `rem` of scale 2^sh cut off and more below it if `sticky`, is incremented
(R21, R22). `r` is the random value of `.rs`. -/
def roundUp (mode : Rnd) (neg : Bool) (a rem : Nat) (sh : Int) (sticky : Bool) (r : W32) : Bool :=
  let inexact := rem != 0 || sticky
  match mode with
  | .rn =>
    if sh ≤ 0 then false
    else
      let half := 2 ^ (sh.toNat - 1)
      decide (half < rem) || (rem == half && (sticky || a % 2 == 1))
  | .rz => false
  | .ru => inexact && !neg
  | .rd => inexact && neg
  | .rs => if sh ≤ 0 then false else decide (2 ^ 32 ≤ rem * 2 ^ 32 / 2 ^ sh.toNat + r.toNat)

/-- A rounding of the magnitude m * 2^e (m ≠ 0), with more below it if `sticky`, to multiples of 2^ulp. -/
def roundAt (mode : Rnd) (neg : Bool) (m : Nat) (e : Int) (sticky : Bool) (r : W32) (ulp : Int) : Nat × Bool :=
  let (a, rem) := cut m (ulp - e)
  let up := roundUp mode neg a rem (ulp - e) sticky r
  (if up then a + 1 else a, rem != 0 || sticky)

/-- R26: the code that replaces a rounded magnitude beyond the largest finite value. -/
def Ty.overflow (t : Ty) (mode : Rnd) (sat neg : Bool) : Nat :=
  if !t.hasInf || sat then t.signed neg t.maxCode
  else match mode with
    | .rn | .rs => t.signed neg t.infCode
    | .rz => t.signed neg t.maxCode
    | .ru => t.signed neg (if neg then t.maxCode else t.infCode)
    | .rd => t.signed neg (if neg then t.infCode else t.maxCode)

/-- R21, R22, R26, R29 and R20 on a result: the code and the flags of (−1)^neg * m * 2^e, with more below it if `sticky`
(then m has more bits than any format and random value needs). -/
def Ty.round (t : Ty) (mode : Rnd) (sat fz : Bool) (r : W32) (neg : Bool) (m : Nat) (e : Int) (sticky : Bool) :
    Nat × Flags :=
  if m = 0 then (t.signed neg 0, 0)
  else
    let top := (Nat.log2 m : Int) + e
    let ulp := max top t.emin - t.manW
    let (a, inexact) := roundAt mode neg m e sticky r ulp
    let free := (roundAt mode neg m e sticky r (top - t.manW)).1
    let tiny := decide (top < t.emin) && !(decide (top = t.emin - 1) && free == 2 ^ (t.manW + 1))
    let mx := t.mag t.maxCode
    let large := decide (mx.1 * 2 ^ (mx.2 - ulp).toNat < a) && decide (ulp ≤ mx.2) || decide (mx.2 < ulp)
    if fz && t.isArith && tiny then (t.signed neg 0, Flags.round inexact tiny false true)
    else if large then (t.overflow mode sat neg, Flags.round inexact tiny true false)
    else
      let code := if a < 2 ^ t.manW then a else (ulp - (t.emin - t.manW) + 1).toNat * 2 ^ t.manW + (a - 2 ^ t.manW)
      (t.signed neg code, Flags.round inexact tiny false false)

/-- A value delivered in a format (R17, R19, R25 to R27): the code and the flags. -/
def Ty.deliver (t : Ty) (mode : Rnd) (sat fz : Bool) (r : W32) (v : FVal) (sticky : Bool := false) : Nat × Flags :=
  match v with
  | .nan sig =>
    if t == .e2m1 then (0, fNV) else (t.nanCode, Flags.when sig fNV)
  | .inf neg =>
    match t with
    | .e4m3 => (0x7F, fNV)
    | .e2m1 => (t.signed neg 0x7, fNV)
    | .e5m2 => if sat then (t.signed neg 0x7B, fNV) else (t.signed neg t.infCode, 0)
    | _ => (t.signed neg t.infCode, 0)
  | .fin neg m e => t.round mode sat fz r neg m e sticky

/-- Delivered with `.rn`, subnormals kept, as FP32 bits (R34 to R36, R216, R308). -/
def rn32 (v : FVal) : W32 := BitVec.ofNat 32 (Ty.f32.deliver .rn false false 0 v).1

/-- The value of FP32 bits. -/
def fv32 (w : W32) : FVal := Ty.f32.decode w.toNat

/-- The signed integer m of an exact finite value at the scale 2^e0, e0 ≤ e. -/
def scaled (neg : Bool) (m : Nat) (e e0 : Int) : Int :=
  let n : Int := m * 2 ^ (e - e0).toNat
  if neg then -n else n

/-- −v. -/
def FVal.neg : FVal → FVal
  | .nan s => .nan s
  | .inf n => .inf (!n)
  | .fin n m e => .fin (!n) m e

/-- |v|. -/
def FVal.abs : FVal → FVal
  | .nan s => .nan s
  | .inf _ => .inf false
  | .fin _ m e => .fin false m e

/-- The value is a NaN. -/
def FVal.isNan : FVal → Bool
  | .nan _ => true
  | _ => false

/-- The value is a signalling NaN (R18). -/
def FVal.isSig : FVal → Bool
  | .nan s => s
  | _ => false

/-- The value is ±0. -/
def FVal.isZero : FVal → Bool
  | .fin _ m _ => m == 0
  | _ => false

/-- The exact sum of two finite values, an exact zero taking its sign by R19. -/
def addFin (rd : Bool) (n1 : Bool) (m1 : Nat) (e1 : Int) (n2 : Bool) (m2 : Nat) (e2 : Int) : FVal :=
  if m1 = 0 ∧ m2 = 0 then .fin (if n1 == n2 then n1 else rd) 0 0
  else if m1 = 0 then .fin n2 m2 e2
  else if m2 = 0 then .fin n1 m1 e1
  else
    let e0 := min e1 e2
    let z := scaled n1 m1 e1 e0 + scaled n2 m2 e2 e0
    if z = 0 then .fin rd 0 0 else .fin (decide (z < 0)) z.natAbs e0

/-- x + y exactly, with NV (R18, R19, R29). `rd` says that the rounding mode is `.rd`. -/
def FVal.add (rd : Bool) : FVal → FVal → FVal × Flags
  | .nan a, .nan b => (.nan false, Flags.when (a || b) fNV)
  | .nan a, _ | _, .nan a => (.nan false, Flags.when a fNV)
  | .inf a, .inf b => if a == b then (.inf a, 0) else (.nan false, fNV)
  | .inf a, _ | _, .inf a => (.inf a, 0)
  | .fin n1 m1 e1, .fin n2 m2 e2 => (addFin rd n1 m1 e1 n2 m2 e2, 0)

/-- x * y exactly, with NV (R18, R29). -/
def FVal.mul : FVal → FVal → FVal × Flags
  | .nan a, .nan b => (.nan false, Flags.when (a || b) fNV)
  | .nan a, _ | _, .nan a => (.nan false, Flags.when a fNV)
  | .inf a, .inf b => (.inf (a != b), 0)
  | .inf a, .fin n m _ | .fin n m _, .inf a => if m = 0 then (.nan false, fNV) else (.inf (a != n), 0)
  | .fin n1 m1 e1, .fin n2 m2 e2 => (.fin (n1 != n2) (m1 * m2) (e1 + e2), 0)

/-- The quotient of finite non-zero magnitudes with 80 bits and more, and whether something is left below them. -/
def divMag (m1 : Nat) (e1 : Int) (m2 : Nat) (e2 : Int) : Nat × Int × Bool :=
  let k := Nat.log2 m2 + 80
  let n := m1 * 2 ^ k
  (n / m2, e1 - e2 - k, n % m2 != 0)

/-- x / y (R192): the value, what is left below it, and the flags. -/
def FVal.div : FVal → FVal → FVal × Bool × Flags
  | .nan a, .nan b => (.nan false, false, Flags.when (a || b) fNV)
  | .nan a, _ | _, .nan a => (.nan false, false, Flags.when a fNV)
  | .inf _, .inf _ => (.nan false, false, fNV)
  | .inf a, .fin n _ _ => (.inf (a != n), false, 0)
  | .fin n _ _, .inf a => (.fin (n != a) 0 0, false, 0)
  | .fin n1 m1 e1, .fin n2 m2 e2 =>
    if m2 = 0 then
      if m1 = 0 then (.nan false, false, fNV) else (.inf (n1 != n2), false, fDZ)
    else if m1 = 0 then (.fin (n1 != n2) 0 0, false, 0)
    else
      let (q, e, st) := divMag m1 e1 m2 e2
      (.fin (n1 != n2) q e, st, 0)

/-- The integer square root by bits, from bit b downward. -/
def isqrtGo (n : Nat) : Nat → Nat → Nat
  | 0, r => if (r + 1) * (r + 1) ≤ n then r + 1 else r
  | b + 1, r =>
    let r' := r + 2 ^ (b + 1)
    isqrtGo n b (if r' * r' ≤ n then r' else r)

/-- ⌊√n⌋. -/
def isqrt (n : Nat) : Nat := isqrtGo n (Nat.log2 n / 2 + 1) 0

/-- √x (R192): the value, what is left below it, and the flags. -/
def FVal.sqrt : FVal → FVal × Bool × Flags
  | .nan a => (.nan false, false, Flags.when a fNV)
  | .inf false => (.inf false, false, 0)
  | .inf true => (.nan false, false, fNV)
  | .fin neg m e =>
    if m = 0 then (.fin neg 0 0, false, 0)
    else if neg then (.nan false, false, fNV)
    else
      let odd := e % 2 != 0
      let m' := (if odd then 2 * m else m) * 2 ^ 160
      let e' := (if odd then e - 1 else e) - 160
      let s := isqrt m'
      (.fin false s (e' / 2), s * s != m', 0)

/-- The order of two values that are no NaN: −1, 0 or 1, with −0 = +0. -/
def FVal.cmp : FVal → FVal → Int
  | .inf a, .inf b => if a == b then 0 else if a then -1 else 1
  | .inf a, _ => if a then -1 else 1
  | _, .inf b => if b then 1 else -1
  | .fin n1 m1 e1, .fin n2 m2 e2 =>
    let e0 := min e1 e2
    let a := scaled n1 m1 e1 e0
    let b := scaled n2 m2 e2 e0
    if a < b then -1 else if a = b then 0 else 1
  | _, _ => 0

/-- The sign of a value. -/
def FVal.isNeg : FVal → Bool
  | .nan _ => false
  | .inf n => n
  | .fin n _ _ => n

/-- The lesser of two values that are no NaN, −0 below +0 (R193). -/
def FVal.lesser (x y : FVal) : FVal :=
  if x.cmp y < 0 then x else if 0 < x.cmp y then y else if x.isNeg then x else y

/-- The greater of two values that are no NaN, −0 below +0 (R193). -/
def FVal.greater (x y : FVal) : FVal :=
  if x.cmp y < 0 then y else if 0 < x.cmp y then x else if x.isNeg then y else x

/-- Rounding of a finite value to an integer (R28), with whether it changed. -/
def roundInt (mode : Rnd) (r : W32) (neg : Bool) (m : Nat) (e : Int) : Int × Bool :=
  let (a, inexact) := roundAt mode neg m e false r 0
  (if neg then -(a : Int) else a, inexact)

/-- The least value of an integer type. -/
def Ty.minInt (t : Ty) : Int := if t.isSigned then -(2 ^ (t.width - 1) : Nat) else 0
/-- The greatest value of an integer type. -/
def Ty.maxInt (t : Ty) : Int := if t.isSigned then (2 ^ (t.width - 1) : Nat) - 1 else (2 ^ t.width : Nat) - 1

/-- Float to integer (R28): the value and the flags. -/
def Ty.deliverInt (t : Ty) (mode : Rnd) (r : W32) : FVal → Int × Flags
  | .nan _ => (0, fNV)
  | .inf neg => (if neg then t.minInt else t.maxInt, fNV)
  | .fin neg m e =>
    let (z, inexact) := roundInt mode r neg m e
    if z < t.minInt then (t.minInt, fNV)
    else if t.maxInt < z then (t.maxInt, fNV)
    else (z, Flags.when inexact fNX)

/-- An integer as an exact value. -/
def FVal.ofInt (z : Int) : FVal := .fin (decide (z < 0)) z.natAbs 0

-- ## Blocks

/-- The value of an element code in a block (R30). -/
def blockVal (t : Ty) (S P : Byte) (code : Nat) : FVal :=
  if S == 0xFF then .nan false
  else
    let el := if t == .b8 then Ty.e4m3.decode code else if code = 8 then Ty.e4m3.decode P.toNat else Ty.e2m1.decode code
    match el with
    | .fin n m e => .fin n m (e + (S.toNat : Int) - 127)
    | v => v

/-- The element format of a block format (R30). -/
def Ty.blockElem (t : Ty) : Ty := if t == .b8 then .e4m3 else .e2m1

/-- The least S from `s` upward, within `fuel`, with m * 2^(e + 127 − S) at most Emax (R32). -/
def scaleGo (emax : Nat) (m : Nat) (e : Int) : Nat → Int → Int
  | 0, s => s
  | fuel + 1, s =>
    let fits := if 0 ≤ e + 127 - s then decide (m * 2 ^ (e + 127 - s).toNat ≤ emax)
                else decide (m ≤ emax * 2 ^ (s - 127 - e).toNat)
    if fits then s else scaleGo emax m e fuel (s + 1)

/-- S for a largest magnitude m * 2^e with m ≠ 0, before the clamp (R32): the search starts below the answer. -/
def blockScale (t : Ty) (m : Nat) (e : Int) : Int :=
  scaleGo (if t == .b8 then 448 else 6) m e 16 ((Nat.log2 m : Int) + e + 127 - (if t == .b8 then 9 else 3))

/-- The greater magnitude of two exact finite magnitudes. -/
def magLt (m1 : Nat) (e1 : Int) (m2 : Nat) (e2 : Int) : Bool :=
  decide (scaled false m1 e1 (min e1 e2) < scaled false m2 e2 (min e1 e2))

/-- A quantised block: S, P and the 32 element codes. -/
structure Block where
  S : Byte
  P : Byte
  codes : List Nat
  deriving DecidableEq, Repr

/-- |y − q| exactly, for finite values. -/
def absErr (y q : FVal) : Nat × Int :=
  match (y.add false q.neg).1 with
  | .fin _ m e => (m, e)
  | _ => (0, 0)

/-- The quantisation of 32 exact values (R32) with the flags; `rs` lists the random value of each element. -/
def quantise (t : Ty) (mode : Rnd) (rs : List W32) (xs : List FVal) : Block × Flags :=
  let bad := xs.any (fun x => match x with | .fin _ _ _ => false | _ => true)
  if bad then ({ S := 0xFF, P := 0, codes := List.replicate 32 0 }, fNV)
  else
    let mags := xs.map (fun x => match x with | .fin _ m e => (m, e) | _ => (0, 0))
    let amax := mags.foldl (fun (a : Nat × Int) b => if magLt a.1 a.2 b.1 b.2 then b else a) (0, 0)
    if amax.1 = 0 then ({ S := 0x7F, P := 0, codes := List.replicate 32 0 }, 0)
    else
      let s := min (max (blockScale t amax.1 amax.2) 0) 254
      let ys := xs.map (fun x => match x with | .fin n m e => FVal.fin n m (e + 127 - s) | v => v)
      let el := t.blockElem
      let qc := (ys.zip rs).map (fun (y, r) => match y with
        | .fin n m e => (el.round mode false false r n m e false).1
        | _ => 0)
      let codes := qc.map (fun c => if (el.decode c).isZero then 0 else c)
      let qs := codes.map el.decode
      let errs := (ys.zip qs).map (fun (y, q) => absErr y q)
      let worst := errs.foldl (fun (a : Nat × Int) b => if magLt a.1 a.2 b.1 b.2 then b else a) (0, 0)
      let (P, out) :=
        if t == .b8 || worst.1 = 0 then ((0 : Byte), codes)
        else
          let ystar := match ((ys.zip errs).find? (fun (_, er) => !magLt er.1 er.2 worst.1 worst.2)) with
            | some (y, _) => y
            | none => FVal.zero
          let p : Byte := BitVec.ofNat 8 (Ty.e4m3.deliver .rn false false 0 ystar).1
          let pv := Ty.e4m3.decode p.toNat
          (p, (ys.zip (errs.zip codes)).map (fun (y, er, c) =>
            let ep := absErr y pv
            if magLt ep.1 ep.2 er.1 er.2 then 8 else c))
      let S : Byte := BitVec.ofInt 8 s
      let dec := out.map (blockVal t S P)
      let nx := (xs.zip dec).any (fun (x, v) => x.cmp v != 0)
      let uf := (xs.zip dec).any (fun (x, v) => !x.isZero && v.isZero)
      ({ S := S, P := P, codes := out }, Flags.when nx fNX ||| Flags.when uf fUF)

-- ## Sums

/-- The exact sum of a K-slice rounded once to FP32 (R34). An exact zero total is +0 (log 13). -/
def kSum (ps : List FVal) : FVal :=
  let nan := ps.any FVal.isNan
  let pinf := ps.any (fun p => p == .inf false)
  let ninf := ps.any (fun p => p == .inf true)
  if nan || (pinf && ninf) then .nan false
  else if pinf then .inf false
  else if ninf then .inf true
  else
    match ps.foldl (fun a p => (a.add false p).1) FVal.zero with
    | .fin n m e => .fin (n && m != 0) m e
    | v => v

/-- Round(a + b, f32, rn) with R17 and R19, subnormals kept (R35, R216, R250). -/
def add32 (a b : W32) : W32 := rn32 ((fv32 a).add false (fv32 b)).1

/-- Round(a × b, f32, rn) (R308). -/
def mul32 (a b : W32) : W32 := rn32 ((fv32 a).mul (fv32 b)).1

/-- The exact 64-bit fixed form of a value relative to S* (R37), before it is taken modulo 2^64. -/
def fixedOf (sstar : Byte) : FVal → Int
  | .fin n m e => (roundInt .rn 0 n m (e + 127 - sstar.toNat + 46)).1
  | _ => 0

/-- The exact value of a fixed-form sum (R38). -/
def fixedVal (sstar : Byte) (z : Int) : FVal :=
  .fin (decide (z < 0)) z.natAbs ((sstar.toNat : Int) - 127 - 46)

end Sys2Proof
end

