-- ==== Sys2Proof/Machine/Coherence.lean ====
section
/-!
DEFINITION. The state beside a line's bytes: leases and L2 copies (spec/03 R62 to R71), the home directory (R72 to R80),
poison (R81), the error log (R83, spec/17 R452) and the raising of interrupts (spec/14 R387, spec/16 R426). Bytes have one
copy, in `State.mem`: the protocol decides who may use them, what must wait and what is lost (log 9).
-/
namespace Sys2Proof.Machine
open Sys2Proof

-- ## Interrupts and the error log

/-- R426: source i signalled to the host. -/
def State.signalHost (s : State) (i : BitVec 4) : State :=
  if s.hipend.getLsbD i.toNat then s
  else { s with hipend := s.hipend ||| (1#16 <<< i.toNat), naesh := if s.naeshDown then s.naesh else s.naesh ++ [i] }

/-- R387: source i raised at every core that receives it, else at the host. -/
def State.raiseIrq (s : State) (i : BitVec 4) : State :=
  let takes (w : W64) : Bool := w.getLsbD 4 && w.getLsbD (32 + i.toNat)
  if s.irecv.toList.any takes then
    { s with irecv := gen 256 (fun c =>
        let w := s.irecv.toArray.getD c 0
        if takes w then w ||| (1#64 <<< (48 + i.toNat)) else w) }
  else s.signalHost i

/-- An event entered in the memory error logs (R83, R452), a poisoning with its cause (R76); full logs drop it and remember the
first drop. Where R452 names no agent or no address for a KIND, the field is 0 (log 49). -/
def State.logErr (s : State) (kind : BitVec 7) (agent : BitVec 4) (pa : Nat) (cause : Option PzCause := none) : State :=
  if s.elog.length < 4096 then
    State.raiseIrq { s with elog := s.elog ++ [{ kind := kind, agent := agent, pa := BitVec.ofNat 48 pa,
                                                 time := BitVec.ofNat 64 s.ptime, cause := cause }] } 2
  else { s with elogLost := s.elogLost <|> some (BitVec.ofNat 64 s.ptime) }

/-- The physical address that the log gives for a line: that of the direct window for HBM4E, the inverse of R53. -/
def State.linePa (s : State) (line : Nat) : Nat :=
  if lineHbm line then
    let loc := line * 128
    let d := loc / 2 ^ 36
    0x100000000000 + d * 2 ^ 36 + dlaOf (s.pchCount d) (loc / 2 ^ 30 % 64) (loc % 2 ^ 30)
  else line * 128

-- ## Tables

/-- The directory entry of a line (R73); none is UNC or a dropped entry. -/
def State.dirGet (s : State) (line : Nat) : Option DState := (s.dir.find? (fun e => e.1 == line)).map (·.2)

/-- The line's entry removed. -/
def State.dirDel (s : State) (line : Nat) : State := { s with dir := s.dir.filter (fun e => e.1 != line) }

/-- The line's entry set. -/
def State.dirSet (s : State) (line : Nat) (d : DState) : State :=
  { s with dir := (line, d) :: s.dir.filter (fun e => e.1 != line) }

/-- The metadata of a line whose DROP is 1 (R74). -/
def State.metaGet (s : State) (line : Nat) : Option Meta := s.metas.find? (fun m => m.line == line)

/-- DROP = 0. -/
def State.metaClear (s : State) (line : Nat) : State := { s with metas := s.metas.filter (fun m => m.line != line) }

/-- PZ of a line, a dead die's lines included (R74, R459). -/
def State.poisoned (s : State) (line : Nat) : Bool :=
  s.pz.contains line || (match homeOf line with | some d => s.deadDies.contains d | none => false)

/-- The agent's copy of a line. -/
def State.l2Get (s : State) (a : AgentId) (line : Nat) : Option L2Line :=
  s.l2.find? (fun e => e.agent == a && e.line == line)

/-- The compute die, as an agent, of a core (R2, R72). -/
def dieOf (c : CoreId) : Fin 8 := ⟨c.val / 32, by omega⟩
/-- The agent number of a compute die. -/
def agentOf (d : Fin 8) : AgentId := ⟨d.val, by omega⟩
/-- The cluster of a core. -/
def clusterOf (c : CoreId) : Fin 64 := ⟨c.val / 4, by omega⟩

/-- The agent's copy set, its lease record and priority kept. -/
def State.l2Set (s : State) (a : AgentId) (line : Nat) (st : L2State) : State :=
  let e := (s.l2Get a line).getD { agent := a, line := line, st := st, lease := 0, low := false }
  { s with l2 := { e with st := st } :: s.l2.filter (fun e => !(e.agent == a && e.line == line)) }

/-- The agent's copy dropped, with the L1 and instruction-cache copies of its die (R62). -/
def State.l2Drop (s : State) (a : AgentId) (line : Nat) : State :=
  { s with l2 := s.l2.filter (fun e => !(e.agent == a && e.line == line))
           l1 := s.l1.filter (fun e => !(agentOf (dieOf e.core) == a && e.line == line)) }

/-- The registered views with their handles. -/
def State.viewList (s : State) : List (Fin 64 × View) :=
  (List.finRange 64).filterMap (fun h => (s.views[h]).map (fun v => (h, v)))

/-- The line belongs to a view's master (R284). -/
def State.isMaster (s : State) (line : Nat) : Bool := s.viewList.any (fun (_, v) => v.mlines.contains line)

/-- The latest unexpired lease on a line over every slice, or 0 (R65, R69). -/
def State.leaseOn (s : State) (line : Nat) : Nat :=
  ((s.l2.filter (fun e => e.line == line && decide (s.ptime < e.lease))).map (·.lease)).foldl max 0

/-- An operation waits for a line's leases: no new lease is granted until it has had its turn, 128 ns after the latest of them (log 43). -/
def State.closeLine (s : State) (line : Nat) : State :=
  if s.leaseOn line = 0 then s
  else { s with closing := (line, s.leaseOn line + 128) :: s.closing.filter (fun x => x.1 != line) }

-- ## Rooms (R59, R61, R62, R69, R74; log 18)

/-- Two names fall in one set of structure k with n sets. -/
def sameSet (k n a b : Nat) : Bool := a == b || Config.setHash k a % n == Config.setHash k b % n

/-- The names of a structure with n sets of w ways that share the set of a name; none while the structure holds fewer than w. -/
def setOf (w k n name : Nat) (xs : List Nat) : List Nat := if xs.length < w then [] else xs.filter (sameSet k n name)

/-- Which entry gives way to a name. -/
def State.victimOf (s : State) (name : Nat) (xs : List α) : Option α := xs[Config.victim s.cyc name % xs.length]?

/-- Room for a line in a core's L1 or instruction cache (R62): 256 sets of 8, 128 sets of 4. -/
def State.l1Room (s : State) (c : CoreId) (code : Bool) (line : Nat) : State :=
  let mine := (s.l1.filter (fun e => e.core == c && e.code == code && e.line != line)).map (·.line)
  let w := if code then 4 else 8
  let set := if code then setOf w 1 128 line mine else setOf w 0 256 line mine
  if set.length < w then s
  else match s.victimOf line set with
    | some v => { s with l1 := s.l1.filter (fun e => !(e.core == c && e.code == code && e.line == v)) }
    | none => s

/-- Bank and row of an HBM4E line: by R54 under a bank-local region, else by the hash of R54. -/
def bankRow (hash : Bool) (line : Nat) : Nat × Nat :=
  let cof := line * 128 % 2 ^ 30
  let c := if hash then Config.bankHash cof else cof
  (c / 1024 % 32, c / 32768)

/-- The index of a set bit among the set bits of a mask. -/
def bitRank (m i : Nat) : Nat := ((List.range i).filter (fun k => m.testBit k)).length

/-- A bank-local region lays a line out (R52, R54): its share of the line's pseudo-channel holds the line's granule. -/
def regionHolds (e : Vector W64 4) (line : Nat) : Bool :=
  let loc := line * 128
  let d := loc / 2 ^ 36
  let pch := loc / 2 ^ 30 % 64
  let cof := loc % 2 ^ 30
  let G := 2 ^ regGLOG e
  let n := bitRank (regDIEMASK e) 12
  let g := ((cof - regDOFF e) / G * regPCNT e + (pch - regPCH e)) * n + bitRank (regDIEMASK e) d
  regV e && regMODE e == 1 && (regDIEMASK e).testBit d && decide (regPCH e ≤ pch) && decide (pch < regPCH e + regPCNT e)
    && decide (regDOFF e ≤ cof) && decide (g * G < regLIMIT e - regBASE e)

/-- A line of a pseudo-channel that a valid bank-local region lays out (R52, R54). -/
def State.bankLocalLine (s : State) (line : Nat) : Bool := s.regions.toList.any (fun e => regionHolds e line)

/-- A request for a line at its pseudo-channel's queue (R60). -/
def State.dramReq (s : State) (line : Nat) : State :=
  match homeOf line with
  | some d =>
    let b := bankRow (!s.bankLocalLine line) line
    let p : PchId := ⟨line * 128 / 2 ^ 30 % 64, by omega⟩
    { s with pchq := s.pchq ++ [{ die := d, pch := p, bank := b.1, row := b.2, at_ := s.cyc }] }
  | none => s

/-- Room for a line in its LLC slice (R59, R61): 786,432 sets of 16; a dirty victim is written back to DRAM. -/
def State.llcRoom (s : State) (line : Nat) : State :=
  let mine := (s.llc.filter (fun e => homeOf e.line == homeOf line)).map (·.line)
  let set := setOf 16 3 786432 line mine
  if set.length < 16 then s
  else match s.victimOf line set with
    | some v =>
      let t : State := { s with llc := s.llc.filter (fun e => e.line != v) }
      if s.llc.any (fun e => e.line == v && e.dirty) then t.dramReq v else t
    | none => s

/-- A line that a read or write of its home allocates in the LLC slice (R61), marked dirty if it is written there; one that was not
there is requested at its pseudo-channel (R60). The slices hold HBM4E only. -/
def State.llcTouch (s : State) (line : Nat) (dirty : Bool) : State :=
  if !lineHbm line then s
  else match s.llc.find? (fun e => e.line == line) with
    | some e =>
      if dirty && !e.dirty then { s with llc := s.llc.map (fun e => if e.line == line then { e with dirty := true } else e) } else s
    | none =>
      let t := (s.dramReq line).llcRoom line
      { t with llc := { line := line, dirty := dirty } :: t.llc }

/-- A line read at its home (R61). -/
def State.allocLlc (s : State) (line : Nat) : State := s.llcTouch line false

/-- A line written at its home; a bank line is written through to DRAM (R61). -/
def State.homeWritten (s : State) (line : Nat) (bank : Bool) : State :=
  if bank then (s.llcTouch line false).dramReq line else s.llcTouch line true

/-- Line copies in L1s and instruction caches removed. -/
def State.l1Drop (s : State) (line : Nat) : State := { s with l1 := s.l1.filter (fun e => e.line != line) }

-- ## Poison and discovery

/-- Poison(line) of R76: PZ set, DROP cleared, every copy and entry removed, the event logged with its cause. -/
def State.poison (s : State) (line : Nat) (cause : PzCause := .uncorrected) : State :=
  let s := ((s.metaClear line).dirDel line).l1Drop line
  State.logErr { s with pz := if s.pz.contains line then s.pz else line :: s.pz
                        lost := s.lost.filter (· != line)
                        l2 := s.l2.filter (fun e => e.line != line)
                        partials := s.partials.filter (fun p => p.line != line) } 2 0 (s.linePa line) (some cause)

/-- The answer of a home. -/
inductive Ans where
  | ok
  /-- The line is poisoned (R81). -/
  | poison
  /-- An agent with a sleeping link must be reached first (R79). -/
  | wait (a : AgentId)
  /-- A slice's leases keep it from giving the line up (R69). -/
  | busy
  /-- The request is dropped (R72, R75): old incarnation or a dead agent. -/
  | dropped
  deriving DecidableEq, Repr

/-- Agents that are not dead. -/
def State.liveAgents (s : State) : List AgentId := (List.finRange 10).filter (fun a => !s.deadAgents.contains a)

/-- The mask bit of an agent. -/
def agentBit (a : AgentId) : BitVec 10 := 1#10 <<< a.val

/-- The agents of a mask, ascending. -/
def maskAgents (m : BitVec 10) : List AgentId := (List.finRange 10).filter (fun a => m.getLsbD a.val)

/-- The first agent of a list with a sleeping link. -/
def State.sleeper (s : State) (as : List AgentId) : Option AgentId := as.find? (fun a => s.asleep.contains a)

/-- The die of a memory line is alive (R459). -/
def State.homeAlive (s : State) (line : Nat) : Bool := match homeOf line with | some d => !s.deadDies.contains d | none => true

/-- The first entry of a set that the directory may drop (R74): EX, or SH with one sharer. -/
def droppable (es : List (Nat × DState)) : List (Nat × Bool × AgentId) :=
  es.filterMap (fun (l, e) =>
    match e with
    | .ex o => some (l, true, o)
    | .sh m => match maskAgents m with | [a] => some (l, false, a) | _ => none
    | .cm _ => none)

/-- A full set of a directory frees an entry (R59, R74): 65,536 sets of 16 per die. A set without an entry that may be dropped is
overfilled (log 18). -/
def State.dirRoom (s : State) (line : Nat) : State :=
  match homeOf line with
  | none => s
  | some d =>
    let mine := s.dir.filter (fun e => homeOf e.1 == some d && e.1 != line)
    let set := setOf 16 4 65536 line (mine.map (·.1))
    if set.length < 16 then s
    else match s.victimOf line (droppable (mine.filter (fun e => set.contains e.1))) with
      | none => s
      | some (l, x, a) =>
        { s.dirDel l with metas := { line := l, xcl := x, agent := a, inc := (s.inc[a]).setWidth 4 } :: s.metas }

/-- The line's entry set, with room made for it in the directory (R59, R74). -/
def State.dirPut (s : State) (line : Nat) (d : DState) : State := (s.dirRoom line).dirSet line d

/-- The line is discovered no more: DROP = 0, and no entry of it is lost. -/
def State.found (s : State) (line : Nat) : State := { s.metaClear line with lost := s.lost.filter (· != line) }

/-- Discover(line) of R76, its probes answered from the agents' copies: the entry it returns, none for UNC, or poison. -/
def State.discover (s : State) (line : Nat) : State × Option DState × Ans :=
  match s.sleeper s.liveAgents with
  | some a => (s, none, .wait a)
  | none =>
    let holds := s.l2.filter (fun e => e.line == line && !s.deadAgents.contains e.agent)
    let X := holds.filter (fun e => e.st != .shared)
    let S := holds.filter (fun e => e.st == .shared)
    if 1 < X.length || (X.length == 1 && 0 < S.length) then (s.poison line .conflict, none, .poison)
    else match X with
      | x :: _ =>
        let t := (s.found line).dirPut line (.ex x.agent)
        (if x.st == .exDirty then t.llcTouch line true else t, some (.ex x.agent), .ok)
      | [] =>
        if 0 < S.length then
          let m := S.foldl (fun m e => m ||| agentBit e.agent) 0#10
          ((s.found line).dirPut line (.sh m), some (.sh m), .ok)
        else
          match s.metaGet line with
          | some m =>
            if m.xcl then
              (s.poison line (if m.inc == (s.inc[m.agent]).setWidth 4 then .lostCopy else .holderReset), none, .poison)
            else (s.found line, none, .ok)
          | none => (s.found line, none, .ok)

/-- The entry a request meets: the directory's, or by discovery when the line's entry was dropped or lost (R75, R80). -/
def State.lookup (s : State) (line : Nat) : State × Option DState × Ans :=
  match s.dirGet line with
  | some d => (s, some d, .ok)
  | none => if (s.metaGet line).isSome || s.lost.contains line then s.discover line else (s, none, .ok)

/-- A line of host memory (R43): its home is the host, behind the Naesh Link (R422). -/
def lineHost (line : Nat) : Bool := decide (hostBase / 128 ≤ line) && decide (line < regBase / 128)

/-- The home of a line lies behind a sleeping Naesh Link (R428). -/
def State.homeAsleep (s : State) (line : Nat) : Bool := lineHost line && s.asleep.contains 8

/-- Another agent's request for the line has arrived before agent a's and is served first (R75). -/
def State.behind (s : State) (line : Nat) (a : AgentId) : Bool := match s.lineq.find? (fun x => x.1 == line) with | some q => q.2.1 != a | none => false

/-- How long a waiting request keeps its turn without being made again (log 95). -/
def turnKept : Nat := 512

/-- The request of agent a waits in its turn. -/
def State.queueUp (s : State) (line : Nat) (a : AgentId) : State :=
  let q := (line, a, s.ptime + turnKept)
  { s with lineq := if s.lineq.any (fun x => x.1 == line && x.2.1 == a) then s.lineq.map (fun x => if x.1 == line && x.2.1 == a then q else x)
                    else s.lineq ++ [q] }

/-- A request for a line served by its home in the order of arrival, one at a time (R75). -/
def State.inTurn (s : State) (line : Nat) (a : AgentId) (serve : State → State × Ans) : State × Ans :=
  if s.behind line a then (s.queueUp line a, .busy)
  else
    let r := serve s
    match r.2 with
    | .wait _ | .busy => (r.1.queueUp line a, r.2)
    | _ => ({ r.1 with lineq := r.1.lineq.filter (fun x => !(x.1 == line && x.2.1 == a)) }, r.2)

/-- A read of agent a whose turn has come (R75). A sole reader gets write permission, but never on a master line (R284). -/
def State.serveRead (s : State) (line : Nat) (a : AgentId) : State × Ans :=
  if s.poisoned line then (s, .poison)
  else if s.homeAsleep line then (s, .wait 8)
  else
    let (s, e, r) := (s.allocLlc line).lookup line
    if r != .ok then (s, r)
    else match e with
      | some (.ex o) =>
        if o = a then ((s.l2Set a line .exClean), .ok)
        else if s.asleep.contains o then (s, .wait o)
        else
          let s := match s.l2Get o line with
            | some x => (if x.st == L2State.exDirty then s.llcTouch line true else s).l2Set o line .shared
            | none => s
          ((s.dirSet line (.sh (agentBit o ||| agentBit a))).l2Set a line .shared, .ok)
      | some (.sh m) => ((s.dirSet line (.sh (m ||| agentBit a))).l2Set a line .shared, .ok)
      | some (.cm _) => (s, .ok)
      | none =>
        if s.isMaster line then ((s.dirPut line (.sh (agentBit a))).l2Set a line .shared, .ok)
        else ((s.dirPut line (.ex a)).l2Set a line .exClean, .ok)

/-- The home serves a read of agent a (R75). -/
def State.homeRead (s : State) (line : Nat) (a : AgentId) : State × Ans :=
  if s.deadAgents.contains a then (s, .dropped) else s.inTurn line a (fun s => s.serveRead line a)

/-- The other agents that hold a line by its entry. -/
def otherHolders (a : AgentId) : Option DState → List AgentId
  | some (.ex o) => if o = a then [] else [o]
  | some (.sh m) => (maskAgents m).filter (· != a)
  | some (.cm m) => maskAgents m
  | none => []

/-- A slice's leases let it give a line up: the latest it has granted has expired, and no core of its die holds the line under an
unbounded one (R65, R69). -/
def State.leaseOver (s : State) (e : L2Line) : Bool :=
  decide (e.lease ≤ s.ptime) && !s.l1.any (fun x => agentOf (dieOf x.core) == e.agent && x.line == e.line && x.exp.isNone)

/-- Some of the agents cannot give the line up yet (R69). -/
def State.leaseHeld (s : State) (line : Nat) (as : List AgentId) : Bool :=
  s.l2.any (fun e => e.line == line && as.contains e.agent && !s.leaseOver e)

/-- A poisoned line that a write of all 128 bytes clears (R75, R81), which a dead die's never is (R459). -/
def State.clearable (s : State) (line : Nat) : Bool := s.pz.contains line && s.homeAlive line

/-- PZ cleared by a write of all 128 bytes of agent a, which then holds the line in EX (R75); a bank line is written through to its DRAM, and
a master line at its home, and no L2 holds either so (R61, R284). -/
def State.clearPz (s : State) (line : Nat) (a : AgentId) (bank : Bool) : State :=
  let t := State.metaClear { s with pz := s.pz.filter (· != line) } line
  if bank || s.isMaster line then t.homeWritten line bank
  else ((t.llcTouch line true).dirPut line (.ex a)).l2Set a line .exDirty

/-- The agents that hold a line outside a range by its entry. -/
def holders : Option DState → List AgentId
  | some (.ex o) => [o]
  | some (.sh m) => maskAgents m
  | _ => []

/-- The home takes a line back from every holder, as for an own request of its own (R217, R274, R284, R294). -/
def State.homeTake (s : State) (line : Nat) : State × Ans :=
  if s.poisoned line then (s, .poison)
  else if s.homeAsleep line then (s, .wait 8)
  else
    let (s, e, r) := s.lookup line
    if r != .ok then (s, r)
    else
      let others := holders e
      match s.sleeper others with
      | some o => (s, .wait o)
      | none =>
        if s.leaseHeld line others then (s.closeLine line, .busy)
        else
          let dirty := s.l2.any (fun e => e.line == line && others.contains e.agent && e.st == L2State.exDirty)
          let t := (others.foldl (fun s o => s.l2Drop o line) s).dirDel line
          (if dirty then t.llcTouch line true else t, .ok)

/-- An own request of agent a whose turn has come (R75): every other holder is invalidated, once its leases let it (R69). On a master
line no EX is granted: the write is made at the home (R284). -/
def State.serveOwn (s : State) (line : Nat) (a : AgentId) : State × Ans :=
  if s.poisoned line then (s, .poison)
  else if s.isMaster line then
    let r := s.homeTake line
    match r.2 with
    | .ok => (r.1.homeWritten line false, .ok)
    | x => (r.1, x)
  else if s.homeAsleep line then (s, .wait 8)
  else
    let (s, e, r) := (s.allocLlc line).lookup line
    if r != .ok then (s, r)
    else
      let others := otherHolders a e
      match s.sleeper others with
      | some o => (s, .wait o)
      | none =>
        if s.leaseHeld line others then (s.closeLine line, .busy)
        else ((((others.foldl (fun s o => s.l2Drop o line) s).dirPut line (.ex a)).l2Set a line .exDirty), .ok)

/-- The home serves an own request of agent a (R75). `full` says that the request writes all 128 bytes, which clears poison. -/
def State.homeOwn (s : State) (line : Nat) (a : AgentId) (full : Bool) : State × Ans :=
  if s.deadAgents.contains a then (s, .dropped)
  else if s.clearable line && full then (s.clearPz line a false, .ok)
  else s.inTurn line a (fun s => s.serveOwn line a)

-- ## Rods (R266 to R272): the home partial of a line is the line's bytes; the L2 partials stand beside it

/-- Bytes of an element of a range's format (R267). -/
def rodBytes (fmt : Ty) : Nat := if fmt == .i64 then 8 else 4

/-- One add at a rod (R266, R35). -/
def rodAdd (fmt : Ty) (a b : W64) : W64 :=
  match fmt with
  | .f32 => (add32 (a.setWidth 32) (b.setWidth 32)).setWidth 64
  | .i32 => (a.setWidth 32 + b.setWidth 32 : W32).setWidth 64
  | _ => a + b

/-- The identity of a format (R267). -/
def rodZero (fmt : Ty) : W64 := if fmt == .f32 then 0x80000000 else 0

/-- A received contribution of the home partial (R268): element at location `loc`. -/
def State.rodHome (s : State) (fmt : Ty) (loc : Nat) (v : W64) : State :=
  if s.poisoned (lineOf loc) then s
  else
    let n := rodBytes fmt
    (s.pokeN loc (leBytes n (rodAdd fmt (le64 (s.peekN loc n)) v).toNat)).llcTouch (lineOf loc) true

/-- The agents of a line's CM mask. -/
def State.cmMask (s : State) (line : Nat) : BitVec 10 :=
  match s.dirGet line with
  | some (.cm m) => m
  | _ => 0

/-- A partial folded into the home partial element by element (R270, R271). -/
def State.foldPartial (s : State) (fmt : Ty) (p : Partial) : State :=
  let n := rodBytes fmt
  let s := ((List.range p.elems.length).zip p.elems).foldl (fun s (i, v) => s.rodHome fmt (p.line * 128 + i * n) v) s
  { s with partials := s.partials.filter (fun q => !(q.agent == p.agent && q.line == p.line)) }

/-- The range that holds a line, active or ending (R231, R273). -/
def State.rangeOf (s : State) (line : Nat) : Option Range :=
  (s.ranges.toList.filterMap id).find? (fun r => r.lines.contains line)

/-- The partial of an agent folded into the home's, and the agent removed from the mask if it holds none any more (R271). -/
def State.foldFrom (s : State) (a : Fin 8) (line : Nat) : State :=
  match s.rangeOf line, s.partials.find? (fun p => p.agent == a && p.line == line) with
  | some q, some p => (s.foldPartial q.fmt p).dirPut line (.cm (s.cmMask line &&& ~~~(agentBit (agentOf a))))
  | _, _ => s

-- ## Room in an L2 (R62, R69)

/-- A line that its slice gives up: written back if it was held in EX (R75), dropped silently if it was shared. -/
def State.evictL2 (s : State) (e : L2Line) : State :=
  let t := s.l2Drop e.agent e.line
  if e.st == .shared then t
  else
    let t := (t.dirDel e.line).metaClear e.line
    if e.st == .exDirty then t.llcTouch e.line true else t

/-- A host line held dirty stays in its L2 while the Naesh Link is down (R428). -/
def State.stuck (s : State) (e : L2Line) : Bool := s.naeshDown && lineHost e.line && e.st == .exDirty

/-- An L2 slice may give a line up: no lease it has granted is left, no store waits for it (R65, R69), and its home can be reached (R428). -/
def State.mayGiveUp (s : State) (e : L2Line) : Bool :=
  s.leaseOver e && !s.pend.any (fun p => agentOf p.die == e.agent && p.line == e.line) && !s.stuck e

/-- Room for a line in a die's L2 (R62), in which partials take lines too (R269): 16 slices of 2,048 sets of 16. A victim without an
unexpired lease is preferred, and among those one of lowest priority (R69, R101); with none of them the fill waits. A partial that gives way
is folded at its home (R271). -/
def State.l2Room (s : State) (a : AgentId) (line : Nat) : Option State :=
  let mine := s.l2.filter (fun e => e.agent == a && e.line != line)
  let parts := s.partials.filter (fun p => agentOf p.agent == a && p.line != line)
  let names := setOf 16 2 32768 line (mine.map (·.line) ++ parts.map (·.line))
  if names.length < 16 || decide (8 ≤ a.val) then some s
  else
    let set := mine.filter (fun e => names.contains e.line && s.mayGiveUp e)
    let low := set.filter (·.low)
    let out : List (L2Line ⊕ Partial) := if low.isEmpty then set.map .inl ++ (parts.filter (fun p => names.contains p.line)).map .inr else low.map .inl
    (s.victimOf line out).map (fun v => match v with | .inl e => s.evictL2 e | .inr p => s.foldFrom p.agent p.line)

/-- A home or slice must reach an agent with a sleeping link for an access of a core that no lane waits for: the link's wake is started
and the message held (R79). -/
def State.homeWake (s : State) (a : AgentId) (c : CoreId) (line : Nat) : State :=
  let m : HeldMsg := { agent := a, core := c, slot := 0, lanes := 0, va := BitVec.ofNat 64 (line * 128), since := s.ptime, late := false }
  if s.held.any (fun h => h.agent == a && h.core == c && h.lanes == 0 && h.va == m.va) then s else { s with held := s.held ++ [m] }

-- ## Leases (R65 to R68)

/-- The core's L1 or instruction cache hits: PTIME is earlier than E − 2 ns (R67). -/
def State.l1Hit (s : State) (c : CoreId) (code : Bool) (line : Nat) : Bool :=
  s.l1.any (fun e => e.core == c && e.code == code && e.line == line &&
    (match e.exp with | none => true | some x => decide (s.ptime + 2 < x)))

/-- A fill from the slice with a lease (R65); a sealed page's lease is unbounded. -/
def State.l1Fill (s : State) (c : CoreId) (code isSealed : Bool) (line : Nat) : State :=
  let e := s.ptime + (s.cores[c].lease.toNat % 512) * 32
  let a := agentOf (dieOf c)
  let s := s.l1Room c code line
  let s := { s with l1 := { core := c, code := code, line := line, exp := if isSealed then none else some e } ::
                          s.l1.filter (fun x => !(x.core == c && x.code == code && x.line == line)) }
  if isSealed then s
  else { s with l2 := s.l2.map (fun x => if x.agent == a && x.line == line then { x with lease := max x.lease e } else x) }

/-- A store of the line waits at the slice of the die (R68). -/
def State.pendOn (s : State) (d : Fin 8) (line : Nat) : Bool := s.pend.any (fun p => p.die == d && p.line == line)

/-- The outcome of a line access at its caches. -/
inductive LineAns where
  | ok
  | poison
  /-- The home must reach this agent's sleeping link (R79). -/
  | sleep (a : AgentId)
  /-- A fill behind waiting stores, or an atomic behind a lease: tried again later (R68, R217). -/
  | hold
  deriving DecidableEq, Repr

/-- How a line may be cached (R61, R63, R104). -/
structure LineKind where
  /-- Bank, range, view or tag lines: in the LLC only. -/
  llcOnly : Bool
  /-- SC pages: not in an L1, no lease. -/
  noL1 : Bool
  /-- Sealed page (R65). -/
  isSealed : Bool
  deriving DecidableEq, Repr

/-- A home's answer as the outcome of a line access. -/
def Ans.toLine : Ans → LineAns
  | .ok => .ok
  | .poison => .poison
  | .wait a => .sleep a
  | .busy | .dropped => .hold

/-- A line brought to a die's L2, if it does not hold it already (R62, R75). -/
def State.l2Fill (s : State) (a : AgentId) (line : Nat) : State × LineAns :=
  if (s.l2Get a line).isSome then (s, .ok)
  else
    match s.l2Room a line with
    | none => (s, .hold)
    | some t => let r := t.homeRead line a; (r.1, r.2.toLine)

/-- A read of a line by a core, or by its walker or engine with `l1` false (R61 to R67, R75, R123). -/
def State.readLine (s : State) (c : CoreId) (k : LineKind) (l1 code : Bool) (line : Nat) : State × LineAns :=
  if lineRemote line then (s, .ok)
  else if s.deadAgents.contains (agentOf (dieOf c)) then (s, .hold)
  else if l1 && !k.llcOnly && !k.noL1 && s.l1Hit c code line then (s, .ok)
  else if k.llcOnly then
    if s.poisoned line then (s, .poison) else (s.allocLlc line, .ok)
  else if s.pend.any (fun p => p.line == line) || s.closing.any (fun x => x.1 == line) then (s, .hold)
  else
    let r := s.l2Fill (agentOf (dieOf c)) line
    match r.2 with
    | .ok =>
      if r.1.poisoned line then (r.1, .poison)
      else if l1 && !k.noL1 then (r.1.l1Fill c code k.isSealed line, .ok)
      else (r.1, .ok)
    | x => (r.1, x)

/-- Write permission for a line at the core's slice (R68, R73, R75, R81). `full`: all 128 bytes are written, so that the write clears
poison when it is performed. A bank line is written at its LLC (R61), and a master line at its home, where no L2 holds it in EX (R284). A
dead die's requests are not served (R72). -/
def State.ownLine (s : State) (c : CoreId) (k : LineKind) (full : Bool) (line : Nat) : State × LineAns :=
  let a := agentOf (dieOf c)
  if lineRemote line then (s, .ok)
  else if s.deadAgents.contains a then (s, .hold)
  else if s.poisoned line then
    if !(full && s.clearable line) then (s, .poison)
    else if k.llcOnly || s.isMaster line then (s, .ok)
    else match s.l2Room a line with
      | none => (s, .hold)
      | some t => (t, .ok)
  else if k.llcOnly then (s.homeWritten line true, .ok)
  else
    let own (s : State) : State × LineAns := let r := s.homeOwn line a full; (r.1, r.2.toLine)
    if s.isMaster line then own s
    else match s.l2Get a line with
      | some e => if e.st = .shared then own s else (s.l2Set a line .exDirty, .ok)
      | none =>
        match s.l2Room a line with
        | none => (s, .hold)
        | some t => own t

/-- PZ cleared at every poisoned line that some cells of one write cover whole (R75, R81). -/
def State.unpoison (s : State) (a : AgentId) (bank : Bool) (cells : List Host.Cell) : State :=
  (((cells.map (fun c => lineOf c.1)).eraseDups).filter s.clearable).foldl (fun s l =>
    if (((cells.map (·.1)).filter (fun x => lineOf x == l)).eraseDups).length = 128 then s.clearPz l a bank else s) s

/-- The byte core c reads at a location: its own waiting stores are in its L1 copy (R68, R207). -/
def State.look (s : State) (c : CoreId) (loc : Nat) : Byte :=
  match (s.pend.filter (fun p => p.core == c && p.line == lineOf loc)).reverse.findSome?
      (fun p => (p.cells.reverse.find? (fun x => x.1 == loc)).map (·.2)) with
  | some b => b
  | none => s.peek loc

/-- R71: an acquire wider than core discards the unsealed lines of the core's L1. -/
def State.l1Acquire (s : State) (c : CoreId) : State :=
  { s with l1 := s.l1.filter (fun e => !(e.core == c && !e.code && e.exp.isSome)) }

end Sys2Proof.Machine
end

