-- ==== Sys2Proof/Machine/Rods.lean ====
section
/-!
DEFINITION. The slices' partial sums and the combining of a range's lines (spec/10 R266 to R274).
-/
namespace Sys2Proof.Machine
open Sys2Proof

/-- A die's registration in the line's CM mask, and a new partial at the identity (R267, R269). -/
def State.newPartial (s : State) (d : Fin 8) (line : Nat) (fmt : Ty) : State :=
  let s := s.dirPut line (.cm (s.cmMask line ||| agentBit (agentOf d)))
  { s with partials := { agent := d, line := line, elems := List.replicate (128 / rodBytes fmt) (rodZero fmt) } :: s.partials }

/-- A die holds a partial of a line, or allocates one, which takes a line of its slice's set (R269): none while no line of the set can give way. -/
def State.cmRegister (s : State) (d : Fin 8) (line : Nat) (fmt : Ty) : Option State :=
  if s.partials.any (fun p => p.agent == d && p.line == line) then some s
  else (s.l2Room (agentOf d) line).map (fun s => s.newPartial d line fmt)

/-- A received contribution of an L2 partial (R268, R269). One that has passed its checks and finds no room now overfills the set (log 18). -/
def State.rodL2 (s : State) (d : Fin 8) (fmt : Ty) (loc : Nat) (v : W64) : State :=
  if s.poisoned (lineOf loc) then s
  else
    let s := (s.cmRegister d (lineOf loc) fmt).getD (s.newPartial d (lineOf loc) fmt)
    let e := loc % 128 / rodBytes fmt
    { s with partials := s.partials.map (fun p =>
        if p.agent == d && p.line == lineOf loc then
          { p with elems := p.elems.set e (rodAdd fmt (p.elems.getD e 0) v) }
        else p) }

/-- Rod.Add by its scope (R268): `.die` at the issuing die's slice, wider scopes at the home. -/
def State.rodAddAt (s : State) (d : Fin 8) (sc : Scope) (fmt : Ty) (loc : Nat) (v : W64) : State :=
  if sc == .die then s.rodL2 d fmt loc v else s.rodHome fmt loc v

/-- The agents of the mask in ascending fold index (R36). -/
def State.foldOrder (s : State) (m : BitVec 10) : List (Fin 8) :=
  let as := (List.finRange 8).filter (fun a => m.getLsbD a.val)
  (List.range 16).flatMap (fun k => as.filter (fun a => s.um.fold[a].toNat == k))

/-- Combine(line) (R270): every partial folded in fold order, the mask emptied. A sleeping agent makes it wait. -/
def State.combine (s : State) (fmt : Ty) (line : Nat) : State × LineAns :=
  if s.poisoned line then (s, .poison)
  else
    let m := s.cmMask line
    match s.sleeper (maskAgents m) with
    | some a => (s, .sleep a)
    | none =>
      let s := (s.foldOrder m).foldl (fun s a =>
        match s.partials.find? (fun p => p.agent == a && p.line == line) with
        | some p => s.foldPartial fmt p
        | none => s) s
      ((s.allocLlc line).dirPut line (.cm 0), .ok)

/-- The line is still to be taken into its range, which is starting (R274). -/
def State.notYetCm (s : State) (r : Range) (line : Nat) : Bool := r.starting && (match s.dirGet line with | some (.cm _) => false | _ => true)

/-- A read of a line: a range's line is combined at its home first (R270), any other goes through the caches. -/
def State.readAny (s : State) (c : CoreId) (k : LineKind) (l1 code : Bool) (line : Nat) : State × LineAns :=
  match s.rangeOf line with
  | some r => if s.notYetCm r line then s.readLine c k l1 code line else s.combine r.fmt line
  | none => s.readLine c k l1 code line

end Sys2Proof.Machine
end

