-- ==== Sys2Proof/Machine/ViewCore.lean ====
section
/-!
DEFINITION. Derived views (spec/10 R281 to R292): geometry, master, plane and tag lines, the rise of OWED, triggers,
derivation, and the check of a view read.
-/
namespace Sys2Proof.Machine
open Sys2Proof

-- ## The record (R281)

/-- MFMT. -/
def View.mfmt (v : View) : Ty := Ty.ofCode (BitVec.ofNat 4 (fld v.words[0] 63 60))
/-- MBASE as an address. -/
def View.mbase (v : View) : W64 := va57 v.words[0]
/-- MROWS. -/
def View.mrows (v : View) : Nat := fld v.words[1] 63 32
/-- MCOLS. -/
def View.mcols (v : View) : Nat := fld v.words[1] 31 0
/-- MSTR. -/
def View.mstr (v : View) : Nat := fld v.words[2] 47 0
/-- VFMT. -/
def View.vfmt (v : View) : Ty := Ty.ofCode (BitVec.ofNat 4 (fld v.words[3] 63 60))
/-- RND. -/
def View.rnd (v : View) : Rnd := Rnd.ofCode (BitVec.ofNat 3 (fld v.words[3] 59 57))
/-- SAT. -/
def View.sat (v : View) : Bool := v.words[3].getLsbD 56
/-- SPOL: 0 WAIT, 1 STALE, 2 TRAP. -/
def View.spol (v : View) : Nat := fld v.words[3] 55 54
/-- FPOL: 0 TRAP, 1 ZERO, 2 KEEP. -/
def View.fpol (v : View) : Nat := fld v.words[3] 53 52
/-- LAYOUT: true is COL. -/
def View.col (v : View) : Bool := v.words[3].getLsbD 51
/-- NSH. -/
def View.nsh (v : View) : Nat := fld v.words[3] 50 47 + 1
/-- SROWS. -/
def View.srows (v : View) : Nat := fld v.words[3] 31 16 + 1
/-- DELAY in nanoseconds. -/
def View.delay (v : View) : Nat := fld v.words[3] 15 0 * 64
/-- EBASE. -/
def View.ebase (v : View) : W64 := va57 v.words[4]
/-- SBASE. -/
def View.sbase (v : View) : W64 := va57 v.words[5]
/-- ESTR. -/
def View.estr (v : View) : Nat := fld v.words[6] 47 0
/-- SSTR. -/
def View.sstr (v : View) : Nat := fld v.words[7] 47 0
/-- ESH. -/
def View.esh (v : View) : Nat := fld v.words[8] 47 0
/-- SSH. -/
def View.ssh (v : View) : Nat := fld v.words[9] 47 0
/-- TBASE. -/
def View.tbase (v : View) : W64 := va57 v.words[10]

-- ## Geometry (R282)

/-- Bytes of a master element. -/
def View.msize (v : View) : Nat := v.mfmt.width / 8
/-- View rows. -/
def View.vrows (v : View) : Nat := if v.col then v.mcols else v.mrows
/-- Elements of a view row. -/
def View.vc (v : View) : Nat := if v.col then v.mrows else v.mcols
/-- Blocks per row. -/
def View.bpr (v : View) : Nat := v.vc / 32
/-- Element bytes per block. -/
def View.eb (v : View) : Nat := 4 * v.vfmt.width
/-- Blocks of the view. -/
def View.nblk (v : View) : Nat := v.vrows * v.bpr
/-- Shard of a view row. -/
def View.shard (v : View) (vr : Nat) : Nat := vr / v.srows % v.nsh
/-- Local row of a view row. -/
def View.lrow (v : View) (vr : Nat) : Nat := vr / (v.srows * v.nsh) * v.srows + vr % v.srows
/-- View row of a local row of a shard. -/
def View.vrow (v : View) (sh lr : Nat) : Nat := lr / v.srows * (v.srows * v.nsh) + sh * v.srows + lr % v.srows

/-- The location of byte k of an area whose lines are listed and whose first byte lies `st` bytes into the first line. -/
def areaLoc (lines : List Nat) (st k : Nat) : Nat := lines.getD ((st + k) / 128) 0 * 128 + (st + k) % 128

/-- The offset of a location in such an area. -/
def areaOff (lines : List Nat) (st loc : Nat) : Option Nat :=
  match lines.idxOf? (lineOf loc) with
  | some i => if st ≤ i * 128 + loc % 128 then some (i * 128 + loc % 128 - st) else none
  | none => none

/-- The location of master element (r, c). -/
def View.mloc (v : View) (r c : Nat) : Nat := areaLoc v.mlines 0 (r * v.mstr + c * v.msize)
/-- The location of byte k of block b's elements. -/
def View.eloc (v : View) (b k : Nat) : Nat :=
  let vr := b / v.bpr
  let sh := v.shard vr
  areaLoc (v.elines.getD sh []) ((v.ebase.toNat + sh * v.esh) % 128) (v.lrow vr * v.estr + b % v.bpr * v.eb + k)
/-- The location of block b's scale entry. -/
def View.sloc (v : View) (b : Nat) : Nat :=
  let vr := b / v.bpr
  let sh := v.shard vr
  areaLoc (v.slines.getD sh []) ((v.sbase.toNat + sh * v.ssh) % 128) (v.lrow vr * v.sstr + 2 * (b % v.bpr))
/-- The location of block b's tag. -/
def View.tloc (v : View) (b : Nat) : Nat := areaLoc v.tlines (v.tbase.toNat % 128) (8 * b)

/-- The blocks of a master byte at offset `off` from MBASE: at most one. -/
def View.blockOfMaster (v : View) (off : Nat) : Option Nat :=
  let r := off / v.mstr
  let c := off % v.mstr / v.msize
  if r < v.mrows ∧ c < v.mcols then some (if v.col then c * v.bpr + r / 32 else r * v.bpr + c / 32) else none

/-- The block of a row offset and a local row of a shard. -/
def View.blockOfPlane (v : View) (sh off str unit : Nat) : Option Nat :=
  let lr := off / str
  let j := off % str / unit
  let vr := v.vrow sh lr
  if j < v.bpr ∧ vr < v.vrows then some (vr * v.bpr + j) else none

/-- The block whose element or scale bytes a location holds. -/
def View.blockAt (v : View) (loc : Nat) : Option Nat :=
  (List.range v.nsh).findSome? (fun sh =>
    match areaOff (v.elines.getD sh []) ((v.ebase.toNat + sh * v.esh) % 128) loc with
    | some o => v.blockOfPlane sh o v.estr v.eb
    | none =>
      match areaOff (v.slines.getD sh []) ((v.sbase.toNat + sh * v.ssh) % 128) loc with
      | some o => v.blockOfPlane sh o v.sstr 2
      | none => none)

/-- A line of an element or scale plane. -/
def View.hasPlane (v : View) (line : Nat) : Bool := v.elines.any (·.contains line) || v.slines.any (·.contains line)

/-- The line belongs to a view plane or a tag plane (R285). -/
def State.isPlane (s : State) (line : Nat) : Bool :=
  s.viewList.any (fun (_, v) => v.hasPlane line || v.tlines.contains line)

-- ## Tags (R286)

/-- OWED of a tag entry. -/
def tagOwed (t : W64) : Nat := fld t 30 0
/-- TAG of a tag entry. -/
def tagTag (t : W64) : Nat := fld t 61 31
/-- BUSY. -/
def tagBusy (t : W64) : Bool := t.getLsbD 62
/-- FLT. -/
def tagFlt (t : W64) : Bool := t.getLsbD 63
/-- A tag entry from its fields. -/
def mkTag (flt busy : Bool) (tag owed : Nat) : W64 :=
  BitVec.ofNat 64 (owed % 2 ^ 31 + tag % 2 ^ 31 * 2 ^ 31 + (if busy then 2 ^ 62 else 0) + (if flt then 2 ^ 63 else 0))
/-- x ≥ y: (x − y) mod 2^31 < 2^30 (R286). -/
def genGe (x y : Nat) : Bool := decide ((x + 2 ^ 31 - y) % 2 ^ 31 < 2 ^ 30)
/-- A block is stale when TAG < OWED. -/
def tagStale (t : W64) : Bool := !genGe (tagTag t) (tagOwed t)

/-- The tag entry of a block. -/
def State.tagGet (s : State) (v : View) (b : Nat) : W64 := s.peek64 (v.tloc b)
/-- The tag entry of a block set. -/
def State.tagSet (s : State) (v : View) (b : Nat) (t : W64) : State := s.pokeN (v.tloc b) (leBytes 8 t.toNat)

-- ## Triggers and derivation (R287)

/-- A trigger of block b: n is OWED now, and BUSY is set. A derivation that has not started takes the newer n. -/
def State.trigger (s : State) (h : Fin 64) (b : Nat) : State :=
  match s.views[h] with
  | none => s
  | some v =>
    if v.dropping then s else
    let t := s.tagGet v b
    let n := tagOwed t
    let same (d : Deriv) : Bool := d.view == h && d.blk == b && !d.started
    let s := s.tagSet v b (mkTag (tagFlt t) true (tagTag t) n)
    let s := { s with timers := s.timers.filter (fun t => !(t.1 == h && t.2.1 == b)) }
    if s.derivs.any same then
      { s with derivs := s.derivs.map (fun d => if same d then { d with n := n } else d) }
    else { s with derivs := s.derivs ++ [{ view := h, blk := b, n := n, started := false }] }

/-- The block goes from fresh to stale, or has gone stale anew behind a derivation that has been triggered and is not done: its delay begins, unless it has begun
already (R287). -/
def State.startDelay (s : State) (h : Fin 64) (v : View) (b : Nat) : State :=
  if v.delay = 0 then s.trigger h b
  else if s.timers.any (fun t => t.1 == h && t.2.1 == b) then s
  else { s with timers := (h, b, s.ptime + v.delay) :: s.timers }

/-- OWED of one block rises by 1 (R284), with the triggers of R286 and R287. -/
def State.oweBlock (s : State) (h : Fin 64) (v : View) (b : Nat) : State :=
  let t := s.tagGet v b
  let o := (tagOwed t + 1) % 2 ^ 31
  let s := s.tagSet v b (mkTag (tagFlt t) (tagBusy t) (tagTag t) o)
  if 2 ^ 29 ≤ (o + 2 ^ 31 - tagTag t) % 2 ^ 31 then s.trigger h b
  else if tagStale t then
    if s.derivs.any (fun d => d.view == h && d.blk == b) then s.startDelay h v b else s
  else s.startDelay h v b

/-- A write to bytes of a master line has been performed at its home (R284): OWED rises in every affected block of every
view of the master. -/
def State.masterWritten (s : State) (line : Nat) (bytes : BitVec 128) : State :=
  s.viewList.foldl (fun s (h, v) =>
    match v.mlines.idxOf? line with
    | none => s
    | some i =>
      let bs := ((List.range 128).filter (fun k => bytes.getLsbD k)).filterMap (fun k => v.blockOfMaster (i * 128 + k))
      bs.eraseDups.foldl (fun s b => s.oweBlock h v b) s) s

/-- The 32 master elements of a block: their locations, in element order. -/
def View.srcLocs (v : View) (b : Nat) : List Nat :=
  let vr := b / v.bpr
  let j := b % v.bpr
  (List.range 32).map (fun k => if v.col then v.mloc (32 * j + k) vr else v.mloc vr (32 * j + k))

/-- Element codes packed by R16 and R31: w-bit codes, the first in the low bits. -/
def packCodes (w : Nat) (cs : List Nat) : Nat := cs.foldr (fun c acc => c % 2 ^ w + 2 ^ w * acc) 0

/-- The view bytes of a block (R283): element bytes and scale bytes, or none for a fault of R291. -/
def deriveBlock (v : View) (xs : List FVal) : Option (List Byte × List Byte) :=
  let bad := xs.any (fun x => match x with | .fin _ _ _ => false | _ => true)
  if bad && (v.vfmt == .e4m3 || v.vfmt.isBlock) then none
  else if v.vfmt.isBlock then
    let q := (quantise v.vfmt v.rnd (List.replicate 32 0) xs).1
    some (leBytes v.eb (packCodes (v.vfmt.blockElem.width) q.codes), [q.S, q.P])
  else
    let cs := xs.map (fun x => (v.vfmt.deliver v.rnd v.sat false 0 x).1)
    some (leBytes v.eb (packCodes v.vfmt.width cs), [])

/-- The end of a derivation (R287, R291): the bytes are written unless the block faults, then TAG, FLT and BUSY, which stays set for a
derivation that has been triggered meanwhile. A line that it reads or writes is poisoned: the block faults; a poisoned tag line takes
no write (R459). -/
def State.derive (s : State) (h : Fin 64) (b n : Nat) : State :=
  match s.views[h] with
  | none => s
  | some v =>
    let locs := v.srcLocs b
    let t := s.tagGet v b
    let busy := s.derivs.any (fun d => d.view == h && d.blk == b)
    let xs := locs.map (fun l => v.mfmt.decode (leNat (s.peekN l v.msize)))
    let dest := (List.range v.eb).map (v.eloc b) ++ (if v.vfmt.isBlock then [v.sloc b] else [])
    let out := if (locs ++ dest).any (fun l => s.poisoned (lineOf l)) then none else deriveBlock v xs
    let tag (s : State) (flt : Bool) : State :=
      if s.poisoned (lineOf (v.tloc b)) then s else s.tagSet v b (mkTag flt busy n (tagOwed t))
    match out with
    | none => tag s true
    | some (es, sc) =>
      let s := s.poke ((List.range es.length).zipWith (fun k e => (v.eloc b k, e)) es)
      let s := if sc.isEmpty then s else s.pokeN (v.sloc b) sc
      tag s false

-- ## Reading (R289)

/-- What the check of R289 gives a read of a block. -/
inductive ViewAns where
  | bytes
  /-- Current bytes, bit l of kN cleared. -/
  | clear
  /-- Zero bytes, bit l of kN cleared. -/
  | zero
  | wait
  | stale
  | faulted
  deriving DecidableEq, Repr

/-- The sample that a waiting read of a block has taken at its arrival. -/
def State.sampled (s : State) (who : Reader) (h : Fin 64) (b : Nat) : Option VRead :=
  s.vreads.find? (fun x => x.who == who && x.view == h && x.blk == b)

/-- A read that has arrived waits, with its sample kept. -/
def State.keepSample (s : State) (who : Reader) (h : Fin 64) (b n : Nat) : State :=
  if (s.sampled who h b).isSome then s else { s with vreads := s.vreads ++ [{ who := who, view := h, blk := b, n := n }] }

/-- The check of one block for a reader (R289): n is OWED at its arrival, and a read that must wait for TAG ≥ n triggers the block
when it arrives. -/
def State.viewBlock (s : State) (who : Reader) (h : Fin 64) (v : View) (b : Nat) (engine : Bool) : State × ViewAns :=
  let t := s.tagGet v b
  let old := s.sampled who h b
  let n := match old with | some x => x.n | none => tagOwed t
  let wait : State := s.keepSample who h b n
  let stale := !genGe (tagTag t) n
  if stale && (v.spol == 0 || (engine && v.spol != 1)) then (if old.isSome then s else wait.trigger h b, .wait)
  else if tagBusy t then (wait, .wait)
  else if stale then (s, if v.spol == 1 then .clear else .stale)
  else if tagFlt t then
    match v.fpol with
    | 0 => (s, .faulted)
    | 1 => (s, .zero)
    | _ => (s, .clear)
  else (s, .bytes)

/-- The view block a location belongs to. -/
def State.viewAt (s : State) (loc : Nat) : Option (Fin 64 × View × Nat) :=
  s.viewList.findSome? (fun (h, v) => if v.hasPlane (lineOf loc) then (v.blockAt loc).map (fun b => (h, v, b)) else none)

end Sys2Proof.Machine
end

