-- ==== Sys2Proof/Machine/Translate.lean ====
section
/-!
DEFINITION. Translation and the checks of a memory access (spec/04 R84 to R92, R97, R103 to R106; spec/10 R232, R285): from a
virtual address to the locations of its bytes, or the first failing condition.
-/
namespace Sys2Proof.Machine
open Sys2Proof

/-- Who accesses: the core, the string's PTROOT and the mode (R85, R86), and whether an engine of the core does, which uses only the
second-level translation cache (R123). -/
structure Who where
  core : CoreId
  ptroot : W64
  mode : Mode
  eng : Bool
  /-- The launch whose range list tells the replacement priority of its fills (R101). -/
  launch : Option (Fin 64)
  deriving DecidableEq, Repr

/-- The kinds of an access that R92 tells apart. A contribution passes a range's lines (R279). -/
inductive AccKind where
  | load | store | contrib | fetch | hint
  deriving DecidableEq, Repr

/-- A write kind (R92). -/
def AccKind.isWrite : AccKind → Bool
  | .store | .contrib => true
  | _ => false

/-- The outcome of a check: `fail` carries the place in the order of R92 and the cause code of R407. -/
inductive XRes (α : Type) where
  | ok (a : α)
  | fail (ord code : Nat)
  /-- An agent with a sleeping link must be reached (R79). -/
  | sleep (a : AgentId)
  /-- To be tried again (R68). -/
  | hold
  deriving DecidableEq, Repr

-- Places in the order of R92, with the alignment of R203 between conditions 1 and 2
/-- Condition 1. -/
def ordCanon : Nat := 1
/-- R203. -/
def ordAlign : Nat := 2
/-- Condition 2. -/
def ordResident : Nat := 3
/-- Condition 3. -/
def ordEntry : Nat := 4
/-- Condition 4. -/
def ordMode : Nat := 5
/-- Condition 5. -/
def ordWrite : Nat := 6
/-- Condition 6, with R285. -/
def ordSeal : Nat := 7
/-- R232 for a plain write kind. -/
def ordRange : Nat := 8
/-- Condition 7. -/
def ordPhys : Nat := 9

/-- Bits [63:57] all equal bit 56 (R84). -/
def canonical (va : W64) : Bool := decide (va.toNat / 2 ^ 56 = 0) || decide (va.toNat / 2 ^ 56 = 255)

/-- CTXID of a PTROOT value (R85). -/
def ctxOf (ptroot : W64) : BitVec 12 := ptroot.extractLsb' 52 12

/-- The access is untranslated (R86). -/
def Who.untranslated (w : Who) : Bool := w.mode == .hyp || !w.ptroot.getLsbD 0

-- ## Entries (R88, R89)

/-- SZ. -/
def pteSZ (e : W64) : Nat := fld e 62 61
/-- DEV. -/
def pteDEV (e : W64) : BitVec 14 := e.extractLsb' 47 14
/-- The physical address of PFN. -/
def ptePA (e : W64) : Nat := fld e 46 11 * 4096
/-- GL. -/
def pteGL (e : W64) : Bool := e.getLsbD 10
/-- U. -/
def pteU (e : W64) : Bool := e.getLsbD 9
/-- W. -/
def pteW (e : W64) : Bool := e.getLsbD 8
/-- X. -/
def pteX (e : W64) : Bool := e.getLsbD 7
/-- SC. -/
def pteSC (e : W64) : Bool := e.getLsbD 6
/-- BK. -/
def pteBK (e : W64) : Bool := e.getLsbD 5
/-- A. -/
def pteA (e : W64) : Bool := e.getLsbD 4
/-- D. -/
def pteD (e : W64) : Bool := e.getLsbD 3
/-- log2 of a leaf's size. -/
def pteLog (e : W64) : Nat := match pteSZ e with | 0 => 12 | 1 => 16 | _ => 21

/-- A leaf is local: GL = 0, or DEV is the device's own number (R47, R89). -/
def State.pteLocal (s : State) (e : W64) : Bool := !pteGL e || pteDEV e == s.um.devnum

/-- The memory that the walker may read (R89). -/
def State.walkable (s : State) (pa : Nat) : Bool :=
  match s.decodePa pa with
  | .loc _ => true
  | _ => false

/-- R89 on an entry with V = 1 at a level. -/
def State.malformed (s : State) (e : W64) (level : Nat) : Bool :=
  let sz := pteSZ e
  if fld e 2 0 != 0 || (!pteGL e && pteDEV e != 0) then true
  else if sz = 3 then level == 0 || fld e 10 3 != 0 || !s.walkable (ptePA e)
  else if (sz < 2 && level != 0) || (sz == 2 && level != 1) then true
  else if ptePA e % 2 ^ pteLog e != 0 then true
  else
    let t := tierOf (ptePA e)
    (match t with
      | .hbm => pteLog e != 21
      | .lpddr => pteLog e != 16
      | .host | .reg => pteLog e != 12
      | .none => false)
    || (pteBK e && !(t == .hbm && s.pteLocal e)) || t == .reg

-- ## The walk (R87, R91)

/-- A leaf found: the entry, its location, the level's translation. -/
structure Leaf where
  pte : W64
  pteLoc : Nat
  deriving DecidableEq, Repr

/-- The lowest address bit of a level's index (R87). -/
def levelShift (level : Nat) : Nat := match level with | 0 => 12 | k + 1 => 21 + 9 * k

/-- A line at a local physical address follows R61 for an access without a translation too (R86): its page carries the bank attribute by
the latest leaf that a walker has seen, or a bank-local region lays it out (log 81). -/
def State.bankAt (s : State) (pa line : Nat) : Bool :=
  lineHbm line && (s.bkPages.any (fun p => decide (p.1 ≤ pa) && decide (pa < p.1 + 2 ^ p.2)) || s.bankLocalLine line)

/-- The bank attribute of a local leaf's page as a walker has seen it (R88; log 81). -/
def State.noteBank (s : State) (e : W64) : State :=
  let page := (ptePA e, pteLog e)
  let others := s.bkPages.filter (· != page)
  if !s.pteLocal e then s else { s with bkPages := if pteBK e then page :: others else others }

/-- The pointer that a core's walk cache holds for an address at a level (R94). -/
def State.walkFind (s : State) (w : Who) (va : W64) (level : Nat) : Option WalkEnt :=
  s.walks.find? (fun e => e.core == w.core && e.ctx == ctxOf w.ptroot && e.level == level && e.tag == va.toNat / 2 ^ levelShift level)

/-- A pointer entry of level 4 to 2 kept in the core's walk cache of 32 entries (R94). -/
def State.walkKeep (s : State) (w : Who) (va : W64) (level node : Nat) : State :=
  if level < 2 then s
  else
    let e : WalkEnt := { core := w.core, ctx := ctxOf w.ptroot, level := level, tag := va.toNat / 2 ^ levelShift level, node := node }
    let mine := s.walks.filter (fun x => x.core == w.core && x ≠ e)
    let gone := if mine.length < 32 then none else s.victimOf node mine
    { s with walks := e :: s.walks.filter (fun x => x ≠ e && some x ≠ gone) }

/-- An entry at a physical address read by the walker through the L2, or at its home if its line is cached only there (R61, R87). -/
def State.walkRead (s : State) (w : Who) (pa l : Nat) : State × LineAns :=
  s.readAny w.core { llcOnly := s.isPlane (lineOf l) || s.bankAt pa (lineOf l), noL1 := false, isSealed := false } false false (lineOf l)

/-- The walk from a level downward through the node at local physical address `node` (R87). A node in the host's memory cannot be read
while the Naesh Link is down (R428). -/
def State.walkGo (s : State) (w : Who) (va : W64) : Nat → Nat → State × XRes Leaf
  | level, node =>
    let pa := node + 8 * (va.toNat / 2 ^ levelShift level % 512)
    match s.decodePa pa with
    | .loc l =>
      if s.naeshDown && lineHost (lineOf l) then (s, .fail ordPhys 21) else
      let r := s.walkRead w pa l
      match r.2 with
      | .poison => (r.1, .fail ordPhys 23)
      | .sleep a => (r.1, .sleep a)
      | .hold => (r.1, .hold)
      | .ok =>
        let e := r.1.peek64 l
        if !e.getLsbD 63 then (r.1, .fail ordResident 17)
        else if r.1.malformed e level then (r.1, .fail ordEntry 18)
        else if pteSZ e = 3 then
          match level with
          | 0 => (r.1, .fail ordEntry 18)
          | k + 1 => (r.1.walkKeep w va level (ptePA e)).walkGo w va k (ptePA e)
        else (r.1, .ok { pte := e, pteLoc := l })
    | _ => (s, .fail ordPhys 21)

/-- Where the walk of an address begins: below the lowest pointer that the walk cache holds, else at the root (R87, R94). -/
def State.walkStart (s : State) (w : Who) (va : W64) : Nat × Nat :=
  match s.walkFind w va 2, s.walkFind w va 3, s.walkFind w va 4 with
  | some e, _, _ => (1, e.node)
  | none, some e, _ => (2, e.node)
  | none, none, some e => (3, e.node)
  | none, none, none => (4, fld w.ptroot 47 12 * 4096)

/-- The page of a physical address is sealed (R103). -/
def State.sealedPa (s : State) (pa log : Nat) : Bool := s.seals.contains (pa / 2 ^ log * 2 ^ log)

/-- A first-level translation cache (R94). -/
inductive TCache where
  | data | code
  deriving DecidableEq, Repr

/-- The first-level cache that an access uses (R94): an engine uses none (R123). -/
def Who.first (w : Who) (k : AccKind) : Option TCache := if k == .fetch then some .code else if w.eng then none else some .data

/-- A first-level cache holds a translation. -/
def Tr.isIn (t : Tr) (f : Option TCache) : Bool := match f with | some .code => t.code | some .data => t.data | none => false

/-- A translation of a core that covers an address, in the first-level cache of the access or in the second level (R94). -/
def State.tlbFind (s : State) (w : Who) (k : AccKind) (va : W64) : Option Tr :=
  s.tlb.find? (fun t => (t.isIn (w.first k) || t.second) && t.core == w.core && t.ctx == ctxOf w.ptroot && decide (t.base ≤ va.toNat) &&
    decide (va.toNat < t.base + 2 ^ t.log))

/-- The page of an address carries SC by the translation at hand (R104, R205). -/
def State.scAt (s : State) (w : Who) (va : W64) : Bool :=
  !w.untranslated && (match s.tlbFind w .store va with | some t => pteSC t.pte | none => false)

/-- The translation that the walker makes of a leaf for the caches of an access (R94, R103, R284). -/
def State.mkTr (s : State) (w : Who) (k : AccKind) (va : W64) (lf : Leaf) : Tr :=
  let log := pteLog lf.pte
  let pa := ptePA lf.pte
  let mine := s.pteLocal lf.pte
  { core := w.core, ctx := ctxOf w.ptroot, base := va.toNat / 2 ^ log * 2 ^ log, log := log, pte := lf.pte,
    pteLoc := lf.pteLoc, isSealed := mine && s.sealedPa pa log
    isMaster := mine && s.viewList.any (fun x => x.2.mlines.any (s.pageHas pa log))
    entry := if mine then s.regionOf pa else none
    data := w.first k == some .data, code := w.first k == some .code, second := true }

/-- A translation without a place in any cache is gone. -/
def Tr.held (t : Tr) : Bool := t.data || t.code || t.second

/-- Out of a first-level cache. -/
def Tr.outOf (t : Tr) (f : Option TCache) : Tr :=
  match f with | some .code => { t with code := false } | some .data => { t with data := false } | none => t

/-- A translation put into a first-level cache and the second level (R94): 64 or 32 entries of any page, and 256 sets of 8, each making
room. -/
def State.tlbPut (s : State) (f : Option TCache) (t : Tr) : State :=
  let others := s.tlb.filter (fun x => x ≠ t)
  let first := others.filter (fun x => x.core == t.core && x.isIn f)
  let second := if s.tlb.contains t && t.second then [] else others.filter (fun x => x.core == t.core && x.second)
  let key (x : Tr) : Nat := x.ctx.toNat * 2 ^ 64 + x.base
  let sets := setOf 8 5 256 (key t) (second.map key)
  let out1 := if first.length < (if f = some .code then 32 else 64) then none else s.victimOf t.base first
  let out2 := if sets.length < 8 then none else s.victimOf (key t) (second.filter (fun x => sets.contains (key x)))
  let drop (x : Tr) : Tr :=
    let y := if some x = out2 then { x with second := false } else x
    if some x = out1 then y.outOf f else y
  let new : Tr := { t with code := t.code || f == some .code, data := t.data || f == some .data, second := true }
  { s with tlb := new :: (others.map drop).filter Tr.held }

/-- An entry changed by the walker's compare-and-set (R91), a write at the entry's home that takes its line back first; the state with
the entry, or what keeps it from being made now. -/
def State.setPte (s : State) (loc : Nat) (e : W64) : State × LineAns :=
  let r := s.homeTake (lineOf loc)
  if s.pend.any (fun p => p.line == lineOf loc) || decide (0 < s.leaseOn (lineOf loc)) then (s.closeLine (lineOf loc), .hold)
  else
    match r.2 with
    | .ok =>
      let t : State := (r.1.pokeN loc (leBytes 8 e.toNat)).homeWritten (lineOf loc) false
      (if t.isMaster (lineOf loc) then t.masterWritten (lineOf loc) (0xFF#128 <<< (loc % 128)) else t, .ok)
    | x => (r.1, x.toLine)

/-- A walk that an address needs, its leaf's translation installed (R87, R91, R94). A hint through a leaf with A = 0 installs nothing, not
even the pointers on its way (R99). -/
def State.walk (s : State) (w : Who) (k : AccKind) (va : W64) : State × XRes Tr :=
  let b := s.walkStart w va
  let r := s.walkGo w va b.1 b.2
  match r.2 with
  | .ok lf =>
    let s1 := r.1.noteBank lf.pte
    if pteA lf.pte then
      let t := s1.mkTr w k va lf
      (s1.tlbPut (w.first k) t, .ok t)
    else if k == .hint then ({ s1 with walks := s.walks }, .ok (s1.mkTr w k va lf))
    else
      let e := lf.pte ||| 0x10
      let q := s1.setPte lf.pteLoc e
      match q.2 with
      | .ok =>
        let t := q.1.mkTr w k va { lf with pte := e }
        (q.1.tlbPut (w.first k) t, .ok t)
      | .poison => (q.1, .fail ordPhys 23)
      | .sleep a => (q.1, .sleep a)
      | .hold => (q.1, .hold)
  | .fail o c => (r.1, .fail o c)
  | .sleep a => (r.1, .sleep a)
  | .hold => (r.1, .hold)

/-- The translation of an address, walked and installed if no cache holds it (R91, R94). A hint that fails or would wait leaves no effect
on memory, caches or translation state (R99). -/
def State.translate (s : State) (w : Who) (k : AccKind) (va : W64) : State × XRes Tr :=
  match s.tlbFind w k va with
  | some t => (if t.isIn (w.first k) || w.first k == none then s else s.tlbPut (w.first k) t, .ok t)
  | none =>
    let r := s.walk w k va
    match k, r.2 with
    | .hint, .ok _ => r
    | .hint, x => (s, x)
    | _, _ => r

/-- Conditions 4 to 6 of R92 on a translation. -/
def protect (w : Who) (k : AccKind) (t : Tr) : Option (Nat × Nat) :=
  if (w.mode == .user && !pteU t.pte) || (k == .fetch && (!pteX t.pte || (w.mode == .sup && pteU t.pte))) then
    some (ordMode, 19)
  else if k.isWrite && !pteW t.pte then some (ordWrite, 19)
  else if k.isWrite && t.isSealed then some (ordSeal, 20)
  else none

/-- Copies of one translation. -/
def Tr.same (t x : Tr) : Bool := t.core == x.core && t.ctx == x.ctx && t.base == x.base && t.log == x.log && t.pteLoc == x.pteLoc

/-- The walker sets D before a write kind is performed through a translation with D = 0 (R91). An entry that has changed, or whose line
cannot be read any more, makes the walk start again: the cached translation is dropped here and the access is tried again. -/
def State.setDirty (s : State) (t : Tr) : State × LineAns :=
  if pteD t.pte then (s, .ok)
  else if s.peek64 t.pteLoc = t.pte then
    let e := t.pte ||| 0x8
    let q := s.setPte t.pteLoc e
    match q.2 with
    | .ok => ({ q.1 with tlb := q.1.tlb.map (fun x => if t.same x then { x with pte := e } else x) }, .ok)
    | .poison => ({ q.1 with tlb := q.1.tlb.filter (fun x => !t.same x) }, .hold)
    | x => (q.1, x)
  else ({ s with tlb := s.tlb.filter (fun x => !t.same x) }, .hold)

-- ## One lane's access

/-- What passed checks give: the location of each byte, and the attributes of the pages. -/
structure Acc where
  locs : List Nat
  /-- The device register's address, for an access to its window. -/
  reg : Option Nat
  /-- A byte lies on an SC page. -/
  sc : Bool
  /-- Bytes on SC pages, on bank pages and on sealed pages, by their lines. -/
  scLines : List Nat
  bkLines : List Nat
  sealLines : List Nat
  remote : Bool
  /-- Translations whose D a write must set. -/
  trs : List Tr
  deriving DecidableEq, Repr

/-- The location of the first byte. -/
def Acc.loc (a : Acc) : Nat := a.locs.headD 0

/-- How a line of the access may be cached. -/
def State.lineKind (s : State) (a : Acc) (line : Nat) : LineKind :=
  { llcOnly := a.bkLines.contains line || s.isPlane line, noL1 := a.scLines.contains line, isSealed := a.sealLines.contains line }

/-- The earlier of two failures in the order of R92, the first on a tie. -/
def worse (a b : Option (Nat × Nat)) : Option (Nat × Nat) :=
  match a, b with
  | some x, some y => if y.1 < x.1 then b else a
  | some _, none => a
  | none, _ => b

/-- The translation of up to two that covers an address. -/
def trFor (ts : List Tr) (v : Nat) : Option Tr := ts.find? (fun t => decide (t.base ≤ v) && decide (v < t.base + 2 ^ t.log))

/-- A local physical address under the region table entry that a translation holds (R62, R94), as long as the table still holds that
entry (R51): else it is decoded anew, and leads nowhere if no valid entry contains it. -/
def State.decodeBy (s : State) (e : Option (Vector W64 4)) (pa : Nat) : Phys :=
  match e with
  | some e =>
    if s.regions.toList.contains e && regV e && decide (regBASE e ≤ pa) && decide (pa < regLIMIT e) then s.entryLoc e pa else s.decodePa pa
  | none => s.decodePa pa

/-- Byte i's destination under up to two translations: untranslated, or by the one that covers it. -/
def State.physAt (s : State) (w : Who) (ts : List Tr) (va : W64) (i : Nat) : Phys :=
  let v := (va.toNat + i) % 2 ^ 64
  if w.untranslated then s.decodePa v
  else
    match trFor ts v with
    | some t =>
      let pa := ptePA t.pte + (v - t.base)
      if s.pteLocal t.pte then s.decodeBy t.entry pa else s.decodeGa (pteDEV t.pte) pa
    | none => .unmapped

/-- Condition 7's mapping on a byte's destination (R44, R45, R428): nothing, a register outside hypervisor mode, or the host's memory while
the Naesh Link is down. -/
def State.nowhere (s : State) (w : Who) (p : Phys) : Bool :=
  match p with
  | .unmapped => true
  | .reg _ => w.mode != .hyp
  | .loc l => s.naeshDown && decide (hostBase ≤ l) && decide (l < regBase)
  | .remote _ => false

/-- log2 of the size of the pages that a tier's seals cover (R48, R228). -/
def sealLog (t : Tier) : Nat := match t with | .hbm => 21 | .lpddr => 16 | _ => 12

/-- A line of a sealed page (R103, R229). -/
def State.lineSealed (s : State) (line : Nat) : Bool := s.seals.any (fun p => s.pageHas p (sealLog (tierOf p)) line)

/-- Condition 7's mapping and the write refusals on the bytes' locations. No write reaches a sealed line, translated or not (R331; log 96). -/
def State.physCheck (s : State) (w : Who) (k : AccKind) (ps : List Phys) : Option (Nat × Nat) :=
  let lines := (ps.filterMap (fun p => match p with | .loc l => some (lineOf l) | _ => none)).eraseDups
  if k.isWrite && lines.any (fun l => s.isPlane l) then some (ordSeal, 58)
  else if k.isWrite && lines.any s.lineSealed then some (ordSeal, 20)
  else if k == .store && lines.any (fun l => (s.rangeOf l).isSome) then some (ordRange, 37)
  else if ps.any (s.nowhere w) then some (ordPhys, 21)
  else none

/-- The lines of an access that have a property of their translation, or of their physical address and line if there is none. Pages and
granules are made of whole lines. -/
def State.linesWith (s : State) (w : Who) (ts : List Tr) (va : W64) (n : Nat) (p : Tr → Bool) (q : Nat → Nat → Bool) : List Nat :=
  (((List.range n).filter (fun i => i == 0 || (va.toNat + i) % 128 == 0)).filterMap (fun i =>
    let v := (va.toNat + i) % 2 ^ 64
    if w.untranslated then (match s.decodePa v with | .loc l => if q v (lineOf l) then some (lineOf l) else none | _ => none)
    else match trFor ts v, s.physAt w ts va i with
      | some t, .loc l => if p t then some (lineOf l) else none
      | _, _ => none)).eraseDups

/-- The access record of bytes that passed. -/
def State.mkAcc (s : State) (w : Who) (ts : List Tr) (va : W64) (n : Nat) (ps : List Phys) : Acc :=
  let no (_ _ : Nat) : Bool := false
  { locs := ps.filterMap (fun p => match p with | .loc l | .remote l => some l | _ => none)
    reg := (ps.head?).bind (fun p => match p with | .reg a => some a | _ => none)
    sc := ts.any (fun t => pteSC t.pte)
    scLines := if ts.any (fun t => pteSC t.pte) then s.linesWith w ts va n (fun t => pteSC t.pte) no else []
    bkLines := if w.untranslated || ts.any (fun t => pteBK t.pte) then s.linesWith w ts va n (fun t => pteBK t.pte) s.bankAt else []
    sealLines := if ts.any (·.isSealed) then s.linesWith w ts va n (·.isSealed) no else []
    remote := ps.any (fun p => match p with | .remote _ => true | _ => false)
    trs := ts }

/-- The checks of R92 up to the mapping of condition 7, and R203's alignment, on an access of n bytes at va. An access
that crosses a 4 KiB boundary is checked on both pages, and the first condition in the order decides. -/
def State.check (s : State) (w : Who) (k : AccKind) (align : Nat) (va : W64) (n : Nat) : State × XRes Acc :=
  let bad := if w.untranslated then decide (2 ^ 48 ≤ va.toNat) || decide (2 ^ 48 < va.toNat + n)
             else !canonical va || !canonical (va + BitVec.ofNat 64 (n - 1))
  if bad then (s, .fail ordCanon 16)
  else if va.toNat % align != 0 then (s, .fail ordAlign 22)
  else if w.untranslated then
    let ps := (List.range n).map (s.physAt w [] va)
    match s.physCheck w k ps with
    | some (o, c) => (s, .fail o c)
    | none => (s, .ok (s.mkAcc w [] va n ps))
  else
    let last := va + BitVec.ofNat 64 (n - 1)
    let (s, r1) := s.translate w k va
    let (s, r2) := if va.toNat / 4096 = last.toNat / 4096 then (s, r1) else s.translate w k last
    match r1, r2 with
    | .sleep a, _ | _, .sleep a => (s, .sleep a)
    | .hold, _ | _, .hold => (s, .hold)
    | .fail o1 c1, .fail o2 c2 => if o2 < o1 then (s, .fail o2 c2) else (s, .fail o1 c1)
    | .fail o c, .ok t | .ok t, .fail o c =>
      match worse (some (o, c)) (protect w k t) with
      | some (o, c) => (s, .fail o c)
      | none => (s, .fail o c)
    | .ok t1, .ok t2 =>
      match worse (protect w k t1) (protect w k t2) with
      | some (o, c) => (s, .fail o c)
      | none =>
        let ts := if t1 = t2 then [t1] else [t1, t2]
        let ps := (List.range n).map (s.physAt w ts va)
        match s.physCheck w k ps with
        | some (o, c) => (s, .fail o c)
        | none => (s, .ok (s.mkAcc w ts va n ps))

/-- The distinct lines of an access. -/
def Acc.lines (a : Acc) : List Nat := (a.locs.map lineOf).eraseDups

/-- The lines of an access read through the caches (R61 to R75, R81, R270): the first that is not there decides. -/
def State.readLines (s : State) (c : CoreId) (a : Acc) (l1 code : Bool) : List Nat → State × XRes Unit
  | [] => (s, .ok ())
  | l :: ls =>
    let r := s.readAny c (s.lineKind a l) l1 code l
    match r.2 with
    | .ok => r.1.readLines c a l1 code ls
    | .poison => (r.1, .fail ordPhys 23)
    | .sleep x => (r.1, .sleep x)
    | .hold => (r.1, .hold)

/-- The checks of a read: R92 whole, the lines brought to the reader (R210 to R214). -/
def State.checkRead (s : State) (w : Who) (k : AccKind) (l1 : Bool) (align : Nat) (va : W64) (n : Nat) :
    State × XRes Acc :=
  let (s, r) := s.check w k align va n
  match r with
  | .ok a =>
    if a.reg.isSome then (s, .ok a)
    else
      let (s, q) := s.readLines w.core a l1 (k == .fetch) a.lines
      match q with
      | .ok () => (s, .ok a)
      | .fail o c => (s, .fail o c)
      | .sleep x => (s, .sleep x)
      | .hold => (s, .hold)
  | .fail o c => (s, .fail o c)
  | .sleep x => (s, .sleep x)
  | .hold => (s, .hold)

/-- D set on every page of a write (R91); tried again when a translation proved stale. -/
def State.setDirties (s : State) : List Tr → State × LineAns
  | [] => (s, .ok)
  | t :: ts =>
    let r := s.setDirty t
    match r.2 with
    | .ok => r.1.setDirties ts
    | _ => r

end Sys2Proof.Machine
end

