-- ==== Sys2Proof/Machine/Ops.lean ====
section
/-!
DEFINITION. The operations that the meanings share: access to cores, strings and splits, registers, counters of outstanding
operations (spec/05 R134, R135), regions (spec/15 R398 to R406), TAKING A TRAP (spec/14 R380 to R384) and returning from one
(R385, R386, spec/15 R403), and the stack of R374.
-/
namespace Sys2Proof.Machine
open Sys2Proof

/-- The result of a meaning. -/
abbrev Res := Host.Outcome State Fault Refusal

-- ## Cores, strings, splits

/-- A core changed. -/
def State.modCore (s : State) (c : CoreId) (f : Core → Core) : State := { s with cores := s.cores.set c (f s.cores[c]) }
/-- A string slot. -/
def State.strAt (s : State) (c : CoreId) (k : SlotId) : Str := s.cores[c].strs[k]
/-- A string changed. -/
def State.modStr (s : State) (c : CoreId) (k : SlotId) (f : Str → Str) : State :=
  s.modCore c (fun x => { x with strs := x.strs.set k (f x.strs[k]) })
/-- A split slot changed. -/
def Str.modSplit (t : Str) (j : SplitId) (f : Split → Split) : Str := { t with splits := t.splits.set j (f t.splits[j]) }

/-- The issuing core. -/
def State.core (s : State) : Core := s.cores[s.cur.core]
/-- The issuing string. -/
def State.me (s : State) : Str := s.strAt s.cur.core s.cur.slot
/-- The issuing split. -/
def State.sp (s : State) : Split := s.me.splits[s.cur.split]
/-- The issuing string changed. -/
def State.modMe (s : State) (f : Str → Str) : State := s.modStr s.cur.core s.cur.slot f
/-- The issuing split changed. -/
def State.modSp (s : State) (f : Split → Split) : State := s.modMe (fun t => t.modSplit s.cur.split f)

/-- A change made as another split, the issuing one being the same afterwards. -/
def State.asSplit (s : State) (u : Cur) (f : State → State) : State := { f { s with cur := u } with cur := s.cur }

/-- The PC advanced by n words (R158). -/
def State.adv (s : State) (n : Nat) : State := s.modSp (fun x => { x with pc := x.pc + BitVec.ofNat 64 (8 * n) })
/-- The issuing split held, to try its instruction again in a later cycle. -/
def State.holdMe (s : State) : State := s.modSp (fun x => { x with wait := .held s.cyc })
/-- The issuing string held, all its splits, until its instruction is tried again (R130, R303). -/
def State.holdString (s : State) : State := s.modSp (fun x => { x with wait := .whole s.cyc })
/-- A held split comes to issue again; an instruction that has begun keeps its operands. -/
def Wait.retried (w : Wait) : Wait := match w with | .held _ | .whole _ => .none | w => w
/-- The issuing split waits (R356). -/
def State.waitMe (s : State) (w : Wait) : State := s.modSp (fun x => { x with wait := w })

/-- The context of a string: CTXID of its PTROOT (R85). -/
def Str.ctx (t : Str) : BitVec 12 := ctxOf t.ptroot
/-- Who the issuing split is, for its accesses. -/
def State.who (s : State) : Who := { core := s.cur.core, ptroot := s.me.ptroot, mode := s.sp.mode, eng := false, launch := s.me.launch }
/-- An engine or the device itself accessing for a string on a core (R123, R132); a fetch is the core's own. -/
def whoOf (c : CoreId) (ptroot : W64) (mode : Mode) : Who := { core := c, ptroot := ptroot, mode := mode, eng := true, launch := none }

/-- The slotted splits of a string. -/
def Str.slotted (t : Str) : List SplitId := (List.finRange 4).filter (fun j => t.splits[j].m != 0)
/-- Every split of a string: slotted, then parked. -/
def Str.allSplits (t : Str) : List Split := t.slotted.map (fun j => t.splits[j]) ++ t.park
/-- The string has exactly one split, parked splits counted (R143, R371). -/
def Str.single (t : Str) : Bool := t.allSplits.length == 1
/-- The first free split slot. -/
def Str.freeSlot (t : Str) : Option SplitId := (List.finRange 4).find? (fun j => t.splits[j].m == 0)
/-- The string occupies its slot. -/
def Str.present (t : Str) : Bool := t.st != .free

-- ## Registers (R138)

/-- A scalar register. -/
def State.getS (s : State) (r : SReg) : W64 := s.me.sreg[r.toFin]
/-- A scalar register written. -/
def State.setS (s : State) (r : SReg) (v : W64) : State := s.modMe (fun t => { t with sreg := t.sreg.set r.toFin v })
/-- A mask register; k0 reads as all ones (R9). -/
def Str.getK (t : Str) (r : KReg) : Mask := if r = 0 then BitVec.allOnes 32 else t.kreg[r.toFin]
/-- A mask register of the issuing string. -/
def State.getK (s : State) (r : KReg) : Mask := s.me.getK r
/-- A mask register written; a write to k0 is discarded (R139). -/
def State.setK (s : State) (r : KReg) (v : Mask) : State :=
  if r = 0 then s else s.modMe (fun t => { t with kreg := t.kreg.set r.toFin v })
/-- The active lanes of an instruction: E AND kG (R160, R370). -/
def State.active (s : State) (g : KReg) : Mask := s.sp.e &&& s.getK g

/-- Lane l of a vector register, zero if it holds no value. -/
def Str.getV (t : Str) (r : VReg) (l : Nat) : W32 :=
  match t.vreg[r.toFin] with
  | some v => v.toArray.getD l 0
  | none => 0
/-- Lane l of a vector register of the issuing string. -/
def State.getV (s : State) (r : VReg) (l : Nat) : W32 := s.me.getV r l

/-- The register n places on. -/
def VReg.plus (r : VReg) (n : Nat) : VReg := r + BitVec.ofNat 8 n

/-- The 64-bit pair on lane l, the low half in the even register (R139). -/
def State.getV2 (s : State) (r : VReg) (l : Nat) : W64 := s.getV (VReg.plus r 1) l ++ s.getV r l

/-- A register written or released stands in its old physical register no more (R147). -/
def detach (ls : List (Option VReg × List Nat)) (r : VReg) : List (Option VReg × List Nat) :=
  ls.map (fun x => if x.1 == some r then (none, x.2) else x)

/-- A vector register written on some lanes: a register that held no value takes zero on the others (R144). -/
def Str.setV (t : Str) (stamp : Nat) (r : VReg) (lanes : Mask) (f : Nat → W32) : Str :=
  let old := t.vreg[r.toFin]
  let v : LaneVec := gen 32 (fun l =>
    if lanes.has l then f l else match old with | some v => v.toArray.getD l 0 | none => 0)
  { t with vreg := t.vreg.set r.toFin (some v), vstamp := t.vstamp.set r.toFin stamp,
           gone := t.gone.filter (fun x => x.1 != r.toNat), lent := detach t.lent r,
           vspill := t.vspill &&& ~~~(1#256 <<< r.toNat) }

/-- The n-th free value of the run on lane l, for a register whose value the spec leaves undefined (R261; log 8). -/
def freeWord (n l : Nat) : W32 := Config.freeLane n l

-- ## Outstanding operations (R134, R135)

/-- Operations still counted in a class. -/
def Str.count (t : Str) (c : OpClass) : Nat := (t.ops.filter (fun o => o.cls == c)).length
/-- The string has a tile operation that has still to read its operands (R147). -/
def Str.reading (t : Str) (op : Nat) : Bool := t.ops.any (fun o => o.id == op && !o.readDone)

/-- The limit of a class. -/
def OpClass.limit : OpClass → Nat
  | .ld | .st => 63
  | .cp | .tl => 15

/-- Completed operations of a class leave the count in issue order. -/
def settleClass (c : OpClass) : List OutOp → List OutOp
  | [] => []
  | o :: r => if o.cls == c then (if o.done then settleClass c r else o :: r) else o :: settleClass c r
/-- Every class settled. -/
def settle (ops : List OutOp) : List OutOp :=
  settleClass .ld (settleClass .st (settleClass .cp (settleClass .tl ops)))

/-- An operation counted at the issuing string; it is complete already if `done`. -/
def State.newOp (s : State) (c : OpClass) (done : Bool) : State :=
  let id := s.uids
  { s.modMe (fun t => { t with ops := settle (t.ops ++ [{ cls := c, id := id, done := done, readDone := done }]) })
    with uids := id + 1 }

/-- The change of one string of a share by its uid. -/
def Share.mapUid (h : Share) (uid : Nat) (f : Str → Str) : Share :=
  let g (x : Nat × Str) : Nat × Str := if x.2.uid == uid then (x.1, f x.2) else x
  { h with strs := h.strs.map g, spilled := h.spilled.map g }

/-- The change of one string by its uid, where it stands: in a slot or spilled. -/
def State.modUid (s : State) (c : CoreId) (uid : Nat) (f : Str → Str) : State :=
  match (List.finRange 16).find? (fun k => s.cores[c].strs[k].present && s.cores[c].strs[k].uid == uid) with
  | some k => s.modStr c k f
  | none => s.modCore c (fun x =>
      { x with spilled := x.spilled.map (fun p => if p.str.uid == uid then { p with str := f p.str } else p)
               evicted := x.evicted.map (fun (e : Evicted) => { e with share := e.share.mapUid uid f }) })

/-- An operation of a string completes (R135). -/
def State.opDone (s : State) (c : CoreId) (uid id : Nat) : State :=
  s.modUid c uid (fun t =>
    { t with ops := settle (t.ops.map (fun o => if o.id == id then { o with done := true, readDone := true } else o)) })

/-- An instruction that would raise a counter above its limit is held (R134). -/
def State.full (s : State) (c : OpClass) : Bool := decide (c.limit ≤ s.me.count c)

-- ## Modes

/-- The order of modes (R372). -/
def modeRank : Mode → Nat
  | .user => 0 | .sup => 1 | .hyp => 2

-- ## The stack (R374)

/-- An Arrive: the taken path, or the whole path and the pops that follow. -/
def arriveGo : Nat → Split → Split
  | 0, x => x
  | fuel + 1, x =>
    match x.stack with
    | [] => x
    | top :: r =>
      if top.pmask != 0 then
        { x with e := top.pmask, stack := { top with pmask := 0 } :: r, pc := top.ppc, enter := true }
      else
        let y := { x with e := top.rmask, pc := top.rpc, stack := r, enter := true }
        match r with
        | nt :: _ => if nt.rpc == top.rpc then arriveGo fuel y else if y.e == 0 then arriveGo fuel y else y
        | [] => y

/-- An Arrive; the stack holds at most 8 entries. -/
def Split.arrive (x : Split) : Split := arriveGo 17 x

/-- Lanes that leave a split: removed from M, E and every stack entry (R374), and from the PFDROP stage (R406). -/
def Split.remove (x : Split) (l : Mask) : Split :=
  let y := { x with
    m := x.m &&& ~~~l, e := x.e &&& ~~~l
    stack := x.stack.map (fun t => { t with rmask := t.rmask &&& ~~~l, pmask := t.pmask &&& ~~~l })
    pf := x.pf.filter (fun i => !l.has i) }
  if y.e == 0 && y.m != 0 && !y.stack.isEmpty then y.arrive else y

-- ## Slots and the park list (R370, R382, R385)

/-- The parked split that a freed slot goes to: the highest mode, the earliest parked (R385). -/
def pickParked (ps : List Split) : Option Nat :=
  let best := (ps.map (fun p => modeRank p.mode)).foldl max 0
  ps.findIdx? (fun p => modeRank p.mode == best)

/-- Free slots given to parked splits (R385). -/
def Str.unparkGo : Nat → Str → Str
  | 0, t => t
  | fuel + 1, t =>
    match t.freeSlot, pickParked t.park with
    | some j, some i =>
      match t.park[i]? with
      | some p => Str.unparkGo fuel { t with splits := t.splits.set j p, park := t.park.eraseIdx i }
      | none => t
    | _, _ => t

/-- R385. -/
def Str.unpark (t : Str) : Str := Str.unparkGo 4 t

-- ## Regions (R398 to R401, R405, R406)

/-- The registers that hold a value (VSTATE). -/
def Str.vstate (t : Str) : BitVec 256 :=
  (List.range 256).foldl (fun m r => if (t.vreg.toArray.getD r none).isSome then m ||| (1#256 <<< r) else m) 0#256

/-- The registers that hold a value on lane l (R405). -/
def Str.vstateOn (t : Str) (vs : BitVec 256) (l : Nat) : BitVec 256 :=
  t.gone.foldl (fun m x => if x.2.has l then m &&& ~~~(1#256 <<< x.1) else m) vs

/-- Lane l of a string. -/
def Str.lane (t : Str) (l : Nat) : Lane := t.lanes.toArray.getD l (Lane.start 0 0)

/-- The lane carries a replay mark (R402). -/
def Lane.marked (x : Lane) : Bool := x.urec.mark || x.srec.mark

/-- Some lane of the string carries a replay mark. -/
def Str.marked (t : Str) : Bool := t.lanes.toList.any Lane.marked

/-- The lanes that carry a replay mark. -/
def Str.markedLanes (t : Str) : Mask := Mask.ofLanes (laneList.filter (fun l => (t.lane l).marked))

/-- A register's value kept on some lanes; a lane whose region has released the register before keeps that value. -/
def keepReg (ks : List Kept) (r : Nat) (mode : Mode) (m : Mask) (v : LaneVec) : List Kept :=
  if m = 0 then ks else
  match ks.find? (fun k => k.reg == r && k.mode == mode) with
  | none => { reg := r, mode := mode, lanes := m, v := v } :: ks
  | some k => { k with lanes := k.lanes ||| m, v := gen 32 (fun l => (if k.lanes.has l then k.v else v).toArray.getD l 0) }
      :: ks.filter (fun k => !(k.reg == r && k.mode == mode))

/-- What regions of a mode have kept given up on some lanes. -/
def dropKept (ks : List Kept) (mode : Mode) (m : Mask) : List Kept :=
  (ks.map (fun k => if k.mode == mode then { k with lanes := k.lanes &&& ~~~m } else k)).filter (fun k => k.lanes != 0)

/-- The lanes in splits of a mode. -/
def Str.modeLanes (t : Str) (mode : Mode) : Mask := t.allSplits.foldl (fun m x => if x.mode == mode then m ||| x.m else m) 0

/-- Lanes of a register that held a value hold none; the other lanes keep theirs (R405). -/
def Str.loseLanes (t : Str) (r : Nat) (m : Mask) : Str :=
  if h : r < 256 then
    match t.vreg[r] with
    | some v => { t with vreg := t.vreg.set r (some (gen 32 (fun l => if m.has l then 0 else v.toArray.getD l 0)))
                         gone := (r, m ||| ((t.gone.find? (fun x => x.1 == r)).map (·.2)).getD 0) :: t.gone.filter (fun x => x.1 != r) }
    | none => t
  else t

/-- Release(r) (R143): the register holds no value, its value being kept for a replay (R146). While some lanes carry a replay mark it
holds none on the others only (R405). -/
def Str.release (t : Str) (r : Nat) : Str :=
  if h : r < 256 then
    match t.vreg[r] with
    | some v =>
      let keep (ks : List Kept) (mode : Mode) : List Kept := keepReg ks r mode (t.modeLanes mode &&& ~~~t.markedLanes) v
      let t := { t with kept := keep (keep t.kept .user) .sup }
      if t.marked then t.loseLanes r (~~~t.markedLanes)
      else { t with vreg := t.vreg.set r none, gone := t.gone.filter (fun x => x.1 != r), lent := detach t.lent (BitVec.ofNat 8 r),
                      vspill := t.vspill &&& ~~~(1#256 <<< r) }
    | none => t
  else t

/-- Registers released. -/
def Str.releaseAll (t : Str) (rs : List Nat) : Str := rs.foldl Str.release t

/-- Lanes changed under a mask, each by its number. -/
def Str.mapLanes (t : Str) (m : Mask) (f : Nat → Lane → Lane) : Str :=
  { t with lanes := gen 32 (fun l => if h : l < 32 then (if m.has l then f l t.lanes[l] else t.lanes[l]) else Lane.start 0 0) }
/-- Lanes changed under a mask. -/
def Str.modLanes (t : Str) (m : Mask) (f : Lane → Lane) : Str := t.mapLanes m (fun _ => f)

/-- A region begins for lanes of a mode at an address under a block (R398, R401); a hypervisor split keeps no record. -/
def Str.beginRegion (t : Str) (lanes : Mask) (mode : Mode) (entry blk : W64) : Str :=
  match mode with
  | .hyp => t
  | _ =>
    let vs := t.vstate
    let mk (x : Lane) (l : Nat) : Region :=
      { rentry := entry, rblk := blk, first := false, allot := t.allot, vstate := t.vstateOn vs l, gen := x.gen, mark := false, fpc := 0, t := 0, pf := 0 }
    t.mapLanes lanes (fun l x => if mode == .user then { x with urec := mk x l } else { x with srec := mk x l })

/-- The user region that some lanes have begun is the task's first (R133, R404). -/
def Str.markFirst (t : Str) (lanes : Mask) : Str := t.modLanes lanes (fun x => { x with urec := { x.urec with first := true } })

/-- A saturating count (R100, R263). -/
def satAdd (w a b : Nat) : Nat := min (a + b) (2 ^ w - 1)

/-- The matrix counts of two lots (R263). -/
def MCnt.add (a b : MCnt) : MCnt :=
  { nan := BitVec.ofNat 16 (satAdd 16 a.nan.toNat b.nan.toNat), inf := BitVec.ofNat 16 (satAdd 16 a.inf.toNat b.inf.toNat),
    scnan := BitVec.ofNat 16 (satAdd 16 a.scnan.toNat b.scnan.toNat),
    spidx := BitVec.ofNat 16 (satAdd 16 a.spidx.toNat b.spidx.toNat) }

/-- The counts' operation is complete and its region has ended (R263). -/
def MStage.due (x : MStage) : Bool := x.opDone && x.openL == 0

/-- Staged matrix counts that are due are committed (R263). -/
def Str.settleCounts (t : Str) : Str :=
  { t with mcnt := (t.mstage.filter MStage.due).foldl (fun a x => a.add x.cnt) t.mcnt, mstage := t.mstage.filter (fun x => !x.due) }

/-- The regions of a mode end on some lanes, for the counts staged in them (R263). -/
def Str.closeStages (t : Str) (mode : Mode) (m : Mask) : Str :=
  { t with mstage := t.mstage.map (fun (y : MStage) => if y.mode == mode then { y with openL := y.openL &&& ~~~m } else y) }

/-- Staged flags and dropped pages committed (R201, R406). -/
def Str.commitStage (t : Str) (flags : BitVec 5) (drops : Nat) : Str :=
  { t with fflags := t.fflags ||| flags, pfdrop := BitVec.ofNat 32 (satAdd 32 t.pfdrop.toNat drops) }

/-- The region of split j ends on the lanes of its E: T into FFLAGS, the PFDROP stage into PFDROP, the matrix counts of its lanes; released
registers that no lane's region can still be replayed with are freed (R146, R201, R263, R405, R406). -/
def Str.endRegion (t : Str) (j : SplitId) : Str :=
  let x := t.splits[j]
  let t := (t.commitStage x.t x.pf.length).closeStages x.mode x.e
  let t := { t with
    kept := dropKept t.kept x.mode x.e
    staging := if t.single && !t.marked then none else t.staging }
  (t.modSplit j (fun y => { y with t := 0, pf := [] })).settleCounts

/-- Commit(region) of the issuing split after a commit point at its PC of n words (R205, R398): the region ends and a new
one begins at the word after. -/
def State.commit (s : State) (n : Nat) : State :=
  s.modMe (fun t =>
    let t := t.endRegion s.cur.split
    let x := t.splits[s.cur.split]
    t.beginRegion x.e x.mode (x.pc + BitVec.ofNat 64 (8 * n)) x.blk)

-- ## Context faults and double traps (R384, R409)

/-- An event put at the head of the agenda. -/
def State.soon (s : State) (i : Ev) : State := { s with agenda := i :: s.agenda }
/-- An event put at the end of the agenda. -/
def State.later (s : State) (i : Ev) : State := { s with agenda := s.agenda ++ [i] }

/-- The boot string: it belongs to no launch (R445). -/
def Str.isBoot (t : Str) : Bool := t.launch.isNone

/-- R384: the core reports the double trap with its slot and lanes, and the string's context takes the fault of kind 1 (R409); a double trap of the boot string also stops its core and every other
core's strings (R445). -/
def State.doubleTrap (s : State) (c : CoreId) (k : SlotId) (lanes : Mask) : State :=
  let f := State.soon { s with reports := s.reports ++ [Report.doubleTrap c k lanes] } (.contextFault (s.strAt c k).ctx 1)
  if (s.strAt c k).isBoot then { f.modCore c (fun x => { x with stopped := true }) with
    bootFailed := true, reports := f.reports ++ [Report.startFailed] } else f

-- ## Taking a trap (R380 to R382)

/-- A lane's trap. -/
structure Trap where
  lane : Nat
  code : Nat
  tval : W64
  deriving DecidableEq, Repr

/-- The mask of some traps' lanes. -/
def trapMask (ts : List Trap) : Mask := Mask.ofLanes (ts.map (·.lane))

/-- The destination of a trap of a user or supervisor lane (R380): true is the hypervisor. -/
def toHyp (hdeleg : W64) (mode : Mode) (int : Bool) (code : Nat) : Bool :=
  match mode with
  | .user => if int || code == 10 then false else !(code < 64 && hdeleg.getLsbD code)
  | _ => true

/-- The records of R378 and the mark of R402 written for a trapping lane. -/
def Lane.record (x : Lane) (hyp : Bool) (mode : Mode) (int : Bool) (code : Nat) (tval epc fpc blk : W64) : Lane :=
  let x :=
    if hyp then
      { x with hepc := epc, hcause := BitVec.ofNat 32 (code + (if mode == .sup then 2 ^ 30 else 0)), htval := tval, hblk := blk }
    else
      { x with sepc := epc, scause := BitVec.ofNat 32 (code + (if int then 2 ^ 31 else 0)), stval := tval, sblk := blk }
  if int || code == 10 || code == 11 then x
  else if mode == .user then { x with urec := { x.urec with mark := true, fpc := fpc } }
  else { x with srec := { x.srec with mark := true, fpc := fpc } }

/-- Where split X stands while a trap is placed. -/
inductive XPlace where
  | slot (j : SplitId)
  | parked
  deriving DecidableEq, Repr

/-- A string in the course of a trap: X apart, the slots formed at this trap, and the splits parked by it. -/
structure TrapCtx where
  str : Str
  x : Split
  place : XPlace
  formed : List SplitId
  /-- X's slot has gone to another split. -/
  given : Bool
  parked : List Split

/-- The slotted split of lowest mode and, within it, highest PC, not formed at this trap (R382). -/
def victimSlot (t : Str) (formed : List SplitId) : Option SplitId :=
  let cs := t.slotted.filter (fun j => !formed.contains j)
  let low := (cs.map (fun j => modeRank t.splits[j].mode)).foldl min 2
  let cs := cs.filter (fun j => modeRank t.splits[j].mode == low)
  let top := (cs.map (fun j => t.splits[j].pc.toNat)).foldl max 0
  cs.find? (fun j => t.splits[j].pc.toNat == top)

/-- R382: the new split Y placed; X loses its lanes first. -/
def TrapCtx.placeY (c : TrapCtx) (xj : SplitId) (y : Split) : TrapCtx :=
  let put (j : SplitId) (t : Str) : Str := { t with splits := t.splits.set j y }
  if c.given then
    match c.str.freeSlot with
    | some j => { c with str := put j c.str, formed := j :: c.formed }
    | none =>
      match victimSlot c.str c.formed with
      | some j => { c with str := put j c.str, formed := j :: c.formed, parked := c.parked ++ [c.str.splits[j]] }
      | none => c
  else if c.x.m == 0 then
    { c with str := put xj c.str, formed := xj :: c.formed, given := true }
  else
    -- X's slot stays occupied while a free one is looked for
    match (c.str.modSplit xj (fun _ => c.x)).freeSlot with
    | some j => { c with str := put j c.str, formed := j :: c.formed }
    | none => { c with str := put xj c.str, formed := xj :: c.formed, given := true, place := .parked }

/-- The trapping lanes of one destination leave X and form Y (R381). -/
def TrapCtx.take (c : TrapCtx) (xj : SplitId) (hyp : Bool) (vec epc : W64) (int : Bool) (ts : List Trap) : TrapCtx :=
  if ts.isEmpty then c
  else
    let l := trapMask ts
    let str := ts.foldl (fun t (tr : Trap) =>
      t.modLanes (Mask.ofLanes [tr.lane]) (fun x => x.record hyp c.x.mode int tr.code tr.tval epc epc c.x.blk)) c.str
    let x := c.x.remove l
    let mode : Mode := if hyp then .hyp else .sup
    let y : Split := { Split.empty with pc := vec, m := l, e := l, mode := mode, enter := true }
    let c := { c with str := str.beginRegion l mode vec vec, x := x }
    c.placeY xj y

/-- The stages of a split that lanes leave at a trap (R201, R406): an interrupt keeps the pages counted for its lanes, since nothing is
replayed, and a split that its last lanes leave passes its flags to their records. -/
def Str.leaveStage (t : Str) (x : Split) (int : Bool) (m : Mask) : Str :=
  let flags : BitVec 5 := if x.m &&& ~~~m == 0 then x.t else 0
  let drops (l : Nat) : Nat := if int then x.pf.count l else 0
  t.mapLanes m (fun l y => match x.mode with
    | .user => { y with urec := { y.urec with t := y.urec.t ||| flags, pf := y.urec.pf + drops l } }
    | _ => { y with srec := { y.srec with t := y.srec.t ||| flags, pf := y.srec.pf + drops l } })

/-- R381 on split j of a string: `epc` is what SEPC and HEPC receive, `cont` where the lanes left in X go on, `svec` and
`hvec` the vectors, `hdeleg` the delegation. -/
def Str.trap (t : Str) (j : SplitId) (svec hvec hdeleg : W64) (int : Bool) (epc cont : W64) (ts : List Trap) : Str :=
  let x := t.splits[j]
  let hs := ts.filter (fun r => toHyp hdeleg x.mode int r.code)
  let ss := ts.filter (fun r => !toHyp hdeleg x.mode int r.code)
  -- X is kept apart; its own slot is empty meanwhile
  let c0 : TrapCtx := { str := (t.leaveStage x int (trapMask ts)).modSplit j (fun _ => Split.empty), x := { x with pc := cont, wait := .none },
                        place := .slot j, formed := [], given := false, parked := [] }
  let c1 := c0.take j true hvec epc int hs
  let c2 := c1.take j false svec epc int ss
  -- X back in its slot or on the park list
  let t := c2.str
  match c2.place with
  | .slot _ =>
    let t := if c2.x.m == 0 then t else t.modSplit j (fun _ => c2.x)
    { t with park := t.park ++ c2.parked }
  | .parked => { t with park := t.park ++ (if c2.x.m == 0 then [] else [c2.x]) ++ c2.parked }

/-- Lanes of the issuing split trap (R381); a trap in hypervisor mode is a double trap (R384). -/
def State.trapAt (s : State) (epc cont : W64) (int : Bool) (ts : List Trap) : State :=
  if ts.isEmpty then s
  else if s.sp.mode == .hyp then s.doubleTrap s.cur.core s.cur.slot (trapMask ts)
  else s.modMe (fun t => t.trap s.cur.split (va57 s.core.svec) s.core.hvec s.core.hdeleg int epc cont ts)

/-- Every lane of the issuing split's E traps with one cause at the instruction; nothing is performed (R166, R204). -/
def State.trapAll (s : State) (code : Nat) (tval : W64) : State :=
  s.trapAt s.sp.pc s.sp.pc false (s.sp.e.lanes.map (fun l => { lane := l, code := code, tval := tval }))

/-- Some lanes trap at an instruction of n words that the others have performed (R381, R204). -/
def State.trapSome (s : State) (n : Nat) (ts : List Trap) : State :=
  if ts.isEmpty then s.adv n
  else s.trapAt s.sp.pc (s.sp.pc + BitVec.ofNat 64 (8 * n)) false ts

/-- Some lanes trap at a commit point that no lane performs; the others stand at it (R205). -/
def State.trapHere (s : State) (ts : List Trap) : State := s.trapAt s.sp.pc s.sp.pc false ts

-- ## Returning (R386, R403, R460)

/-- Where a lane returns: mode, PC, block, and whether the region is replayed. -/
structure Ret where
  lane : Nat
  mode : Mode
  pc : W64
  blk : W64
  replay : Bool
  deriving DecidableEq, Repr

/-- The return of lane l (R386, R403): with a mark whose FPC is the return PC, a replay at RENTRY. -/
def Str.retOf (t : Str) (hyp : Bool) (l : Nat) : Ret :=
  let x := t.lane l
  let pc := if hyp then x.hepc else x.sepc
  let blk := if hyp then x.hblk else x.sblk
  let mode : Mode := if hyp && x.hcause.getLsbD 30 then .sup else .user
  let rec_ := if mode == .user then x.urec else x.srec
  if rec_.mark && rec_.fpc == pc then { lane := l, mode := mode, pc := rec_.rentry, blk := rec_.rblk, replay := true }
  else { lane := l, mode := mode, pc := pc, blk := blk, replay := false }

/-- A kept value given back to lane l of its register; a register that held no value holds one on that lane only (R405). -/
def Str.giveBack (t : Str) (l : Nat) (k : Kept) : Str :=
  if h : k.reg < 256 then
    let one : Mask := Mask.ofLanes [l]
    let x : W32 := k.v.toArray.getD l 0
    match t.vreg[k.reg] with
    | some v => { t with vreg := t.vreg.set k.reg (some (gen 32 (fun i => if i = l then x else v.toArray.getD i 0)))
                         gone := (t.gone.map (fun g => if g.1 == k.reg then (g.1, g.2 &&& ~~~one) else g)).filter (fun g => g.2 != 0) }
    | none => { t with vreg := t.vreg.set k.reg (some (gen 32 (fun i => if i = l then x else 0)))
                       gone := (k.reg, ~~~one) :: t.gone.filter (fun g => g.1 != k.reg) }
  else t

/-- A replaying lane's allotment, and its value of every register of VSTATE that has been released since (R405). -/
def Str.restore (t : Str) (l : Nat) (mode : Mode) (allot : Nat) (vstate : BitVec 256) : Str :=
  (t.kept.filter (fun k => k.mode == mode && vstate.getLsbD k.reg && k.lanes.has l)).foldl (fun t k => t.giveBack l k)
    { t with allot := max t.allot allot }

/-- The mark of a returning lane cleared. A replayed lane has GEN, A and its registers restored, what its region staged is discarded, and the
operands of its region's tile operations are on loan no more, since the replay issues them again (R253); otherwise the region it left has ended, and what it staged is committed (R201, R263, R403, R405, R406). -/
def Str.settleMark (t : Str) (r : Ret) : Str :=
  let x := t.lane r.lane
  let one : Mask := Mask.ofLanes [r.lane]
  let rec_ := if r.mode == .user then x.urec else x.srec
  let t :=
    if r.replay then
      let mine (y : MStage) : Bool := y.mode == r.mode && y.openL &&& one != 0
      { t.restore r.lane r.mode rec_.allot rec_.vstate with
        mstage := t.mstage.filter (fun y => !mine y), loans := t.loans.filter (fun x => !t.mstage.any (fun y => mine y && y.op == x.2)) }
    else ((t.commitStage rec_.t rec_.pf).closeStages r.mode one).settleCounts
  let t := { t with kept := dropKept t.kept r.mode one }
  t.modLanes one (fun x =>
    let x := if r.replay then { x with gen := rec_.gen } else x
    if r.mode == .user then { x with urec := { x.urec with mark := false, t := 0, pf := 0 } }
    else { x with srec := { x.srec with mark := false, t := 0, pf := 0 } })

/-- The groups of R386: lanes of one mode, PC and block, in ascending PC and then ascending lowest lane. -/
def retGroups (rs : List Ret) : List (Mode × W64 × W64 × List Ret) :=
  let keys := (rs.map (fun r => (r.mode, r.pc, r.blk, r.replay))).eraseDups
  let gs := keys.map (fun k => (k.1, k.2.1, k.2.2.1, rs.filter (fun r => (r.mode, r.pc, r.blk, r.replay) == k)))
  gs.mergeSort (fun a b => decide (a.2.1.toNat < b.2.1.toNat) ||
    (a.2.1 == b.2.1 && decide (((a.2.2.2.map (·.lane)).foldl min 32) ≤ ((b.2.2.2.map (·.lane)).foldl min 32))))

/-- The return PC lies within the block that a header word at `blk` governs (R460). -/
def inBlock (blk hdr pc : W64) : Bool :=
  decide (blk.toNat < pc.toNat) && decide (pc.toNat ≤ blk.toNat + 8 * fld hdr 55 48)

/-- A split waits under R356. -/
def waiting (w : Wait) : Bool :=
  match w with
  | .barrier _ _ | .bank | .array | .push => true
  | _ => false

/-- The instruction of a waiting split is an operation under way: it ends before the string is saved (R415). -/
def underWay (w : Wait) : Bool := match w with | .range .. | .tcinv _ | .drop _ | .sync .. => true | _ => false

/-- A split that a returning group may merge with (R386). -/
def canJoin (mode : Mode) (pc : W64) (z : Split) : Bool :=
  z.m != 0 && z.mode == mode && z.stack.isEmpty && !waiting z.wait && z.pc == pc

/-- The block's header word has not been read: it could not be when the split's lanes returned (R460; log 80). -/
def Split.unread (x : Split) : Bool := !x.enter && x.hdr == 0

/-- One returning group merged or placed (R386). Where the header cannot be read yet, a PC that no block at that address could reach is entered
anew (R460). -/
def Str.returnGroup (t : Str) (hdr : W64) (mode : Mode) (pc blk : W64) (lanes : Mask) (replay : Bool) : Str :=
  let t := if replay then t else t.beginRegion lanes mode pc blk
  match (List.finRange 4).find? (fun j => canJoin mode pc t.splits[j]) with
  | some j => t.modSplit j (fun z => { z with m := z.m ||| lanes, e := z.e ||| lanes })
  | none =>
    match t.park.findIdx? (canJoin mode pc) with
    | some i => { t with park := t.park.modify i (fun z => { z with m := z.m ||| lanes, e := z.e ||| lanes }) }
    | none =>
      let y : Split := { Split.empty with
        pc := pc, m := lanes, e := lanes, mode := mode, blk := blk, hdr := hdr
        enter := if hdr == 0 then decide (pc.toNat ≤ blk.toNat) || decide (blk.toNat + 8 * 255 < pc.toNat) else !inBlock blk hdr pc }
      match t.freeSlot with
      | some j => { t with splits := t.splits.set j y }
      | none => { t with park := t.park ++ [y] }

/-- ENTRY of a manifest (R338). -/
def SEnt.entry (e : SEnt) : W64 := va57 (wordAt e.bytes 0)

/-- R133: a replay of the task's first region stages its operands again. -/
def Str.restage (t : Str) (rs : List Ret) : Str :=
  match t.staging with
  | some g => if rs.any (fun r => r.replay && r.mode == .user && (t.lane r.lane).urec.first) then
      { t with st := .staging, staging := some { g with entered := false } } else t
  | none => t

/-- `sret`, or `hret` with `hyp`: the issuing split's lanes return (R386). `hdrAt` gives the header word of a block. -/
def Str.doReturn (t : Str) (j : SplitId) (hyp : Bool) (hdrAt : Mode → W64 → W64) : Str :=
  let t := t.endRegion j
  let lanes := t.splits[j].m.lanes
  let t := t.modSplit j (fun _ => Split.empty)
  let rs := lanes.map (t.retOf hyp)
  let t := rs.foldl Str.settleMark t
  let t := t.restage rs
  let t := (retGroups rs).foldl (fun t g =>
    t.returnGroup (hdrAt g.1 g.2.2.1) g.1 g.2.1 g.2.2.1 (Mask.ofLanes (g.2.2.2.map (·.lane)))
      (g.2.2.2.any (·.replay))) t
  t.unpark

end Sys2Proof.Machine
end

