-- ==== Sys2Proof/Machine/Barrier.lean ====
section
/-!
DEFINITION. Scratchpad addresses (spec/05 R107 to R113, R408), barrier objects (R115 to R122), releases and acquires (spec/08
R220), and the shared ways in which an instruction meets the outcome of a check.
-/
namespace Sys2Proof.Machine
open Sys2Proof

-- ## Scratchpad addresses (R107, R108, R113)

/-- The partition of a context on a core. -/
def State.partOf (s : State) (c : CoreId) (ctx : BitVec 12) : Option Part := s.cores[c].parts.find? (fun p => p.ctx == ctx)

/-- GMASK of a context on a core (R109). -/
def State.gmask (s : State) (c : CoreId) (ctx : BitVec 12) : BitVec 16 :=
  match s.partOf c ctx with | some p => p.gmask | none => 0

/-- Core CIDX `k` of the cluster of core c (R107). -/
def peerCore (c : CoreId) (k : Nat) : CoreId := ⟨c.val / 4 * 4 + k % 4, by omega⟩
/-- CIDX of a core (R39). -/
def cidx (c : CoreId) : Nat := c.val % 4

/-- R107's range: bits above 24, or a CORE field without PEER. -/
def scrRange (a : W64) : Bool := decide (a.toNat < 2 ^ 25) && (a.getLsbD 24 || fld a 23 22 == 0)

/-- The core that a scratchpad address names. -/
def scrCore (c : CoreId) (a : W64) : CoreId := if a.getLsbD 24 then peerCore c (fld a 23 22) else c

/-- A peer address that names another core. -/
def scrPeer (c : CoreId) (a : W64) : Bool := a.getLsbD 24 && fld a 23 22 != cidx c

/-- R108: the physical place of an offset in a partition. -/
def granPlace (t : CoreId) (gm : BitVec 16) (off : Nat) : Option Place :=
  (kthBit gm.toNat 16 (off / 0x30000)).map (fun g => .scr t (g * 0x30000 + off % 0x30000))

/-- The place of one scratchpad byte: R107, then R113, then R108. -/
def State.scrByte (s : State) (c : CoreId) (ctx : BitVec 12) (a : W64) : XRes Place :=
  if !scrRange a then .fail ordCanon 26
  else
    let t := scrCore c a
    if scrPeer c a && (s.partOf t ctx).isNone then .fail ordResident 28
    else
      let off := fld a 21 0
      if 0x300000 ≤ off then .fail ordEntry 27
      else match granPlace t (s.gmask t ctx) off with
        | some p => .ok p
        | none => .fail ordEntry 27

/-- A naturally aligned scratchpad access (R203: the alignment comes after R107 and before R108). -/
def State.scrCheck (s : State) (c : CoreId) (ctx : BitVec 12) (align : Nat) (a : W64) : XRes Place :=
  if !scrRange a then .fail ordCanon 26
  else if a.toNat % align != 0 then .fail ordAlign 22
  else s.scrByte c ctx a

/-- The first failing address of a scratchpad extent, with its cause. -/
def State.scrExtent (s : State) (c : CoreId) (ctx : BitVec 12) (a : W64) (n : Nat) : Option (W64 × Nat) :=
  -- granules are multiples of 64 KiB, so the start and each 64 KiB boundary decide
  let starts := a.toNat :: ((List.range (n / 65536 + 1)).map (fun i => (a.toNat / 65536 + 1 + i) * 65536)).filter
                  (fun x => decide (x < a.toNat + n))
  starts.findSome? (fun x => match s.scrByte c ctx (BitVec.ofNat 64 x) with
    | .fail _ code => some (BitVec.ofNat 64 x, code)
    | _ => none)

/-- Some byte of the place is poisoned (R408). -/
def State.scrPoison (s : State) (p : Place) (n : Nat) : Bool :=
  match p with
  | .scr c o => (List.range n).any (fun i => s.scrPz.contains ((scrKey c o + i) / 8))
  | .mem _ => false

-- ## Waiting and waking (R118, R120)

/-- A split waiting on a barrier place whose phase differs: its wait is satisfied (R118). -/
def wakeSplit (p : Place) (ph : Byte) (x : Split) : Split :=
  match x.wait with
  | .barrier q v => if q = p ∧ v ≠ ph then { x with wait := .passed p } else x
  | _ => x

/-- The splits of a string waiting on a place with another phase woken. -/
def Str.wakeBar (t : Str) (p : Place) (ph : Byte) : Str :=
  { t with splits := t.splits.map (wakeSplit p ph), park := t.park.map (wakeSplit p ph) }

/-- Every split of the string waits (R355). -/
def Str.parked (t : Str) : Bool := t.allSplits.all (fun x => waiting x.wait)

/-- A spilled string that no longer waits is woken, at the current cycle (R355, R359). -/
def Spilled.note (cyc : Nat) (p : Spilled) : Spilled :=
  if !p.woken && !p.str.parked then { p with woken := true, at_ := cyc } else p

/-- The spilled strings of a core noted. -/
def State.noteSpilled (s : State) (c : CoreId) : State :=
  s.modCore c (fun x => { x with spilled := x.spilled.map (Spilled.note s.cyc) })

/-- PHASE of the barrier at a place. -/
def State.phaseAt (s : State) (p : Place) : Byte := (s.placeGet (placeAdd p 7) 1).headD 0

/-- Every registered waiter of a barrier whose phase differs from PHASE is woken (R117, R118). -/
def State.wakeBar (s : State) (p : Place) : State :=
  let ph := s.phaseAt p
  (s.regs.filter (fun r => r.1 == p)).foldl (fun s r =>
    (s.modUid r.2.1 r.2.2 (fun t => t.wakeBar p ph)).noteSpilled r.2.1) s

/-- The first byte of a barrier object that overlaps a place's bytes. -/
def overlaps (p q : Place) (n : Nat) : Bool :=
  match p, q with
  | .scr c a, .scr d b => c == d && decide (a < b + n) && decide (b < a + 32)
  | .mem a, .mem b => decide (a < b + n) && decide (b < a + 32)
  | _, _ => false

/-- R121: after a plain write of n bytes at q, waiters of the barrier objects it overlaps are compared again. Which words are a barrier object's
is known by its registered waiters (log 93). -/
def State.rewake (s : State) (q : Place) (n : Nat) : State :=
  ((s.regs.map (·.1)).eraseDups.filter (fun p => overlaps p q n)).foldl State.wakeBar s

/-- Bytes written at a place by a plain store or an engine (R114, R121). -/
def State.putBytes (s : State) (p : Place) (bs : List Byte) : State := (s.placePut p bs).rewake p bs.length

-- ## The barrier's words (R116, R117)

/-- PBYTES: signed 28 bits. -/
def pbytes (w : W64) : Int := (w.extractLsb' 0 28).toInt
/-- PARR. -/
def parr (w : W64) : Nat := fld w 47 28
/-- ECODE. -/
def ecode (w : W64) : Nat := fld w 55 52

/-- ECODE set if it holds none (R119). -/
def setEcode (w : W64) (e : Nat) : W64 := if ecode w = 0 then fput w 55 52 e else w

/-- apply(update) of R117 on words 0 and 1: word 0 after, and whether a phase completed. -/
def barApply (w0 w1 : W64) (arrivals expected landed : Nat) : W64 × Bool :=
  let nb : Int := pbytes w0 + expected - landed
  if arrivals > 0 ∧ parr w0 = 0 then (setEcode w0 11, false)
  else if nb < -(2 ^ 27 : Nat) ∨ nb > (2 ^ 27 : Nat) - 1 then (setEcode w0 10, false)
  else
    let np := parr w0 - arrivals
    let w := fput (fput w0 47 28 np) 27 0 (BitVec.ofInt 28 nb).toNat
    if (np ≠ parr w0 ∨ nb ≠ pbytes w0) ∧ np = 0 ∧ nb = 0 then
      (fput (fput (fput w 63 56 (fld w0 63 56 + 1)) 47 28 (fld w1 47 28)) 27 0 (fld w1 26 0), true)
    else (w, false)

/-- Bytes of a barrier written at its place: the owning core's barrier unit, or the atomic unit of its home (R115, R217). -/
def State.homePut (s : State) (p : Place) (bs : List Byte) : State :=
  match p with
  | .mem l => if lineRemote (lineOf l) then s.placePut p bs else (s.placePut p bs).homeWritten (lineOf l) false
  | .scr _ _ => s.placePut p bs

/-- An update of the barrier at a place, waking its waiters when a phase completes (R117). -/
def State.barUpdate (s : State) (p : Place) (arrivals expected landed : Nat) : State :=
  let w0 := le64 (s.placeGet p 8)
  let w1 := le64 (s.placeGet (placeAdd p 8) 8)
  let r := barApply w0 w1 arrivals expected landed
  let s := s.homePut p (leBytes 8 r.1.toNat)
  if r.2 then s.wakeBar p else s

/-- ECODE reported on the barrier at a place (R119). -/
def State.barError (s : State) (p : Place) (e : Nat) : State :=
  s.homePut p (leBytes 8 (setEcode (le64 (s.placeGet p 8)) e).toNat)

/-- Word i of the barrier at a place. -/
def State.barWord (s : State) (p : Place) (i : Nat) : W64 := le64 (s.placeGet (placeAdd p (8 * i)) 8)

/-- Word i written. -/
def State.barPut (s : State) (p : Place) (i : Nat) (w : W64) : State := s.homePut (placeAdd p (8 * i)) (leBytes 8 w.toNat)

-- ## Placement (R115, R223)

/-- A location in HBM4E of this device or of another (R115, R231). -/
def locHbm (l : Nat) : Bool := if 2 ^ 48 ≤ l then tierOf (l % 2 ^ 48) == .hbm else lineHbm (lineOf l)

/-- A barrier in memory is known: its home has read its line (R61, R115, R121). -/
def State.noteBar (s : State) (l : Nat) : State :=
  let t := s.allocLlc (lineOf l)
  if t.bars.contains l then t else { t with bars := l :: t.bars }

/-- The place a barrier at its home is used: behind the stores that wait for its line (R68, R321), with permission taken back from every
L2 (R115, R217). From then on it is known as a barrier object (R121). -/
def State.barHome (s : State) (p : Place) : State × XRes Place :=
  match p with
  | .scr _ _ => if s.scrPoison p 32 then (s, .fail ordPhys 23) else (s, .ok p)
  | .mem l =>
    if lineRemote (lineOf l) then (s, .ok p)
    else if s.pend.any (fun x => x.line == lineOf l) then (s, .hold)
    else
      let r := s.homeTake (lineOf l)
      match r.2 with
      | .ok => (r.1.noteBar l, .ok p)
      | .poison => (r.1, .fail ordPhys 23)
      | .wait a => (r.1, .sleep a)
      | .busy | .dropped => (r.1, .hold)

/-- R115 on the first location of a barrier: HBM4E, no register, no page or region with the bank attribute, no declared range. -/
def State.barPlaced (s : State) (acc : Acc) (l : Nat) : Bool :=
  acc.reg.isNone && acc.bkLines.isEmpty && locHbm l && (s.rangeOf (lineOf l)).isNone

/-- Stores of the issuing string that wait at a slice. -/
def State.ownPend (s : State) : Bool := s.pend.any (fun p => p.core == s.cur.core && p.uid == s.me.uid)

/-- A remote access of the issuing split. -/
def State.ownRemote (s : State) (r : Remote) : Bool :=
  r.core == s.cur.core && r.slot == s.cur.slot && r.uid == s.me.uid && (r.lanes &&& s.sp.m) != 0

/-- An earlier access of the issuing string to an SC page may not be complete: a store that waits at a slice, or another split's remote
access that awaits its answer (R104). -/
def State.scBusy (s : State) : Bool :=
  s.ownPend || s.remote.any (fun r => r.core == s.cur.core && r.uid == s.me.uid && r.sc && !s.ownRemote r)

/-- R223 steps 1 to 3 on a barrier address: its place, or the cause. A misaligned address is refused before the later conditions of R92, or
before R108 and R113, as R203 has it and as for every access: DESIGN CHOICE (log 97). -/
def State.barCheck (s : State) (w : Who) (sp : Bool) (a : W64) : State × XRes Place :=
  if sp then
    match s.scrCheck w.core (ctxOf w.ptroot) 32 a with
    | .ok p => s.barHome p
    | r => (s, r)
  else
    let r := s.check w .contrib 32 a 32
    match r.2 with
    | .fail o c => (r.1, .fail o c)
    | .sleep x => (r.1, .sleep x)
    | .hold => (r.1, .hold)
    | .ok acc =>
      match acc.locs with
      | l :: _ =>
        if acc.reg.isNone && !lineRemote (lineOf l) && s.poisoned (lineOf l) then (r.1, .fail ordPhys 23)
        else if !r.1.barPlaced acc l then (r.1, .fail ordPhys 32)
        else if acc.sc && !w.eng && r.1.scBusy then (r.1, .hold)
        else
          let h := r.1.barHome (.mem l)
          match h.2 with
          | .ok p =>
            let d := h.1.setDirties acc.trs
            (d.1, match d.2 with | .ok => .ok p | .sleep a => .sleep a | _ => .hold)
          | x => (h.1, x)
      | [] => (r.1, .fail ordPhys 32)

/-- The ECODE of R119 that stands for a cause of R407. -/
def ecodeOf (cause : Nat) : Nat :=
  match cause with
  | 17 => 1 | 19 | 20 | 37 | 58 => 2 | 21 => 3 | 23 => 4 | 24 => 5 | 25 => 6 | 16 | 18 => 7 | 28 => 8 | 26 | 27 => 9
  | 56 | 57 => 4 | 32 => 13 | _ => 3

-- ## Meeting an outcome

/-- The issuing split's lanes wait for a sleeping link (R79): the message is held and the instruction tried again. -/
def State.sleepOn (s : State) (a : AgentId) (lanes : Mask) (va : W64) : State :=
  let mine (h : HeldMsg) : Bool := h.agent == a && h.core == s.cur.core && h.slot == s.cur.slot && h.lanes == lanes
  let s := if s.held.any mine then s
           else { s with held := s.held ++ [{ agent := a, core := s.cur.core, slot := s.cur.slot, lanes := lanes, va := va,
                                              since := s.ptime, late := false }] }
  s.holdMe

/-- A string-wide instruction at the outcome of a check: a failure traps every lane of the split (R204). -/
def State.onCheck (s : State) (r : XRes α) (tv : W64) (k : State → α → State) : State :=
  match r with
  | .ok a => k s a
  | .fail _ c => s.trapAll c tv
  | .sleep a => s.sleepOn a s.sp.e tv
  | .hold => s.holdMe

-- ## Release and acquire (R220)

/-- Every access that a release of a core's string at a scope covers is complete. -/
def State.releasedBy (s : State) (c : CoreId) (uid : Nat) (sc : Scope) : Bool :=
  !s.pend.any (fun p => p.core == c && (sc != .core || p.uid == uid)) && !s.remote.any (fun r => r.core == c && r.uid == uid)

/-- Every access that a release of the issuing string at a scope covers is complete. -/
def State.released (s : State) (sc : Scope) : Bool := s.releasedBy s.cur.core s.me.uid sc

/-- Every earlier load and returning atomic of the issuing string has returned its value (R220): none of its splits awaits another
device's answer that carries one. -/
def State.loadsBack (s : State) : Bool :=
  !s.remote.any (fun r => r.core == s.cur.core && r.uid == s.me.uid && !r.wr)

/-- An acquire at a scope (R71, R220). -/
def State.acquire (s : State) (sc : Scope) : State := if sc = .core then s else s.l1Acquire s.cur.core

/-- A commit point held until its release is done, then performed and committed, n words on (R205, R220). -/
def State.releasing (s : State) (sc : Scope) (k : State → State) : State := if s.released sc then k s else s.holdMe

/-- The issuing split's wait on a barrier, registered at its place (R118, R120). -/
def State.waitOn (s : State) (p : Place) (ph : Byte) : State :=
  let reg := (p, s.cur.core, s.me.uid)
  let isRemote : Bool := match p with | .mem l => lineRemote (lineOf l) | .scr _ _ => false
  let home (q : Place) : Option DieId := match q with | .mem l => homeOf (lineOf l) | .scr _ _ => none
  let room := decide ((s.regs.filter (fun r => home r.1 == home p)).length < 4096)
  let s := s.waitMe (.barrier p ph)
  if isRemote || s.regs.contains reg || !(room || match p with | .scr _ _ => true | .mem _ => false) then s
  else { s with regs := s.regs ++ [reg] }

/-- The phase a wait names is over (R118). -/
def State.phaseOver (s : State) (p : Place) (ph : Byte) : Bool := s.phaseAt p != ph

/-- A string's registration for a place removed once no split of it waits there. -/
def State.unreg (s : State) (p : Place) : State :=
  if s.me.allSplits.any (fun x => match x.wait with | .barrier q _ => q == p | _ => false) then s
  else { s with regs := s.regs.filter (fun r => r != (p, s.cur.core, s.me.uid)) }

end Sys2Proof.Machine
end

