-- ==== Sys2Proof/Machine/FloatOps.lean ====
section
/-!
DEFINITION. Floating-point operations on one element (spec/07 R191 to R199): codes in, code and flags out. `fz` is the flush
bit of R20, `r` the element's random value under `.rs` (R23).
-/
namespace Sys2Proof

/-- The result of an operation on elements: a code and flags. -/
abbrev FRes := Nat × Flags

/-- An input code with R20 applied. -/
def fIn (t : Ty) (fz : Bool) (c : Nat) : FVal := t.flushIn fz (t.decode c)

/-- A signalling NaN among the inputs (R18). -/
def fSig (t : Ty) (cs : List Nat) : Flags := Flags.when (cs.any (fun c => (t.decode c).isSig)) fNV

/-- The result delivered with the flags of the exact operation. -/
def fOut (t : Ty) (mode : Rnd) (fz : Bool) (r : W32) (v : FVal) (st : Bool) (f : Flags) : FRes :=
  let o := t.deliver mode false fz r v st
  (o.1, o.2 ||| f)

/-- A + B, or A − B (R192). -/
def fpAdd (t : Ty) (mode : Rnd) (fz sub : Bool) (r : W32) (a b : Nat) : FRes :=
  let y := fIn t fz b
  let s := (fIn t fz a).add (mode == .rd) (if sub then y.neg else y)
  fOut t mode fz r s.1 false s.2

/-- A × B (R192). -/
def fpMul (t : Ty) (mode : Rnd) (fz : Bool) (r : W32) (a b : Nat) : FRes :=
  let p := (fIn t fz a).mul (fIn t fz b)
  fOut t mode fz r p.1 false p.2

/-- A / B, correctly rounded (R192). -/
def fpDiv (t : Ty) (mode : Rnd) (fz : Bool) (r : W32) (a b : Nat) : FRes :=
  let q := (fIn t fz a).div (fIn t fz b)
  fOut t mode fz r q.1 q.2.1 q.2.2

/-- √A, correctly rounded (R192). -/
def fpSqrt (t : Ty) (mode : Rnd) (fz : Bool) (r : W32) (a : Nat) : FRes :=
  let q := (fIn t fz a).sqrt
  fOut t mode fz r q.1 q.2.1 q.2.2

/-- The fused forms (R194): ±(A × B) ± C rounded once. -/
def fpFma (t : Ty) (mode : Rnd) (fz negp negc : Bool) (r : W32) (a b c : Nat) : FRes :=
  let p := (fIn t fz a).mul (fIn t fz b)
  let z := fIn t fz c
  let s := (if negp then p.1.neg else p.1).add (mode == .rd) (if negc then z.neg else z)
  fOut t mode fz r s.1 false (p.2 ||| s.2 ||| fSig t [a, b, c])

/-- fmin and fmax (R193); the operands are taken after R20 (log 14). -/
def fpMinMax (t : Ty) (fz max : Bool) (a b : Nat) : FRes :=
  let x := fIn t fz a
  let y := fIn t fz b
  let v := if x.isNan then y else if y.isNan then x else if max then x.greater y else x.lesser y
  ((t.deliver .rn false false 0 v).1, fSig t [a, b])

/-- |A| (R192). -/
def fpAbs (t : Ty) (a : Nat) : FRes :=
  if (t.decode a).isNan then (t.nanCode, fSig t [a]) else (a % 2 ^ (t.width - 1), 0)

/-- −A (R192). -/
def fpNeg (t : Ty) (a : Nat) : FRes :=
  if (t.decode a).isNan then (t.nanCode, fSig t [a]) else (a ^^^ 2 ^ (t.width - 1), 0)

/-- A relation on an order −1, 0, 1 (R178). -/
def Cc.holds (cc : Cc) (o : Int) : Bool :=
  match cc with
  | .eq => o == 0
  | .ne => o != 0
  | .lt => decide (o < 0)
  | .le => decide (o ≤ 0)
  | .gt => decide (0 < o)
  | .ge => decide (0 ≤ o)

/-- fcmp on two FP32 codes (R196). -/
def fpCmp (cc : Cc) (fz : Bool) (a b : Nat) : Bool × Flags :=
  let x := fIn .f32 fz a
  let y := fIn .f32 fz b
  if x.isNan || y.isNan then
    (cc == .ne, if cc == .eq || cc == .ne then fSig .f32 [a, b] else fNV)
  else (cc.holds (x.cmp y), 0)

/-- fclass (R196): the mask of the class. -/
def fpClass (t : Ty) (a : Nat) : Nat :=
  match t.decode a with
  | .nan sig => if sig then 2 ^ 8 else 2 ^ 9
  | .inf neg => if neg then 2 ^ 0 else 2 ^ 7
  | .fin neg m e =>
    if m = 0 then (if neg then 2 ^ 3 else 2 ^ 4)
    else if t.isSub (.fin neg m e) then (if neg then 2 ^ 2 else 2 ^ 5)
    else (if neg then 2 ^ 1 else 2 ^ 6)

/-- Convert from float to float (R25 to R27, R197). -/
def fpCvtFf (dt st : Ty) (mode : Rnd) (sat fz : Bool) (r : W32) (a : Nat) : FRes :=
  dt.deliver mode sat fz r (fIn st fz a)

/-- Convert from float to integer (R28, R197): the low bits of the result. -/
def fpCvtFi (dt st : Ty) (mode : Rnd) (fz : Bool) (r : W32) (a : Nat) : FRes :=
  let o := dt.deliverInt mode r (fIn st fz a)
  ((o.1 % (2 ^ dt.width : Nat)).toNat, o.2 ||| fSig st [a])

/-- Convert from integer to float (R28, R197). -/
def fpCvtIf (dt : Ty) (mode : Rnd) (sat fz : Bool) (r : W32) (z : Int) : FRes :=
  dt.deliver mode sat fz r (.ofInt z)

-- ## The approximations of R195

/-- ⌊ln 2 * 2^96⌋. -/
def ln2fix : Nat := 0xB17217F7D1CF79ABC9E3B398

/-- Σ y^k / k! in fixed point with 96 fraction bits: `t` is the term k − 1. -/
def expGo (y : Nat) : Nat → Nat → Nat → Nat → Nat
  | 0, _, _, acc => acc
  | fuel + 1, k, t, acc =>
    let t' := t * y / (k * 2 ^ 96)
    expGo y fuel (k + 1) t' (acc + t')

/-- 2^(f / 2^96) * 2^96 for f < 2^96, within 2^16 units. -/
def exp2fix (f : Nat) : Nat := expGo (f * ln2fix / 2 ^ 96) 32 1 (2 ^ 96) (2 ^ 96)

/-- Σ z^(2j+1) / (2j+1) in fixed point with 96 fraction bits. -/
def atanhGo (z2 : Nat) : Nat → Nat → Nat → Nat → Nat
  | 0, _, _, acc => acc
  | fuel + 1, j, t, acc => atanhGo z2 fuel (j + 2) (t * z2 / 2 ^ 96) (acc + t / j)

/-- log2(m / 2^96) * 2^96 for 2^96 ≤ m < 2^97, within 2^16 units. -/
def log2fix (m : Nat) : Nat :=
  let z := (m - 2 ^ 96) * 2 ^ 96 / (m + 2 ^ 96)
  2 * atanhGo (z * z / 2 ^ 96) 42 1 z 0 * 2 ^ 96 / ln2fix

/-- A finite or infinite value as an FP32 result of an approximation. `c` is the implementation's code: it is kept if it
lies within `k` units of the FP32 spacing at the exact value (R195), or within 2^abs if `abs` is given. `x` is an exact
value or, with `err`, one within `err` units of its last place; beyond the range an infinity of its sign is kept too.
Otherwise the nearest value is delivered. -/
def within (c : W32) (neg : Bool) (m : Nat) (e : Int) (err : Nat) (k : Nat) (abs : Option Int) : Bool :=
  match fv32 c with
  | .nan _ => false
  | .inf n => n == neg && decide (128 ≤ (Nat.log2 m : Int) + e)
  | .fin n cm ce =>
    let ulp := max ((Nat.log2 m : Int) + e) (-126) - 23
    let e0 := min (min ce e) (min ulp (abs.getD 0))
    let d := (scaled n cm ce e0 - scaled neg m e e0).natAbs + err * 2 ^ (e - e0).toNat
    match abs with
    | some b => decide (d ≤ 2 ^ (b - e0).toNat)
    | none => decide (d ≤ k * 2 ^ (ulp - e0).toNat)

/-- The delivered code with the flags of R195: `exact` says that the delivered value may equal the exact one. A delivered zero is not tiny, as
R29 calls only a non-zero result tiny: it raises NX alone (DESIGN CHOICE, log 89). -/
def approxOut (fz : Bool) (c : W32) (neg : Bool) (m : Nat) (e : Int) (err : Nat) (sticky : Bool) (k : Nat)
    (abs : Option Int) : FRes :=
  let code := if within c neg m e err k abs then c.toNat else (Ty.f32.round .rn false false 0 neg m e sticky).1
  let v := Ty.f32.decode code
  let nx := sticky || v.cmp (.fin neg m e) != 0
  let large := decide (128 ≤ (Nat.log2 m : Int) + e)
  let tiny := Ty.f32.isSub v
  if fz && tiny then (Ty.f32.signed neg 0, fUF ||| fNX)
  else (code, Flags.when nx fNX ||| Flags.when large fOF ||| Flags.when (tiny && nx) fUF)

/-- frcp on an FP32 value (R195). -/
def rcp32 (fz : Bool) (a : W32) (v : FVal) : FRes :=
  match v with
  | .nan s => (Ty.f32.nanCode, Flags.when s fNV)
  | .inf n => (Ty.f32.signed n 0, 0)
  | .fin n m e =>
    if m = 0 then (Ty.f32.signed n Ty.f32.infCode, fDZ)
    else
      let q := divMag 1 0 m e
      let top := (Nat.log2 q.1 : Int) + q.2.1
      let c := if !q.2.2 && decide (-126 ≤ top) && decide (top ≤ 127) then BitVec.ofNat 32 (Ty.f32.round .rn false false 0 n q.1 q.2.1 false).1
               else Config.frcp a
      approxOut fz c n q.1 q.2.1 1 q.2.2 1 none

/-- frsq on an FP32 value (R195). -/
def rsq32 (fz : Bool) (a : W32) (v : FVal) : FRes :=
  match v with
  | .nan s => (Ty.f32.nanCode, Flags.when s fNV)
  | .inf n => if n then (Ty.f32.nanCode, fNV) else (0, 0)
  | .fin n m e =>
    if m = 0 then (Ty.f32.signed n Ty.f32.infCode, fDZ)
    else if n then (Ty.f32.nanCode, fNV)
    else
      -- 1 / √(m 2^e) with e even: ⌊√(2^200 / m)⌋ 2^(−100 − e/2)
      let odd := e % 2 != 0
      let m' := if odd then 2 * m else m
      let e' := if odd then e - 1 else e
      let s := isqrt (2 ^ 200 / m')
      let exact := s * s * m' == 2 ^ 200
      let c := if exact then BitVec.ofNat 32 (Ty.f32.round .rn false false 0 false s (-100 - e' / 2) false).1
               else Config.frsq a
      approxOut fz c false s (-100 - e' / 2) 1 (!exact) 1 none

/-- fexp2 on an FP32 value (R195). -/
def exp232 (fz : Bool) (a : W32) (v : FVal) : FRes :=
  match v with
  | .nan s => (Ty.f32.nanCode, Flags.when s fNV)
  | .inf n => if n then (0, 0) else (Ty.f32.infCode, 0)
  | .fin n m e =>
    if m = 0 then (0x3F800000, 0)
    else
      -- |A| beyond 512 gives no other result than 512
      let big := decide (9 ≤ (Nat.log2 m : Int) + e)
      let (m, e) := if big then (1, 9) else (m, e)
      let z : Int := if -96 ≤ e then scaled n m e (-96) else if n then -1 else 0
      let k := z / 2 ^ 96
      let f := (z % 2 ^ 96).toNat
      let exact := f == 0 && decide (-96 ≤ e)
      let x := exp2fix f
      let c := if exact && decide (-126 ≤ k) && decide (k < 128) then
                 BitVec.ofNat 32 (Ty.f32.round .rn false false 0 false (2 ^ 96) (k - 96) false).1
               else Config.fexp2 a
      approxOut fz c false x (k - 96) (if exact then 0 else 2 ^ 16) (!exact) 2 none

/-- flog2 on an FP32 value (R195). -/
def log232 (fz : Bool) (a : W32) (v : FVal) : FRes :=
  match v with
  | .nan s => (Ty.f32.nanCode, Flags.when s fNV)
  | .inf n => if n then (Ty.f32.nanCode, fNV) else (Ty.f32.infCode, 0)
  | .fin n m e =>
    if m = 0 then (Ty.f32.signed true Ty.f32.infCode, fDZ)
    else if n then (Ty.f32.nanCode, fNV)
    else
      let k := (Nat.log2 m : Int) + e
      if m = 2 ^ Nat.log2 m then Ty.f32.deliver .rn false false 0 (.ofInt k)
      else
        let z : Int := k * 2 ^ 96 + log2fix (m * 2 ^ 96 / 2 ^ Nat.log2 m)
        let near := k == -1 || k == 0
        approxOut fz (Config.flog2 a) (decide (z < 0)) z.natAbs (-96) (2 ^ 16) true 2 (if near then some (-22) else none)

/-- An approximation on an element of type t (R195): FP16 and BF16 are widened, and the FP32 result is rounded with `.rn`. -/
def fpApprox (f : Bool → W32 → FVal → FRes) (t : Ty) (fz : Bool) (a : Nat) : FRes :=
  let v := fIn t fz a
  let wide := (Ty.f32.deliver .rn false false 0 v).1
  let o := f fz (BitVec.ofNat 32 wide) v
  if t == .f32 then o
  else
    let p := t.deliver .rn false fz 0 (Ty.f32.decode o.1)
    (p.1, p.2 ||| o.2)

end Sys2Proof
end

