-- ==== Sys2Proof/Machine/Operands.lean ====
section
/-!
DEFINITION. The operand forms: which vector registers an instruction names (spec/06 R139, R144), the allotment check, elements
packed in lanes (spec/07 R173), values on lanes, and the shared forms of the scalar, mask and vector groups.
-/
namespace Sys2Proof

-- ## Elements

/-- Element i of a lane or pair (R173). -/
def elemAt (t : Ty) (v : W64) (i : Nat) : BitVec t.width := v.extractLsb' (t.width * i) t.width

/-- Elements packed into a lane or pair (R16, R173). -/
def packElems (t : Ty) (f : Nat → BitVec t.width) : W64 :=
  (List.range t.elems).foldl (fun acc i => acc ||| ((f i).setWidth 64 <<< (t.width * i))) 0

/-- A result of w bits in 64 bits: sign-extended for a signed type, zero-extended otherwise (R177). -/
def extend (t : Ty) (x : BitVec t.width) : W64 := if t.isSigned then x.signExtend 64 else x.setWidth 64

/-- An element as the integer that its type reads (R161). -/
def intOf (t : Ty) (x : BitVec t.width) : Int := if t.isSigned then x.toInt else (x.toNat : Int)

-- ## Integer operations on w bits (R177, R184)

/-- A shifted left by n; a count of w or more gives 0. -/
def shlBits (x : BitVec w) (n : Nat) : BitVec w := if n < w then x <<< n else 0
/-- A shifted right by n, filled with zeros. -/
def shrBits (x : BitVec w) (n : Nat) : BitVec w := if n < w then x >>> n else 0
/-- A shifted right by n, filled with the top bit; a count of w or more gives w copies of it. -/
def sarBits (x : BitVec w) (n : Nat) : BitVec w := if n < w then x.sshiftRight n else x.sshiftRight (w - 1)

/-- High w bits of the product of 2w bits, signed or natural by the type. -/
def mulHigh (t : Ty) (x y : BitVec t.width) : BitVec t.width :=
  BitVec.ofInt t.width (intOf t x * intOf t y / (2 ^ t.width : Nat))

/-- The lesser, signed or natural by the type. -/
def minBits (t : Ty) (x y : BitVec t.width) : BitVec t.width := if intOf t x ≤ intOf t y then x else y
/-- The greater. -/
def maxBits (t : Ty) (x y : BitVec t.width) : BitVec t.width := if intOf t x ≤ intOf t y then y else x

/-- An integer clamped to the type's range (R184). -/
def clampBits (t : Ty) (z : Int) : BitVec t.width := BitVec.ofInt t.width (max t.minInt (min t.maxInt z))

/-- Quotient toward zero; a divisor of 0 gives w one-bits (R179). -/
def divBits (t : Ty) (x y : BitVec t.width) : BitVec t.width :=
  if y = 0 then BitVec.allOnes t.width else BitVec.ofInt t.width ((intOf t x).tdiv (intOf t y))
/-- Remainder with the sign of A; a divisor of 0 gives A (R179). -/
def remBits (t : Ty) (x y : BitVec t.width) : BitVec t.width :=
  if y = 0 then x else BitVec.ofInt t.width ((intOf t x).tmod (intOf t y))

/-- The order of two values: −1, 0 or 1 (R178). -/
def ordOf (x y : Int) : Int := if x < y then -1 else if x = y then 0 else 1

/-- Number of one-bits. -/
def popCount (x : BitVec w) : Nat := (List.range w).foldl (fun n i => if x.getLsbD i then n + 1 else n) 0
/-- Number of trailing zeros, 0 to w. -/
def ctzBits (x : BitVec w) : Nat := ((List.range w).find? (fun i => x.getLsbD i)).getD w
/-- Number of leading zeros, 0 to w. -/
def clzBits (x : BitVec w) : Nat := ((List.range w).find? (fun i => x.getLsbD (w - 1 - i))).getD w

namespace Machine

-- ## Named vector registers (R139, R144, R209)

/-- A vector operand: the field (0 D, 1 A, 2 B, 3 C), its first register, how many registers it names, and whether it is a
source. -/
structure VOp where
  field : Nat
  reg : VReg
  n : Nat
  src : Bool
  deriving DecidableEq, Repr

/-- Registers of a value of the type. -/
def tyRegs (t : Ty) : Nat := if t.is64 then 2 else 1
/-- Registers of data of the size (R209). -/
def sizeRegs : Size → Nat
  | .b1 | .b2 | .b4 => 1 | .b8 => 2 | .b16 => 4

/-- Destination. -/
def vD (r : VReg) (n : Nat) : VOp := { field := 0, reg := r, n := n, src := false }
/-- Source in field A. -/
def vA (r : VReg) (n : Nat) : VOp := { field := 1, reg := r, n := n, src := true }
/-- Source in field B. -/
def vB (r : VReg) (n : Nat) : VOp := { field := 2, reg := r, n := n, src := true }
/-- Source in field C. -/
def vC (r : VReg) (n : Nat) : VOp := { field := 3, reg := r, n := n, src := true }

/-- The vector operands of an instruction in the order D, A, B, C. -/
def vopsOf : Instr → List VOp
  | .vadd _ t d a b | .vsub _ t d a b | .vmul _ t d a b | .vmulh _ t d a b | .vand _ t d a b | .vor _ t d a b
  | .vxor _ t d a b | .vshl _ t d a b | .vshr _ t d a b | .vsar _ t d a b | .vmin _ t d a b | .vmax _ t d a b
  | .vadds _ t d a b | .vsubs _ t d a b => [vD d (tyRegs t), vA a (tyRegs t), vB b (tyRegs t)]
  | .vabs _ _ d a | .vneg _ _ d a | .vscan _ _ _ d a | .vpop _ _ d a | .vclz _ _ d a | .vctz _ _ d a => [vD d 1, vA a 1]
  | .vaddI _ d a _ | .vsubI _ d a _ | .vmulI _ d a _ | .vmulhI _ d a _ | .vandI _ d a _ | .vorI _ d a _ | .vxorI _ d a _
  | .vshlI _ d a _ | .vshrI _ d a _ | .vsarI _ d a _ | .vminI _ d a _ | .vmaxI _ d a _ => [vD d 1, vA a 1]
  | .vcmp _ _ t _ a b => [vA a (tyRegs t), vB b (tyRegs t)]
  | .vcmpI _ _ _ a _ => [vA a 1]
  | .vsel _ t d a b _ => [vD d (tyRegs t), vA a (tyRegs t), vB b (tyRegs t)]
  | .vmov _ t d a | .vshup _ t d a _ | .vshdn _ t d a _ | .vshxor _ t d a _ | .vrot _ t d a _ =>
      [vD d (tyRegs t), vA a (tyRegs t)]
  | .vbcast _ t d _ | .vsetl _ t d _ _ => [vD d (tyRegs t)]
  | .vlid _ d => [vD d 1]
  | .vgetl t _ a _ => [vA a (tyRegs t)]
  | .vperm _ t d a b => [vD d (tyRegs t), vA a (tyRegs t), vB b 1]
  | .vred _ _ t _ a => [vA a (tyRegs t)]
  | .vmad _ _ d a b c | .vdot4 _ _ d a b c => [vD d 1, vA a 1, vB b 1, vC c 1]
  | .vext _ _ d a b => [vD d 1, vA a 1, vB b 1]
  | .fadd _ _ _ d a b | .fsub _ _ _ d a b | .fmul _ _ _ d a b | .fdiv _ _ _ d a b => [vD d 1, vA a 1, vB b 1]
  | .fmin _ _ d a b | .fmax _ _ d a b => [vD d 1, vA a 1, vB b 1]
  | .fsqrt _ _ _ d a => [vD d 1, vA a 1]
  | .fabs _ _ d a | .fneg _ _ d a | .frcp _ _ d a | .frsq _ _ d a | .fexp2 _ _ d a | .flog2 _ _ d a | .fclass _ _ d a =>
      [vD d 1, vA a 1]
  | .ffma _ _ _ d a b c | .ffms _ _ _ d a b c | .ffnma _ _ _ d a b c | .ffnms _ _ _ d a b c =>
      [vD d 1, vA a 1, vB b 1, vC c 1]
  | .fcmp _ _ _ a b => [vA a 1, vB b 1]
  | .fcvtFf _ dt ty _ _ _ d a | .fcvtFi _ dt ty _ _ _ d a | .fcvtIf _ dt ty _ _ _ d a => [vD d (tyRegs dt), vA a (tyRegs ty)]
  | .fpack _ dt _ _ d a b =>
      if dt.width = 8 then [vD d 1, vA a 2, vB b 2] else [vD d 1, vA a 1, vB b 1]
  | .funpack _ _ _ d a => [vD d 2, vA a 1]
  | .qblk _ _ _ d a | .dqblk _ _ d a => [vD d 1, vA a 1]
  | .ld _ sz _ d _ _ _ => [vD d (sizeRegs sz)]
  | .st _ sz _ b _ => [vB b (sizeRegs sz)]
  | .gth _ sz _ d a _ _ => [vD d (sizeRegs sz), vA a 2]
  | .sct _ sz a b _ => [vA a 2, vB b (sizeRegs sz)]
  | .spld _ sz am _ d a _ => vD d (sizeRegs sz) :: (if am then [] else [vA a 1])
  | .spst _ sz am a b _ => (if am then [] else [vA a 1]) ++ [vB b (sizeRegs sz)]
  | .pf _ _ a _ | .resid _ a _ => [vA a 2]
  | .amo _ op t _ ret sp d a b c =>
      (if ret then [vD d (tyRegs t)] else []) ++ [vA a (if sp then 1 else 2), vB b (tyRegs t)]
        ++ (if op = .cas then [vC c (tyRegs t)] else [])
  | .racc _ t _ a b => [vA a 2, vB b (tyRegs t)]
  | .bcmd _ _ a _ => [vA a 1]
  | .rdsr _ n d => if sysLane n then [vD d (if sysNarrow n then 1 else 2)] else []
  | .wrsr _ n a => if sysLane n then [vA a (if sysNarrow n then 1 else 2)] else []
  | _ => []

/-- The register holds a value on each lane of `e` (R144, R405). -/
def Str.holds (t : Str) (e : Mask) (r : Nat) : Bool :=
  (t.vreg.toArray.getD r none).isSome && t.gone.all (fun g => g.1 != r || g.2 &&& e == 0)

/-- The first register of an operand group that fails R144 for a split with the lanes `e`. -/
def Str.vopFail (t : Str) (e : Mask) (o : VOp) : Option Nat :=
  ((List.range o.n).map (fun i => o.reg.toNat + i)).find? (fun r =>
    decide (t.allot ≤ r) || (o.src && !t.holds e r))

/-- R144: the STVAL of the allotment trap, if some operand fails. -/
def Str.allotFail (t : Str) (e : Mask) (os : List VOp) : Option W64 :=
  os.findSome? (fun o => (t.vopFail e o).map (fun r => BitVec.ofNat 64 (o.field * 256 + r)))

/-- The named registers that a tile operation has on loan (R261). -/
def Str.loaned (t : Str) (os : List VOp) : List VReg :=
  (os.flatMap (fun o => (List.range o.n).map (fun i => VReg.plus o.reg i))).filter (fun r => t.loans.any (fun x => x.1 == r))

/-- R261: loaned registers that an instruction names hold undefined values on every lane, each register a fresh free value. -/
def State.spoil (s : State) (os : List VOp) : State :=
  (s.me.loaned os).foldl (fun s r =>
    { s.modMe (fun t => t.setV s.cyc r (BitVec.allOnes 32) (freeWord s.free)) with free := s.free + 1 }) s

/-- The guard of an instruction that names vector registers; k0 for one without (R160). -/
def guardOf : Instr → KReg
  | .vadd g .. | .vsub g .. | .vmul g .. | .vmulh g .. | .vand g .. | .vor g .. | .vxor g .. | .vshl g .. | .vshr g .. | .vsar g ..
  | .vmin g .. | .vmax g .. | .vabs g .. | .vneg g .. | .vadds g .. | .vsubs g .. | .vaddI g .. | .vsubI g .. | .vmulI g ..
  | .vmulhI g .. | .vandI g .. | .vorI g .. | .vxorI g .. | .vshlI g .. | .vshrI g .. | .vsarI g .. | .vminI g .. | .vmaxI g ..
  | .vcmp g .. | .vcmpI g .. | .vsel g .. | .vmov g .. | .vbcast g .. | .vlid g .. | .vsetl g .. | .vperm g .. | .vshup g ..
  | .vshdn g .. | .vshxor g .. | .vrot g .. | .vred g .. | .vscan g .. | .vmad g .. | .vdot4 g .. | .vpop g .. | .vclz g ..
  | .vctz g .. | .vext g .. | .fadd g .. | .fsub g .. | .fmul g .. | .fmin g .. | .fmax g .. | .fdiv g .. | .fsqrt g .. | .fabs g ..
  | .fneg g .. | .ffma g .. | .ffms g .. | .ffnma g .. | .ffnms g .. | .frcp g .. | .frsq g .. | .fexp2 g .. | .flog2 g ..
  | .fcmp g .. | .fclass g .. | .fcvtFf g .. | .fcvtFi g .. | .fcvtIf g .. | .fpack g .. | .funpack g .. | .qblk g .. | .dqblk g ..
  | .ld g .. | .st g .. | .gth g .. | .sct g .. | .spld g .. | .spst g .. | .pf g .. | .resid g .. | .amo g .. | .racc g ..
  | .bcmd g .. | .rdsr g .. | .wrsr g .. => g
  | _ => 0

/-- The issuing split has gone past its instruction: no hold has stopped it and no trap has taken all its lanes. -/
def State.wentOn (s u : State) : Bool := !u.sp.enter && u.sp.pc != s.sp.pc

/-- An instruction under the allotment checks of R144: the trap (cause 6) on every lane of the split, or its own effect. If it reads or writes
loaned registers, they are spoiled before and after; one that has no active lane, is held, or traps on every lane touches none (R261). -/
def State.vec (s : State) (i : Instr) (k : State → State) : Res :=
  match s.me.allotFail s.sp.e (vopsOf i) with
  | some tv => .next (s.trapAll 6 tv)
  | none =>
    if (s.me.loaned (vopsOf i)).isEmpty || s.active (guardOf i) == 0 then .next (k s)
    else
      let u := k (s.spoil (vopsOf i))
      .next (if s.wentOn u then u.spoil (vopsOf i) else k s)

-- ## Values on lanes

/-- The operand of a type on lane l: a register, or a pair with the low half in the even one (R139, R173). -/
def State.opnd (s : State) (t : Ty) (r : VReg) (l : Nat) : W64 :=
  if t.is64 then s.getV2 r l else (s.getV r l).setWidth 64

/-- A value of a type written on some lanes of the issuing string (R144, R172). With no active lane nothing is written
(R160). -/
def State.putV (s : State) (t : Ty) (r : VReg) (lanes : Mask) (f : Nat → W64) : State :=
  if lanes = 0 then s
  else
    let s' := s.modMe (fun x => x.setV s.cyc r lanes (fun l => (f l).setWidth 32))
    if t.is64 then s'.modMe (fun x => x.setV s.cyc (VReg.plus r 1) lanes (fun l => (f l).extractLsb' 32 32)) else s'

/-- One register written on some lanes. -/
def State.put1 (s : State) (r : VReg) (lanes : Mask) (f : Nat → W32) : State :=
  if lanes = 0 then s else s.modMe (fun x => x.setV s.cyc r lanes f)

-- ## The scalar group (R176, R177)

/-- An R-form on the low w bits of two scalar registers, the result extended into sD. -/
def State.sBin (s : State) (t : Ty) (d a b : SReg) (f : BitVec t.width → BitVec t.width → BitVec t.width) : Res :=
  .next ((s.setS d (extend t (f ((s.getS a).setWidth t.width) ((s.getS b).setWidth t.width)))).adv 1)

/-- A shift: the count is the whole of sB. -/
def State.sShift (s : State) (t : Ty) (d a b : SReg) (f : BitVec t.width → Nat → BitVec t.width) : Res :=
  .next ((s.setS d (extend t (f ((s.getS a).setWidth t.width) (s.getS b).toNat))).adv 1)

/-- An I-form: the sign-extended immediate, as `.i64`. -/
def State.sImm (s : State) (d a : SReg) (imm : W32) (f : W64 → W64 → W64) : Res :=
  .next ((s.setS d (f (s.getS a) (imm.signExtend 64))).adv 1)

/-- An R-form of one source that counts bits (R181). -/
def State.sCount (s : State) (t : Ty) (d a : SReg) (f : BitVec t.width → Nat) : Res :=
  .next ((s.setS d (BitVec.ofNat 64 (f ((s.getS a).setWidth t.width)))).adv 1)

-- ## The mask group (R182)

/-- A mask result in kD. -/
def State.kSet (s : State) (d : KReg) (v : Mask) : Res := .next ((s.setK d v).adv 1)
/-- A scalar result of a mask. -/
def State.kToS (s : State) (d : SReg) (v : W64) : Res := .next ((s.setS d v).adv 1)

-- ## The vector integer groups (R172, R184)

/-- Two sources, element by element on the active lanes. -/
def State.vBin (s : State) (g : KReg) (t : Ty) (d a b : VReg)
    (f : BitVec t.width → BitVec t.width → BitVec t.width) : State :=
  (s.putV t d (s.active g) (fun l =>
    let x := s.opnd t a l
    let y := s.opnd t b l
    packElems t (fun i => f (elemAt t x i) (elemAt t y i)))).adv 1

/-- One source, element by element. -/
def State.vUn (s : State) (g : KReg) (t : Ty) (d a : VReg) (f : BitVec t.width → BitVec t.width) : State :=
  (s.putV t d (s.active g) (fun l =>
    let x := s.opnd t a l
    packElems t (fun i => f (elemAt t x i)))).adv 1

/-- Three sources, element by element. -/
def State.vTern (s : State) (g : KReg) (t : Ty) (d a b c : VReg)
    (f : BitVec t.width → BitVec t.width → BitVec t.width → BitVec t.width) : State :=
  (s.putV t d (s.active g) (fun l =>
    let x := s.opnd t a l
    let y := s.opnd t b l
    let z := s.opnd t c l
    packElems t (fun i => f (elemAt t x i) (elemAt t y i) (elemAt t z i)))).adv 1

/-- A 32-bit source and the immediate (R184). -/
def State.vImm (s : State) (g : KReg) (d a : VReg) (imm : W32) (f : W32 → W32 → W32) : State :=
  (s.put1 d (s.active g) (fun l => f (s.getV a l) imm)).adv 1

/-- A mask with the bits of the active lanes set to a relation, the others kept (R185). -/
def State.vRel (s : State) (g : KReg) (d : KReg) (p : Nat → Bool) : State :=
  let act := s.active g
  if act = 0 then s
  else (s.setK d ((s.getK d &&& ~~~act) ||| Mask.ofLanes (act.lanes.filter p)))

/-- Source lanes chosen per lane (R187). -/
def State.vLane (s : State) (g : KReg) (t : Ty) (d a : VReg) (src : Nat → Nat) : State :=
  (s.putV t d (s.active g) (fun l => s.opnd t a (src l))).adv 1

-- ## The floating groups (R191)

/-- One step of the generator (R23). -/
def genStep (x : W32) : W32 :=
  let x := x ^^^ (x <<< 13)
  let x := x ^^^ (x >>> 17)
  x ^^^ (x <<< 5)

/-- n draws from a generator state: the values in order and the state after (R23). -/
def draws : Nat → W32 → List W32 × W32
  | 0, x => ([], x)
  | n + 1, x =>
    let y := genStep x
    let r := draws n y
    (y :: r.1, r.2)

/-- Flags staged at the issuing split (R201). -/
def State.stage (s : State) (f : Flags) : State := s.modSp (fun x => { x with t := x.t ||| f })

/-- Generators of the lanes advanced by n draws each when the rounding is stochastic (R23, R191). -/
def State.drawn (s : State) (mode : Rnd) (lanes : Mask) (n : Nat) : State :=
  if mode = .rs then s.modMe (fun t => t.modLanes lanes (fun x => { x with gen := (draws n x.gen).2 })) else s

/-- The random values of lane l for n elements (R23). -/
def State.rand (s : State) (mode : Rnd) (l n : Nat) : List W32 :=
  if mode = .rs then (draws n (s.me.lane l).gen).1 else List.replicate n 0

/-- Elements computed on lane l: codes and flags. -/
def elemsRes (n : Nat) (rs : List W32) (f : Nat → W32 → FRes) : List FRes :=
  (List.range n).map (fun i => f i (rs.getD i 0))

/-- Codes of width w packed from element `at_` upward. -/
def packCodesAt (w at_ : Nat) (cs : List Nat) : Nat := packCodes w cs * 2 ^ (w * at_)

/-- A floating operation of `n` results per active lane: `f l i r` is element i of lane l with the random value r, packed
at width w from element `at_` of D; the bits outside are kept (R145, R197). -/
def State.fElems (s : State) (g : KReg) (mode : Rnd) (dt : Ty) (at_ n : Nat) (d : VReg) (f : Nat → Nat → W32 → FRes) :
    State :=
  let act := s.active g
  let out (l : Nat) : List FRes := elemsRes n (s.rand mode l n) (f l)
  let w := dt.width
  let keep : Nat := 2 ^ (w * n) - 1
  let mask : W64 := BitVec.ofNat 64 (keep * 2 ^ (w * at_))
  let fl := act.lanes.foldl (fun a l => (out l).foldl (fun a r => a ||| r.2) a) (0 : Flags)
  let val (l : Nat) : W64 := BitVec.ofNat 64 (packCodesAt w at_ ((out l).map (·.1)))
  let s1 := (s.drawn mode act n).putV dt d act (fun l => (s.opnd dt d l &&& ~~~mask) ||| (val l &&& mask))
  (s1.stage fl).adv 1

/-- A floating operation on one source. -/
def State.fUn (s : State) (g : KReg) (t : Ty) (mode : Rnd) (d a : VReg) (f : Bool → W32 → Nat → FRes) : State :=
  s.fElems g mode t 0 t.elems d (fun l i r => f s.me.fz r (elemAt t (s.opnd t a l) i).toNat)

/-- A floating operation on two sources. -/
def State.fBin (s : State) (g : KReg) (t : Ty) (mode : Rnd) (d a b : VReg) (f : Bool → W32 → Nat → Nat → FRes) : State :=
  s.fElems g mode t 0 t.elems d (fun l i r =>
    f s.me.fz r (elemAt t (s.opnd t a l) i).toNat (elemAt t (s.opnd t b l) i).toNat)

/-- A floating operation on three sources (R194). -/
def State.fTern (s : State) (g : KReg) (t : Ty) (mode : Rnd) (d a b c : VReg)
    (f : Bool → W32 → Nat → Nat → Nat → FRes) : State :=
  s.fElems g mode t 0 t.elems d (fun l i r =>
    f s.me.fz r (elemAt t (s.opnd t a l) i).toNat (elemAt t (s.opnd t b l) i).toNat (elemAt t (s.opnd t c l) i).toNat)

end Machine
end Sys2Proof
end

