-- ==== Sys2Proof/Machine/Regs.lean ====
section
/-!
DEFINITION. The device-register window (spec/02 R45, R49 to R55; spec/13 R341, R350; spec/15 R410, R412; spec/16 R424 to R430; spec/17
R450 to R453): loads and stores of registers. A store whose register starts a step of the device puts that step's event
at the head of the agenda, so that it is performed before anything else.
-/
namespace Sys2Proof.Machine
open Sys2Proof

/-- Number of working clusters (R412). -/
def State.clcount (s : State) : Nat := popCount s.um.clmask

/-- The context occupies a core: a string in a slot or spilled, or a partition (R410). -/
def State.occupies (s : State) (c : CoreId) (ctx : BitVec 12) : Bool :=
  s.cores[c].strs.any (fun t => t.present && t.ctx == ctx) || s.cores[c].parts.any (fun p => p.ctx == ctx)
    || s.cores[c].spilled.any (fun p => p.str.ctx == ctx)

/-- Every core, ascending. -/
def allCores : List CoreId := List.finRange 256
/-- Every slot, ascending. -/
def allSlots : List SlotId := List.finRange 16

/-- The context occupies some core. -/
def State.occupied (s : State) (ctx : BitVec 12) : Bool := allCores.any (fun c => s.occupies c ctx)

-- ## Table words

/-- The context of a context table entry (R410). -/
def ctabCtx (e : Vector W64 4) : BitVec 12 := e[0].extractLsb' 0 12
/-- V of a context table entry. -/
def ctabV (e : Vector W64 4) : Bool := e[0].getLsbD 63
/-- STATE of a context table entry. -/
def ctabSt (e : Vector W64 4) : Nat := fld e[0] 58 56
/-- PRIO of a context table entry. -/
def ctabPrio (e : Vector W64 4) : Nat := fld e[0] 62 59

/-- The valid entry of a context (R410). -/
def State.ctxEntry (s : State) (ctx : BitVec 12) : Option (Fin 64) :=
  (List.finRange 64).find? (fun i => ctabV s.ctab[i] && ctabCtx s.ctab[i] == ctx)

/-- The context has taken a fault (R409). -/
def State.faulted (s : State) (ctx : BitVec 12) : Bool :=
  match s.ctxEntry ctx with | some i => ctabSt s.ctab[i] == 3 | none => false

/-- A SAVE of the context is at work (R415). -/
def State.saving (s : State) (ctx : BitVec 12) : Bool :=
  s.ctxstat.getLsbD 63 && fld s.ctxcmd 63 60 == 1 && (match s.ctxEntry ctx with | some i => fld s.ctxstat 5 0 == i.val | none => false)

/-- A word with the bits of `mask` taken from `v`. -/
def maskIn (old mask v : W64) : W64 := (old &&& ~~~mask) ||| (v &&& mask)

/-- Word w of entry i of a table, changed. -/
def setWord (t : Vector (Vector W64 n) m) (i w : Nat) (v : W64) : Vector (Vector W64 n) m :=
  if h : i < m then
    if k : w < n then t.set i (t[i].set w v) else t
  else t

/-- Word w of entry i of a table. -/
def getWord (t : Vector (Vector W64 n) m) (i w : Nat) : W64 :=
  if h : i < m then
    if k : w < n then t[i][w] else 0
  else 0

-- ## RESQ and ELOG (R451, R452)

/-- The oldest residency request taken (R451): the word returned. -/
def State.resqTake (s : State) : State × W64 :=
  match s.resq with
  | [] => (s, 0)
  | (ctx, va) :: r => ({ s with resq := r }, (1#1 ++ 0#6 ++ ctx ++ va : W64))

/-- The words of a record (R452). -/
def elogWords (e : ERec) : W64 × W64 := (1#1 ++ e.kind ++ e.agent ++ 0#4 ++ e.pa, e.time)

/-- The oldest error record taken, the loss record entered in the freed place (R452). -/
def State.elogTake (s : State) : State × W64 × W64 :=
  match s.elog with
  | [] => (s, 0, 0)
  | e :: r =>
    match s.elogLost with
    | some t =>
      let s := State.raiseIrq { s with elog := r ++ [{ kind := 9, agent := 0, pa := 0, time := t, cause := none }], elogLost := none } 2
      (s, elogWords e)
    | none => ({ s with elog := r }, elogWords e)

-- ## Loads

/-- The bits of region words 0 to 3 that are not reserved (R49). -/
def regionMask (w : Nat) : W64 :=
  match w with
  | 0 | 1 => 0x0000FFFFFFE00000
  | 2 => 0x831F1FFF00000FFF
  | _ => 0x0000000FFFFFFF00

/-- The value of an 8-byte register; an absent one reads zero (R45). -/
def State.regWord (s : State) (a : Nat) : W64 :=
  let o := a - regBase
  if 0x10000 ≤ o ∧ o < 0x10800 then getWord s.regions ((o - 0x10000) / 32) (o % 32 / 8) &&& regionMask (o % 32 / 8)
  else if o = 0x10800 then s.rtstat
  else if o = 0x10808 then s.um.mdie.setWidth 64
  else if 0x10810 ≤ o ∧ o < 0x10810 + 96 then BitVec.ofNat 64 (s.pchCount ((o - 0x10810) / 8))
  else if o = 0x20000 then s.ldoor0
  else if o = 0x20008 then s.ldoor1
  else if o = 0x20010 then s.lstat
  else if 0x21000 ≤ o ∧ o < 0x21100 then
    match s.bazaar.toArray[(o - 0x21000) / 16]? with
    | some b => if o % 16 = 0 then b.w0 else b.w1
    | none => 0
  else if 0x30000 ≤ o ∧ o < 0x30800 then getWord s.ctab ((o - 0x30000) / 32) (o % 32 / 8)
  else if o = 0x30800 then s.ctxcmd
  else if o = 0x30808 then s.ctxroot
  else if o = 0x30810 then s.ctxstat
  else if o = 0x30818 then BitVec.ofNat 64 s.clcount
  else if o = 0x40008 then s.hipend.setWidth 64
  else if 0x40100 ≤ o ∧ o < 0x40200 then getWord s.apert ((o - 0x40100) / 16) (o % 16 / 8)
  else if 0x50000 ≤ o ∧ o < 0x50800 then getWord s.fat ((o - 0x50000) / 32) (o % 32 / 8)
  else if 0x51000 ≤ o ∧ o < 0x510C0 then
    match s.cport.toArray[(o - 0x51000) / 8]? with | some v => v.setWidth 64 | none => 0
  else if o = 0x60000 then (BitVec.ofBool s.ready).setWidth 64
  else if o = 0x60008 then s.pwrcap
  else if o = 0x60010 then s.therm.setWidth 64
  else if o = 0x60018 then s.lsidle
  else if o = 0x60040 then s.mcmd
  else if o = 0x60048 then s.mstat
  else 0

/-- A load of n bytes from the register window (R45, R450 to R452): the bytes. -/
def State.regLoad (s : State) (a n : Nat) : State × List Byte :=
  if a = regBase + 0x60030 then
    if n = 16 then
      let r := s.elogTake
      (r.1, leBytes 8 r.2.1.toNat ++ leBytes 8 r.2.2.toNat)
    else (s, List.replicate n 0)
  else if n = 8 ∧ a % 8 = 0 then
    if a = regBase + 0x60020 then
      let r := s.resqTake
      (r.1, leBytes 8 r.2.toNat)
    else (s, leBytes 8 (s.regWord a).toNat)
  else (s, List.replicate n 0)

-- ## Stores

/-- A write of CTXCMD (R412): ignored while BUSY. -/
def State.writeCtxcmd (s : State) (v : W64) : State :=
  if s.ctxstat.getLsbD 63 then s
  else
    let s := { s with ctxcmd := maskIn 0 0xFFCFFFFFFFF00000 v }
    let e : Fin 64 := ⟨fld v 59 54, by have : fld v 59 54 < 2 ^ 6 := Nat.mod_lt _ (by decide); simpa using this⟩
    match fld v 63 60 with
    | 1 => s.soon (.ctxSave e)
    | 2 => s.soon (.ctxRestore e)
    | 3 => s.soon (.ctxPreempt e (fld v 51 43) (fld v 42 38) (fld v 37 33) (fld v 32 20))
    | 4 => s.soon (.ctxEnd e)
    | _ => { s with ctxstat := fput (fput s.ctxstat 15 12 6) 5 0 e.val }

/-- A write of MCMD (R450, R453): ignored while BUSY. -/
def State.writeMcmd (s : State) (v : W64) : State :=
  if s.mstat.getLsbD 63 then s
  else
    let s := { s with mcmd := maskIn 0 0xF000FFFFFFFFFFFF v }
    match fld v 63 60 with
    | 1 => s.soon (.mcmdRoutes (fld v 47 0))
    | 2 => s.soon (.mcmdStealRing (fld v 47 0))
    | _ => { s with mstat := 1 }

/-- A write of an 8-byte register (R8, R45). -/
def State.regStore (s : State) (a : Nat) (v : W64) : State :=
  let o := a - regBase
  if h : 0x10000 ≤ o ∧ o < 0x10800 then
    let i : Fin 64 := ⟨(o - 0x10000) / 32, by omega⟩
    let w : Fin 4 := ⟨o % 32 / 8, by omega⟩
    if w.val = 2 then
      (if v.getLsbD 63 then s.soon (.regionEntryValidate i v) else s.soon (.regionEntryInvalidate i v))
    else s.soon (.regionWordWrite i w v)
  else if o = 0x20000 then { s with ldoor0 := maskIn s.ldoor0 0x01FFFFFFFFFFFFFF v }
  else if o = 0x20008 then (if s.lstat.getLsbD 63 then s else s.soon (.launchSubmit v))
  else if h : 0x21000 ≤ o ∧ o < 0x21100 then
    let q : Fin 16 := ⟨(o - 0x21000) / 16, by omega⟩
    if o % 16 = 0 then
      (if v.getLsbD 63 then s.soon (.bazaarQueueEnable q v) else s.soon (.bazaarQueueDisable q v))
    else if (s.bazaar[q]).w0.getLsbD 63 then s
    else { s with bazaar := s.bazaar.set q { s.bazaar[q] with w1 := maskIn 0 0xFFF000000000011F v } }
  else if 0x30000 ≤ o ∧ o < 0x30800 then
    let i := (o - 0x30000) / 32
    let w := o % 32 / 8
    let locked := match s.ctab.toArray[i]? with
      | some e => ctabSt e == 0 && s.occupied (ctabCtx e)
      | none => true
    match w with
    | 0 => { s with ctab := setWord s.ctab i 0 (maskIn (getWord s.ctab i 0) 0xF800000000000FFF v) }
    | 1 => if locked then s else { s with ctab := setWord s.ctab i 1 (maskIn 0 0x0000FFFFFFFFF000 v) }
    | 2 => if locked then s else { s with ctab := setWord s.ctab i 2 (maskIn 0 0x7F7F v) }
    | _ => s
  else if o = 0x30800 then s.writeCtxcmd v
  else if o = 0x30808 then { s with ctxroot := v }
  else if o = 0x40000 then s.raiseIrq 1
  else if o = 0x40008 then { s with hipend := s.hipend &&& ~~~(v.setWidth 16) }
  else if 0x40100 ≤ o ∧ o < 0x40200 then
    let m : W64 := if o % 16 = 0 then 0xC000FFFFFFFFF000 else 0x0000FFFFFFFFF000
    { s with apert := setWord s.apert ((o - 0x40100) / 16) (o % 16 / 8) (maskIn 0 m v) }
  else if 0x50000 ≤ o ∧ o < 0x50800 then
    let w := o % 32 / 8
    let m : W64 := if w = 0 then 0xF00000000FFFFFFF else if w = 3 then 0 else 0x0000FFFFFFFFF000
    { s with fat := setWord s.fat ((o - 0x50000) / 32) w (maskIn 0 m v) }
  else if o = 0x60008 then
    (if 500 ≤ fld v 12 0 ∧ fld v 12 0 ≤ 3600 then { s with pwrcap := maskIn 0 0x1FFF v } else s)
  else if o = 0x60018 then { s with lsidle := maskIn 0 0xFFFF v }
  else if o = 0x60040 then s.writeMcmd v
  else s

/-- A store of n bytes to the register window: as REGISTER_WRITE events, one per covered register; an access that does not
cover exactly one register writes nothing (R45). -/
def State.regStoreEv (s : State) (a n : Nat) (v : Nat) : State :=
  if n = 8 ∧ a % 8 = 0 then s.later (.registerWrite a n (BitVec.ofNat 64 v)) else s

end Sys2Proof.Machine
end

