-- ==== Sys2Proof/Machine/MemAccess.lean ====
section
/-!
DEFINITION. Accesses of the lanes of one instruction (spec/08 R202 to R211): every lane is checked first, then the accesses are
performed in ascending lane order. Loads of views (spec/10 R289), stores under leases (spec/03 R68), remote accesses (spec/16 R431,
R432), and the range-list counts (spec/04 R102).
-/
namespace Sys2Proof.Machine
open Sys2Proof

-- ## Counts of a launch's ranges (R101, R102)

/-- An entry of a range list takes part (R101). -/
def okRange (e : W64 × W64) : Bool :=
  fld e.1 63 57 == 0 && fld e.2 59 48 == 0 && fld e.2 47 0 != 0 && fld e.2 47 0 % 128 == 0 && fld e.1 6 0 == 0
    && canonical (va57 e.1) && canonical (va57 e.1 + BitVec.ofNat 64 (fld e.2 47 0 - 1))

/-- The lowest-indexed range that an address falls in. -/
def rangeIndex (rs : List (W64 × W64)) (va : W64) : Option Nat :=
  rs.findIdx? (fun e => okRange e && decide ((va57 e.1).toNat ≤ va.toNat) && decide (va.toNat < (va57 e.1).toNat + fld e.2 47 0))

/-- An L2 access of a launch counted in its range, and a miss if the die's L2 holds no copy (R102). -/
def State.countRange (s : State) (launch : Option (Fin 64)) (c : CoreId) (va : W64) (line : Nat) : State :=
  match launch with
  | none => s
  | some i =>
    match rangeIndex s.launches[i].rlist va with
    | none => s
    | some k =>
      let miss := if (s.l2Get (agentOf (dieOf c)) line).isSome then 0 else 1
      let up (x : Nat × Nat) : Nat × Nat := (satAdd 32 x.1 1, satAdd 32 x.2 miss)
      { s with launches := s.launches.set i { s.launches[i] with counts := s.launches[i].counts.modify k up } }

/-- A line that the issuing split accesses counted, unless it hits the core's L1: once for an instruction, however many of its lanes name it
and however often it is tried again (R102; log 25). -/
def State.countLine (s : State) (va : W64) (load : Bool) (line : Nat) : State :=
  if (load && s.l1Hit s.cur.core false line) || lineRemote line || s.counted.contains (s.cur, line) then s
  else
    let t := s.countRange s.me.launch s.cur.core va line
    { t with counted := (s.cur, line) :: t.counted }

/-- The lines of an access of the issuing split counted (R102). -/
def State.countOnce (s : State) (va : W64) (a : Acc) (load : Bool) : State :=
  match s.me.launch with
  | none => s
  | some i => if s.launches[i].rlist.isEmpty then s else a.lines.foldl (fun s l => s.countLine va load l) s

/-- EXP of the range of a launch's list that an address falls in is 0 or 1 (R101). -/
def State.lowRange (s : State) (launch : Option (Fin 64)) (va : W64) : Bool :=
  match launch with
  | none => false
  | some i =>
    match (rangeIndex s.launches[i].rlist va).bind (fun k => s.launches[i].rlist[k]?) with
    | some e => decide (fld e.2 63 60 ≤ 1)
    | none => false

/-- Lines that a die's L2 has filled since the state `s0` for a range with EXP 0 or 1 stand at the lowest replacement priority (R101). -/
def State.insertLow (s s0 : State) (launch : Option (Fin 64)) (c : CoreId) (va : W64) (lines : List Nat) : State :=
  let a := agentOf (dieOf c)
  if s0.lowRange launch va then
    { s with l2 := s.l2.map (fun e =>
        if e.agent == a && lines.contains e.line && (s0.l2Get a e.line).isNone then { e with low := true } else e) }
  else s

-- ## One lane checked

/-- What the checks of one lane give. -/
inductive LaneChk where
  /-- The access goes on: its bytes, the locations that read as zero (R289, ZERO), and whether the lane's bit of kN is
  cleared. -/
  | go (a : Acc) (zeros : List Nat) (clear : Bool)
  /-- The lane's page is not resident and the load carries `.res` (R97). -/
  | nonres
  | trap (code : Nat)
  | sleep (a : AgentId)
  /-- The instruction is tried again (a fill behind stores, a view that must wait, a remote answer). -/
  | again
  deriving DecidableEq, Repr

/-- The blocks of a view that locations touch, checked by R289: locations that read as zero, whether the lane's bit of kN
is cleared, or the outcome that stops the read. -/
def State.viewLocs (s : State) (who : Reader) (engine : Bool) (locs : List Nat) : State × LaneChk × List Nat :=
  let hits := locs.filterMap (fun l => (s.viewAt l).map (fun x => (l, x)))
  let blocks := (hits.map (fun x => x.2)).eraseDups
  blocks.foldl (fun (r : State × LaneChk × List Nat) (b : Fin 64 × View × Nat) =>
    let (s, out, zs) := r
    let q := s.viewBlock who b.1 b.2.1 b.2.2 engine
    let mine := (hits.filter (fun x => x.2.1 == b.1 && x.2.2.2 == b.2.2)).map (·.1)
    match out, q.2 with
    | .trap c, _ => (q.1, .trap c, zs)
    | .again, .stale => (q.1, .trap 56, zs)
    | .again, .faulted => (q.1, .trap 57, zs)
    | .again, _ => (q.1, .again, zs)
    | o, .bytes => (q.1, o, zs)
    | _, .clear => (q.1, .nonres, zs)
    | _, .zero => (q.1, .nonres, zs ++ mine)
    | _, .wait => (q.1, .again, zs)
    | _, .stale => (q.1, .trap 56, zs)
    | _, .faulted => (q.1, .trap 57, zs)) (s, .go { locs := [], reg := none, sc := false, scLines := [], bkLines := [],
                                                    sealLines := [], remote := false, trs := [] } [] false, [])

/-- A remote access of some lanes at one address, to a location: its answer is awaited first (R431, R432). True once it may be performed,
which it is not while no port of its route can carry it. -/
def State.remoteGo (s : State) (lanes : Mask) (va : W64) (loc : Nat) (wr sc : Bool) : State × Bool :=
  let mine (r : Remote) : Bool := r.core == s.cur.core && r.slot == s.cur.slot && r.uid == s.me.uid && r.lanes == lanes && r.va == va && !r.code
  if s.remote.any mine then (s, s.flitGoes loc)
  else ({ s with remote := s.remote ++ [{ core := s.cur.core, slot := s.cur.slot, uid := s.me.uid, lanes := lanes, va := va, loc := loc,
                                          since := s.ptime, wr := wr, sc := sc, code := false, fault := none }] }, false)

/-- The issuing split's instruction has ended: its remote accesses have been answered, its counted accesses and its view reads are
over. -/
def State.remoteDone (s : State) : State :=
  { s with remote := s.remote.filter (fun r => !s.ownRemote r)
           counted := s.counted.filter (fun x => x.1 != s.cur)
           vreads := s.vreads.filter (fun x => !(x.who.core == s.cur.core && x.who.slot == s.cur.slot && x.who.uid == s.me.uid
             && (x.who.lanes &&& s.sp.m) != 0)) }

/-- The issuing split's lanes as a reader of views at an address. -/
def State.reader (s : State) (lanes : Mask) (va : W64) : Reader :=
  { core := s.cur.core, slot := s.cur.slot, uid := s.me.uid, lanes := lanes, va := va }

/-- A load's lane checked (R92, R104, R210, R289). -/
def State.chkLoad (s : State) (lanes : Mask) (align : Nat) (va : W64) (n : Nat) (res : Bool) : State × LaneChk :=
  let r := s.check s.who .load align va n
  match r.2 with
  | .fail o c => (r.1, if res && o == ordResident then .nonres else .trap c)
  | .sleep a => (r.1, .sleep a)
  | .hold => (r.1, .again)
  | .ok a =>
    let s := r.1
    if a.reg.isSome then (s, .go a [] false)
    else if a.sc && s.scBusy then (s, .again)
    else
      let s := s.countOnce va a true
      let q := s.readLines s.cur.core a true false a.lines
      match q.2 with
      | .ok () =>
        let v := (q.1.insertLow s s.me.launch s.cur.core va a.lines).viewLocs (s.reader lanes va) false a.locs
        let go (clear : Bool) : State × LaneChk :=
          if a.remote then
            let g := v.1.remoteGo lanes va a.loc false a.sc
            (g.1, if g.2 then .go a v.2.2 clear else .again)
          else (v.1, .go a v.2.2 clear)
        match v.2.1 with
        | .go _ _ _ => go false
        | .nonres => go true
        | o => (v.1, o)
      | .fail _ c => (q.1, .trap c)
      | .sleep x => (q.1, .sleep x)
      | .hold => (q.1, .again)

/-- A write kind's lane checked up to the mapping (R92, R104). -/
def State.chkWrite (s : State) (k : AccKind) (align : Nat) (va : W64) (n : Nat) : State × LaneChk :=
  let r := s.check s.who k align va n
  match r.2 with
  | .fail _ c => (r.1, .trap c)
  | .sleep a => (r.1, .sleep a)
  | .hold => (r.1, .again)
  | .ok a =>
    let s := r.1
    if a.reg.isSome then (s, .go a [] false)
    else if a.sc && s.scBusy then (s, .again)
    else (s.countOnce va a false, .go a [] false)

/-- Lanes checked in ascending order. -/
def State.chkLanes (s : State) (lanes : List Nat) (f : State → Nat → State × LaneChk) : State × List (Nat × LaneChk) :=
  lanes.foldl (fun r l => let q := f r.1 l; (q.1, r.2 ++ [(l, q.2)])) (s, [])

-- ## What the lanes' checks decide

/-- The instruction must be tried again. -/
def anyAgain (rs : List (Nat × LaneChk)) : Bool := rs.any (fun r => r.2 == .again)
/-- Lanes that wait for a sleeping link, with one such agent. -/
def sleepers (rs : List (Nat × LaneChk)) : Option (AgentId × Mask) :=
  (rs.findSome? (fun r => match r.2 with | .sleep a => some a | _ => none)).map (fun a =>
    (a, Mask.ofLanes ((rs.filter (fun r => match r.2 with | .sleep _ => true | _ => false)).map (·.1))))
/-- The traps of the lanes that failed, with their addresses. -/
def trapsOf (rs : List (Nat × LaneChk)) (addr : Nat → W64) : List Trap :=
  rs.filterMap (fun r => match r.2 with | .trap c => some { lane := r.1, code := c, tval := addr r.1 } | _ => none)
/-- The lanes that passed, with their accesses. -/
def passed (rs : List (Nat × LaneChk)) : List (Nat × Acc) :=
  rs.filterMap (fun r => match r.2 with | .go a _ _ => some (r.1, a) | _ => none)

/-- An instruction whose lanes' checks are done: held, waiting for a link, or going on with `k` (R79, R204). -/
def State.settled (s : State) (rs : List (Nat × LaneChk)) (addr : Nat → W64) (k : State → State) : State :=
  match sleepers rs with
  | some (a, m) => s.sleepOn a m (addr ((m.lanes.head?).getD 0))
  | none => if anyAgain rs then s.holdMe else k s

/-- Distinct translations. -/
def distinctTrs (ts : List Tr) : List Tr := ts.foldl (fun us t => if us.any t.same then us else us ++ [t]) []

/-- D of some page cannot be set before a sleeping agent is reached (R79, R91). -/
def State.trsSleep (s : State) (ts : List Tr) : Bool := ts.any (fun t => match (s.setDirty t).2 with | .sleep _ => true | _ => false)

/-- The same for the pages of an access. -/
def State.dirtySleeps (s : State) (a : Acc) : Bool := s.trsSleep a.trs

/-- The lanes that passed are to be performed: D is set on their pages first (R91), and then another device's answers are awaited
(R431), `ret` saying that they return values. `mask` gives the lanes that make each access. The lanes whose page waits for a sleeping agent
wait for its link (R79). -/
def State.performingAs (s : State) (ret : Bool) (rs : List (Nat × LaneChk)) (mask : Nat → Mask) (addr : Nat → W64) (k : State → State) : State :=
  let accs := passed rs
  let d := s.setDirties (distinctTrs (accs.flatMap (fun x => x.2.trs)))
  match d.2 with
  | .ok =>
    let q := (accs.filter (fun x => x.2.remote)).foldl (fun (r : State × Bool) x =>
      let g := r.1.remoteGo (mask x.1) (addr x.1) x.2.loc (!ret) x.2.sc
      (g.1, r.2 && g.2)) (d.1, true)
    if q.2 then k q.1 else q.1.holdMe
  | .sleep a =>
    let out := accs.filter (fun x => d.1.dirtySleeps x.2)
    d.1.sleepOn a (out.foldl (fun m x => m ||| mask x.1) 0) (((out.head?).map (fun x => addr x.1)).getD 0)
  | _ => d.1.holdMe

/-- The same for accesses that return no value. -/
def State.performing (s : State) (rs : List (Nat × LaneChk)) (mask : Nat → Mask) (addr : Nat → W64) (k : State → State) : State :=
  s.performingAs false rs mask addr k

-- ## Performing

/-- Every holder of a line can be reached and can give it up (R69, R79). -/
def State.reachable (s : State) (line : Nat) : Bool := match (s.homeTake line).2 with | .ok | .poison => true | _ => false


/-- The line is free to be taken back: no lease on it and no store waiting for it (R68, R69). -/
def State.lineFree (s : State) (line : Nat) : Bool := s.leaseOn line == 0 && !s.pend.any (fun p => p.line == line)


/-- The bytes a lane loads: zero where R289 says so, a register's bytes, or memory as the core sees it. -/
def State.readGo (s : State) (a : Acc) (zeros : List Nat) (n : Nat) : State × List Byte :=
  match a.reg with
  | some p => s.regLoad p n
  | none => (s, a.locs.map (fun l => if zeros.contains l then 0 else s.look s.cur.core l))

/-- The loaded bytes of each lane, in ascending lane order: zero for a non-resident lane (R97). -/
def State.readLanes (s : State) (rs : List (Nat × LaneChk)) (n : Nat) : State × List (Nat × List Byte) :=
  rs.foldl (fun r x =>
    match x.2 with
    | .go a zs _ => let q := r.1.readGo a zs n; (q.1, r.2 ++ [(x.1, q.2)])
    | .nonres => (r.1, r.2 ++ [(x.1, List.replicate n 0)])
    | _ => r) (s, [])

/-- Lanes whose bit of kN a `.res` load clears (R97, R289). -/
def clearedLanes (rs : List (Nat × LaneChk)) : Mask :=
  Mask.ofLanes ((rs.filter (fun r => match r.2 with | .nonres => true | .go _ _ c => c | _ => false)).map (·.1))

/-- Cells written in memory at once: waiters of barrier objects compared again (R121), masters recorded (R284). -/
def State.perform (s : State) (cells : List Host.Cell) : State :=
  let s := s.poke cells
  let s := cells.foldl (fun s c => s.rewake (.mem c.1) 1) s
  let ls := ((cells.map (fun c => lineOf c.1)).eraseDups).filter s.isMaster
  ls.foldl (fun s l =>
    s.masterWritten l ((cells.filter (fun c => lineOf c.1 == l)).foldl (fun m c => m ||| (1#128 <<< (c.1 % 128))) 0)) s

/-- A store of the line waits at the core's slice: for leases, or behind the stores that wait already (R68). -/
def State.storeWaits (s : State) (line : Nat) : Bool :=
  !lineRemote line && (s.pendOn (dieOf s.cur.core) line || decide (0 < s.leaseOn line))

/-- Cells of one line stored by the issuing core at its slice (R68), or at the home of a bank line (R61): performed at once, which clears the
poison of a line that they cover whole (R81), or waiting. -/
def State.storeLine (s : State) (op line : Nat) (bank : Bool) (cells : List Host.Cell) : State :=
  if s.storeWaits line then
    { s with pend := s.pend ++ [{ die := dieOf s.cur.core, core := s.cur.core, slot := s.cur.slot, uid := s.me.uid, op := op,
                                  line := line, bank := bank, cells := cells }] }
  else (s.unpoison (agentOf (dieOf s.cur.core)) bank cells).perform cells

/-- Lanes that touch a poisoned line trap, unless the lanes that are left write all of its bytes (R81): each lane that traps may leave
another line not covered. -/
def State.poisonedOut (s : State) : Nat → List (Nat × LaneChk) → List (Nat × LaneChk)
  | 0, rs => rs
  | fuel + 1, rs =>
    let locs := ((passed rs).flatMap (fun x => x.2.locs)).eraseDups
    let bad := ((locs.map lineOf).eraseDups).filter (fun line =>
      s.poisoned line && !(s.clearable line && decide ((locs.filter (fun l => lineOf l == line)).length = 128)))
    if bad.isEmpty then rs
    else s.poisonedOut fuel (rs.map (fun x =>
      match x.2 with | .go a _ _ => if a.lines.any bad.contains then (x.1, LaneChk.trap 23) else x | _ => x))

/-- Write permission for the lines of the lanes that passed (R73, R81); a store that waits at the slice obtains it there (R68). -/
def State.ownEach (s : State) (rs : List (Nat × LaneChk)) (addr : Nat → W64) : State × List (Nat × LaneChk) :=
  let accs := passed rs
  let locs := (accs.flatMap (fun x => x.2.locs)).eraseDups
  let lines := (locs.map lineOf).eraseDups
  lines.foldl (fun (r : State × List (Nat × LaneChk)) line =>
    let full := decide ((locs.filter (fun l => lineOf l == line)).length = 128)
    let acc := accs.find? (fun x => x.2.lines.contains line)
    let kind := match acc with
      | some x => r.1.lineKind x.2 line
      | none => { llcOnly := false, noL1 := false, isSealed := false }
    let q : State × LineAns :=
      if r.1.storeWaits line then (r.1, if r.1.poisoned line && !(full && r.1.clearable line) then .poison else .ok)
      else
        let q := r.1.ownLine s.cur.core kind full line
        (match acc with | some x => q.1.insertLow r.1 s.me.launch s.cur.core (addr x.1) [line] | none => q.1, q.2)
    let mark (c : LaneChk) := r.2.map (fun x =>
      match x.2 with | .go a _ _ => if a.lines.contains line then (x.1, c) else x | _ => x)
    match q.2 with
    | .ok => (q.1, r.2)
    | .poison => (q.1, mark (.trap 23))
    | .sleep a => (q.1, mark (.sleep a))
    | .hold => (q.1, mark .again)) (s, rs)

/-- Write permission for the lines of the lanes that passed. Lanes that touch a poisoned line trap, unless all of its bytes are written: by
what is known before, and by what the homes have found (R75, R81). -/
def State.ownLanes (s : State) (rs : List (Nat × LaneChk)) (addr : Nat → W64) : State × List (Nat × LaneChk) :=
  let q := s.ownEach (s.poisonedOut 33 rs) addr
  (q.1, q.1.poisonedOut 33 q.2)

/-- The bytes of the lanes that passed stored, in ascending lane order, as one ST operation (R207, R210). -/
def State.storeLanes (s : State) (rs : List (Nat × LaneChk)) (bytes : Nat → List Byte) : State :=
  let op := s.uids
  let accs := passed rs
  let cells := accs.flatMap (fun x => x.2.locs.zip (bytes x.1))
  let lines := (cells.map (fun c => lineOf c.1)).eraseDups
  let waits := lines.any s.storeWaits
  let s := s.newOp .st (!waits)
  let s := lines.foldl (fun s l => s.storeLine op l (accs.any (fun x => x.2.bkLines.contains l)) (cells.filter (fun c => lineOf c.1 == l))) s
  accs.foldl (fun s x => match x.2.reg with | some p => s.regStoreEv p (bytes x.1).length (leNat (bytes x.1)) | none => s) s

end Sys2Proof.Machine
end

