-- ==== Sys2Proof/Machine/BarrierOps.lean ====
section
/-!
DEFINITION. Fences, barrier instructions and `wcnt`, majors 0x90 to 0x92 (spec/08 R219 to R226).
-/
namespace Sys2Proof.Machine
open Sys2Proof

-- ## Fences (R219, R220)

/-- `fence`: a release waits for what it covers, an acquire for the string's earlier loads; an acquire wider than core then discards the
unsealed L1 lines. -/
def execFence (sc : Scope) (k : FenceKind) (s : State) : Res :=
  .next (
    if k == .acq then (if s.loadsBack then (s.acquire sc).adv 1 else s.holdMe)
    else s.releasing sc (fun s => (if k == .ar then s.acquire sc else s).adv 1))

-- ## Barrier operations (R222 to R225)

/-- The location of a place, 0 in scratchpad. -/
def placeLoc : Place → Nat
  | .mem l => l
  | .scr _ _ => 0

/-- A barrier of another device. -/
def placeRemote (p : Place) : Bool := match p with | .mem l => lineRemote (lineOf l) | .scr _ _ => false

/-- R223 steps 1 to 3 on a barrier address, the answer of another device awaited, then `k` at its place. -/
def State.withBar (s : State) (sp wr : Bool) (va : W64) (k : State → Place → State) : State :=
  let r := s.barCheck s.who sp va
  r.1.onCheck r.2 va (fun s p =>
    if placeRemote p then
      let q := s.remoteGo s.sp.m va (placeLoc p) wr (!sp && s.scAt s.who va)
      if q.2 then k q.1.remoteDone p else q.1.holdMe
    else k s p)

/-- The greatest EARR (R116). -/
def maxEarr : Nat := 1048575
/-- The greatest EBYTES, and the greatest expect (R223). -/
def maxBytes : Nat := 2 ^ 27 - 1

/-- The words 0 and 1 that `bar.init` writes (R116). -/
def barInitWords (earr ebytes : Nat) : W64 × W64 :=
  (BitVec.ofNat 64 (earr * 2 ^ 28 + ebytes), BitVec.ofNat 64 (earr * 2 ^ 28 + ebytes))

/-- `bar.init`: a commit point. -/
def execBarInit (sp : Bool) (a b c : SReg) (s : State) : Res :=
  .next (s.withBar sp true (s.getS a) (fun s p =>
    let earr := s.getS b
    let eb := s.getS c
    if maxEarr < earr.toNat then s.trapAll 33 earr
    else if maxBytes < eb.toNat then s.trapAll 33 eb
    else
      let w := barInitWords earr.toNat eb.toNat
      let s := s.homePut p (leBytes 8 w.1.toNat ++ leBytes 8 w.2.toNat ++ List.replicate 16 0)
      ((s.wakeBar p).commit 1).adv 1))

/-- `bar.exp`: a commit point. -/
def execBarExp (sp : Bool) (a b : SReg) (s : State) : Res :=
  .next (s.withBar sp true (s.getS a) (fun s p =>
    let n := s.getS b
    if maxBytes < n.toNat then s.trapAll 33 n
    else ((s.barUpdate p 0 n.toNat 0).commit 1).adv 1))

/-- `bar.arr`: a release, then the arrival with its expect; a commit point. -/
def execBarArr (sc : Scope) (expv sp : Bool) (a b : SReg) (s : State) : Res :=
  .next (s.withBar sp true (s.getS a) (fun s p =>
    let n : W64 := if expv then s.getS b else 0
    if maxBytes < n.toNat then s.trapAll 33 n
    else s.releasing sc (fun s => ((s.barUpdate p 1 n.toNat 0).commit 1).adv 1)))

/-- The end of a `bar.wait` at a place: word 0 as it is now, with the acquire (R220, R224). -/
def State.barWaited (s : State) (sc : Scope) (d : SReg) (p : Place) : State :=
  ((((s.acquire sc).setS d (s.barWord p 0)).unreg p).waitMe .none).adv 1

/-- `bar.wait`: the issuing split waits until PHASE differs from the operand's, which it reads once (R118, R224). -/
def execBarWait (sc : Scope) (sp : Bool) (d a b : SReg) (s : State) : Res :=
  .next (match s.sp.wait with
    | .passed p => if s.loadsBack then s.barWaited sc d p else s
    | _ => s.withBar sp false (s.getS a) (fun s p =>
        let ph : Byte := (s.getS b).setWidth 8
        if !s.phaseOver p ph then s.waitOn p ph
        else if s.loadsBack then s.barWaited sc d p
        else s.holdMe))

/-- `bar.test`. -/
def execBarTest (sc : Scope) (sp : Bool) (d a : SReg) (s : State) : Res :=
  .next (s.withBar sp false (s.getS a) (fun s p =>
    if s.loadsBack then (((s.acquire sc).setS d (s.barWord p 0))).adv 1 else s.holdMe))

-- ## Waiting on counters (R226)

/-- Each counter of OUTST is at or below its limit. -/
def Str.within (t : Str) (ld st cp tl : Nat) : Bool :=
  decide (t.count .ld ≤ ld) && decide (t.count .st ≤ st) && decide (t.count .cp ≤ cp) && decide (t.count .tl ≤ tl)

/-- `wcnt`: held until each counter is within its limit. -/
def execWcnt (ld st cp tl : BitVec 8) (s : State) : Res :=
  .next (if s.me.within ld.toNat st.toNat cp.toNat tl.toNat then s.adv 1 else s.holdMe)

end Sys2Proof.Machine
end

