-- ==== Sys2Proof/Machine/Ranges.lean ====
section
/-!
DEFINITION. `seal`, `unseal`, `cmr` and `cmrend`, majors 0x93 and 0x94 (spec/08 R227 to R232, spec/10 R273 to R275, spec/03 R70), with
the completion events of the commutative ranges.
-/
namespace Sys2Proof.Machine
open Sys2Proof

/-- An instruction on the values of two operands, which it keeps while it is held: another split's write of their registers does not reach it
(R229). -/
def State.withOps (s : State) (a b : SReg) (k : State → W64 → W64 → State) : State :=
  let t := match s.sp.wait with
    | .opnds _ x y => (k (s.waitMe .none) x y, x, y)
    | _ => (k s (s.getS a) (s.getS b), s.getS a, s.getS b)
  match t.1.sp.wait with
  | .held n => t.1.waitMe (.opnds n t.2.1 t.2.2)
  | _ => t.1

-- ## The pages of a range of addresses

/-- A page of a range: the first address in it, log2 of its size, its translation if the access is translated, and where
that address leads. -/
structure PageAt where
  va : Nat
  log : Nat
  tr : Option Tr
  phys : Phys
  deriving DecidableEq, Repr

/-- The outcome of walking a range's pages: `fail` gives the first failing address and its cause. -/
inductive PagesRes where
  | ok (ps : List PageAt)
  | fail (va : W64) (code : Nat)
  | sleep (a : AgentId) (va : W64)
  | hold
  deriving DecidableEq, Repr

/-- log2 of the page size of a tier (R48). -/
def tierLog (t : Tier) : Nat := match t with | .hbm => 21 | .lpddr => 16 | _ => 12

/-- One page checked as an access of a kind by conditions 1 to 6 of R92, condition 6 only if `sealCond`, and by the mapping of
condition 7 if `mapped`. -/
def State.pageAt (s : State) (w : Who) (k : AccKind) (sealCond mapped : Bool) (va : W64) : State × XRes PageAt :=
  if w.untranslated then
    if 2 ^ 48 ≤ va.toNat then (s, .fail ordCanon 16)
    else
      let p := s.decodePa va.toNat
      if mapped && s.nowhere w p then (s, .fail ordPhys 21)
      else (s, .ok { va := va.toNat, log := tierLog (tierOf va.toNat), tr := none, phys := p })
  else if !canonical va then (s, .fail ordCanon 16)
  else
    let r := s.translate w k va
    match r.2 with
    | .fail o c => (r.1, .fail o c)
    | .sleep a => (r.1, .sleep a)
    | .hold => (r.1, .hold)
    | .ok t =>
      match protect w k { t with isSealed := t.isSealed && sealCond } with
      | some (o, c) => (r.1, .fail o c)
      | none =>
        let p := r.1.physAt w [t] va 0
        if mapped && r.1.nowhere w p then (r.1, .fail ordPhys 21)
        else (r.1, .ok { va := va.toNat, log := t.log, tr := some t, phys := p })

/-- The pages from an address up to `stop`, in ascending order, at most `fuel` of them. -/
def State.pagesOf (s : State) (w : Who) (k : AccKind) (sealCond mapped : Bool) : Nat → Nat → Nat → State × PagesRes
  | 0, _, _ => (s, .ok [])
  | fuel + 1, va, stop =>
    if stop ≤ va then (s, .ok [])
    else
      let r := s.pageAt w k sealCond mapped (BitVec.ofNat 64 va)
      match r.2 with
      | .fail _ c => (r.1, .fail (BitVec.ofNat 64 va) c)
      | .sleep a => (r.1, .sleep a (BitVec.ofNat 64 va))
      | .hold => (r.1, .hold)
      | .ok p =>
        let q := r.1.pagesOf w k sealCond mapped fuel ((va / 2 ^ p.log + 1) * 2 ^ p.log) stop
        match q.2 with
        | .ok ps => (q.1, .ok (p :: ps))
        | e => (q.1, e)

/-- A string-wide instruction at the outcome of its pages. -/
def State.onPages (s : State) (r : PagesRes) (k : State → List PageAt → State) : State :=
  match r with
  | .ok ps => k s ps
  | .fail va c => s.trapAll c va
  | .sleep a va => s.sleepOn a s.sp.e va
  | .hold => s.holdMe

/-- The physical page of a page of a range. -/
def PageAt.pa (p : PageAt) : Nat :=
  match p.tr with
  | some t => ptePA t.pte
  | none => p.va / 2 ^ p.log * 2 ^ p.log

/-- A page of another device. -/
def State.pageRemote (s : State) (p : PageAt) : Bool := match p.tr with | some t => !s.pteLocal t.pte | none => false

/-- The page carries BK or SC. -/
def PageAt.bkOrSc (p : PageAt) : Bool := match p.tr with | some t => pteBK t.pte || pteSC t.pte | none => false

/-- The location line of address va + 128 i, by the page that covers it; `none` where it leads nowhere. -/
def State.lineUnder (s : State) (w : Who) (ps : List PageAt) (va : Nat) : Option Nat :=
  match s.physAt w (ps.filterMap (·.tr)) (BitVec.ofNat 64 va) 0 with
  | .loc l | .remote l => some (lineOf l)
  | _ => none

/-- The lines of an area of bytes, in ascending address, from the line that holds its first byte to that of its last. -/
def State.areaLines (s : State) (w : Who) (ps : List PageAt) (va len : Nat) : List Nat :=
  (List.range ((va + len - 1) / 128 + 1 - va / 128)).filterMap (fun i => s.lineUnder w ps ((va / 128 + i) * 128))

-- ## Seal and unseal (R227 to R229)

/-- The first refusal of R228 on the pages of a range: its address. A length of 0 is refused first, then come the checks of R92 on every page,
then a misaligned base or length, with the base in STVAL, then the pages in ascending address: DESIGN CHOICE (log 90). -/
def State.sealRefused (s : State) (ps : List PageAt) (base len : W64) : Option W64 :=
  match ps with
  | [] => some base
  | p :: _ =>
    let tier := tierOf p.pa
    if base.toNat % 2 ^ p.log ≠ 0 ∨ len.toNat % 2 ^ p.log ≠ 0 then some base
    else (ps.find? (fun q => (tierOf q.pa != .hbm && tierOf q.pa != .lpddr) || tierOf q.pa != tier || s.pageRemote q || q.bkOrSc)).map
      (fun q => BitVec.ofNat 64 q.va)

/-- A physical page holds a view or tag line (R285). -/
def State.pagePlane (s : State) (p : PageAt) : Bool :=
  s.viewList.any (fun hv => (hv.2.elines.flatten ++ hv.2.slines.flatten ++ hv.2.tlines).any (fun l => s.pageHas p.pa p.log l))

/-- Translations of some physical pages invalidated on every core (R229 step 2). -/
def State.dropTrs (s : State) (pas : List Nat) : State :=
  { s with tlb := s.tlb.filter (fun t => !(s.pteLocal t.pte && pas.contains (ptePA t.pte))) }

/-- The line of a place in memory. -/
def placeLine : Place → Option Nat
  | .mem l => if lineRemote (lineOf l) then none else some (lineOf l)
  | .scr _ _ => none

/-- The lines that a bank command may still write: its status word's, its output's and its barrier's (R302). -/
def BankCmd.lines (c : BankCmd) : List Nat := lineOf c.sloc :: c.olines ++ (placeLine c.bar).toList

/-- The lines that a tile operation may still write. -/
def TileOp.lines (o : TileOp) : List Nat := match o.kind with | .mmac _ _ _ _ _ _ _ _ _ _ ls => ls | _ => []

/-- The lines that accesses translated already may still write (R229): waiting stores, bank commands, engine transfers and chains by
their barriers, tile operations and collectives. -/
def State.inFlight (s : State) : List Nat :=
  s.pend.map (·.line)
    ++ s.abaci.flatMap (fun a => (a.coming ++ a.queue ++ (a.run.map (·.cmd)).toList).flatMap BankCmd.lines)
    ++ s.cores.toList.flatMap (fun x => x.convoy.flatMap (fun t => (t.bar.bind placeLine).toList)
        ++ x.chains.toList.flatMap (fun h => (h.bind (fun h => placeLine h.bar)).toList) ++ x.arr.queue.flatMap TileOp.lines)
    ++ s.colls.flatMap (fun x => (placeLine x.bar).toList)

/-- Some access to the pages that was translated before is not complete yet (R229 step 3). -/
def State.pagesBusy (s : State) (ps : List PageAt) : Bool := s.inFlight.any (fun l => ps.any (fun q => s.pageHas q.pa q.log l))

/-- The range of a `seal` or `unseal` checked, then `k` on its pages. -/
def State.sealPages (s : State) (base len : W64) (k : State → List PageAt → State) : State :=
  if len = 0 then s.trapAll 35 base
  else
    let r := s.pagesOf s.who .store false false (len.toNat / 4096 + 1) base.toNat (base.toNat + len.toNat)
    r.1.onPages r.2 (fun s ps =>
      match s.sealRefused ps base len with
      | some a => s.trapAll 35 a
      | none => k s ps)

/-- `seal`: idempotent, so it is tried again, with the operands it has read, until the accesses it waits for are complete. -/
def execSeal (a b : SReg) (s : State) : Res :=
  .next (s.withOps a b (fun s base len => s.sealPages base len (fun s ps =>
    match ps.find? s.pagePlane with
    | some p => s.trapAll 35 (BitVec.ofNat 64 p.va)
    | none =>
      let new := ((ps.map PageAt.pa).eraseDups).filter (fun p => !s.seals.contains p)
      if 4096 < s.seals.length + new.length then s.trapAll 35 base
      else
        let s := State.dropTrs { s with seals := s.seals ++ new } (if new.isEmpty then [] else ps.map PageAt.pa)
        if s.pagesBusy ps then s.holdMe
        else s.releasing .pkg (fun s => if s.loadsBack then (s.acquire .pkg).adv 1 else s.holdMe))))

/-- `unseal`: translations and replicas removed (R70), the L2 copies once the leases granted before the sealing have expired (R69), then the
pages leave the table. -/
def execUnseal (a b : SReg) (s : State) : Res :=
  .next (s.withOps a b (fun s base len => s.sealPages base len (fun s ps =>
    let held := ps.filter (fun p => s.seals.contains p.pa)
    let pas := held.map PageAt.pa
    let isIn (l : Nat) : Bool := held.any (fun p => s.pageHas p.pa p.log l)
    let s1 := s.dropTrs pas
    let s2 := { s1 with l1 := s1.l1.filter (fun e => !(e.exp.isNone && isIn e.line)) }
    let copies := s2.l2.filter (fun e => isIn e.line)
    match s2.sleeper (copies.map (·.agent)) with
    | some o => s2.sleepOn o s2.sp.e base
    | none =>
      if copies.any (fun e => decide (s2.ptime < e.lease)) then ((copies.map (·.line)).eraseDups.foldl State.closeLine s2).holdMe
      else
        let s3 := copies.foldl State.evictL2 s2
        let s4 := { s3 with seals := s3.seals.filter (fun p => !pas.contains p) }
        s4.releasing .sys (fun s => if s.loadsBack then (s.acquire .sys).adv 1 else s.holdMe))))

-- ## Commutative ranges (R230 to R232, R273 to R275)

/-- A line belongs to a view's master, plane or tag plane. -/
def State.viewLine (s : State) (line : Nat) : Bool := s.isMaster line || s.isPlane line

/-- The range a declaration would enter: the lines of it that this device holds. -/
def State.newRange (s : State) (t : Ty) (sc : Scope) (ps : List PageAt) (base len : Nat) : Range :=
  let lines := s.areaLines s.who ps base len
  { base := (lines.headD 0) * 128, len := len, lines := lines.filter (fun l => !lineRemote l), fmt := t, scope := sc,
    far := (lines.find? lineRemote).map (· * 128), starting := true, ending := false }

/-- Two declarations match exactly (R231). -/
def Range.same (r q : Range) : Bool := r.base == q.base && r.len == q.len && r.far == q.far && r.fmt == q.fmt && r.scope == q.scope && r.lines == q.lines

/-- The entry of the table that matches a declaration. -/
def State.matching (s : State) (q : Range) : Option (Fin 256) :=
  (List.finRange 256).find? (fun i => match s.ranges[i] with | some r => r.same q | none => false)

/-- A free entry. -/
def State.freeRange (s : State) : Option (Fin 256) := (List.finRange 256).find? (fun i => (s.ranges[i]).isNone)

/-- The refusals of R231 and R274 on a declaration that matches no entry. -/
def State.cmrRefused (s : State) (ps : List PageAt) (q : Range) : Bool :=
  ps.any (fun p => p.bkOrSc || tierOf p.pa != .hbm) || q.lines.any (fun l => (s.rangeOf l).isSome || s.viewLine l)
    || (!q.lines.isEmpty && s.freeRange.isNone) || (q.far.isSome && q.scope != .sys)

/-- What an instruction does at a location of another device, if there is one, is done there first (R231, R431). -/
def State.farFirst (s : State) (far : Option Nat) (va : W64) (k : State → State) : State :=
  match far with
  | some loc =>
    let q := s.remoteGo s.sp.m va loc true false
    if q.2 then k q.1.remoteDone else q.1.holdMe
  | none => k s

/-- The agent behind a sleeping link that must be reached before a range's lines can be recalled (R79). -/
def State.rangeSleeper (s : State) (r : Range) : Option AgentId :=
  if r.ending then s.sleeper (r.lines.flatMap (fun l => maskAgents (s.cmMask l)))
  else r.lines.findSome? (fun l => match (s.homeTake l).2 with | .wait a => some a | _ => none)

/-- The issuing split waits for an entry to be complete, or for the link of an agent that the home must reach first (R79). -/
def State.waitRange (s : State) (i : Fin 256) (r : Range) (a b : W64) : State :=
  match s.rangeSleeper r with
  | some x => s.sleepOn x s.sp.e a
  | none => s.waitMe (.range i a b)

/-- `cmr`: a commit point; the split waits until CMR_COMPLETE. The lines of other devices are entered there (R231). -/
def execCmr (t : Ty) (sc : Scope) (a b : SReg) (s : State) : Res :=
  .next (s.withOps a b (fun s base len =>
    if base.toNat % 128 ≠ 0 ∨ len = 0 ∨ len.toNat % 128 ≠ 0 ∨ 2 ^ 40 < len.toNat then s.trapAll 36 base
    else
      let r := s.pagesOf s.who .store true true (len.toNat / 4096 + 2) base.toNat (base.toNat + len.toNat)
      r.1.onPages r.2 (fun s ps =>
        let q := s.newRange t sc ps base.toNat len.toNat
        match s.matching q with
        | some i =>
          match s.ranges[i] with
          | some r =>
            if r.ending then s.holdMe
            else s.farFirst q.far base (fun s => if r.starting then s.waitRange i r base len else (s.commit 1).adv 1)
          | none => s.holdMe
        | none =>
          if s.cmrRefused ps q then s.trapAll 36 base
          else s.farFirst q.far base (fun s =>
            match s.freeRange with
            | some i => if q.lines.isEmpty then (s.commit 1).adv 1 else State.waitRange { s with ranges := s.ranges.set i (some q) } i q base len
            | none => (s.commit 1).adv 1))))

/-- The entry that a base names. -/
def State.rangeAt (s : State) (loc : Nat) : Option (Fin 256) :=
  (List.finRange 256).find? (fun i => match s.ranges[i] with | some r => r.base == loc | none => false)

/-- `cmrend`: a commit point; the split waits until CMREND_COMPLETE. A base that names no range has no effect. The base itself is checked by
R92 as a contribution's address, and traps where that fails: DESIGN CHOICE (log 91). -/
def execCmrend (a : SReg) (s : State) : Res :=
  .next (s.withOps a a (fun s base _ =>
  let r := s.check s.who .contrib 1 base 1
  r.1.onCheck r.2 base (fun s acc =>
    match acc.locs with
    | l :: _ =>
      let r := (s.rangeAt l).bind (fun i => s.ranges[i])
      s.farFirst (if acc.remote then some l else r.bind Range.far) base (fun s =>
        match s.rangeAt l, r with
        | some i, some r =>
          if r.starting then s.holdMe
          else
            let r := { r with ending := true }
            State.waitRange { s with ranges := s.ranges.set i (some r) } i r base 0
        | _, _ => (s.commit 1).adv 1)
    | [] => (s.commit 1).adv 1)))

-- ## Their completion

/-- Every split that stands in a slot, with its place. -/
def State.allCur (s : State) : List Cur :=
  allCores.flatMap (fun c => allSlots.flatMap (fun k =>
    if (s.strAt c k).present then (List.finRange 4).map (fun j => { core := c, slot := k, split := j }) else []))

/-- The wait for an entry of the range table. -/
def Wait.forRange (i : Fin 256) (w : Wait) : Bool := match w with | .range j _ _ => j == i | _ => false

/-- A split in a wait of some kind issues its instruction again, on the operands that it keeps. -/
def Split.again (p : Wait → Bool) (x : Split) : Split :=
  if p x.wait then { x with wait := match x.wait with | .range _ a b => .opnds 0 a b | _ => .none } else x

/-- Parked splits in a wait of some kind issue their instruction again. -/
def State.wakeParked (s : State) (p : Wait → Bool) : State :=
  let str (t : Str) : Str := { t with park := t.park.map (Split.again p) }
  { s with cores := s.cores.map (fun (c : Core) => { c with strs := c.strs.map str }) }

/-- Every split in a wait of some kind issues its instruction again. -/
def State.retryAll (s : State) (p : Wait → Bool) : State :=
  let str (t : Str) : Str := { t with splits := t.splits.map (Split.again p) }
  let s := s.wakeParked p
  { s with cores := s.cores.map (fun (c : Core) => { c with strs := c.strs.map str }) }

/-- The splits in a wait of some kind go on past their commit point. -/
def State.passAll (s : State) (p : Wait → Bool) : State :=
  let s := s.wakeParked p
  (s.allCur.filter (fun u => p ((s.strAt u.core u.slot).splits[u.split]).wait
      && ((s.strAt u.core u.slot).splits[u.split]).m != 0)).foldl (fun s u =>
    s.asSplit u (fun s => ((s.commit 1).adv 1).waitMe .none)) s

/-- A line of a new range recalled from every holder, its entry CM with an empty mask, in a directory set that has room for it (R59,
R274). -/
def State.cmLine (s : State) (line : Nat) : State :=
  let r := s.homeTake line
  match r.2 with
  | .ok => r.1.dirPut line (.cm 0)
  | _ => s

/-- The sleeping agents that must be reached for some lines are being woken, with the messages held (R79). -/
def State.wakeFor (s : State) (lines : List Nat) : State :=
  lines.foldl (fun s l => match (s.homeTake l).2 with | .wait a => s.homeWake a 0 l | _ => s) s

/-- Splits that wait for an entry whose lines a sleeping agent holds wait for its link (R79). -/
def State.askLink (s : State) (i : Fin 256) (r : Range) : State :=
  if (s.rangeSleeper r).isSome then s.retryAll (Wait.forRange i) else s

/-- CMR_COMPLETE (R274): once no lease and no sleeping link stands in the way of any line. -/
def execCmrComplete (s : State) : Res :=
  match s.ev with
  | .cmrComplete i =>
    match s.ranges[i] with
    | some r =>
      if r.starting && r.lines.all (fun l => s.lineFree l && s.reachable l) then
        let s := r.lines.foldl State.cmLine s
        .next (State.passAll { s with ranges := s.ranges.set i (some { r with starting := false }) } (Wait.forRange i))
      else .next (if r.starting then ((r.lines.foldl State.closeLine s).wakeFor r.lines).askLink i r else s)
    | none => .next s
  | _ => .fault .notThisEvent

/-- A line of an ending range combined and made plain (R275). -/
def State.endLine (s : State) (fmt : Ty) (line : Nat) : State :=
  let r := s.combine fmt line
  r.1.dirDel line

/-- Contributions of tile operations to some lines that have passed their checks are still to be received (R272, R275 step 2). -/
def State.rodsDue (s : State) (lines : List Nat) : Bool :=
  s.cores.any (fun x => x.arr.queue.any (fun o => !o.ran && o.lines.any lines.contains))

/-- CMREND_COMPLETE (R275): every contribution is received, every partial folded, the lines are plain, the entry is free. -/
def execCmrendComplete (s : State) : Res :=
  match s.ev with
  | .cmrendComplete i =>
    match s.ranges[i] with
    | some r =>
      if r.ending && !s.rodsDue r.lines && r.lines.all (fun l => (s.sleeper (maskAgents (s.cmMask l))).isNone) then
        let s := r.lines.foldl (fun s l => s.endLine r.fmt l) s
        .next (State.passAll { s with ranges := s.ranges.set i none } (Wait.forRange i))
      else .next ((r.lines.foldl (fun s l => match s.sleeper (maskAgents (s.cmMask l)) with
        | some a => s.homeWake a 0 l
        | none => s) s).askLink i r)
    | none => .next s
  | _ => .fault .notThisEvent

end Sys2Proof.Machine
end

