-- ==== Sys2Proof/Machine/Engine.lean ====
section
/-!
DEFINITION. The accesses of engines and of the device itself: the convoy engine, the Porter, the array, bank commands,
collective units and the launch logic (spec/05 R123, R126, spec/10 R289, spec/03 R79, spec/16 R432). Each access lies within one
line or one 128-byte unit of scratchpad.
-/
namespace Sys2Proof.Machine
open Sys2Proof

/-- The outcome of an engine's access: `err` carries a cause of R407. -/
inductive EAns (α : Type) where
  | ok (a : α)
  | err (code : Nat)
  /-- Tried again later. -/
  | wait
  deriving DecidableEq, Repr

/-- The parts of an extent that lie within one aligned 128-byte unit each: address and length. -/
def segs (va n : Nat) : List (Nat × Nat) :=
  (List.range ((va % 128 + n + 127) / 128)).map (fun i =>
    let a := if i = 0 then va else (va / 128 + i) * 128
    (a, min ((va / 128 + i + 1) * 128) (va + n) - a))

/-- An engine's message to an agent with a sleeping link (R79): held until the link is up, or answered late. -/
def State.engSleep (s : State) (c : CoreId) (a : AgentId) (va : W64) : State × EAns α :=
  let mine (h : HeldMsg) : Bool := h.agent == a && h.core == c && h.lanes == 0 && h.va == va
  match s.held.find? mine with
  | some h => if h.late then ({ s with held := s.held.filter (fun x => !mine x) }, .err 24) else (s, .wait)
  | none => ({ s with held := s.held ++ [{ agent := a, core := c, slot := 0, lanes := 0, va := va, since := s.ptime,
                                           late := false }] }, .wait)

/-- An engine's remote access to a location: its answer is awaited (R432), for as long as no port of its route can carry it (R453). -/
def State.engRemote (s : State) (c : CoreId) (wr : Bool) (va : W64) (loc : Nat) : State × EAns Unit :=
  let mine (r : Remote) : Bool := r.core == c && r.lanes == 0 && r.wr == wr && r.va == va
  let without := { s with remote := s.remote.filter (fun r => !mine r) }
  match s.remote.find? mine with
  | some r => match r.fault with | some code => (without, .err code) | none => if s.flitGoes loc then (without, .ok ()) else (s, .wait)
  | none => ({ s with remote := s.remote ++ [{ core := c, slot := 0, uid := 0, lanes := 0, va := va, loc := loc, since := s.ptime,
                                               wr := wr, sc := false, code := false, fault := none }] }, .wait)

/-- An engine of a core as a reader of views at an address. -/
def engReader (c : CoreId) (va : W64) : Reader := { core := c, slot := 0, uid := 0, lanes := 0, va := va }

/-- n bytes of one line read from memory: R92's checks, poison, and the engine's row of R289. -/
def State.engLoad (s : State) (w : Who) (va : W64) (n : Nat) : State × EAns (List Byte) :=
  let r := s.check w .load 1 va n
  match r.2 with
  | .fail _ c => (r.1, .err c)
  | .sleep a => r.1.engSleep w.core a va
  | .hold => (r.1, .wait)
  | .ok a =>
    match a.reg with
    | some p => let q := r.1.regLoad p n; (q.1, .ok q.2)
    | none =>
      if a.remote then
        let q := r.1.engRemote w.core false va a.loc
        match q.2 with
        | .ok _ => (q.1, .ok (a.locs.map q.1.peek))
        | .err c => (q.1, .err c)
        | .wait => (q.1, .wait)
      else
        let q := r.1.readLines w.core a false false a.lines
        match q.2 with
        | .fail _ c => (q.1, .err c)
        | .sleep x => q.1.engSleep w.core x va
        | .hold => (q.1, .wait)
        | .ok () =>
          let v := (q.1.insertLow r.1 w.launch w.core va a.lines).viewLocs (engReader w.core va) true a.locs
          let t : State := { v.1 with vreads := v.1.vreads.filter (fun x => x.who != engReader w.core va) }
          match v.2.1 with
          | .trap c => (t, .err c)
          | .again => (v.1, .wait)
          | _ => (t, .ok (a.locs.map (fun l => if v.2.2.contains l then 0 else t.peek l)))

/-- Bytes of one line written to memory by R68: the checks of a write kind, no lease left, write permission, then D set (R91). -/
def State.engStore (s : State) (w : Who) (va : W64) (bs : List Byte) : State × EAns Unit :=
  let r := s.check w .store 1 va bs.length
  match r.2 with
  | .fail _ c => (r.1, .err c)
  | .sleep a => r.1.engSleep w.core a va
  | .hold => (r.1, .wait)
  | .ok a =>
    match a.reg with
    | some p => (r.1.regStoreEv p bs.length (leNat bs), .ok ())
    | none =>
      let cells := a.locs.zip bs
      if a.remote then
        let d := r.1.setDirties (distinctTrs a.trs)
        match d.2 with
        | .ok =>
          let q := d.1.engRemote w.core true va a.loc
          match q.2 with
          | .ok _ => (q.1.perform cells, .ok ())
          | e => (q.1, e)
        | .sleep x => d.1.engSleep w.core x va
        | _ => (d.1, .wait)
      else
        match a.lines with
        | [l] =>
          if !r.1.lineFree l then (r.1.closeLine l, .wait)
          else
            let q := r.1.ownLine w.core (r.1.lineKind a l) (bs.length == 128) l
            match q.2 with
            | .ok =>
              let d := (q.1.insertLow r.1 w.launch w.core va [l]).setDirties (distinctTrs a.trs)
              match d.2 with
              | .ok => ((d.1.unpoison (agentOf (dieOf w.core)) (a.bkLines.contains l) cells).perform cells, .ok ())
              | .sleep x => d.1.engSleep w.core x va
              | _ => (d.1, .wait)
            | .poison => (q.1, .err 23)
            | .sleep x => q.1.engSleep w.core x va
            | .hold => (q.1, .wait)
        | _ => (r.1, .err 21)

/-- n bytes of scratchpad read by an engine of a context on core c. -/
def State.scrLoad (s : State) (c : CoreId) (ctx : BitVec 12) (a : W64) (n : Nat) : EAns (List Byte) :=
  match s.scrByte c ctx a with
  | .ok p => if s.scrPoison p n then .err 23 else .ok (s.placeGet p n)
  | .fail _ code => .err code
  | _ => .wait

/-- Bytes of scratchpad written by an engine; a poisoned word must be covered whole. -/
def State.scrStore (s : State) (c : CoreId) (ctx : BitVec 12) (a : W64) (bs : List Byte) : State × EAns Unit :=
  match s.scrByte c ctx a with
  | .ok p => (s.putBytes p bs, .ok ())
  | .fail _ code => (s, .err code)
  | _ => (s, .wait)

/-- One unit read from a side of a transfer. -/
def State.sideLoad (s : State) (w : Who) (sp : Bool) (va n : Nat) : State × EAns (List Byte) :=
  if sp then (s, s.scrLoad w.core (ctxOf w.ptroot) (BitVec.ofNat 64 va) n) else s.engLoad w (BitVec.ofNat 64 va) n

/-- One unit written to a side of a transfer. -/
def State.sideStore (s : State) (w : Who) (sp : Bool) (va : Nat) (bs : List Byte) : State × EAns Unit :=
  if sp then s.scrStore w.core (ctxOf w.ptroot) (BitVec.ofNat 64 va) bs else s.engStore w (BitVec.ofNat 64 va) bs

/-- What an engine has read of an extent: bytes by their offset, and the first fault with its address. -/
structure Taken where
  data : List (Nat × Byte)
  err : Nat
  addr : W64
  waits : Bool
  deriving DecidableEq, Repr

/-- Nothing read. -/
def Taken.none : Taken := { data := [], err := 0, addr := 0, waits := false }

/-- A fault remembered if it is the first (R126). -/
def Taken.fault (t : Taken) (code va : Nat) : Taken :=
  if t.err = 0 then { t with err := code, addr := BitVec.ofNat 64 va } else t

/-- The first byte of a unit that cannot be read; a unit of memory lies in one line, which fails whole (R235). -/
def State.failByte (s : State) (w : Who) (sp : Bool) (va n : Nat) : Nat :=
  if sp then va + ((List.range n).find? (fun i => match s.scrLoad w.core (ctxOf w.ptroot) (BitVec.ofNat 64 (va + i)) 1 with
    | .err _ => true
    | _ => false)).getD 0
  else va

/-- An extent of n bytes read, its bytes at offset `at_` of a transfer (R126: a fault does not stop it). -/
def State.take (s : State) (w : Who) (sp : Bool) (va n at_ : Nat) (t : Taken) : State × Taken :=
  (segs va n).foldl (fun (r : State × Taken) g =>
    let q := r.1.sideLoad w sp g.1 g.2
    match q.2 with
    | .ok bs => (q.1, { r.2 with data := r.2.data ++ (List.range bs.length).zipWith (fun i b => (at_ + (g.1 - va) + i, b)) bs })
    | .err c => (q.1, r.2.fault c (r.1.failByte w sp g.1 g.2))
    | .wait => (q.1, { r.2 with waits := true })) (s, t)

/-- An extent of n bytes at offset `at_` of a transfer landed at an address, with the bytes that were read. -/
def State.land (s : State) (w : Who) (sp : Bool) (va n at_ : Nat) (t : Taken) : State × Taken :=
  (segs va n).foldl (fun (r : State × Taken) g =>
    let off := at_ + (g.1 - va)
    let bs := (r.2.data.filter (fun x => decide (off ≤ x.1) && decide (x.1 < off + g.2))).map (·.2)
    if bs.length = g.2 then
      let q := r.1.sideStore w sp g.1 bs
      match q.2 with
      | .ok _ => (q.1, r.2)
      | .err c => (q.1, r.2.fault c g.1)
      | .wait => (q.1, { r.2 with waits := true })
    else r) (s, t)

/-- BUSY set in a block's tag (R287). -/
def State.markBusy (s : State) (h : Fin 64) (b : Nat) : State :=
  match s.views[h] with
  | some v => let t := s.tagGet v b; s.tagSet v b (mkTag (tagFlt t) true (tagTag t) (tagOwed t))
  | none => s

/-- A step that had to wait leaves the state as it was but for the messages it has sent, the view reads that have arrived and the
blocks that they have triggered (R289). -/
def State.waited (s s' : State) : State :=
  let t : State := { s with
    held := s.held ++ s'.held.filter (fun h => !s.held.contains h)
    remote := s.remote ++ s'.remote.filter (fun r => !s.remote.contains r)
    derivs := s'.derivs, timers := s'.timers, closing := s'.closing, vreads := s'.vreads }
  (s'.derivs.filter (fun d => !s.derivs.contains d)).foldl (fun t d => t.markBusy d.view d.blk) t

-- ## Barriers met by engines (R115, R125, R459)

/-- An update of a barrier can be made at its place now. -/
def State.barReady (s : State) (p : Place) : Bool :=
  match p with
  | .scr _ _ => true
  | .mem l => lineRemote (lineOf l) || s.poisoned (lineOf l) || (s.lineFree (lineOf l) && s.reachable (lineOf l))

/-- The leases that keep an update of a barrier waiting are the last (log 43), and a sleeping agent in its way is being woken (R79). -/
def State.closeBar (s : State) (p : Place) : State :=
  match p with
  | .scr _ _ => s
  | .mem l => (s.closeLine (lineOf l)).wakeFor [lineOf l]

/-- The barrier's line is poisoned: an update has no effect, and its engine records ECODE 4 (R459). -/
def State.barDead (s : State) (p : Place) : Bool :=
  match p with
  | .scr _ _ => s.scrPoison p 32
  | .mem l => !lineRemote (lineOf l) && s.poisoned (lineOf l)

/-- The barrier's line taken back by its home (R115). -/
def State.barTake (s : State) (p : Place) : State :=
  match p with
  | .scr _ _ => s
  | .mem l => if lineRemote (lineOf l) then s else (s.homeTake (lineOf l)).1

/-- An engine's update of a barrier, with an ECODE to report if it is not 0 (R119, R126). -/
def State.engArrive (s : State) (p : Place) (code arrivals expected landed : Nat) : State :=
  if s.barDead p then s
  else
    let s := s.barTake p
    let s := if code = 0 then s else s.barError p code
    s.barUpdate p arrivals expected landed

end Sys2Proof.Machine
end

