-- ==== Sys2Proof/Machine/MemoryOps.lean ====
section
/-!
DEFINITION. Loads, stores and hints, majors 0x60 to 0x68 (spec/08 R202 to R214, spec/04 R97 to R100).
-/
namespace Sys2Proof.Machine
open Sys2Proof

-- ## Addresses (R202)

/-- A sign-extended byte offset. -/
def offOf (off : BitVec 12) : W64 := off.signExtend 64
/-- Unit-stride: sA + OFF + l × size. -/
def State.unitAddr (s : State) (a : SReg) (off : BitVec 12) (n l : Nat) : W64 := s.getS a + offOf off + BitVec.ofNat 64 (l * n)
/-- Per-lane memory: the pair on lane l plus OFF. -/
def State.pairAddr (s : State) (a : VReg) (off : BitVec 12) (l : Nat) : W64 := s.getV2 a l + offOf off
/-- Per-lane scratchpad: the register on lane l, zero-extended, plus OFF. -/
def State.wordAddr (s : State) (a : VReg) (off : BitVec 12) (l : Nat) : W64 := (s.getV a l).setWidth 64 + offOf off

-- ## Data (R209)

/-- Register j of a lane's loaded bytes: one register extended to 32 bits, or word j of a pair or quad. -/
def loadWord (sz : Size) (sx : Bool) (bs : List Byte) (j : Nat) : W32 :=
  match sz with
  | .b1 => let v := BitVec.ofNat 8 (leNat bs); if sx then v.signExtend 32 else v.setWidth 32
  | .b2 => let v := BitVec.ofNat 16 (leNat bs); if sx then v.signExtend 32 else v.setWidth 32
  | _ => le32 ((bs.drop (4 * j)).take 4)

/-- The loaded lanes written to the registers of the size. -/
def State.putLoads (s : State) (sz : Size) (sx : Bool) (d : VReg) (rs : List (Nat × List Byte)) : State :=
  let lanes := Mask.ofLanes (rs.map (·.1))
  (List.range (sizeRegs sz)).foldl (fun s j =>
    s.put1 (VReg.plus d j) lanes (fun l =>
      match rs.find? (fun r => r.1 == l) with | some r => loadWord sz sx r.2 j | none => 0)) s

/-- The low bytes of lane l's data. -/
def State.storeBytes (s : State) (sz : Size) (b : VReg) (l : Nat) : List Byte :=
  ((List.range (sizeRegs sz)).flatMap (fun j => leBytes 4 (s.getV (VReg.plus b j) l).toNat)).take sz.bytes

/-- A scalar load extended to 64 bits. -/
def loadScalar (sz : Size) (sx : Bool) (bs : List Byte) : W64 :=
  match sz with
  | .b1 => let v := BitVec.ofNat 8 (leNat bs); if sx then v.signExtend 64 else v.setWidth 64
  | .b2 => let v := BitVec.ofNat 16 (leNat bs); if sx then v.signExtend 64 else v.setWidth 64
  | .b4 => let v := BitVec.ofNat 32 (leNat bs); if sx then v.signExtend 64 else v.setWidth 64
  | _ => le64 bs

-- ## Vector loads and stores in memory (R210)

/-- A load of the active lanes at their addresses. -/
def State.loadLanes (s : State) (g : KReg) (sz : Size) (sx : Bool) (d : VReg) (res : KReg) (addr : Nat → W64) : State :=
  if s.active g = 0 then s.adv 1
  else if s.full .ld then s.holdMe
  else
    let n := sz.bytes
    let q := s.chkLanes (s.active g).lanes (fun s l => s.chkLoad (Mask.ofLanes [l]) 1 (addr l) n (res != 0))
    q.1.settled q.2 addr (fun s =>
      let r := s.readLanes q.2 n
      let s := r.1.putLoads sz sx d r.2
      let s := if res = 0 then s else s.setK res (s.getK res &&& ~~~clearedLanes q.2)
      (s.newOp .ld true).remoteDone.trapSome 1 (trapsOf q.2 addr))

/-- Some lane of a store that fails its checks addresses an SC page, by the translations that its checks have met (R205). -/
def State.scFailed (s : State) (lanes : List Nat) (n : Nat) (addr : Nat → W64) : Bool :=
  (lanes.foldl (fun (r : State × Bool) l =>
    let q := r.1.chkWrite .store 1 (addr l) n
    (q.1, r.2 || (match q.2 with
      | .trap _ => q.1.scAt q.1.who (addr l) || q.1.scAt q.1.who (addr l + BitVec.ofNat 64 (n - 1))
      | _ => false))) (s, false)).2

/-- A store of the active lanes: a commit point if some active lane addresses an SC page (R205). -/
def State.storeTo (s : State) (g : KReg) (n : Nat) (addr : Nat → W64) (bytes : Nat → List Byte) : State :=
  if s.active g = 0 then s.adv 1
  else if s.full .st then s.holdMe
  else
    let q := s.chkLanes (s.active g).lanes (fun s l => s.chkWrite .store 1 (addr l) n)
    let o := q.1.ownLanes q.2 addr
    let sc := (passed q.2).any (fun x => x.2.sc) || (!(trapsOf q.2 addr).isEmpty && s.scFailed (s.active g).lanes n addr)
    o.1.settled o.2 addr (fun s =>
      let ts := trapsOf o.2 addr
      if sc && !ts.isEmpty then s.remoteDone.trapHere ts
      else s.performing o.2 (fun l => Mask.ofLanes [l]) addr (fun s =>
        let t := (s.storeLanes o.2 bytes).remoteDone
        if sc then (t.commit 1).adv 1 else t.trapSome 1 ts))

/-- `ld`. -/
def execLd (g : KReg) (sz : Size) (sx : Bool) (d : VReg) (a : SReg) (res : KReg) (off : BitVec 12) (s : State) : Res :=
  s.vec (.ld g sz sx d a res off) (fun s => s.loadLanes g sz sx d res (s.unitAddr a off sz.bytes))
/-- `st`. -/
def execSt (g : KReg) (sz : Size) (a : SReg) (b : VReg) (off : BitVec 12) (s : State) : Res :=
  s.vec (.st g sz a b off) (fun s => s.storeTo g sz.bytes (s.unitAddr a off sz.bytes) (s.storeBytes sz b))
/-- `gth`. -/
def execGth (g : KReg) (sz : Size) (sx : Bool) (d a : VReg) (res : KReg) (off : BitVec 12) (s : State) : Res :=
  s.vec (.gth g sz sx d a res off) (fun s => s.loadLanes g sz sx d res (s.pairAddr a off))
/-- `sct`. -/
def execSct (g : KReg) (sz : Size) (a b : VReg) (off : BitVec 12) (s : State) : Res :=
  s.vec (.sct g sz a b off) (fun s => s.storeTo g sz.bytes (s.pairAddr a off) (s.storeBytes sz b))

-- ## Scratchpad loads and stores (R210, R408)

/-- A scratchpad lane checked; a load of a poisoned word, or a store that covers part of one, meets poison. -/
def State.scrLane (s : State) (align : Nat) (a : W64) : XRes Place :=
  match s.scrCheck s.cur.core s.me.ctx align a with
  | .ok p => if s.scrPoison p align then .fail ordPhys 23 else .ok p
  | r => r

/-- The places of the lanes that passed. -/
def scrPassed (rs : List (Nat × XRes Place)) : List (Nat × Place) :=
  rs.filterMap (fun r => match r.2 with | .ok p => some (r.1, p) | _ => none)
/-- The traps of the lanes that failed. -/
def scrTraps (rs : List (Nat × XRes Place)) (addr : Nat → W64) : List Trap :=
  rs.filterMap (fun r => match r.2 with | .fail _ c => some { lane := r.1, code := c, tval := addr r.1 } | _ => none)

/-- `spld`. -/
def execSpld (g : KReg) (sz : Size) (am sx : Bool) (d : VReg) (a : BitVec 8) (off : BitVec 12) (s : State) : Res :=
  s.vec (.spld g sz am sx d a off) (fun s =>
    if s.active g = 0 then s.adv 1
    else if s.full .ld then s.holdMe
    else
      let addr (l : Nat) : W64 := if am then s.unitAddr (a.setWidth 6) off sz.bytes l else s.wordAddr a off l
      let rs := (s.active g).lanes.map (fun l => (l, s.scrLane sz.bytes (addr l)))
      let got := (scrPassed rs).map (fun x => (x.1, s.placeGet x.2 sz.bytes))
      ((s.putLoads sz sx d got).newOp .ld true).trapSome 1 (scrTraps rs addr))

/-- A store whose place is checked; all 8 bytes of a poisoned word may be written. -/
def State.scrStoreLane (s : State) (n : Nat) (a : W64) : XRes Place :=
  if n < 8 then s.scrLane n a else s.scrCheck s.cur.core s.me.ctx n a

/-- `spst`: lanes in ascending order, so that the highest-numbered lane's bytes remain (R207). -/
def execSpst (g : KReg) (sz : Size) (am : Bool) (a : BitVec 8) (b : VReg) (off : BitVec 12) (s : State) : Res :=
  s.vec (.spst g sz am a b off) (fun s =>
    if s.active g = 0 then s.adv 1
    else if s.full .st then s.holdMe
    else
      let addr (l : Nat) : W64 := if am then s.unitAddr (a.setWidth 6) off sz.bytes l else s.wordAddr a off l
      let rs := (s.active g).lanes.map (fun l => (l, s.scrStoreLane sz.bytes (addr l)))
      let bytes := s.storeBytes sz b
      let s := (scrPassed rs).foldl (fun s x => s.putBytes x.2 (bytes x.1)) s
      (s.newOp .st true).trapSome 1 (scrTraps rs addr))

-- ## Scalar load and store (R204, R210)

/-- The one access of a string-wide load or store: held, waiting for a link, trapping every lane, or going on with `k`. -/
def State.oneAccess (s : State) (c : LaneChk) (va : W64) (k : State → State) : State :=
  match c with
  | .go _ _ _ => k s
  | .nonres => s.remoteDone.trapAll 17 va
  | .trap code => s.remoteDone.trapAll code va
  | .sleep a => s.sleepOn a s.sp.e va
  | .again => s.holdMe

/-- `sld`. -/
def execSld (sz : Size) (sx : Bool) (d a : SReg) (off : BitVec 12) (s : State) : Res :=
  .next (
    if s.full .ld then s.holdMe
    else
      let va := s.getS a + offOf off
      let q := s.chkLoad s.sp.m 1 va sz.bytes false
      q.1.oneAccess q.2 va (fun s =>
        let r := s.readLanes [(0, q.2)] sz.bytes
        (((r.1.setS d (loadScalar sz sx ((r.2.map (·.2)).headD []))).newOp .ld true).remoteDone).adv 1))

/-- `sst`: a commit point on an SC page (R205). -/
def execSst (sz : Size) (a b : SReg) (off : BitVec 12) (s : State) : Res :=
  .next (
    if s.full .st then s.holdMe
    else
      let va := s.getS a + offOf off
      let q := s.chkWrite .store 1 va sz.bytes
      let o := q.1.ownLanes [(0, q.2)] (fun _ => va)
      let c := (o.2.head?.map (·.2)).getD .again
      o.1.oneAccess c va (fun s => s.performing o.2 (fun _ => s.sp.m) (fun _ => va) (fun s =>
        let bs := leBytes sz.bytes (s.getS b).toNat
        let t := (s.storeLanes o.2 (fun _ => bs)).remoteDone
        (if (passed o.2).any (fun x => x.2.sc) then t.commit 1 else t).adv 1)))

-- ## Hints (R99, R212 to R214)

/-- The page of an address as the coalescer sees it: of the installed size, else 4 KiB (R93). -/
def State.hintPage (s : State) (va : W64) : Nat × Nat :=
  match if s.who.untranslated then none else s.tlbFind s.who .hint va with
  | some t => (t.base, t.log)
  | none => (va.toNat / 4096 * 4096, 12)

/-- A page's hint dropped: counted for the lowest lane that names it (R99, R100). -/
def State.dropHint (s : State) (lane : Nat) : State := s.modSp (fun x => { x with pf := x.pf ++ [lane] })

/-- One line of a prefetch brought to the highest level that may hold it, up to the target (R61, R63, R213): false drops the page. -/
def State.prefetchLine (s : State) (tgt : PfTgt) (k : LineKind) (line : Nat) : State × Bool :=
  if s.poisoned line then (s, false)
  else if lineRemote line then (s, true)
  else if lineHbm line && (k.llcOnly || (s.rangeOf line).isSome || tgt == .llc) then (s.allocLlc line, true)
  else
    let r := s.readLine s.cur.core k (tgt == .l1 && !k.noL1) false line
    (r.1, r.2 == .ok)

/-- The lanes of one page, by their addresses, prefetched; a page that fails leaves no effect but its count. -/
def State.prefetchPage (s : State) (tgt : PfTgt) (lanes : List (Nat × W64)) : State :=
  let low := (lanes.map (·.1)).headD 0
  let r := lanes.foldl (fun (r : State × Bool) (x : Nat × W64) =>
    if !r.2 then r
    else
      let q := r.1.check r.1.who .hint 1 x.2 1
      match q.2 with
      | .ok a => a.lines.foldl (fun (r : State × Bool) (l : Nat) =>
          if r.2 then
            let p := r.1.prefetchLine tgt (r.1.lineKind a l) l
            (p.1.insertLow r.1 s.me.launch s.cur.core x.2 [l], p.2)
          else r) (q.1, true)
      | _ => (r.1, false)) (s, true)
  if r.2 then r.1 else s.dropHint low

/-- The active lanes grouped by page, pages in the order of their lowest lanes. -/
def State.pages (s : State) (lanes : List Nat) (addr : Nat → W64) : List (List (Nat × W64)) :=
  ((lanes.map (fun l => s.hintPage (addr l))).eraseDups).map (fun p =>
    (lanes.filter (fun l => s.hintPage (addr l) == p)).map (fun l => (l, addr l)))

/-- `pf` (R213). -/
def execPf (g : KReg) (tgt : PfTgt) (a : VReg) (off : BitVec 12) (s : State) : Res :=
  s.vec (.pf g tgt a off) (fun s =>
    ((s.pages (s.active g).lanes (s.pairAddr a off)).foldl (fun s p => s.prefetchPage tgt p) s).adv 1)

/-- A residency request posted, unless it is queued already or the queue is full (R214). -/
def State.postResid (s : State) (va : W64) : State :=
  let e := (s.me.ctx, va.extractLsb' 12 45)
  if s.resq.contains e || decide (256 ≤ s.resq.length) then s
  else State.raiseIrq { s with resq := s.resq ++ [e] } 0

/-- One page of a `resid`: a line that a lane names on it and that is poisoned drops the page (R81, R99). -/
def State.residPage (s : State) (lanes : List (Nat × W64)) : State :=
  match lanes with
  | [] => s
  | (l, va) :: _ =>
    let q := s.check s.who .hint 1 va 1
    let bad := lanes.any (fun x => match (q.1.check s.who .hint 1 x.2 1).2 with
      | .ok a => a.lines.any s.poisoned
      | _ => false)
    match q.2 with
    | .ok _ => if bad then s.dropHint l else q.1
    | .fail o _ => if o = ordResident then (s.dropHint l).postResid va else s.dropHint l
    | _ => s.dropHint l

/-- `resid` (R214). -/
def execResid (g : KReg) (a : VReg) (off : BitVec 12) (s : State) : Res :=
  s.vec (.resid g a off) (fun s =>
    ((s.pages (s.active g).lanes (s.pairAddr a off)).foldl State.residPage s).adv 1)

end Sys2Proof.Machine
end

