-- ==== Sys2Proof/Machine/Views.lean ====
section
/-!
DEFINITION. The view instructions, major 0xD1 (spec/10 R281, R284, R285, R293 to R296), with their completion events and the Reckoner's
(R287, R289, R291).
-/
namespace Sys2Proof.Machine
open Sys2Proof

-- ## Registration (R281, R294)

/-- A format with a scale plane. -/
def hasScale (t : Ty) : Bool := t == .b8 || t == .b4

/-- The view a record's words describe, its areas not yet located. -/
def View.ofWords (ctx : BitVec 12) (ws : Vector W64 11) : View :=
  { ctx := ctx, words := ws, mlines := [], elines := [], slines := [], tlines := [], dropping := false }

/-- A record is malformed (R281, R294 code 2). -/
def recordBad (ws : List W64) : Bool :=
  let w (i : Nat) : W64 := ws.getD i 0
  let v := View.ofWords 0 (gen 11 w)
  let mf := fld (w 0) 63 60
  let vf := fld (w 3) 63 60
  let sc := vf == 14 || vf == 15
  fld (w 0) 59 57 != 0 || fld (w 2) 63 48 != 0 || fld (w 3) 46 32 != 0 || fld (w 4) 63 57 != 0 || fld (w 5) 63 57 != 0
    || (List.range 4).any (fun i => fld (w (6 + i)) 63 48 != 0) || fld (w 10) 63 57 != 0
    || (List.range 5).any (fun i => w (11 + i) != 0)
    || !(mf == 8 || mf == 9 || mf == 10) || !(vf == 9 || vf == 10 || vf == 11 || vf == 12 || sc)
    || decide (3 < fld (w 3) 59 57) || (v.sat && vf != 12) || v.spol == 3 || v.fpol == 3
    || v.mrows == 0 || decide (2 ^ 24 < v.mrows) || v.mcols == 0 || v.mcols % 32 != 0 || decide (2 ^ 20 < v.mcols)
    || (v.col && v.mrows % 32 != 0)
    || v.mbase.toNat % 128 != 0 || v.mstr % 128 != 0 || decide (v.mstr < v.mcols * v.msize)
    || v.ebase.toNat % 16 != 0 || v.estr % 16 != 0 || decide (v.estr < v.bpr * v.eb)
    || (if sc then v.sbase.toNat % 2 != 0 || v.sstr % 2 != 0 || decide (v.sstr < 2 * v.bpr)
        else w 5 != 0 || v.sstr != 0 || v.ssh != 0)
    || v.tbase.toNat % 8 != 0 || decide (2 ^ 28 < v.nblk)

/-- The local rows that a shard holds: up to the last view row in it. -/
def View.shardRows (v : View) (sh : Nat) : Nat :=
  let full := v.vrows / (v.srows * v.nsh)
  let rest := v.vrows % (v.srows * v.nsh)
  full * v.srows + min v.srows (rest - sh * v.srows)

/-- The areas of a view as (address, length): the master, the element planes, the scale planes, the tag plane. A shard that
holds no row takes no bytes. -/
def View.areas (v : View) : (Nat × Nat) × List (Nat × Nat) × List (Nat × Nat) × (Nat × Nat) :=
  let plane (base sh str row : Nat) : List (Nat × Nat) := (List.range v.nsh).map (fun s =>
    (base + s * sh, if v.shardRows s = 0 then 0 else (v.shardRows s - 1) * str + row))
  ((v.mbase.toNat, (v.mrows - 1) * v.mstr + v.mcols * v.msize),
   plane v.ebase.toNat v.esh v.estr (v.bpr * v.eb),
   if hasScale v.vfmt then plane v.sbase.toNat v.ssh v.sstr (2 * v.bpr) else [],
   (v.tbase.toNat, 8 * v.nblk))

/-- The pages of some areas: `fail` if one of them fails its checks or is not local HBM4E, or is SC (R294 code 3). -/
def State.viewPages (s : State) (bk : Bool) : List (Nat × Nat) → State × PagesRes
  | [] => (s, .ok [])
  | (va, len) :: r =>
    let q := s.pagesOf s.who .store true true (len / 4096 + 2) va (va + len)
    match q.2 with
    | .ok ps =>
      if ps.any (fun p => tierOf p.pa != .hbm || q.1.pageRemote p
          || (match p.tr with | some t => pteSC t.pte || (!bk && pteBK t.pte) | none => false)) then
        (q.1, .fail 0 0)
      else
        let z := q.1.viewPages bk r
        match z.2 with
        | .ok qs => (z.1, .ok (ps ++ qs))
        | e => (z.1, e)
    | e => (q.1, e)

/-- The lines of some areas. -/
def State.linesOf (s : State) (ps : List PageAt) (as : List (Nat × Nat)) : List (List Nat) :=
  as.map (fun a => if a.2 = 0 then [] else s.areaLines s.who ps a.1 a.2)

/-- Two lists share a line. -/
def shareLine (a b : List Nat) : Bool := a.any b.contains

/-- Some two lists of a list share a line. -/
def anyShare : List (List Nat) → Bool
  | [] => false
  | a :: r => r.any (shareLine a) || anyShare r

/-- The refusal code of R294 for a located view, if any. -/
def State.vwregRefused (s : State) (v : View) : Option Nat :=
  let own := [v.mlines] ++ v.elines ++ v.slines ++ [v.tlines]
  if 4 ≤ (s.viewList.filter (fun x => x.2.mlines == v.mlines)).length then some 1
  else if anyShare own
      || own.any (fun a => a.any (fun l => (s.rangeOf l).isSome || s.isPlane l))
      || own.any (fun a => s.viewList.any (fun x => x.2.mlines != v.mlines && shareLine a x.2.mlines)) then some 4
  else none

/-- The free handles. -/
def State.freeViews (s : State) : List (Fin 64) := (List.finRange 64).filter (fun h => (s.views[h]).isNone)

/-- An EX or shared copy of a line recalled to its home (R284, R285). -/
def State.recallLine (s : State) (line : Nat) : State := (s.homeTake line).1

/-- The translations of some lines' pages invalidated on every core (R284). -/
def State.dropLineTrs (s : State) (lines : List Nat) : State :=
  { s with tlb := s.tlb.filter (fun t => !(s.pteLocal t.pte && lines.any (fun l => s.pageHas (ptePA t.pte) t.log l))) }

/-- The steps of R294 on success: the view entered under handle h, its master and planes recalled, its tags set and every block
triggered. -/
def State.register (s : State) (h : Fin 64) (v : View) : State :=
  let s := s.dropLineTrs v.mlines
  let s := (v.mlines ++ v.elines.flatten ++ v.slines.flatten ++ v.tlines).foldl State.recallLine s
  let s := { s with views := s.views.set h (some v) }
  let s := (List.range v.nblk).foldl (fun s b => s.tagSet v b (mkTag false false 0 1)) s
  (List.range v.nblk).foldl (fun s b => s.trigger h b) s

/-- The result that says a refusal: 2^63 + code. -/
def refusal (code : Nat) : W64 := BitVec.ofNat 64 (2 ^ 63 + code)

/-- `vwreg` after its record is read: a commit point; D receives a handle or a refusal. -/
def State.vwregGo (s : State) (d : SReg) (ws : List W64) : State :=
  let out (s : State) (v : W64) : State := ((s.setS d v).commit 1).adv 1
  match s.freeViews with
  | [] => out s (refusal 1)
  | h0 :: _ =>
    if recordBad ws then out s (refusal 2)
    else
      let v := View.ofWords s.me.ctx (gen 11 (fun i => ws.getD i 0))
      let as := v.areas
      let m := s.viewPages false [as.1]
      let e := m.1.viewPages true (as.2.1 ++ as.2.2.1 ++ [as.2.2.2])
      match m.2, e.2 with
      | .ok mp, .ok ep =>
        let s := e.1
        let lin (a : List (Nat × Nat)) : List (List Nat) := s.linesOf (mp ++ ep) a
        let v := { v with mlines := ((lin [as.1]).headD []), elines := lin as.2.1, slines := lin as.2.2.1
                          tlines := ((lin [as.2.2.2]).headD []) }
        match s.vwregRefused v with
        | some c => out s (refusal c)
        | none =>
          let all := v.mlines ++ v.elines.flatten ++ v.slines.flatten ++ v.tlines
          if !all.all (fun l => s.lineFree l && s.reachable l) then ((all.foldl State.closeLine s).wakeFor all).holdMe
          else
            let free := s.freeViews
            let h := free.getD (Config.choose s.free % free.length) h0
            out (State.register { s with free := s.free + 1 } h v) (BitVec.ofNat 64 h.val)
      | .fail _ _, _ => out m.1 (refusal 3)
      | .ok _, .fail _ _ => out e.1 (refusal 3)
      | .sleep a va, _ => m.1.sleepOn a m.1.sp.e va
      | .ok _, .sleep a va => e.1.sleepOn a e.1.sp.e va
      | .hold, _ => m.1.holdMe
      | .ok _, .hold => e.1.holdMe

/-- `vwreg`: the record is one 128-byte read at package scope, with acquire. -/
def execVwreg (d a : SReg) (s : State) : Res :=
  let va := s.getS a
  let q := s.chkLoad s.sp.m 128 va 128 false
  .next (q.1.oneAccess q.2 va (fun s =>
    let r := s.readLanes [(0, q.2)] 128
    let bs := (r.2.map (·.2)).headD []
    (r.1.remoteDone.acquire .pkg).vwregGo d ((List.range 16).map (wordAt bs))))

-- ## Dropping and synchronising (R295, R296)

/-- The view that a handle names in the issuing context. -/
def State.ownView (s : State) (v : W64) : Option (Fin 64 × View) :=
  s.viewList.find? (fun x => x.1.val == v.toNat && x.2.ctx == s.me.ctx)

/-- `vwdrop`: a commit point; the split waits until VWDROP_COMPLETE. -/
def execVwdrop (a : SReg) (s : State) : Res :=
  match s.ownView (s.getS a) with
  | some (h, v) =>
    .next (State.waitMe { s with
      views := s.views.set h (some { v with dropping := true })
      timers := s.timers.filter (fun t => t.1 != h) } (.drop h))
  | none => .next ((s.commit 1).adv 1)

/-- The blocks of a view. -/
def View.blocks (v : View) : List Nat := List.range v.nblk

/-- `vwsync`: a release, the samples n(b), the triggers; then the split waits. -/
def execVwsync (sc : Scope) (d a : SReg) (s : State) : Res :=
  .next (s.releasing sc (fun s =>
    match s.ownView (s.getS a) with
    | none => ((s.acquire sc).setS d 0).adv 1
    | some (h, v) =>
      let ns := v.blocks.map (fun b => (b, tagOwed (s.tagGet v b)))
      let s := v.blocks.foldl (fun s b =>
        let t := s.tagGet v b
        if tagStale t || tagFlt t then s.trigger h b else s) s
      s.waitMe (.sync h ns sc d)))

/-- VWDROP_COMPLETE (R295): no derivation of the view is in flight; the handle is freed. -/
def execVwdropComplete (s : State) : Res :=
  match s.ev with
  | .vwdropComplete h =>
    match s.views[h] with
    | some v =>
      if v.dropping && !s.derivs.any (fun d => d.view == h) then
        let s := { s with views := s.views.set h none }
        let s := if s.viewList.any (fun x => x.2.mlines == v.mlines) then s else s.dropLineTrs v.mlines
        .next (s.passAll (· == .drop h))
      else .next s
    | none => .next s
  | _ => .fault .notThisEvent

/-- The end of one split's `vwsync` (R296). -/
def State.endSync (s : State) (v : Option View) (sc : Scope) (d : SReg) : State :=
  let n := match v with | some v => (v.blocks.filter (fun b => tagFlt (s.tagGet v b))).length | none => 0
  (((s.acquire sc).setS d (BitVec.ofNat 64 n)).adv 1).waitMe .none

/-- VWSYNC_COMPLETE (R296): every block has TAG ≥ n(b) and BUSY 0. -/
def execVwsyncComplete (s : State) : Res :=
  match s.ev with
  | .vwsyncComplete c k j =>
    match ((s.strAt c k).splits[j]).wait with
    | .sync h ns sc d =>
      match s.views[h] with
      | some v =>
        if ns.all (fun x => let t := s.tagGet v x.1; genGe (tagTag t) x.2 && !tagBusy t) then
          .next (s.asSplit { core := c, slot := k, split := j } (fun s => s.endSync (some v) sc d))
        else .next s
      | none => .next (s.asSplit { core := c, slot := k, split := j } (fun s => s.endSync none sc d))
    | _ => .next s
  | _ => .fault .notThisEvent

-- ## The Reckoner's steps (R284, R287, R289)

/-- MASTER_WRITE: the home records a write to bytes of a master line (R284). -/
def execMasterWrite (s : State) : Res :=
  match s.ev with
  | .masterWrite line bytes => .next (if s.isMaster line then s.masterWritten line bytes else s)
  | _ => .fault .notThisEvent

/-- DERIVATION_DELAY_EXPIRY: a block's delay has passed since it went stale (R287). -/
def execDerivationDelayExpiry (s : State) : Res :=
  match s.ev with
  | .derivationDelayExpiry h b =>
    .next (if s.timers.any (fun t => t.1 == h && t.2.1 == b && decide (t.2.2 ≤ s.ptime)) then s.trigger h b else s)
  | _ => .fault .notThisEvent

/-- The Reckoner of a block has started fewer than 16 derivations that are not complete (R288). -/
def State.reckonerFree (s : State) (v : View) (b : Nat) : Bool :=
  let die := homeOf (lineOf (v.eloc b 0))
  decide ((s.derivs.filter (fun d => d.started && (match s.views[d.view] with
    | some u => homeOf (lineOf (u.eloc d.blk 0)) == die
    | none => false))).length < 16)

/-- DERIVATION_START: BUSY is set; a Reckoner derives up to 16 blocks at once (R287, R288). -/
def execDerivationStart (s : State) : Res :=
  match s.ev with
  | .derivationStart h b =>
    let mine (d : Deriv) : Bool := d.view == h && d.blk == b
    match s.views[h] with
    | some v =>
      if s.derivs.any (fun d => mine d && !d.started) && !s.derivs.any (fun d => mine d && d.started) && s.reckonerFree v b then
        let t := s.tagGet v b
        .next ({ s.tagSet v b (mkTag (tagFlt t) true (tagTag t) (tagOwed t)) with
                  derivs := s.derivs.map (fun d => if mine d then { d with started := true } else d) })
      else .next s
    | none => .next s
  | _ => .fault .notThisEvent

/-- DERIVATION_COMPLETE: the bytes, then TAG, FLT and BUSY (R287, R291). -/
def execDerivationComplete (s : State) : Res :=
  match s.ev with
  | .derivationComplete h b =>
    match s.derivs.find? (fun d => d.view == h && d.blk == b && d.started) with
    | some d => .next (State.derive { s with derivs := s.derivs.filter (fun e => e != d) } h b d.n)
    | none => .next s
  | _ => .fault .notThisEvent

/-- The reader of a VIEW_READ: the home's own access to a block. -/
def blockReader (v : View) (b : Nat) : Reader := { core := 0, slot := 0, uid := 0, lanes := 0, va := BitVec.ofNat 64 (v.eloc b 0) }

/-- VIEW_READ: a read arrives at a block; a read that must wait triggers it (R289). -/
def execViewRead (s : State) : Res :=
  match s.ev with
  | .viewRead h b engine =>
    match s.views[h] with
    | some v =>
      let r := s.viewBlock (blockReader v b) h v b engine
      .next (if r.2 == .wait then r.1
        else { r.1 with vreads := r.1.vreads.filter (fun x => !(x.who == blockReader v b && x.view == h && x.blk == b)) })
    | none => .next s
  | _ => .fault .notThisEvent

end Sys2Proof.Machine
end

