-- ==== Sys2Proof/Machine/Abacus.lean ====
section
/-!
DEFINITION. The bank abacus: `bcmd` and `bwait`, major 0xD2, the sixteen abacus instructions, and the steps of a command (spec/11 R298
to R315).
-/
namespace Sys2Proof.Machine
open Sys2Proof

-- ## The abaci (R298)

/-- An abacus at rest. -/
def Abacus.idle (d : DieId) (p : PchId) : Abacus := { die := d, pch := p, coming := [], queue := [], run := none }

/-- The abacus of a pseudo-channel. -/
def State.abAt (s : State) (d : DieId) (p : PchId) : Abacus :=
  (s.abaci.find? (fun a => a.die == d && a.pch == p)).getD (Abacus.idle d p)

/-- An abacus changed; one at rest is not listed. -/
def State.modAb (s : State) (d : DieId) (p : PchId) (f : Abacus → Abacus) : State :=
  let a := f (s.abAt d p)
  let rest := s.abaci.filter (fun x => !(x.die == d && x.pch == p))
  { s with abaci := if a = Abacus.idle d p then rest else a :: rest }

/-- Commands that an abacus's queue holds or has promised room to. -/
def Abacus.load (a : Abacus) : Nat := a.coming.length + a.queue.length

-- ## Issue (R300 to R303)

/-- The fields of a descriptor are within R300. -/
def descOk (w : Nat → W64) : Bool :=
  let wlen := fld (w 5) 63 42
  let ilen := fld (w 5) 41 25
  let iboff := fld (w 5) 24 8
  let olen := fld (w 6) 24 0
  (List.range 5).all (fun i => fld (w i) 63 57 == 0) && fld (w 6) 63 25 == 0
    && fld (w 0) 6 0 == 0 && fld (w 1) 1 0 == 0 && fld (w 2) 3 0 == 0 && fld (w 3) 1 0 == 0 && fld (w 4) 2 0 == 0
    && (ilen != 0 || w 2 == 0)
    && wlen % 128 == 0 && decide (128 ≤ wlen) && decide (wlen ≤ 2 ^ 21)
    && decide (ilen ≤ 65536) && ilen % 16 == 0 && iboff % 16 == 0 && decide (iboff + ilen ≤ 65536)
    && decide (1 ≤ olen) && decide (olen ≤ 2 ^ 24)

/-- What the checks of R302 give a lane. -/
inductive BankChk where
  | ok (c : BankCmd) (trs : List Tr)
  | trap (code : Nat) (tval : W64)
  | sleep (a : AgentId) (va : W64)
  | again
  deriving DecidableEq, Repr

/-- The pages of one extent of a command, as a kind (R302 item 4). -/
def State.extPages (s : State) (k : AccKind) (va : W64) (len : Nat) : State × PagesRes :=
  if len = 0 then (s, .ok []) else s.pagesOf s.who k true true (len / 4096 + 2) va.toNat (va.toNat + len)

/-- The extents of a command checked one after another; their pages in order. -/
def State.extAll (s : State) : List (AccKind × W64 × Nat) → State × PagesRes × List (List PageAt)
  | [] => (s, .ok [], [])
  | (k, va, n) :: r =>
    let q := s.extPages k va n
    match q.2 with
    | .ok ps =>
      let z := q.1.extAll r
      (z.1, z.2.1, ps :: z.2.2)
    | e => (q.1, e, [])

/-- The physical address under pages; none for another device's. -/
def State.paUnder (s : State) (ps : List PageAt) (va : Nat) : Option Nat :=
  match ps.find? (fun p => decide (p.va ≤ va) && decide (va / 2 ^ p.log = p.va / 2 ^ p.log)) with
  | some p => if s.pageRemote p then none else some (p.pa + va % 2 ^ p.log)
  | none => none

/-- The page of an address carries BK. -/
def bkAt (ps : List PageAt) (va : Nat) : Bool :=
  ps.any (fun p => decide (va / 2 ^ p.log = p.va / 2 ^ p.log) && (match p.tr with | some t => pteBK t.pte | none => false))

/-- The addresses of an extent at which its lines begin, the first one its own. -/
def lineStarts (va len : Nat) : List Nat :=
  if len = 0 then [] else
  (List.range ((va + len - 1) / 128 + 1 - va / 128)).map (fun i => if i = 0 then va else (va / 128 + i) * 128)

/-- The bank-local region and the granule that decode an address (R299). -/
def State.granuleOf (s : State) (pa : Nat) : Option (Nat × Nat) :=
  if pa < 0xC000000000 then
    match s.regionOf pa with
    | some e => if regMODE e = 1 then some (regBASE e, (pa - regBASE e) / 2 ^ regGLOG e) else none
    | none => none
  else none

/-- The memory die of an address of a command's BK page. -/
def State.dieUnder (s : State) (ps : List PageAt) (va : Nat) : Option DieId :=
  match s.paUnder ps va with
  | some pa => match s.decodePa pa with | .loc l => homeOf (lineOf l) | _ => none
  | none => none

/-- The first address of the weight extent that R299 refuses. -/
def State.weightRefused (s : State) (ps : List PageAt) (va len : Nat) : Option Nat :=
  let gran (a : Nat) : Option (Nat × Nat) := (s.paUnder ps a).bind s.granuleOf
  let first := gran va
  (lineStarts va len).find? (fun a => !bkAt ps a || (gran a).isNone || gran a != first)

/-- The first address of a program or input extent that is not in a BK page of the die. -/
def State.extRefused (s : State) (ps : List PageAt) (d : Option DieId) (va len : Nat) : Option Nat :=
  (lineStarts va len).find? (fun a => !bkAt ps a || s.dieUnder ps a != d)

/-- The first output address whose line is not in an active `.f32` range of scope `.pkg` or `.sys` on the die. -/
def State.outRefused (s : State) (ps : List PageAt) (d : Option DieId) (va len : Nat) : Option Nat :=
  (lineStarts va len).find? (fun a =>
    s.dieUnder ps a != d ||
      (match s.paUnder ps a with
       | some pa => match s.decodePa pa with
         | .loc l => match s.rangeOf (lineOf l) with
           | some q => q.ending || q.fmt != .f32 || decide (q.scope.code.toNat < 3)
           | none => true
         | _ => true
       | none => true))

/-- The location's line under pages at an address, if it lies in this device's memory. -/
def State.lineOfPage (s : State) (ps : List PageAt) (va : Nat) : Option Nat :=
  (s.paUnder ps va).bind (fun pa => match s.decodePa pa with | .loc l => some (lineOf l) | _ => none)

/-- The first address of an extent in a view or tag plane (R285). -/
def State.planeAt (s : State) (ps : List PageAt) (va len : Nat) : Option Nat :=
  (lineStarts va len).find? (fun a => ((s.lineOfPage ps a).map s.isPlane).getD false)

/-- Item 4 of R302: the extents of a descriptor by R92, the output and the status word as write kinds, which view planes (58) and, for the
status word, declared ranges (37) refuse. -/
def State.bankPages (s : State) (es : List (W64 × Nat)) (out : W64 × Nat) (status : W64) : State × PagesRes × List (List PageAt) :=
  let q := s.extAll (es.map (fun e => (.load, e.1, e.2)) ++ [(.contrib, out.1, out.2)])
  match q.2.1 with
  | .ok _ =>
    match q.1.planeAt (q.2.2.getD es.length []) out.1.toNat out.2 with
    | some a => (q.1, .fail (BitVec.ofNat 64 a) 58, [])
    | none =>
      let z := q.1.extPages .store status 8
      match z.2 with
      | .ok ps =>
        match z.1.lineOfPage ps status.toNat with
        | some l => if z.1.isPlane l then (z.1, .fail status 58, []) else if (z.1.rangeOf l).isSome then (z.1, .fail status 37, [])
                    else (z.1, .ok [], q.2.2 ++ [ps])
        | none => (z.1, .ok [], q.2.2 ++ [ps])
      | e => (z.1, e, [])
  | e => (q.1, e, [])

/-- The pseudo-channel of a location. -/
def pchOf (loc : Nat) : PchId := ⟨loc / 2 ^ 30 % 64, by omega⟩

/-- Items 3 to 5 of R302 on a descriptor's words: the command. -/
def State.bankFields (s : State) (bar : Place) (sc : Scope) (at_ : W64) (w : Nat → W64) : State × BankChk :=
  if !descOk w then (s, .trap 39 at_)
  else
    let va (i : Nat) : W64 := va57 (w i)
    let wlen := fld (w 5) 63 42
    let ilen := fld (w 5) 41 25
    let plen := fld (w 5) 7 0 + 1
    let olen := fld (w 6) 24 0
    let q := s.bankPages [(va 0, wlen), (va 1, 4 * plen), (va 2, ilen)] (va 3, 4 * olen) (va 4)
    match q.2.1 with
    | .fail a c => (q.1, .trap c a)
    | .sleep x a => (q.1, .sleep x a)
    | .hold => (q.1, .again)
    | .ok _ =>
      let s := q.1
      let ps (i : Nat) : List PageAt := q.2.2.getD i []
      let n (i : Nat) : Nat := (va i).toNat
      let d := s.dieUnder (ps 0) (n 0)
      let spa := s.paUnder (ps 4) (n 4)
      let sloc : Option Nat := spa.bind (fun pa => match s.decodePa pa with | .loc l => if lineHbm (lineOf l) then some l else none | _ => none)
      let bad : Option Nat := s.weightRefused (ps 0) (n 0) wlen <|> s.extRefused (ps 1) d (n 1) (4 * plen)
        <|> s.extRefused (ps 2) d (n 2) ilen <|> s.outRefused (ps 3) d (n 3) (4 * olen)
        <|> (if sloc.isNone || bkAt (ps 4) (n 4) then some (n 4) else none)
      match bad with
      | some a => (s, .trap 39 (BitVec.ofNat 64 a))
      | none =>
        (s, .ok
          { core := s.cur.core, slot := s.cur.slot, uid := s.me.uid
            wlines := s.areaLines s.who (ps 0) (n 0) wlen, wlen := wlen
            plines := s.areaLines s.who (ps 1) (n 1) (4 * plen), poff := n 1 % 128, plen := plen
            ilines := if ilen = 0 then [] else s.areaLines s.who (ps 2) (n 2) ilen, ioff := n 2 % 128, ilen := ilen
            iboff := fld (w 5) 24 8
            olines := s.areaLines s.who (ps 3) (n 3) (4 * olen), ooff := n 3 % 128, olen := olen
            spa := spa.getD 0, sloc := sloc.getD 0, arg := w 7, bar := bar, scope := sc }
          ((ps 3 ++ ps 4).filterMap (·.tr)))

/-- Items 2 to 5 of R302 on one lane's descriptor address; within item 2 a misaligned address comes before a peer's, and a peer's before the
conditions of R113 and R108: DESIGN CHOICE (log 92). -/
def State.bankLane (s : State) (bar : Place) (sc : Scope) (a : W64) : State × BankChk :=
  if !scrRange a then (s, .trap 26 a)
  else if a.toNat % 64 != 0 then (s, .trap 22 a)
  else if scrPeer s.cur.core a then (s, .trap 39 a)
  else
    match s.scrByte s.cur.core s.me.ctx a with
    | .ok p =>
      if s.scrPoison p 64 then (s, .trap 23 a)
      else
        let bs := s.placeGet p 64
        s.bankFields bar sc a (fun i => wordAt bs i)
    | .fail _ c => (s, .trap c a)
    | _ => (s, .again)

/-- The abacus of a command. -/
def BankCmd.target (c : BankCmd) : DieId × PchId :=
  let l := areaLoc c.wlines 0 0
  ((homeOf (lineOf l)).getD 0, pchOf l)

/-- Every target abacus has queue room for its commands (R303); more than 16 commands for one abacus take its whole queue, and the rest
follow as it empties (log 77). -/
def State.bankRoom (s : State) (cs : List BankCmd) : Bool :=
  cs.all (fun c => decide ((s.abAt c.target.1 c.target.2).load + min (cs.filter (fun x => x.target == c.target)).length 16 ≤ 16))

/-- `bcmd` (R301 to R303): a commit point that issues a command per active lane, or none; with no active lane it has no effect (R160). While
a queue is full, or BKN would pass its limit, the whole string is held (R303). -/
def execBcmd (g : KReg) (sc : Scope) (a : VReg) (b : SReg) (s : State) : Res :=
  s.vec (.bcmd g sc a b) (fun s =>
    if s.active g = 0 then s.adv 1 else
    let r := s.barCheck s.who false (s.getS b)
    r.1.onCheck r.2 (s.getS b) (fun s bar =>
      let lanes := (s.active g).lanes
      let q := lanes.foldl (fun (r : State × List (Nat × BankChk)) l =>
        let z := r.1.bankLane bar sc ((r.1.getV a l).setWidth 64)
        (z.1, r.2 ++ [(l, z.2)])) (s, [])
      let s := q.1
      let ts : List Trap := q.2.filterMap (fun x => match x.2 with | .trap c v => some { lane := x.1, code := c, tval := v } | _ => none)
      let cs := q.2.filterMap (fun x => match x.2 with | .ok c _ => some c | _ => none)
      let trs := (q.2.flatMap (fun x => match x.2 with | .ok _ t => t | _ => [])).eraseDups
      match q.2.findSome? (fun x => match x.2 with | .sleep g va => some (g, va) | _ => none) with
      | some (x, va) => s.sleepOn x s.sp.e va
      | none =>
        if q.2.any (fun x => x.2 == .again) then s.holdMe
        else if !ts.isEmpty then s.trapHere ts
        else if !s.bankRoom cs || decide (4095 < s.me.bkn.toNat + cs.length) then s.holdString
        else
          let d := s.setDirties trs
          match d.2 with
          | .ok =>
            let s := cs.foldl (fun s c => s.modAb c.target.1 c.target.2 (fun x => { x with coming := x.coming ++ [c] })) d.1
            ((s.modMe (fun t => { t with bkn := t.bkn + BitVec.ofNat 12 cs.length })).commit 1).adv 1
          | .sleep x => d.1.sleepOn x (s.active g) (s.getS b)
          | _ => d.1.holdMe))

/-- `bwait` (R306): a commit point; the split waits until BKN is 0. -/
def execBwait (sc : Scope) (d : SReg) (s : State) : Res :=
  .next (
    if s.me.bkn ≠ 0 then s.waitMe .bank
    else if !s.loadsBack then s.holdMe
    else
      let s := s.setS d (s.me.bkf.setWidth 64)
      (((s.modMe (fun t => { t with bkf := 0 })).acquire sc).commit 1).adv 1)

-- ## A command's life (R303 to R305)

/-- BANK_COMMAND_ENQUEUE (R303): the first committed command on its way enters the queue of 16. -/
def State.enqueueBank (s : State) (d : DieId) (p : PchId) : State :=
  s.modAb d p (fun a => match a.coming with
    | c :: r => if a.queue.length < 16 then { a with coming := r, queue := a.queue ++ [c] } else a
    | [] => a)

/-- n bytes of an extent read by an abacus; none if a line of them is poisoned (R311 code 8). -/
def State.abRead (s : State) (lines : List Nat) (off n : Nat) : Option (List Byte) :=
  let locs := (List.range n).map (fun i => areaLoc lines off i)
  if (locs.map lineOf).eraseDups.any s.poisoned then none else some (locs.map s.peek)

/-- The 32-bit words of a program's bytes. -/
def progOf (n : Nat) (bs : List Byte) : List W32 := (List.range n).map (fun i => le32 ((bs.drop (4 * i)).take 4))

/-- A command in the state in which it starts (R304): a poisoned program or input line ends it at once. -/
def State.startRun (s : State) (c : BankCmd) : AbRun :=
  let prog := s.abRead c.plines c.poff (4 * c.plen)
  let inp := s.abRead c.ilines c.ioff c.ilen
  let q : Vector W32 16 := ((Vector.replicate 16 0).set 14 (c.arg.setWidth 32)).set 15 (c.arg.extractLsb' 32 32)
  { cmd := c, prog := progOf c.plen (prog.getD []), buf := cellPut [] (cellsAt c.iboff (inp.getD [])), q := q, c := Vector.replicate 16 0
    pc := 0, steps := 0, emitted := 0, refused := none
    ended := if prog.isNone || inp.isNone then some (8, 4, 0) else none }

/-- The lines that n bytes of an extent touch. -/
def extLines (lines : List Nat) (off n : Nat) : List Nat := (((List.range n).map (fun i => areaLoc lines off i)).map lineOf).eraseDups

/-- A command's program and input read through the die's LLC (R304). -/
def State.startReads (s : State) (c : BankCmd) : State :=
  (extLines c.plines c.poff (4 * c.plen) ++ extLines c.ilines c.ioff c.ilen).foldl (fun s l => if s.poisoned l then s else s.allocLlc l) s

/-- BANK_COMMAND_START (R304): the idle abacus takes command k of its queue. -/
def execBankCommandStart (s : State) : Res :=
  match s.ev with
  | .bankCommandStart d p k =>
    let a := s.abAt d p
    match a.run, a.queue[k]? with
    | none, some c =>
      if s.deadDies.contains d then .next s
      else .next ((s.startReads c).modAb d p (fun a => { a with queue := a.queue.eraseIdx k, run := some (s.startRun c) }))
    | _, _ => .next s
  | _ => .fault .notThisEvent

/-- A string changed wherever it stands: on its core, on another, or in a saved image (R305 step 4). -/
def State.modAny (s : State) (c : CoreId) (uid : Nat) (f : Str → Str) : State :=
  let here (c : CoreId) : Bool := s.cores[c].strs.any (fun t => t.present && t.uid == uid)
    || s.cores[c].spilled.any (fun p => p.str.uid == uid) || s.cores[c].evicted.any (fun e => (e.share.strs ++ e.share.spilled).any (fun t => t.2.uid == uid))
  match (c :: allCores).find? here with
  | some c => (s.modUid c uid f).noteSpilled c
  | none =>
    { s with images := s.images.map (fun i => { i with cores := i.cores.map (fun x => { x with share := x.share.mapUid uid f }) }) }

/-- Splits that `bwait` holds issue it again. -/
def Str.wakeBank (t : Str) : Str :=
  let w (x : Split) : Split := if x.wait == .bank then { x with wait := .none } else x
  if t.bkn = 0 then { t with splits := t.splits.map w, park := t.park.map w } else t

/-- The notification of a command's end (R305 step 4). -/
def State.bankNotify (s : State) (c : BankCmd) (bad : Bool) : State :=
  s.modAny c.core c.uid (fun t =>
    ({ t with bkn := if t.bkn = 0 then 0 else t.bkn - 1
              bkf := if bad then BitVec.ofNat 16 (satAdd 16 t.bkf.toNat 1) else t.bkf } : Str).wakeBank)

/-- The status word (R305). -/
def bankStatus (ecode acode pc emitted : Nat) : W64 :=
  BitVec.ofNat 64 (ecode * 2 ^ 60 + acode * 2 ^ 56 + pc % 256 * 2 ^ 48 + min emitted (2 ^ 32 - 1))

/-- What names a command's status write among the messages held for sleeping links. -/
def BankCmd.statusKey (c : BankCmd) : W64 := BitVec.ofNat 64 (2 ^ 63 + c.spa)

/-- The write of a status word (R305 step 2): the ECODE of its fault, 0 if none; no answer while a lease or a sleeping link
stands in the way. -/
def State.putStatus (s : State) (c : BankCmd) (w : W64) : State × Option Nat :=
  let line := lineOf c.sloc
  if s.decodePa c.spa ≠ .loc c.sloc then (s, some 3)
  else if s.isPlane line || (s.rangeOf line).isSome then (s, some 2)
  else if s.poisoned line then (s, some 4)
  else if !s.lineFree line then (s, none)
  else
    let r := s.homeTake line
    match r.2 with
    | .ok => ((r.1.perform (cellsAt c.sloc (leBytes 8 w.toNat))).homeWritten line false, some 0)
    | .poison => (r.1, some 4)
    | .wait a =>
      match (s.engSleep c.core a c.statusKey : State × EAns Unit) with
      | (t, .err _) => (t, some 5)
      | _ => (s, none)
    | _ => (s, none)

/-- The end of a command waits: for the last leases on the lines it writes (log 43), and for a sleeping agent that holds its status
line, with the message held, one answered late being kept for the next try (R79). -/
def State.closeCmd (s : State) (c : BankCmd) : State :=
  let s := (s.closeLine (lineOf c.sloc)).closeBar c.bar
  match (s.homeTake (lineOf c.sloc)).2 with
  | .wait a => if s.poisoned (lineOf c.sloc) then s else match (s.engSleep c.core a c.statusKey : State × EAns Unit) with
    | (_, .err _) => s
    | (t, _) => t
  | _ => s

/-- Steps 2 to 4 of R305; none while a step must wait. -/
def State.bankClose (s : State) (c : BankCmd) (ecode acode pc emitted : Nat) : Option State :=
  let r := s.putStatus c (bankStatus ecode acode pc emitted)
  match r.2 with
  | none => none
  | some f =>
    if !r.1.barReady c.bar then none
    else
      let code := if ecode ≠ 0 then ecode else f
      some ((r.1.engArrive c.bar code 1 0 0).bankNotify c (ecode != 0 || acode != 0 || f != 0))

/-- BANK_COMMAND_ENQUEUE; a command whose abacus is lost ends with ECODE 4 and ACODE 8 (R303, R312). PC and EMITTED of its status word, which
the dead die can report no more, are 0: DESIGN CHOICE (log 98). -/
def execBankCommandEnqueue (s : State) : Res :=
  match s.ev with
  | .bankCommandEnqueue d p =>
    if s.deadDies.contains d then
      match (s.abAt d p).coming with
      | c :: r =>
        match s.bankClose c 4 8 0 0 with
        | some s' => .next (s'.modAb d p (fun a => { a with coming := r }))
        | none => .next (s.closeCmd c)
      | [] => .next s
    else .next (s.enqueueBank d p)
  | _ => .fault .notThisEvent

/-- BANK_COMMAND_END (R305, R311): a refused contribution decides ACODE and PC. -/
def execBankCommandEnd (s : State) : Res :=
  match s.ev with
  | .bankCommandEnd d p =>
    match (s.abAt d p).run with
    | some r =>
      match r.ended with
      | some (acode, ecode, pc) =>
        let ap := match r.refused with | some q => (7, q) | none => (acode, pc)
        match s.bankClose r.cmd ecode ap.1 ap.2 r.emitted with
        | some s' => .next (s'.modAb d p (fun a => { a with run := none }))
        | none => .next (s.closeCmd r.cmd)
      | none => .next s
    | none => .next s
  | _ => .fault .notThisEvent

-- ## Instructions (R307 to R311)

/-- What an instruction makes of a run: the run with its new PC, or a fault with ACODE and ECODE. -/
inductive AbOut where
  | go (r : AbRun) (pc : Nat)
  | fault (acode ecode : Nat)
  deriving DecidableEq, Repr

/-- The step limit (R311). -/
def abLimit : Nat := 2 ^ 26

/-- The running abacus's command changed. -/
def State.modRun (s : State) (f : AbRun → AbRun) : State :=
  s.modAb s.curAb.1 s.curAb.2 (fun a => { a with run := a.run.map f })

/-- The command ends with ACODE, ECODE and the PC of the instruction at work (R311). -/
def State.endRun (s : State) (acode ecode : Nat) : State := s.modRun (fun r => { r with ended := some (acode, ecode, r.pc) })

/-- One abacus instruction: a faulting one has no effect, and so has one after the step limit; an instruction whose
successor lies at or beyond PLEN faults with ACODE 5 (R311; log 57). Where several conditions of R311 hold, the instruction's own come first and
ACODE 5 last: DESIGN CHOICE (log 99). -/
def State.abStep (s : State) (f : AbRun → AbOut) : State :=
  match (s.abAt s.curAb.1 s.curAb.2).run with
  | none => s
  | some r =>
    if r.ended.isSome then s
    else if abLimit ≤ r.steps then s.endRun 6 0
    else
      match f r with
      | .fault a e => s.endRun a e
      | .go r' pc =>
        if r.prog.length ≤ pc then s.endRun 5 0
        else s.modRun (fun _ => { r' with pc := pc, steps := r.steps + 1 })

/-- An instruction that goes on at the next one. -/
def AbRun.on (r : AbRun) (r' : AbRun) : AbOut := .go r' (r.pc + 1)

/-- q of a register field. -/
def AbRun.getQ (r : AbRun) (i : BitVec 4) : W32 := r.q[i.toFin]
/-- q written. -/
def AbRun.setQ (r : AbRun) (i : BitVec 4) (v : W32) : AbRun := { r with q := r.q.set i.toFin v }
/-- c of a register field. -/
def AbRun.getC (r : AbRun) (i : BitVec 4) : W32 := r.c[i.toFin]
/-- c written. -/
def AbRun.setC (r : AbRun) (i : BitVec 4) (v : W32) : AbRun := { r with c := r.c.set i.toFin v }
/-- n bytes of the vector buffer. -/
def AbRun.bytes (r : AbRun) (off n : Nat) : List Byte := (List.range n).map (fun i => cellGet r.buf (off + i))
/-- Bytes written to the vector buffer. -/
def AbRun.putBuf (r : AbRun) (off : Nat) (bs : List Byte) : AbRun := { r with buf := cellPut r.buf (cellsAt off bs) }
/-- A buffer access of n bytes lies beyond the buffer or is misaligned. -/
def bufBad (off n align : Nat) : Bool := off % align != 0 || (n != 0 && decide (65536 < off + n))

/-- `ahalt`: the end of the command. -/
def execAhalt (s : State) : Res :=
  .next (match (s.abAt s.curAb.1 s.curAb.2).run with
    | some r => if r.ended.isSome then s else if abLimit ≤ r.steps then s.endRun 6 0 else s.endRun 0 0
    | none => s)

/-- `ali`. -/
def execAli (d : BitVec 4) (imm : BitVec 16) (s : State) : Res := .next (s.abStep (fun r => r.on (r.setQ d (imm.signExtend 32))))

/-- `alih`. -/
def execAlih (d : BitVec 4) (imm : BitVec 16) (s : State) : Res :=
  .next (s.abStep (fun r => r.on (r.setQ d (imm ++ (r.getQ d).extractLsb' 0 16))))

/-- `aadd`. -/
def execAadd (d a b : BitVec 4) (s : State) : Res := .next (s.abStep (fun r => r.on (r.setQ d (r.getQ a + r.getQ b))))

/-- `aaddi`. -/
def execAaddi (d a : BitVec 4) (imm : BitVec 16) (s : State) : Res :=
  .next (s.abStep (fun r => r.on (r.setQ d (r.getQ a + imm.signExtend 32))))

/-- `aloop`. -/
def execAloop (a : BitVec 4) (t : BitVec 8) (s : State) : Res :=
  .next (s.abStep (fun r =>
    let v := r.getQ a - 1
    .go (r.setQ a v) (if v ≠ 0 then t.toNat else r.pc + 1)))

/-- `abne`. -/
def execAbne (a b : BitVec 4) (t : BitVec 8) (s : State) : Res :=
  .next (s.abStep (fun r => .go r (if r.getQ a ≠ r.getQ b then t.toNat else r.pc + 1)))

/-- n weight bytes at an offset of the extent, or the fault of reading them (R311 codes 3 and 8). -/
def State.weights (s : State) (r : AbRun) (off n : Nat) (k : List Byte → AbOut) : AbOut :=
  if r.cmd.wlen < off + n then .fault 3 0
  else match s.abRead r.cmd.wlines off n with
    | some bs => k bs
    | none => .fault 8 4

/-- An instruction that reads weights: `reads` gives the offsets and lengths; the lines are requested at the pseudo-channel's queue once it has
taken effect (R60, R299). -/
def State.abReadStep (s : State) (reads : AbRun → List (Nat × Nat)) (f : AbRun → AbOut) : State :=
  let t := s.abStep f
  match (s.abAt s.curAb.1 s.curAb.2).run, (t.abAt s.curAb.1 s.curAb.2).run with
  | some r, some r' =>
    if r.steps < r'.steps then
      ((reads r).flatMap (fun x => extLines r.cmd.wlines x.1 x.2)).eraseDups.foldl State.dramReq t
    else t
  | _, _ => t

/-- `aldw` (R308). The length is qB as it is read at the start, also where INC changes that register: DESIGN CHOICE (log 100). -/
def execAldw (inc : Bool) (d a b : BitVec 4) (s : State) : Res :=
  .next (s.abReadStep (fun r => [((r.getQ a).toNat, (r.getQ b).toNat)]) (fun r =>
    let n := (r.getQ b).toNat
    if bufBad (r.getQ d).toNat n 1 then .fault 2 0
    else s.weights r (if n = 0 then 0 else (r.getQ a).toNat) n (fun bs =>
      let m := r.getQ b
      let r' := r.putBuf (r.getQ d).toNat bs
      let r' := if inc then r'.setQ d (r'.getQ d + m) else r'
      r.on (if inc then r'.setQ a (r'.getQ a + m) else r'))))

/-- The weight format of WF (R309). -/
def wfTy (wf : BitVec 3) : Ty :=
  match wf.toNat with | 0 => .bf16 | 1 => .e4m3 | 2 => .e5m2 | 3 => .e2m1 | 4 => .b8 | _ => .b4

/-- W(i) of an `adot` (R309): plain elements, or block elements with their scale entries. -/
def adotWeight (t : Ty) (ws sc : List Byte) (i : Nat) : FVal :=
  let c := planeAt t.width ws i
  if t.isBlock then blockVal t (sc.getD (2 * (i / 32)) 0) (sc.getD (2 * (i / 32) + 1) 0) c else t.decode c
where
  /-- Code i of w bits of some bytes (R16). -/
  planeAt (w : Nat) (bs : List Byte) (i : Nat) : Nat :=
    leNat ((bs.drop (w * i / 8)).take (if w = 16 then 2 else 1)) / 2 ^ (w * i % 8) % 2 ^ w

/-- The weight bytes that an `adot` reads: elements, and scale entries of a block format (R309). -/
def adotReads (wf : BitVec 3) (a c : BitVec 4) (r : AbRun) : List (Nat × Nat) :=
  let t := wfTy wf
  let n := (r.getQ c).toNat
  [((r.getQ a).toNat, (n * t.width + 7) / 8)] ++ (if t.isBlock then [((r.getQ (a + 1)).toNat, n / 16)] else [])

/-- `adot` (R309). An illegal WF or odd A decides before n = 0, then alignment, then the buffer, then weight bytes before scale bytes:
DESIGN CHOICE (log 99). -/
def execAdot (wf : BitVec 3) (inc : Bool) (d a b c : BitVec 4) (s : State) : Res :=
  .next (s.abReadStep (adotReads wf a c) (fun r =>
    let t := wfTy wf
    let blk := t.isBlock
    let n := (r.getQ c).toNat
    let wa := (r.getQ a).toNat
    let xb := (r.getQ b).toNat
    let nb := (n * t.width + 7) / 8
    let a1 := a + 1
    if 6 ≤ wf.toNat || (blk && a.getLsbD 0) then .fault 1 0
    else if n = 0 then r.on r
    else if blk && (n % 32 != 0 || wa % (if t == .b4 then 16 else 32) != 0 || (r.getQ a1).toNat % 2 != 0) then .fault 2 0
    else if bufBad xb (2 * n) 2 then .fault 2 0
    else s.weights r wa nb (fun ws =>
      s.weights r (if blk then (r.getQ a1).toNat else 0) (if blk then n / 16 else 0) (fun sc =>
        let xs := r.bytes xb (2 * n)
        let ps := (List.range n).map (fun i =>
          ((adotWeight t ws sc i).mul (Ty.bf16.decode (leNat ((xs.drop (2 * i)).take 2)))).1)
        let r' := r.setC d (add32 (r.getC d) (rn32 (kSum ps)))
        r.on (if inc then
            let r' := (r'.setQ a (r'.getQ a + BitVec.ofNat 32 nb))
            let r' := r'.setQ b (r'.getQ b + BitVec.ofNat 32 (2 * n))
            if blk then r'.setQ a1 (r'.getQ a1 + BitVec.ofNat 32 (n / 16)) else r'
          else r')))))

/-- n + 1 accumulators from c of a field set to +0. -/
def AbRun.clearC (r : AbRun) (d n : BitVec 4) : AbRun :=
  { r with c := gen 16 (fun i => if decide (d.toNat ≤ i) && decide (i ≤ d.toNat + n.toNat) then 0 else r.c.toArray.getD i 0) }

/-- `aclr`. -/
def execAclr (d n : BitVec 4) (s : State) : Res :=
  .next (s.abStep (fun r => if 15 < d.toNat + n.toNat then .fault 1 0 else r.on (r.clearC d n)))

/-- `astc`. -/
def execAstc (sf cl inc : Bool) (d a n : BitVec 4) (s : State) : Res :=
  .next (s.abStep (fun r =>
    let w := if sf then 2 else 4
    let m := (n.toNat + 1) * w
    let off := (r.getQ d).toNat
    if 15 < a.toNat + n.toNat then .fault 1 0
    else if bufBad off m w then .fault 2 0
    else
      let bs := (List.range (n.toNat + 1)).flatMap (fun i =>
        let v := r.c.toArray.getD (a.toNat + i) 0
        if sf then leBytes 2 (Ty.bf16.deliver .rn false false 0 (fv32 v)).1 else leBytes 4 v.toNat)
      let r' := r.putBuf off bs
      let r' := if cl then r'.clearC a n else r'
      r.on (if inc then r'.setQ d (r'.getQ d + BitVec.ofNat 32 m) else r')))

/-- A contribution of an `aemit` received or refused at the rod (R310, R275, R276). -/
def State.emit1 (s : State) (r : AbRun) (pc j : Nat) (v : W32) : State :=
  let loc := areaLoc r.cmd.olines r.cmd.ooff (4 * j)
  let line := lineOf loc
  if s.poisoned line then s
  else match s.rangeOf line with
    | some q =>
      if q.ending || q.fmt != .f32 || decide (q.scope.code.toNat < 3) then s.modRun (fun r => { r with refused := some (r.refused.getD pc) })
      else (s.rodHome .f32 loc (v.setWidth 64)).modRun (fun r => { r with emitted := min (r.emitted + 1) (2 ^ 32 - 1) })
    | none => s.modRun (fun r => { r with refused := some (r.refused.getD pc) })

/-- `aemit` (R310): the contributions reach the rod in ascending order, all within this step: DESIGN CHOICE (log 101). The count is qC as it is read
at the start, also where INC changes that register (log 100). While cmr still takes a line of the output into its range, the instruction waits
(R272, R274). -/
def execAemit (inc : Bool) (a b c : BitVec 4) (s : State) : Res :=
  match (s.abAt s.curAb.1 s.curAb.2).run with
  | none => .next s
  | some r =>
    let n := (r.getQ c).toNat
    let qa := (r.getQ a).toNat
    let qb := (r.getQ b).toNat
    let done (s : State) : State := s.abStep (fun r =>
      if n = 0 then r.on r
      else if bufBad qa (4 * n) 4 then .fault 2 0
      else if r.cmd.olen < qb + n then .fault 4 0
      else
        let r' := if inc then r.setQ a (r.getQ a + BitVec.ofNat 32 (4 * n)) else r
        r.on (if inc then r'.setQ b (r'.getQ b + BitVec.ofNat 32 n) else r'))
    let ok := r.ended.isNone && decide (r.steps < abLimit) && !bufBad qa (4 * n) 4 && decide (qb + n ≤ r.cmd.olen)
      && decide (r.pc + 1 < r.prog.length)
    let starting (j : Nat) : Bool := match s.rangeOf (lineOf (areaLoc r.cmd.olines r.cmd.ooff (4 * (qb + j)))) with | some q => q.starting | none => false
    .next (if ok && (List.range n).any starting then s
      else if ok then
        done ((List.range n).foldl (fun s j => s.emit1 r r.pc (qb + j) (le32 (r.bytes (qa + 4 * j) 4))) s)
      else done s)

/-- `afadd`. -/
def execAfadd (d a b : BitVec 4) (s : State) : Res := .next (s.abStep (fun r => r.on (r.setC d (add32 (r.getC a) (r.getC b)))))

/-- `afmul`. -/
def execAfmul (d a b : BitVec 4) (s : State) : Res := .next (s.abStep (fun r => r.on (r.setC d (mul32 (r.getC a) (r.getC b)))))

/-- `aldc`. -/
def execAldc (d a : BitVec 4) (s : State) : Res :=
  .next (s.abStep (fun r =>
    let off := (r.getQ a).toNat
    if bufBad off 4 4 then .fault 2 0 else r.on (r.setC d (le32 (r.bytes off 4)))))

/-- `anop`. -/
def execAnop (s : State) : Res := .next (s.abStep (fun r => r.on r))

/-- ABACUS_STEP_LIMIT (R311): the instruction after 2^26 executed ones faults. -/
def execAbacusStepLimit (s : State) : Res :=
  match s.ev with
  | .abacusStepLimit d p =>
    match (s.abAt d p).run with
    | some r =>
      if abLimit ≤ r.steps ∧ r.ended.isNone then
        .next (s.modAb d p (fun a => { a with run := a.run.map (fun r => { r with ended := some (6, 0, r.pc) }) }))
      else .next s
    | none => .next s
  | _ => .fault .notThisEvent

end Sys2Proof.Machine
end

