-- ==== Sys2Proof/Machine/Atomic.lean ====
section
/-!
DEFINITION. Relaxed atomics and contributions, majors 0x80 and 0x81 (spec/08 R215 to R218, spec/10 R266 to R272, R278, R279).
-/
namespace Sys2Proof.Machine
open Sys2Proof

-- ## The operation (R216)

/-- The new value of an atomic: `old` the value read, `b` the operand, `c` the compare value. -/
def amoNew (op : AmoOp) (t : Ty) (old b c : W64) : W64 :=
  let w := t.width
  let x : BitVec w := old.setWidth w
  let y : BitVec w := b.setWidth w
  let r : BitVec w :=
    match op with
    | .add => x + y
    | .min => minBits t x y
    | .max => maxBits t x y
    | .and => x &&& y
    | .or => x ||| y
    | .xor => x ^^^ y
    | .swap => y
    | .cas => if x = c.setWidth w then y else x
    | .fadd => (add32 (x.setWidth 32) (y.setWidth 32)).setWidth w
  r.setWidth 64

/-- Bytes of an atomic. -/
def amoBytes (t : Ty) : Nat := if t.is64 then 8 else 4

-- ## Where an atomic in memory is performed (R217)

/-- Bytes of a global barrier object: its words are kept by the atomic unit of its home (R121). -/
def State.barrierWord (s : State) (locs : List Nat) : Bool := s.bars.any (fun l => locs.any (fun x => decide (l ≤ x) && decide (x < l + 32)))

/-- The line of an access made ready for an atomic at its place: at the slice with write permission, or at the home (R121, R217). -/
def State.amoLine (s : State) (sc : Scope) (a : Acc) (line : Nat) : State × LineAns :=
  if lineRemote line then (s, .ok)
  else if !s.lineFree line then (s.closeLine line, .hold)
  else
    let bank := a.bkLines.contains line
    if bank || sc == .pkg || sc == .sys || s.barrierWord a.locs then
      let r := s.homeTake line
      (if r.2 == .ok then r.1.homeWritten line bank else r.1, r.2.toLine)
    else s.ownLine s.cur.core (s.lineKind a line) false line

/-- One lane of an `amo` in memory checked: as a write kind, then at the place where it is performed. -/
def State.chkAmo (s : State) (sc : Scope) (va : W64) (n : Nat) : State × LaneChk :=
  let q := s.chkWrite .store n va n
  match q.2 with
  | .go a zs c =>
    match a.lines with
    | [] => q
    | l :: _ =>
      let r := q.1.amoLine sc a l
      match r.2 with
      | .ok => (r.1.insertLow q.1 s.me.launch s.cur.core va [l], .go a zs c)
      | .poison => (r.1, .trap 23)
      | .sleep x => (r.1, .sleep x)
      | .hold => (r.1, .again)
  | _ => q

/-- One lane's atomic performed in memory or on a register: the old value. -/
def State.amoAt (s : State) (op : AmoOp) (t : Ty) (a : Acc) (b c : W64) : State × W64 :=
  let n := amoBytes t
  match a.reg with
  | some p =>
    let r := s.regLoad p n
    let old := BitVec.ofNat 64 (leNat r.2)
    (r.1.regStoreEv p n (amoNew op t old b c).toNat, old)
  | none =>
    let old := BitVec.ofNat 64 (leNat (a.locs.map s.peek))
    (s.perform (a.locs.zip (leBytes n (amoNew op t old b c).toNat)), old)

/-- One lane's atomic in scratchpad: the old value. -/
def State.amoScr (s : State) (op : AmoOp) (t : Ty) (p : Place) (b c : W64) : State × W64 :=
  let n := amoBytes t
  let old := BitVec.ofNat 64 (leNat (s.placeGet p n))
  (s.putBytes p (leBytes n (amoNew op t old b c).toNat), old)

/-- The lanes performed in ascending order with `f`: the old value of each. -/
def State.amoLanes (s : State) (xs : List (Nat × α)) (f : State → Nat → α → State × W64) : State × List (Nat × W64) :=
  xs.foldl (fun r x => let q := f r.1 x.1 x.2; (q.1, r.2 ++ [(x.1, q.2)])) (s, [])

/-- The old values returned, the operation counted, the region committed (R216). -/
def State.amoEnd (s : State) (t : Ty) (ret : Bool) (d : VReg) (olds : List (Nat × W64)) : State :=
  let s := if ret then
      (s.putV t d (Mask.ofLanes (olds.map (·.1))) (fun l =>
        match olds.find? (fun r => r.1 == l) with | some r => r.2 | none => 0)).newOp .ld true
    else s.newOp .st true
  (s.remoteDone.commit 1).adv 1

/-- `amo`: a commit point (R205), its lanes performed in ascending order (R216). -/
def execAmo (g : KReg) (op : AmoOp) (t : Ty) (sc : Scope) (rt sp : Bool) (d a b c : VReg) (s : State) : Res :=
  s.vec (.amo g op t sc rt sp d a b c) (fun s =>
    let act := s.active g
    let n := amoBytes t
    let cmp (l : Nat) : W64 := if op = .cas then s.opnd t c l else 0
    if act = 0 then s.adv 1
    else if s.full (if rt then .ld else .st) then s.holdMe
    else if sp then
      let addr (l : Nat) : W64 := s.wordAddr a 0 l
      let rs := act.lanes.map (fun l => (l, s.scrLane n (addr l)))
      let ts := scrTraps rs addr
      if !ts.isEmpty then s.trapHere ts
      else
        let r := s.amoLanes (scrPassed rs) (fun s' l p => s'.amoScr op t p (s.opnd t b l) (cmp l))
        r.1.amoEnd t rt d r.2
    else
      let addr (l : Nat) : W64 := s.pairAddr a 0 l
      let q := s.chkLanes act.lanes (fun s l => s.chkAmo sc (addr l) n)
      q.1.settled q.2 addr (fun s' =>
        let ts := trapsOf q.2 addr
        if !ts.isEmpty then s'.remoteDone.trapHere ts
        else s'.performingAs rt q.2 (fun l => Mask.ofLanes [l]) addr (fun s' =>
          let r := s'.amoLanes (passed q.2) (fun s'' l x => s''.amoAt op t x (s.opnd t b l) (cmp l))
          r.1.amoEnd t rt d r.2)))

-- ## Contributions (R268, R279)

/-- R279 item 4 on a line: the range, its format and scope, and the line's device. -/
def State.contribRefused (s : State) (t : Ty) (sc : Scope) (line : Nat) : Bool :=
  if lineRemote line then sc != .sys
  else
    match s.rangeOf line with
    | some r => r.ending || r.fmt != t || decide (sc.code.toNat > r.scope.code.toNat)
    | none => true

/-- One lane of a contribution checked (R279). A range whose lines are still being entered makes it wait (R274), and so does a slice that has
no room for the partial of a `.die` contribution (R269). -/
def State.chkRacc (s : State) (t : Ty) (sc : Scope) (va : W64) : State × LaneChk :=
  let n := amoBytes t
  let q := s.chkWrite .contrib n va n
  match q.2 with
  | .go a zs c =>
    match a.lines with
    | [] => (q.1, .trap 38)
    | l :: _ =>
      if q.1.contribRefused t sc l then (q.1, .trap 38)
      else if q.1.poisoned l then (q.1, .trap 23)
      else if (match q.1.rangeOf l with | some r => r.starting | none => false) then (q.1, .again)
      else if sc == .die then
        match q.1.cmRegister (dieOf s.cur.core) l t with
        | some u => (u, .go a zs c)
        | none => (q.1, .again)
      else (q.1, .go a zs c)
  | _ => q

/-- `racc`: a commit point; its lanes contribute in ascending order (R205, R279). -/
def execRacc (g : KReg) (t : Ty) (sc : Scope) (a b : VReg) (s : State) : Res :=
  s.vec (.racc g t sc a b) (fun s =>
    let act := s.active g
    let addr (l : Nat) : W64 := s.pairAddr a 0 l
    if act = 0 then s.adv 1
    else if s.full .st then s.holdMe
    else
      let q := s.chkLanes act.lanes (fun s l => s.chkRacc t sc (addr l))
      q.1.settled q.2 addr (fun s' =>
        let ts := trapsOf q.2 addr
        if !ts.isEmpty then s'.remoteDone.trapHere ts
        else s'.performing q.2 (fun l => Mask.ofLanes [l]) addr (fun s' =>
          let s'' := (passed q.2).foldl (fun (u : State) x =>
            match x.2.locs with
            | l :: _ => u.rodAddAt (dieOf s.cur.core) sc t l (s.opnd t b x.1)
            | [] => u) s'
          ((s''.newOp .st true).remoteDone.commit 1).adv 1)))

end Sys2Proof.Machine
end

