-- ==== Sys2Proof/Machine/Blocks.lean ====
section
/-!
DEFINITION. Fetch (spec/06 R166 item 1, spec/04 R92), block headers and their entry (spec/06 R152 to R157, spec/14 R374, R375, R460), and the
claim and release of the matrix array (spec/09 R244 to R247).
-/
namespace Sys2Proof.Machine
open Sys2Proof

-- ## Fetch

/-- The issuing split's fetch of a word on another device, kept while its answer is awaited (R106, R432). -/
def State.ownFetch (s : State) (va : W64) (r : Remote) : Bool :=
  r.core == s.cur.core && r.slot == s.cur.slot && r.uid == s.me.uid && r.code && r.lanes == s.sp.e && r.va == va

/-- A fetch from another device: true once its answer is there (R106, R431, R432). -/
def State.remoteFetch (s : State) (va : W64) (loc : Nat) (sc : Bool) : State × Bool :=
  if s.remote.any (s.ownFetch va) then
    if s.flitGoes loc then ({ s with remote := s.remote.filter (fun r => !s.ownFetch va r) }, true) else (s, false)
  else ({ s with remote := s.remote ++ [{ core := s.cur.core, slot := s.cur.slot, uid := s.me.uid, lanes := s.sp.e, va := va, loc := loc,
                                          since := s.ptime, wr := false, sc := sc, code := true, fault := none }] }, false)

/-- The 8-byte word at a virtual address, fetched for the issuing split (R92, R106, R376); one on an SC page waits for the string's earlier
accesses to such pages (R104). -/
def State.fetch64 (s : State) (w : Who) (va : W64) : State × XRes W64 :=
  let r := s.checkRead w .fetch true 1 va 8
  match r.2 with
  | .ok a =>
    match a.reg with
    | some p =>
      let q := r.1.regLoad p 8
      (q.1, .ok (le64 q.2))
    | none =>
      if a.sc && r.1.scBusy then (r.1, .hold)
      else if a.remote then
        let g := r.1.remoteFetch va a.loc a.sc
        (g.1, if g.2 then .ok (le64 (a.locs.map (g.1.look w.core))) else .hold)
      else (r.1, .ok (le64 (a.locs.map (r.1.look w.core))))
  | .fail o c => (r.1, .fail o c)
  | .sleep x => (r.1, .sleep x)
  | .hold => (r.1, .hold)

-- ## Headers (R152)

/-- LEN. -/
def hdrLen (h : W64) : Nat := fld h 55 48
/-- LIVE, 0 standing for 256 (R143). -/
def hdrLive (h : W64) : Nat := if fld h 47 40 = 0 then 256 else fld h 47 40
/-- RECONV in bytes, signed words from the header. -/
def hdrReconv (h : W64) : W64 := ((h.extractLsb' 24 16).signExtend 64) <<< 3
/-- RECONV names a block. -/
def hdrHasReconv (h : W64) : Bool := fld h 39 24 != 0
/-- SUP. -/
def hdrSup (h : W64) : Bool := h.getLsbD 10
/-- MX. -/
def hdrMx (h : W64) : Bool := h.getLsbD 9
/-- PFDIR: a backward hint. -/
def hdrBack (h : W64) : Bool := h.getLsbD 23
/-- PFDIST. -/
def hdrDist (h : W64) : Nat := fld h 22 16
/-- IDEM. -/
def hdrIdem (h : W64) : Bool := h.getLsbD 8

/-- The checks of R153 on the word at an address: the cause and STVAL of the first that fails. -/
def hdrFail (mode : Mode) (pc h : W64) : Option (Nat × W64) :=
  if fld h 63 56 ≠ 0xFF then some (5, pc)
  else if hdrLen h = 0 ∨ fld h 15 11 ≠ 0 ∨ fld h 7 0 ≠ 0 then some (1, h)
  else if hdrSup h && mode == .user then some (4, pc)
  else none

/-- The split stands where a header must be entered: at a branch target, a vector, or past its block (R153, R154, R460). -/
def Split.mustEnter (x : Split) : Bool := x.enter || (!x.unread && !inBlock x.blk x.hdr x.pc)

-- ## Arriving and merging (R374, R375)

/-- Arrive while the stack's top RPC is the split's PC, or E is empty (R374). -/
def arriveAll : Nat → Split → Split
  | 0, x => x
  | fuel + 1, x =>
    match x.stack with
    | top :: _ => if top.rpc == x.pc || x.e == 0 then arriveAll fuel x.arrive else x
    | [] => x

/-- Y merges into X at X's PC (R375), whatever else than a wait of R356 it awaits there: its lanes issue the instruction at that PC with
X's (log 79). -/
def canMerge (x y : Split) (atHeader parked : Bool) : Bool :=
  y.m != 0 && x.mode == y.mode && x.stack.isEmpty && y.stack.isEmpty && !waiting x.wait && !waiting y.wait
    && y.pc == x.pc && (atHeader || parked)

/-- Every split that meets R375 merged into split j, the freed slots given out by R385; `h` says that the word at PC is a header. -/
def Str.mergeInto (t : Str) (j : SplitId) (h : Bool) : Str :=
  let x := t.splits[j]
  let slots := (List.finRange 4).filter (fun i => i != j && canMerge x t.splits[i] h false)
  let parks := t.park.filter (fun y => canMerge x y h true)
  let ys := slots.map (fun i => t.splits[i]) ++ parks
  if ys.isEmpty then t
  else
    let x' := ys.foldl (fun (a : Split) (y : Split) =>
      { a with m := a.m ||| y.m, e := a.e ||| y.e, t := a.t ||| y.t, pf := a.pf ++ y.pf }) x
    let t := { t with park := t.park.filter (fun y => !canMerge x y h true) }
    let t := slots.foldl (fun t i => t.modSplit i (fun _ => Split.empty)) t
    (t.modSplit j (fun _ => x')).unpark

-- ## The array (R244 to R247)

/-- The string becomes the array's owner; a change of owner queues the clearing of both sets (R246). -/
def State.ownArray (s : State) (c : CoreId) (k : SlotId) : State :=
  let t := s.strAt c k
  s.modCore c (fun x =>
    let a := x.arr
    let who : Issuer := { slot := k, uid := t.uid, op := 0, ptroot := t.ptroot, mode := .user }
    let clear := { kind := .clear, who := who, ran := false, cnt := { nan := 0, inf := 0, scnan := 0, spidx := 0 } : TileOp }
    { x with arr := { a with owner := some (k, t.uid), last := some t.uid
                             queue := if a.last = some t.uid then a.queue else a.queue ++ [clear] } })

/-- The array released by the string if it owns it (R245); an involuntary release sets AL and SL (R247). -/
def State.releaseArray (s : State) (c : CoreId) (k : SlotId) (involuntary : Bool) : State :=
  if s.cores[c].arr.owner = some (k, (s.strAt c k).uid) then
    let s := s.modCore c (fun x => { x with arr := { x.arr with owner := none } })
    if involuntary then s.modStr c k (fun t => { t with al := true, sl := true }) else s
  else s

/-- The waiting split that a core's array is given to next (R244): the one that has waited longest. A stopped context's strings do
not run (R409), so they are passed over. -/
def State.arrayNext (s : State) (c : CoreId) : Option (Nat × Mask) :=
  let x := s.cores[c]
  let stopped (uid : Nat) : Bool := x.strs.toList.any (fun t => t.present && t.uid == uid && s.faulted t.ctx)
    || x.spilled.any (fun p => p.str.uid == uid && s.faulted p.str.ctx)
  x.arr.waiters.find? (fun w => !stopped w.1)

/-- A claim by the issuing split (R244): true if the string owns the array now; else the split waits at the header, its place kept if the
core has room for it (log 103). A string that was spilled while it waited keeps its place until it claims again. -/
def State.claimArray (s : State) : State × Bool :=
  let a := s.core.arr
  let mine (w : Nat × Mask) : Bool := w.1 == s.me.uid
  if a.owner = some (s.cur.slot, s.me.uid) then (s, true)
  else if a.owner.isNone && (match s.arrayNext s.cur.core with | none => true | some w => mine w) then
    ((s.modCore s.cur.core (fun x => { x with arr := { x.arr with waiters := x.arr.waiters.filter (fun w => !mine w) } })).ownArray
      s.cur.core s.cur.slot, true)
  else
    let place (x : Core) : Core :=
      if a.waiters.length < 16 then { x with arr := { x.arr with waiters := x.arr.waiters ++ [(s.me.uid, s.sp.m)] } } else x
    ((s.modCore s.cur.core place).waitMe .array, false)

-- ## Entering a block (R153, R143)

/-- R143 on the issuing string. -/
def Str.enterLive (t : Str) (live : Nat) : Str :=
  if t.allot < live then { t with allot := live }
  else if t.single then t.releaseAll ((List.range t.allot).filter (fun r => decide (live ≤ r)))
  else t

/-- The word that the instruction fetcher reads for a hint, its line brought into the instruction cache (R156): none where a fetch would
trap or wait, where no cache of the core holds the translation (log 78), and on lines that the instruction cache may not hold. -/
def State.hintWord (s : State) (va : W64) : State × Option W64 :=
  let w := s.who
  if !w.untranslated && (s.tlbFind w .fetch va).isNone then (s, none)
  else
    let r := s.check w .fetch 8 va 8
    match r.2 with
    | .ok a =>
      if a.reg.isSome || a.remote then (s, none)
      else
        let q := r.1.readLines w.core a true true a.lines
        match q.2 with
        | .ok () => (q.1, some (le64 (a.locs.map (q.1.look w.core))))
        | _ => (s, none)
    | _ => (s, none)

/-- The lines of n bytes brought into the instruction cache, up to the first that cannot be (R156). -/
def State.hintLines (s : State) : List W64 → State
  | [] => s
  | va :: r => match s.hintWord va with
    | (s, some _) => s.hintLines r
    | (s, none) => s

/-- The address of one word in each 128-byte line of n bytes at `va`. -/
def lineWords (va : W64) (n : Nat) : List W64 :=
  (List.range ((va.toNat % 128 + n + 127) / 128)).map (fun k => if k = 0 then va else BitVec.ofNat 64 ((va.toNat / 128 + k) * 128))

/-- The block `n` blocks on by the LEN chain from the header word `h` at `pc` brought in (R156). -/
def State.hintForward (s : State) : Nat → W64 → W64 → State
  | 0, pc, h => s.hintLines (lineWords pc (8 * (hdrLen h + 1)))
  | n + 1, pc, h =>
    let next := pc + BitVec.ofNat 64 (8 * (hdrLen h + 1))
    match s.hintWord next with
    | (s, some h') => if fld h' 63 56 = 0xFF then s.hintForward n next h' else s
    | (s, none) => s

/-- The hint of a header that has been entered (R152, R156). -/
def State.hint (s : State) (pc h : W64) : State :=
  if hdrDist h = 0 then s
  else if hdrBack h then s.hintLines (lineWords (pc - BitVec.ofNat 64 (128 * hdrDist h)) (128 * hdrDist h))
  else s.hintForward (hdrDist h) pc h

/-- The split enters the task's entry header for the first time since the operands were staged (R353 step 5). -/
def State.firstEntry (s : State) : Bool :=
  s.sp.mode == .user && (match s.me.staging with | some g => !g.entered && s.sp.pc == g.ent.entry | none => false)

/-- The header's effects after its checks: the array, the allotment, the region, the PC at the first word, and the hint. -/
def State.enterBlock (s : State) (h : W64) : State :=
  let pc := s.sp.pc
  let go (s : State) : State :=
    let s := s.modMe (fun t => t.enterLive (hdrLive h))
    let first := s.firstEntry
    let s := if hdrIdem h || first then
        s.modMe (fun t =>
          let g := t.staging
          let t := t.endRegion s.cur.split
          let t := if first then { t with staging := g.map (fun g => { g with entered := true }) } else t
          let x := t.splits[s.cur.split]
          let t := t.beginRegion x.e x.mode pc pc
          if first then t.markFirst x.e else t)
      else s
    (s.modSp (fun x => { x with blk := pc, hdr := h, enter := false, pc := pc + 8 })).hint pc h
  if hdrMx h then
    let r := s.claimArray
    if r.2 then go r.1 else r.1
  else go (if s.me.single then s.releaseArray s.cur.core s.cur.slot false else s)

/-- BLOCK_ENTRY by the issuing split (R153, R374, R375). -/
def State.blockEntry (s : State) : State :=
  let s := s.modSp (fun x => arriveAll 17 { x with enter := true })
  let s := s.modMe (fun t => t.mergeInto s.cur.split false)
  let pc := s.sp.pc
  let r := s.fetch64 s.who pc
  match r.2 with
  | .ok h =>
    let s := if fld h 63 56 = 0xFF then r.1.modMe (fun t => t.mergeInto s.cur.split true) else r.1
    match hdrFail s.sp.mode pc h with
    | some (c, tv) => s.trapAll c tv
    | none => s.enterBlock h
  | .fail _ c => r.1.trapAll c pc
  | .sleep a => r.1.sleepOn a r.1.sp.e pc
  | .hold => r.1.holdMe

/-- The governing header of a split whose lanes returned while it could not be read is read now (R460; log 80): false while it cannot be. -/
def State.readHeader (s : State) : State × Bool :=
  if !s.sp.unread then (s, true)
  else
    let blk := s.sp.blk
    let r := s.fetch64 s.who blk
    match r.2 with
    | .ok h => (r.1.modSp (fun x => { x with hdr := h, enter := !inBlock blk h x.pc }), true)
    | .fail _ c => (r.1.trapAll c blk, false)
    | .sleep a => (r.1.sleepOn a r.1.sp.e blk, false)
    | .hold => (r.1.holdMe, false)

/-- The header word at an address as a returning split of a mode reads it, 0 if it cannot be read yet (R460; log 80). -/
def State.headerAt (s : State) (w : Who) (va : W64) : W64 :=
  match (s.fetch64 w va).2 with
  | .ok h => h
  | _ => 0

end Sys2Proof.Machine
end

