-- ==== Sys2Proof/Machine/Spill.lean ====
section
/-!
DEFINITION. Launches and their completion (spec/13 R340, R342, spec/04 R101, R102), bazaar queues (R350), partitions (spec/05 R110), and the
areas in which a string is saved (spec/15 R411, R413, R414; spec/06 R147; spec/13 R358, R359).
-/
namespace Sys2Proof.Machine
open Sys2Proof

-- ## Launches (R340)

/-- GRANM1 + 1. -/
def Launch.gran (l : Launch) : Nat := fld l.words[6] 63 60 + 1
/-- KEEP. -/
def Launch.keep (l : Launch) : Bool := l.words[6].getLsbD 59
/-- OVFEN. -/
def Launch.ovf (l : Launch) : Bool := l.words[6].getLsbD 58
/-- BQ. -/
def Launch.bq (l : Launch) : Fin 16 :=
  ⟨fld l.words[6] 57 54, by have : fld l.words[6] 57 54 < 2 ^ 4 := Nat.mod_lt _ (by decide); simpa using this⟩
/-- PCNT. -/
def Launch.pcnt (l : Launch) : Nat := fld l.words[6] 31 0
/-- POOL. -/
def Launch.pool (l : Launch) : Nat := (va57 l.words[5]).toNat
/-- RING. -/
def Launch.ring (l : Launch) : BitVec 16 := l.words[7].extractLsb' 48 16
/-- CSC: `.pkg` or `.sys`. -/
def Launch.csc (l : Launch) : Scope := Scope.ofCode (l.words[1].extractLsb' 61 3)

/-- The words of a range list from its bytes (R101). -/
def rlistOf (n : Nat) (bs : List Byte) : List (W64 × W64) := (List.range n).map (fun i => (wordAt bs (2 * i), wordAt bs (2 * i + 1)))

/-- A launch slot changed. -/
def State.modLaunch (s : State) (i : Fin 64) (f : Launch → Launch) : State := { s with launches := s.launches.set i (f s.launches[i]) }

/-- The device's own accesses for a launch: under its PTROOT, as a user (log 20). -/
def Launch.who (l : Launch) : Who := whoOf 0 l.ptroot .user

-- ## Writing extents

/-- Bytes written to memory as an engine does: the first fault and its address, and whether the writer must wait. -/
def State.putAll (s : State) (w : Who) (va : Nat) (bs : List Byte) : State × Taken :=
  s.land w false va bs.length 0 { Taken.none with data := (List.range bs.length).zip bs }

/-- Parts, at offsets from a base, written one after another. -/
def State.putParts (s : State) (w : Who) (base : Nat) (ps : List (Nat × List Byte)) : State × Taken :=
  ps.foldl (fun r p =>
    let q := r.1.putAll w (base + p.1) p.2
    (q.1, { r.2 with err := if r.2.err = 0 then q.2.err else r.2.err
                     addr := if r.2.err = 0 then q.2.addr else r.2.addr, waits := r.2.waits || q.2.waits })) (s, Taken.none)

/-- Bytes read as an engine does. -/
def State.getAll (s : State) (w : Who) (va n : Nat) : State × Taken := s.take w false va n 0 Taken.none

/-- The bytes read. -/
def Taken.bytes (t : Taken) : List Byte := t.data.map (·.2)

-- ## Completion of a launch (R342)

/-- The report entry of a range, if it has one (R102). The report of a malformed entry has 0 in MEXP, ACC and MISS: DESIGN CHOICE (log 88). -/
def reportOf (i : Nat) (e : W64 × W64) (n : Nat × Nat) : Option (W64 × W64) :=
  let ex := fld e.2 63 60
  let mk (mexp kind acc miss : Nat) : W64 × W64 :=
    (BitVec.ofNat 64 (i * 2 ^ 56 + mexp * 2 ^ 52 + kind * 2 ^ 48), BitVec.ofNat 64 (acc * 2 ^ 32 + miss))
  if !okRange e then some (mk 0 3 0 0)
  else if n.1 < 4096 then none
  else
    let mexp := ((List.range 16).filter (fun k => decide (n.2 * 2 ^ k ≤ n.1))).foldl max 0
    if n.2 * 2 ^ ex > 4 * n.1 then some (mk mexp 1 n.1 n.2)
    else if n.2 * 2 ^ ex * 4 < n.1 then some (mk mexp 2 n.1 n.2)
    else none

/-- The checks of a store of n bytes made at once: the first fault and its address, and whether it must wait (R102). -/
def State.canStore (s : State) (w : Who) (va n : Nat) : State × Taken :=
  (segs va n).foldl (fun (r : State × Taken) g =>
    let q := r.1.check w .store 1 (BitVec.ofNat 64 g.1) g.2
    (q.1, match q.2 with
      | .ok a => if a.reg.isSome then r.2.fault 21 g.1
                 else if !a.remote && g.2 != 128 && a.lines.any q.1.poisoned then r.2.fault 23 g.1 else r.2
      | .fail _ c => r.2.fault c g.1
      | _ => { r.2 with waits := true })) (s, Taken.none)

/-- The 520 bytes of a launch's report area as they are written: the count and the reports (R102). -/
def Launch.report (l : Launch) : List Byte :=
  let rs := (List.range l.rlist.length).filterMap (fun i => reportOf i (l.rlist.getD i (0, 0)) (l.counts.getD i (0, 0)))
  leBytes 8 rs.length ++ rs.flatMap (fun r => leBytes 8 r.1.toNat ++ leBytes 8 r.2.toNat)

/-- The status word (R342). -/
def statusWord (st tasks : Nat) : W64 := BitVec.ofNat 64 (st * 2 ^ 60 + min tasks (2 ^ 32 - 1))

/-- The physical address of a virtual address where the translation gives one (R342). -/
def State.paOf (s : State) (w : Who) (va : W64) : Nat :=
  match (s.translate w .store va).2 with
  | .ok t => ptePA t.pte + (va.toNat - t.base)
  | _ => 0

/-- The arrival on a launch's COMPL, with an ECODE to report; a fault of the arrival is logged with KIND 10 (R342). False
if it must wait. -/
def State.arriveCompl (s : State) (l : Launch) (code : Nat) : State × Bool :=
  let va := va57 l.words[1]
  let r := s.barCheck l.who false va
  match r.2 with
  | .ok p => if s.barReady p then (r.1.engArrive p code 1 0 0, true) else (r.1.closeBar p, false)
  | .fail _ _ => (r.1.logErr 10 0 (r.1.paOf l.who va), true)
  | _ => (r.1, false)

/-- A launch completes (R342): report, status, arrival; STATE 3 if END has discarded its tasks (R409). None while a write must
wait, with the state that the attempt leaves. -/
def State.closeLaunch (s : State) (l : Launch) : State × Bool :=
  let n := fld l.words[3] 63 58
  let rpt := (va57 l.words[4]).toNat
  let r := if n = 0 || l.ended then (s, Taken.none)
           else if rpt % 8 ≠ 0 then (s, Taken.none.fault 22 rpt)
           else
             let a := s.canStore l.who rpt 520
             if a.2.err ≠ 0 || a.2.waits then a else a.1.putAll l.who rpt l.report
  if r.2.waits then (s.waited r.1, false)
  else
    let st := if l.ended then 3 else if r.2.err = 0 then 1 else 2
    let u := r.1.putAll l.who (va57 l.words[2]).toNat (leBytes 8 (statusWord st l.tasks).toNat)
    if u.2.waits then (s.waited u.1, false)
    else
      let a := u.1.arriveCompl l (if u.2.err = 0 then 0 else ecodeOf u.2.err)
      if a.2 then (a.1.raiseIrq 3, true) else (s.waited a.1, false)

/-- The launch in a slot completes, and its slot is freed (R342). -/
def State.launchEnd (s : State) (i : Fin 64) : State :=
  let r := s.closeLaunch s.launches[i]
  if r.2 then r.1.modLaunch i (fun _ => Launch.none) else r.1

/-- The live count of a launch lowered by 1; at 0 the launch completes (R342). -/
def State.liveDown (s : State) (i : Fin 64) : State :=
  let s := s.modLaunch i (fun l => { l with live := l.live - 1 })
  if s.launches[i].on && s.launches[i].live == 0 then s.launchEnd i else s

/-- The live count raised by 1. -/
def State.liveUp (s : State) (i : Fin 64) : State := s.modLaunch i (fun l => { l with live := l.live + 1 })

-- ## Bazaar queues (R350)

/-- V. -/
def Bazaar.valid (b : Bazaar) : Bool := b.w0.getLsbD 63
/-- Capacity. -/
def Bazaar.cap (b : Bazaar) : Nat := 2 ^ fld b.w1 4 0
/-- CTXID. -/
def Bazaar.ctx (b : Bazaar) : BitVec 12 := b.w1.extractLsb' 52 12
/-- STL. -/
def Bazaar.stl (b : Bazaar) : Bool := b.w1.getLsbD 8
/-- Room for one manifest more. -/
def Bazaar.room (b : Bazaar) : Bool := b.valid && decide (b.q.length < b.cap)
/-- A queue's entries changed. -/
def State.modQueue (s : State) (q : Fin 16) (f : List SEnt → List SEnt) : State :=
  { s with bazaar := s.bazaar.set q { s.bazaar[q] with q := f (s.bazaar[q]).q } }
/-- The physical address of the j-th place of a queue's ring from its oldest entry. -/
def State.ringPa (s : State) (q : Fin 16) (j : Nat) : Nat :=
  let b := s.bazaar[q]
  fld b.w0 47 12 * 4096 + 128 * ((b.head + j) % b.cap)
/-- The location of that place (log 44). -/
def State.ringLoc (s : State) (q : Fin 16) (j : Nat) : Option Nat :=
  match s.decodePa (s.ringPa q j) with
  | .loc l => some l
  | _ => none
/-- A manifest's bytes written in its place of the ring by the home's atomic unit (R350); none reach a sealed line (R331; log 44). -/
def State.ringPut (s : State) (q : Fin 16) (j : Nat) (bs : List Byte) : State :=
  match s.ringLoc q j with
  | none => s
  | some l =>
    if s.lineSealed (lineOf l) then s
    else
      let bank := s.bankAt (s.ringPa q j) (lineOf l)
      let r := s.homeTake (lineOf l)
      let t := match r.2 with | .ok => r.1 | _ => s
      ((t.unpoison (agentOf 0) bank (cellsAt l bs)).perform (cellsAt l bs)).homeWritten (lineOf l) bank
/-- An entry pushed at the end of a queue. -/
def State.pushQueue (s : State) (q : Fin 16) (e : SEnt) : State :=
  (s.ringPut q (s.bazaar[q]).q.length e.bytes).modQueue q (fun es => es ++ [e])
/-- An entry in the j-th place of a queue, its bytes read from the ring (R350; a ring line that cannot be read: log 44). -/
def State.ringGet (s : State) (q : Fin 16) (j : Nat) (e : SEnt) : SEnt :=
  match s.ringLoc q j with
  | some l => if s.poisoned (lineOf l) then e else { e with bytes := s.peekN l 128 }
  | none => e
/-- The lines of a queue's n oldest entries read at their homes, whose slices allocate them (R61). -/
def State.readRing (s : State) (q : Fin 16) (n : Nat) : State :=
  (List.range n).foldl (fun s j => match s.ringLoc q j with | some l => s.allocLlc (lineOf l) | none => s) s
/-- The oldest entry of a queue. -/
def State.queueHead (s : State) (q : Fin 16) : Option SEnt := (s.bazaar[q]).q.head?.map (s.ringGet q 0)
/-- The entries of a queue, the oldest first. -/
def State.queueNow (s : State) (q : Fin 16) : List SEnt :=
  ((List.range (s.bazaar[q]).q.length).zip (s.bazaar[q]).q).map (fun x => s.ringGet q x.1 x.2)
/-- The oldest entry of a queue taken out. -/
def State.popQueue (s : State) (q : Fin 16) : State :=
  { s.readRing q 1 with bazaar := s.bazaar.set q { s.bazaar[q] with q := (s.bazaar[q]).q.drop 1, head := ((s.bazaar[q]).head + 1) % (s.bazaar[q]).cap } }
/-- A queue left with some of its entries, which move up in the ring. -/
def State.keepQueue (s : State) (q : Fin 16) (es : List SEnt) : State :=
  ((List.range es.length).zip es).foldl (fun s x => s.ringPut q x.1 x.2.bytes) ((s.readRing q (s.bazaar[q]).q.length).modQueue q (fun _ => es))
/-- The queues that hold an entry of a context changed, each as a whole. -/
def State.modQueues (s : State) (ctx : BitVec 12) (f : List SEnt → List SEnt) : State :=
  (List.finRange 16).foldl (fun s q => if (s.bazaar[q]).q.any (fun e => e.ctx == ctx) then s.keepQueue q (f (s.queueNow q)) else s) s

-- ## Manifests (R338)

/-- Words as bytes. -/
def wordBytes (ws : List W64) : List Byte := ws.flatMap (fun w => leBytes 8 w.toNat)

/-- The image is no manifest: a reserved bit of word 0, or an ENTRY not aligned to 8 (R362). -/
def imageBad (bs : List Byte) : Bool := fld (wordAt bs 0) 63 57 != 0 || fld (wordAt bs 0) 2 0 != 0

/-- The copy that a push makes (R338, R339): words 1 and 2 replaced. -/
def manifestCopy (bs : List Byte) (rsc : Scope) (fv : Bool) (slot : Fin 64) (fut : W64) : List Byte :=
  let w1 : W64 := BitVec.ofNat 64 (rsc.code.toNat * 2 ^ 61 + (if fv then 2 ^ 60 else 0) + slot.val * 2 ^ 54)
  bs.take 8 ++ leBytes 8 w1.toNat ++ leBytes 8 (fld fut 56 0) ++ bs.drop 24

/-- RSC of a manifest. -/
def SEnt.rsc (e : SEnt) : Scope := Scope.ofCode ((wordAt e.bytes 1).extractLsb' 61 3)
/-- The future of a manifest, if FV is 1. -/
def SEnt.fut (e : SEnt) : Option W64 := if (wordAt e.bytes 1).getLsbD 60 then some (va57 (wordAt e.bytes 2)) else none
/-- The Porter descriptors with V = 1, with their indices (R131). -/
def SEnt.ops (e : SEnt) : List (Nat × W64 × W64) :=
  ((List.range 4).map (fun i => (i, wordAt e.bytes (8 + 2 * i), wordAt e.bytes (9 + 2 * i)))).filter (fun d => d.2.1.getLsbD 63)

-- ## Partitions (R110) and image clusters (R413)

/-- The granules of a core that no partition holds. -/
def State.freeGran (s : State) (c : CoreId) : List Nat :=
  (List.range 16).filter (fun g => !s.cores[c].parts.any (fun p => p.gmask.getLsbD g))

/-- A mask of n free granules, the device's choice (R110). -/
def State.chooseGran (s : State) (c : CoreId) (n : Nat) : BitVec 16 :=
  let fs := s.freeGran c
  let k := if fs.isEmpty then 0 else Config.choose s.free % fs.length
  ((fs.drop k ++ fs.take k).take n).foldl (fun m g => m ||| (1#16 <<< g)) 0#16

/-- The scratchpad bytes of a granule set cleared (R110). -/
def State.zeroGran (s : State) (c : CoreId) (gm : BitVec 16) : State :=
  let mine (k : Nat) : Bool := k / 2 ^ 22 == c.val && gm.getLsbD (k % 2 ^ 22 / 0x30000)
  { s with scr := s.scr.filter (fun x => !mine x.1), scrPz := s.scrPz.filter (fun w => !mine (8 * w)) }

/-- A partition of n granules allocated for a context, zeroed; one that is there already is kept if this launch asks for it too (R110). -/
def State.allocPart (s : State) (c : CoreId) (ctx : BitVec 12) (n : Nat) (keep : Bool) : State :=
  if (s.partOf c ctx).isSome then
    s.modCore c (fun x => { x with parts := x.parts.map (fun p => if p.ctx == ctx then { p with keep := p.keep || keep } else p) })
  else
    let gm := s.chooseGran c n
    let s := s.zeroGran c gm
    { s.modCore c (fun x => { x with parts := x.parts ++ [{ ctx := ctx, gmask := gm, keep := keep }] }) with free := s.free + 1 }

/-- The clusters that a context occupies. -/
def State.occClusters (s : State) (ctx : BitVec 12) : List (Fin 64) :=
  (List.finRange 64).filter (fun j => (List.range 4).any (fun k =>
    s.occupies ⟨j.val * 4 + k % 4, by omega⟩ ctx))

/-- NCLMAX of a context with a valid entry. -/
def State.nclmax (s : State) (ctx : BitVec 12) : Option Nat := (s.ctxEntry ctx).map (fun i => fld s.ctab[i][2] 6 0)

/-- R410: the context may take a manifest into the cluster of a core. -/
def State.clusterOk (s : State) (c : CoreId) (ctx : BitVec 12) : Bool :=
  match s.nclmax ctx with
  | none => true
  | some n => (s.occClusters ctx).contains (clusterOf c) || decide ((s.occClusters ctx).length < n)

/-- The image cluster of a core's cluster assigned when the context is first placed there (R413, R416). -/
def State.assignCluster (s : State) (c : CoreId) (ctx : BitVec 12) : State :=
  match s.nclmax ctx with
  | none => s
  | some n =>
    if s.imap.any (fun m => m.1 == ctx && m.2.2 == clusterOf c) then s
    else match (List.range n).find? (fun j => !s.imap.any (fun m => m.1 == ctx && m.2.1 == j)) with
      | some j => { s with imap := (ctx, j, clusterOf c) :: s.imap }
      | none =>
        -- every image cluster is assigned: one whose cluster the context no longer occupies is assigned anew
        match s.imap.find? (fun m => m.1 == ctx && !(s.occClusters ctx).contains m.2.2) with
        | some m => { s with imap := (ctx, m.2.1, clusterOf c) :: s.imap.filter (· != m) }
        | none => s

/-- Size of a core block (R413). -/
def coreBlock : Nat := 0x3B9000
/-- The physical address of a context's image. -/
def State.imageAt (s : State) (e : Fin 64) : Nat := fld s.ctab[e][1] 47 12 * 4096
/-- The physical address of core CIDX k's block of image cluster j. -/
def blockAt (image j k : Nat) : Nat := image + 0x1000 + (4 * j + k) * coreBlock

/-- The block of a core in its context's image, if the context has one. -/
def State.imageBlock (s : State) (c : CoreId) (ctx : BitVec 12) : Option Nat :=
  match s.ctxEntry ctx, s.imap.find? (fun m => m.1 == ctx && m.2.2 == clusterOf c) with
  | some e, some m => some (blockAt (s.imageAt e) m.2.1 (cidx c))
  | _, _ => none

-- ## A string's area (R414)

/-- The 128 bytes of a vector register. -/
def laneBytes (v : LaneVec) : List Byte := v.toList.flatMap (fun x => leBytes 4 x.toNat)

/-- The lanes on which a register holds no value although others hold one (R405). -/
def Str.goneOn (t : Str) (r : Nat) : Mask := ((t.gone.find? (fun g => g.1 == r)).map (·.2)).getD 0

/-- The value kept for register r: its own, or on lanes without one the one a replay gives back (R146). -/
def Str.areaReg (t : Str) (r : Nat) : Option LaneVec :=
  match t.vreg.toArray.getD r none, t.kept.find? (fun k => k.reg == r) with
  | some v, some k => some (gen 32 (fun l => (if (t.goneOn r).has l then k.v else v).toArray.getD l 0))
  | some v, none => some v
  | none, some k => some k.v
  | none, none => none

/-- Bytes filled up with zeros. -/
def padTo (n : Nat) (bs : List Byte) : List Byte := bs ++ List.replicate (n - bs.length) 0

/-- The number of a slot's state (R355; log 62). -/
def SlotState.code : SlotState → Nat
  | .free => 0 | .staging => 1 | .ready => 2 | .spilling => 3 | .restoring => 4

/-- The number of a scope, mode and slot in an image (log 62). -/
def modeOf : Nat → Mode
  | 0 => .user | 1 => .sup | _ => .hyp

/-- The state of a slot with a number. -/
def slotStateOf : Nat → SlotState
  | 1 => .staging | 2 => .ready | 3 => .spilling | 4 => .restoring | _ => .free

/-- What R414 leaves unsaid and a string needs to go on, behind its system registers (log 62): launch, release scope, future, pool record,
the lanes whose user region is the task's first, and the manifest whose operands are being staged: its ENTRY and its descriptors. -/
def Str.moreBytes (t : Str) : List Byte :=
  leBytes 1 (t.launch.elim 0 (fun i => i.val + 1)) ++ leBytes 1 t.rsc.code.toNat
    ++ leBytes 8 (t.fut.elim 0 (fun f => 2 ^ 63 + f.toNat)) ++ leBytes 4 (t.pool.elim 0 (· + 1))
    ++ leBytes 4 (Mask.ofLanes (laneList.filter (fun l => (t.lane l).urec.first))).toNat
    ++ (match t.staging with
      | some g => leBytes 1 (1 + (if g.begun then 2 else 0) + (if g.entered then 4 else 0)) ++ padTo 8 (g.ent.bytes.take 8) ++ padTo 64 ((g.ent.bytes.drop 64).take 64)
      | none => List.replicate 73 0)

/-- The system registers of a string in its area, packed in the order of R414 (log 62). -/
def Str.sysBytes (t : Str) : List Byte :=
  padTo 192 (leBytes 8 (t.allot * 2 ^ 40 + t.slotted.length * 2 ^ 28 + (if t.fz then 1 else 0)) ++ leBytes 1 t.fflags.toNat
    ++ leBytes 8 t.rseed.toNat ++ leBytes 4 t.pfdrop.toNat ++ leBytes 8 t.cperr.toNat ++ leBytes 8 t.ptroot.toNat ++ leBytes 2 t.allot
    ++ leBytes 32 t.vstate.toNat ++ ([t.mcnt.nan, t.mcnt.inf, t.mcnt.scnan, t.mcnt.spidx].flatMap (fun x => leBytes 2 x.toNat))
    ++ leBytes 1 (if t.al then 1 else 0) ++ leBytes 1 (if t.sl then 1 else 0) ++ leBytes 2 t.bkn.toNat ++ leBytes 2 t.bkf.toNat
    ++ leBytes 1 t.st.code ++ t.moreBytes)

/-- The splits of a string with their places: their slot, or 4 on the park list. -/
def Str.placed (t : Str) : List (Nat × Split) := t.slotted.map (fun j => (j.val, t.splits[j])) ++ t.park.map (fun x => (4, x))

/-- A split record (R414). -/
def splitBytes (x : Nat × Split) : List Byte :=
  leBytes 8 x.2.pc.toNat ++ leBytes 4 x.2.m.toNat ++ leBytes 4 x.2.e.toNat ++ leBytes 2 (modeRank x.2.mode + 4 * x.1 + 32 * x.2.stack.length)
    ++ leBytes 1 x.2.t.toNat ++ leBytes 4 x.2.pf.length ++ leBytes 1 (if x.2.enter then 1 else 0)

/-- Staged matrix counts with their region (R263, R414). -/
def MStage.bytes (x : MStage) : List Byte :=
  [x.cnt.nan, x.cnt.inf, x.cnt.scnan, x.cnt.spidx].flatMap (fun y => leBytes 2 y.toNat) ++ leBytes 4 x.openL.toNat ++ leBytes 4 (modeRank x.mode)

/-- The staged counts of complete operations, those of one region added up (R263). -/
def Str.staged (t : Str) : List MStage :=
  (t.mstage.filter (·.opDone)).foldl (fun ys x =>
    if ys.any (fun y => y.mode == x.mode && y.openL == x.openL) then
      ys.map (fun y => if y.mode == x.mode && y.openL == x.openL then { y with cnt := y.cnt.add x.cnt } else y)
    else ys ++ [x]) []

/-- The parts of a string slot's area (R414; log 62). -/
def Str.parts (t : Str) : List (Nat × List Byte) :=
  (List.range 256).filterMap (fun r => (t.areaReg r).map (fun v => (128 * r, laneBytes v)))
    ++ [(0x8000, t.sreg.toList.flatMap (fun x => leBytes 8 x.toNat)),
        (0x8200, leBytes 4 0 ++ (t.kreg.toList.drop 1).flatMap (fun x => leBytes 4 x.toNat)),
        (0x8240, t.sysBytes),
        (0x8300, padTo 768 ((t.placed.take 32).flatMap splitBytes)),
        (0x8600, (List.range 32).flatMap (fun l => leBytes 4 (t.lane l).gen.toNat)),
        (0x8680, leBytes 8 t.age ++ leBytes 8 t.ready),
        (0x8690, padTo 64 ((t.staged.take 4).flatMap MStage.bytes)),
        (0x86D0, padTo 256 ((t.placed.take 32).flatMap (fun x => leBytes 8 x.2.blk.toNat))),
        (0x87D0, List.replicate 48 0)]

/-- A lane's trap records (R414). -/
def Lane.trapBytes (x : Lane) : List Byte :=
  leBytes 8 x.sepc.toNat ++ leBytes 4 x.scause.toNat ++ leBytes 8 x.stval.toNat ++ leBytes 8 x.hepc.toNat ++ leBytes 4 x.hcause.toNat
    ++ leBytes 8 x.htval.toNat ++ leBytes 8 x.sblk.toNat ++ leBytes 8 x.hblk.toNat

/-- A region record (R414). -/
def Region.bytes (r : Region) : List Byte :=
  leBytes 8 r.rentry.toNat ++ leBytes 8 r.fpc.toNat ++ leBytes 4 r.gen.toNat ++ leBytes 2 r.allot ++ leBytes 1 (if r.mark then 1 else 0)
    ++ leBytes 8 r.rblk.toNat ++ [0] ++ leBytes 32 r.vstate.toNat

/-- An entry of a reconvergence stack (R414). -/
def StackEnt.bytes (x : StackEnt) : List Byte :=
  leBytes 8 x.rpc.toNat ++ leBytes 4 x.rmask.toNat ++ leBytes 8 x.ppc.toNat ++ leBytes 4 x.pmask.toNat

/-- A string's control slot (R414): its stacks in the order of its split records, the trap records and the region records of its lanes. -/
def Str.control (t : Str) : List Byte :=
  padTo 8192 (padTo 744 (((t.placed.flatMap (·.2.stack)).take 31).flatMap StackEnt.bytes)
    ++ (List.range 32).flatMap (fun l => (t.lane l).trapBytes)
    ++ (List.range 32).flatMap (fun l => (t.lane l).urec.bytes ++ (t.lane l).srec.bytes))

/-- The parts of a pool record: the area and the string's part of the control slot (R358). -/
def Str.record (t : Str) : List (Nat × List Byte) := t.parts ++ [(0x8800, t.control)]

/-- 32 lanes from 128 bytes. -/
def lanesOfBytes (bs : List Byte) : LaneVec := gen 32 (fun l => le32 ((bs.drop (4 * l)).take 4))

/-- n bytes from place o. -/
def bytesAt (bs : List Byte) (o n : Nat) : List Byte := (bs.drop o).take n
/-- The number in n bytes from place o. -/
def numAt (bs : List Byte) (o n : Nat) : Nat := leNat (bytesAt bs o n)

/-- The registers that a string's area gives a value: those of its VSTATE (R414). -/
def Str.readRegs (t : Str) (a : List Byte) : Str :=
  let vs : BitVec 256 := BitVec.ofNat 256 (numAt a 0x8267 32)
  let reg (r : Nat) : LaneVec := lanesOfBytes (bytesAt a (128 * r) 128)
  { t with
    vreg := gen 256 (fun r => if vs.getLsbD r then some (gen 32 (fun l => if (t.goneOn r).has l then 0 else (reg r).toArray.getD l 0)) else none)
    sreg := gen 64 (fun i => le64 (bytesAt a (0x8000 + 8 * i) 8))
    kreg := gen 16 (fun i => if i = 0 then t.kreg[0] else le32 (bytesAt a (0x8200 + 4 * i) 4))
    vspill := 0 }

/-- The system registers of a string that its area holds, with what stands behind them (R414; log 62). -/
def Str.readSys (t : Str) (a : List Byte) : Str :=
  let at_ (o n : Nat) : Nat := numAt a (0x8240 + o) n
  let cnt (i : Nat) : BitVec 16 := BitVec.ofNat 16 (at_ (71 + 2 * i) 2)
  let first : Mask := BitVec.ofNat 32 (at_ 100 4)
  let fut : Option W64 := if at_ 88 8 < 2 ^ 63 then none else some (BitVec.ofNat 64 (at_ 88 8 - 2 ^ 63))
  let launch : Option (Fin 64) := (List.finRange 64)[at_ 86 1 - 1]?.filter (fun _ => at_ 86 1 != 0)
  let rsc := Scope.ofCode (BitVec.ofNat 3 (at_ 87 1))
  let man := manifestCopy (bytesAt a 0x82A9 8 ++ List.replicate 56 0 ++ bytesAt a 0x82B1 64) rsc fut.isSome (launch.getD 0) (fut.getD 0)
  let root := BitVec.ofNat 64 (at_ 29 8)
  { t with
    fz := at_ 0 8 % 2 == 1, fflags := BitVec.ofNat 5 (at_ 8 1), rseed := BitVec.ofNat 64 (at_ 9 8), pfdrop := BitVec.ofNat 32 (at_ 17 4)
    cperr := BitVec.ofNat 64 (at_ 21 8), ptroot := root, allot := at_ 37 2
    mcnt := { nan := cnt 0, inf := cnt 1, scnan := cnt 2, spidx := cnt 3 }
    al := at_ 79 1 != 0, sl := at_ 80 1 != 0, bkn := BitVec.ofNat 12 (at_ 81 2), bkf := BitVec.ofNat 16 (at_ 83 2), st := slotStateOf (at_ 85 1)
    launch := launch, rsc := rsc, fut := fut, pool := if at_ 96 4 = 0 then none else some (at_ 96 4 - 1)
    staging := if at_ 104 1 = 0 then none
      else some { ent := { bytes := man, ctx := ctxOf root, launch := launch.getD 0 }, begun := at_ 104 1 / 2 % 2 == 1, entered := at_ 104 1 / 4 == 1 }
    lanes := gen 32 (fun l => { t.lane l with
      gen := le32 (bytesAt a (0x8600 + 4 * l) 4), urec := { (t.lane l).urec with first := first.has l } })
    age := numAt a 0x8680 8, ready := numAt a 0x8688 8 }

/-- A region record read back. -/
def Region.ofBytes (r : Region) (bs : List Byte) : Region :=
  { r with rentry := le64 (bytesAt bs 0 8), fpc := le64 (bytesAt bs 8 8), gen := le32 (bytesAt bs 16 4), allot := numAt bs 20 2
           mark := numAt bs 22 1 != 0, rblk := le64 (bytesAt bs 23 8), vstate := BitVec.ofNat 256 (numAt bs 32 32) }

/-- A lane with the trap records and the region records that the string's control slot holds. -/
def Lane.ofControl (x : Lane) (bs : List Byte) (l : Nat) : Lane :=
  let o := 744 + 56 * l
  { x with sepc := le64 (bytesAt bs o 8), scause := le32 (bytesAt bs (o + 8) 4), stval := le64 (bytesAt bs (o + 12) 8)
           hepc := le64 (bytesAt bs (o + 20) 8), hcause := le32 (bytesAt bs (o + 28) 4), htval := le64 (bytesAt bs (o + 32) 8)
           sblk := le64 (bytesAt bs (o + 40) 8), hblk := le64 (bytesAt bs (o + 48) 8)
           urec := x.urec.ofBytes (bytesAt bs (2536 + 128 * l) 64), srec := x.srec.ofBytes (bytesAt bs (2600 + 128 * l) 64) }

/-- An entry of a reconvergence stack read back. -/
def StackEnt.ofBytes (bs : List Byte) : StackEnt :=
  { rpc := le64 (bytesAt bs 0 8), rmask := le32 (bytesAt bs 8 4), ppc := le64 (bytesAt bs 12 8), pmask := le32 (bytesAt bs 20 4) }

/-- The split of the i-th record, with its stack; its header is read anew (R460). `old` is the split that the device remembers there: it
gives the wait of a string that is not saved, and the lanes for which pages were dropped. -/
def splitOf (a : List Byte) (i : Nat) (stack : List StackEnt) (old : Option Split) : Split :=
  let r := bytesAt a (0x8300 + 24 * i) 24
  let m : Mask := le32 (bytesAt r 8 4)
  let n := numAt r 19 4
  let y := old.filter (fun y => y.pc == le64 (bytesAt r 0 8) && y.m == m)
  { Split.empty with
    pc := le64 (bytesAt r 0 8), m := m, e := le32 (bytesAt r 12 4), mode := modeOf (numAt r 16 2 % 4), stack := stack
    t := BitVec.ofNat 5 (numAt r 18 1), enter := numAt r 23 1 != 0, blk := le64 (bytesAt a (0x86D0 + 8 * i) 8)
    pf := (y.map (·.pf)).filter (fun p => p.length == n) |>.getD (List.replicate n (ctzBits m))
    wait := (y.map (·.wait)).getD .none }

/-- A string with the splits and stacks that its area and its control slot hold. -/
def Str.readSplits (t : Str) (a ctl : List Byte) : Str :=
  let ents := (List.range 31).map (fun i => StackEnt.ofBytes (bytesAt ctl (24 * i) 24))
  ((List.range 32).foldl (fun (r : Str × List StackEnt) i =>
    let v := numAt a (0x8300 + 24 * i + 16) 2
    let x := splitOf a i (r.2.take (v / 32)) (t.placed[i]?.map (·.2))
    if x.m = 0 then r
    else (if h : v / 4 % 8 < 4 then { r.1 with splits := r.1.splits.set (v / 4 % 8) x } else { r.1 with park := r.1.park ++ [x] }, r.2.drop (v / 32)))
    ({ t with splits := Vector.replicate 4 Split.empty, park := [] }, ents)).1

/-- The staged counts that an area holds; those beyond its four, and those of operations not complete, are the device's own (log 62). -/
def Str.readStaged (t : Str) (a : List Byte) : Str :=
  let ent (i : Nat) : MStage :=
    let b := bytesAt a (0x8690 + 16 * i) 16
    let cnt (k : Nat) : BitVec 16 := BitVec.ofNat 16 (numAt b (2 * k) 2)
    { op := 0, opDone := true, mode := modeOf (numAt b 12 4), openL := le32 (bytesAt b 8 4)
      cnt := { nan := cnt 0, inf := cnt 1, scnan := cnt 2, spidx := cnt 3 } }
  { t with mstage := ((List.range 4).map ent).filter (fun x => x.openL != 0) ++ t.staged.drop 4 ++ t.mstage.filter (fun x => !x.opDone) }

/-- What a replay gives back, of a string that only an image holds: the registers without a value that a region's VSTATE names, on the lanes
of that region (R146, R405; log 62). -/
def Str.keptOf (t : Str) (a : List Byte) : List Kept :=
  let lanes (mode : Mode) (r : Nat) : Mask :=
    Mask.ofLanes (laneList.filter (fun l => (if mode == .user then (t.lane l).urec else (t.lane l).srec).vstate.getLsbD r))
  ((List.range 256).filter (fun r => (t.vreg.toArray.getD r none).isNone)).flatMap (fun r =>
    ([Mode.user, Mode.sup].filter (fun m => lanes m r != 0)).map (fun m =>
      ({ reg := r, mode := m, lanes := lanes m r, v := lanesOfBytes (bytesAt a (128 * r) 128) } : Kept)))

/-- A string read back from its area and its control slot. `t` is what the device remembers of it: its identity, its operations in flight, its
waits, and per lane what the image has no place for; for one that only the image knows, an empty string with a fresh number (log 62). -/
def Str.ofImage (t : Str) (a ctl : List Byte) : Str :=
  let u := (((t.readStaged a).readRegs a).readSys a).readSplits a ctl
  let u := { u with lanes := gen 32 (fun l => (u.lane l).ofControl ctl l) }
  if t.present then u else { u with kept := u.keptOf a }

/-- Physical registers per lane that a string occupies (R146, R147): those of its values, those kept for a replay, and those that have been
written or released while a tile operation has still to read them. -/
def Str.physical (t : Str) : Nat :=
  (t.vreg.toList.zip (List.range 256)).countP (fun x => x.1.isSome && !t.vspill.getLsbD x.2)
    + (((t.kept.filter (fun k => !t.gone.any (fun g => g.1 == k.reg))).map (·.reg)).eraseDups).length
    + t.lent.countP (fun x => x.1.isNone && x.2.any t.reading)

/-- Physical registers per lane of a core that are free. -/
def State.freeRegs (s : State) (c : CoreId) : Nat := 4096 - (s.cores[c].strs.toList.map Str.physical).sum

/-- Those that a string of a context may take: what pre-emption has freed is held for the incoming context (R416). -/
def State.freeRegsFor (s : State) (c : CoreId) (ctx : BitVec 12) : Nat :=
  s.freeRegs c - (if s.cores[c].kept.all (· == ctx) then 0 else s.cores[c].keptRegs)

/-- Offset of the control slots in a core block (R413). -/
def controlSlots : Nat := 0x088000

/-- Bytes of a string slot's area. -/
def slotArea : Nat := 0x8800
/-- Bytes of a pool record (R340). -/
def poolRec : Nat := 43008

/-- The first free record of a launch's pool. -/
def Launch.freeRec (l : Launch) : Option Nat := (List.range l.pcnt).find? (fun r => !l.poolUsed.contains r)

/-- A pool record for a string, taken if it holds none (R358, R411). -/
def State.poolFor (s : State) (c : CoreId) (k : SlotId) : State × Option Nat :=
  let t := s.strAt c k
  match t.pool, t.launch with
  | some r, _ => (s, some r)
  | none, none => (s, none)
  | none, some i =>
    match s.launches[i].freeRec with
    | some r => ((s.modLaunch i (fun l => { l with poolUsed := r :: l.poolUsed })).modStr c k (fun t => { t with pool := some r }), some r)
    | none => (s, none)

/-- Where a string's registers are spilled to: its slot of the context image, or a pool record, which it keeps (R147, R411). -/
def State.spillArea (s : State) (c : CoreId) (k : SlotId) : State × Option (Who × Nat) :=
  let t := s.strAt c k
  match s.imageBlock c t.ctx with
  | some b => (s, some (whoOf c 0 .hyp, b + slotArea * k.val))
  | none =>
    let r := s.poolFor c k
    match r.2, t.launch with
    | some n, some i =>
      (r.1.modStr c k (fun t => { t with poolKept := true }), some (whoOf c s.launches[i].ptroot .user, s.launches[i].pool + poolRec * n))
    | _, _ => (r.1, none)

-- ## Park spill and restore (R358, R359)

/-- A string spilled into its pool record, woken or not. A fault on the record is a context fault of kind 2; a spill
that must wait leaves the string in its slot. None if there is no record. -/
def State.spillStr (s : State) (c : CoreId) (k : SlotId) (woken : Bool) : Option State :=
  let r := s.poolFor c k
  let t := r.1.strAt c k
  match r.2, t.launch with
  | some n, some i =>
    let base := s.launches[i].pool + poolRec * n
    let q := r.1.putParts (whoOf c s.launches[i].ptroot .user) base t.record
    if q.2.waits then some (s.waited q.1)
    else if q.2.err ≠ 0 then some (q.1.soon (.contextFault t.ctx 2))
    else
      let s := q.1.releaseArray c k true
      let t := s.strAt c k
      some ((s.modStr c k (fun _ => Str.empty)).modCore c (fun x =>
        { x with spilled := x.spilled ++ [{ str := t, woken := woken, at_ := s.cyc }], allParked := none }))
  | _, _ => none

/-- The woken string of a core that is restored first (R359); a stopped context's strings stay (R409), and slots held for an incoming context
are its own (R416). -/
def State.firstWoken (s : State) (c : CoreId) : Option Spilled :=
  let ws := s.cores[c].spilled.filter (fun p => p.woken && !s.faulted p.str.ctx && !s.saving p.str.ctx && s.cores[c].kept.all (· == p.str.ctx))
  let t := (ws.map (·.at_)).foldl min ((ws.map (·.at_)).headD 0)
  ws.find? (fun p => p.at_ == t)

/-- A pool record given back. -/
def State.freePool (s : State) (t : Str) : State :=
  match t.launch, t.pool with
  | some i, some r => s.modLaunch i (fun l => { l with poolUsed := l.poolUsed.filter (· != r) })
  | _, _ => s

/-- An entry whose launch slot is rewritten, its LSLOT with it. -/
def SEnt.relaunch (f : Fin 64 → Fin 64) (e : SEnt) : SEnt :=
  let i := f e.launch
  { e with launch := i, bytes := e.bytes.take 8 ++ leBytes 8 (fput (wordAt e.bytes 1) 59 54 i.val).toNat ++ e.bytes.drop 16 }

/-- A string whose launch slot is rewritten. -/
def Str.relaunch (f : Fin 64 → Fin 64) (t : Str) : Str :=
  { t with launch := t.launch.map f, staging := t.staging.map (fun g => { g with ent := g.ent.relaunch f }) }

/-- A spilled string loaded from its record. Its launch slot and its root are those it has now (R418), and so is what its operations in flight
and the release of its array have changed since the record was written. -/
def Str.loaded (t : Str) (i : Fin 64) (bs : List Byte) : Str :=
  let u := t.ofImage (bs.take slotArea) (bs.drop slotArea)
  { u.relaunch (fun _ => i) with
    launch := some i, ptroot := t.ptroot, st := .ready, mcnt := t.mcnt, bkn := t.bkn, bkf := t.bkf, cperr := t.cperr, al := t.al, sl := t.sl }

/-- A woken string restored into a free slot (R359): its record is copied to the new slot's area of the context image, if there is an
image, its state is loaded, and the record is freed, but for one that R147 has taken (R411). Registers for which no physical register is
free stay in the area (log 65). -/
def State.restoreStr (s : State) (c : CoreId) (k : SlotId) (p : Spilled) : State :=
  let t := p.str
  match t.launch, t.pool with
  | some i, some n =>
    let a := s.getAll (whoOf c s.launches[i].ptroot .user) (s.launches[i].pool + poolRec * n) poolRec
    if a.2.waits then s.waited a.1
    else if a.2.err ≠ 0 then a.1.soon (.contextFault t.ctx 2)
    else
      let r := t.loaded i a.2.bytes
      let q := match a.1.imageBlock c t.ctx with
        | some b => a.1.putParts (whoOf c 0 .hyp) b
            [(slotArea * k.val, a.2.bytes.take slotArea), (controlSlots + 0x2000 * k.val, a.2.bytes.drop slotArea)]
        | none => (a.1, Taken.none)
      if q.2.waits then s.waited q.1
      else if q.2.err ≠ 0 then q.1.soon (.contextFault t.ctx 2)
      else
        let tight := decide (q.1.freeRegsFor c t.ctx < r.physical)
        let keep := (a.1.imageBlock c t.ctx).isNone && (t.poolKept || tight)
        let s := q.1.modCore c (fun x => { x with spilled := x.spilled.filter (fun q => q.str.uid != t.uid) })
        (if keep then s else s.freePool t).modStr c k (fun _ =>
          { r with age := s.cyc, pool := if keep then some n else none, poolKept := keep, vspill := if tight then r.vstate else 0 })
  | _, _ =>
    (s.modCore c (fun x => { x with spilled := x.spilled.filter (fun q => q.str.uid != t.uid) })).modStr c k
      (fun _ => { t with st := .ready, age := s.cyc })

end Sys2Proof.Machine
end

