-- ==== Sys2Proof/Machine/Collective.lean ====
section
/-!
DEFINITION. The exact collectives: `xscale` and `xsum`, major 0xD3, and the steps of the collective unit (spec/16 R434 to R439, spec/01
R37, R38).
-/
namespace Sys2Proof.Machine
open Sys2Proof

-- ## The record (R435)

/-- NRANK − 1, FMT and NBLK − 1 as the header word holds them, ERR apart. -/
def collShape (w : W64) : Nat × Nat × Nat := (fld w 63 50, fld w 49 48, fld w 19 0)
/-- FMT. -/
def Coll.fmt (c : Coll) : Ty := if fld c.words[0] 49 48 = 0 then .b8 else .b4
/-- PH. -/
def Coll.ph (c : Coll) : Nat := fld c.words[0] 47 40
/-- NBLK. -/
def Coll.nblk (c : Coll) : Nat := fld c.words[0] 19 0 + 1
/-- Address word i of the record. -/
def Coll.addr (c : Coll) (i : Fin 8) : Nat := (va57 c.words[i]).toNat
/-- AREA. -/
def Coll.area (c : Coll) : Nat := c.addr 5
/-- Offset of Sum in the exchange area (R434). -/
def Coll.sumOff (c : Coll) : Nat := 0x80 + (c.nblk + 127) / 128 * 128
/-- Element bytes of a block. -/
def Coll.eb (c : Coll) : Nat := 4 * c.fmt.width
/-- Who the unit's accesses are made for. -/
def Coll.who (c : Coll) : Who := whoOf c.core c.ptroot c.mode

/-- The record's fields are out of R435: reserved bits, FMT, alignments. -/
def collBad (w : Nat → W64) : Bool :=
  let fmt := fld (w 0) 49 48
  let al : Nat := if fmt = 0 then 32 else 16
  let mis (i n : Nat) : Bool := (w i).toNat % n != 0
  fld (w 0) 39 20 != 0 || (List.range 7).any (fun i => fld (w (i + 1)) 63 57 != 0) || decide (2 ≤ fmt)
    || mis 1 al || mis 2 2 || mis 3 al || mis 4 2 || mis 5 4096 || mis 7 8

-- ## Issue (R436)

/-- A collective issued: the record read and checked, the answer of another device for its barrier awaited, a release at the scope, a commit
point. -/
def State.collIssue (s : State) (sum : Bool) (sc : Scope) (va : W64) : State :=
  let q := s.chkLoad s.sp.m 64 va 64 false
  q.1.oneAccess q.2 va (fun s =>
    let r := s.readLanes [(0, q.2)] 64
    let s := r.1.remoteDone
    let bs := (r.2.map (·.2)).headD []
    let w (i : Nat) : W64 := wordAt bs i
    let areaRemote : Bool := match (s.check s.who .hint 1 (va57 (w 5)) 1).2 with | .ok a => a.remote | _ => false
    if collBad w || (sc != .sys && areaRemote) then s.trapAll 34 va
    else
      let b := s.barCheck s.who false (va57 (w 6))
      b.1.onCheck b.2 (va57 (w 6)) (fun s bar =>
        let go (s : State) : State := s.releasing sc (fun s =>
          let c : Coll :=
            { sum := sum, words := gen 8 w, ptroot := s.me.ptroot, mode := s.sp.mode, scope := sc, core := s.cur.core, bar := bar
              stage := 0, ecode := 0, mism := false, err := false, ovf := 0 }
          (State.commit { s with colls := s.colls ++ [c] } 1).adv 1)
        if placeRemote bar then
          match (s.engRemote s.cur.core true (va57 (w 6)) (placeLoc bar) : State × EAns Unit) with
          | (t, .ok _) => go t
          | (t, .err code) => t.trapAll code (va57 (w 6))
          | (t, .wait) => t.holdMe
        else go s))

/-- `xscale`. -/
def execXscale (sc : Scope) (a : SReg) (s : State) : Res := .next (s.collIssue false sc (s.getS a))

/-- `xsum`. -/
def execXsum (sc : Scope) (a : SReg) (s : State) : Res := .next (s.collIssue true sc (s.getS a))

-- ## The unit's accesses

/-- A collective changed. -/
def State.modColl (s : State) (k : Nat) (f : Coll → Coll) : State := { s with colls := s.colls.modify k f }

/-- n bytes of the exchange area at an offset. -/
def State.areaGet (s : State) (c : Coll) (off n : Nat) : State × Taken := s.getAll c.who (c.area + off) n
/-- Bytes of the exchange area written at an offset. -/
def State.areaPut (s : State) (c : Coll) (off : Nat) (bs : List Byte) : State × Taken := s.putAll c.who (c.area + off) bs

/-- The first fault of this rank kept as its ECODE (R438). -/
def Coll.fault (c : Coll) (err : Nat) : Coll := if c.ecode ≠ 0 || err = 0 then c else { c with ecode := ecodeOf err }

/-- The arrival on the barrier at an offset of the area, releasing at the scope. -/
def State.areaArrive (s : State) (c : Coll) (off : Nat) : State × Taken :=
  let r := s.barCheck c.who false (BitVec.ofNat 64 (c.area + off))
  match r.2 with
  | .ok p => if r.1.barReady p then (r.1.engArrive p 0 1 0 0, Taken.none) else (r.1.closeBar p, { Taken.none with waits := true })
  | .fail _ code => (r.1, Taken.none.fault code (c.area + off))
  | _ => (r.1, { Taken.none with waits := true })

/-- A wait of the unit on the phase of the barrier at an offset: `go` once PHASE is not `ph`; a rank whose area cannot be read goes on
with the fault recorded (log 40). -/
def State.collWait (s : State) (k : Nat) (c : Coll) (off ph : Nat) (go : State → State) : State :=
  let p := s.areaGet c (off + 7) 1
  if p.2.waits then s.waited p.1
  else if p.2.err ≠ 0 then go (p.1.modColl k (fun c => c.fault p.2.err))
  else if ((p.2.bytes).headD 0).toNat = ph then s
  else go p.1

-- ## Contributing (R437)

/-- The value of element j of block b from the planes' bytes (R30, R31). -/
def planeVal (t : Ty) (es sc : List Byte) (b j : Nat) : FVal :=
  let w := t.width
  let bit := w * (32 * b + j)
  blockVal t (sc.getD (2 * b) 0) (sc.getD (2 * b + 1) 0) ((es.getD (bit / 8) 0).toNat / 2 ^ (bit % 8) % 2 ^ w)

/-- m of R37; for an element that is a NaN, of which R37 gives no m, a free value (log 8). -/
def collM (n : Nat) (sstar : Byte) (i : Nat) (v : FVal) : Int :=
  match v with
  | .fin _ _ _ => fixedOf sstar v
  | _ => (Config.freeLane n (2 * i) ++ Config.freeLane n (2 * i + 1) : W64).toInt

/-- A 128-bit sum of the area. -/
def sumAt (bs : List Byte) (i : Nat) : BitVec 128 := BitVec.ofNat 128 (leNat ((bs.drop (16 * i)).take 16))

/-- Sstar after this rank's scales (R437). -/
def maxScales (c : Coll) (st sc : List Byte) : List Byte :=
  (List.range c.nblk).map (fun b => BitVec.ofNat 8 (max (st.getD b 0).toNat (sc.getD (2 * b) 0).toNat))

/-- The sums after this rank's elements (R437). -/
def addSums (c : Coll) (n : Nat) (st sums es sc : List Byte) : List Byte :=
  (List.range c.nblk).flatMap (fun b => (List.range 32).flatMap (fun j =>
    let old := sumAt sums (32 * b + j)
    let ss := st.getD b 0
    let new := if ss = 0xFF then old else old + BitVec.ofInt 128 (collM n ss (32 * b + j) (planeVal c.fmt es sc b j))
    leBytes 16 new.toNat))

/-- The contribution of a rank and its arrival (R437): on SCB for `xscale`, on SMB for `xsum`. -/
def State.collContribute (s : State) (k : Nat) (c : Coll) : State :=
  let w := c.who
  let h := s.areaGet c 0x60 8
  let i := h.1.getAll w (c.addr 2) (2 * c.nblk)
  let e := if c.sum then i.1.getAll w (c.addr 1) (c.eb * c.nblk) else (i.1, Taken.none)
  if h.2.waits || i.2.waits || e.2.waits then s.waited e.1
  else
    let hw := wordAt h.2.bytes 0
    let mism := h.2.err == 0 && collShape hw != collShape c.words[0]
    let own := if i.2.err ≠ 0 then i.2.err else e.2.err
    let ok := h.2.err == 0 && !mism && own == 0
    let st := if ok then e.1.areaGet c 0x80 c.nblk else (e.1, Taken.none)
    let su := if ok && c.sum then st.1.areaGet c c.sumOff (512 * c.nblk) else (st.1, Taken.none)
    let u :=
      if ok && c.sum then su.1.areaPut c c.sumOff (addSums c s.free st.2.bytes su.2.bytes e.2.bytes i.2.bytes)
      else if ok then su.1.areaPut c 0x80 (maxScales c st.2.bytes i.2.bytes)
      else if h.2.err = 0 then su.1.areaPut c 0x60 (leBytes 8 (hw ||| (1#64 <<< 47)).toNat)
      else (su.1, Taken.none)
    let a := u.1.areaArrive c (if c.sum then 0x20 else 0)
    if st.2.waits || su.2.waits || u.2.waits || a.2.waits then s.waited a.1
    else
      State.modColl { a.1 with free := a.1.free + 1 } k (fun c =>
        (((((c.fault own).fault h.2.err).fault st.2.err).fault su.2.err).fault u.2.err).fault a.2.err |> fun c =>
          { c with stage := 1, mism := c.mism || mism })

/-- XSCALE_UNIT_CONTRIBUTE. -/
def execXscaleUnitContribute (s : State) : Res :=
  match s.ev with
  | .xscaleUnitContribute k =>
    match s.colls[k]? with
    | some c =>
      if !c.sum && c.stage == 0 then .next (s.collWait k c 0x40 ((c.ph + 255) % 256) (fun s => s.collContribute k c)) else .next s
    | none => .next s
  | _ => .fault .notThisEvent

/-- XSUM_UNIT_CONTRIBUTE. -/
def execXsumUnitContribute (s : State) : Res :=
  match s.ev with
  | .xsumUnitContribute k =>
    match s.colls[k]? with
    | some c => if c.sum && c.stage == 0 then .next (s.collWait k c 0 c.ph (fun s => s.collContribute k c)) else .next s
    | none => .next s
  | _ => .fault .notThisEvent

-- ## Finishing (R437, R438)

/-- The status word (R438). -/
def Coll.stat (c : Coll) : W64 :=
  BitVec.ofNat 64 (c.ecode * 2 ^ 60 + (if c.mism then 2 ^ 59 else 0) + (if c.err then 2 ^ 58 else 0)
    + (if c.sum then 2 else 1) * 2 ^ 56 + c.ph * 2 ^ 48 + min c.ovf (2 ^ 21 - 1))

/-- STAT written and BAR arrived on; the collective is over. A fault in writing STAT is ECODE on BAR. -/
def State.collClose (s : State) (k : Nat) (c : Coll) : State :=
  let u := s.putAll c.who (c.addr 7) (leBytes 8 c.stat.toNat)
  if u.2.waits || !u.1.barReady c.bar then s.waited (u.1.closeBar c.bar)
  else
    let s := u.1.engArrive c.bar (if u.2.err = 0 then 0 else ecodeOf u.2.err) 1 0 0
    { s with colls := s.colls.eraseIdx k }

/-- XSCALE_UNIT_FINISH: once SCB has completed. -/
def execXscaleUnitFinish (s : State) : Res :=
  match s.ev with
  | .xscaleUnitFinish k =>
    match s.colls[k]? with
    | some c =>
      if !c.sum && c.stage == 1 then
        .next (s.collWait k c 0 c.ph (fun s => s.collClose k ((s.colls[k]?).getD c)))
      else .next s
    | none => .next s
  | _ => .fault .notThisEvent

/-- The result of a block (R437, R38 step 3): whether it overflowed, its element bytes and its scale bytes. -/
def collBlock (c : Coll) (err : Bool) (st sums : List Byte) (b : Nat) : Bool × List Byte × List Byte :=
  let ss := st.getD b 0
  let zs := (List.range 32).map (fun j => (sumAt sums (32 * b + j)).toInt)
  let large := zs.any (fun z => decide (z < -(2 ^ 63 : Nat)) || decide ((2 ^ 63 : Nat) ≤ z))
  let dead := err || ss == 0xFF
  let xs := zs.map (fun z => if dead || large then FVal.nan false else fixedVal ss z)
  let q := (quantise c.fmt .rn (List.replicate 32 0) xs).1
  (!dead && large, leBytes c.eb (packCodes c.fmt.width q.codes), [q.S, q.P])

/-- The results quantised and written to EOUT and SOUT. -/
def State.collResults (s : State) (k : Nat) (c : Coll) : State :=
  let h := s.areaGet c 0x60 8
  let st := h.1.areaGet c 0x80 c.nblk
  let su := st.1.areaGet c c.sumOff (512 * c.nblk)
  if h.2.waits || st.2.waits || su.2.waits then s.waited su.1
  else
    let areaErr := if h.2.err ≠ 0 then h.2.err else if st.2.err ≠ 0 then st.2.err else su.2.err
    let err := (wordAt h.2.bytes 0).getLsbD 47
    if areaErr ≠ 0 then su.1.modColl k (fun c => { c.fault areaErr with stage := 2 })
    else
      let bs := (List.range c.nblk).map (collBlock c err st.2.bytes su.2.bytes)
      let e := su.1.putAll c.who (c.addr 3) (bs.flatMap (fun b => b.2.1))
      let o := e.1.putAll c.who (c.addr 4) (bs.flatMap (fun b => b.2.2))
      if e.2.waits || o.2.waits then s.waited o.1
      else o.1.modColl k (fun c =>
        { (c.fault e.2.err).fault o.2.err with stage := 2, err := err, ovf := (bs.filter (·.1)).length })

/-- This rank's arrival on DNB completes its phase: PARR is 1. -/
def State.lastRank (s : State) (c : Coll) : State × Bool × Bool :=
  let p := s.areaGet c 0x40 8
  (p.1, p.2.waits, p.2.err == 0 && parr (wordAt p.2.bytes 0) == 1)

/-- The arrival on DNB; the last rank's waits for the clearing of the area. -/
def State.collDone (s : State) (k : Nat) (c : Coll) : State :=
  let l := s.lastRank c
  if l.2.1 then s.waited l.1
  else if l.2.2 && c.stage == 2 then l.1.soon (.collectiveAreaClear k)
  else
    let a := l.1.areaArrive c 0x40
    if a.2.waits then s.waited a.1 else a.1.modColl k (fun c => { c.fault a.2.err with stage := 4 })

/-- XSUM_UNIT_FINISH: once SMB has completed the results are written, DNB is arrived on, and the status word and BAR follow. -/
def execXsumUnitFinish (s : State) : Res :=
  match s.ev with
  | .xsumUnitFinish k =>
    match s.colls[k]? with
    | some c =>
      .next (
        if !c.sum then s
        else match c.stage with
          | 0 => s
          | 1 => s.collWait k c 0x20 c.ph (fun s => s.collResults k c)
          | 2 | 3 => s.collDone k c
          | _ => s.collClose k c)
    | none => .next s
  | _ => .fault .notThisEvent

/-- COLLECTIVE_AREA_CLEAR: before DNB's phase completes, every byte from 0x80 on is zeroed, as far as the header's NBLK reaches, and ERR
cleared. -/
def execCollectiveAreaClear (s : State) : Res :=
  match s.ev with
  | .collectiveAreaClear k =>
    match s.colls[k]? with
    | some c =>
      if c.sum && c.stage == 2 then
        let h := s.areaGet c 0x60 8
        let hw := wordAt h.2.bytes 0 &&& ~~~(1#64 <<< 47)
        let u := if h.2.err = 0 then h.1.areaPut c 0x60 (leBytes 8 hw.toNat) else (h.1, Taken.none)
        let d : Coll := if h.2.err = 0 then { c with words := c.words.set 0 hw } else c
        let z := u.1.areaPut c 0x80 (List.replicate (d.sumOff - 0x80 + 512 * d.nblk) 0)
        if h.2.waits || u.2.waits || z.2.waits then .next (s.waited z.1)
        else .next (State.soon (z.1.modColl k (fun c => { c with stage := 3 })) (.xsumUnitFinish k))
      else .next s
    | none => .next s
  | _ => .fault .notThisEvent

end Sys2Proof.Machine
end

