-- ==== Sys2Proof/Machine/Convoy.lean ====
section
/-!
DEFINITION. The convoy engine: `cpy` and `chain`, major 0xD0, with the steps of the engine and of its command chains (spec/05 R123 to R130,
spec/08 R233 to R238).
-/
namespace Sys2Proof.Machine
open Sys2Proof

/-- The greatest length of a transfer (R124). -/
def maxCopy : Nat := 2 ^ 26

-- ## Issue (R234, R236)

/-- The barrier of an engine instruction checked by R223, then `k` with its place. -/
def State.engBar (s : State) (given sp : Bool) (va : W64) (k : State → Option Place → State) : State :=
  if given then
    let r := s.barCheck s.who sp va
    r.1.onCheck r.2 va (fun s p => k s (some p))
  else k s none

/-- Who issues an engine operation: its number is the next. -/
def State.issuer (s : State) : Issuer :=
  { slot := s.cur.slot, uid := s.me.uid, op := s.uids, ptroot := s.me.ptroot, mode := s.sp.mode }

/-- Single copies in the engine's queue. -/
def Core.singles (x : Core) : Nat := (x.convoy.filter (fun t => t.chain.isNone)).length

/-- A transfer put into the engine's list. -/
def State.queueXfer (s : State) (c : CoreId) (x : Xfer) : State := s.modCore c (fun y => { y with convoy := y.convoy ++ [x] })

/-- `cpy`: a commit point; the split is held while the CP counter is full (R134), the string while the queue is (R130). -/
def execCpy (sc : Scope) (dsp ssp bv bsp : Bool) (d a b c : SReg) (s : State) : Res :=
  let len := s.getS b
  .next (
    if len = 0 ∨ maxCopy < len.toNat then s.trapAll 34 len
    else s.engBar bv bsp (s.getS c) (fun s p =>
      if s.full .cp then s.holdMe
      else if 16 ≤ s.core.singles then s.holdString
      else
        let x : Xfer :=
          { kind := .copy, who := s.issuer, chain := none, ssp := ssp, dsp := dsp, src := s.getS a, dst := s.getS d, len := len.toNat
            idx := 0, nrows := 0, rlen := 0, rstr := 0, bar := p, scope := sc, rows := [], data := none, err := 0, errAddr := 0 }
        (((s.newOp .cp false).queueXfer s.cur.core x).commit 1).adv 1))

/-- A free chain context. -/
def Core.freeChain (x : Core) : Option (Fin 8) := (List.finRange 8).find? (fun k => (x.chains[k]).isNone)

/-- `chain`: a commit point; the split is held while the CP counter is full (R134), the string while no chain context is free (R130). -/
def execChain (sc : Scope) (bsp : Bool) (a b : SReg) (s : State) : Res :=
  .next (s.engBar true bsp (s.getS b) (fun s p =>
    match p, s.core.freeChain with
    | some p, some k =>
      if s.full .cp then s.holdMe
      else
        let x : Chain := { who := s.issuer, ptr := (s.getS a).toNat, idx := [0, 0, 0, 0], bar := p, barVa := s.getS b, barSp := bsp, scope := sc, suspended := false }
        (((s.newOp .cp false).modCore s.cur.core (fun y => { y with chains := y.chains.set k (some x) })).commit 1).adv 1
    | _, _ => if s.full .cp then s.holdMe else s.holdString))

-- ## The engine (R123 to R126)

/-- The launch of a string of a core, by its uid. -/
def State.launchOf (s : State) (c : CoreId) (uid : Nat) : Option (Fin 64) :=
  (s.cores[c].strs.toList.find? (fun t => t.present && t.uid == uid)).bind (·.launch)

/-- Who the engine's accesses are made for (R123); the launch's ranges tell the priority of their fills (R101). -/
def State.whoFor (s : State) (c : CoreId) (w : Issuer) : Who := { whoOf c w.ptroot w.mode with launch := s.launchOf c w.uid }

/-- The addresses of the memory rows, from the index list in scratchpad (R124). -/
def State.rowsOf (s : State) (c : CoreId) (x : Xfer) (base : W64) (t : Taken) : List (Option Nat) × Taken :=
  (List.range x.nrows).foldl (fun r k =>
    match s.scrLoad c (ctxOf x.who.ptroot) (BitVec.ofNat 64 (x.idx + 4 * k)) 4 with
    | .ok bs => (r.1 ++ [some (base + BitVec.ofNat 64 (leNat bs * x.rstr)).toNat], r.2)
    | .err code => (r.1 ++ [none], r.2.fault code (x.idx + 4 * k))
    | .wait => (r.1 ++ [none], { r.2 with waits := true })) ([], t)

/-- A transfer's source read: its rows and what was taken. -/
def State.xferRead (s : State) (c : CoreId) (x : Xfer) : State × List (Option Nat) × Taken :=
  let w := s.whoFor c x.who
  match x.kind with
  | .copy => let r := s.take w x.ssp x.src.toNat x.len 0 Taken.none; (r.1, [], r.2)
  | .gather =>
    let q := s.rowsOf c x x.src Taken.none
    let r := ((List.range x.nrows).zip q.1).foldl (fun (r : State × Taken) kr =>
      match kr.2 with
      | some va => r.1.take w false va x.rlen (kr.1 * x.rlen) r.2
      | none => r) (s, q.2)
    (r.1, q.1, r.2)
  | .scatter =>
    let q := s.rowsOf c x x.dst Taken.none
    let r := s.take w true x.src.toNat x.len 0 q.2
    (r.1, q.1, r.2)

/-- A transfer's destination written with what was taken. -/
def State.xferWrite (s : State) (c : CoreId) (x : Xfer) (t : Taken) : State × Taken :=
  let w := s.whoFor c x.who
  match x.kind with
  | .copy => s.land w x.dsp x.dst.toNat x.len 0 t
  | .gather => s.land w true x.dst.toNat x.len 0 t
  | .scatter =>
    ((List.range x.nrows).zip x.rows).foldl (fun (r : State × Taken) kr =>
      match kr.2 with
      | some va => r.1.land w false va x.rlen (kr.1 * x.rlen) r.2
      | none => r) (s, t)

/-- Whose transfer it is: a chain context's, or 8 for the queue of single copies. -/
def Xfer.source (x : Xfer) : Nat := match x.chain with | some k => k.val | none => 8

/-- The transfer that the engine takes next (R123): the first not yet taken of the source whose turn it is. -/
def Core.nextXfer (x : Core) : Option Nat :=
  ((List.range 9).map (fun i => (x.turn + 1 + i) % 9)).findSome? (fun k => x.convoy.findIdx? (fun y => y.data.isNone && y.source == k))

/-- CONVOY_TRANSFER_START (R123): the next transfer in rotation is read; one that must wait goes behind the others. -/
def execConvoyTransferStart (s : State) : Res :=
  match s.ev with
  | .convoyTransferStart c =>
    let q := s.cores[c].convoy
    match s.cores[c].nextXfer with
    | some i =>
      match q[i]? with
      | some x =>
        let r := s.xferRead c x
        if r.2.2.waits then .next ((s.waited r.1).modCore c (fun y => { y with convoy := y.convoy.eraseIdx i ++ [x], turn := x.source }))
        else
          let x' := { x with rows := r.2.1, data := some r.2.2.data, err := r.2.2.err, errAddr := r.2.2.addr }
          .next (r.1.modCore c (fun y => { y with convoy := y.convoy.set i x', turn := x.source }))
      | none => .next s
    | none => .next s
  | _ => .fault .notThisEvent

/-- CPERR with a first fault (R235). -/
def cperrSet (old : W64) (code : Nat) (addr : W64) : W64 :=
  if fld old 63 60 ≠ 0 then old else BitVec.ofNat 64 (code * 2 ^ 60 + fld addr 56 0)

/-- The barrier on which a transfer's fault is reported: its own, or its chain's (R126). -/
def State.reportBar (s : State) (c : CoreId) (x : Xfer) : Option Place :=
  match x.bar, x.chain with
  | some p, _ => some p
  | none, some k => (s.cores[c].chains[k]).map (·.bar)
  | none, none => none

/-- A landing on a barrier releases at the transfer's scope, for the issuing string (R125, R324). -/
def State.landReady (s : State) (c : CoreId) (x : Xfer) : Bool := x.bar.isNone || s.releasedBy c x.who.uid x.scope

/-- CONVOY_LANDING (R125, R126): transfer k, its source read, is written whole and lands all its bytes; its fault is reported on
its barrier, its chain's, or in CPERR. -/
def execConvoyLanding (s : State) : Res :=
  match s.ev with
  | .convoyLanding c k =>
    match s.cores[c].convoy[k]? with
    | some x =>
      match x.data with
      | none => .next s
      | some bytes =>
        let r := s.xferWrite c x { data := bytes, err := x.err, addr := x.errAddr, waits := false }
        let rep := s.reportBar c x
        if r.2.waits || !(rep.all r.1.barReady && s.landReady c x) then .next (s.waited (rep.toList.foldl State.closeBar r.1))
        else
          let code := if r.2.err = 0 then 0 else ecodeOf r.2.err
          let s := r.1.modCore c (fun y => { y with convoy := y.convoy.eraseIdx k })
          let s := match x.bar, rep with
            | some p, _ => s.engArrive p code 0 0 x.len
            | none, some p => if code = 0 || s.barDead p then s else (s.barTake p).barError p code
            | none, none =>
              if code = 0 then s else s.modUid c x.who.uid (fun t => { t with cperr := cperrSet t.cperr code r.2.addr })
          .next (if x.chain.isNone then s.opDone c x.who.uid x.who.op else s)
    | none => .next s
  | _ => .fault .notThisEvent

/-- ENGINE_BANK_STARVATION (R111): the engine's waiting request goes before the strings' accesses. -/
def execEngineBankStarvation (s : State) : Res :=
  match s.ev with
  | .engineBankStarvation c _ =>
    .next (if s.cores[c].convoy.any (fun x => x.data.isNone) then s.soon (.convoyTransferStart c) else s)
  | _ => .fault .notThisEvent

-- ## Chain entries (R237, R238)

/-- An entry's words. -/
structure Entry where
  w0 : W64
  w1 : W64
  w2 : W64
  w3 : W64
  deriving DecidableEq, Repr

/-- KIND. -/
def Entry.kind (e : Entry) : Nat := fld e.w0 63 60
/-- SCOPE's code. -/
def Entry.scopeCode (e : Entry) : Nat := fld e.w0 59 57
/-- SCOPE. -/
def Entry.scope (e : Entry) : Scope := Scope.ofCode (e.w0.extractLsb' 57 3)
/-- BV of a transfer. -/
def Entry.bv (e : Entry) : Bool := e.w3.getLsbD 63
/-- BAR: of a transfer in word 3, of WAIT and ARRIVE in word 1. -/
def Entry.bar (e : Entry) : W64 := BitVec.ofNat 64 (if e.kind ≤ 3 then fld e.w3 62 38 else fld e.w1 24 0)
/-- The entry names a barrier. -/
def Entry.hasBar (e : Entry) : Bool := if e.kind ≤ 3 then e.bv else e.kind == 6 || e.kind == 7
/-- LVEN. -/
def Entry.lven (e : Entry) : Bool :=
  match e.kind with
  | 1 => e.w1.getLsbD 61
  | 2 | 3 => e.w2.getLsbD 13
  | 4 => true
  | 6 => e.w0.getLsbD 59
  | _ => false
/-- LV. -/
def Entry.lv (e : Entry) : Nat :=
  match e.kind with
  | 1 => fld e.w1 60 58
  | 2 | 3 => fld e.w2 12 10
  | 4 | 6 => fld e.w0 58 56
  | _ => 0
/-- TARGET. -/
def Entry.target (e : Entry) : W64 := BitVec.ofNat 64 (if e.kind = 4 then fld e.w1 24 0 else fld e.w2 24 0)
/-- NROWS. -/
def Entry.nrows (e : Entry) : Nat := fld e.w3 35 20 + 1
/-- RLEN. -/
def Entry.rlen (e : Entry) : Nat := fld e.w3 19 0 + 1
/-- IDX. -/
def Entry.idxAt (e : Entry) : Nat := fld e.w2 63 39

/-- A reserved field is not zero (R238). -/
def Entry.reserved (e : Entry) : Bool :=
  match e.kind with
  | 1 => e.w1.getLsbD 57 || fld e.w3 37 27 != 0
  | 2 | 3 => fld e.w2 9 0 != 0 || fld e.w3 37 36 != 0
  | 4 => e.w0.getLsbD 59 || fld e.w0 55 32 != 0 || fld e.w1 63 25 != 0 || e.w2 != 0 || e.w3 != 0
  | 5 => fld e.w2 59 25 != 0 || e.w3 != 0
  | 6 => fld e.w0 55 8 != 0 || fld e.w1 63 25 != 0 || e.w2 != 0 || e.w3 != 0
  | 7 => fld e.w0 56 27 != 0 || fld e.w1 63 25 != 0 || e.w2 != 0 || e.w3 != 0
  | _ => fld e.w0 59 0 != 0 || e.w1 != 0 || e.w2 != 0 || e.w3 != 0

/-- The entry's fields are out of their limits (R128, R237, R238), addresses of entries apart. -/
def Entry.badFields (e : Entry) : Bool :=
  e.kind == 0 || decide (8 < e.kind) || e.reserved
    || decide (3 < e.lv) || (!e.lven && e.lv != 0)
    || ((e.kind ≤ 3 || e.kind == 5 || e.kind == 7) && decide (4 < e.scopeCode))
    || (e.kind ≤ 3 && !e.bv && e.bar != 0)
    || (e.hasBar && e.bar.toNat % 32 != 0)
    || (match e.kind with
        | 1 => fld e.w3 26 0 == 0 || decide (maxCopy < fld e.w3 26 0)
                || (e.w1.getLsbD 63 && fld e.w0 56 25 != 0) || (e.w1.getLsbD 62 && fld e.w1 56 25 != 0)
        | 2 | 3 => e.idxAt % 4 != 0 || decide (maxCopy < e.nrows * e.rlen)
        | 4 => fld e.w0 31 0 == 0
        | 5 => decide (4 < fld e.w2 62 60) || fld e.w0 56 0 % 8 != 0 || (e.w2.getLsbD 63 && fld e.w0 56 25 != 0)
        | _ => false)

/-- An address may hold an entry: own scratchpad, aligned, within the partition (R128). -/
def State.entryPlace (s : State) (c : CoreId) (ctx : BitVec 12) (a : W64) : Bool :=
  scrRange a && !scrPeer c a && a.toNat % 32 == 0 && (s.scrExtent c ctx a 32).isNone

/-- What an entry brings the chain to. -/
inductive ChainDo where
  | go (e : Entry)
  /-- A malformed or faulting entry, with the ECODE (R128). -/
  | stop (code : Nat)
  deriving DecidableEq, Repr

/-- The entry at a chain's pointer (R127, R128). -/
def State.chainNext (s : State) (c : CoreId) (x : Chain) : ChainDo :=
  let ctx := ctxOf x.who.ptroot
  let a := BitVec.ofNat 64 x.ptr
  if !s.entryPlace c ctx a then .stop 12
  else
    match s.scrLoad c ctx a 32 with
    | .ok bs =>
      let e : Entry := { w0 := wordAt bs 0, w1 := wordAt bs 1, w2 := wordAt bs 2, w3 := wordAt bs 3 }
      if e.badFields then .stop 12
      else if (e.kind == 4 || e.kind == 5) && !s.entryPlace c ctx e.target then .stop 12
      else if e.kind == 4 && decide (fld a 21 0 ≤ fld e.target 21 0) then .stop 12
      else if e.hasBar then
        match s.scrByte c ctx e.bar with
        | .fail _ code => .stop (ecodeOf code)
        | _ => .go e
      else .go e
    | .err code => .stop (ecodeOf code)
    | .wait => .stop 12

/-- A chain context changed. -/
def State.modChain (s : State) (c : CoreId) (k : Fin 8) (f : Chain → Chain) : State :=
  s.modCore c (fun y => { y with chains := y.chains.set k ((y.chains[k]).map f) })

/-- Transfers of a chain that have not landed. -/
def State.chainBusy (s : State) (c : CoreId) (k : Fin 8) : Bool := s.cores[c].convoy.any (fun x => x.chain == some k)

/-- The entry of a running chain, if it is of a kind. -/
def State.chainAt (s : State) (c : CoreId) (k : Fin 8) (kind : Nat) : Option (Chain × Entry) :=
  match s.cores[c].chains[k] with
  | some x => if x.suspended then none else
    match s.chainNext c x with
    | .go e => if e.kind = kind then some (x, e) else none
    | .stop _ => none
  | none => none

/-- The chain goes to an entry. -/
def State.chainTo (s : State) (c : CoreId) (k : Fin 8) (p : Nat) : State := s.modChain c k (fun x => { x with ptr := p })

/-- I(LV), or 0 with LVEN = 0. -/
def Chain.index (x : Chain) (e : Entry) : Nat := if e.lven then x.idx.getD e.lv 0 else 0

/-- The place of an entry's barrier. -/
def State.entryBar (s : State) (c : CoreId) (x : Chain) (e : Entry) : Option Place :=
  match s.scrByte c (ctxOf x.who.ptroot) e.bar with | .ok p => some p | _ => none

/-- A signed 32-bit stride times an index, as an offset. -/
def strideOff (w : W32) (i : Nat) : W64 := w.signExtend 64 * BitVec.ofNat 64 i

/-- An address of 57 bits with bit 56 extended, or a scratchpad address as it stands. -/
def sideAddr (sp : Bool) (v : W64) : W64 := if sp then BitVec.ofNat 64 (fld v 24 0) else va57 v

/-- CHAIN_COPY (R127). -/
def execChainCopy (s : State) : Res :=
  match s.ev with
  | .chainCopy c k =>
    match s.chainAt c k 1 with
    | some (x, e) =>
      let i := x.index e
      let ssp := e.w1.getLsbD 63
      let dsp := e.w1.getLsbD 62
      let t : Xfer :=
        { kind := .copy, who := x.who, chain := some k, ssp := ssp, dsp := dsp
          src := sideAddr ssp e.w0 + strideOff (e.w2.extractLsb' 32 32) i
          dst := sideAddr dsp e.w1 + strideOff (e.w2.extractLsb' 0 32) i
          len := fld e.w3 26 0, idx := 0, nrows := 0, rlen := 0, rstr := 0
          bar := if e.bv then s.entryBar c x e else none, scope := e.scope, rows := [], data := none, err := 0, errAddr := 0 }
      .next ((s.queueXfer c t).chainTo c k (x.ptr + 32))
    | none => .next s
  | _ => .fault .notThisEvent

/-- The transfer of a GATHER or SCATTER entry (R127, R238). -/
def State.rowXfer (s : State) (c : CoreId) (k : Fin 8) (x : Chain) (e : Entry) (gather : Bool) : Xfer :=
  let side : W64 := BitVec.ofNat 64 (fld e.w2 38 14) + strideOff (e.w1.extractLsb' 0 32) (x.index e)
  { kind := if gather then .gather else .scatter, who := x.who, chain := some k, ssp := !gather, dsp := gather
    src := if gather then va57 e.w0 else side
    dst := if gather then side else va57 e.w0
    len := e.nrows * e.rlen, idx := e.idxAt, nrows := e.nrows, rlen := e.rlen, rstr := fld e.w1 63 32
    bar := if e.bv then s.entryBar c x e else none, scope := e.scope, rows := [], data := none, err := 0, errAddr := 0 }

/-- CHAIN_GATHER (R127). -/
def execChainGather (s : State) : Res :=
  match s.ev with
  | .chainGather c k =>
    match s.chainAt c k 2 with
    | some (x, e) => .next ((s.queueXfer c (s.rowXfer c k x e true)).chainTo c k (x.ptr + 32))
    | none => .next s
  | _ => .fault .notThisEvent

/-- CHAIN_SCATTER (R127). -/
def execChainScatter (s : State) : Res :=
  match s.ev with
  | .chainScatter c k =>
    match s.chainAt c k 3 with
    | some (x, e) => .next ((s.queueXfer c (s.rowXfer c k x e false)).chainTo c k (x.ptr + 32))
    | none => .next s
  | _ => .fault .notThisEvent

/-- CHAIN_LOOP (R127). -/
def execChainLoop (s : State) : Res :=
  match s.ev with
  | .chainLoop c k =>
    match s.chainAt c k 4 with
    | some (x, e) =>
      let i := x.idx.getD e.lv 0
      .next (
        if i + 1 < fld e.w0 31 0 then (s.modChain c k (fun x => { x with idx := x.idx.set e.lv (i + 1) })).chainTo c k e.target.toNat
        else (s.modChain c k (fun x => { x with idx := x.idx.set e.lv 0 })).chainTo c k (x.ptr + 32))
    | none => .next s
  | _ => .fault .notThisEvent

/-- OP of COND (R238). -/
def condHolds (op : Nat) (x v : W64) : Bool :=
  match op with
  | 0 => x == v
  | 1 => x != v
  | 2 => decide (x.toNat < v.toNat)
  | 3 => decide (v.toNat ≤ x.toNat)
  | _ => x &&& v == v

/-- CHAIN_COND (R127, R128): a fault of the read is reported on the chain barrier and taken as a compare that is false. -/
def execChainCond (s : State) : Res :=
  match s.ev with
  | .chainCond c k =>
    match s.chainAt c k 5 with
    | some (x, e) =>
      let asp := e.w2.getLsbD 63
      let r := s.sideLoad (s.whoFor c x.who) asp (sideAddr asp e.w0).toNat 8
      match r.2 with
      | .ok bs =>
        .next (r.1.chainTo c k (if condHolds (fld e.w2 62 60) (le64 bs) e.w1 then e.target.toNat else x.ptr + 32))
      | .err code =>
        if r.1.barReady x.bar then
          .next ((if r.1.barDead x.bar then r.1 else (r.1.barTake x.bar).barError x.bar (ecodeOf code)).chainTo c k (x.ptr + 32))
        else .next (s.waited (r.1.closeBar x.bar))
      | .wait => .next (s.waited r.1)
    | none => .next s
  | _ => .fault .notThisEvent

/-- An entry's wait or arrival on a poisoned barrier: ECODE 4 on the chain barrier, and no further effect (R459). -/
def State.chainDead (s : State) (c : CoreId) (k : Fin 8) (x : Chain) : State :=
  (if s.barDead x.bar then s else (s.barTake x.bar).barError x.bar 4).chainTo c k (x.ptr + 32)

/-- CHAIN_WAIT (R127). -/
def execChainWait (s : State) : Res :=
  match s.ev with
  | .chainWait c k =>
    match s.chainAt c k 6 with
    | some (x, e) =>
      match s.entryBar c x e with
      | some p =>
        if s.barDead p then .next (if s.barReady x.bar then s.chainDead c k x else s.closeBar x.bar)
        else if (s.phaseAt p).toNat ≠ (fld e.w0 7 0 + x.index e) % 256 then .next (s.chainTo c k (x.ptr + 32))
        else .next s
      | none => .next s
    | none => .next s
  | _ => .fault .notThisEvent

/-- CHAIN_ARRIVE (R127): after every earlier transfer of the chain has landed, a release for the issuing string (R324). -/
def execChainArrive (s : State) : Res :=
  match s.ev with
  | .chainArrive c k =>
    match s.chainAt c k 7 with
    | some (x, e) =>
      match s.entryBar c x e with
      | some p =>
        if s.chainBusy c k then .next s
        else if s.barDead p then .next (if s.barReady x.bar then s.chainDead c k x else s.closeBar x.bar)
        else if !s.releasedBy c x.who.uid e.scope then .next s
        else .next ((s.engArrive p 0 1 (fld e.w0 26 0) 0).chainTo c k (x.ptr + 32))
      | none => .next s
    | none => .next s
  | _ => .fault .notThisEvent

/-- A chain's end: the arrival on its barrier, a release at its scope for the issuing string (R324), the context freed, the CP operation complete. -/
def State.chainOver (s : State) (c : CoreId) (k : Fin 8) (x : Chain) (code : Nat) : State :=
  if s.chainBusy c k || !s.releasedBy c x.who.uid x.scope then s
  else if !s.barReady x.bar then s.closeBar x.bar
  else ((s.engArrive x.bar code 1 0 0).modCore c (fun y => { y with chains := y.chains.set k none })).opDone c x.who.uid x.who.op

/-- CHAIN_END (R127). -/
def execChainEnd (s : State) : Res :=
  match s.ev with
  | .chainEnd c k =>
    match s.chainAt c k 8 with
    | some (x, _) => .next (s.chainOver c k x 0)
    | none => .next s
  | _ => .fault .notThisEvent

/-- CHAIN_STOP (R128): at a malformed or faulting entry, once the chain's transfers have landed. -/
def execChainStop (s : State) : Res :=
  match s.ev with
  | .chainStop c k =>
    match s.cores[c].chains[k] with
    | some x =>
      if x.suspended then .next s
      else match s.chainNext c x with
        | .stop code => .next (s.chainOver c k x code)
        | .go _ => .next s
    | none => .next s
  | _ => .fault .notThisEvent

/-- The event of a running chain's entry. -/
def State.chainEvent (s : State) (c : CoreId) (k : Fin 8) : Option Ev :=
  match s.cores[c].chains[k] with
  | none => none
  | some x =>
    if x.suspended then none
    else match s.chainNext c x with
      | .stop _ => some (.chainStop c k)
      | .go e => match e.kind with
        | 1 => some (.chainCopy c k)
        | 2 => some (.chainGather c k)
        | 3 => some (.chainScatter c k)
        | 4 => some (.chainLoop c k)
        | 5 => some (.chainCond c k)
        | 6 => some (.chainWait c k)
        | 7 => some (.chainArrive c k)
        | _ => some (.chainEnd c k)

end Sys2Proof.Machine
end

