-- ==== Sys2Proof/Machine/System.lean ====
section
/-!
DEFINITION. The system group, major 0xE0 (spec/14 R378, R379, R387 to R396; spec/06 R149 to R151) with the delivery of interrupts
(R388) and the end of `wfi` (R389).
-/
namespace Sys2Proof.Machine
open Sys2Proof

-- ## System registers (R150)

/-- The place token of a core for a context (R39, R40): it differs between boots, contexts and restores. -/
def State.placeToken (s : State) (ctx : BitVec 12) (c : CoreId) : W32 :=
  Config.placeBase s.boots ctx (((s.placings.find? (fun x => x.1 == ctx)).map (·.2)).getD 0) + BitVec.ofNat 32 c.val

/-- SSTAT as the issuing split reads it (R151). -/
def State.sstat (s : State) : W64 :=
  BitVec.ofNat 64 (s.me.allot * 2 ^ 40 + modeRank s.sp.mode * 2 ^ 32 + s.me.slotted.length * 2 ^ 28
    + (if s.me.fz then 1 else 0))

/-- OUTST (R136). -/
def Str.outst (t : Str) : W64 :=
  BitVec.ofNat 64 (t.count .ld * 2 ^ 18 + t.count .st * 2 ^ 12 + t.count .cp * 2 ^ 8 + t.count .tl * 2 ^ 4)

/-- The accesses of R150. -/
inductive SysAcc where
  | rw | r | ri | no
  deriving DecidableEq, Repr

/-- The access that R150 gives a register in a mode. -/
def sysAcc (n : BitVec 12) (m : Mode) : SysAcc :=
  match n.toNat with
  | 0x000 | 0x001 | 0x002 | 0x005 => .rw
  | 0x003 | 0x015 | 0x016 => if m == .user then .r else .rw
  | 0x004 | 0x010 | 0x011 | 0x012 | 0x013 | 0x014 | 0x017 => if m == .hyp then .ri else .r
  | 0x020 => match m with | .user => .no | .sup => .r | .hyp => .rw
  | 0x021 | 0x022 | 0x030 | 0x031 | 0x032 | 0x033 | 0x034 => if m == .user then .no else .rw
  | _ => if m == .hyp then .rw else .no

/-- A register that is not held per lane, as the issuing split reads it. -/
def State.sysGet (s : State) (n : BitVec 12) : W64 :=
  let c := s.cur.core
  match n.toNat with
  | 0x000 => s.sstat
  | 0x001 => (s.me.fflags ||| s.sp.t).setWidth 64
  | 0x002 => s.me.rseed
  | 0x003 => s.me.pfdrop.setWidth 64
  | 0x004 => s.me.outst
  | 0x005 => s.me.cperr
  | 0x010 => BitVec.ofNat 64 (cidx c)
  | 0x011 => (s.placeToken s.me.ctx c).setWidth 64
  | 0x012 => s.um.devnum.setWidth 64
  | 0x013 => BitVec.ofNat 64 s.ptime
  | 0x014 => s.pskew
  | 0x015 => s.core.lease
  | 0x016 => s.core.stealdist
  | 0x017 => (s.gmask c s.me.ctx).setWidth 64
  | 0x020 => s.me.ptroot
  | 0x021 => s.core.tciva
  | 0x022 => s.core.tcinv
  | 0x033 => s.core.svec
  | 0x034 => s.irecv[c]
  | 0x043 => s.core.hvec
  | 0x044 => s.core.hdeleg
  | _ => 0

/-- A lane register (R378). -/
def laneGet (x : Lane) (n : BitVec 12) : W64 :=
  match n.toNat with
  | 0x030 => x.sepc
  | 0x031 => x.scause.setWidth 64
  | 0x032 => x.stval
  | 0x040 => x.hepc
  | 0x041 => x.hcause.setWidth 64
  | 0x042 => x.htval
  | _ => 0

/-- A lane register written (R378). HCAUSE.INT, which R378 calls RW and always 0, keeps 0 whatever is written: DESIGN CHOICE (log 76). -/
def lanePut (x : Lane) (n : BitVec 12) (v : W64) : Lane :=
  match n.toNat with
  | 0x030 => { x with sepc := v }
  | 0x031 => { x with scause := v.setWidth 32 &&& 0x800000FF }
  | 0x032 => { x with stval := v }
  | 0x040 => { x with hepc := v }
  | 0x041 => { x with hcause := v.setWidth 32 &&& 0x400000FF }
  | 0x042 => { x with htval := v }
  | _ => x

/-- STEALDIST takes the value (R349). -/
def okSteal (v : W64) : Bool :=
  fld v 63 32 == 0 && fld v 15 12 == 0 && fld v 7 3 == 0 && fld v 11 8 != 0 && decide (1 ≤ fld v 2 0) && decide (fld v 2 0 ≤ 3)

/-- LEASE takes the value (R66). -/
def okLease (v : W64) : Bool := decide (1 ≤ v.toNat) && decide (v.toNat ≤ 256)

/-- A write of TCINV (R95): refused with ERR, or performed as an invalidation for which the split waits. -/
def State.writeTcinv (s : State) (v : W64) : State :=
  let c := s.cur.core
  if fld v 62 16 != 0 || 2 ≤ fld v 3 2 || fld v 1 0 == 3 then
    (s.modCore c (fun x => { x with tcinv := x.tcinv ||| (1#64 <<< 63) })).adv 1
  else
    let sup := s.sp.mode == .sup
    let ctx := if sup then s.me.ctx else v.extractLsb' 4 12
    let dev := fld v 3 2 == 1
    let s := (s.modCore c (fun x => { x with tcinv := v &&& 0xFFFF })).waitMe (.tcinv dev)
    match fld v 1 0 with
    | 0 => if sup then s.soon (.tcinvCtx c dev ctx) else s.soon (.tcinvAll c dev)
    | 1 => s.soon (.tcinvCtx c dev ctx)
    | _ => s.soon (.tcinvPage c dev ctx)

/-- What the string's regions have staged for PFDROP given up: those pages were dropped before COUNT was written (R100). -/
def Str.dropStages (t : Str) : Str :=
  let clear (x : Split) : Split := { x with pf := [] }
  { t.modLanes (BitVec.allOnes 32) (fun l => { l with urec := { l.urec with pf := 0 }, srec := { l.srec with pf := 0 } }) with
    splits := t.splits.map clear, park := t.park.map clear }

/-- A write of a register that is not held per lane, with the advance of the PC (R150, R396). -/
def State.sysPut (s : State) (n : BitVec 12) (v : W64) : State :=
  let c := s.cur.core
  match n.toNat with
  | 0x000 => (s.modMe (fun t => { t with fz := v.getLsbD 0 })).adv 1
  | 0x001 => ((s.modMe (fun t => { t with fflags := v.setWidth 5 })).modSp (fun x => { x with t := 0 })).adv 1
  | 0x002 => (s.modMe (fun t =>
      { t with rseed := v, lanes := gen 32 (fun l => { t.lane l with gen := genSeed v l }) })).adv 1
  | 0x003 => (s.modMe (fun t => { t.dropStages with pfdrop := v.setWidth 32 })).adv 1
  | 0x005 => (s.modMe (fun t => { t with cperr := v &&& 0xF1FFFFFFFFFFFFFF })).adv 1
  | 0x015 => (if okLease v then s.modCore c (fun x => { x with lease := v }) else s).adv 1
  | 0x016 => (if okSteal v then s.modCore c (fun x => { x with stealdist := v }) else s).adv 1
  | 0x020 => (s.modMe (fun t => { t with ptroot := v &&& 0xFFF0FFFFFFFFF001 })).adv 1
  | 0x021 => (s.modCore c (fun x => { x with tciva := v &&& 0x01FFFFFFFFFFF000 })).adv 1
  | 0x022 => s.writeTcinv v
  | 0x033 => (s.modCore c (fun x => { x with svec := v &&& 0x01FFFFFFFFFFFFF8 })).adv 1
  | 0x034 =>
    let old := s.irecv[c]
    let pend := (old &&& 0xFFFF000000000000) &&& ~~~v
    ({ s with irecv := s.irecv.set c (pend ||| (v &&& 0x0000FFFF0000001F)) }).adv 1
  | 0x043 => (s.modCore c (fun x => { x with hvec := v &&& 0x0000FFFFFFFFFFF8 })).adv 1
  | 0x044 => (s.modCore c (fun x => { x with hdeleg := v })).adv 1
  | _ => s.adv 1

/-- `rdsr` (R149, R150, R396). -/
def execRdsr (g : KReg) (n : BitVec 12) (d : BitVec 8) (s : State) : Res :=
  let i := Instr.rdsr g n d
  if sysAcc n s.sp.mode == .no then .next (s.trapAll 3 i.firstWord)
  else if sysLane n then
    s.vec i (fun s =>
      let t : Ty := if sysNarrow n then .n32 else .n64
      (s.putV t d (s.active g) (fun l => laneGet (s.me.lane l) n)).adv 1)
  else .next ((s.setS (d.setWidth 6) (s.sysGet n)).adv 1)

/-- `wrsr` (R149, R150, R396). -/
def execWrsr (g : KReg) (n : BitVec 12) (a : BitVec 8) (s : State) : Res :=
  let i := Instr.wrsr g n a
  match sysAcc n s.sp.mode with
  | .no | .r => .next (s.trapAll 3 i.firstWord)
  | .ri => .next (s.adv 1)
  | .rw =>
    if sysLane n then
      s.vec i (fun s =>
        let t : Ty := if sysNarrow n then .n32 else .n64
        let act := s.active g
        (s.modMe (fun u =>
          { u with lanes := gen 32 (fun l => if act.has l then lanePut (u.lane l) n (s.opnd t a l) else u.lane l) })).adv 1)
    else .next (s.sysPut n (s.getS (a.setWidth 6)))

-- ## Calls and returns (R393 to R395)

/-- `sys` or `hyp` performed: the region is committed and each active lane traps with the word after as its return PC (R394). -/
def State.callUp (s : State) (g : KReg) (code : Nat) (n : BitVec 16) : State :=
  let act := s.active g
  if act = 0 then s.adv 1
  else
    let after := s.sp.pc + 8
    (s.commit 1).trapAt after after false
      (act.lanes.map (fun l => { lane := l, code := code, tval := n.setWidth 64 }))

/-- System call (R392, R393, R394). -/
def execSys (g : KReg) (n : BitVec 16) (s : State) : Res :=
  match s.sp.mode with
  | .user => .next (s.callUp g 10 n)
  | .sup | .hyp => .next (s.trapAll 1 (Instr.sys g n).firstWord)

/-- Hypervisor call (R392, R393, R394). -/
def execHyp (g : KReg) (n : BitVec 16) (s : State) : Res :=
  match s.sp.mode with
  | .sup => .next (s.callUp g 11 n)
  | .user => .next (s.trapAll 2 (Instr.hyp g n).firstWord)
  | .hyp => .next (s.trapAll 1 (Instr.hyp g n).firstWord)

/-- A return by the issuing split (R386, R395). -/
def State.goBack (s : State) (hyp : Bool) : State :=
  if !s.sp.stack.isEmpty || s.sp.e != s.sp.m then s.trapAll 7 0
  else s.modMe (fun t => t.doReturn s.cur.split hyp (fun mode blk => s.headerAt (whoOf s.cur.core t.ptroot mode) blk))

/-- Return to user mode (R386, R393, R395). -/
def execSret (s : State) : Res :=
  match s.sp.mode with
  | .sup => .next (s.goBack false)
  | .user => .next (s.trapAll 2 Instr.sret.firstWord)
  | .hyp => .next (s.trapAll 1 Instr.sret.firstWord)

/-- Return to the modes that the lanes' PS name (R386, R393, R395). -/
def execHret (s : State) : Res :=
  match s.sp.mode with
  | .hyp => .next (s.goBack true)
  | .user | .sup => .next (s.trapAll 2 Instr.hret.firstWord)

-- ## Interrupts (R387 to R389)

/-- PEND AND ENM of a core. -/
def State.irqs (s : State) (c : CoreId) : BitVec 16 := (s.irecv[c]).extractLsb' 48 16 &&& (s.irecv[c]).extractLsb' 32 16

/-- `wfi` (R389): held until an enabled source is pending. -/
def execWfi (s : State) : Res :=
  if s.sp.mode == .user then .next (s.trapAll 2 Instr.wfi.firstWord)
  else if s.irqs s.cur.core = 0 then .next (s.waitMe .wfi)
  else .next (s.adv 1)

/-- The `wfi` of a split completes. -/
def Split.wfiOver (x : Split) : Split := if x.wait = .wfi then { x with wait := .none, pc := x.pc + 8 } else x

/-- The end of a `wfi` (R389), of the split in slot j or, from 4 on, of a parked split. -/
def execWfiWake (s : State) : Res :=
  match s.ev with
  | .wfiWake c k j =>
    if s.irqs c = 0 then .next s
    else .next (s.modStr c k (fun t => if h : j < 4 then t.modSplit ⟨j, h⟩ Split.wfiOver else { t with park := t.park.modify (j - 4) Split.wfiOver }))
  | _ => .fault .notThisEvent

/-- Lane 0's trap when its split is on the park list: the new split takes a free slot, else that of the slotted split of
lowest mode and highest PC (R382, R388). -/
def Str.trapParked (t : Str) (i : Nat) (svec : W64) (code : Nat) (tval : W64) : Str :=
  match t.park[i]? with
  | none => t
  | some x =>
    let l : Mask := 1
    let t := (t.leaveStage x true l).modLanes l (fun r => r.record false x.mode true code tval x.pc x.pc x.blk)
    let x' := { x with wait := .none }.remove l
    let y : Split := { Split.empty with pc := svec, m := l, e := l, mode := .sup, enter := true }
    let t := t.beginRegion l .sup svec svec
    let t := { t with park := if x'.m == 0 then t.park.eraseIdx i else t.park.set i x' }
    match t.freeSlot with
    | some j => { t with splits := t.splits.set j y }
    | none =>
      match victimSlot t [] with
      | some j => { t with splits := t.splits.set j y, park := t.park ++ [t.splits[j]] }
      | none => t

/-- The slot whose string receives a core's interrupts, if one can be delivered there (R388). -/
def State.irqSlot (s : State) (c : CoreId) : Option SlotId :=
  let r := s.irecv[c]
  let k : SlotId := ⟨fld r 3 0, by have : fld r 3 0 < 2 ^ 4 := Nat.mod_lt _ (by decide); simpa using this⟩
  let t := s.strAt c k
  let user0 (x : Split) : Bool := x.m.has 0 && x.mode == .user && !underWay x.wait
  if r.getLsbD 4 && s.irqs c != 0 && t.st == .ready && t.allSplits.any user0 && !s.faulted t.ctx && !s.cores[c].stopped then some k
  else none

/-- INTERRUPT_DELIVERY (R388): lane 0 of the receiving string traps to supervisor. -/
def State.deliverIrq (s : State) (c : CoreId) : State :=
  match s.irqSlot c with
  | none => s
  | some k =>
    let pend := s.irqs c
    let code := ctzBits pend
    let tval : W64 := pend.setWidth 64
    s.modStr c k (fun t =>
      match t.slotted.find? (fun j => t.splits[j].m.has 0) with
      | some j =>
        let pc := t.splits[j].pc
        t.trap j (va57 s.cores[c].svec) s.cores[c].hvec s.cores[c].hdeleg true pc pc [{ lane := 0, code := code, tval := tval }]
      | none =>
        match t.park.findIdx? (fun x => x.m.has 0) with
        | some i => t.trapParked i (va57 s.cores[c].svec) code tval
        | none => t)

/-- The delivery of an interrupt (R388). -/
def execInterruptDelivery (s : State) : Res :=
  match s.ev with
  | .interruptDelivery c => .next (s.deliverIrq c)
  | _ => .fault .notThisEvent

end Sys2Proof.Machine
end

