-- ==== Sys2Proof/Machine/Tasks.lean ====
section
/-!
DEFINITION. Task, queue and steal-control instructions, majors 0xB0 to 0xB2 (spec/13 R361 to R368), with the taking of manifests
(R343, R344) and the push of R345.
-/
namespace Sys2Proof.Machine
open Sys2Proof

-- ## Distance (R40)

/-- The distance class between two cores of the package. -/
def distClass (a b : CoreId) : Nat :=
  if a = b then 0 else if clusterOf a = clusterOf b then 1 else if dieOf a = dieOf b then 2 else 3

-- ## The serai (R343 to R345)

/-- An entry that `stlpause` keeps from thieves (R367). -/
def Core.isClosed (x : Core) (ctx : BitVec 12) : Bool := x.closed.any (fun p => p.1 == ctx)

/-- The device takes manifests of a context: one with a valid entry only while it runs (R409, R415). -/
def State.taking (s : State) (ctx : BitVec 12) : Bool :=
  match s.ctxEntry ctx with | some i => ctabSt s.ctab[i] == 0 && !s.saving ctx | none => true

/-- The entry can be run on core c: its context runs, and a partition is there or can be allocated (R343, R410). -/
def State.canRun (s : State) (c : CoreId) (e : SEnt) : Bool :=
  let l := s.launches[e.launch]
  l.on && s.taking e.ctx && s.clusterOk c e.ctx && !s.cores[c].evicted.any (fun v => v.ctx == e.ctx && v.share.part.isSome)
    && (match s.cores[c].kept with | some k => k == e.ctx | none => true)
    && ((s.partOf c e.ctx).isSome || decide (l.gran ≤ (s.freeGran c).length))

/-- Takeable entries of a victim's serai for a taker. -/
def State.takeable (s : State) (taker victim : CoreId) : List SEnt :=
  s.cores[victim].serai.filter (fun e => s.canRun taker e && (taker == victim || !s.cores[victim].isClosed e.ctx))

/-- The launch's overflow queue has room (R345). -/
def State.overflow (s : State) (i : Fin 64) : Option (Fin 16) :=
  let l := s.launches[i]
  if l.ovf && (s.bazaar[l.bq]).room then some l.bq else none

/-- A push can proceed (R345). -/
def State.pushable (s : State) (c : CoreId) (i : Fin 64) : Bool :=
  decide (s.cores[c].serai.length < 512) || (s.overflow i).isSome

/-- A push at the hot end; a full serai first moves its cold entry to the overflow queue (R345). -/
def State.pushHot (s : State) (c : CoreId) (i : Fin 64) (e : SEnt) : State :=
  let put (s : State) : State := s.modCore c (fun x => { x with serai := e :: x.serai })
  if s.cores[c].serai.length < 512 then put s
  else
    match s.overflow i, s.cores[c].serai.getLast? with
    | some q, some cold => put ((s.pushQueue q cold).modCore c (fun x => { x with serai := x.serai.dropLast }))
    | _, _ => s

-- ## Manifests read by an instruction (R362)

/-- The manifest image at an address (R362 item 1), then `k`. -/
def State.withManifest (s : State) (sp : Bool) (va : W64) (k : State → List Byte → State) : State :=
  if sp then
    if scrRange va && scrPeer s.cur.core va then s.trapAll 40 va
    else match s.scrCheck s.cur.core s.me.ctx 128 va with
    | .ok p =>
      if s.scrPoison p 128 then s.trapAll 23 va
      else k s (s.placeGet p 128)
    | .fail _ c => s.trapAll c va
    | _ => s.holdMe
  else
    let q := s.chkLoad s.sp.m 128 va 128 false
    q.1.oneAccess q.2 va (fun s =>
      let r := s.readLanes [(0, q.2)] 128
      k r.1.remoteDone ((r.2.map (·.2)).headD []))

/-- The launch of the issuing string, then `k`; the boot string has none and its push traps (R445). -/
def State.withLaunch (s : State) (va : W64) (k : State → Fin 64 → State) : State :=
  match s.me.launch with
  | some i => k s i
  | none => s.trapAll 40 va

/-- A manifest copy as an entry of the issuing string. -/
def State.entryOf (s : State) (i : Fin 64) (bs : List Byte) : SEnt := { bytes := bs, ctx := s.me.ctx, launch := i }

/-- The push of `spawn` and `spawnf`: held by R345, released at the scope, performed and committed (R362). `before` is the
future's initialisation. -/
def State.spawnPush (s : State) (sc : Scope) (i : Fin 64) (bs : List Byte) (before : State → State) : State :=
  let c := s.cur.core
  if !s.pushable c i then s.waitMe .push
  else
    -- a cold entry that leaves for a queue on a memory die is fenced at `.pkg` (R327)
    let sc' : Scope := if s.cores[c].serai.length < 512 then sc else .pkg
    s.releasing sc (fun s => s.releasing sc' (fun s =>
      (((before s).pushHot c i (s.entryOf i bs)).liveUp i |>.commit 1).adv 1))

/-- `spawn`. -/
def execSpawn (sc : Scope) (sp : Bool) (a : SReg) (s : State) : Res :=
  let va := s.getS a
  .next (s.withLaunch va (fun s i => s.withManifest sp va (fun s bs =>
    if imageBad bs then s.trapAll 40 va
    else s.spawnPush sc i (manifestCopy bs sc false i 0) id)))

/-- The future at a place made ready for a new task: D receives PHASE (R362). -/
def State.initFuture (s : State) (d : SReg) (p : Place) : State :=
  let ph := s.phaseAt p
  let w : W64 := BitVec.ofNat 64 (ph.toNat * 2 ^ 56 + 2 ^ 28)
  let s := { s with dones := s.dones.filter (fun x => x.place != p) }
  ((((s.barPut p 0 w).barPut p 1 (BitVec.ofNat 64 (2 ^ 28))).barPut p 2 0).setS d (ph.setWidth 64))

/-- `spawnf`. -/
def execSpawnf (sc : Scope) (sp : Bool) (d a b : SReg) (s : State) : Res :=
  let va := s.getS a
  let fut := s.getS b
  .next (s.withLaunch va (fun s i => s.withManifest sp va (fun s bs =>
    if imageBad bs then s.trapAll 40 va
    else s.withBar false true fut (fun s p =>
      s.spawnPush sc i (manifestCopy bs sc true i fut) (fun s => s.initFuture d p)))))

/-- The stores that a `done` whose release scope does not reach the issuing core has still to fence: those of the core where it was
executed (R327). -/
def State.farDone (s : State) (p : Place) : Bool :=
  s.dones.any (fun x => x.place == p && decide (x.scope.code.toNat < distClass s.cur.core x.core) && s.pend.any (fun y => y.core == x.core))

/-- The end of a `join` at a place: RESULT, with an acquire wide enough for any `done` (R327, R363). -/
def State.joined (s : State) (d : SReg) (p : Place) : State :=
  ((((s.acquire .pkg).setS d (s.barWord p 2)).unreg p).waitMe .none).adv 1

/-- `join`: RESULT once the future's PHASE differs from the operand's; the acquire is wide enough for any `done`, and a far `done` is
fenced first (R327). -/
def execJoin (_sc : Scope) (d a b : SReg) (s : State) : Res :=
  .next (match s.sp.wait with
    | .passed p => if s.loadsBack && !s.farDone p then s.joined d p else s
    | _ => s.withBar false false (s.getS a) (fun s p =>
        let ph : Byte := (s.getS b).setWidth 8
        if !s.phaseOver p ph then s.waitOn p ph
        else if s.loadsBack && !s.farDone p then s.joined d p
        else s.holdMe))

-- ## done (R364)

/-- A slot freed at the end of its task. -/
def State.freeSlot (s : State) (c : CoreId) (k : SlotId) : State :=
  let t := s.strAt c k
  (((s.freePool t).releaseArray c k false).modStr c k (fun _ => Str.empty)).modCore c (fun x => { x with retryAt := 0 })

/-- The end of the issuing task: live count, TASKS, slot. -/
def State.endTask (s : State) : State :=
  let launch := s.me.launch
  let s := s.freeSlot s.cur.core s.cur.slot
  match launch with
  | none => s
  | some i => (s.modLaunch i (fun l => { l with tasks := min (l.tasks + 1) (2 ^ 32 - 1) })).liveDown i

/-- `done`: held until the counters are 0; RESULT and the arrival at the future, then the end of the task. -/
def execDone (sc : Scope) (a : SReg) (s : State) : Res :=
  .next (
    if !s.me.single then s.trapAll 7 0
    else if !s.me.within 0 0 0 0 then s.holdMe
    else
      match s.me.fut with
      | none => s.releasing sc State.endTask
      | some fut => s.withBar false true fut (fun s p =>
          s.releasing sc (fun s =>
            State.endTask { (s.barPut p 2 (s.getS a)).barUpdate p 1 0 0 with
              dones := { place := p, scope := sc, core := s.cur.core } :: s.dones.filter (fun x => x.place != p) })))

-- ## yield (R365)

/-- The string's launch has a free pool record, or it holds one. -/
def State.hasPool (s : State) (t : Str) : Bool :=
  t.pool.isSome || (match t.launch with | some i => s.launches[i].freeRec.isSome | none => false)

/-- The string's launch has a free pool record (R365). -/
def State.freePoolRec (s : State) (t : Str) : Bool := match t.launch with | some i => s.launches[i].freeRec.isSome | none => false

/-- `yield`: a new age stamp; with SPILL, the string may give up its slot. -/
def execYield (spill : Bool) (s : State) : Res :=
  let c := s.cur.core
  let go := (s.modMe (fun t => { t with age := s.cyc })).adv 1
  .next (
    if spill && s.core.strs.all (fun t => t.present) && !(s.takeable c c).isEmpty && s.freePoolRec s.me then
      match go.spillStr c s.cur.slot true with
      | some s' => if (s'.strAt c s.cur.slot).present && s'.agenda.length == s.agenda.length then (s.waited s').holdMe else s'
      | none => go
    else go)

-- ## Queues (R366)

/-- The queue that an operand names, if the issuing string may use it. -/
def State.queueOf (s : State) (v : W64) : Option (Fin 16) :=
  (List.finRange 16).find? (fun q => q.val == v.toNat && (s.bazaar[q]).valid && (s.bazaar[q]).ctx == s.me.ctx)

/-- The outcome of a queue instruction, after its commit. -/
def State.queueOut (s : State) (d : SReg) (v : W64) : State := ((s.setS d v).commit 1).adv 1

/-- `qpush`: outcome 2 for a queue it may not use, 0 for a full one, else 1. -/
def execQpush (sc : Scope) (d a b : SReg) (s : State) : Res :=
  let va := s.getS a
  .next (s.withLaunch va (fun s i => s.withManifest true va (fun s bs =>
    if imageBad bs then s.trapAll 40 va
    else
      match s.queueOf (s.getS b) with
      | none => s.queueOut d 2
      | some q => s.releasing sc (fun s => s.releasing .pkg (fun s =>
          if (s.bazaar[q]).room then
            ((s.pushQueue q (s.entryOf i (manifestCopy bs sc false i 0))).liveUp i).queueOut d 1
          else s.queueOut d 0)))))

/-- `qpop`: the head's 128 bytes are written to the scratchpad destination; its acquire waits for the string's earlier loads (R220). -/
def execQpop (_sc : Scope) (d a b : SReg) (s : State) : Res :=
  let va := s.getS a
  .next (
    if scrRange va && scrPeer s.cur.core va then s.trapAll 40 va
    else match s.scrCheck s.cur.core s.me.ctx 128 va with
    | .ok p =>
        match s.queueOf (s.getS b) with
        | none => s.queueOut d 2
        | some q =>
          if !s.loadsBack then s.holdMe
          else match s.queueHead q with
          | none => (s.acquire .pkg).queueOut d 0
          | some e => ((((s.popQueue q).putBytes p e.bytes).liveDown e.launch).acquire .pkg).queueOut d 1
    | .fail _ c => s.trapAll c va
    | _ => s.holdMe)

-- ## Steal control (R367, R368)

/-- `stlpause`. -/
def execStlpause (s : State) : Res :=
  let ctx := s.me.ctx
  .next ((s.modCore s.cur.core (fun x => { x with closed := (ctx, s.cyc) :: x.closed.filter (fun p => p.1 != ctx) })).adv 1)

/-- `stlresume`. -/
def execStlresume (s : State) : Res :=
  let ctx := s.me.ctx
  .next ((s.modCore s.cur.core (fun x => { x with closed := x.closed.filter (fun p => p.1 != ctx) })).adv 1)

/-- The core of the package whose place token for a context is t (R40, R368). -/
def State.placeCore (s : State) (t : W32) (ctx : BitVec 12) : Option CoreId := allCores.find? (fun c => s.placeToken ctx c == t)

/-- `pdist`: the distance class to a token's place; 4 for a token of another device of the ring; 5 for a value that names no place of the context. -/
def execPdist (d a : SReg) (s : State) : Res :=
  let t : W32 := (s.getS a).setWidth 32
  let v : W64 := match s.placeCore t s.me.ctx with
    | some c => if s.occupies c s.me.ctx then BitVec.ofNat 64 (distClass s.cur.core c) else 5
    | none => if s.ring.isSome && Config.ringToken t then 4 else 5
  .next ((s.setS d v).adv 1)

-- ## Taking a manifest (R343, R353)

/-- A manifest taken into a free slot: the slot is STAGING, and the task starts next. -/
def State.takeInto (s : State) (c : CoreId) (k : SlotId) (e : SEnt) : State :=
  let t : Str := { Str.empty with
    st := .staging, ptroot := s.launches[e.launch].ptroot, launch := some e.launch, uid := s.uids
    staging := some { ent := e, begun := false, entered := false } }
  let s := State.soon { s.modStr c k (fun _ => t) with uids := s.uids + 1 } (.taskStart c k)
  if s.cores[c].gated then s.soon (.clusterUngate (clusterOf c)) else s

/-- The first free slot of a core. -/
def Core.freeSlot (x : Core) : Option SlotId := allSlots.find? (fun k => !x.strs[k].present)

end Sys2Proof.Machine
end

