-- ==== Sys2Proof/Machine/Evict.lean ====
section
/-!
DEFINITION. What a context holds on a core taken off it, written to the context image, and put back (spec/15 R413 to R418; spec/05 R108,
R110, R130), and the choice of victims by pre-emption (R416).
-/
namespace Sys2Proof.Machine
open Sys2Proof

-- ## Partitions by offset (R108)

/-- The offset OFF of a core's scratchpad byte in a granule set. -/
def offOfKey (c : CoreId) (gm : BitVec 16) (k : Nat) : Option Nat :=
  let o := k % 2 ^ 22
  let g := o / 0x30000
  if k / 2 ^ 22 == c.val && gm.getLsbD g then some (((List.range g).filter gm.getLsbD).length * 0x30000 + o % 0x30000) else none

/-- The key of an offset OFF in a granule set. -/
def keyOfOff (c : CoreId) (gm : BitVec 16) (off : Nat) : Option Nat :=
  (kthBit gm.toNat 16 (off / 0x30000)).map (fun g => scrKey c (g * 0x30000 + off % 0x30000))

/-- Bytes put at offsets of a partition, with its poisoned words. -/
def State.putPart (s : State) (c : CoreId) (ctx : BitVec 12) (cs : List (Nat × Byte)) (pz : List Nat) : State :=
  let gm := s.gmask c ctx
  { s with scr := cellPut s.scr (cs.filterMap (fun x => (keyOfOff c gm x.1).map (fun k => (k, x.2))))
           scrPz := s.scrPz ++ pz.filterMap (fun w => (keyOfOff c gm (8 * w)).map (· / 8)) }

-- ## Shares (R413, R415)

/-- The waits of a string that is saved: its waiting splits issue again (R415 step 6). -/
def Str.rest (t : Str) : Str :=
  let f (x : Split) : Split := { x with wait := .none }
  { t with splits := t.splits.map f, park := t.park.map f, parkedAt := 0 }

/-- The slots of a core that hold strings of a context. -/
def State.ctxSlots (s : State) (c : CoreId) (ctx : BitVec 12) : List SlotId :=
  allSlots.filter (fun k => (s.strAt c k).present && (s.strAt c k).ctx == ctx)

/-- A chain is a context's. -/
def Chain.of (ctx : BitVec 12) (x : Chain) : Bool := ctxOf x.who.ptroot == ctx

/-- A string with its string slot in the image: its own if it is free there, else the first free one, or 16. -/
def placeIn (ts : List (Nat × Str)) (x : Nat × Str) : List (Nat × Str) :=
  let free (i : Nat) : Bool := !ts.any (fun t => t.1 == i)
  ts ++ [(if decide (x.1 < 16) && free x.1 then x.1 else ((List.range 16).find? free).getD 16, x.2)]

/-- What a context holds on a core, evicted strings included. -/
def State.shareOf (s : State) (c : CoreId) (ctx : BitVec 12) : Share :=
  let x := s.cores[c]
  let p := s.partOf c ctx
  let gm := s.gmask c ctx
  let old := (x.evicted.filter (fun e => e.ctx == ctx)).map (·.share)
  let strs := ((s.ctxSlots c ctx).map (fun k => (k.val, (s.strAt c k).rest)) ++ old.flatMap (·.strs)).foldl placeIn []
  let spilled := (x.spilled.filter (fun q => q.str.ctx == ctx)).map (fun q => (16, q.str.rest)) ++ old.flatMap (·.spilled)
  { strs := strs
    spilled := (spilled.foldl placeIn strs).drop strs.length
    part := p <|> old.findSome? (·.part)
    scr := s.scr.filterMap (fun k => (offOfKey c gm k.1).map (fun o => (o, k.2))) ++ old.flatMap (·.scr)
    scrPz := s.scrPz.filterMap (fun w => (offOfKey c gm (8 * w)).map (· / 8)) ++ old.flatMap (·.scrPz)
    serai := x.serai.filter (fun e => e.ctx == ctx) ++ old.flatMap (·.serai)
    chains := (x.chains.toList.filterMap id).filter (Chain.of ctx) ++ old.flatMap (·.chains) }

/-- The share holds nothing. -/
def Share.isEmpty (h : Share) : Bool := h.strs.isEmpty && h.spilled.isEmpty && h.part.isNone && h.serai.isEmpty && h.chains.isEmpty

/-- A string's claims and registrations forgotten when it leaves its core. -/
def State.forget (s : State) (c : CoreId) (uid : Nat) : State :=
  { s.modCore c (fun x => { x with arr := { x.arr with waiters := x.arr.waiters.filter (fun w => w.1 != uid) } })
    with regs := s.regs.filter (fun r => r.2.2 != uid) }

/-- A slot emptied, its array released involuntarily (R415 step 8). -/
def State.clearSlot (s : State) (c : CoreId) (k : SlotId) : State :=
  ((s.releaseArray c k true).forget c (s.strAt c k).uid).modStr c k (fun _ => Str.empty)

/-- Everything that a context holds on a core taken off it. -/
def State.dropShare (s : State) (c : CoreId) (ctx : BitVec 12) : State :=
  let s := (s.ctxSlots c ctx).foldl (fun s k => s.clearSlot c k) s
  let s := (s.cores[c].spilled.filter (fun q => q.str.ctx == ctx)).foldl (fun s q => s.forget c q.str.uid) s
  s.modCore c (fun x => { x with
    spilled := x.spilled.filter (fun q => q.str.ctx != ctx), evicted := x.evicted.filter (fun e => e.ctx != ctx)
    parts := x.parts.filter (fun p => p.ctx != ctx), serai := x.serai.filter (fun e => e.ctx != ctx)
    convoy := x.convoy.filter (fun t => ctxOf t.who.ptroot != ctx)
    chains := x.chains.map (fun k => match k with | some k => if k.of ctx then none else some k | none => none) })

-- ## Quiet strings (R415 steps 2 and 3)

/-- Every operation that a string has issued is complete, its chains apart, and its task has been started (R353, R415 step 2). -/
def State.quiet (s : State) (c : CoreId) (t : Str) : Bool :=
  let x := s.cores[c]
  t.bkn == 0 && t.staging.all (·.begun) && t.ops.all (fun o => o.done || x.chains.any (fun k => match k with | some k => k.who.op == o.id | none => false))
    && !s.pend.any (fun p => p.uid == t.uid) && !s.remote.any (fun r => r.uid == t.uid) && !t.allSplits.any (fun y => underWay y.wait)
    && !x.convoy.any (fun y => y.chain.isNone && y.who.uid == t.uid)
    && !x.arr.queue.any (fun o => o.who.uid == t.uid && (match o.kind with | .clear => false | _ => true))

/-- The chains of a context on a core suspended or resumed (R130). -/
def State.setChains (s : State) (c : CoreId) (ctx : BitVec 12) (off : Bool) : State :=
  s.modCore c (fun x => { x with chains := x.chains.map (fun k => k.map (fun k => if k.of ctx then { k with suspended := off } else k)) })

/-- The share of a context on a core can be taken off: its strings are quiet and its transfers have landed. -/
def State.shareQuiet (s : State) (c : CoreId) (ctx : BitVec 12) : Bool :=
  (s.ctxSlots c ctx).all (fun k => s.quiet c (s.strAt c k)) && !s.cores[c].convoy.any (fun t => ctxOf t.who.ptroot == ctx)
    && s.cores[c].spilled.all (fun q => q.str.ctx != ctx || s.quiet c q.str)

-- ## The image (R413, R414)

/-- Offset of the serai slot in a core block. -/
def seraiSlot : Nat := 0x0A9000
/-- Offset of the scratchpad slot in a core block. -/
def scratchSlot : Nat := 0x0B9000

/-- Bytes of the partition of a share. -/
def Share.partBytes (h : Share) : Nat := match h.part with | some p => popCount p.gmask * 0x30000 | none => 0

/-- Offset of the core record in a core block. -/
def coreRecord : Nat := 0x0A8000

/-- A suspended chain context in the core record (R130; log 62); `ts` are the share's strings, with their slots. -/
def Chain.bytes (ts : List (Nat × Str)) (x : Chain) : List Byte :=
  let slot := ((ts.find? (fun t => t.2.uid == x.who.uid)).map (·.1)).getD 16
  let flags := 1 + 2 * (x.scope.code.toNat + 8 * (modeRank x.who.mode + 4 * ((if x.barSp then 1 else 0) + 2 * slot)))
  padTo 64 (([x.ptr, x.barVa.toNat, flags] ++ x.idx.take 4).flatMap (leBytes 8))

/-- A chain read back; `old` is the one that the device remembers, and `n` numbers the operation of one that only the image knows. -/
def Chain.ofBytes (bs : List Byte) (ts : List (Nat × Str)) (old : Option Chain) (n : Nat) : Option Chain :=
  let w (i : Nat) : Nat := numAt bs (8 * i) 8
  let slot := w 2 / 128 % 32
  let who : Issuer := { slot := ⟨slot % 16, by omega⟩, uid := ((ts.find? (fun t => t.1 == slot)).map (·.2.uid)).getD 0, op := n, ptroot := 0, mode := modeOf (w 2 / 16 % 4) }
  if w 2 % 2 = 0 then none
  else some { who := (old.map (·.who)).getD who, ptr := w 0, idx := [w 3, w 4, w 5, w 6], bar := (old.map (·.bar)).getD (.mem 0)
              barVa := BitVec.ofNat 64 (w 1), barSp := w 2 / 64 % 2 == 1, scope := Scope.ofCode (BitVec.ofNat 3 (w 2 / 2)), suspended := true }

/-- The core record of a share (R413; log 62). -/
def Share.record (h : Share) : List Byte :=
  leBytes 8 (h.partBytes / 0x30000) ++ leBytes 8 (if h.part.any (·.keep) then 1 else 0)
    ++ padTo 512 ((h.chains.take 8).flatMap (Chain.bytes (h.strs ++ h.spilled))) ++ leBytes 8 h.serai.length

/-- The parts of a string's slots in a core block (R413, R414). -/
def Str.slotParts (t : Str) (i : Nat) : List (Nat × List Byte) :=
  t.parts.map (fun (p : Nat × List Byte) => (slotArea * i + p.1, p.2)) ++ [(controlSlots + 0x2000 * i, t.control)]

/-- The parts of a share's core block (R413, R414): an unused string slot is FREE, a string spilled by R358 is SPILLING (log 62). -/
def Share.parts (h : Share) : List (Nat × List Byte) :=
  let ts := h.strs ++ h.spilled.map (fun x => (x.1, { x.2 with st := .spilling }))
  (List.range 16).flatMap (fun i => match ts.find? (fun x => x.1 == i) with
      | some x => x.2.slotParts i
      | none => [(slotArea * i + 0x8240, List.replicate 192 0)])
    ++ [(coreRecord, padTo 4096 h.record), (seraiSlot, (h.serai.reverse).flatMap (·.bytes)), (scratchSlot, (List.range h.partBytes).map (fun o => cellGet h.scr o))]

/-- The device's own accesses to an image, by physical address. -/
def imageWho (c : CoreId) : Who := whoOf c 0 .hyp

/-- A share written into its core block: none with a fault on the image or without a block, and whether it must wait. -/
def State.putShare (s : State) (c : CoreId) (ctx : BitVec 12) (h : Share) : State × Option Bool :=
  match s.imageBlock c ctx with
  | none => (s, none)
  | some b =>
    let q := s.putParts (imageWho c) b h.parts
    if q.2.waits then (s.waited q.1, some true) else if q.2.err ≠ 0 then (q.1, none) else (q.1, some false)

-- ## Eviction (R416)

/-- PRIO of a context with a valid entry. -/
def State.prioOf (s : State) (ctx : BitVec 12) : Option Nat := (s.ctxEntry ctx).map (fun i => ctabPrio s.ctab[i])

/-- A context that an incoming one may evict. -/
def State.below (s : State) (incoming ctx : BitVec 12) : Bool :=
  ctx != incoming && (match s.prioOf ctx, s.prioOf incoming with | some p, some q => decide (p < q) | _, _ => false)

/-- Free string slots of a core. -/
def State.freeSlots (s : State) (c : CoreId) : List SlotId := allSlots.filter (fun k => !(s.strAt c k).present)

/-- The shortest beginning of a list that suffices, or all of it. -/
def takeUntil (ok : List α → Bool) : List α → List α → List α
  | acc, [] => acc
  | acc, x :: r => if ok acc then acc else takeUntil ok (acc ++ [x]) r

/-- The shares, then the strings, that a demand evicts from a core (R416). -/
def State.plan (s : State) (c : CoreId) (d : Demand) : List (BitVec 12) × List SlotId :=
  let x := s.cores[c]
  let prio (ctx : BitVec 12) : Nat := (s.prioOf ctx).getD 0
  let held (p : Part) : Nat := popCount p.gmask
  let cands := (x.parts.filter (fun p => s.below d.ctx p.ctx)).mergeSort (fun a b =>
    decide (prio a.ctx < prio b.ctx) || (prio a.ctx == prio b.ctx && decide ((s.ctxSlots c a.ctx).length ≤ (s.ctxSlots c b.ctx).length)))
  let shares := if (s.partOf c d.ctx).isSome then []
    else takeUntil (fun ps => decide (d.ngran ≤ (s.freeGran c).length + (ps.map held).sum)) [] cands
  let gone := shares.map (·.ctx)
  let kept := allSlots.filter (fun k => (s.strAt c k).present && !gone.contains (s.strAt c k).ctx)
  let slots0 := 16 - kept.length
  let regs0 := 4096 - (kept.map (fun k => (s.strAt c k).physical)).sum
  let strs := (kept.filter (fun k => s.below d.ctx (s.strAt c k).ctx)).mergeSort (fun a b =>
    let pa := prio (s.strAt c a).ctx
    let pb := prio (s.strAt c b).ctx
    decide (pa < pb) || (pa == pb && (decide ((s.strAt c b).physical < (s.strAt c a).physical)
      || ((s.strAt c a).physical == (s.strAt c b).physical && decide (a.val ≤ b.val)))))
  (gone, takeUntil (fun ks => decide (d.nslot ≤ slots0 + ks.length) && decide (d.nreg ≤ regs0 + (ks.map (fun k => (s.strAt c k).physical)).sum))
    [] strs)

/-- The strings that a demand evicts from a core. -/
def State.evictions (s : State) (c : CoreId) (d : Demand) : Nat :=
  let p := s.plan c d
  (p.1.map (fun ctx => (s.ctxSlots c ctx).length)).sum + p.2.length

/-- A string that a demand is evicting now issues no more (R415 step 1). -/
def State.evicting (s : State) (c : CoreId) (k : SlotId) : Bool :=
  match s.cores[c].demand with
  | none => false
  | some d =>
    match s.plan c d with
    | (ctx :: _, _) => (s.strAt c k).ctx == ctx
    | ([], j :: _) => j == k
    | ([], []) => false

/-- The image slot of a string that is evicted alone: its own, unless another string of the context that is evicted there has it. -/
def State.evictSlot (s : State) (c : CoreId) (k : SlotId) : Nat :=
  let t := s.strAt c k
  let others := ((s.ctxSlots c t.ctx).filter (· != k)).map (fun j => (j.val, s.strAt c j))
  ((placeIn ((s.cores[c].evicted.filter (fun e => e.ctx == t.ctx)).flatMap (fun e => e.share.strs ++ e.share.spilled) ++ others) (k.val, t)).getLast?.map (·.1)).getD 16

/-- One string evicted, once its chains are suspended, their transfers have landed and it is quiet (R415). Its array is released, and its
chains stay suspended on the core until it returns. -/
def State.evictStr (s : State) (c : CoreId) (k : SlotId) : State :=
  let uid := (s.strAt c k).uid
  let s := s.modCore c (fun x => { x with chains := x.chains.map (fun y => y.map (fun (y : Chain) => if y.who.uid == uid then { y with suspended := true } else y)) })
  if !s.quiet c (s.strAt c k) || s.cores[c].convoy.any (fun y => y.who.uid == uid) then s
  else
    let s := (s.releaseArray c k true).assignCluster c (s.strAt c k).ctx
    let t := s.strAt c k
    match s.imageBlock c t.ctx with
    | none => s.soon (.contextFault t.ctx 2)
    | some b =>
      if h : s.evictSlot c k < 16 then
        let j : SlotId := ⟨s.evictSlot c k, h⟩
        let q := s.putParts (imageWho c) b (t.rest.slotParts j.val)
        if q.2.waits then s.waited q.1
        else if q.2.err ≠ 0 then q.1.soon (.contextFault t.ctx 2)
        else
          let e : Evicted := { ctx := t.ctx, prio := (s.prioOf t.ctx).getD 0, slot := some j, at_ := s.cyc
                               share := { strs := [(j.val, t.rest)], spilled := [], part := none, scr := [], scrPz := [], serai := [], chains := [] } }
          (q.1.clearSlot c k).modCore c (fun x => { x with evicted := x.evicted ++ [e], keptRegs := x.keptRegs + t.physical })
      else s

/-- A whole share evicted, once it is quiet. -/
def State.evictShare (s : State) (c : CoreId) (ctx : BitVec 12) : State :=
  let s := (s.setChains c ctx true).assignCluster c ctx
  if !s.shareQuiet c ctx then s
  else
    let s1 := (s.ctxSlots c ctx).foldl (fun s k => s.releaseArray c k true) s
    let h := s1.shareOf c ctx
    let q := s1.putShare c ctx h
    match q.2 with
    | none => q.1.soon (.contextFault ctx 2)
    | some true => s.waited q.1
    | some false =>
      let e : Evicted := { ctx := ctx, prio := (s.prioOf ctx).getD 0, slot := none, share := h, at_ := s.cyc }
      let regs := ((s.ctxSlots c ctx).map (fun k => (s.strAt c k).physical)).sum
      (q.1.dropShare c ctx).modCore c (fun x => { x with evicted := x.evicted ++ [e], keptRegs := x.keptRegs + regs })

/-- A string that stands evicted from the core. -/
def Core.evictedUid (x : Core) (uid : Nat) : Bool := x.evicted.any (fun e => e.share.strs.any (fun t => t.2.uid == uid))

/-- The next eviction of a core's demand, or its end. -/
def State.evictStep (s : State) (c : CoreId) : State :=
  match s.cores[c].demand with
  | none => s
  | some d =>
    match s.plan c d with
    | (ctx :: _, _) => s.evictShare c ctx
    | ([], k :: _) => s.evictStr c k
    | ([], []) => s.modCore c (fun x => { x with
        demand := none, chains := x.chains.map (fun k => k.map (fun k => ({ k with suspended := x.evictedUid k.who.uid } : Chain))) })

/-- A core must make room for an incoming context (R416). -/
def State.demandOn (s : State) (c : CoreId) (d : Demand) : State := s.modCore c (fun x => { x with demand := some d, kept := some d.ctx, keptRegs := 0 })

/-- What was held for an incoming context is held no more once it has placed a string on the core (R416). -/
def Core.unkeep (x : Core) (ctx : BitVec 12) : Core := if x.kept == some ctx then { x with kept := none, keptRegs := 0 } else x

-- ## Putting back (R417, R418)

/-- Strings placed into free slots. -/
def State.placeStrs (s : State) (c : CoreId) (ts : List Str) : State :=
  ts.foldl (fun s t => match s.freeSlots c with | k :: _ => s.modStr c k (fun _ => t) | [] => s) s

/-- A chain put back: its scratchpad barrier lies where the new granules place it. -/
def State.placeChain (s : State) (c : CoreId) (x : Chain) : State :=
  let x := { x with suspended := false }
  let x := if x.barSp then (match s.scrByte c (ctxOf x.who.ptroot) x.barVa with | .ok p => { x with bar := p } | _ => x) else x
  match s.cores[c].freeChain with
  | some k => s.modCore c (fun y => { y with chains := y.chains.set k (some x) })
  | none => s

/-- The pool record that a spilled string put back holds is in use again (R358). -/
def State.usePool (s : State) (t : Str) : State :=
  match t.launch, t.pool with
  | some i, some r => s.modLaunch i (fun l => { l with poolUsed := if l.poolUsed.contains r then l.poolUsed else r :: l.poolUsed })
  | _, _ => s

/-- A share put back on a core with its partition's bytes: partition, serai entries, chains, strings (R418); the chains of a string that was
evicted alone go on. -/
def State.placeShare (s : State) (c : CoreId) (ctx : BitVec 12) (h : Share) : State :=
  let s := match h.part with
    | some p => (s.allocPart c ctx (popCount p.gmask) p.keep).putPart c ctx h.scr h.scrPz
    | none => s
  let s := (h.spilled.map (·.2)).foldl State.usePool s
  let mine (k : Chain) : Bool := h.strs.any (fun t => t.2.uid == k.who.uid)
  let s := s.modCore c (fun x => { x.unkeep ctx with
    serai := x.serai ++ h.serai
    spilled := x.spilled ++ h.spilled.map (fun t => { str := t.2, woken := true, at_ := s.cyc })
    chains := x.chains.map (fun k => k.map (fun (k : Chain) => if mine k then { k with suspended := false } else k)) })
  (h.chains.foldl (fun s k => s.placeChain c k) s).placeStrs c (h.strs.map (·.2))

/-- Physical registers per lane that a string needs once it is loaded. -/
def Str.needs (t : Str) : Nat := Str.physical { t with vspill := 0 }

/-- A core has what a share needs. -/
def State.fits (s : State) (c : CoreId) (ctx : BitVec 12) (h : Share) : Bool :=
  let x := s.cores[c]
  (match x.kept with | some k => k == ctx | none => true) && x.demand.isNone && !x.stopped
    && decide (h.strs.length ≤ (s.freeSlots c).length)
    && (match h.part with | some p => (s.partOf c ctx).isNone && decide (popCount p.gmask ≤ (s.freeGran c).length) | none => true)
    && decide (h.chains.length ≤ (x.chains.toList.filter (·.isNone)).length)
    && decide (h.serai.length + x.serai.length ≤ 512) && decide ((h.strs.map (·.2.needs)).sum ≤ s.freeRegs c)

/-- The eviction of a core that returns first: by PRIO, then by time (R417). -/
def State.returning (s : State) (c : CoreId) : Option Evicted :=
  let running (e : Evicted) : Bool := match s.ctxEntry e.ctx with | some i => ctabSt s.ctab[i] == 0 | none => true
  ((s.cores[c].evicted.filter (fun e => running e && s.fits c e.ctx e.share)).mergeSort (fun a b =>
    decide (b.prio < a.prio) || (a.prio == b.prio && decide (a.at_ ≤ b.at_)))).head?

/-- Bytes of an image read after others, with the first fault and whether a read must wait. -/
def getImage (r : State × Taken) (at_ n : Nat) : (State × Taken) × List Byte :=
  let q := r.1.getAll (imageWho 0) at_ n
  ((q.1, { r.2 with err := if r.2.err = 0 then q.2.err else r.2.err, waits := r.2.waits || q.2.waits }), q.2.bytes)

/-- The string of slot i of a core block (R414); `old` is what the device remembers of it. -/
def readSlot (r : State × Taken) (b i : Nat) (old : Str) : (State × Taken) × Str :=
  let a := getImage r (b + slotArea * i) slotArea
  let k := getImage a.1 (b + controlSlots + 0x2000 * i) 0x2000
  (k.1, old.ofImage a.2 k.2)

/-- The strings of a core block, with their slots; a slot whose state is FREE holds none. -/
def readStrs (r : State × Taken) (b : Nat) (h : Share) : (State × Taken) × List (Nat × Str) :=
  (List.range 16).foldl (fun a i =>
    let q := getImage a.1 (b + slotArea * i + 0x8295) 1
    let old := (((h.strs ++ h.spilled).find? (fun x => x.1 == i)).map (·.2)).getD { Str.empty with uid := q.1.1.uids + i }
    if leNat q.2 = 0 then (q.1, a.2)
    else let x := readSlot q.1 b i old; (x.1, a.2 ++ [(i, x.2)])) (r, [])

/-- A string that only the image knows counts its running chain (R134). -/
def Str.withChains (h : Share) (cs : List Chain) (t : Str) : Str :=
  if (h.strs ++ h.spilled).any (fun x => x.2.uid == t.uid) then t
  else { t with ops := (cs.filter (fun k => k.who.uid == t.uid)).map (fun k => { cls := .cp, id := k.who.op, done := false, readDone := false }) }

/-- A serai entry of a core block from its bytes. -/
def SEnt.ofBytes (ctx : BitVec 12) (bs : List Byte) : SEnt := { bytes := bs, ctx := ctx, launch := ⟨fld (wordAt bs 1) 59 54 % 64, by omega⟩ }

/-- The serai entries of a core block, of which it counts n; the oldest stands last in it. -/
def readEntries (r : State × Taken) (b : Nat) (ctx : BitVec 12) (n : Nat) : (State × Taken) × List SEnt :=
  (List.range n).foldl (fun a i =>
    let q := getImage a.1 (b + seraiSlot + 128 * i) 128
    (q.1, SEnt.ofBytes ctx q.2 :: a.2)) (r, [])

/-- What a core block holds (R413, R418): strings, partition, serai entries, chains. `h` is what the device remembers of it (log 62). -/
def State.readBlock (s : State) (b : Nat) (ctx : BitVec 12) (h : Share) : State × Taken × Share :=
  let r := getImage (s, Taken.none) (b + coreRecord) 536
  let n := min 16 (numAt r.2 0 8)
  let ts := readStrs r.1 b h
  let cs := (List.range 8).filterMap (fun i => Chain.ofBytes (bytesAt r.2 (16 + 64 * i) 64) ts.2 h.chains[i]? (s.uids + 16 + i))
  let es := readEntries ts.1 b ctx (min 512 (numAt r.2 528 8))
  let p := getImage es.1 (b + scratchSlot) (n * 0x30000)
  let ts := ts.2.map (fun x => (x.1, x.2.withChains h cs))
  ({ p.1.1 with uids := p.1.1.uids + 24 }, p.1.2,
    { strs := ts.filter (fun x => x.2.st != .spilling)
      spilled := (ts.filter (fun x => x.2.st == .spilling)).map (fun x => (x.1, { x.2 with st := .ready })) ++ h.spilled.filter (fun x => decide (16 ≤ x.1))
      part := if n = 0 then none else some { ctx := ctx, gmask := BitVec.ofNat 16 (2 ^ n - 1), keep := numAt r.2 8 8 != 0 }
      scr := ((List.range p.2.length).zip p.2).filter (fun x => x.2 != 0), scrPz := h.scrPz, serai := es.2, chains := cs })

/-- The image read for what a core has evicted (R409, R417): a whole share comes from its block, a single string from its slot. -/
def State.readEvicted (s : State) (c : CoreId) (e : Evicted) : State × Taken × Share :=
  match s.imageBlock c e.ctx, e.slot with
  | none, _ => (s, Taken.none, e.share)
  | some b, none => s.readBlock b e.ctx e.share
  | some b, some k =>
    match e.share.strs with
    | x :: _ => let q := readSlot (s, Taken.none) b k.val x.2; (q.1.1, q.1.2, { e.share with strs := [(x.1, q.2)] })
    | [] => (s, Taken.none, e.share)

/-- EVICTED_SHARE_RETURN (R417). A fault of an access to the image is a context fault of kind 2 (R409); a gated cluster is switched on (R448). -/
def execEvictedShareReturn (s : State) : Res :=
  match s.ev with
  | .evictedShareReturn c =>
    match s.returning c with
    | some e =>
      let r := s.readEvicted c e
      .next (
        if r.2.1.waits then s.waited r.1
        else if r.2.1.err ≠ 0 then r.1.soon (.contextFault e.ctx 2)
        else if !r.1.fits c e.ctx r.2.2 then r.1
        else
          let s := (r.1.modCore c (fun x => { x with evicted := x.evicted.erase e })).placeShare c e.ctx r.2.2
          if s.cores[c].gated then s.soon (.clusterUngate (clusterOf c)) else s)
    | none => .next s
  | _ => .fault .notThisEvent

end Sys2Proof.Machine
end

