-- ==== Sys2Proof/Machine/Contexts.lean ====
section
/-!
DEFINITION. Context faults and the context commands SAVE, RESTORE, PREEMPT and END (spec/15 R408 to R420).
-/
namespace Sys2Proof.Machine
open Sys2Proof

-- ## CTXSTAT and the table (R410, R412)

/-- A command ended, with its ERR. -/
def State.ctxDone (s : State) (e : Fin 64) (err : Nat) : State := { s with ctxstat := BitVec.ofNat 64 (err * 2 ^ 12 + e.val) }
/-- A command at work. -/
def State.ctxBusy (s : State) (e : Fin 64) : State := { s with ctxstat := BitVec.ofNat 64 (2 ^ 63 + e.val) }
/-- STATE of an entry set. -/
def State.setCtxState (s : State) (e : Fin 64) (st : Nat) : State :=
  { s with ctab := setWord s.ctab e.val 0 (fput s.ctab[e][0] 58 56 st) }
/-- MINCL (R410). -/
def State.mincl (s : State) (e : Fin 64) : Nat := fld s.ctab[e][2] 14 8

/-- The cores where a context holds anything. -/
def State.coresOf (s : State) (ctx : BitVec 12) : List CoreId := allCores.filter (fun c => !(s.shareOf c ctx).isEmpty)

/-- The launch slots of a context. -/
def State.launchesOf (s : State) (ctx : BitVec 12) : List (Fin 64) :=
  (List.finRange 64).filter (fun i => (s.launches[i]).on && ctxOf (s.launches[i]).ptroot == ctx)

-- ## END (R409)

/-- A context's strings, partitions and serai entries discarded; a saved or evicted one's too. -/
def State.discardCtx (s : State) (ctx : BitVec 12) : State :=
  let s := ((s.coresOf ctx).foldl (fun s c => s.dropShare c ctx) s).modQueues ctx (fun q => q.filter (fun e => e.ctx != ctx))
  { s with imap := s.imap.filter (fun m => m.1 != ctx)
           cores := s.cores.map (fun (x : Core) => if x.kept == some ctx then { x.unkeep ctx with demand := none } else x) }

/-- The context's launches have no task any more (R409). -/
def State.endLaunches (s : State) (ctx : BitVec 12) : State :=
  (s.launchesOf ctx).foldl (fun s i => s.modLaunch i (fun l => { l with live := 0, ended := true })) s

/-- The launches of a saved image end: those that must wait stay in it. -/
def State.endSaved (s : State) (ctx : BitVec 12) : State :=
  match s.images.find? (fun i => i.ctx == ctx) with
  | none => s
  | some im =>
    let r := im.launches.foldl (fun (r : State × List (Fin 64 × Launch)) l =>
      let q := r.1.closeLaunch { l.2 with ended := true }
      if q.2 then (q.1, r.2) else (q.1, r.2 ++ [l])) (s, [])
    let others := r.1.images.filter (fun i => i.ctx != ctx)
    { r.1 with images := if r.2.isEmpty then others else { im with cores := [], launches := r.2 } :: others }

/-- END of a context: discarded, its launches completed with STATE 3; whether every launch has completed. -/
def State.endCtx (s : State) (ctx : BitVec 12) : State × Bool :=
  let s := (s.discardCtx ctx).endLaunches ctx
  let s := ((s.launchesOf ctx).foldl State.launchEnd s).endSaved ctx
  (s, (s.launchesOf ctx).isEmpty && !s.images.any (fun i => i.ctx == ctx))

/-- CTX_END (R409, R412): BUSY until every launch has completed. -/
def execCtxEnd (s : State) : Res :=
  match s.ev with
  | .ctxEnd e =>
    if !ctabV s.ctab[e] then .next (s.ctxDone e 2)
    else
      let r := s.endCtx (ctabCtx s.ctab[e])
      .next (if r.2 then State.ctxDone { r.1 with ctab := r.1.ctab.set e (Vector.replicate 4 0) } e 0 else r.1.ctxBusy e)
  | _ => .fault .notThisEvent

-- ## Context faults (R409)

/-- The arrays that a context's strings own are released, and its claims withdrawn. -/
def State.releaseArrays (s : State) (ctx : BitVec 12) : State :=
  allCores.foldl (fun s c => (s.ctxSlots c ctx).foldl (fun s k => (s.releaseArray c k true).forget c (s.strAt c k).uid) s) s

/-- Something reported to the management controller. -/
def State.report (s : State) (r : Report) : State := { s with reports := s.reports ++ [r] }

/-- CONTEXT_FAULT (R409): it is reported, and the context stands faulted with FCAUSE; one without a valid entry is ended at once. -/
def execContextFault (s : State) : Res :=
  match s.ev with
  | .contextFault ctx kind =>
    match s.ctxEntry ctx with
    | some e =>
      let s := (s.report (.contextFault ctx kind)).releaseArrays ctx |>.setCtxState e 3
      .next { s with ctab := setWord s.ctab e.val 3 (fput s.ctab[e][3] 63 56 kind.toNat) }
    | none => .next ((s.report (.contextFault ctx kind)).endCtx ctx).1
  | _ => .fault .notThisEvent

-- ## SAVE (R415)

/-- The image clusters that hold state, each once. -/
def clustersOf (cs : List SavedCore) : List Nat := (cs.map (·.cluster)).eraseDups

/-- A launch record of a header (R413; log 62). -/
def launchBytes (l : Fin 64 × Launch) : List Byte :=
  leBytes 4 (l.1.val + 64 + (if l.2.ended then 128 else 0)) ++ leBytes 4 l.2.live ++ leBytes 8 l.2.tasks ++ leBytes 8 l.2.record.toNat
    ++ leBytes 8 l.2.words[6].toNat

/-- The header of an image (R413): IDENT, the counts with CTXID and PRIO, the clusters that hold state, the launch records (log 62). -/
def imageHeader (nclmax mincl prio : Nat) (ctx : BitVec 12) (cl : List Nat) (ls : List (Fin 64 × Launch)) : List Byte :=
  padTo 1024 (leBytes 8 0x4A394358 ++ leBytes 8 (prio * 2 ^ 28 + ctx.toNat * 2 ^ 16 + mincl * 2 ^ 8 + nclmax)
    ++ leBytes 8 ((cl.map (fun j => 2 ^ j)).sum))
    ++ padTo 2048 (ls.flatMap launchBytes)

/-- The share of each core written to its block: the saved cores, none with a fault; and whether some write waits. -/
def State.saveCores (s : State) (ctx : BitVec 12) : List CoreId → State × Option (List SavedCore) × Bool
  | [] => (s, some [], false)
  | c :: r =>
    let h := s.shareOf c ctx
    let q := s.putShare c ctx h
    match q.2, s.imap.find? (fun m => m.1 == ctx && m.2.2 == clusterOf c) with
    | some w, some m =>
      let t := q.1.saveCores ctx r
      (t.1, t.2.1.map (fun l => { cluster := m.2.1, cidx := cidx c, share := h } :: l), w || t.2.2)
    | _, _ => (q.1, none, false)

/-- The cores of the clusters where a context holds anything: their blocks are written whole. -/
def State.coresToSave (s : State) (ctx : BitVec 12) : List CoreId :=
  let cl := ((s.coresOf ctx).map clusterOf).eraseDups
  allCores.filter (fun c => cl.contains (clusterOf c))

/-- A quiet context written to its image and taken off the device. -/
def State.saveCtx (s : State) (e : Fin 64) : State :=
  let ctx := ctabCtx s.ctab[e]
  let cs := s.coresToSave ctx
  let s1 := cs.foldl (fun s c => (s.ctxSlots c ctx).foldl (fun s k => s.releaseArray c k true) (s.assignCluster c ctx)) s
  let q := s1.saveCores ctx cs
  match q.2.1 with
  | none => (q.1.ctxDone e 3).soon (.contextFault ctx 2)
  | some saved =>
    let cl := clustersOf saved
    let m := max 1 cl.length
    let w := q.1.putAll (imageWho 0) (s.imageAt e) (imageHeader (fld s.ctab[e][2] 6 0) m (ctabPrio s.ctab[e]) ctx cl
      ((q.1.launchesOf ctx).map (fun i => (i, q.1.launches[i]))))
    if q.2.2 || w.2.waits then (s.waited w.1).ctxBusy e
    else if w.2.err ≠ 0 then (w.1.ctxDone e 3).soon (.contextFault ctx 2)
    else
      let ls := w.1.launchesOf ctx
      let im : Image := { ctx := ctx, cores := saved, launches := ls.map (fun i => (i, w.1.launches[i])), pending := [], slots := [] }
      let s := cs.foldl (fun s c => s.dropShare c ctx) w.1
      let s := ls.foldl (fun s i => s.modLaunch i (fun _ => Launch.none)) s
      let s := { s with images := im :: s.images.filter (fun i => i.ctx != ctx), imap := s.imap.filter (fun m => m.1 != ctx) }
      let s := { s with ctab := setWord s.ctab e.val 2 (fput s.ctab[e][2] 14 8 m) }
      (s.setCtxState e 1).ctxDone e 0

/-- CTX_SAVE (R415): BUSY while operations of the context are still under way. -/
def execCtxSave (s : State) : Res :=
  match s.ev with
  | .ctxSave e =>
    if !ctabV s.ctab[e] || ctabSt s.ctab[e] != 0 then .next (s.ctxDone e 2)
    else
      let ctx := ctabCtx s.ctab[e]
      let s := allCores.foldl (fun s c => s.setChains c ctx true) s
      .next (if allCores.all (fun c => s.shareQuiet c ctx) then s.saveCtx e else s.ctxBusy e)
  | _ => .fault .notThisEvent

-- ## RESTORE (R418)

/-- A share with its launch slots rewritten. -/
def Share.relaunch (f : Fin 64 → Fin 64) (h : Share) : Share :=
  let g (x : Nat × Str) : Nat × Str := (x.1, x.2.relaunch f)
  { h with strs := h.strs.map g, spilled := h.spilled.map g, serai := h.serai.map (SEnt.relaunch f) }

/-- Launches given free slots: the new slot of each old one. -/
def State.newSlots (s : State) (ls : List (Fin 64 × Launch)) : List (Fin 64 × Fin 64) :=
  (ls.map (·.1)).zip ((List.finRange 64).filter (fun i => !(s.launches[i]).on))

/-- The new launch slot of an old one. -/
def slotIn (m : List (Fin 64 × Fin 64)) (i : Fin 64) : Fin 64 := (m.find? (fun x => x.1 == i)).elim i (·.2)

/-- What the device remembers of a saved context: nothing, of one saved elsewhere or before a reset (R419). -/
def State.remembered (s : State) (ctx : BitVec 12) : Image :=
  (s.images.find? (fun i => i.ctx == ctx)).getD { ctx := ctx, cores := [], launches := [], pending := [], slots := [] }

/-- A launch from its record in an image's header: what the device remembers of it, or else its launch record and its range list read again
under CTXROOT, with counts of 0 (log 63). -/
def State.readLaunch (s : State) (root : W64) (im : Image) (bs : List Byte) : State × Taken × (Fin 64 × Launch) :=
  let i : Fin 64 := ⟨numAt bs 0 4 % 64, by omega⟩
  let rec_ := le64 (bytesAt bs 16 8)
  let set (l : Launch) : Launch := { l with
    on := true, live := numAt bs 4 4, tasks := numAt bs 8 8, record := rec_, ended := numAt bs 0 4 / 128 % 2 == 1, ptroot := root
    words := l.words.set 6 (le64 (bytesAt bs 24 8)) }
  match im.launches.find? (fun l => l.1 == i && l.2.record == rec_) with
  | some l => (s, Taken.none, (i, set l.2))
  | none =>
    let w := whoOf 0 root .user
    let r := s.getAll w rec_.toNat 64
    let n := fld (wordAt r.2.bytes 3) 63 58
    let g := if n = 0 || r.2.err ≠ 0 then (r.1, Taken.none) else r.1.getAll w (va57 (wordAt r.2.bytes 3)).toNat (16 * n)
    (g.1, { Taken.none with err := r.2.err, waits := r.2.waits || g.2.waits },
      (i, set { Launch.none with words := gen 8 (fun k => wordAt r.2.bytes k)
                                 rlist := if g.2.err = 0 then rlistOf n g.2.bytes else List.replicate n (0, 0), counts := List.replicate n (0, 0) }))

/-- The launches of an image's header (R413). -/
def State.readLaunches (s : State) (e : Fin 64) (im : Image) : State × Taken × List (Fin 64 × Launch) :=
  let r := getImage (s, Taken.none) (s.imageAt e + 0x400) 2048
  let root := s.ctxroot &&& 0xFFF0FFFFFFFFF001
  ((List.range 64).map (fun i => bytesAt r.2 (32 * i) 32)).foldl (fun (a : State × Taken × List (Fin 64 × Launch)) bs =>
    if numAt bs 0 4 / 64 % 2 = 0 then a
    else
      let q := a.1.readLaunch root im bs
      (q.1, { a.2.1 with err := if a.2.1.err = 0 then q.2.1.err else a.2.1.err, waits := a.2.1.waits || q.2.1.waits }, a.2.2 ++ [q.2.2]))
    (r.1.1, r.1.2, [])

/-- The restore accepted: launches in fresh slots, the clusters `cl` of the image pending. -/
def State.acceptRestore (s : State) (e : Fin 64) (im : Image) (ls : List (Fin 64 × Launch)) (cl : List Nat) : State :=
  let m := s.newSlots ls
  let s := ls.foldl (fun s l => s.modLaunch (slotIn m l.1) (fun _ => l.2)) s
  let im' : Image := { im with launches := [], pending := cl, slots := m }
  let s := { s with
    placings := (im.ctx, s.uids) :: s.placings.filter (fun x => x.1 != im.ctx), uids := s.uids + 1
    images := (if cl.isEmpty then [] else [im']) ++ s.images.filter (fun (i : Image) => i.ctx != im.ctx) }
  let s := s.modQueues im.ctx (fun q => q.map (fun x => if x.ctx == im.ctx then x.relaunch (slotIn m) else x))
  (s.setCtxState e (if cl.isEmpty then 0 else 2)).ctxDone e 0

/-- CTX_RESTORE (R412, R418): its checks in ascending ERR order; an image that another device has written is restored as one of this device's
own (R419). -/
def execCtxRestore (s : State) : Res :=
  match s.ev with
  | .ctxRestore e =>
    if !ctabV s.ctab[e] || ctabSt s.ctab[e] != 1 then .next (s.ctxDone e 2)
    else
      let im := s.remembered (ctabCtx s.ctab[e])
      let r := s.getAll (imageWho 0) (s.imageAt e) 24
      .next (
        if r.2.waits then (s.waited r.1).ctxBusy e
        else if r.2.err ≠ 0 || wordAt r.2.bytes 0 != 0x4A394358 then r.1.ctxDone e 3
        else if r.1.clcount < r.1.mincl e then r.1.ctxDone e 4
        else
          let l := r.1.readLaunches e im
          if l.2.1.waits then (s.waited l.1).ctxBusy e
          else if l.2.1.err ≠ 0 then l.1.ctxDone e 3
          else if (l.1.newSlots l.2.2).length < l.2.2.length then l.1.ctxDone e 5
          else l.1.acceptRestore e im l.2.2 ((List.range 64).filter (wordAt r.2.bytes 2).getLsbD))
  | _ => .fault .notThisEvent

/-- Core k of a cluster. -/
def coreOf (j : Fin 64) (k : Nat) : CoreId := ⟨j.val * 4 + k % 4, by omega⟩

/-- Contexts other than one that hold anything on a cluster. -/
def State.heldBy (s : State) (j : Fin 64) (ctx : BitVec 12) : List (BitVec 12) :=
  ((List.range 4).flatMap (fun k =>
    let x := s.cores[coreOf j k]
    (x.strs.toList.filter (·.present)).map (·.ctx) ++ x.parts.map (·.ctx) ++ x.spilled.map (fun p => p.str.ctx))).filter (· != ctx)

/-- The saved cores of an image cluster fit on a working cluster. -/
def State.clusterFits (s : State) (j : Fin 64) (ctx : BitVec 12) (xs : List SavedCore) : Bool :=
  s.um.clmask.getLsbD j.val && !s.imap.any (fun m => m.1 == ctx && m.2.2 == j) && xs.all (fun x => s.fits (coreOf j x.cidx) ctx x.share)

/-- A share restored under CTXROOT (R418 step 4). -/
def Share.reroot (root : W64) (h : Share) : Share :=
  let root := root &&& 0xFFF0FFFFFFFFF001
  let f (x : Nat × Str) : Nat × Str := (x.1, { x.2 with ptroot := root })
  { h with strs := h.strs.map f, spilled := h.spilled.map f, chains := h.chains.map (fun x => { x with who := { x.who with ptroot := root } }) }

/-- The barriers of restored chains that do not lie in scratchpad, found again by their addresses (R223, R419); a failing check is a fault of
the restore. -/
def State.findBars (s : State) (h : Share) : State × Taken × Share :=
  let r := h.chains.foldl (fun (a : State × Taken × List Chain) x =>
    if x.barSp then (a.1, a.2.1, a.2.2 ++ [x])
    else
      let q := a.1.barCheck (whoOf 0 x.who.ptroot x.who.mode) false x.barVa
      match q.2 with
      | .ok p => (q.1, a.2.1, a.2.2 ++ [{ x with bar := p }])
      | .fail _ c => (q.1, a.2.1.fault c x.barVa.toNat, a.2.2)
      | _ => (q.1, { a.2.1 with waits := true }, a.2.2)) (s, Taken.none, [])
  (r.1, r.2.1, { h with chains := r.2.2 })

/-- The cores of an image cluster that hold anything, read from the image (R418). -/
def State.readCluster (s : State) (e : Fin 64) (im : Image) (j : Nat) : State × Taken × List SavedCore :=
  (List.range 4).foldl (fun (a : State × Taken × List SavedCore) k =>
    let old := ((im.cores.find? (fun x => x.cluster == j && x.cidx == k)).map (·.share)).getD
      { strs := [], spilled := [], part := none, scr := [], scrPz := [], serai := [], chains := [] }
    let q := a.1.readBlock (blockAt (s.imageAt e) j k) im.ctx old
    let f := q.1.findBars ((q.2.2.relaunch (slotIn im.slots)).reroot s.ctxroot)
    let err := if a.2.1.err ≠ 0 then a.2.1.err else if q.2.1.err ≠ 0 then q.2.1.err else f.2.1.err
    (f.1, { a.2.1 with err := err, waits := a.2.1.waits || q.2.1.waits || f.2.1.waits },
      if f.2.2.isEmpty then a.2.2 else a.2.2 ++ [{ cluster := j, cidx := k, share := f.2.2 }])) (s, Taken.none, [])

/-- An image cluster placed on a working cluster. -/
def State.placeCluster (s : State) (e : Fin 64) (im : Image) (j : Nat) (xs : List SavedCore) (dst : Fin 64) : State :=
  let s := xs.foldl (fun s x => s.placeShare (coreOf dst x.cidx) im.ctx x.share) s
  let left := im.pending.filter (· != j)
  let s := { s with
    imap := (im.ctx, j, dst) :: s.imap
    images := s.images.filterMap (fun i => if i.ctx == im.ctx then (if left.isEmpty then none else some { i with pending := left }) else some i) }
  let s := if left.isEmpty then s.setCtxState e 0 else s
  if (List.range 4).any (fun k => s.cores[coreOf dst k].gated) then s.soon (.clusterUngate dst) else s

/-- Room asked for on a cluster held only by contexts of lower PRIO (R416, R418). -/
def State.demandCluster (s : State) (j : Fin 64) (ctx : BitVec 12) (xs : List SavedCore) : State :=
  xs.foldl (fun s x => s.demandOn (coreOf j x.cidx)
    { ctx := ctx, nslot := x.share.strs.length, ngran := x.share.partBytes / 0x30000, nreg := (x.share.strs.map (·.2.needs)).sum }) s

/-- The working clusters on which saved cores may be placed now: free of other contexts, or cleared for this one. -/
def State.openClusters (s : State) (ctx : BitVec 12) (xs : List SavedCore) : List (Fin 64) :=
  let mine (t : Fin 64) : Bool := xs.all (fun x => s.cores[coreOf t x.cidx].kept == some ctx)
  (List.finRange 64).filter (fun t => s.clusterFits t ctx xs && (mine t || (s.heldBy t ctx).isEmpty))

/-- CTX_RESTORE_CLUSTER (R418): an image cluster, read from the image, goes onto a free cluster; else room is made on one held only by contexts
of lower PRIO. -/
def execCtxRestoreCluster (s : State) : Res :=
  match s.ev with
  | .ctxRestoreCluster e j =>
    match s.images.find? (fun i => i.ctx == ctabCtx s.ctab[e]) with
    | none => .next s
    | some im =>
      if ctabSt s.ctab[e] != 2 || !im.pending.contains j then .next s
      else
        let s := (allCores.filter (fun c => s.cores[c].kept == some im.ctx)).foldl State.evictStep s
        let r := s.readCluster e im j
        if r.2.1.waits then .next (s.waited r.1)
        else if r.2.1.err ≠ 0 then .next (r.1.soon (.contextFault im.ctx 2))
        else
          let s := r.1
          let xs := r.2.2
          let ok := s.openClusters im.ctx xs
          match ok[Config.choose s.free % max 1 ok.length]? with
          | some t => .next (State.placeCluster { s with free := s.free + 1 } e im j xs t)
          | none =>
            if (List.finRange 64).any (fun t => !xs.isEmpty && xs.all (fun x => s.cores[coreOf t x.cidx].kept == some im.ctx)) then .next s
            else
              match (List.finRange 64).find? (fun t => s.um.clmask.getLsbD t.val && !s.imap.any (fun m => m.1 == im.ctx && m.2.2 == t)
                  && (s.heldBy t im.ctx).all (s.below im.ctx)) with
              | some t => .next (s.demandCluster t im.ctx xs)
              | none => .next s
  | _ => .fault .notThisEvent

-- ## PREEMPT (R416)

/-- A core that PREEMPT may choose: it holds no string of another context with PRIO at or above the incoming one. -/
def State.mayPreempt (s : State) (c : CoreId) (ctx : BitVec 12) : Bool :=
  s.um.clmask.getLsbD (clusterOf c).val && !s.cores[c].stopped
    && s.cores[c].strs.toList.all (fun t => !t.present || t.ctx == ctx
        || (match s.prioOf t.ctx, s.prioOf ctx with | some p, some q => decide (p < q) | _, _ => true))

/-- The cores chosen (R416): those with the fewest evictions; among equals, those that make the most clusters whole. -/
def State.chosenCores (s : State) (n : Nat) (d : Demand) : List CoreId :=
  let cs := (allCores.filter (fun c => s.mayPreempt c d.ctx)).map (fun c => (c, s.evictions c d))
  let limit := ((cs.mergeSort (fun a b => decide (a.2 ≤ b.2)))[n - 1]?).elim 0 (·.2)
  let must := (cs.filter (fun x => decide (x.2 < limit))).map (·.1)
  let may := (cs.filter (fun x => decide (x.2 = limit))).map (·.1)
  let lack (j : Fin 64) : List CoreId := may.filter (fun c => clusterOf c == j)
  let whole := ((List.finRange 64).filter (fun j => ((must ++ may).filter (fun c => clusterOf c == j)).length == 4)).mergeSort
    (fun a b => decide ((lack a).length ≤ (lack b).length))
  let extra := whole.foldl (fun xs j => if must.length + xs.length + (lack j).length ≤ n then xs ++ lack j else xs) []
  (must ++ extra ++ may.filter (fun c => !extra.contains c)).take n

/-- CTX_PREEMPT (R412, R416): accepted, then BUSY until every chosen core has made room. -/
def execCtxPreempt (s : State) : Res :=
  match s.ev with
  | .ctxPreempt e ncore nslot ngran nreg =>
    let finish (s : State) : State := if s.cores.any (fun x => x.demand.isSome) then s.ctxBusy e else s.ctxDone e 0
    if s.ctxstat.getLsbD 63 then .next (finish (allCores.foldl State.evictStep s))
    else if !ctabV s.ctab[e] || (ctabSt s.ctab[e] != 0 && ctabSt s.ctab[e] != 1) then .next (s.ctxDone e 2)
    else if ncore = 0 || decide (256 < ncore) || decide (16 < nslot) || decide (16 < ngran) || decide (4096 < nreg) then .next (s.ctxDone e 6)
    else
      let d : Demand := { ctx := ctabCtx s.ctab[e], nslot := nslot, ngran := ngran, nreg := nreg }
      let cs := s.chosenCores ncore d
      if cs.length < ncore then .next (s.ctxDone e 7)
      else .next (finish (allCores.foldl State.evictStep (cs.foldl (fun s c => s.demandOn c d) s)))
  | _ => .fault .notThisEvent

end Sys2Proof.Machine
end

