-- ==== Sys2Proof/Machine/Control.lean ====
section
/-!
DEFINITION. The control-flow group, majors 0xA0 to 0xA2 (spec/14 R373, R374, R390, R391).
-/
namespace Sys2Proof.Machine
open Sys2Proof

/-- The target of an I-form branch: its own address plus 8 × imm (R390). -/
def State.target (s : State) (imm : W32) : W64 := s.sp.pc + ((imm.signExtend 64) <<< 3)

/-- PC at a taken branch's target, which is entered when the split next issues (R391). -/
def State.jump (s : State) (t : W64) : State := s.modSp (fun x => { x with pc := t, enter := true })

/-- A conditional branch (R390, R391). -/
def State.branchIf (s : State) (c : Bool) (imm : W32) : Res := .next (if c then s.jump (s.target imm) else s.adv 1)

/-- An address in the form that the split's fetches need (R84, R86). -/
def okTarget (w : Who) (t : W64) : Bool := if w.untranslated then decide (t.toNat < 2 ^ 48) else canonical t

/-- A branch to a register's value after the checks of R391; `k` is done only if they pass. -/
def State.jumpReg (s : State) (t : W64) (k : State → State) : Res :=
  if !okTarget s.who t then .next (s.trapAll 16 t)
  else if t.toNat % 8 != 0 then .next (s.trapAll 5 t)
  else .next ((k s).jump t)

/-- Branch (R390). -/
def execBr (imm : W32) (s : State) : Res := .next (s.jump (s.target imm))

/-- Branch if sA ≠ 0 (R390). -/
def execBnz (a : SReg) (imm : W32) (s : State) : Res := s.branchIf (s.getS a != 0) imm

/-- Branch if sA = 0 (R390). -/
def execBz (a : SReg) (imm : W32) (s : State) : Res := s.branchIf (s.getS a == 0) imm

/-- Branch if E AND kA ≠ 0 (R390). -/
def execBany (a : KReg) (imm : W32) (s : State) : Res := s.branchIf (s.active a != 0) imm

/-- Branch if E AND kA = E (R390). -/
def execBall (a : KReg) (imm : W32) (s : State) : Res := s.branchIf (s.active a == s.sp.e) imm

/-- Branch if E AND kA = 0 (R390). -/
def execBnone (a : KReg) (imm : W32) (s : State) : Res := s.branchIf (s.active a == 0) imm

/-- The check of RECONV when a branch divides (R157): the cause and STVAL of a failure, or a wait. -/
def State.checkReconv (s : State) : State × XRes Unit × W64 :=
  let x := s.sp
  if !hdrHasReconv x.hdr then (s, .ok (), 0)
  else
    let pc := x.blk + hdrReconv x.hdr
    let r := s.fetch64 s.who pc
    match r.2 with
    | .ok h =>
      match hdrFail x.mode pc h with
      | some (c, tv) => (r.1, .fail 0 c, tv)
      | none => (r.1, .ok (), 0)
    | .fail o c => (r.1, .fail o c, pc)
    | .sleep a => (r.1, .sleep a, pc)
    | .hold => (r.1, .hold, pc)

/-- The issuing split divided: E = N falls through, E = T takes a free slot at the target (R373). -/
def State.divide (s : State) (j : SplitId) (t n : Mask) (target : W64) : State :=
  s.modMe (fun u =>
    let x := u.splits[s.cur.split]
    let y : Split := { x with pc := target, m := t, e := t, stack := [], pf := x.pf.filter (fun l => t.has l), enter := true,
                              wait := .none, starve := 0 }
    let x := { x with m := n, e := n, pc := x.pc + 8, pf := x.pf.filter (fun l => !t.has l) }
    { u with splits := (u.splits.set s.cur.split x).set j y })

/-- The issuing split pushed under its stack (R374): E = N goes on with the next word. -/
def State.pushStack (s : State) (t n : Mask) (target : W64) : State :=
  s.modSp (fun x =>
    { x with stack := { rpc := x.blk + hdrReconv x.hdr, rmask := x.e, ppc := target, pmask := t } :: x.stack
             e := n, pc := x.pc + 8 })

/-- `bdiv` (R373, R374). -/
def execBdiv (a : KReg) (imm : W32) (s : State) : Res :=
  let t := s.active a
  let n := s.sp.e &&& ~~~(s.getK a)
  let target := s.target imm
  if n = 0 then .next (s.jump target)
  else if t = 0 then .next (s.adv 1)
  else
    let r := s.checkReconv
    match r.2.1 with
    | .ok () =>
      let s := r.1
      let free := s.me.freeSlot
      match free, s.sp.stack with
      | some j, [] => .next (s.divide j t n target)
      | _, st =>
        if !hdrHasReconv s.sp.hdr then .next (s.trapAll 8 0)
        else if 8 ≤ st.length then .next (s.trapAll 9 0)
        else .next (s.pushStack t n target)
    | .fail _ c => .next (r.1.trapAll c r.2.2)
    | .sleep ag => .next (r.1.sleepOn ag r.1.sp.e r.2.2)
    | .hold => .next r.1.holdMe

/-- sD = own address + 8; branch (R390). -/
def execCall (d : SReg) (imm : W32) (s : State) : Res := .next ((s.setS d (s.sp.pc + 8)).jump (s.target imm))

/-- Branch to sA (R390, R391). -/
def execRet (a : SReg) (s : State) : Res := s.jumpReg (s.getS a) id

/-- sD = own address + 8; branch to sA read before the write (R390, R391). -/
def execCallr (d a : SReg) (s : State) : Res := s.jumpReg (s.getS a) (fun s => s.setS d (s.sp.pc + 8))

/-- Branch to sA (R390, R391). -/
def execJmpr (a : SReg) (s : State) : Res := s.jumpReg (s.getS a) id

/-- kD = E (R390). -/
def execSpmask (d : KReg) (s : State) : Res := .next ((s.setK d s.sp.e).adv 1)

end Sys2Proof.Machine
end

