-- ==== Sys2Proof/Machine/Convert.lean ====
section
/-!
DEFINITION. Conversions, majors 0x44 to 0x46 (spec/07 R197 to R199).
-/
namespace Sys2Proof.Machine
open Sys2Proof

/-- The elements of a conversion: the first element of D, how many are converted, and the first element of A (R197). -/
def cvtGroup (ns nd p : Nat) : Nat × Nat × Nat := if nd ≤ ns then (0, nd, p * nd) else (p * ns, ns, 0)

/-- A conversion of the group `part` by `f` (R197). -/
def State.cvt (s : State) (g : KReg) (dt st : Ty) (m : Rnd) (part : BitVec 3) (d a : VReg) (f : W32 → BitVec st.width → FRes) :
    State :=
  let q := cvtGroup st.elems dt.elems part.toNat
  s.fElems g m dt q.1 q.2.1 d (fun l i r => f r (elemAt st (s.opnd st a l) (q.2.2 + i)))

/-- Float to float (R197). -/
def execFcvtFf (g : KReg) (dt st : Ty) (m : Rnd) (sat : Bool) (part : BitVec 3) (d a : VReg) (s : State) : Res :=
  s.vec (.fcvtFf g dt st m sat part d a) (fun s =>
    s.cvt g dt st m part d a (fun r x => fpCvtFf dt st m sat s.me.fz r x.toNat))

/-- Float to integer (R197, R28). -/
def execFcvtFi (g : KReg) (dt st : Ty) (m : Rnd) (sat : Bool) (part : BitVec 3) (d a : VReg) (s : State) : Res :=
  s.vec (.fcvtFi g dt st m sat part d a) (fun s =>
    s.cvt g dt st m part d a (fun r x => fpCvtFi dt st m s.me.fz r x.toNat))

/-- Integer to float (R197, R28). -/
def execFcvtIf (g : KReg) (dt st : Ty) (m : Rnd) (sat : Bool) (part : BitVec 3) (d a : VReg) (s : State) : Res :=
  s.vec (.fcvtIf g dt st m sat part d a) (fun s =>
    s.cvt g dt st m part d a (fun r x => fpCvtIf dt m sat s.me.fz r (intOf st x)))

/-- FP32 values packed into narrow elements: two of 16 bits, or the four of two pairs (R198). -/
def execFpack (g : KReg) (dt : Ty) (m : Rnd) (sat : Bool) (d a b : VReg) (s : State) : Res :=
  s.vec (.fpack g dt m sat d a b) (fun s =>
    let src (i : Nat) : VReg :=
      if dt.width = 8 then (if i < 2 then VReg.plus a i else VReg.plus b (i - 2)) else (if i = 0 then a else b)
    s.fElems g m dt 0 dt.elems d (fun l i r => fpCvtFf dt .f32 m sat s.me.fz r (s.getV (src i) l).toNat))

/-- Elements 2p and 2p + 1 of A widened to FP32, FZ ignored (R198). -/
def execFunpack (g : KReg) (st : Ty) (part : BitVec 3) (d a : VReg) (s : State) : Res :=
  s.vec (.funpack g st part d a) (fun s =>
    let r (l i : Nat) := fpCvtFf .f32 st .rn false false 0 (elemAt st ((s.getV a l).setWidth 64) (2 * part.toNat + i)).toNat
    let act := s.active g
    let fl := act.lanes.foldl (fun f l => f ||| (r l 0).2 ||| (r l 1).2) (0 : Flags)
    ((((s.put1 d act (fun l => BitVec.ofNat 32 (r l 0).1)).put1 (VReg.plus d 1) act
      (fun l => BitVec.ofNat 32 (r l 1).1)).stage fl).adv 1))

/-- The register image of a block (R199): lane l of the element plane, and the scale entry on lane 8. -/
def blockImage (t : Ty) (b : Block) (l : Nat) : W32 :=
  let n := if t == .b4 then 4 else 8
  if l < n then
    BitVec.ofNat 32 (packCodes t.width b.codes / 2 ^ (32 * l))
  else if l = 8 then b.S.setWidth 32 ||| (if t == .b4 then b.P.setWidth 32 <<< 8 else 0)
  else 0

/-- 32 lanes quantised into a block's image (R199, R32). With `.rs` the draws come from the lowest active lane. -/
def execQblk (g : KReg) (t : Ty) (m : Rnd) (d a : VReg) (s : State) : Res :=
  s.vec (.qblk g t m d a) (fun s =>
    let act := s.active g
    match act.lanes with
    | [] => s.adv 1
    | low :: _ =>
      let xs := (List.range 32).map (fun j => fIn .f32 s.me.fz (s.getV a j).toNat)
      let q := quantise t m (s.rand m low 32) xs
      ((((s.drawn m (Mask.ofLanes [low]) 32).put1 d act (blockImage t q.1)).stage q.2).adv 1))

/-- Element j of a block's image on lane j of each active lane (R199, R33). -/
def execDqblk (g : KReg) (t : Ty) (d a : VReg) (s : State) : Res :=
  s.vec (.dqblk g t d a) (fun s =>
    let S : Byte := (s.getV a 8).extractLsb' 0 8
    let P : Byte := if t == .b4 then (s.getV a 8).extractLsb' 8 8 else 0
    let code (j : Nat) : Nat := (s.getV a (j * t.width / 32)).toNat / 2 ^ (j * t.width % 32) % 2 ^ t.width
    let r (j : Nat) := Ty.f32.deliver .rn false s.me.fz 0 (blockVal t S P (code j))
    let act := s.active g
    ((s.put1 d act (fun l => BitVec.ofNat 32 (r l).1)).stage
      (act.lanes.foldl (fun f l => f ||| (r l).2) 0)).adv 1)

end Sys2Proof.Machine
end

