-- ==== Sys2Proof/Machine/Float.lean ====
section
/-!
DEFINITION. The floating groups, majors 0x40 to 0x43 (spec/07 R191 to R196).
-/
namespace Sys2Proof.Machine
open Sys2Proof

/-- A + B (R192). -/
def execFadd (g : KReg) (t : Ty) (m : Rnd) (d a b : VReg) (s : State) : Res :=
  s.vec (.fadd g t m d a b) (fun s => s.fBin g t m d a b (fun fz r x y => fpAdd t m fz false r x y))

/-- A − B (R192). -/
def execFsub (g : KReg) (t : Ty) (m : Rnd) (d a b : VReg) (s : State) : Res :=
  s.vec (.fsub g t m d a b) (fun s => s.fBin g t m d a b (fun fz r x y => fpAdd t m fz true r x y))

/-- A × B (R192). -/
def execFmul (g : KReg) (t : Ty) (m : Rnd) (d a b : VReg) (s : State) : Res :=
  s.vec (.fmul g t m d a b) (fun s => s.fBin g t m d a b (fun fz r x y => fpMul t m fz r x y))

/-- A / B (R192). -/
def execFdiv (g : KReg) (t : Ty) (m : Rnd) (d a b : VReg) (s : State) : Res :=
  s.vec (.fdiv g t m d a b) (fun s => s.fBin g t m d a b (fun fz r x y => fpDiv t m fz r x y))

/-- The lesser operand (R193). -/
def execFmin (g : KReg) (t : Ty) (d a b : VReg) (s : State) : Res :=
  s.vec (.fmin g t d a b) (fun s => s.fBin g t .rn d a b (fun fz _ x y => fpMinMax t fz false x y))

/-- The greater operand (R193). -/
def execFmax (g : KReg) (t : Ty) (d a b : VReg) (s : State) : Res :=
  s.vec (.fmax g t d a b) (fun s => s.fBin g t .rn d a b (fun fz _ x y => fpMinMax t fz true x y))

/-- √A (R192). -/
def execFsqrt (g : KReg) (t : Ty) (m : Rnd) (d a : VReg) (s : State) : Res :=
  s.vec (.fsqrt g t m d a) (fun s => s.fUn g t m d a (fun fz r x => fpSqrt t m fz r x))

/-- |A| (R192). -/
def execFabs (g : KReg) (t : Ty) (d a : VReg) (s : State) : Res :=
  s.vec (.fabs g t d a) (fun s => s.fUn g t .rn d a (fun _ _ x => fpAbs t x))

/-- −A (R192). -/
def execFneg (g : KReg) (t : Ty) (d a : VReg) (s : State) : Res :=
  s.vec (.fneg g t d a) (fun s => s.fUn g t .rn d a (fun _ _ x => fpNeg t x))

/-- A × B + C, rounded once (R194). -/
def execFfma (g : KReg) (t : Ty) (m : Rnd) (d a b c : VReg) (s : State) : Res :=
  s.vec (.ffma g t m d a b c) (fun s => s.fTern g t m d a b c (fun fz r x y z => fpFma t m fz false false r x y z))

/-- A × B − C, rounded once (R194). -/
def execFfms (g : KReg) (t : Ty) (m : Rnd) (d a b c : VReg) (s : State) : Res :=
  s.vec (.ffms g t m d a b c) (fun s => s.fTern g t m d a b c (fun fz r x y z => fpFma t m fz false true r x y z))

/-- −(A × B) − C, rounded once (R194). -/
def execFfnma (g : KReg) (t : Ty) (m : Rnd) (d a b c : VReg) (s : State) : Res :=
  s.vec (.ffnma g t m d a b c) (fun s => s.fTern g t m d a b c (fun fz r x y z => fpFma t m fz true true r x y z))

/-- −(A × B) + C, rounded once (R194). -/
def execFfnms (g : KReg) (t : Ty) (m : Rnd) (d a b c : VReg) (s : State) : Res :=
  s.vec (.ffnms g t m d a b c) (fun s => s.fTern g t m d a b c (fun fz r x y z => fpFma t m fz true false r x y z))

/-- 1 / A within the bound of R195. -/
def execFrcp (g : KReg) (t : Ty) (d a : VReg) (s : State) : Res :=
  s.vec (.frcp g t d a) (fun s => s.fUn g t .rn d a (fun fz _ x => fpApprox rcp32 t fz x))

/-- 1 / √A within the bound of R195. -/
def execFrsq (g : KReg) (t : Ty) (d a : VReg) (s : State) : Res :=
  s.vec (.frsq g t d a) (fun s => s.fUn g t .rn d a (fun fz _ x => fpApprox rsq32 t fz x))

/-- 2^A within the bound of R195. -/
def execFexp2 (g : KReg) (t : Ty) (d a : VReg) (s : State) : Res :=
  s.vec (.fexp2 g t d a) (fun s => s.fUn g t .rn d a (fun fz _ x => fpApprox exp232 t fz x))

/-- log2 A within the bound of R195. -/
def execFlog2 (g : KReg) (t : Ty) (d a : VReg) (s : State) : Res :=
  s.vec (.flog2 g t d a) (fun s => s.fUn g t .rn d a (fun fz _ x => fpApprox log232 t fz x))

/-- Bit l of kD is the relation between A and B on each active lane l (R196). -/
def execFcmp (g : KReg) (cc : Cc) (d : KReg) (a b : VReg) (s : State) : Res :=
  s.vec (.fcmp g cc d a b) (fun s =>
    let r (l : Nat) := fpCmp cc s.me.fz (s.getV a l).toNat (s.getV b l).toNat
    ((s.vRel g d (fun l => (r l).1)).stage ((s.active g).lanes.foldl (fun f l => f ||| (r l).2) 0)).adv 1)

/-- The class of each element (R196). -/
def execFclass (g : KReg) (t : Ty) (d a : VReg) (s : State) : Res :=
  s.vec (.fclass g t d a) (fun s => s.fUn g t .rn d a (fun _ _ x => (fpClass t x, 0)))

end Sys2Proof.Machine
end

