-- ==== Sys2Proof/Machine/Homes.lean ====
section
/-!
DEFINITION. The steps of the slices, the homes, the links and the memory dies (spec/03 R59 to R83, R459; spec/10 R266 to R276; spec/05
R117, R120; spec/15 R408).
-/
namespace Sys2Proof.Machine
open Sys2Proof

-- ## L2 slices and leases (R65 to R69)

/-- The compute die of an agent. -/
def agentDie (a : AgentId) : Option (Fin 8) := if h : a.val < 8 then some ⟨a.val, h⟩ else none

/-- Every operation of some stores that waits nowhere any more is complete (R68). -/
def State.opsDone (s : State) (ps : List PStore) : State :=
  ps.foldl (fun s p => if s.pend.any (fun q => q.uid == p.uid && q.op == p.op) then s else s.opDone p.core p.uid p.op) s

/-- A store writes all 128 bytes of its line. -/
def PStore.full (p : PStore) : Bool := decide (((p.cells.map (·.1)).eraseDups).length = 128)

/-- The waiting stores of a line at a die's slice performed one after another, each string's in issue order (R68, R284). Of stores to a line that has
become poisoned meanwhile, those before the first that writes all 128 bytes are lost with its contents (R81; log 82). -/
def State.performPend (s : State) (d : Fin 8) (line : Nat) : State :=
  let ps := s.pend.filter (fun p => p.die == d && p.line == line)
  let rest (s : State) : State := { s with pend := s.pend.filter (fun p => !(p.die == d && p.line == line)) }
  match if s.poisoned line then ps.dropWhile (fun p => !p.full) else ps with
  | [] => (rest s).opsDone ps
  | p :: kept =>
    let r := s.ownLine p.core { llcOnly := p.bank, noL1 := false, isSealed := false } p.full line
    match r.2 with
    | .ok => (kept.foldl (fun s q => s.perform q.cells) (((rest r.1).unpoison (agentOf d) p.bank p.cells).perform p.cells)).opsDone ps
    | .poison => (rest r.1).opsDone ps
    | .sleep a => r.1.homeWake a p.core line
    | .hold => r.1

/-- L2_WAITING_STORE_PERFORM (R68): once no lease on the line is left. -/
def execL2WaitingStorePerform (s : State) : Res :=
  match s.ev with
  | .l2WaitingStorePerform a line =>
    match agentDie a with
    | some d => .next (if s.leaseOn line = 0 then s.performPend d line else s)
    | none => .next s
  | _ => .fault .notThisEvent

/-- L1_LEASE_EXPIRY (R67). -/
def execL1LeaseExpiry (s : State) : Res :=
  match s.ev with
  | .l1LeaseExpiry c line =>
    .next { s with l1 := s.l1.filter (fun e => !(e.core == c && e.line == line &&
      (match e.exp with | some x => decide (x ≤ s.ptime + 2) | none => false))) }
  | _ => .fault .notThisEvent

/-- L2_VICTIM_EVICT (R69, R75, R271): an EX line is written back, a partial is sent to the home, an SH line is dropped silently. -/
def execL2VictimEvict (s : State) : Res :=
  match s.ev with
  | .l2VictimEvict a line =>
    match s.l2Get a line with
    | some e =>
      if s.mayGiveUp e then
        let s' := s.l2Drop a line
        let data := if e.st == .exDirty then s.peekN (line * 128) 128 else []
        .next (if e.st == .shared then s' else s'.soon (.homeWriteback line a s.inc[a] false data))
      else .next s
    | none =>
      match agentDie a with
      | some d =>
        .next (if s.partials.any (fun p => p.agent == d && p.line == line) then s.soon (.partialWriteback d line s.inc[a]) else s)
      | none => .next s
  | _ => .fault .notThisEvent

-- ## The home (R75, R217)

/-- A message of an agent with an old incarnation, or of a dead agent, is dropped and logged (R72, R75, R78). -/
def State.stale (s : State) (a : AgentId) (i : BitVec 16) : Bool := i != s.inc[a] || s.deadAgents.contains a

/-- A core of an agent's die, for the messages that an agent's request makes the home hold (R79). -/
def repCore (a : AgentId) : CoreId := ⟨a.val % 8 * 32, by omega⟩

/-- A line of which no L2 holds a copy: of a view, of a bank page or of a bank-local region (R61, R285). -/
def State.noCopy (s : State) (line : Nat) : Bool := s.isPlane line || s.bankAt (s.linePa line) line

/-- A read of a line that is served at its home: view bytes by R289, as an engine's read. -/
def State.serveHere (s : State) (line : Nat) (a : AgentId) : State :=
  ((s.allocLlc line).viewLocs (engReader (repCore a) (line * 128)) true ((List.range 128).map (line * 128 + ·))).1

/-- A range's line combined for an agent's request (R270); one that its range has not taken yet is read as before (R274). -/
def State.readHere (s : State) (line : Nat) (a : AgentId) : State :=
  match (s.rangeOf line).filter (fun q => !s.notYetCm q line) with
  | some q => (s.combine q.fmt line).1
  | none =>
    if s.noCopy line then s.serveHere line a
    else
      let q := if (s.l2Get a line).isSome then some s else s.l2Room a line
      match q with
      | none => s
      | some t =>
        let r := t.homeRead line a
        match r.2 with | .wait x => r.1.homeWake x (repCore a) line | _ => r.1

/-- HOME_READ_REQUEST (R75, R270, R285). -/
def execHomeReadRequest (s : State) : Res :=
  match s.ev with
  | .homeReadRequest line a i => .next (if s.stale a i then s.logErr 3 a (s.linePa line) else s.readHere line a)
  | _ => .fault .notThisEvent

/-- An own request of an agent at its home (R75, R81): the other holders answer once their leases let them (R69). A line of a range, a view
or a bank page is not granted (R61, R232, R285), and a master line stays with its home (R284). -/
def State.ownHere (s : State) (line : Nat) (a : AgentId) (full : List Byte) : State :=
  if (s.rangeOf line).isSome || s.noCopy line then s
  else
    let room := if (s.l2Get a line).isSome || s.isMaster line then some s else s.l2Room a line
    match room with
    | none => s
    | some t =>
      let r := t.homeOwn line a (full.length == 128)
      match r.2 with
      | .ok => if s.poisoned line then r.1.pokeN (line * 128) full else r.1
      | .wait x => r.1.homeWake x (repCore a) line
      | _ => r.1

/-- HOME_OWN_REQUEST (R75, R81). -/
def execHomeOwnRequest (s : State) : Res :=
  match s.ev with
  | .homeOwnRequest line a i full => .next (if s.stale a i then s.logErr 3 a (s.linePa line) else s.ownHere line a full)
  | _ => .fault .notThisEvent

/-- HOME_WRITEBACK (R75, R78, R82). -/
def execHomeWriteback (s : State) : Res :=
  match s.ev with
  | .homeWriteback line a i poisoned data =>
    if s.stale a i then .next (s.logErr 3 a (s.linePa line))
    else if poisoned then .next (s.poison line .uncorrected)
    else
      let s := if s.poisoned line || data.isEmpty then s else (s.pokeN (line * 128) (data.take 128)).homeWritten line false
      .next (((s.l2Drop a line).dirDel line).metaClear line)
  | _ => .fault .notThisEvent

/-- An atomic performed at the home of a location (R217): the line is taken back from every L2 first. -/
def State.homeAmo (s : State) (op : AmoOp) (t : Ty) (loc : Nat) (b c : W64) : State :=
  let line := lineOf loc
  if s.isPlane line || (s.rangeOf line).isSome || s.lineSealed line then s
  else if !s.lineFree line then s.closeLine line
  else
    let r := s.homeTake line
    match r.2 with
    | .ok =>
      let n := amoBytes t
      let old := le64 (r.1.peekN loc n ++ List.replicate (8 - n) 0)
      (r.1.perform (cellsAt loc (leBytes n (amoNew op t old b c).toNat))).homeWritten line false
    | .wait a => r.1.homeWake a (repCore a) line
    | _ => r.1

/-- HOME_ATOMIC (R217). -/
def execHomeAtomic (s : State) : Res :=
  match s.ev with
  | .homeAtomic op t loc b c => .next (s.homeAmo op t loc b c)
  | _ => .fault .notThisEvent

/-- DISCOVER (R76) of a line whose entry was dropped. -/
def execDiscover (s : State) : Res :=
  match s.ev with
  | .discover line =>
    if (s.dirGet line).isNone && (s.metaGet line).isSome then
      let r := s.discover line
      .next (match r.2.2 with | .wait a => s.homeWake a (repCore a) line | _ => r.1)
    else .next s
  | _ => .fault .notThisEvent

/-- AGENT_PROBE_ANSWER (R69, R75): an invalidation makes the agent give the line up; a fetch leaves it with SH. A stale answer is dropped and
logged (R78). -/
def execAgentProbeAnswer (s : State) : Res :=
  match s.ev with
  | .agentProbeAnswer a line inval i =>
    if s.stale a i then .next (s.logErr 3 a (s.linePa line))
    else match s.l2Get a line with
    | some e =>
      if !s.mayGiveUp e || s.asleep.contains a then .next s
      else if inval then .next (s.evictL2 e)
      else if e.st == .shared then .next s
      else .next (((if e.st == .exDirty then s.llcTouch line true else s).l2Set a line .shared).dirSet line (.sh (agentBit a)))
    | none => .next s
  | _ => .fault .notThisEvent

-- ## Links and agents (R72, R77, R79)

/-- LINK_UP (R79): the held messages are delivered. -/
def execLinkUp (s : State) : Res :=
  match s.ev with
  | .linkUp a =>
    .next { s with asleep := s.asleep.filter (· != a), held := s.held.filter (fun h => h.agent != a)
                   silent := s.silent.filter (fun x => x.1 != a) }
  | _ => .fault .notThisEvent

/-- Some lanes of a string trap at their split's PC with a cause that an answer brings (R79, R432). -/
def State.answerTrap (s : State) (c : CoreId) (k : SlotId) (lanes : Mask) (code : Nat) (va : W64) : State :=
  let t := s.strAt c k
  match t.slotted.find? (fun j => (t.splits[j].e &&& lanes) != 0) with
  | some j =>
    let m := t.splits[j].e &&& lanes
    -- an instruction that traps on all its lanes is counted anew when it is replayed (R102)
    let s := if m == t.splits[j].e then { s with counted := s.counted.filter (fun x => x.1 != { core := c, slot := k, split := j }) } else s
    s.asSplit { core := c, slot := k, split := j } (fun s =>
      s.trapHere (m.lanes.map (fun l => { lane := l, code := code, tval := va })))
  | none => s

/-- The wake bound (R79): 4 µs. -/
def wakeBound : Nat := 4000

/-- The home's own message to an agent, which it keeps trying to deliver after the bound has passed (R79). -/
def homeProbe (a : AgentId) (since : Nat) : HeldMsg :=
  { agent := a, core := repCore a, slot := 0, lanes := 0, va := BitVec.allOnes 64, since := since, late := true }

/-- LINK_WAKE_TIMEOUT (R79): once the first request has waited for the bound, each request that waits on the agent is answered; the home
keeps trying to deliver its message. -/
def execLinkWakeTimeout (s : State) : Res :=
  match s.ev with
  | .linkWakeTimeout a =>
    let hs := s.held.filter (fun h => h.agent == a && !h.late)
    if !hs.any (fun h => decide (h.since + wakeBound ≤ s.ptime)) || !s.asleep.contains a then .next s
    else
      let first := (hs.map (·.since)).foldl min s.ptime
      let s := { s with
        silent := if s.silent.any (fun x => x.1 == a) then s.silent else (a, first) :: s.silent
        held := homeProbe a first :: ((s.held.filter (fun (h : HeldMsg) => !(h.agent == a && (h.lanes != 0 || h.va == BitVec.allOnes 64)))).map
          (fun (h : HeldMsg) => if h.agent == a then { h with late := true } else h)) }
      .next (hs.foldl (fun s h => if h.lanes = 0 then s else s.answerTrap h.core h.slot h.lanes 24 h.va) (s.logErr 4 a 0))
  | _ => .fault .notThisEvent

/-- R77: the agent removed at every home, the lines that it alone held poisoned. -/
def State.purgeAgent (s : State) (a : AgentId) : State :=
  let bit := agentBit a
  let owned := s.dir.filterMap (fun e => match e.2 with
    | .ex o => if o = a then some e.1 else none
    | .cm m => if (m &&& bit) != 0 then some e.1 else none
    | .sh _ => none)
  let drop (d : DState) : DState := match d with | .sh m => .sh (m &&& ~~~bit) | .cm m => .cm (m &&& ~~~bit) | .ex o => .ex o
  let mine (c : CoreId) : Bool := agentOf (dieOf c) == a
  let s := { s with
    dir := (s.dir.map (fun e => (e.1, drop e.2))).filter (fun e => match e.2 with | .sh m => m != 0 | _ => true)
    l2 := s.l2.filter (fun e => e.agent != a)
    l1 := s.l1.filter (fun e => !mine e.core)
    pend := s.pend.filter (fun p => agentOf p.die != a)
    held := s.held.filter (fun h => h.agent != a && !mine h.core)
    silent := s.silent.filter (fun x => x.1 != a)
    partials := s.partials.filter (fun p => agentOf p.agent != a) }
  owned.foldl (fun s l => s.poison l .agentGone) s

/-- Contexts that hold a string or a partition on a core of an agent's die take the fault of kind 4 (R409). -/
def State.faultDie (s : State) (a : AgentId) : State :=
  let cs := allCores.filter (fun c => agentOf (dieOf c) == a)
  let ctxs := (cs.flatMap (fun c =>
    (allSlots.filter (fun k => (s.strAt c k).present)).map (fun k => (s.strAt c k).ctx) ++ (s.cores[c].parts.map (·.ctx))
      ++ s.cores[c].spilled.map (fun p => p.str.ctx))).eraseDups
  ctxs.foldl (fun s x => s.soon (.contextFault x 4)) s

/-- The incarnation raised by one (R72). -/
def State.raiseInc (s : State) (a : AgentId) : State :=
  { s with inc := s.inc.set a (if s.inc[a].toNat < 15 then s.inc[a] + 1 else s.inc[a]) }

/-- An agent stays dead once its incarnation has reached 15 (R72). -/
def State.worn (s : State) (a : AgentId) : Bool := decide (15 ≤ s.inc[a].toNat)

/-- AGENT_DECLARED_DEAD (R79): 2 ms after the first unanswered message. -/
def execAgentDeclaredDead (s : State) : Res :=
  match s.ev with
  | .agentDeclaredDead a =>
    if s.silent.any (fun x => x.1 == a && decide (x.2 + 2000000 ≤ s.ptime)) && !s.deadAgents.contains a then
      let s := State.raiseInc { s with deadAgents := a :: s.deadAgents, naeshDown := s.naeshDown || a == 8 } a
      .next (((s.logErr 5 a 0).purgeAgent a).faultDie a)
    else .next s
  | _ => .fault .notThisEvent

/-- AGENT_RESET (R72, R77): the agent serves again with a new incarnation, unless that has reached 15. -/
def State.resetAgent (s : State) (a : AgentId) : State :=
  let s := if s.worn a then s else s.raiseInc a
  let s := { s with deadAgents := if s.worn a then (if s.deadAgents.contains a then s.deadAgents else a :: s.deadAgents)
                                  else s.deadAgents.filter (· != a)
                    asleep := s.asleep.filter (· != a) }
  (s.purgeAgent a).faultDie a

/-- AGENT_RESET. -/
def execAgentReset (s : State) : Res :=
  match s.ev with
  | .agentReset a => .next (s.resetAgent a)
  | _ => .fault .notThisEvent

-- ## Errors (R80, R82, R83, R276, R408)

/-- DIRECTORY_ECC_ERROR (R80): the entry is discarded and discovered anew, now or when every agent can be reached; a range's line finds the
holders of its partials. -/
def execDirectoryEccError (s : State) : Res :=
  match s.ev with
  | .directoryEccError line =>
    let s0 := s.logErr 1 0 (s.linePa line)
    match s.rangeOf line with
    | some _ =>
      let m := (s.partials.filter (fun p => p.line == line)).foldl (fun m p => m ||| agentBit (agentOf p.agent)) 0#10
      .next (s0.dirPut line (.cm m))
    | none =>
      let s0 : State := { s0.dirDel line with lost := if s.lost.contains line then s.lost else line :: s.lost }
      let r := s0.discover line
      .next (match r.2.2 with | .wait a => s0.homeWake a (repCore a) line | _ => r.1)
  | _ => .fault .notThisEvent

/-- The base of a memory die's direct window (R43). -/
def dieBase (d : DieId) : Nat := 0x100000000000 + d.val * 2 ^ 36

/-- A corrected error counted at a die (R83, R452). -/
def State.countCorrected (s : State) (d : DieId) : State :=
  if s.corr[d] < 0xFFFF then { s with corr := s.corr.set d (s.corr[d] + 1) }
  else State.logErr { s with corr := s.corr.set d 0 } 9 0 (dieBase d)

/-- A core's scratchpad word poisoned (R408). -/
def State.poisonScr (s : State) (c : CoreId) (word : Nat) : State :=
  let k := scrKey c 0 / 8 + word % 2 ^ 19
  { s with scrPz := if s.scrPz.contains k then s.scrPz else k :: s.scrPz }

/-- ECC_ERROR (R82, R408). -/
def execEccError (s : State) : Res :=
  match s.ev with
  | .eccError site =>
    .next (match site with
      | .corrected d => s.countCorrected d
      | .l1 c line => { s with l1 := s.l1.filter (fun e => !(e.core == c && e.line == line)) }
      | .l2 a line =>
        match s.l2Get a line with
        | some e =>
          let s := s.logErr 1 a (s.linePa line)
          if e.st == .exDirty then s.poison line else s.evictL2 e
        | none => s
      | .home line => (s.logErr 1 0 (s.linePa line)).poison line
      | .metadata line => (s.logErr 1 0 (s.linePa line)).poison line
      | .scratch c w => s.poisonScr c w
      | .string c k => if (s.strAt c k).present then s.soon (.contextFault (s.strAt c k).ctx 3) else s
      | .serai c i =>
        match s.cores[c].serai[i]? with
        | some e => (s.modCore c (fun x => { x with serai := x.serai.eraseIdx i })).soon (.contextFault e.ctx 5)
        | none => s
      | .partialSum a line => if s.partials.any (fun p => agentOf p.agent == a && p.line == line) then (s.logErr 1 a (s.linePa line)).poison line else s)
  | _ => .fault .notThisEvent

-- ## Memory dies (R59, R60, R459, R312)

/-- A place homed on a memory die. -/
def placeOn (d : DieId) (p : Place) : Bool := match p with | .mem l => homeOf (lineOf l) == some d | .scr _ _ => false

/-- Splits that wait on a barrier of the die issue again, to trap (R459). -/
def Split.unwait (d : DieId) (x : Split) : Split :=
  match x.wait with | .barrier p _ => if placeOn d p then { x with wait := .none } else x | _ => x

/-- MEMORY_DIE_DEAD (R459, R312). -/
def State.killDie (s : State) (d : DieId) : State :=
  let on (line : Nat) : Bool := homeOf line == some d
  let gone := s.pend.filter (fun p => on p.line)
  let s := { s with
    deadDies := d :: s.deadDies
    dir := s.dir.filter (fun e => !on e.1), metas := s.metas.filter (fun m => !on m.line), llc := s.llc.filter (fun l => !on l.line)
    l2 := s.l2.filter (fun e => !on e.line), partials := s.partials.filter (fun p => !on p.line)
    pend := s.pend.filter (fun p => !on p.line), pchq := s.pchq.filter (fun r => r.die != d)
    abaci := s.abaci.map (fun (a : Abacus) =>
      if a.die == d then ({ a with coming := a.coming ++ a.queue ++ (a.run.map AbRun.cmd).toList, queue := [], run := none } : Abacus)
      else a)
    regs := s.regs.filter (fun r => !placeOn d r.1)
    cores := s.cores.map (fun (x : Core) => { x with
      strs := x.strs.map (fun (t : Str) => { t with splits := t.splits.map (Split.unwait d), park := t.park.map (Split.unwait d) })
      spilled := x.spilled.map (fun (p : Spilled) =>
        { p with str := { p.str with splits := p.str.splits.map (Split.unwait d), park := p.str.park.map (Split.unwait d) } }) }) }
  let s := allCores.foldl State.noteSpilled (s.opsDone gone)
  ((List.finRange 12 : List DieId).filter (fun (e : DieId) => s.um.mdie.getLsbD e.val && !s.deadDies.contains e)).foldl (fun s _ => s.logErr 5 15 (dieBase d)) s

/-- MEMORY_DIE_DEAD. -/
def execMemoryDieDead (s : State) : Res :=
  match s.ev with
  | .memoryDieDead d => .next (if s.deadDies.contains d || !s.um.mdie.getLsbD d.val then s else s.killDie d)
  | _ => .fault .notThisEvent

/-- The most core cycles that a request waits for the refresh of its bank: more while the die is hot (R60, R449). -/
def State.refreshBound (s : State) (d : DieId) : Nat := if s.hot.contains d then 400 else 200

/-- The bank of a request is in refresh (R60). -/
def State.inRefresh (s : State) (r : PchReq) : Bool :=
  s.refreshing.any (fun x => x.1 == r.die && x.2.1 == r.pch && x.2.2.1 == r.bank && decide (s.cyc < x.2.2.2))

/-- A request of a pseudo-channel served: its row stands open, and the refresh of its bank is over. -/
def State.servePch (s : State) (r : PchReq) : State :=
  { s with
    pchq := s.pchq.erase r
    rows := (r.die, r.pch, r.bank, r.row) :: s.rows.filter (fun x => !(x.1 == r.die && x.2.1 == r.pch && x.2.2.1 == r.bank))
    refreshing := s.refreshing.filter (fun x => !(x.1 == r.die && x.2.1 == r.pch && x.2.2.1 == r.bank)) }

/-- The requests of a pseudo-channel, oldest first. -/
def State.pchQueue (s : State) (d : DieId) (p : PchId) : List PchReq := s.pchq.filter (fun r => r.die == d && r.pch == p)

/-- The request that has waited 1,024 core cycles, the oldest of them (R60). -/
def State.agedReq (s : State) (d : DieId) (p : PchId) : Option PchReq := (s.pchQueue d p).find? (fun r => decide (r.at_ + 1024 ≤ s.cyc))

/-- The row of a request stands open in its bank. -/
def State.rowHit (s : State) (r : PchReq) : Bool := s.rows.contains (r.die, r.pch, r.bank, r.row)

/-- The request of a pseudo-channel that is served next (R60): an aged one before any younger, else a row hit, else the oldest, of those
whose bank is not in refresh. -/
def State.nextReq (s : State) (d : DieId) (p : PchId) : Option PchReq :=
  match s.agedReq d p with
  | some r => if s.inRefresh r then none else some r
  | none =>
    let q := (s.pchQueue d p).filter (fun r => !s.inRefresh r)
    q.find? s.rowHit <|> q.head?

/-- PCH_REQUEST_SERVE (R60). -/
def execPchRequestServe (s : State) : Res :=
  match s.ev with
  | .pchRequestServe d p =>
    match s.nextReq d p with
    | some r => .next (s.servePch r)
    | none => .next s
  | _ => .fault .notThisEvent

/-- PCH_AGE_LIMIT (R60). -/
def execPchAgeLimit (s : State) : Res :=
  match s.ev with
  | .pchAgeLimit d p =>
    match s.agedReq d p with
    | some r => .next (if s.inRefresh r then s else s.servePch r)
    | none => .next s
  | _ => .fault .notThisEvent

/-- BANK_REFRESH (R60): the bank refreshes for a time within the bound, and no row of it stands open. How long is the device's (log 105). -/
def execBankRefresh (s : State) : Res :=
  match s.ev with
  | .bankRefresh d p b =>
    .next { s with rows := s.rows.filter (fun x => !(x.1 == d && x.2.1 == p && x.2.2.1 == b.val))
                   refreshing := (d, p, b.val, s.cyc + Config.choose s.free % (s.refreshBound d + 1)) ::
                     s.refreshing.filter (fun x => !(x.1 == d && x.2.1 == p && x.2.2.1 == b.val))
                   free := s.free + 1 }
  | _ => .fault .notThisEvent

-- ## Rods (R266 to R271, R276)

/-- ROD_CONTRIBUTION (R266, R268): at the slice of a die, or at the home. -/
def execRodContribution (s : State) : Res :=
  match s.ev with
  | .rodContribution l2 t loc v =>
    match s.rangeOf (lineOf loc) with
    | some q =>
      if q.fmt != t || s.notYetCm q (lineOf loc) then .next s
      else .next (match l2 with | some d => s.rodL2 d t loc v | none => s.rodHome t loc v)
    | none => .next s
  | _ => .fault .notThisEvent

/-- CM_REGISTRATION (R269). -/
def execCmRegistration (s : State) : Res :=
  match s.ev with
  | .cmRegistration a line =>
    match s.rangeOf line with
    | some q => .next (if s.poisoned line || s.notYetCm q line then s else (s.cmRegister a line q.fmt).getD s)
    | none => .next s
  | _ => .fault .notThisEvent

/-- The agent of the mask whose answer a Combine waits for first: the lowest fold index (R36, R270). -/
def State.nextFold (s : State) (line : Nat) : Option (Fin 8) := (s.foldOrder (s.cmMask line)).head?

/-- PARTIAL_RECALL_ANSWER (R270): the slice sends its partial and drops the line; an answer waits until those of the agents before it in fold
order have been folded. A stale answer is dropped and logged (R78). -/
def execPartialRecallAnswer (s : State) : Res :=
  match s.ev with
  | .partialRecallAnswer a line i =>
    .next (if s.stale (agentOf a) i then s.logErr 3 (agentOf a) (s.linePa line)
           else if s.asleep.contains (agentOf a) || s.nextFold line != some a then s
           else s.foldFrom a line)
  | _ => .fault .notThisEvent

/-- PARTIAL_WRITEBACK (R271, R276): one with an old incarnation is dropped. -/
def execPartialWriteback (s : State) : Res :=
  match s.ev with
  | .partialWriteback a line i =>
    .next (if s.stale (agentOf a) i then s.logErr 3 (agentOf a) (s.linePa line) else s.foldFrom a line)
  | _ => .fault .notThisEvent

-- ## Barriers (R117, R120)

/-- BARRIER_UPDATE (R117): an update reaches the barrier's place. -/
def execBarrierUpdate (s : State) : Res :=
  match s.ev with
  | .barrierUpdate p arrivals expected landed => .next (if s.barReady p then s.engArrive p 0 arrivals expected landed else s.closeBar p)
  | _ => .fault .notThisEvent

/-- BARRIER_POLL (R120): polled waits on a barrier read word 0 again at its place. -/
def execBarrierPoll (s : State) : Res :=
  match s.ev with
  | .barrierPoll p =>
    let ph := s.phaseAt p
    let wake (t : Str) : Str := t.wakeBar p ph
    let s := { s with cores := s.cores.map (fun (x : Core) => { x with
      strs := x.strs.map wake
      spilled := x.spilled.map (fun (q : Spilled) => { q with str := wake q.str }) }) }
    .next (allCores.foldl State.noteSpilled s)
  | _ => .fault .notThisEvent

end Sys2Proof.Machine
end

