-- ==== Sys2Proof/Machine/HostPort.lean ====
section
/-!
DEFINITION. The Naesh Link and the Caravan fabric: accesses by the host and by other devices, and the links' own steps (spec/16 R421 to
R432).
-/
namespace Sys2Proof.Machine
open Sys2Proof

-- ## What a line is at its home (R423)

/-- The line of n bytes at a local physical address, if they lie in one line: their location. Host memory is reached through the Naesh Link
(R428, R430). -/
def State.fabricLoc (s : State) (pa n : Nat) : Option Nat :=
  if n = 0 || decide (128 < pa % 128 + n) then none
  else match s.decodePa pa with
    | .loc l => if lineHost (lineOf l) && s.naeshDown then none else some l
    | _ => none

/-- The location of bytes of this device's own memory, for the host. -/
def State.portLoc (s : State) (pa n : Nat) : Option Nat := (s.fabricLoc pa n).filter (fun l => !lineHost (lineOf l))

/-- The answer of a home to a request from outside. -/
inductive PortAns where
  | got (bs : List Byte)
  /-- An error response or a refusal. -/
  | refused
  /-- A poison response (R81). -/
  | poison
  /-- The request waits. -/
  | wait
  deriving DecidableEq, Repr

/-- A home's answer to a request for bytes. -/
def Ans.port (a : Ans) (bs : List Byte) : PortAns := match a with | .ok => .got bs | .poison => .poison | _ => .wait

/-- The line fetched for an uncached read, through its home's LLC (R61): a holder in M or E keeps a shared copy (R75). -/
def State.homePeek (s : State) (line : Nat) : State × Ans :=
  if s.poisoned line then (s, .poison)
  else
    let r := (s.allocLlc line).lookup line
    match r.2.2, r.2.1 with
    | .ok, some (.ex o) =>
      if s.asleep.contains o then (s.homeWake o (repCore o) line, .wait o)
      else
        let t := if (r.1.l2Get o line).map (·.st) == some .exDirty then r.1.llcTouch line true else r.1
        ((t.l2Set o line .shared).dirSet line (.sh (agentBit o)), .ok)
    | a, _ => (r.1, a)

/-- A range's line combined for an uncached read (R270). -/
def State.portCombine (s : State) (fmt : Ty) (loc n : Nat) : State × PortAns :=
  let r := s.combine fmt (lineOf loc)
  match r.2 with
  | .ok => (r.1, .got (r.1.peekN loc n))
  | .poison => (r.1, .poison)
  | .sleep a => (r.1.homeWake a (repCore a) (lineOf loc), .wait)
  | .hold => (r.1, .wait)

/-- A view's policy for stale blocks replaced by WAIT (R423). -/
def View.waiting (v : View) : View := { v with words := v.words.set 3 (fput v.words[3] 55 54 0) }

/-- The host, or another device, as a reader of a view's bytes. -/
def portReader (host : Bool) (loc : Nat) : Reader :=
  { core := 0, slot := 0, uid := 0, lanes := 0, va := BitVec.ofNat 64 ((if host then 2 else 3) * 2 ^ 62 + loc) }

/-- The blocks that n bytes touch, each with its view (R289). -/
def State.blocksAt (s : State) (loc n : Nat) : List (Fin 64 × View × Nat) := ((List.range n).filterMap (fun i => s.viewAt (loc + i))).eraseDups

/-- n bytes of a view or tag line read (R289): tag entries and padding as they stand; view bytes by the state of each block touched, with
policy WAIT for the host. -/
def State.portView (s : State) (wait : Bool) (loc n : Nat) : State × PortAns :=
  if s.poisoned (lineOf loc) then (s, .poison)
  else
    let who := portReader wait loc
    let r := (s.blocksAt loc n).foldl (fun (a : State × List ((Fin 64 × View × Nat) × ViewAns)) x =>
      let q := a.1.viewBlock who x.1 (if wait then x.2.1.waiting else x.2.1) x.2.2 false; (q.1, a.2 ++ [(x, q.2)])) (s.allocLlc (lineOf loc), [])
    let met (a : ViewAns) : Bool := r.2.any (fun x => x.2 == a)
    let zero (l : Nat) : Bool := match s.viewAt l with | some x => r.2.contains (x, .zero) | none => false
    if met .wait then (r.1, .wait)
    else
      let t : State := { r.1 with vreads := r.1.vreads.filter (fun x => x.who != who) }
      (t, if met .stale || met .faulted then .refused
          else .got ((List.range n).map (fun i => if zero (loc + i) then 0 else t.peek (loc + i))))

/-- A write kind to a line that no write reaches: view and tag lines, ranges, sealed pages (R229, R232, R285). -/
def State.portBarred (s : State) (line : Nat) : Bool := s.isPlane line || (s.rangeOf line).isSome || s.lineSealed line

/-- Bytes written through to memory, every cached copy taken back first (R68, R75, R81). -/
def State.portWrite (s : State) (loc : Nat) (bs : List Byte) : State × PortAns :=
  let line := lineOf loc
  if s.poisoned line then
    if bs.length = 128 && s.clearable line then
      ((({ s with pz := s.pz.filter (· != line) } : State).metaClear line |>.perform (cellsAt loc bs)).homeWritten line (s.bankLocalLine line), .got [])
    else (s, .poison)
  else if !s.lineFree line then (s.closeLine line, .wait)
  else
    let r := s.homeTake line
    match r.2 with
    | .ok => ((r.1.perform (cellsAt loc bs)).homeWritten line (s.bankLocalLine line), .got [])
    | .poison => (r.1, .poison)
    | .wait a => (r.1.homeWake a (repCore a) line, .wait)
    | _ => (r.1, .wait)

-- ## The host (R423, R424)

/-- Bytes lie within a valid aperture, with W for a write (R424). -/
def State.inAperture (s : State) (wr : Bool) (pa n : Nat) : Bool :=
  decide (pa + n ≤ regBase) && s.apert.any (fun a => a[0].getLsbD 63 && (!wr || a[0].getLsbD 62)
    && decide (fld a[0] 47 12 * 4096 ≤ pa) && decide (pa + n ≤ fld a[1] 47 12 * 4096))

/-- A host access refused (R423, R424): an error response, and a record of KIND 6. -/
def State.hostRefuse (s : State) (pa : Nat) : State := State.logErr { s with hostGot := none } 6 8 pa

/-- The host's answer noted; a request that waits leaves what it has started (a derivation, a message that R79 holds) and no answer. -/
def State.hostAnswer (pa : Nat) (r : State × PortAns) : State :=
  match r.2 with
  | .got bs => { r.1 with hostGot := some bs }
  | .refused => r.1.hostRefuse pa
  | .poison => { r.1 with hostGot := none }
  | .wait => r.1

/-- DBELL (R425). -/
def dbell : Nat := 0x7F0000040000
/-- HIPEND (R426). -/
def hipendAt : Nat := 0x7F0000040008

/-- A line that the host takes at most in S. -/
def State.sharedOnly (s : State) (line : Nat) : Bool := s.isMaster line || s.lineSealed line

/-- The host's read of a line by its kind (R423). -/
def State.hostLineRead (s : State) (loc n : Nat) : State × PortAns :=
  let line := lineOf loc
  match (s.rangeOf line).filter (fun q => !s.notYetCm q line) with
  | some q => s.portCombine q.fmt loc n
  | none =>
    if s.isPlane line then s.portView true loc n
    else if s.bankLocalLine line || (s.rangeOf line).isSome then
      let r := s.homePeek line
      (r.1, r.2.port (s.peekN loc n))
    else
      let r := s.homeRead line 8
      match r.2 with
      | .ok =>
        let t := if s.sharedOnly line && r.1.dirGet line == some (.ex 8)
          then (r.1.dirSet line (.sh (agentBit 8))).l2Set 8 line .shared else r.1
        (t, .got (t.peekN loc n))
      | .wait a => (r.1.homeWake a (repCore a) line, .wait)
      | a => (r.1, a.port [])

/-- An access to DBELL and HIPEND, to one of them or to a part of them (R45, R424). -/
def atDoor (pa n : Nat) : Bool := decide (0 < n) && decide (dbell ≤ pa) && decide (pa + n ≤ hipendAt + 8)

/-- HOST_READ (R423, R424). -/
def execHostRead (s : State) : Res :=
  match s.ev with
  | .hostRead pa n =>
    if s.naeshDown then .next s
    else if pa = hipendAt ∧ n = 8 then .next { s with hostGot := some (leBytes 8 s.hipend.toNat) }
    else if atDoor pa n then .next { s with hostGot := some (List.replicate n 0) }
    else if !s.inAperture false pa n then .next (s.hostRefuse pa)
    else
      match s.portLoc pa n with
      | none => .next (s.hostRefuse pa)
      | some loc => .next (State.hostAnswer pa (s.hostLineRead loc n))
  | _ => .fault .notThisEvent

/-- The host's write of a line by its kind (R423). -/
def State.hostLineWrite (s : State) (loc : Nat) (bs : List Byte) : State × PortAns :=
  let line := lineOf loc
  if s.portBarred line then (s, .refused)
  else if s.bankLocalLine line || s.isMaster line then s.portWrite loc bs
  else if (s.l2.filter (fun e => e.line == line && e.agent != 8)).all s.mayGiveUp then
    let r := s.homeOwn line 8 (bs.length == 128)
    match r.2 with
    | .ok => (r.1.perform (cellsAt loc bs), .got [])
    | a => (r.1, a.port [])
  else (s.closeLine line, .wait)

/-- HOST_WRITE (R423 to R426). -/
def execHostWrite (s : State) : Res :=
  match s.ev with
  | .hostWrite pa data =>
    if s.naeshDown then .next s
    else if pa = dbell ∧ data.length = 8 then .next (State.soon { s with hostGot := some [] } (.dbellWrite (BitVec.ofNat 64 (leNat data))))
    else if pa = hipendAt ∧ data.length = 8 then .next { s with hipend := s.hipend &&& ~~~(BitVec.ofNat 16 (leNat data)), hostGot := some [] }
    else if atDoor pa data.length then .next { s with hostGot := some [] }
    else if !s.inAperture true pa data.length then .next (s.hostRefuse pa)
    else
      match s.portLoc pa data.length with
      | none => .next (s.hostRefuse pa)
      | some loc => .next (State.hostAnswer pa (s.hostLineWrite loc data))
  | _ => .fault .notThisEvent

/-- DBELL_WRITE (R425). -/
def execDbellWrite (s : State) : Res :=
  match s.ev with
  | .dbellWrite _ => .next (s.raiseIrq 1)
  | _ => .fault .notThisEvent

/-- The copies of a line in the device's L2s. -/
def State.heldCopies (s : State) (line : Nat) : List L2Line := s.l2.filter (fun e => e.line == line && decide (e.agent.val < 8))

/-- A host line given up by every L2. -/
def State.giveUpAll (s : State) (line : Nat) : State := (((s.heldCopies line).foldl State.evictL2 s).dirDel line).metaClear line

/-- HOST_SNOOP (R422): answered once leases let every holder answer, none being granted meanwhile; a snoop for a read leaves shared copies. -/
def execHostSnoop (s : State) : Res :=
  match s.ev with
  | .hostSnoop line inval =>
    .next (
      if !lineHost line || s.naeshDown then s
      else if !(s.heldCopies line).all s.mayGiveUp then s.closeLine line
      else if inval then s.giveUpAll line
      else (s.heldCopies line).foldl (fun s e =>
        if e.st == .shared then s else (s.l2Set e.agent line .shared).dirSet line (.sh (agentBit e.agent))) s)
  | _ => .fault .notThisEvent

/-- SNOOP_FILTER_RECALL (R422). -/
def execSnoopFilterRecall (s : State) : Res :=
  match s.ev with
  | .snoopFilterRecall line =>
    .next (if !lineHost line || s.naeshDown then s else if (s.heldCopies line).all s.mayGiveUp then s.giveUpAll line else s.closeLine line)
  | _ => .fault .notThisEvent

/-- The sources whose bits HIPEND holds. -/
def State.pendingSources (s : State) : List (BitVec 4) :=
  ((List.range 16).filter (fun i => s.hipend.getLsbD i)).map (BitVec.ofNat 4)

/-- NAESH_LINK_RETURN (R426, R428): as agent 8's reset; dirty host lines are written back, pending sources sent. An agent whose
incarnation has reached 15 stays dead, and the link down (R72); a failed start holds the link down (R441). -/
def execNaeshLinkReturn (s : State) : Res :=
  match s.ev with
  | .naeshLinkReturn =>
    if !s.naeshDown || s.worn 8 || !s.ready then .next s
    else
      let s := s.resetAgent 8
      .next { s with
        naeshDown := false
        naesh := s.naesh ++ s.pendingSources
        l2 := s.l2.map (fun e => if lineHost e.line && e.st == .exDirty then { e with st := .exClean } else e) }
  | _ => .fault .notThisEvent

/-- FLIT_RETRANSMIT (R421, R429): link-level retry; nothing is lost or reordered, and no error is visible. -/
def execFlitRetransmit (s : State) : Res :=
  match s.ev with
  | .flitRetransmit _ => .next s
  | _ => .fault .notThisEvent

-- ## Caravan ports (R429)

/-- CPORT of a port: UP and LANES. -/
def State.setPort (s : State) (p : Fin 24) (up : Bool) (lanes : Nat) : State :=
  { s with cport := s.cport.set p (BitVec.ofBool up ++ BitVec.ofNat 4 lanes) }

/-- CARAVAN_LANE_FAIL (R429): the port retrains at its working lanes, at most those of the unit map. -/
def execCaravanLaneFail (s : State) : Res :=
  match s.ev with
  | .caravanLaneFail p lanes => .next (s.setPort p false (trainLanes (min lanes.val s.um.portl[p])))
  | _ => .fault .notThisEvent

/-- CARAVAN_RETRAIN_DONE (R429). -/
def execCaravanRetrainDone (s : State) : Res :=
  match s.ev with
  | .caravanRetrainDone p =>
    let lanes := fld ((s.cport[p]).setWidth 64) 3 0
    let s := { s with portIdle := s.portIdle.filter (· != p) }
    .next (s.setPort p (lanes != 0) lanes)
  | _ => .fault .notThisEvent

-- ## Accesses from other devices (R430, R431)

/-- The bit of word 0 that permits a kind. -/
def rkBit (k : RKind) : Nat := match k with | .rd => 62 | .wr => 61 | _ => 60

/-- Some entry of the fabric access table admits the access (R430). -/
def State.admits (s : State) (dev : BitVec 14) (k : RKind) (pa : Nat) : Bool :=
  s.fat.any (fun e => e[0].getLsbD 63 && e[0].getLsbD (rkBit k) && decide (fld e[0] 27 14 ≤ dev.toNat) && decide (dev.toNat ≤ fld e[0] 13 0)
    && decide (fld e[1] 47 12 * 4096 ≤ pa) && decide (pa < fld e[2] 47 12 * 4096))

/-- Bytes that their home sets itself: every line is taken back first; one that is poisoned takes no write (R217, R437). -/
def State.homeSet (s : State) (cells : List Host.Cell) : State × Bool :=
  let lines := ((cells.map (fun c => lineOf c.1)).eraseDups).filter (fun l => !s.poisoned l)
  let r := lines.foldl (fun (a : State × Bool) l =>
    if !a.2 then a else let q := a.1.homeTake l; (q.1, match q.2 with | .ok => true | _ => false)) (s, true)
  if r.2 then (lines.foldl (fun s l => s.homeWritten l false) (r.1.perform (cells.filter (fun c => lines.contains (lineOf c.1)))), true)
  else r

/-- The cells that the clearing of an exchange area sets: ERR, and every byte from 0x80 on, by the header's NBLK (R434, R437). -/
def State.areaCells (s : State) (pages : List Nat) : List Host.Cell :=
  let at_ (o : Nat) : Option Nat := match pages[o / 4096]? with
    | some p => (match s.decodePa (p + o % 4096) with | .loc l => some l | _ => none)
    | none => none
  match at_ 0x60 with
  | none => []
  | some h =>
    let hw := le64 (s.peekN h 8) &&& ~~~(1#64 <<< 47)
    let n := fld hw 19 0 + 1
    cellsAt h (leBytes 8 hw.toNat)
      ++ (List.range ((n + 127) / 128 * 128 + 512 * n)).filterMap (fun i => (at_ (0x80 + i)).map (fun l => (l, 0)))

/-- A barrier operation of another device at its place (R120, R223, R431). -/
def State.portBar (s : State) (loc : Nat) (go : State → State × PortAns) : State × PortAns :=
  let line := lineOf loc
  if s.portBarred line || !lineHbm line || loc % 32 != 0 then (s, .refused)
  else if s.poisoned line then (s, .poison)
  else if !s.barReady (.mem loc) then (s.closeLine line, .wait)
  else go s

/-- An admitted access performed at the target's home by its own rules (R431). -/
def State.portDo (s : State) (k : RKind) (loc n : Nat) (data : List Byte) : State × PortAns :=
  let line := lineOf loc
  match k with
  | .rd =>
    (match (s.rangeOf line).filter (fun q => !s.notYetCm q line) with
      | some q => s.portCombine q.fmt loc n
      | none =>
        if s.isPlane line then s.portView false loc n
        else
          let r := s.homePeek line
          (r.1, r.2.port (s.peekN loc n)))
  | .wr => if s.portBarred line then (s, .refused) else s.portWrite loc data
  | .amo op t =>
    if s.portBarred line || loc % amoBytes t != 0 then (s, .refused)
    else if s.poisoned line then (s, .poison)
    else if !s.lineFree line then (s.closeLine line, .wait)
    else if !s.reachable line then (s.homeAmo op t loc (wordAt data 0) (wordAt data 1), .wait)
    else
      (s.homeAmo op t loc (wordAt data 0) (wordAt data 1), .got (s.peekN loc (amoBytes t)))
  | .con t =>
    (match s.rangeOf line with
      | some q => if q.fmt != t || q.ending || decide (q.scope.code.toNat < 4) then (s, .refused) else if s.poisoned line then (s, .poison)
                  else if s.notYetCm q line then (s, .wait)
                  else (s.rodHome t loc (wordAt data 0), .got [])
      | none => (s, .refused))
  | .bar a e l => s.portBar loc (fun s => (s.engArrive (.mem loc) 0 a e l, .got []))
  | .init a b => s.portBar loc (fun s =>
      let w := barInitWords a b
      (((s.barTake (.mem loc)).homePut (.mem loc) (leBytes 8 w.1.toNat ++ leBytes 8 w.2.toNat ++ List.replicate 16 0)).wakeBar (.mem loc), .got []))
  | .poll => s.portBar loc (fun s => (s, .got (s.peekN loc 8)))
  | .dnb pages => s.portBar loc (fun s =>
      let r := if parr (s.peek64 loc) == 1 then s.homeSet (s.areaCells pages) else (s, true)
      if r.2 then (r.1.engArrive (.mem loc) 0 1 0 0, .got []) else (r.1, .wait))

/-- Bytes that an access of a kind touches. -/
def rkBytes (k : RKind) (n : Nat) (data : List Byte) : Nat :=
  match k with | .rd => n | .wr => data.length | .amo _ t => amoBytes t | .con t => rodBytes t | .bar .. | .init .. | .poll | .dnb _ => 32

/-- REMOTE_ACCESS (R430): the fabric access table first, then the target's rules; the register window is always refused. -/
def execRemoteAccess (s : State) : Res :=
  match s.ev with
  | .remoteAccess dev k pa n data =>
    let no (s : State) : State := { s with fabricGot := none }
    if !s.admits dev k pa then .next (no s)
    else
      match s.fabricLoc pa (rkBytes k n data) with
      | none => .next (no s)
      | some loc =>
        let r := s.portDo k loc n data
        .next (match r.2 with
          | .got bs => { r.1 with fabricGot := some bs }
          | .refused | .poison => no r.1
          | .wait => r.1)
  | _ => .fault .notThisEvent

-- ## Answers to this device's remote accesses (R432)

/-- A remote access answered with a cause: its lanes trap, or its engine meets the fault. -/
def State.answerRemote (s : State) (r : Remote) (code : Nat) : State :=
  if r.lanes = 0 then { s with remote := s.remote.map (fun x => if x = r then { x with fault := some code } else x) }
  else
    let s := { s with remote := s.remote.filter (· != r) }
    if (s.strAt r.core r.slot).uid == r.uid then s.answerTrap r.core r.slot r.lanes code r.va else s

/-- The remote access of some lanes at an address that awaits its answer. -/
def State.remoteOf (s : State) (c : CoreId) (k : SlotId) (lanes : Mask) (va : W64) : Option Remote :=
  s.remote.find? (fun r => r.core == c && r.slot == k && r.lanes == lanes && r.va == va && r.fault.isNone)

/-- REMOTE_REFUSAL (R430, R432). -/
def execRemoteRefusal (s : State) : Res :=
  match s.ev with
  | .remoteRefusal c k lanes va =>
    .next (match s.remoteOf c k lanes va with | some r => s.answerRemote r 25 | none => s)
  | _ => .fault .notThisEvent

/-- REMOTE_ACCESS_TIMEOUT (R432): after 2 ms of PTIME. -/
def execRemoteAccessTimeout (s : State) : Res :=
  match s.ev with
  | .remoteAccessTimeout c k lanes va =>
    .next (match s.remoteOf c k lanes va with
      | some r => if r.since + 2000000 ≤ s.ptime then s.answerRemote r 24 else s
      | none => s)
  | _ => .fault .notThisEvent

end Sys2Proof.Machine
end

