-- ==== Sys2Proof/Machine/Manage.lean ====
section
/-!
DEFINITION. Reset, power, temperature and the management commands (spec/17 R441 to R453), writes of device registers (spec/02 R45) and the
illegal-instruction trap (spec/06 R165).
-/
namespace Sys2Proof.Machine
open Sys2Proof

-- ## Reset (R441 to R445)

/-- The lowest working cluster's core with CIDX 0 (R445). -/
def UnitMap.bootCore (um : UnitMap) : CoreId :=
  match (List.finRange 64).find? (fun j => um.clmask.getLsbD j.val) with
  | some j => coreOf j 0
  | none => 0

/-- The base of the direct window of the lowest die of MDIEMAP, where the boot image is copied (R441 step 5). -/
def UnitMap.window (um : UnitMap) : W64 :=
  match (List.finRange 12 : List DieId).find? (fun d => um.mdie.getLsbD d.val) with
  | some d => bootEntry + BitVec.ofNat 64 (d.val * 2 ^ 36)
  | none => bootEntry

/-- The memory that is not the device's: host memory and that of other devices (log 68). -/
def State.foreign (s : State) : List Host.Cell := s.mem.filter (fun x => decide (hostBase ≤ x.1))

/-- The boot image's bytes copied (R441 step 5). -/
def State.copyImage (s : State) (im : BootImage) : State :=
  match s.decodePa s.um.window.toNat with
  | .loc l => s.pokeN l im.bytes
  | _ => s

/-- The device after a package reset with the boot image `im` and the unit map `um`: memory that is not the device's stays, the image stands in
its window, HVEC and the boot string at its entry header (R441, R443 to R445), and PTIME is stepped into the Caravan domain, at the
domain's time if there is one (R58). -/
def State.packageReset (s : State) (im : BootImage) (um : UnitMap) (domain : Option Nat) : State :=
  let c := um.bootCore
  let e := um.window + BitVec.ofNat 64 im.entry
  let r := State.resetWith um c
  let r : State := { r with boots := s.boots + 1, free := s.free, mem := s.foreign
                            acc := domain.getD 0 * 17000000, exchanged := domain.getD 0
                            cores := r.cores.map (fun (x : Core) => ({ x with hvec := e } : Core)) }
  ((r.modStr c 0 (fun t => { t with sreg := t.sreg.set 0 im.param })).modStr c 0 (fun t => t.modSplit 0 (fun x => { x with pc := e }))).copyImage im

/-- A package reset that fails at a step (R441, R442): every core stays in reset, the Naesh Link is down, and the failure is reported. What
earlier steps have done stays done: the unit map holds from step 2 on, and memory is zero from step 4 on (log 83). -/
def State.failedReset (s : State) (um : UnitMap) (step : Nat) : State :=
  let r := State.resetWith um um.bootCore
  { r with boots := s.boots + 1, free := s.free, ready := false, naeshDown := true, bootFailed := true
           mem := if step < 4 then s.mem else s.foreign, pz := if step < 4 then s.pz else []
           cores := Vector.replicate 256 { Core.reset with stopped := true }
           reports := s.reports ++ [Report.startFailed] }

/-- PACKAGE_RESET (R441, R442). -/
def execPackageReset (s : State) : Res :=
  match s.ev with
  | .packageReset image map domain stop =>
    .next (match image, map with
      | some im, some um =>
        match stop with
        | some n => s.failedReset (if n.val < 2 then s.um else um) n.val
        | none => s.packageReset im um domain
      | _, _ => s.failedReset s.um 1)
  | _ => .fault .notThisEvent

-- ## Power (R447, R448)

/-- POWER_AVERAGE (R447): above PWRCAP array cycles are withheld first, then issue is limited. -/
def execPowerAverage (s : State) : Res :=
  match s.ev with
  | .powerAverage w =>
    .next (if fld s.pwrcap 12 0 < w then { s with withhold := true, halved := s.withhold } else { s with withhold := false, halved := false })
  | _ => .fault .notThisEvent

/-- LINK_SLEEP (R448): never with LSIDLE 0, nor while a message is held for the link. -/
def execLinkSleep (s : State) : Res :=
  match s.ev with
  | .linkSleep a =>
    .next (if fld s.lsidle 15 0 = 0 || s.asleep.contains a || s.held.any (fun h => h.agent == a) then s else { s with asleep := a :: s.asleep })
  | _ => .fault .notThisEvent

/-- A core holds no string, no partition and no serai entry (R448). -/
def Core.bare (x : Core) : Bool := !x.strs.any (·.present) && x.parts.isEmpty && x.serai.isEmpty

/-- The cores of a cluster changed. -/
def State.modCluster (s : State) (j : Fin 64) (f : Core → Core) : State :=
  (List.range 4).foldl (fun s k => s.modCore (coreOf j k) f) s

/-- CLUSTER_GATE (R448). -/
def execClusterGate (s : State) : Res :=
  match s.ev with
  | .clusterGate j =>
    .next (if (List.range 4).all (fun k => (s.cores[coreOf j k]).bare) then s.modCluster j (fun x => { x with gated := true }) else s)
  | _ => .fault .notThisEvent

/-- CLUSTER_UNGATE (R448): lines of L1s and instruction caches are discarded. -/
def execClusterUngate (s : State) : Res :=
  match s.ev with
  | .clusterUngate j =>
    let s := s.modCluster j (fun x => { x with gated := false })
    .next { s with l1 := s.l1.filter (fun e => clusterOf e.core != j) }
  | _ => .fault .notThisEvent

/-- A flit of an access waits for a port or awaits its answer through it (R448). -/
def State.portBusy (s : State) (p : Fin 24) : Bool := s.remote.any (fun r => s.portOf r.loc == some p)

/-- CARAVAN_PORT_IDLE (R448): never while an access uses the port. How long the port must have been still is the event's (log 105). -/
def execCaravanPortIdle (s : State) : Res :=
  match s.ev with
  | .caravanPortIdle p => .next (if s.portIdle.contains p || s.portBusy p then s else { s with portIdle := p :: s.portIdle })
  | _ => .fault .notThisEvent

/-- CARAVAN_PORT_WAKE (R448). -/
def execCaravanPortWake (s : State) : Res :=
  match s.ev with
  | .caravanPortWake p => .next { s with portIdle := s.portIdle.filter (· != p) }
  | _ => .fault .notThisEvent

-- ## Temperature (R449)

/-- THERMAL_THROTTLE (R449): from 100 °C the device throttles; at 110 °C the management controller stops every core. -/
def execThermalThrottle (s : State) : Res :=
  match s.ev with
  | .thermalThrottle t =>
    let s := { s with therm := t, throttled := s.throttled || decide (100 ≤ t.toNat) }
    .next (if 110 ≤ t.toNat then s.soon .thermalStop else s)
  | _ => .fault .notThisEvent

/-- THERMAL_THROTTLE_END (R449): below 95 °C. -/
def execThermalThrottleEnd (s : State) : Res :=
  match s.ev with
  | .thermalThrottleEnd t => .next { s with therm := t, throttled := s.throttled && decide (95 ≤ t.toNat) }
  | _ => .fault .notThisEvent

/-- MEMORY_DIE_HOT (R449): refresh is doubled, and a read may wait longer for it (`State.refreshBound`). -/
def execMemoryDieHot (s : State) : Res :=
  match s.ev with
  | .memoryDieHot d => .next (if s.hot.contains d then s else { s with hot := d :: s.hot })
  | _ => .fault .notThisEvent

/-- MEMORY_DIE_COOLED (R449). -/
def execMemoryDieCooled (s : State) : Res :=
  match s.ev with
  | .memoryDieCooled d => .next { s with hot := s.hot.filter (· != d) }
  | _ => .fault .notThisEvent

/-- The contexts on the device: of strings, partitions, serai entries and launches. -/
def State.contexts (s : State) : List (BitVec 12) :=
  (s.cores.toList.flatMap (fun x =>
      (x.strs.toList.filter (·.present)).map (·.ctx) ++ x.parts.map (·.ctx) ++ x.spilled.map (fun p => p.str.ctx)
        ++ x.evicted.map (·.ctx) ++ x.serai.map (·.ctx))
    ++ (s.launches.toList.filter (·.on)).map (fun l => ctxOf l.ptroot)).eraseDups

/-- THERMAL_STOP (R449): every core stops until a package reset, and every context takes the fault of kind 6. -/
def execThermalStop (s : State) : Res :=
  match s.ev with
  | .thermalStop =>
    let s1 := State.logErr { s with cores := s.cores.map (fun x => { x with stopped := true }) } 8 0 0
    .next (s.contexts.foldl (fun s x => s.soon (.contextFault x 6)) s1)
  | _ => .fault .notThisEvent

-- ## RESQ and ELOG (R451, R452)

/-- RESQ_READ (R451). -/
def execResqRead (s : State) : Res :=
  match s.ev with
  | .resqRead => .next s.resqTake.1
  | _ => .fault .notThisEvent

/-- ELOG_READ (R452). -/
def execElogRead (s : State) : Res :=
  match s.ev with
  | .elogRead => .next s.elogTake.1
  | _ => .fault .notThisEvent

-- ## MCMD (R453)

/-- A command's end, with ERR. -/
def State.mcmdDone (s : State) (err : Nat) : State := { s with mstat := BitVec.ofNat 64 err }

/-- The command block read: its first n bytes; BUSY while the read must wait. -/
def State.withBlock (s : State) (pa n : Nat) (k : State → List Byte → State) : State :=
  if pa % 128 != 0 then s.mcmdDone 3
  else
    let r := s.getAll (imageWho 0) pa n
    if r.2.waits then { s.waited r.1 with mstat := 1#64 <<< 63 }
    else if r.2.err ≠ 0 then r.1.mcmdDone 2
    else k r.1 r.2.bytes

/-- Route i of a block. -/
def routeOf (bs : List Byte) (i : Nat) : Route :=
  let a := wordAt bs (1 + 2 * i)
  { lo := a.extractLsb' 0 14, hi := a.extractLsb' 16 14, ports := (wordAt bs (2 + 2 * i)).extractLsb' 0 24 }

/-- Two routes cover a device in common. -/
def Route.meets (a b : Route) : Bool := decide (a.lo.toNat ≤ b.hi.toNat) && decide (b.lo.toNat ≤ a.hi.toNat)

/-- Some two entries overlap. -/
def overlapping : List Route → Bool
  | [] => false
  | r :: rs => rs.any r.meets || overlapping rs

/-- MCMD_ROUTES (R453): replaces the whole table; a refused block leaves it. -/
def execMcmdRoutes (s : State) : Res :=
  match s.ev with
  | .mcmdRoutes pa =>
    .next (s.withBlock pa 8 (fun s bs =>
      let n := (wordAt bs 0).toNat
      if n = 0 || decide (63 < n) then s.mcmdDone 3
      else s.withBlock pa (8 + 16 * n) (fun s bs =>
        let rs := (List.range n).map (routeOf bs)
        if overlapping rs then s.mcmdDone 3 else State.mcmdDone { s with routes := rs } 0)))
  | _ => .fault .notThisEvent

/-- MCMD_STEAL_RING (R453): a count of 0 removes the ring. -/
def execMcmdStealRing (s : State) : Res :=
  match s.ev with
  | .mcmdStealRing pa =>
    .next (s.withBlock pa 8 (fun s bs =>
      let w := wordAt bs 0
      let n := fld w 6 0
      if n = 0 then State.mcmdDone { s with ring := none, token := none } 0
      else if n = 1 || decide (64 < n) then s.mcmdDone 3
      else s.withBlock pa (8 + 2 * n) (fun s bs =>
        let devs := (List.range n).map (fun i => BitVec.ofNat 14 (leNat ((bs.drop (8 + 2 * i)).take 2)))
        State.mcmdDone { s with ring := some (w.extractLsb' 48 16, devs) } 0)))
  | _ => .fault .notThisEvent

-- ## Registers and illegal words

/-- REGISTER_WRITE (R8, R45): an access that covers exactly one register changes its RW and W1C fields. -/
def execRegisterWrite (s : State) : Res :=
  match s.ev with
  | .registerWrite pa n v => .next (if n = 8 && pa % 8 == 0 then s.regStore pa v else s)
  | _ => .fault .notThisEvent

/-- ILLEGAL_INSTRUCTION (R165): the trap of every lane of the issuing split. -/
def execIllegalInstruction (s : State) : Res :=
  match s.ev with
  | .illegalInstruction w => .next (s.trapAll 1 w)
  | _ => .fault .notThisEvent

end Sys2Proof.Machine
end

