-- ==== Sys2Proof/Machine/Maps.lean ====
section
/-!
DEFINITION. The steps of the page walkers and translation caches (spec/04 R87 to R95), of the region table (spec/02 R49 to R51) and of
package time (spec/02 R58, spec/16 R433).
-/
namespace Sys2Proof.Machine
open Sys2Proof

-- ## Translation (R87, R91, R95)

/-- PAGE_WALK_COMPLETE (R87, R91): a walk for a string installs a translation; a walk that fails installs none, and the access that
needs it meets the fault. -/
def execPageWalkComplete (s : State) : Res :=
  match s.ev with
  | .pageWalkComplete c k va =>
    let w := whoOf c (s.strAt c k).ptroot .user
    .next (if (s.strAt c k).present && !w.untranslated && canonical va then (s.translate w .load va).1 else s)
  | _ => .fault .notThisEvent

/-- Translations and walk-cache entries of the cores in scope that meet a condition removed (R95). -/
def State.dropTlb (s : State) (c : CoreId) (dev : Bool) (p : Tr → Bool) (q : WalkEnt → Bool) : State :=
  { s with tlb := s.tlb.filter (fun t => !((dev || t.core == c) && p t)), walks := s.walks.filter (fun e => !((dev || e.core == c) && q e)) }

/-- TCINV_ALL (R95). -/
def execTcinvAll (s : State) : Res :=
  match s.ev with
  | .tcinvAll c dev => .next (s.dropTlb c dev (fun _ => true) (fun _ => true))
  | _ => .fault .notThisEvent

/-- TCINV_CTX (R95). -/
def execTcinvCtx (s : State) : Res :=
  match s.ev with
  | .tcinvCtx c dev ctx => .next (s.dropTlb c dev (fun t => t.ctx == ctx) (fun e => e.ctx == ctx))
  | _ => .fault .notThisEvent

/-- TCINV_PAGE (R95): the entries that cover the page at the core's TCIVA. -/
def execTcinvPage (s : State) : Res :=
  match s.ev with
  | .tcinvPage c dev ctx =>
    let va := (va57 s.cores[c].tciva).toNat
    .next (s.dropTlb c dev (fun t => t.ctx == ctx && decide (t.base < va + 4096) && decide (va < t.base + 2 ^ t.log))
      (fun e => e.ctx == ctx && e.tag == va / 2 ^ levelShift e.level))
  | _ => .fault .notThisEvent

/-- The waits for an invalidation of a scope on a core are over: the `wrsr` is complete. -/
def State.passTcinv (s : State) (c : CoreId) (dev : Bool) : State :=
  (s.allCur.filter (fun u => u.core == c && ((s.strAt u.core u.slot).splits[u.split]).wait == .tcinv dev
      && ((s.strAt u.core u.slot).splits[u.split]).m != 0)).foldl (fun s u => s.asSplit u (fun s => (s.adv 1).waitMe .none)) s

/-- Parked splits of a core that wait for an invalidation stand past it. -/
def State.passTcinvParked (s : State) (c : CoreId) (dev : Bool) : State :=
  let go (x : Split) : Split := if x.wait == .tcinv dev then { x with wait := .none, pc := x.pc + 8 } else x
  s.modCore c (fun x => { x with strs := x.strs.map (fun (t : Str) => { t with park := t.park.map go }) })

/-- An access of the cores `on` that has been translated already is not complete (R95): a store that waits at a slice, an access that
awaits another device's answer, a bank command, a tile operation with an output in memory, a transfer or a collective with a barrier
in memory. A chain counts by its barrier's address, where `near` says that the invalidation covers it (log 48). -/
def State.busyOn (s : State) (on : CoreId → Bool) (near : W64 → W64 → Bool) : Bool :=
  s.pend.any (fun p => on p.core) || s.remote.any (fun r => on r.core && r.fault.isNone)
    || s.abaci.any (fun a => (a.coming ++ a.queue ++ (a.run.map (·.cmd)).toList).any (fun b => on b.core))
    || s.colls.any (fun x => on x.core)
    || allCores.any (fun c => on c && (
      let x := s.cores[c]
      x.convoy.any (fun t => (t.bar.bind placeLine).isSome) || x.arr.queue.any (fun o => !o.lines.isEmpty)
        || (x.chains.toList.filterMap id).any (fun h => (placeLine h.bar).isSome && near h.who.ptroot h.barVa)))

/-- The latest invalidation written on a core covers an address of a context (R95): of the context it names, or of one whose string waits
for it, since supervisor mode names none. A page of HBM4E is one of 2 MiB. -/
def Core.invCovers (x : Core) (ptroot va : W64) : Bool :=
  let ctx := ctxOf ptroot
  let waits (t : Str) : Bool := t.allSplits.any (fun y => match y.wait with | .tcinv _ => true | _ => false)
  let named := ctx == x.tcinv.extractLsb' 4 12 || x.strs.any (fun t => t.ctx == ctx && waits t)
  match fld x.tcinv 1 0 with
  | 0 => true
  | 1 => named
  | _ => named && va.toNat / 2 ^ 21 == (va57 x.tciva).toNat / 2 ^ 21

/-- TCINV_DRAINED (R95): every access of the scope that a removed entry may have translated is complete. -/
def execTcinvDrained (s : State) : Res :=
  match s.ev with
  | .tcinvDrained c =>
    let near := s.cores[c].invCovers
    let own := if s.busyOn (· == c) near then s else (s.passTcinv c false).passTcinvParked c false
    .next (if s.busyOn (fun _ => true) near then own else (own.passTcinv c true).passTcinvParked c true)
  | _ => .fault .notThisEvent

-- ## The region table (R49 to R51)

/-- RTSTAT after an entry write. -/
def State.setRt (s : State) (i : Fin 64) (err : Nat) : State :=
  { s with rtstat := fput (fput s.rtstat 15 12 err) 5 0 i.val }

/-- The working dies of a mask. -/
def diesOf (m : Nat) : List Nat := (List.range 12).filter (fun d => m.testBit d)

/-- Some granule of the range lies beyond the working capacity of its die (R50 code 7). -/
def State.beyondDie (s : State) (e : Vector W64 4) : Bool :=
  let size := regLIMIT e - regBASE e
  let g := 2 ^ regGLOG e
  let ng := size / g
  let ds := diesOf (regDIEMASK e)
  let n := ds.length
  match regMODE e with
  | 0 => ((List.range n).zip ds).any (fun kd =>
      decide (kd.1 < ng) && decide (s.pchCount kd.2 * 2 ^ 30 < regDOFF e + (ng - kd.1 + n - 1) / n * g))
  | 1 => decide (2 ^ 30 < regDOFF e + (ng + n * regPCNT e - 1) / (n * regPCNT e) * g)
  | _ => ds.any (fun d => decide (s.pchCount d * 2 ^ 30 < regDOFF e + size))

/-- The lowest ERR of an entry with its words, or 0 (R50). -/
def State.regionErr (s : State) (i : Fin 64) (e : Vector W64 4) : Nat :=
  let ds := diesOf (regDIEMASK e)
  let mode := regMODE e
  let base := regBASE e
  let limit := regLIMIT e
  let meets (b l : Nat) : Bool := decide (base < l) && decide (b < limit)
  if regV s.regions[i] then 1
  else if regDOFF e % 2 ^ regGLOG e ≠ 0 then 2
  else if limit ≤ base ∨ 0xC000000000 < limit then 3
  else if ((List.finRange 64).any (fun j => j != i && regV s.regions[j] && meets (regBASE s.regions[j]) (regLIMIT s.regions[j])))
      || s.draining.any (fun r => meets r.1 r.2) then 4
  else if ds.isEmpty || ds.any (fun d => !s.um.mdie.getLsbD d) || (mode == 2 && ds.length != 1) then 5
  else if mode == 3 || decide (regGLOG e < 8) || decide (21 < regGLOG e)
      || (mode == 1 && (regPCNT e == 0 || decide (64 < regPCNT e) || ds.any (fun d => decide (s.pchCount d < regPCH e + regPCNT e))))
      || (mode != 1 && (regPCH e != 0 || regPCNT e != 0)) then 6
  else if s.beyondDie e then 7
  else if (List.range 4).any (fun w => (e.toArray.getD w 0) &&& ~~~(regionMask w) != 0) then 8
  else 0

/-- REGION_ENTRY_VALIDATE (R50): a refused entry keeps V = 0, and the other fields of word 2 as written: DESIGN CHOICE (log 87). -/
def execRegionEntryValidate (s : State) : Res :=
  match s.ev with
  | .regionEntryValidate i v =>
    let e := s.regions[i].set 2 v
    match s.regionErr i e with
    | 0 => .next (State.setRt { s with regions := s.regions.set i e } i 0)
    | 1 => .next (s.setRt i 1)
    | err => .next (State.setRt { s with regions := s.regions.set i (e.set 2 (v &&& 0x7FFFFFFFFFFFFFFF)) } i err)
  | _ => .fault .notThisEvent

/-- REGION_ENTRY_INVALIDATE (R51): V = 0 at once; the drain begins. -/
def execRegionEntryInvalidate (s : State) : Res :=
  match s.ev with
  | .regionEntryInvalidate i v =>
    let e := s.regions[i]
    let s' := State.setRt { s with regions := s.regions.set i (e.set 2 (v &&& 0x7FFFFFFFFFFFFFFF)) } i 0
    .next (if regV e then { s' with rtstat := s'.rtstat ||| (1#64 <<< 63), draining := (regBASE e, regLIMIT e) :: s.draining } else s')
  | _ => .fault .notThisEvent

/-- REGION_WORD_WRITE (R50): accepted while V is 0. -/
def execRegionWordWrite (s : State) : Res :=
  match s.ev with
  | .regionWordWrite i w v =>
    if regV s.regions[i] then .next (s.setRt i 1)
    else .next (State.setRt { s with regions := s.regions.set i (s.regions[i].set w v) } i 0)
  | _ => .fault .notThisEvent

/-- Accesses, transfers and commands that have passed region decode are complete (R51). -/
def State.regionIdle (s : State) : Bool :=
  s.pend.isEmpty && s.abaci.all (fun a => a.coming.isEmpty && a.queue.isEmpty && a.run.isNone)
    && s.cores.toList.all (fun x => x.convoy.all (fun t => t.data.isNone)
      && x.arr.queue.all (fun o => match o.kind with | .mmac _ _ osp _ _ _ _ _ _ _ _ => osp || o.ran | _ => true))

/-- REGION_DRAIN_DONE (R51). -/
def execRegionDrainDone (s : State) : Res :=
  match s.ev with
  | .regionDrainDone =>
    .next (if s.regionIdle then { s with rtstat := s.rtstat &&& 0x7FFFFFFFFFFFFFFF, draining := [] } else s)
  | _ => .fault .notThisEvent

-- ## Time (R58, R433)

/-- TIME_EXCHANGE (R58): a new counting rate, at most 100 parts per million off. -/
def execTimeExchange (s : State) : Res :=
  match s.ev with
  | .timeExchange ppm => .next (if ppm.natAbs ≤ 100 then { s with ppm := ppm, timeLost := false, exchanged := s.ptime } else s)
  | _ => .fault .notThisEvent

/-- DOMAIN_TIME_LOST (R433): 100 ms without an exchange. -/
def execDomainTimeLost (s : State) : Res :=
  match s.ev with
  | .domainTimeLost =>
    .next (if !s.timeLost && decide (s.exchanged + 100000000 ≤ s.ptime) then State.logErr { s with timeLost := true } 7 0 0 else s)
  | _ => .fault .notThisEvent

end Sys2Proof.Machine
end

