-- ==== Sys2Proof/Machine/MaskOps.lean ====
section
/-!
DEFINITION. The mask group, major 0x08 (spec/07 R182): all 32 bits, whatever the lane mask.
-/
namespace Sys2Proof.Machine
open Sys2Proof

/-- A AND B (R182). -/
def execKand (d a b : KReg) (s : State) : Res := s.kSet d (s.getK a &&& s.getK b)

/-- A OR B (R182). -/
def execKor (d a b : KReg) (s : State) : Res := s.kSet d (s.getK a ||| s.getK b)

/-- A XOR B (R182). -/
def execKxor (d a b : KReg) (s : State) : Res := s.kSet d (s.getK a ^^^ s.getK b)

/-- A AND NOT B (R182). -/
def execKandn (d a b : KReg) (s : State) : Res := s.kSet d (s.getK a &&& ~~~(s.getK b))

/-- NOT A (R182). -/
def execKnot (d a : KReg) (s : State) : Res := s.kSet d (~~~(s.getK a))

/-- A (R182). -/
def execKmov (d a : KReg) (s : State) : Res := s.kSet d (s.getK a)

/-- Number of set bits of kA (R182). -/
def execKpop (d : SReg) (a : KReg) (s : State) : Res := s.kToS d (BitVec.ofNat 64 (popCount (s.getK a)))

/-- Index of the lowest set bit of kA, or 32 (R182). -/
def execKfirst (d : SReg) (a : KReg) (s : State) : Res := s.kToS d (BitVec.ofNat 64 (ctzBits (s.getK a)))

/-- kA zero-extended (R182). -/
def execKtos (d : SReg) (a : KReg) (s : State) : Res := s.kToS d ((s.getK a).setWidth 64)

/-- Bits [31:0] of sA (R182). -/
def execStok (d : KReg) (a : SReg) (s : State) : Res := s.kSet d ((s.getS a).setWidth 32)

end Sys2Proof.Machine
end

