-- ==== Sys2Proof/Machine/Matrix.lean ====
section
/-!
DEFINITION. The matrix instructions, major 0xC0, and the steps of the array (spec/09 R239 to R263).
-/
namespace Sys2Proof.Machine
open Sys2Proof

-- ## Weight sets (R239 to R243)

/-- Columns of a tile with elements of w bits. -/
def colsOf (t : Ty) : Nat := if t.width = 16 then 128 else if t.width = 8 then 256 else 512

/-- The code of w bits at a bit offset of a plane of bytes. -/
def planeCode (get : Nat → Byte) (w off : Nat) : Nat :=
  if w = 16 then (get (off / 8)).toNat + 256 * (get (off / 8 + 1)).toNat
  else if w = 8 then (get (off / 8)).toNat
  else (get (off / 8)).toNat / 2 ^ (off % 8) % 16

/-- Bytes of an image's element plane. -/
def planeBytes (t : Ty) (s24 : Bool) : Nat := (if s24 then 16 else 32) * t.width * colsOf t
/-- Bytes of an image's metadata (R241). -/
def metaBytes (t : Ty) (s24 : Bool) : Nat := (if s24 then 32 * colsOf t else 0) + (if t.isBlock then 16 * colsOf t else 0)

/-- The byte i of a sparse plane. -/
def atByte (m : List (Nat × Byte)) (i : Nat) : Byte := cellGet m i

/-- The 2:4 nibble of group g of column n: i0 and i1 (R242). -/
def WSet.nibble (w : WSet) (n g : Nat) : Nat × Nat :=
  let b := (atByte w.aux (32 * n + g / 2)).toNat / 2 ^ (4 * (g % 2)) % 16
  (b % 4, b / 4)

/-- S and P of block b of column n. -/
def WSet.scale (w : WSet) (n b : Nat) : Byte × Byte :=
  let o := (if w.s24 then 32 * colsOf w.fmt else 0) + 16 * n + 2 * b
  (atByte w.aux o, atByte w.aux (o + 1))

/-- The stored code of element k of column n; none for an element that 2:4 leaves zero (R242). -/
def WSet.code (w : WSet) (k n : Nat) : Option Nat :=
  let ww := w.fmt.width
  if w.s24 then
    let g := k / 4
    let i := w.nibble n g
    let at_ (j : Nat) : Nat := planeCode (atByte w.plane) ww (128 * ww * n + ww * j)
    if i.2 ≤ i.1 then none
    else if k % 4 = i.1 then some (at_ (2 * g))
    else if k % 4 = i.2 then some (at_ (2 * g + 1))
    else none
  else some (planeCode (atByte w.plane) ww (256 * ww * n + ww * k))

/-- W[k][n] (R242, R243). -/
def WSet.val (w : WSet) (k n : Nat) : FVal :=
  if w.fmt.isBlock then
    let s := w.scale n (k / 32)
    match w.code k n with
    | some c => blockVal w.fmt s.1 s.2 c
    | none => blockVal w.fmt s.1 0 0
  else
    match w.code k n with
    | some c => w.fmt.decode c
    | none => FVal.zero

/-- The counts of loading a set: blocks with scale 0xFF, malformed groups (R242, R243, R263). -/
def WSet.counts (w : WSet) : MCnt :=
  let cols := List.range (colsOf w.fmt)
  let sc := if w.fmt.isBlock then
      (cols.map (fun n => ((List.range 8).filter (fun b => (w.scale n b).1 == 0xFF)).length)).sum else 0
  let sp := if w.s24 then
      (cols.map (fun n => ((List.range 64).filter (fun g => (w.nibble n g).2 ≤ (w.nibble n g).1)).length)).sum else 0
  { nan := 0, inf := 0, scnan := BitVec.ofNat 16 (satAdd 16 0 sc), spidx := BitVec.ofNat 16 (satAdd 16 0 sp) }

-- ## Scratchpad extents of the array (R251 items 4 to 7)

/-- A scratchpad operand: its address, its alignment, and the extents from it: offset and length. -/
structure ScrOp where
  a : W64
  align : Nat
  exts : List (Nat × Nat)
  deriving DecidableEq, Repr

/-- The first byte of an operand's extents that lies beyond the partition (R108): partition offsets are contiguous. -/
def ScrOp.beyond (o : ScrOp) (limit : Nat) : Option W64 :=
  o.exts.findSome? (fun e =>
    let off := fld o.a 21 0 + e.1
    if off + e.2 ≤ limit then none else some (o.a + BitVec.ofNat 64 (e.1 + (limit - off))))

/-- Bytes of the issuing context's partition on the core. -/
def State.partBytes (s : State) : Nat := popCount (s.gmask s.cur.core s.me.ctx) * 0x30000

/-- Items 4 to 7 of R251 on scratchpad operands; `va` is a memory OUT, taken first at item 6. Where several operands fail one item,
STVAL is of the first of OUT, A and C (DESIGN CHOICE, log 84). -/
def State.scrOpsFail (s : State) (os : List ScrOp) (va : Option W64) : Option (Nat × W64) :=
  (os.find? (fun o => scrPeer s.cur.core o.a)).map (fun o => (48, o.a))
    <|> (os.find? (fun o => !scrRange o.a)).map (fun o => (26, o.a))
    <|> (va.filter (fun v => if s.who.untranslated then decide (2 ^ 48 ≤ v.toNat) else !canonical v)).map (fun v => (16, v))
    <|> (va.filter (fun v => v.toNat % 128 != 0)).map (fun v => (22, v))
    <|> (os.find? (fun o => o.a.toNat % o.align != 0)).map (fun o => (22, o.a))
    <|> os.findSome? (fun o => (o.beyond s.partBytes).map (fun x => (27, x)))

/-- Item 1 of R251: the string is whole, with all 32 lanes. -/
def State.wholeString (s : State) : Bool := s.me.single && s.sp.e == BitVec.allOnes 32 && s.sp.stack.isEmpty

-- ## Issue (R252, R253)

/-- A tile operation enters the queue and is counted; its counts are staged (R252, R263). The operation's number is returned. -/
def State.tileIssue (s : State) (mk : TileKind) : State × Nat :=
  let op := s.uids
  let zero : MCnt := { nan := 0, inf := 0, scnan := 0, spidx := 0 }
  let who : Issuer := { slot := s.cur.slot, uid := s.me.uid, op := op, ptroot := s.me.ptroot, mode := s.sp.mode }
  let s := s.newOp .tl false
  let s := s.modMe (fun t => { t with
    tls := (op :: t.tls).take 15
    mstage := t.mstage ++ [{ op := op, opDone := false, mode := s.sp.mode, openL := s.sp.e, cnt := zero }] })
  (s.modCore s.cur.core (fun x => { x with arr := { x.arr with
    queue := x.arr.queue ++ [{ kind := mk, who := who, ran := false, cnt := zero }] } }), op)

/-- The formats of the active and shadow sets once every queued operation is done: one that has run has had its effect. -/
def ArrayU.fmtsAfter (a : ArrayU) : Ty × Ty :=
  (a.queue.filter (fun q => !q.ran)).foldl (fun f q => match q.kind with
    | .mwld t _ _ _ => (f.1, t)
    | .mwsw => (f.2, f.1)
    | .mmac .. => f
    | .clear => (.bf16, .bf16)) (a.active.fmt, a.shadow.fmt)

/-- `mwld` (R255). -/
def execMwld (wt : Ty) (s24 : Bool) (a b : SReg) (s : State) : Res :=
  let va := s.getS a
  let vb := s.getS b
  let aux := metaBytes wt s24
  let os : List ScrOp := { a := va, align := 128, exts := [(0, planeBytes wt s24)] }
    :: (if aux = 0 then [] else [{ a := vb, align := 16, exts := [(0, aux)] }])
  .next (
    if !s.wholeString then s.trapAll 7 0
    else match s.scrOpsFail os none with
      | some (c, tv) => s.trapAll c tv
      | none =>
        if s.full .tl then s.holdMe
        else
          let r := s.tileIssue (.mwld wt s24 (fld va 21 0) (fld vb 21 0))
          (r.1.modMe (fun t => { t with sl := false })).adv 1)

/-- `mwsw` (R256): a commit point. -/
def execMwsw (s : State) : Res :=
  .next (
    if !s.wholeString then s.trapAll 7 0
    else if s.full .tl then s.holdMe
    else (((s.tileIssue .mwsw).1.modMe (fun t => { t with al := t.sl, sl := t.al })).commit 1).adv 1)

-- ## mmac (R248 to R251, R257)

/-- OSTR. -/
def geoOstr (g : W64) : Nat := fld g 47 24
/-- ASTR. -/
def geoAstr (g : W64) : Nat := fld g 23 8
/-- MROWS. -/
def geoRows (g : W64) : Nat := fld g 7 0 + 1

/-- Vector registers of an activation row from registers (R249). -/
def rowRegs (xt : Ty) : Nat := xt.width / 4

/-- Item 2 of R251 on the geometry. -/
def geoBad (g : W64) (asrc : Bool) : Bool :=
  fld g 63 48 != 0 || geoOstr g % 128 != 0 ||
    (if asrc then geoAstr g != 0 || decide (32 < geoRows g) else geoAstr g % 16 != 0)

/-- The last register of a register source (R249). -/
def lastReg (g : W64) (xt : Ty) (a : BitVec 8) : Nat := a.toNat + geoRows g * rowRegs xt - 1

/-- A chunk of a memory output checked (R251 items 8 and 9): its line, and the translations whose D it sets. -/
def State.outChunk (s : State) (sc : Scope) (va : W64) : State × XRes (Nat × List Tr) :=
  let r := s.check s.who .contrib 1 va 128
  match r.2 with
  | .fail o c => (r.1, .fail o c)
  | .sleep a => (r.1, .sleep a)
  | .hold => (r.1, .hold)
  | .ok a =>
    match a.lines with
    | l :: _ =>
      if !a.remote && r.1.poisoned l then (r.1, .fail ordPhys 23)
      else if a.reg.isSome then (r.1, .fail ordRange 49)
      else if a.remote then (r.1, if sc != .sys then .fail ordRange 49 else if a.sc && r.1.scBusy then .hold else .ok (l, a.trs))
      else
        match r.1.rangeOf l with
        | some q =>
          if a.sc && r.1.scBusy then (r.1, .hold)
          else if q.ending || q.fmt != .f32 || decide (q.scope.code.toNat < sc.code.toNat) then (r.1, .fail ordRange 49)
          else if q.starting then (r.1, .hold)
          else (r.1, .ok (l, a.trs))
        | none => (r.1, .fail ordRange 49)
    | [] => (r.1, .fail ordRange 49)

/-- The chunks of a memory output checked: items 8 for every chunk before item 9; the lines with their translations, or the first failure
with its address. -/
def State.outChunks (s : State) (sc : Scope) (vas : List W64) : State × XRes (List (Nat × List Tr)) × W64 :=
  let r := vas.foldl (fun (r : State × List (W64 × XRes (Nat × List Tr))) va =>
    let q := r.1.outChunk sc va; (q.1, r.2 ++ [(va, q.2)])) (s, [])
  let bad (p : XRes (Nat × List Tr) → Bool) := r.2.find? (fun x => p x.2)
  match bad (fun x => match x with | .sleep _ => true | _ => false), bad (fun x => match x with | .hold => true | _ => false),
        bad (fun x => match x with | .fail o _ => o != ordRange | _ => false),
        bad (fun x => match x with | .fail _ _ => true | _ => false) with
  | some (va, .sleep a), _, _, _ => (r.1, .sleep a, va)
  | _, _, some (va, .fail o c), _ => (r.1, .fail o c, va)
  | _, _, _, some (va, .fail o c) => (r.1, .fail o c, va)
  | _, some (va, _), _, _ => (r.1, .hold, va)
  | _, _, _, _ => (r.1, .ok (r.2.filterMap (fun x => match x.2 with | .ok l => some l | _ => none)), 0)

/-- A tile operation will read registers of the string: their physical registers stay until it has (R147). Entries that nothing reads any
more go. -/
def Str.lend (t : Str) (op : Nat) (rs : List VReg) : Str :=
  let live := t.lent.filter (fun x => x.2.any t.reading)
  let add (ls : List (Option VReg × List Nat)) (r : VReg) : List (Option VReg × List Nat) :=
    if ls.any (fun x => x.1 == some r) then ls.map (fun x => if x.1 == some r then (x.1, op :: x.2) else x) else ls ++ [(some r, [op])]
  { t with lent := rs.foldl add live }

/-- `mmac` issued: its registers on loan, its lines known; a commit point in an add mode (R253, R261). -/
def State.mmacIssue (s : State) (xt : Ty) (sc : Scope) (osp add asrc : Bool) (out : Nat) (a : BitVec 8) (src : Nat)
    (scl : Nat) (geo : W64) (lines : List Nat) : State :=
  let rs : List VReg := if asrc then (List.range (geoRows geo * rowRegs xt)).map (fun i => VReg.plus a i) else []
  let s := if asrc then s.spoil [vA a (geoRows geo * rowRegs xt)] else s
  let regs : List LaneVec := rs.map (fun r => (s.me.vreg[r.toFin]).getD (gen 32 (fun _ => 0)))
  let q := s.tileIssue (.mmac xt sc osp add asrc out src scl geo regs lines)
  let s := q.1.modMe (fun t => { t.lend q.2 rs with loans := t.loans ++ rs.map (fun r => (r, q.2)) })
  (if add then s.commit 1 else s).adv 1

/-- `mmac` (R257). -/
def execMmac (xt : Ty) (sc : Scope) (osp add asrc : Bool) (d : SReg) (a : BitVec 8) (b c : SReg) (s : State) : Res :=
  let out := s.getS d
  let geo := s.getS b
  let va := s.getS (a.setWidth 6)
  let vc := s.getS c
  let rows := List.range (geoRows geo)
  let n := colsOf s.core.arr.fmtsAfter.1
  let vops := if asrc then [vA a (geoRows geo * rowRegs xt)] else []
  let outExts := rows.map (fun m => (m * geoOstr geo, 4 * n))
  let os : List ScrOp :=
    (if osp then [{ a := out, align := 128, exts := outExts }] else [])
      ++ (if asrc then [] else [{ a := va, align := 16, exts := rows.map (fun m => (m * geoAstr geo, 32 * xt.width)) }])
      ++ (if xt.isBlock then [{ a := vc, align := 16, exts := [(0, 16 * geoRows geo)] }] else [])
  .next (
    if !s.wholeString then s.trapAll 7 0
    else if geoBad geo asrc then s.trapAll 48 geo
    else if asrc && decide (255 < lastReg geo xt a) then s.trapAll 48 (BitVec.ofNat 64 (lastReg geo xt a))
    else match s.me.allotFail s.sp.e vops with
    | some tv => s.trapAll 6 tv
    | none =>
    match s.scrOpsFail os (if osp then none else some out) with
    | some (code, tv) => s.trapAll code tv
    | none =>
      let vas := if osp then [] else outExts.flatMap (fun e =>
        (List.range (e.2 / 128)).map (fun i => out + BitVec.ofNat 64 (e.1 + 128 * i)))
      let q := s.outChunks sc vas
      match q.2.1 with
      | .fail _ code => q.1.trapAll code q.2.2
      | .sleep x => q.1.sleepOn x q.1.sp.e q.2.2
      | .hold => q.1.holdMe
      | .ok ls =>
        let issue (s : State) : State :=
          s.mmacIssue xt sc osp add asrc (fld out 21 0) a (fld va 21 0) (fld vc 21 0) geo (ls.map (·.1))
        if q.1.me.al then q.1.trapAll 50 0
        else if q.1.full .tl then q.1.holdMe
        else
          let w := q.1.setDirties (distinctTrs (ls.flatMap (·.2)))
          match w.2 with
          | .ok =>
            if ls.any (fun x => lineRemote x.1) then
              let g := w.1.remoteGo w.1.sp.m out (((ls.find? (fun x => lineRemote x.1)).map (fun x => x.1 * 128)).getD 0) true false
              if g.2 then issue g.1.remoteDone else g.1.holdMe
            else issue w.1
          | .sleep x => w.1.sleepOn x w.1.sp.e ((((vas.zip ls).find? (fun y => w.1.trsSleep y.2.2)).map (·.1)).getD out)
          | _ => w.1.holdMe)

/-- `mrdy` (R258): every earlier write of a register or of scratchpad has been performed when an instruction issues here. -/
def execMrdy (s : State) : Res := .next (if !s.wholeString then s.trapAll 7 0 else s.adv 1)

/-- The tile operations that `mwait n` covers: all but the string's last n. -/
def Str.covered (t : Str) (n op : Nat) : Bool := !(t.tls.take n).contains op

/-- `mwait` (R259): held until the covered operations are complete, or with OPND have read their operands. An operation shown complete
has its registers on loan no more. -/
def execMwait (opnd : Bool) (n : BitVec 4) (s : State) : Res :=
  let busy := s.me.ops.filter (fun o => o.cls == .tl && s.me.covered n.toNat o.id && !(opnd && o.readDone))
  .next (
    if !s.wholeString then s.trapAll 7 0
    else if busy.isEmpty then
      if opnd then s.adv 1 else (s.modMe (fun t => { t with loans := t.loans.filter (fun x => !t.covered n.toNat x.2) })).adv 1
    else s.holdMe)

/-- The counters as `mcnt` returns them (R263). -/
def MCnt.word (m : MCnt) : W64 := (m.nan ++ m.inf ++ m.scnan ++ m.spidx : BitVec 64)

/-- `mcnt` (R260): with CLR, a commit point that zeroes the committed counters. -/
def execMcnt (clr : Bool) (d : SReg) (s : State) : Res :=
  .next (
    if !s.wholeString then s.trapAll 7 0
    else
      let s' := s.setS d s.me.mcnt.word
      if clr then ((s'.modMe (fun t => { t with mcnt := { nan := 0, inf := 0, scnan := 0, spidx := 0 } })).commit 1).adv 1
      else s'.adv 1)

-- ## The array at work (R252, R254)

/-- A sets-changing operation stands before place i. -/
def blockedAt (q : List TileOp) (i : Nat) : Bool :=
  (q.take i).any (fun o => match o.kind with | .mwsw | .clear => true | _ => false)

/-- The place of the first operation of a kind that has not run and may start (R252). -/
def ArrayU.startable (a : ArrayU) (p : TileKind → Bool) : Option Nat :=
  (a.queue.findIdx? (fun o => p o.kind && !o.ran)).filter (fun i => !blockedAt a.queue i)

/-- An operation of the queue changed. -/
def State.modTile (s : State) (c : CoreId) (i : Nat) (f : TileOp → TileOp) : State :=
  s.modCore c (fun x => { x with arr := { x.arr with queue := x.arr.queue.modify i f } })

/-- The operands of an operation have been read (R259). -/
def State.tileRead (s : State) (c : CoreId) (w : Issuer) : State :=
  s.modUid c w.uid (fun t => { t with ops := t.ops.map (fun o => if o.id == w.op then { o with readDone := true } else o) })

/-- n bytes of a context's scratchpad read by the array; a byte of a poisoned word is a free value (R408 gives none). Of the values that
R261 allows, a byte's newest is read, a whole image or stream in one step (DESIGN CHOICE, log 85). -/
def State.arrRead (s : State) (c : CoreId) (ctx : BitVec 12) (off n : Nat) : List Byte :=
  (List.range n).map (fun i =>
    match granPlace c (s.gmask c ctx) (off + i) with
    | some (.scr d o) =>
      if s.scrPz.contains (scrKey d o / 8) then (Config.freeLane s.free (scrKey d o)).setWidth 8
      else cellGet s.scr (scrKey d o)
    | _ => 0)

/-- Bytes as a sparse plane. -/
def sparse (bs : List Byte) : List (Nat × Byte) := ((List.range bs.length).zip bs).filter (fun x => x.2 != 0)

/-- TILE_MWLD_LOAD (R255). -/
def execTileMwldLoad (s : State) : Res :=
  match s.ev with
  | .tileMwldLoad c =>
    let a := s.cores[c].arr
    match a.startable (fun k => match k with | .mwld .. => true | _ => false) with
    | some i =>
      match a.queue[i]? with
      | some o =>
        match o.kind with
        | .mwld wt s24 pa ma =>
          let ctx := ctxOf o.who.ptroot
          let w : WSet := { fmt := wt, s24 := s24, plane := sparse (s.arrRead c ctx pa (planeBytes wt s24))
                            aux := sparse (s.arrRead c ctx ma (metaBytes wt s24)) }
          let s' := s.modCore c (fun x => { x with arr := { x.arr with shadow := w } })
          .next { (s'.modTile c i (fun o => { o with ran := true, cnt := w.counts })).tileRead c o.who with free := s.free + 1 }
        | _ => .next s
      | none => .next s
    | none => .next s
  | _ => .fault .notThisEvent

/-- TILE_MWSW_EXCHANGE (R252, R256): every earlier load is complete, every earlier stream is over. -/
def execTileMwswExchange (s : State) : Res :=
  match s.ev with
  | .tileMwswExchange c =>
    let a := s.cores[c].arr
    match a.startable (fun k => match k with | .mwsw => true | _ => false) with
    | some i =>
      let ready := (a.queue.take i).all (fun o => match o.kind with | .mwld .. => false | _ => o.ran)
      match a.queue[i]? with
      | some o =>
        if ready then
          .next (((s.modCore c (fun x => { x with arr := { x.arr with active := x.arr.shadow, shadow := x.arr.active } })).modTile c i
            (fun o => { o with ran := true })).tileRead c o.who)
        else .next s
      | none => .next s
    | none => .next s
  | _ => .fault .notThisEvent

/-- The byte i of an activation row held in registers (R249). -/
def regByte (regs : List LaneVec) (m r i : Nat) : Byte :=
  let v := regs.getD (m * r + i / 128) (gen 32 (fun _ => 0))
  ((v.toArray.getD (i % 128 / 4) 0) >>> (8 * (i % 4))).setWidth 8

/-- Row m of an activation stream: the 256 values, and the number of blocks with scale 0xFF. -/
def actRow (xt : Ty) (elems scales : Nat → Byte) : List FVal × Nat :=
  let vals := (List.range 256).map (fun k =>
    let c := planeCode elems xt.width (xt.width * k)
    if xt.isBlock then blockVal xt (scales (2 * (k / 32))) (scales (2 * (k / 32) + 1)) c else xt.decode c)
  (vals, if xt.isBlock then ((List.range 8).filter (fun b => scales (2 * b) == 0xFF)).length else 0)

/-- y(m, n) for one column (R34, R250). -/
def colSum (w : WSet) (xs : List FVal) (n : Nat) : FVal :=
  kSum (((List.range 256).zip xs).map (fun kx => (kx.2.mul (w.val kx.1 n)).1))

/-- The emission of one row (R250). -/
def State.emitRow (s : State) (c : CoreId) (o : Issuer) (sc : Scope) (osp add : Bool) (off : Nat) (lines : List Nat) (ys : List W32) :
    State :=
  if osp then
    let ctx := ctxOf o.ptroot
    let old := s.arrRead c ctx off (4 * ys.length)
    let vals := ((List.range ys.length).zip ys).map (fun iy =>
      if add then add32 (le32 ((old.drop (4 * iy.1)).take 4)) iy.2 else iy.2)
    (segs off (4 * ys.length)).foldl (fun s g =>
      match granPlace c (s.gmask c ctx) g.1 with
      | some p => s.putBytes p (((vals.flatMap (fun v => leBytes 4 v.toNat)).drop (g.1 - off)).take g.2)
      | none => s) s
  else
    ((List.range ys.length).zip ys).foldl (fun s iy =>
      s.rodAddAt (dieOf c) sc .f32 (lines.getD (iy.1 / 32) 0 * 128 + iy.1 % 32 * 4) (iy.2.setWidth 64)) s

/-- The counts of one row's outputs. -/
def rowCounts (ys : List FVal) (sc : Nat) : MCnt :=
  let n := (ys.filter FVal.isNan).length
  let i := (ys.filter (fun y => match y with | .inf _ => true | _ => false)).length
  { nan := BitVec.ofNat 16 n, inf := BitVec.ofNat 16 i, scnan := BitVec.ofNat 16 sc, spidx := 0 }

/-- y as the array counts and emits it: rounded once, so that a total beyond FP32 is an infinity. -/
def rounded (y : FVal) : W32 := rn32 y

/-- TILE_MMAC_STREAM (R250, R257): the rows in ascending m. -/
def execTileMmacStream (s : State) : Res :=
  match s.ev with
  | .tileMmacStream c =>
    let a := s.cores[c].arr
    match a.startable (fun k => match k with | .mmac .. => true | _ => false) with
    | some i =>
      match a.queue[i]? with
      | some o =>
        match o.kind with
        | .mmac xt sc osp add asrc out src scl geo regs lines =>
          let ctx := ctxOf o.who.ptroot
          let n := colsOf a.active.fmt
          let per := 4 * n / 128
          let r := (List.range (geoRows geo)).foldl (fun (r : State × MCnt) m =>
            let bytes := if asrc then [] else r.1.arrRead c ctx (src + m * geoAstr geo) (32 * xt.width)
            let scales := if xt.isBlock then r.1.arrRead c ctx (scl + 16 * m) 16 else []
            let row := actRow xt (fun i => if asrc then regByte regs m (rowRegs xt) i else bytes.getD i 0) (fun i => scales.getD i 0)
            let ys := (List.range n).map (fun j => rounded (colSum a.active row.1 j))
            (r.1.emitRow c o.who sc osp add (out + m * geoOstr geo) ((lines.drop (m * per)).take per) ys,
             r.2.add (rowCounts (ys.map fv32) row.2))) (s, { nan := 0, inf := 0, scnan := 0, spidx := 0 })
          .next { (r.1.modTile c i (fun o => { o with ran := true, cnt := r.2 })).tileRead c o.who with free := s.free + 1 }
        | _ => .next s
      | none => .next s
    | none => .next s
  | _ => .fault .notThisEvent

/-- TILE_OP_COMPLETE (R246, R263): the first operation that has run leaves the queue, TL falls and its counts are staged; a
clearing at the head of the queue is done. -/
def execTileOpComplete (s : State) : Res :=
  match s.ev with
  | .tileOpComplete c =>
    let a := s.cores[c].arr
    match a.queue with
    | o :: r =>
      if o.kind = .clear then
        .next (s.modCore c (fun x => { x with arr := { x.arr with active := WSet.cleared, shadow := WSet.cleared, queue := r } }))
      else
        match a.queue.findIdx? (·.ran) with
        | some i =>
          match a.queue[i]? with
          | some o =>
            let s := s.modCore c (fun x => { x with arr := { x.arr with queue := x.arr.queue.eraseIdx i } })
            let s := s.modUid c o.who.uid (fun t =>
              ({ t with mstage := t.mstage.map (fun (x : MStage) => if x.op == o.who.op then ({ x with opDone := true, cnt := o.cnt } : MStage) else x) } : Str).settleCounts)
            .next (s.opDone c o.who.uid o.who.op)
          | none => .next s
        | none => .next s
    | [] => .next s
  | _ => .fault .notThisEvent

/-- A split that holds lanes of a mask waits for the array. -/
def Split.claims (m : Mask) (x : Split) : Bool := x.wait == .array && (x.m &&& m) != 0

/-- Some split of the string claims with lanes of a mask. -/
def Str.claims (t : Str) (m : Mask) : Bool := t.allSplits.any (Split.claims m)

/-- The string's splits wait for the array no more: what one of them claims is all of its string's. -/
def Str.wakeArray (t : Str) : Str :=
  let wake (x : Split) : Split := if x.wait == .array then { x with wait := .none } else x
  { t with splits := t.splits.map wake, park := t.park.map wake }

/-- A place in a core's array queue given up, or every place of a string. -/
def State.leaveArray (s : State) (c : CoreId) (p : Nat × Mask → Bool) : State :=
  s.modCore c (fun x => { x with arr := { x.arr with waiters := x.arr.waiters.filter (fun w => !p w) } })

/-- A split of a string that waits for the array without a place in the core's queue (R244). -/
def outside (ws : List (Nat × Mask)) (uid : Nat) (x : Split) : Bool :=
  x.wait == .array && !ws.any (fun w => w.1 == uid && (w.2 &&& x.m) != 0)

/-- A string's splits without a place wait no more. -/
def Str.wakeOutside (ws : List (Nat × Mask)) (t : Str) : Str :=
  let wake (x : Split) : Split := if outside ws t.uid x then { x with wait := .none } else x
  { t with splits := t.splits.map wake, park := t.park.map wake }

/-- The core's queue has room again, and splits wait without a place in it. -/
def Core.arrayRoom (x : Core) : Bool :=
  decide (x.arr.waiters.length < 16) &&
    (x.strs.toList ++ x.spilled.map (·.str)).any (fun t => t.allSplits.any (outside x.arr.waiters t.uid))

/-- The splits that found the queue full enter their headers again, and so claim a place (R244; log 103). -/
def State.callOutside (s : State) (c : CoreId) : State :=
  let ws := s.cores[c].arr.waiters
  (s.modCore c (fun x => { x with
    strs := x.strs.map (Str.wakeOutside ws)
    spilled := x.spilled.map (fun (p : Spilled) => { p with str := p.str.wakeOutside ws }) })).noteSpilled c

/-- A grant is due: the array is free, and the next claimant is not a woken string whose restore is awaited. -/
def State.grantDue (s : State) (c : CoreId) : Bool :=
  s.cores[c].arr.owner.isNone && (match s.arrayNext c with
    | some w => !s.cores[c].spilled.any (fun p => p.str.uid == w.1 && p.woken)
    | none => false)

/-- The queue of claims has something to do. -/
def State.arrayGrant (s : State) (c : CoreId) : Bool := s.cores[c].arrayRoom || s.grantDue c

/-- ARRAY_CLAIM_GRANT (R244, R246): the released array goes to the split that has waited longest, and every waiting split of its
string enters its header again as the owner's. A spilled claimant is woken, and claims when it is restored. Splits that found the queue
full are served once it has room. -/
def execArrayClaimGrant (s : State) : Res :=
  match s.ev with
  | .arrayClaimGrant c =>
    if s.cores[c].arrayRoom then .next (s.callOutside c)
    else match s.cores[c].arr.owner, s.arrayNext c with
    | none, some (uid, m) =>
      match allSlots.find? (fun k => (s.strAt c k).present && (s.strAt c k).uid == uid) with
      | some k =>
        if (s.strAt c k).claims m then
          .next (((s.leaveArray c (fun w => w.1 == uid)).ownArray c k).modStr c k Str.wakeArray)
        else .next (s.leaveArray c (fun w => w == (uid, m)))
      | none =>
        let q := (s.modUid c uid Str.wakeArray).noteSpilled c
        if q.cores[c].spilled.any (fun p => p.str.uid == uid && p.woken) then .next q
        else .next (q.leaveArray c (fun w => w == (uid, m)))
    | _, _ => .next s
  | _ => .fault .notThisEvent

end Sys2Proof.Machine
end

