-- ==== Sys2Proof/Machine/Scalar.lean ====
section
/-!
DEFINITION. The scalar group, majors 0x00 to 0x07 (spec/07 R176 to R181).
-/
namespace Sys2Proof.Machine
open Sys2Proof

/-- A + B modulo 2^w (R177). -/
def execSadd (t : Ty) (d a b : SReg) (s : State) : Res := s.sBin t d a b (fun x y => x + y)

/-- A − B modulo 2^w (R177). -/
def execSsub (t : Ty) (d a b : SReg) (s : State) : Res := s.sBin t d a b (fun x y => x - y)

/-- Low w bits of A × B (R177). -/
def execSmul (t : Ty) (d a b : SReg) (s : State) : Res := s.sBin t d a b (fun x y => x * y)

/-- High w bits of the product (R177). -/
def execSmulh (t : Ty) (d a b : SReg) (s : State) : Res := s.sBin t d a b (mulHigh t)

/-- A AND B (R177). -/
def execSand (t : Ty) (d a b : SReg) (s : State) : Res := s.sBin t d a b (fun x y => x &&& y)

/-- A OR B (R177). -/
def execSor (t : Ty) (d a b : SReg) (s : State) : Res := s.sBin t d a b (fun x y => x ||| y)

/-- A XOR B (R177). -/
def execSxor (t : Ty) (d a b : SReg) (s : State) : Res := s.sBin t d a b (fun x y => x ^^^ y)

/-- A shifted left by the whole of B (R177). -/
def execSshl (t : Ty) (d a b : SReg) (s : State) : Res := s.sShift t d a b shlBits

/-- A shifted right by B, filled with zeros (R177). -/
def execSshr (t : Ty) (d a b : SReg) (s : State) : Res := s.sShift t d a b shrBits

/-- A shifted right by B, filled with bit w − 1 (R177). -/
def execSsar (t : Ty) (d a b : SReg) (s : State) : Res := s.sShift t d a b sarBits

/-- The lesser by the type (R177). -/
def execSmin (t : Ty) (d a b : SReg) (s : State) : Res := s.sBin t d a b (minBits t)

/-- The greater by the type (R177). -/
def execSmax (t : Ty) (d a b : SReg) (s : State) : Res := s.sBin t d a b (maxBits t)

/-- A AND NOT B (R177). -/
def execSandn (t : Ty) (d a b : SReg) (s : State) : Res := s.sBin t d a b (fun x y => x &&& ~~~y)

/-- `sadd` on 64 bits with the sign-extended immediate, as `.i64` (R177). -/
def execSaddI (d a : SReg) (imm : W32) (s : State) : Res := s.sImm d a imm (fun x y => x + y)

/-- `ssub` on 64 bits with the sign-extended immediate, as `.i64` (R177). -/
def execSsubI (d a : SReg) (imm : W32) (s : State) : Res := s.sImm d a imm (fun x y => x - y)

/-- `smul` on 64 bits with the sign-extended immediate, as `.i64` (R177). -/
def execSmulI (d a : SReg) (imm : W32) (s : State) : Res := s.sImm d a imm (fun x y => x * y)

/-- `smulh` on 64 bits with the sign-extended immediate, as `.i64` (R177). -/
def execSmulhI (d a : SReg) (imm : W32) (s : State) : Res := s.sImm d a imm (fun x y => mulHigh .i64 x y)

/-- `sand` on 64 bits with the sign-extended immediate, as `.i64` (R177). -/
def execSandI (d a : SReg) (imm : W32) (s : State) : Res := s.sImm d a imm (fun x y => x &&& y)

/-- `sor` on 64 bits with the sign-extended immediate, as `.i64` (R177). -/
def execSorI (d a : SReg) (imm : W32) (s : State) : Res := s.sImm d a imm (fun x y => x ||| y)

/-- `sxor` on 64 bits with the sign-extended immediate, as `.i64` (R177). -/
def execSxorI (d a : SReg) (imm : W32) (s : State) : Res := s.sImm d a imm (fun x y => x ^^^ y)

/-- `sshl` on 64 bits with the sign-extended immediate, as `.i64` (R177). -/
def execSshlI (d a : SReg) (imm : W32) (s : State) : Res := s.sImm d a imm (fun x y => shlBits x y.toNat)

/-- `sshr` on 64 bits with the sign-extended immediate, as `.i64` (R177). -/
def execSshrI (d a : SReg) (imm : W32) (s : State) : Res := s.sImm d a imm (fun x y => shrBits x y.toNat)

/-- `ssar` on 64 bits with the sign-extended immediate, as `.i64` (R177). -/
def execSsarI (d a : SReg) (imm : W32) (s : State) : Res := s.sImm d a imm (fun x y => sarBits x y.toNat)

/-- `smin` on 64 bits with the sign-extended immediate, as `.i64` (R177). -/
def execSminI (d a : SReg) (imm : W32) (s : State) : Res := s.sImm d a imm (fun x y => minBits .i64 x y)

/-- `smax` on 64 bits with the sign-extended immediate, as `.i64` (R177). -/
def execSmaxI (d a : SReg) (imm : W32) (s : State) : Res := s.sImm d a imm (fun x y => maxBits .i64 x y)

/-- `sandn` on 64 bits with the sign-extended immediate, as `.i64` (R177). -/
def execSandnI (d a : SReg) (imm : W32) (s : State) : Res := s.sImm d a imm (fun x y => x &&& ~~~y)

/-- 1 if the relation holds between the low w bits of sA and sB, read by the type, else 0 (R178). -/
def execScmp (cc : Cc) (t : Ty) (d a b : SReg) (s : State) : Res :=
  let x := intOf t ((s.getS a).setWidth t.width)
  let y := intOf t ((s.getS b).setWidth t.width)
  .next ((s.setS d (if cc.holds (ordOf x y) then 1 else 0)).adv 1)

/-- As `execScmp`, with the sign-extended immediate as `.i64` (R178). -/
def execScmpI (cc : Cc) (d a : SReg) (imm : W32) (s : State) : Res :=
  .next ((s.setS d (if cc.holds (ordOf (s.getS a).toInt imm.toInt) then 1 else 0)).adv 1)

/-- Quotient toward zero (R179). -/
def execSdiv (t : Ty) (d a b : SReg) (s : State) : Res := s.sBin t d a b (divBits t)

/-- Remainder with the sign of A (R179). -/
def execSrem (t : Ty) (d a b : SReg) (s : State) : Res := s.sBin t d a b (remBits t)

/-- The sign-extended immediate (R180). -/
def execSliI (d : SReg) (imm : W32) (s : State) : Res := .next ((s.setS d (imm.signExtend 64)).adv 1)

/-- The second word; the instruction takes two words (R180, R158). -/
def execSliL (d : SReg) (imm : W64) (s : State) : Res := .next ((s.setS d imm).adv 2)

/-- sA if sC ≠ 0, otherwise sB (R181). -/
def execSsel (_t : Ty) (d a b c : SReg) (s : State) : Res :=
  .next ((s.setS d (if s.getS c ≠ 0 then s.getS a else s.getS b)).adv 1)

/-- Number of one-bits in the low w bits (R181). -/
def execSpop (t : Ty) (d a : SReg) (s : State) : Res := s.sCount t d a popCount

/-- Number of leading zeros in the low w bits (R181). -/
def execSclz (t : Ty) (d a : SReg) (s : State) : Res := s.sCount t d a clzBits

/-- Number of trailing zeros in the low w bits (R181). -/
def execSctz (t : Ty) (d a : SReg) (s : State) : Res := s.sCount t d a ctzBits

/-- sA + sB × 2^sh modulo 2^64; no address is checked (R181). -/
def execSlea (d a b : SReg) (sh : BitVec 3) (s : State) : Res :=
  .next ((s.setS d (s.getS a + (s.getS b <<< sh.toNat))).adv 1)

end Sys2Proof.Machine
end

