-- ==== Sys2Proof/Machine/Steal.lean ====
section
/-!
DEFINITION. The steps of launches, queues, stealing and task start (spec/13 R340 to R359, spec/05 R110, R131 to R133).
-/
namespace Sys2Proof.Machine
open Sys2Proof

-- ## Launch submission (R340, R341)

/-- A launch record's fields are within R340. -/
def recordOk (w : Nat → W64) : Bool :=
  let rcnt := fld (w 3) 63 58
  let csc := fld (w 1) 63 61
  fld (w 0) 63 57 == 0 && fld (w 0) 6 0 == 0 && (csc == 3 || csc == 4) && fld (w 1) 60 57 == 0 && fld (w 2) 63 57 == 0
    && decide (rcnt ≤ 32) && fld (w 3) 57 57 == 0 && fld (w 4) 63 57 == 0 && (rcnt != 0 || (fld (w 3) 56 0 == 0 && w 4 == 0))
    && fld (w 5) 63 57 == 0 && fld (w 5) 6 0 == 0 && fld (w 6) 53 32 == 0 && fld (w 7) 47 0 == 0

/-- LSTAT with the outcome of a submission. -/
def State.setLstat (s : State) (err slot : Nat) : State := { s with lstat := BitVec.ofNat 64 (err * 2 ^ 12 + slot) }

/-- COMPL and STATUS of a record pass their checks (R341): none while a check must wait. -/
def State.launchPlaces (s : State) (l : Launch) : State × Option Bool :=
  let b := s.barCheck l.who false (va57 l.words[1])
  let st := va57 l.words[2]
  let c := b.1.check l.who .store 8 st 8
  match b.2, c.2 with
  | .sleep _, _ | .hold, _ | _, .sleep _ | _, .hold => (c.1, none)
  | .ok _, .ok a => (c.1, some a.reg.isNone)
  | _, _ => (c.1, some false)

/-- An accepted launch: its slot, and the root manifest in queue BQ (R341). -/
def State.acceptLaunch (s : State) (i : Fin 64) (l : Launch) (root : List Byte) : State :=
  let e : SEnt := { bytes := manifestCopy root .sys false i 0, ctx := ctxOf l.ptroot, launch := i }
  ((s.modLaunch i (fun _ => l)).pushQueue l.bq e).setLstat 0 i.val

/-- A submission: its checks in ascending ERR order; BUSY while one of them must wait. An accepted launch gets the lowest free slot, and a
submission tried again reads the record that LDOOR0 names then: DESIGN CHOICE (log 102). -/
def State.submit (s : State) (v : W64) : State :=
  let s := { s with ldoor1 := v }
  match (List.finRange 64).find? (fun i => !(s.launches[i]).on) with
  | none => s.setLstat 1 0
  | some i =>
    let pt := v &&& 0xFFF0FFFFFFFFF001
    let w := whoOf 0 pt .user
    let r := s.getAll w (va57 s.ldoor0).toNat 64
    let root := if r.2.err = 0 then r.1.getAll w (va57 (wordAt r.2.bytes 0)).toNat 128 else (r.1, Taken.none)
    let busy (s' : State) : State := { s.waited s' with lstat := 1#64 <<< 63 }
    if r.2.waits || root.2.waits then busy root.1
    else if r.2.err ≠ 0 || root.2.err ≠ 0 then root.1.setLstat 2 0
    else
      let ws : Vector W64 8 := gen 8 (fun k => wordAt r.2.bytes k)
      let n := fld ws[3] 63 58
      let l0 : Launch := { on := true, live := 1, tasks := 0, words := ws, ptroot := pt, poolUsed := [], record := va57 s.ldoor0, ended := false, rlist := [], counts := [] }
      let q := root.1.bazaar[l0.bq]
      let ok := recordOk (fun k => wordAt r.2.bytes k) && fld s.ldoor0 5 0 == 0 && !imageBad root.2.bytes
      let p := root.1.launchPlaces l0
      match p.2 with
      | none => if ok then busy p.1 else root.1.setLstat 3 0
      | some good =>
        if !ok || !good || !q.valid || q.ctx != ctxOf pt then p.1.setLstat 3 0
        else if !q.room then p.1.setLstat 4 0
        else
          let g := if n = 0 then (p.1, Taken.none) else p.1.getAll w (va57 ws[3]).toNat (16 * n)
          if g.2.waits then busy g.1
          else
            -- a list that cannot be read stands as malformed entries (log 41)
            let rl := if g.2.err = 0 then rlistOf n g.2.bytes else List.replicate n (0, 0)
            g.1.acceptLaunch i { l0 with rlist := rl, counts := List.replicate n (0, 0) } root.2.bytes

/-- LAUNCH_SUBMIT (R341). -/
def execLaunchSubmit (s : State) : Res :=
  match s.ev with
  | .launchSubmit v => .next (s.submit v)
  | _ => .fault .notThisEvent

-- ## Bazaar queues (R350)

/-- The live count of a discarded entry's launch lowered: in its slot, or in the image of a saved context. -/
def State.discardEnt (s : State) (e : SEnt) : State :=
  if s.images.any (fun i => i.ctx == e.ctx && i.pending.isEmpty) then
    { s with images := s.images.map (fun i => if i.ctx == e.ctx then
        { i with launches := i.launches.map (fun l => if l.1 == e.launch then (l.1, { l.2 with live := l.2.live - 1 }) else l) } else i) }
  else s.liveDown e.launch

/-- A queue's entries discarded. -/
def State.emptyQueue (s : State) (q : Fin 16) : State :=
  let es := (s.bazaar[q]).q
  es.foldl State.discardEnt (s.modQueue q (fun _ => []))

/-- RING lies in the direct window of a die present in MDIEMAP. -/
def State.ringOk (s : State) (v : W64) : Bool :=
  let pa := fld v 47 12 * 4096
  decide (0x100000000000 ≤ pa) && decide (pa < 0x10C000000000) && s.um.mdie.getLsbD ((pa - 0x100000000000) / 2 ^ 36)

/-- BAZAAR_QUEUE_ENABLE (R350). -/
def execBazaarQueueEnable (s : State) : Res :=
  match s.ev with
  | .bazaarQueueEnable q v =>
    let lcap := fld (s.bazaar[q]).w1 4 0
    let w := maskIn 0 0x8000FFFFFFFFF000 v
    let w := if s.ringOk v && decide (6 ≤ lcap) && decide (lcap ≤ 16) then w else w &&& 0x7FFFFFFFFFFFFFFF
    let s := s.emptyQueue q
    .next { s with bazaar := s.bazaar.set q { s.bazaar[q] with w0 := w, head := 0 } }
  | _ => .fault .notThisEvent

/-- BAZAAR_QUEUE_DISABLE (R350). -/
def execBazaarQueueDisable (s : State) : Res :=
  match s.ev with
  | .bazaarQueueDisable q v =>
    let s := s.emptyQueue q
    .next { s with bazaar := s.bazaar.set q { s.bazaar[q] with w0 := maskIn 0 0x0000FFFFFFFFF000 v } }
  | _ => .fault .notThisEvent

-- ## Finding work (R346 to R348)

/-- The distance classes and tries of a core (R349). -/
def Core.maxd (x : Core) : Nat := fld x.stealdist 2 0
/-- TRIES. -/
def Core.tries (x : Core) : Nat := fld x.stealdist 11 8

/-- The working clusters' cores (R2), of the compute dies that are in service (R72). -/
def State.working (s : State) (c : CoreId) : Bool := s.um.clmask.getLsbD (clusterOf c).val && !s.deadAgents.contains (agentOf (dieOf c))

/-- The count that a core reports to others (R346): its entries that no `stlpause` keeps from thieves and whose context runs. Whether a thief
has the granules for one is found when it probes (log 86). -/
def State.offered (s : State) (c : CoreId) : Nat :=
  s.cores[c].serai.countP (fun e => (s.launches[e.launch]).on && s.taking e.ctx && !s.cores[c].isClosed e.ctx)

/-- The takeable entries that a victim is reported with: by itself for class 1, in the summary of its die for classes 2 and 3. -/
def State.reported (s : State) (thief victim : CoreId) : Nat :=
  if distClass thief victim = 1 then s.cores[victim].shown
  else ((s.drove.find? (fun d => d.1 == dieOf victim)).bind (fun d => d.2.find? (fun p => p.1 == victim))).elim 0 (·.2)

/-- The victims of a class in the order in which they are probed: the fullest first, ties in class 1 by the lowest CIDX, else by the
drove network's choice. -/
def State.victims (s : State) (c : CoreId) (cls : Nat) : List CoreId :=
  let vs := allCores.filter (fun v => distClass c v == cls && s.working v && decide (0 < s.reported c v))
  let k := if vs.isEmpty || cls == 1 then 0 else Config.choose s.free % vs.length
  ((vs.drop k ++ vs.take k).mergeSort (fun a b => decide (s.reported c b ≤ s.reported c a))).take s.cores[c].tries

/-- The victims that a search probes, in order: TRIES of each class (R346, R347). -/
def State.probeList (s : State) (c : CoreId) : List CoreId := ([1, 2, 3].filter (fun k => decide (k ≤ s.cores[c].maxd))).flatMap (s.victims c)

/-- The first of some victims that still holds a takeable entry. -/
def State.holding (s : State) (c : CoreId) (vs : List CoreId) : Option CoreId := vs.find? (fun v => !(s.takeable c v).isEmpty)

/-- The first probed victim that still holds a takeable entry. -/
def State.victimFor (s : State) (c : CoreId) : Option CoreId := s.holding c (s.probeList c)

/-- The queue from which a core takes: in rotation, its head takeable. -/
def State.queueFor (s : State) (c : CoreId) : Option (Fin 16) :=
  let r := s.cores[c].bazRot % 16
  let qs := (List.finRange 16).drop r ++ (List.finRange 16).take r
  qs.find? (fun q => (s.bazaar[q]).valid && (s.bazaar[q]).stl && s.cores[c].stealdist.getLsbD (16 + q.val)
    && (match (s.bazaar[q]).q with | e :: _ => s.canRun c e | [] => false))

/-- The core may start a string. -/
def State.mayStart (s : State) (c : CoreId) : Bool := s.working c && !s.cores[c].stopped && !s.bootFailed

/-- Steps 3 and 4 of R346, with some victims to probe: one that has been found empty was a probe of its class (R347). -/
def State.searchAmong (s : State) (c : CoreId) (k : SlotId) (vs : List CoreId) : State :=
  match s.holding c vs with
  | some v => { s.modCore c (fun x => { x with probe := some v, probes := (vs.dropWhile (· != v)).drop 1 }) with free := s.free + 1 }
  | none =>
    match s.queueFor c with
    | some q =>
      match s.queueHead q with
      | some e => ((s.popQueue q).modCore c (fun x => { x with bazRot := q.val + 1 })).takeInto c k e
      | none => s
    | none => s.modCore c (fun x => { x with retryAt := s.cyc + 64 })

/-- Steps 2 to 4 of R346. -/
def State.searchWork (s : State) (c : CoreId) (k : SlotId) : State :=
  match (s.takeable c c).head? with
  | some e => (s.modCore c (fun x => { x with serai := x.serai.erase e })).takeInto c k e
  | none => s.searchAmong c k (s.probeList c)

/-- STEAL_SEARCH (R346). -/
def execStealSearch (s : State) : Res :=
  match s.ev with
  | .stealSearch c =>
    match s.cores[c].freeSlot with
    | none => .next s
    | some k =>
      if !s.mayStart c then .next s
      else if (s.firstWoken c).isSome then .next (s.soon (.spillRestore c k))
      else if (s.returning c).isSome then .next (s.soon (.evictedShareReturn c))
      else .next (s.searchWork c k)
  | _ => .fault .notThisEvent

/-- STEAL_RETRY (R346): 64 core cycles after a search that found nothing. -/
def execStealRetry (s : State) : Res :=
  match s.ev with
  | .stealRetry c => .next (if s.cores[c].retryAt ≤ s.cyc then s.soon (.stealSearch c) else s)
  | _ => .fault .notThisEvent

/-- STEAL_TAKE (R344, R347, R348): the entry nearest the cold end; a take that crosses its release scope waits for the victim core's
stores (R327). A core that finds its victim empty searches on among the victims that its search has still to probe. -/
def execStealTake (s : State) : Res :=
  match s.ev with
  | .stealTake c v =>
    let vs := s.cores[c].probes
    let s := s.modCore c (fun x => { x with probe := none, probes := [] })
    match s.cores[c].freeSlot, (s.takeable c v).getLast? with
    | some k, some e =>
      let crosses := decide (e.rsc.code.toNat < distClass c v)
      if !s.mayStart c || (crosses && s.pend.any (fun p => p.core == v)) then .next s
      else .next ((s.modCore v (fun x => { x with serai := (x.serai.reverse.erase e).reverse })).takeInto c k e)
    | some k, none => .next (if s.mayStart c then s.searchAmong c k vs else s)
    | none, _ => .next s
  | _ => .fault .notThisEvent

/-- Every core's count reported to its cluster peers at the end of a core cycle (R346): a count that rises from 0 ends its peers' waits. -/
def State.showCounts (s : State) : State :=
  let now := allCores.map (fun c => (c, s.offered c))
  let rose := (now.filter (fun p => decide (0 < p.2) && s.cores[p.1].shown == 0)).map (·.1)
  now.foldl (fun s p => s.modCore p.1 (fun x =>
    { x with shown := p.2, retryAt := if rose.any (fun v => distClass p.1 v == 1) then 0 else x.retryAt })) s

/-- DROVE_SUMMARY (R346): the counts of a die's cores; a count that rises from 0 ends the waits of idle cores. -/
def execDroveSummary (s : State) : Res :=
  match s.ev with
  | .droveSummary d =>
    let now : List (CoreId × Nat) := (allCores.filter (fun c => dieOf c == d)).map (fun c => (c, s.offered c))
    let old : List (CoreId × Nat) := ((s.drove.find? (fun x => x.1 == d)).map (·.2)).getD []
    let rose := now.any (fun p => decide (0 < p.2) && !old.any (fun q => q.1 == p.1 && decide (0 < q.2)))
    let s := { s with drove := (d, now.filter (fun p => decide (0 < p.2))) :: s.drove.filter (fun x => x.1 != d) }
    .next (if rose then { s with cores := s.cores.map (fun (x : Core) => { x with retryAt := 0 }) } else s)
  | _ => .fault .notThisEvent

/-- STEAL_PAUSE_LAPSE (R367): 65,536 core cycles after the latest `stlpause`. -/
def execStealPauseLapse (s : State) : Res :=
  match s.ev with
  | .stealPauseLapse c ctx =>
    .next (s.modCore c (fun x => { x with closed := x.closed.filter (fun p => !(p.1 == ctx && decide (p.2 + 65536 ≤ s.cyc))) }))
  | _ => .fault .notThisEvent

-- ## The steal ring (R352)

/-- The launches in use with a RING tag. -/
def State.ringLaunches (s : State) : List (Fin 64) := (List.finRange 64).filter (fun i => (s.launches[i]).on && (s.launches[i]).ring != 0)

/-- The launch with a tag. -/
def State.ringLaunch (s : State) (tag : BitVec 16) : Option (Fin 64) := s.ringLaunches.find? (fun i => (s.launches[i]).ring == tag)

/-- Entries of a ring launch in its own queue. -/
def State.ringEntries (s : State) (i : Fin 64) : List SEnt := (s.queueNow (s.launches[i]).bq).filter (fun e => e.launch == i)

/-- The load byte of the device. -/
def State.ringLoad (s : State) : Nat := min 255 ((s.ringLaunches.map (fun i => (s.ringEntries i).length)).sum / 16)

/-- An entry from another device joins the launch with its tag; one without room stays on the token. -/
def State.joinEntry (s : State) (i : Fin 64) (bs : List Byte) : State :=
  let e0 : SEnt := { bytes := bs, ctx := ctxOf (s.launches[i]).ptroot, launch := i }
  let e := { e0 with bytes := manifestCopy bs e0.rsc e0.fut.isSome i (wordAt bs 2) }
  (s.pushQueue (s.launches[i]).bq e).liveUp i

/-- The token's entries for this device pushed. -/
def State.takeEntries (s : State) (es : List (Nat × BitVec 16 × List Byte)) : State × List (Nat × BitVec 16 × List Byte) :=
  es.foldl (fun r x =>
    match s.ringLaunch x.2.1 with
    | some i =>
      if x.1 == r.1.um.devnum.toNat && (r.1.bazaar[(r.1.launches[i]).bq]).room then (r.1.joinEntry i x.2.2, r.2) else (r.1, r.2 ++ [x])
    | none => (r.1, r.2 ++ [x])) (s, [])

/-- A request of another device filled: at most half of the eligible entries, from the head of the queue. -/
def State.fillReq (s : State) (dev : Nat) (tag : BitVec 16) (n : Nat) : State × List (Nat × BitVec 16 × List Byte) :=
  match s.ringLaunch tag with
  | some i =>
    let es := s.ringEntries i
    let out := es.take (min n (es.length / 2))
    let s := s.keepQueue (s.launches[i]).bq (out.foldl (fun q e => q.erase e) (s.queueNow (s.launches[i]).bq))
    (out.foldl (fun s _ => s.liveDown i) s, out.map (fun e => (dev, tag, e.bytes)))
  | none => (s, [])

/-- The requests that this device fills; it sends nothing while a store is still on its way (the `.sys` fence of R327). -/
def State.fillReqs (s : State) (reqs : List (Nat × BitVec 16 × Nat)) :
    State × List (Nat × BitVec 16 × Nat) × List (Nat × BitVec 16 × List Byte) :=
  reqs.foldl (fun r x =>
    if x.1 != r.1.um.devnum.toNat && (r.1.ringLaunch x.2.1).isSome && decide (2 ≤ r.1.ringLoad) && r.1.pend.isEmpty then
      let f := r.1.fillReq x.1 x.2.1 x.2.2
      (f.1, r.2.1, r.2.2 ++ f.2)
    else (r.1, r.2.1 ++ [x], r.2.2)) (s, [], [])

/-- A core has found nothing (R346). -/
def State.idleCore (s : State) : Bool := s.cores.any (fun x => decide (s.cyc < x.retryAt) && x.freeSlot.isSome)

/-- CARAVAN_TOKEN (R352). -/
def execCaravanToken (s : State) : Res :=
  match s.ev with
  | .caravanToken loads reqs entries =>
    match s.ring, s.token with
    | some _, none =>
      let a := s.takeEntries entries
      let f := a.1.fillReqs reqs
      let me := a.1.um.devnum.toNat
      let load := f.1.ringLoad
      let ask := load == 0 && f.1.idleCore && decide (f.2.1.length < 4) && !f.2.1.any (fun x => x.1 == me)
      let mine := if ask then ((f.1.ringLaunches.head?).map (fun i => (me, (f.1.launches[i]).ring, 8))).toList else []
      .next { f.1 with token := some { loads := (me, load) :: loads.filter (fun x => x.1 != me), reqs := f.2.1 ++ mine,
                                       entries := a.2 ++ f.2.2, since := f.1.ptime } }
    | _, _ => .next s
  | _ => .fault .notThisEvent

/-- CARAVAN_TOKEN_PASS (R352). -/
def execCaravanTokenPass (s : State) : Res :=
  match s.ev with
  | .caravanTokenPass => .next { s with token := none }
  | _ => .fault .notThisEvent

-- ## Task start (R353, R354) and staging (R131 to R133)

/-- The state of R354 on a slot that holds a manifest. A region begins at ENTRY for every lane (R353 step 5, R133). -/
def Str.started (t : Str) (e : SEnt) : Str :=
  let w (i : Nat) : W64 := wordAt e.bytes i
  let x : Split := { Split.empty with
    pc := e.entry, m := BitVec.allOnes 32, e := BitVec.allOnes 32, mode := .user, enter := true }
  let t := { t with
    sreg := ((((((Vector.replicate 64 0).set 0 (w 4)).set 1 (w 5)).set 2 (w 6)).set 3 (w 7)).set 4 (va57 (w 2)))
    vreg := (Vector.replicate 256 none).set 0 (some (gen 32 (BitVec.ofNat 32)))
    rseed := w 3, lanes := gen 32 (Lane.start (w 3))
    rsc := e.rsc, fut := e.fut
    splits := (Vector.replicate 4 Split.empty).set 0 x }
  (t.beginRegion (BitVec.allOnes 32) .user e.entry e.entry).markFirst (BitVec.allOnes 32)

/-- TASK_START (R353 steps 1 to 3). -/
def execTaskStart (s : State) : Res :=
  match s.ev with
  | .taskStart c k =>
    let t := s.strAt c k
    match t.st, t.staging with
    | .staging, some g =>
      if g.begun then .next s
      else
        let l := s.launches[g.ent.launch]
        let s := ((s.l1Acquire c).allocPart c g.ent.ctx l.gran l.keep).assignCluster c g.ent.ctx
        let s := s.modStr c k (fun t => { t.started g.ent with staging := some { g with begun := true } })
        .next (s.modCore c (fun x => x.unkeep g.ent.ctx))
    | _, _ => .next s
  | _ => .fault .notThisEvent

/-- Bytes of an operand (R131). -/
def opBytes (w1 : W64) : Nat := (fld w1 41 32 + 1) * ((fld w1 31 20 + 1) * 16)

/-- The fault of a descriptor's checks (R133): cause and STVAL. -/
def State.descFault (s : State) (c : CoreId) (ctx : BitVec 12) (d : Nat × W64 × W64) : Option (Nat × W64) :=
  let w0 := d.2.1
  let dst := fld d.2.2 63 42
  if fld w0 62 57 ≠ 0 ∨ fld w0 3 0 ≠ 0 ∨ dst % 16 ≠ 0 then some (18, BitVec.ofNat 64 d.1)
  else if popCount (s.gmask c ctx) * 0x30000 < dst + opBytes d.2.2 then some (27, BitVec.ofNat 64 dst)
  else none

/-- An operand staged: its rows read and packed in the partition; what was read with the first fault. Its accesses count for the launch
(R102), and its lines are filled as the launch's ranges say (R101). -/
def State.stageOp (s : State) (c : CoreId) (t : Str) (d : Nat × W64 × W64) : State × Taken :=
  let w := whoOf c t.ptroot .user
  let rl := (fld d.2.2 31 20 + 1) * 16
  let dst := fld d.2.2 63 42
  let src := (va57 d.2.1).toNat
  (List.range (fld d.2.2 41 32 + 1)).foldl (fun (r : State × Taken) k =>
    let va := (src + k * (fld d.2.2 19 0 * 16)) % 2 ^ 64
    let a := (segs va rl).foldl (fun (a : State × Taken) g =>
      let va' := BitVec.ofNat 64 g.1
      let ls := match (a.1.check w .load 1 va' 1).2 with | .ok x => x.lines.filter (fun l => !lineRemote l) | _ => []
      let s := ls.foldl (fun s l => s.countRange t.launch c va' l) a.1
      let q := s.take w false g.1 g.2 (g.1 - va) a.2
      (q.1.insertLow s t.launch c va' ls, q.2)) (r.1, Taken.none)
    let l := a.1.land w true (dst + k * rl) rl 0 { a.2 with err := 0 }
    (l.1, { data := [], err := if r.2.err ≠ 0 then r.2.err else if a.2.err ≠ 0 then a.2.err else l.2.err
            addr := if r.2.err ≠ 0 then r.2.addr else if a.2.err ≠ 0 then a.2.addr else l.2.addr
            waits := r.2.waits || a.2.waits || l.2.waits })) (s, Taken.none)

/-- Every user lane that stands at the task's entry traps there (R133). -/
def State.stageTrap (s : State) (c : CoreId) (k : SlotId) (entry : W64) (code : Nat) (tval : W64) : State :=
  let t := s.strAt c k
  (t.slotted.filter (fun j => t.splits[j].mode == .user && t.splits[j].pc == entry)).foldl (fun s j =>
    s.asSplit { core := c, slot := k, split := j } (fun s => s.trapAll code tval)) s

/-- A string's operands wait for, or are with, the Porter (R132). -/
def Str.ported (t : Str) : Bool :=
  match t.st, t.staging with
  | .staging, some g => g.begun && !g.ent.ops.isEmpty
  | _, _ => false

/-- The slots of a core whose operands its Porter is staging: four at most, the first started first (R132). -/
def State.porting (s : State) (c : CoreId) : List SlotId :=
  ((allSlots.filter (fun k => (s.strAt c k).ported)).mergeSort (fun a b => decide ((s.strAt c a).uid ≤ (s.strAt c b).uid))).take 4

/-- PORTER_STAGING_COMPLETE (R132, R133): every operand is staged and the slot becomes READY; a fault traps every lane at
ENTRY. -/
def execPorterStagingComplete (s : State) : Res :=
  match s.ev with
  | .porterStagingComplete c k =>
    let t := s.strAt c k
    match t.st, t.staging with
    | .staging, some g =>
      if !g.begun || !(g.ent.ops.isEmpty || (s.porting c).contains k) then .next s
      else
        let ready (s : State) : State := s.modStr c k (fun t => { t with st := .ready, age := s.cyc })
        match g.ent.ops.findSome? (s.descFault c g.ent.ctx) with
        | some (code, tv) => .next ((ready s).stageTrap c k g.ent.entry code tv)
        | none =>
          let r := g.ent.ops.foldl (fun (r : State × Taken) d =>
            let a := r.1.stageOp c t d
            (a.1, { data := [], err := if r.2.err ≠ 0 then r.2.err else a.2.err, addr := if r.2.err ≠ 0 then r.2.addr else a.2.addr
                    waits := r.2.waits || a.2.waits })) (s, Taken.none)
          .next (
            if r.2.waits then s.waited r.1
            else if r.2.err ≠ 0 then (ready r.1).stageTrap c k g.ent.entry r.2.err r.2.addr
            else ready r.1)
    | _, _ => .next s
  | _ => .fault .notThisEvent

-- ## Partitions (R110)

/-- The conditions of R110 under which a partition is released. -/
def State.mayRelease (s : State) (c : CoreId) (p : Part) : Bool :=
  let x := s.cores[c]
  !x.strs.any (fun t => t.present && t.ctx == p.ctx) && !x.spilled.any (fun q => q.str.ctx == p.ctx)
    && !x.evicted.any (fun e => e.ctx == p.ctx)
    && !x.convoy.any (fun t => ctxOf t.who.ptroot == p.ctx)
    && !x.chains.any (fun k => match k with | some k => ctxOf k.who.ptroot == p.ctx | none => false)
    && !(p.keep && s.launches.any (fun l => l.on && l.keep && ctxOf l.ptroot == p.ctx))

/-- PARTITION_RELEASE (R110). -/
def execPartitionRelease (s : State) : Res :=
  match s.ev with
  | .partitionRelease c ctx =>
    match s.partOf c ctx with
    | some p => .next (if s.mayRelease c p then s.modCore c (fun x => { x with parts := x.parts.filter (· != p) }) else s)
    | none => .next s
  | _ => .fault .notThisEvent

-- ## Park spill and restore (R358, R359)

/-- The conditions of R358 on a core. -/
def State.maySpill (s : State) (c : CoreId) : Bool :=
  let x := s.cores[c]
  (match x.allParked with | some n => decide (n + 64 ≤ s.cyc) | none => false)
    && x.strs.all (fun t => t.st == .ready && t.parked)
    && (!(s.takeable c c).isEmpty || allCores.any (fun v => v != c && s.working v && decide (distClass c v ≤ x.maxd)))

/-- The slots of a core, the earliest parked first. -/
def Core.byParked (x : Core) : List SlotId :=
  allSlots.mergeSort (fun a b => decide (x.strs[a].parkedAt < x.strs[b].parkedAt)
    || (x.strs[a].parkedAt == x.strs[b].parkedAt && decide (a.val ≤ b.val)))

/-- PARK_SPILL (R358). -/
def execParkSpill (s : State) : Res :=
  match s.ev with
  | .parkSpill c =>
    if s.maySpill c then
      match (s.cores[c].byParked).find? (fun k => s.hasPool (s.strAt c k)) with
      | some k => .next ((s.spillStr c k false).getD s)
      | none => .next s
    else .next s
  | _ => .fault .notThisEvent

/-- SPILL_RESTORE (R359). -/
def execSpillRestore (s : State) : Res :=
  match s.ev with
  | .spillRestore c k =>
    match s.firstWoken c with
    | some p => .next (if (s.strAt c k).present || !s.mayStart c then s else s.restoreStr c k p)
    | none => .next s
  | _ => .fault .notThisEvent

end Sys2Proof.Machine
end

