-- ==== Sys2Proof/Machine/Sched.lean ====
section
/-!
DEFINITION. Issue (spec/13 R355 to R357, spec/14 R372, R375), the fetch and decode of an instruction (spec/06 R153 to R166), spilling and filling
of physical registers (R147), and the steps that a core cycle makes due (log 7).
-/
namespace Sys2Proof.Machine
open Sys2Proof

-- ## Physical registers (R147)

/-- The most physical registers that one write takes (R139, R202). -/
def mostRegs : Nat := 4

/-- A register that a tile operation has still to read (R147). -/
def Str.awaited (t : Str) (r : Nat) : Bool :=
  t.lent.any (fun x => (match x.1 with | some v => v.toNat == r | none => false) && x.2.any t.reading)

/-- The register of a string that is spilled first: the one whose last write is oldest among those that hold a value, stand in a
physical register and await no asynchronous read. Of several with equally old last writes the lowest number goes: DESIGN CHOICE
(log 65). -/
def Str.victimReg (t : Str) : Option Nat :=
  let cs := (List.range 256).filter (fun r => (t.vreg.toArray.getD r none).isSome && !t.vspill.getLsbD r && !t.awaited r)
  let oldest := (cs.map (fun r => t.vstamp.toArray.getD r 0)).foldl min ((cs.map (fun r => t.vstamp.toArray.getD r 0)).headD 0)
  cs.find? (fun r => t.vstamp.toArray.getD r 0 == oldest)

/-- The slots of a core by the physical registers that their strings use, the most first; ties by the lowest slot. -/
def Core.byRegs (x : Core) : List SlotId :=
  (allSlots.filter (fun k => x.strs[k].present)).mergeSort (fun a b =>
    decide (x.strs[b].physical < x.strs[a].physical) || (x.strs[a].physical == x.strs[b].physical && decide (a.val ≤ b.val)))

/-- A register of a string written to its place in the spill region; a fault is a context fault of kind 2. -/
def State.spillReg (s : State) (c : CoreId) (k : SlotId) (r : Nat) (w : Who) (area : Nat) : State :=
  let t := s.strAt c k
  match t.vreg.toArray.getD r none with
  | none => s
  | some v =>
    let q := s.putAll w (area + 128 * r) (laneBytes v)
    if q.2.waits then s.waited q.1
    else if q.2.err ≠ 0 then q.1.soon (.contextFault t.ctx 2)
    else q.1.modStr c k (fun t => { t with vspill := t.vspill ||| (1#256 <<< r) })

/-- The first string of a core that can take a spill: its slot, the register, and its spill region. A string without an image or a pool record
is passed over (R411). -/
def State.spillVictim (s : State) (c : CoreId) : Option (SlotId × Nat) :=
  (s.cores[c].byRegs).findSome? (fun k =>
    match (s.strAt c k).victimReg with
    | some r => if (s.spillArea c k).2.isSome then some (k, r) else none
    | none => none)

/-- REGISTER_SPILL (R147): until a write finds room, beside what pre-emption holds (R416). -/
def execRegisterSpill (s : State) : Res :=
  match s.ev with
  | .registerSpill c =>
    if mostRegs + s.cores[c].keptRegs ≤ s.freeRegs c then .next s
    else
      match s.spillVictim c with
      | some (k, r) =>
        let q := s.spillArea c k
        match q.2 with
        | some (w, a) => .next (q.1.spillReg c k r w a)
        | none => .next s
      | none => .next s
  | _ => .fault .notThisEvent

/-- REGISTER_FILL (R147). -/
def execRegisterFill (s : State) : Res :=
  match s.ev with
  | .registerFill c k r =>
    let t := s.strAt c k
    if !t.vspill.getLsbD r.toNat then .next s
    else
      let q := s.spillArea c k
      match q.2 with
      | none => .next s
      | some (w, a) =>
        let g := q.1.getAll w (a + 128 * r.toNat) 128
        .next (
          if g.2.waits then s.waited g.1
          else if g.2.err ≠ 0 then g.1.soon (.contextFault t.ctx 2)
          else g.1.modStr c k (fun t => { t with
            vreg := t.vreg.set r.toFin (some (lanesOfBytes g.2.bytes)), vspill := t.vspill &&& ~~~(1#256 <<< r.toNat) }))
  | _ => .fault .notThisEvent

/-- The registers that an instruction names; an `mmac` may name any register of its string. -/
def namedRegs (t : Str) (i : Instr) : List Nat :=
  match i with
  | .mmac .. => (List.range 256).filter (fun r => t.vspill.getLsbD r)
  | _ => (vopsOf i).flatMap (fun o => (List.range o.n).map (fun n => (o.reg.toNat + n) % 256))

/-- The physical registers that an instruction's destinations take: a new one for every register written, whether it holds a value or not
(R144, R147). -/
def newRegs (i : Instr) : Nat :=
  ((((vopsOf i).filter (fun o => !o.src)).flatMap (fun o => (List.range o.n).map (fun n => (o.reg.toNat + n) % 256))).eraseDups).length

-- ## What may issue (R356, R357, R372)

/-- A split that no hold of this cycle and no wait stops. One whose wait is satisfied completes its instruction when it next issues. -/
def Split.free (x : Split) (cyc : Nat) : Bool :=
  x.m != 0 && (match x.wait with | .none | .passed _ => true | .held n | .whole n | .opnds n _ _ => n != cyc | _ => false)

/-- A split whose hold keeps its string's other splits from issuing (R130, R303). -/
def Split.holdsAll (x : Split) : Bool := x.m != 0 && (match x.wait with | .whole _ => true | _ => false)

/-- The strings of a core may issue: it works, and no start-up failure stands (R2, R445, R448, R449). -/
def State.coreRuns (s : State) (c : CoreId) : Bool :=
  s.working c && !s.cores[c].stopped && !s.cores[c].gated && !s.bootFailed

/-- The slotted splits of a string that may issue; while one of them holds the string, that one alone. -/
def State.freeSplits (s : State) (c : CoreId) (k : SlotId) : List SplitId :=
  let t := s.strAt c k
  (List.finRange 4).filter (fun j => (t.splits[j]).free s.cyc && (t.splits[j].holdsAll || !t.splits.any Split.holdsAll))

/-- The string in a slot may issue: READY, its context neither faulted nor being saved, not in the course of an eviction (R355, R409,
R415). -/
def State.strRuns (s : State) (c : CoreId) (k : SlotId) : Bool :=
  let t := s.strAt c k
  t.st == .ready && s.coreRuns c && !s.faulted t.ctx && !s.saving t.ctx && !s.evicting c k && !(s.freeSplits c k).isEmpty

/-- Instructions that a core issues in a cycle (R357, R447); a device that is too hot takes both measures of R447 at once (R449; log 105). -/
def State.width (s : State) : Nat := if s.halved || s.throttled then 1 else 2

/-- The cycles that are withheld from `mmac` streams, every other one, on every core (R447; log 105). -/
def State.withheld (s : State) : Bool := (s.withhold || s.throttled) && s.cyc % 2 == 1

/-- A split chosen: it goes to the issue list. -/
def State.pick (s : State) (c : CoreId) (k : SlotId) (j : SplitId) : State :=
  { s.modCore c (fun x => { x with issued := (k, j) :: x.issued }) with issue := s.issue ++ [.split c k j] }

/-- The first of a list that has the greatest measure. -/
def pickMax (f : α → Nat) (xs : List α) : Option α :=
  let top := (xs.map f).foldl max 0
  xs.find? (fun x => f x == top)

/-- The first of a list that has the least measure. -/
def pickMin (f : α → Nat) (xs : List α) : Option α :=
  let low := (xs.map f).foldl min ((xs.map f).headD 0)
  xs.find? (fun x => f x == low)

/-- The core has room to issue and the string in a slot has not issued in this cycle. -/
def State.mayPick (s : State) (c : CoreId) (k : SlotId) : Bool :=
  decide (s.cores[c].issued.length < s.width) && !s.cores[c].issued.any (·.1 == k) && s.strRuns c k

/-- The cycles of R357 and R372 after which a string or split is starved. -/
def starvedAfter : Nat := 256

/-- R372 on a chosen string: a starved split, else the highest mode, the lowest PC, the lowest lane. -/
def State.pickSplit (s : State) (c : CoreId) (k : SlotId) : State :=
  let t := s.strAt c k
  let js := s.freeSplits c k
  match pickMax (fun j => t.splits[j].starve) (js.filter (fun j => decide (starvedAfter ≤ t.splits[j].starve))) with
  | some j => s.soon (.splitStarvation c k j)
  | none =>
    let top := (js.map (fun j => modeRank t.splits[j].mode)).foldl max 0
    let js := js.filter (fun j => modeRank t.splits[j].mode == top)
    let low := (js.map (fun j => t.splits[j].pc.toNat)).foldl min ((js.map (fun j => t.splits[j].pc.toNat)).headD 0)
    match pickMin (fun j => ctzBits t.splits[j].m) (js.filter (fun j => t.splits[j].pc.toNat == low)) with
    | some j => s.pick c k j
    | none => s

/-- ISSUE_CYCLE (R357): a starved string, else the one with the oldest age; ties by the lowest slot. -/
def execIssueCycle (s : State) : Res :=
  match s.ev with
  | .issueCycle c =>
    let ks := allSlots.filter (s.mayPick c)
    .next (match pickMax (fun k => (s.strAt c k).ready) (ks.filter (fun k => decide (starvedAfter ≤ (s.strAt c k).ready))) with
      | some k => s.soon (.stringStarvation c k)
      | none => match pickMin (fun k => (s.strAt c k).age) ks with
        | some k => s.pickSplit c k
        | none => s)
  | _ => .fault .notThisEvent

/-- STRING_STARVATION (R357). -/
def execStringStarvation (s : State) : Res :=
  match s.ev with
  | .stringStarvation c k =>
    .next (if s.mayPick c k && decide (starvedAfter ≤ (s.strAt c k).ready) then s.pickSplit c k else s)
  | _ => .fault .notThisEvent

/-- SPLIT_STARVATION (R372). -/
def execSplitStarvation (s : State) : Res :=
  match s.ev with
  | .splitStarvation c k j =>
    .next (if s.mayPick c k && (s.freeSplits c k).contains j && decide (starvedAfter ≤ ((s.strAt c k).splits[j]).starve) then s.pick c k j else s)
  | _ => .fault .notThisEvent

-- ## Fetch and decode (R154, R155, R158, R165, R166)

/-- The block's LEN reaches the word at an address. -/
def Split.within (x : Split) (a : W64) : Bool := decide (a.toNat ≤ x.blk.toNat + 8 * hdrLen x.hdr)

/-- The first word of a long form. -/
def isLong (w : W64) : Bool := fld w 63 56 == 5 && fld w 51 48 == 1

/-- The words at the issuing split's PC decoded: the instruction, or what happens instead. -/
def State.fetchInstr (s : State) : State × Option Instr :=
  let x := s.sp
  let pc := x.pc
  let r := s.fetch64 s.who pc
  match r.2 with
  | .fail _ c => (r.1.trapAll c pc, none)
  | .sleep a => (r.1.sleepOn a r.1.sp.e pc, none)
  | .hold => (r.1.holdMe, none)
  | .ok w =>
    if isLong w then
      let q := r.1.fetch64 r.1.who (pc + 8)
      match q.2 with
      | .fail _ c => (q.1.trapAll c (pc + 8), none)
      | .sleep a => (q.1.sleepOn a q.1.sp.e (pc + 8), none)
      | .hold => (q.1.holdMe, none)
      | .ok w2 =>
        if !x.within (pc + 8) then (q.1.soon (.illegalInstruction w), none)
        else
          match decode w w2 with
          | some i => (q.1, some i)
          | none => (q.1.soon (.illegalInstruction w), none)
    else if fld w 63 56 = 0xC0 ∧ !hdrMx x.hdr then (r.1.soon (.illegalInstruction w), none)
    else
      match decode w 0 with
      | some i => (r.1, some i)
      | none => (r.1.soon (.illegalInstruction w), none)

/-- A string that resumes inside a block with MX = 1 without owning the array claims it first (R244). -/
def State.reclaim (s : State) : State × Bool :=
  if hdrMx s.sp.hdr && s.core.arr.owner != some (s.cur.slot, s.me.uid) then s.claimArray else (s, true)

/-- The issuing split finds too few free physical registers: it waits up to 64 core cycles, and then the core spills (R147). -/
def State.regShort (s : State) : State :=
  let mine (r : SlotId × SplitId × Nat) : Bool := r.1 == s.cur.slot && r.2.1 == s.cur.split
  match s.core.regWait.find? mine with
  | some r => if r.2.2 + 64 ≤ s.cyc then s.holdMe.soon (.registerSpill s.cur.core) else s.holdMe
  | none => (s.modCore s.cur.core (fun x => { x with regWait := x.regWait ++ [(s.cur.slot, s.cur.split, s.cyc)] })).holdMe

/-- The issuing split has found its physical registers: its wait for them is over. -/
def State.regsFound (s : State) : State :=
  let mine (r : SlotId × SplitId × Nat) : Bool := r.1 == s.cur.slot && r.2.1 == s.cur.split
  if s.core.regWait.any mine then s.modCore s.cur.core (fun x => { x with regWait := x.regWait.filter (fun r => !mine r) }) else s

/-- The registers that an instruction needs stand in physical registers, or the step that brings them there (R147). -/
def State.withRegs (s : State) (i : Instr) : State × Option Instr :=
  let t := s.me
  match (namedRegs t i).find? (fun r => t.vspill.getLsbD r) with
  | some r => (s.holdMe.soon (.registerFill s.cur.core s.cur.slot (BitVec.ofNat 8 r)), none)
  | none => if s.freeRegsFor s.cur.core t.ctx < newRegs i then (s.regShort, none) else (s.regsFound, some i)

/-- A chosen split about to issue (R375): it enters its block, or its instruction is fetched. -/
def State.prepareSplit (s : State) : State × Option Instr :=
  let h := s.readHeader
  let s := h.1
  if !h.2 then (s, none)
  else if s.sp.mustEnter then (s.soon .blockEntry, none)
  else
    let s := s.modMe (fun t => t.mergeInto s.cur.split false)
    let r := s.reclaim
    if !r.2 then (r.1, none)
    else
      let f := r.1.fetchInstr
      match f.2 with
      | none => f
      | some i => f.1.withRegs i

/-- The next instruction of the running abacus (R307, R311). -/
def State.prepareAbacus (s : State) : State × Option Instr :=
  match (s.abAt s.curAb.1 s.curAb.2).run with
  | none => (s, none)
  | some r =>
    if r.ended.isSome then (s, none)
    else if abLimit ≤ r.steps then (s.soon (.abacusStepLimit s.curAb.1 s.curAb.2), none)
    else
      match r.prog[r.pc]? with
      | none => (s.endRun 5 0, none)
      | some w =>
        match decodeAbacus w with
        | some i => (s, some i)
        | none => (s.endRun 1 0, none)

/-- What an entry of the issue list brings to issue. -/
def State.prepare (s : State) (x : IssueRef) : State × Option Instr :=
  match x with
  | .abacus d p => State.prepareAbacus { s with curAb := (d, p) }
  | .split c k j =>
    let s := { s with cur := { core := c, slot := k, split := j } }
    if s.strRuns c k && (s.freeSplits c k).contains j then (s.modSp (fun x => { x with starve := 0, wait := x.wait.retried })).prepareSplit
    else (s, none)

/-- A split is held in a cycle. -/
def Str.heldIn (t : Str) (j : SplitId) (cyc : Nat) : Bool :=
  match (t.splits[j]).wait with
  | .held n | .whole n | .opnds n _ _ => n == cyc
  | _ => false

/-- The count of R372 with which an entry of the issue list comes to issue. -/
def State.starveOf (s : State) (x : IssueRef) : Nat :=
  match x with
  | .abacus _ _ => 0
  | .split c k j => ((s.strAt c k).splits[j]).starve

/-- The issuing split enters a block in the next step. -/
def State.entering (s : State) : Bool := s.agenda.head? == some .blockEntry

/-- After a split has issued, its counts are 0. One that a hold stopped has not issued: it has its count `n` again, and the core looks for
another (R357, R372). So has one that is about to enter a block, until it has. -/
def State.afterIssue (s : State) (x : IssueRef) (n : Nat) : State :=
  match x with
  | .abacus _ _ => s
  | .split c k j =>
    let back (t : Str) : Str := t.modSplit j (fun x => { x with starve := n })
    if s.entering then s.modStr c k back
    else
    let s := if (s.strAt c k).heldIn j s.cyc then (s.modCore c (fun y => { y with issued := y.issued.filter (·.1 != k) })).modStr c k back
             else match ((s.strAt c k).splits[j]).wait with
               | .passed _ => s.modStr c k back
               | _ => s.modStr c k (fun t => { t with ready := 0 })
    s.later (.issueCycle c)

/-- BLOCK_ENTRY (R153) by the issuing split: entering a block is its issue of the cycle, unless a hold stops it (R357, R372). -/
def execBlockEntry (s : State) : Res :=
  match s.ev with
  | .blockEntry =>
    .next ((s.modSp (fun x => { x with starve := 0 })).blockEntry.afterIssue (.split s.cur.core s.cur.slot s.cur.split) s.sp.starve)
  | _ => .fault .notThisEvent

-- ## A core cycle (log 7)

/-- A hold stops what a split would issue now: an instruction issued by it, with `run` as its meaning, is held (R357). -/
def State.stops (s : State) (run : Instr → State → Res) (c : CoreId) (k : SlotId) (j : SplitId) : Bool :=
  let held (t : State) : Bool :=
    (t.strAt c k).heldIn j t.cyc || (match ((t.strAt c k).splits[j]).wait with | .passed _ => true | _ => false)
  match s.prepare (.split c k j) with
  | (t, none) => held (if t.entering then t.blockEntry else t)
  | (t, some i) => match run i t with | .next u => held u | _ => false

/-- The splits in a slot that might issue in the cycle that ends (R357, R372). -/
def State.mayIssue (s : State) (run : Instr → State → Res) (c : CoreId) (k : SlotId) : List SplitId :=
  if s.strRuns c k then (s.freeSplits c k).filter (fun j => !s.stops run c k j) else []

/-- A slot at the end of a cycle in which the splits `js` might have issued and `issued` did: the counts of those that did not go on
(R355, R357, R372). -/
def Str.aged (t : Str) (cyc : Nat) (js : List SplitId) (issued : Option SplitId) : Str :=
  let t := if !js.isEmpty && issued.isNone then { t with ready := t.ready + 1 } else t
  let t := (js.filter (fun j => issued != some j)).foldl (fun t j => t.modSplit j (fun x => { x with starve := x.starve + 1 })) t
  if t.parked then t else { t with parkedAt := cyc }

/-- A split that waits for physical registers goes on waiting while a hold is all that has stopped it (R147). -/
def Core.stillShort (x : Core) (r : SlotId × SplitId × Nat) : Bool :=
  match ((x.strs[r.1]).splits[r.2.1]).wait with | .held _ | .whole _ | .opnds .. => true | _ => false

/-- A core at the end of a cycle; `js` gives the splits of a slot that might have issued. -/
def Core.aged (x : Core) (cyc : Nat) (js : SlotId → List SplitId) : Core :=
  { x with
    strs := gen 16 (fun k => if h : k < 16 then
      (x.strs[k]).aged cyc (js ⟨k, h⟩) ((x.issued.find? (fun i => i.1.val == k)).map (·.2)) else Str.empty)
    issued := []
    regWait := x.regWait.filter x.stillShort
    allParked := if x.strs.all (fun t => t.st == .ready && t.parked) then (match x.allParked with | some n => some n | none => some cyc) else none }

/-- Splits that a push holds go on once the push can proceed (R345). -/
def Str.wakePush (t : Str) (go : Fin 64 → Bool) : Str :=
  match t.launch with
  | some i =>
    if go i then
      let f (x : Split) : Split := if x.wait == .push then { x with wait := .none } else x
      { t with splits := t.splits.map f, park := t.park.map f }
    else t
  | none => t

/-- The pushes of a core that can proceed. -/
def State.wakePushes (s : State) (c : CoreId) : State :=
  if s.cores[c].strs.any (fun t => t.allSplits.any (fun x => x.wait == .push)) || s.cores[c].spilled.any (fun p => p.str.allSplits.any (fun x => x.wait == .push)) then
    let go := s.pushable c
    (s.modCore c (fun x => { x with
      strs := x.strs.map (fun (t : Str) => t.wakePush go)
      spilled := x.spilled.map (fun (p : Spilled) => { p with str := p.str.wakePush go }) })).noteSpilled c
  else s

/-- The end of a core cycle: counts, parked strings, held pushes, reports to peers, launches whose completion had to wait. -/
def State.endCycle (s : State) (run : Instr → State → Res) : State :=
  let s := allCores.foldl (fun (t : State) c => t.modCore c (fun x => x.aged s.cyc (s.mayIssue run c))) s
  let s := (allCores.foldl State.wakePushes s).showCounts
  (List.finRange 64).foldl (fun s i => if (s.launches[i]).on && (s.launches[i]).live == 0 then s.launchEnd i else s) s

/-- The steps due at a core's strings. -/
def State.dueStrings (s : State) (c : CoreId) : List Ev :=
  allSlots.flatMap (fun k =>
    let t := s.strAt c k
    if t.present then
      ((List.finRange 4).flatMap (fun j =>
        match (t.splits[j]).wait with
        | .wfi => if s.irqs c ≠ 0 then [.wfiWake c k j] else []
        | .sync .. => [.vwsyncComplete c k j]
        | _ => []))
      ++ (if s.irqs c = 0 then [] else
        ((List.range t.park.length).zip t.park).filterMap (fun y => if y.2.wait == .wfi then some (.wfiWake c k (y.1 + 4)) else none))
      ++ (if t.allSplits.any (fun y => match y.wait with | .tcinv _ => true | _ => false) then [.tcinvDrained c] else [])
      ++ (match t.st, t.staging with
        | .staging, some g =>
          if !g.begun then [.taskStart c k]
          else if g.ent.ops.isEmpty || (s.porting c).contains k then [.porterStagingComplete c k] else []
        | _, _ => [])
    else [])

/-- The steps due at a core's engine and array. -/
def State.dueEngines (s : State) (c : CoreId) : List Ev :=
  let x := s.cores[c]
  (if x.convoy.any (fun t => t.data.isNone) then [Ev.convoyTransferStart c] else [])
    ++ ((List.range x.convoy.length).filter (fun k => match x.convoy[k]? with | some t => t.data.isSome | none => false)).map (Ev.convoyLanding c)
    ++ (List.finRange 8).filterMap (s.chainEvent c)
    ++ (if x.arr.queue.isEmpty then []
        else [.tileMwldLoad c, .tileMwswExchange c] ++ (if s.withheld then [] else [.tileMmacStream c]) ++ [.tileOpComplete c])
    ++ (if s.arrayGrant c then [.arrayClaimGrant c] else [])

/-- The steps by which a core finds work, and gives up what it does not need. -/
def State.dueWork (s : State) (c : CoreId) : List Ev :=
  let x := s.cores[c]
  (x.closed.filter (fun p => decide (p.2 + 65536 ≤ s.cyc))).map (fun p => Ev.stealPauseLapse c p.1)
    ++ (x.parts.filter (s.mayRelease c)).map (fun p => Ev.partitionRelease c p.ctx)
    ++ (if s.maySpill c then [.parkSpill c] else [])
    ++ (match x.freeSlot with
      | some k => if !s.mayStart c then [] else if (s.firstWoken c).isSome then [.spillRestore c k]
                  else if (s.returning c).isSome then [.evictedShareReturn c]
                  else if x.retryAt ≤ s.cyc then [.stealRetry c] else []
      | none => [])

/-- The steps due at a core; a die that is dead makes no request (R72). -/
def State.dueCore (s : State) (c : CoreId) : List Ev :=
  if s.deadAgents.contains (agentOf (dieOf c)) then []
  else (if (s.irqSlot c).isSome then [.interruptDelivery c] else []) ++ s.dueStrings c ++ s.dueEngines c ++ s.dueWork c

/-- The steps due at slices, homes, links and memory dies. -/
def State.dueMemory (s : State) : List Ev :=
  let free (p : PStore) : Bool := s.leaseOn p.line == 0
  ((s.pend.filter free).map (fun p => Ev.l2WaitingStorePerform (agentOf p.die) p.line)).eraseDups
    ++ (s.l1.filter (fun e => match e.exp with | some x => decide (x ≤ s.ptime + 2) | none => false)).map (fun e => Ev.l1LeaseExpiry e.core e.line)
    ++ (s.asleep.filter (fun a => s.held.any (fun h => h.agent == a))).map (fun a =>
        if Config.choose s.free % 2 = 0 then Ev.linkUp a else Ev.linkWakeTimeout a)
    ++ (s.silent.filter (fun x => decide (x.2 + 2000000 ≤ s.ptime))).map (fun x => Ev.agentDeclaredDead x.1)
    ++ ((s.pchq.map (fun r => if r.at_ + 1024 ≤ s.cyc then Ev.pchAgeLimit r.die r.pch else Ev.pchRequestServe r.die r.pch)).eraseDups)
    ++ (if s.draining.isEmpty then [] else [.regionDrainDone])
    ++ (if !s.timeLost && decide (s.exchanged + 100000000 ≤ s.ptime) then [.domainTimeLost] else [])

/-- The steps due at ranges, views and abaci. -/
def State.dueHomes (s : State) : List Ev :=
  (List.finRange 256).filterMap (fun i => match s.ranges[i] with
      | some r => if r.starting then some (Ev.cmrComplete i) else if r.ending then some (Ev.cmrendComplete i) else none
      | none => none)
    ++ (s.timers.filter (fun t => decide (t.2.2 ≤ s.ptime))).map (fun t => Ev.derivationDelayExpiry t.1 t.2.1)
    ++ s.derivs.map (fun d => if d.started then Ev.derivationComplete d.view d.blk else Ev.derivationStart d.view d.blk)
    ++ (s.viewList.filter (fun x => x.2.dropping)).map (fun x => Ev.vwdropComplete x.1)
    ++ s.abaci.flatMap (fun a =>
        (if a.coming.isEmpty then [] else [Ev.bankCommandEnqueue a.die a.pch])
        ++ (match a.run with
          | none => if a.queue.isEmpty then [] else [Ev.bankCommandStart a.die a.pch (Config.choose s.free % a.queue.length)]
          | some r => if r.ended.isSome then [Ev.bankCommandEnd a.die a.pch] else []))
    ++ (((List.range s.colls.length).zip s.colls).filter (fun x => !s.deadAgents.contains (agentOf (dieOf x.2.core)))).map (fun x =>
        match x.2.sum, x.2.stage with
        | false, 0 => Ev.xscaleUnitContribute x.1
        | false, _ => Ev.xscaleUnitFinish x.1
        | true, 0 => Ev.xsumUnitContribute x.1
        | true, _ => Ev.xsumUnitFinish x.1)

/-- Barriers at which some split waits without a registration, a spilled string's among them: polled (R120, R360). -/
def State.polled (s : State) : List Place :=
  (allCores.flatMap (fun c => (s.cores[c].strs.toList ++ s.cores[c].spilled.map (·.str)).flatMap (fun t => t.allSplits.filterMap (fun x =>
    match x.wait with
    | .barrier p _ => if s.regs.contains (p, c, t.uid) then none else some p
    | _ => none)))).eraseDups

/-- The takes of the last core cycle's searches: no hot-end operation of that cycle is still to come (R344). -/
def State.dueTakes (s : State) : List Ev := allCores.filterMap (fun c => s.cores[c].probe.map (Ev.stealTake c))

/-- The steps due at the package's commands and links. -/
def State.duePackage (s : State) : List Ev :=
  (if s.lstat.getLsbD 63 then [Ev.launchSubmit s.ldoor1] else [])
    ++ (if s.ctxstat.getLsbD 63 then
          let e : Fin 64 := ⟨fld s.ctxstat 5 0, by have : fld s.ctxstat 5 0 < 2 ^ 6 := Nat.mod_lt _ (by decide); simpa using this⟩
          match fld s.ctxcmd 63 60 with
          | 1 => [Ev.ctxSave e]
          | 2 => [Ev.ctxRestore e]
          | 3 => [Ev.ctxPreempt e (fld s.ctxcmd 51 43) (fld s.ctxcmd 42 38) (fld s.ctxcmd 37 33) (fld s.ctxcmd 32 20)]
          | _ => [Ev.ctxEnd e]
        else [])
    ++ (if s.mstat.getLsbD 63 then
          (if fld s.mcmd 63 60 = 1 then [Ev.mcmdRoutes (fld s.mcmd 47 0)] else [Ev.mcmdStealRing (fld s.mcmd 47 0)])
        else [])
    ++ s.images.flatMap (fun im => match s.ctxEntry im.ctx with
        | some e => if ctabSt s.ctab[e] == 2 then im.pending.map (Ev.ctxRestoreCluster e) else []
        | none => [])
    ++ s.polled.map Ev.barrierPoll
    ++ (match s.token with | some t => if t.since + 1000 ≤ s.ptime then [Ev.caravanTokenPass] else [] | none => [])
    ++ (s.remote.filter (fun r => r.fault.isNone && decide (r.since + 2000000 ≤ s.ptime))).map (fun r => Ev.remoteAccessTimeout r.core r.slot r.lanes r.va)
    ++ (s.portIdle.filter s.portBusy).map Ev.caravanPortWake
    ++ ((List.finRange 24).filter (fun p => !(s.cport[p]).getLsbD 4 && fld ((s.cport[p]).setWidth 64) 3 0 != 0)).map Ev.caravanRetrainDone
    ++ (if s.cyc % 16 = 0 then (List.finRange 8).map Ev.droveSummary else [])
    ++ (match (s.l2.filter (fun e => lineHost e.line)).map (·.line) |>.eraseDups with
        | ls => if 262144 < ls.length then (ls.getLast?).toList.map Ev.snoopFilterRecall else [])

/-- Everything that a core cycle makes due. -/
def State.due (s : State) : List Ev :=
  s.dueTakes ++ s.dueMemory ++ s.dueHomes ++ s.duePackage ++ allCores.flatMap s.dueCore ++ (allCores.filter s.coreRuns).map Ev.issueCycle

/-- The abaci at work. -/
def State.abacusTurns (s : State) : List IssueRef :=
  (s.abaci.filter (fun a => match a.run with | some r => r.ended.isNone | none => false)).map (fun a => IssueRef.abacus a.die a.pch)

/-- One core cycle: the previous one ends, time goes on, and what is due stands on the agenda. `run` is the instructions' meaning. -/
def State.turn (s : State) (run : Instr → State → Res) : State :=
  let s := (s.endCycle run).tick
  { s with agenda := s.due, issue := s.abacusTurns, free := s.free + 1 }

-- ## Placing an instruction where the next step issues it

/-- A header of 255 words with MX = 1 and LIVE = 64 (R152), as the block of a placed instruction. -/
def placedHdr : W64 := 0xFFFF400000000200

/-- The string that a placed instruction issues from: the boot string, inside the block at `bootEntry`. -/
def State.placeBoot (s : State) : State :=
  let c := s.um.bootCore
  let s := s.modStr c 0 (fun t => t.modSplit 0 (fun x =>
    { x with pc := bootEntry + 8, blk := bootEntry, hdr := placedHdr, enter := false, wait := .none }))
  let s := s.modCore c (fun x => { x with arr := { x.arr with owner := some (0, (s.strAt c 0).uid), last := some (s.strAt c 0).uid } })
  { s with agenda := [], issue := [.split c 0 0] }

/-- A core word, with the word after it above, stored behind the header at `bootEntry`. -/
def State.placeCoreWord (s : State) (w : Nat) : State :=
  match s.decodePa bootEntry.toNat with
  | .loc l => ((s.pokeN l (leBytes 8 placedHdr.toNat ++ leBytes 8 w ++ leBytes 8 (w / 2 ^ 64)))).placeBoot
  | _ => s.placeBoot

/-- An empty command for an abacus that runs a placed word. -/
def placedCmd : BankCmd :=
  { core := 0, slot := 0, uid := 0, wlines := [], wlen := 0, plines := [], poff := 0, plen := 2, ilines := [], ioff := 0, ilen := 0, iboff := 0
    olines := [], ooff := 0, olen := 0, spa := 0, sloc := 0, arg := 0, bar := .mem 0, scope := .pkg }

/-- An abacus word as the first of a running program of two words; the second halts. -/
def State.placeAbacusWord (s : State) (w : Nat) : State :=
  let r : AbRun := { cmd := placedCmd, prog := [BitVec.ofNat 32 w, 0], buf := [], q := Vector.replicate 16 0, c := Vector.replicate 16 0,
                     pc := 0, steps := 0, emitted := 0, refused := none, ended := none }
  { s.modAb 0 0 (fun a => { a with run := some r }) with agenda := [], issue := [.abacus 0 0] }

end Sys2Proof.Machine
end

