-- ==== Sys2Proof/Machine/VectorInt.lean ====
section
/-!
DEFINITION. The vector integer and lane groups, majors 0x20 to 0x28 and 0x3F (spec/07 R183 to R190, spec/06 R148).
-/
namespace Sys2Proof.Machine
open Sys2Proof

/-- A + B modulo 2^w (R184). -/
def execVadd (g : KReg) (t : Ty) (d a b : VReg) (s : State) : Res :=
  s.vec (.vadd g t d a b) (fun s => s.vBin g t d a b (fun x y => x + y))

/-- A − B modulo 2^w (R184). -/
def execVsub (g : KReg) (t : Ty) (d a b : VReg) (s : State) : Res :=
  s.vec (.vsub g t d a b) (fun s => s.vBin g t d a b (fun x y => x - y))

/-- Low w bits of A × B (R184). -/
def execVmul (g : KReg) (t : Ty) (d a b : VReg) (s : State) : Res :=
  s.vec (.vmul g t d a b) (fun s => s.vBin g t d a b (fun x y => x * y))

/-- High w bits of the product (R184). -/
def execVmulh (g : KReg) (t : Ty) (d a b : VReg) (s : State) : Res :=
  s.vec (.vmulh g t d a b) (fun s => s.vBin g t d a b (mulHigh t))

/-- A AND B (R184). -/
def execVand (g : KReg) (t : Ty) (d a b : VReg) (s : State) : Res :=
  s.vec (.vand g t d a b) (fun s => s.vBin g t d a b (fun x y => x &&& y))

/-- A OR B (R184). -/
def execVor (g : KReg) (t : Ty) (d a b : VReg) (s : State) : Res :=
  s.vec (.vor g t d a b) (fun s => s.vBin g t d a b (fun x y => x ||| y))

/-- A XOR B (R184). -/
def execVxor (g : KReg) (t : Ty) (d a b : VReg) (s : State) : Res :=
  s.vec (.vxor g t d a b) (fun s => s.vBin g t d a b (fun x y => x ^^^ y))

/-- A shifted left by B, read unsigned (R184). -/
def execVshl (g : KReg) (t : Ty) (d a b : VReg) (s : State) : Res :=
  s.vec (.vshl g t d a b) (fun s => s.vBin g t d a b (fun x y => shlBits x y.toNat))

/-- A shifted right by B, filled with zeros (R184). -/
def execVshr (g : KReg) (t : Ty) (d a b : VReg) (s : State) : Res :=
  s.vec (.vshr g t d a b) (fun s => s.vBin g t d a b (fun x y => shrBits x y.toNat))

/-- A shifted right by B, filled with the top bit (R184). -/
def execVsar (g : KReg) (t : Ty) (d a b : VReg) (s : State) : Res :=
  s.vec (.vsar g t d a b) (fun s => s.vBin g t d a b (fun x y => sarBits x y.toNat))

/-- The lesser by the type (R184). -/
def execVmin (g : KReg) (t : Ty) (d a b : VReg) (s : State) : Res :=
  s.vec (.vmin g t d a b) (fun s => s.vBin g t d a b (minBits t))

/-- The greater by the type (R184). -/
def execVmax (g : KReg) (t : Ty) (d a b : VReg) (s : State) : Res :=
  s.vec (.vmax g t d a b) (fun s => s.vBin g t d a b (maxBits t))

/-- A + B clamped to the type (R184). -/
def execVadds (g : KReg) (t : Ty) (d a b : VReg) (s : State) : Res :=
  s.vec (.vadds g t d a b) (fun s => s.vBin g t d a b (fun x y => clampBits t (intOf t x + intOf t y)))

/-- A − B clamped to the type (R184). -/
def execVsubs (g : KReg) (t : Ty) (d a b : VReg) (s : State) : Res :=
  s.vec (.vsubs g t d a b) (fun s => s.vBin g t d a b (fun x y => clampBits t (intOf t x - intOf t y)))

/-- |A| modulo 2^w (R184). -/
def execVabs (g : KReg) (t : Ty) (d a : VReg) (s : State) : Res :=
  s.vec (.vabs g t d a) (fun s => s.vUn g t d a (fun x => if x.msb then -x else x))

/-- −A modulo 2^w (R184). -/
def execVneg (g : KReg) (t : Ty) (d a : VReg) (s : State) : Res :=
  s.vec (.vneg g t d a) (fun s => s.vUn g t d a (fun x => -x))

/-- `vadd` on 32 bits with the immediate as B, signed where signedness matters (R184). -/
def execVaddI (g : KReg) (d a : VReg) (imm : W32) (s : State) : Res :=
  s.vec (.vaddI g d a imm) (fun s => s.vImm g d a imm (fun x y => x + y))

/-- `vsub` on 32 bits with the immediate as B, signed where signedness matters (R184). -/
def execVsubI (g : KReg) (d a : VReg) (imm : W32) (s : State) : Res :=
  s.vec (.vsubI g d a imm) (fun s => s.vImm g d a imm (fun x y => x - y))

/-- `vmul` on 32 bits with the immediate as B, signed where signedness matters (R184). -/
def execVmulI (g : KReg) (d a : VReg) (imm : W32) (s : State) : Res :=
  s.vec (.vmulI g d a imm) (fun s => s.vImm g d a imm (fun x y => x * y))

/-- `vmulh` on 32 bits with the immediate as B, signed where signedness matters (R184). -/
def execVmulhI (g : KReg) (d a : VReg) (imm : W32) (s : State) : Res :=
  s.vec (.vmulhI g d a imm) (fun s => s.vImm g d a imm (fun x y => mulHigh .i32 x y))

/-- `vand` on 32 bits with the immediate as B, signed where signedness matters (R184). -/
def execVandI (g : KReg) (d a : VReg) (imm : W32) (s : State) : Res :=
  s.vec (.vandI g d a imm) (fun s => s.vImm g d a imm (fun x y => x &&& y))

/-- `vor` on 32 bits with the immediate as B, signed where signedness matters (R184). -/
def execVorI (g : KReg) (d a : VReg) (imm : W32) (s : State) : Res :=
  s.vec (.vorI g d a imm) (fun s => s.vImm g d a imm (fun x y => x ||| y))

/-- `vxor` on 32 bits with the immediate as B, signed where signedness matters (R184). -/
def execVxorI (g : KReg) (d a : VReg) (imm : W32) (s : State) : Res :=
  s.vec (.vxorI g d a imm) (fun s => s.vImm g d a imm (fun x y => x ^^^ y))

/-- `vshl` on 32 bits with the immediate as B, signed where signedness matters (R184). -/
def execVshlI (g : KReg) (d a : VReg) (imm : W32) (s : State) : Res :=
  s.vec (.vshlI g d a imm) (fun s => s.vImm g d a imm (fun x y => shlBits x y.toNat))

/-- `vshr` on 32 bits with the immediate as B, signed where signedness matters (R184). -/
def execVshrI (g : KReg) (d a : VReg) (imm : W32) (s : State) : Res :=
  s.vec (.vshrI g d a imm) (fun s => s.vImm g d a imm (fun x y => shrBits x y.toNat))

/-- `vsar` on 32 bits with the immediate as B, signed where signedness matters (R184). -/
def execVsarI (g : KReg) (d a : VReg) (imm : W32) (s : State) : Res :=
  s.vec (.vsarI g d a imm) (fun s => s.vImm g d a imm (fun x y => sarBits x y.toNat))

/-- `vmin` on 32 bits with the immediate as B, signed where signedness matters (R184). -/
def execVminI (g : KReg) (d a : VReg) (imm : W32) (s : State) : Res :=
  s.vec (.vminI g d a imm) (fun s => s.vImm g d a imm (fun x y => minBits .i32 x y))

/-- `vmax` on 32 bits with the immediate as B, signed where signedness matters (R184). -/
def execVmaxI (g : KReg) (d a : VReg) (imm : W32) (s : State) : Res :=
  s.vec (.vmaxI g d a imm) (fun s => s.vImm g d a imm (fun x y => maxBits .i32 x y))

/-- Bit l of kD is the relation between A and B on each active lane l (R185). -/
def execVcmp (g : KReg) (cc : Cc) (t : Ty) (d : KReg) (a b : VReg) (s : State) : Res :=
  s.vec (.vcmp g cc t d a b) (fun s => (s.vRel g d (fun l =>
    cc.holds (ordOf (intOf t ((s.opnd t a l).setWidth t.width)) (intOf t ((s.opnd t b l).setWidth t.width))))).adv 1)

/-- As `execVcmp`, with the immediate as `.i32` (R185). -/
def execVcmpI (g : KReg) (cc : Cc) (d : KReg) (a : VReg) (imm : W32) (s : State) : Res :=
  s.vec (.vcmpI g cc d a imm) (fun s => (s.vRel g d (fun l => cc.holds (ordOf (s.getV a l).toInt imm.toInt))).adv 1)

/-- A where bit l of kC is set, otherwise B (R186). -/
def execVsel (g : KReg) (t : Ty) (d a b : VReg) (c : KReg) (s : State) : Res :=
  s.vec (.vsel g t d a b c) (fun s =>
    (s.putV t d (s.active g) (fun l => if (s.getK c).has l then s.opnd t a l else s.opnd t b l)).adv 1)

/-- A on active lanes (R186). -/
def execVmov (g : KReg) (t : Ty) (d a : VReg) (s : State) : Res :=
  s.vec (.vmov g t d a) (fun s => (s.putV t d (s.active g) (s.opnd t a)).adv 1)

/-- sA on active lanes (R186). -/
def execVbcast (g : KReg) (t : Ty) (d : VReg) (a : SReg) (s : State) : Res :=
  s.vec (.vbcast g t d a) (fun s => (s.putV t d (s.active g) (fun _ => s.getS a)).adv 1)

/-- The lane index (R186). -/
def execVlid (g : KReg) (d : VReg) (s : State) : Res :=
  s.vec (.vlid g d) (fun s => (s.put1 d (s.active g) (BitVec.ofNat 32)).adv 1)

/-- sD = lane (sB mod 32) of vA, whether active or not (R174, R186). -/
def execVgetl (t : Ty) (d : SReg) (a : VReg) (b : SReg) (s : State) : Res :=
  s.vec (.vgetl t d a b) (fun s =>
    (s.setS d (extend t ((s.opnd t a ((s.getS b).toNat % 32)).setWidth t.width))).adv 1)

/-- Lane (sB mod 32) of vD = sA if that lane is active (R186). -/
def execVsetl (g : KReg) (t : Ty) (d : VReg) (a b : SReg) (s : State) : Res :=
  s.vec (.vsetl g t d a b) (fun s =>
    (s.putV t d (s.active g &&& Mask.ofLanes [(s.getS b).toNat % 32]) (fun _ => s.getS a)).adv 1)

/-- Source lane: bits [4:0] of vB (R187). -/
def execVperm (g : KReg) (t : Ty) (d a b : VReg) (s : State) : Res :=
  s.vec (.vperm g t d a b) (fun s => s.vLane g t d a (fun l => (s.getV b l).toNat % 32))

/-- Source lane l − d, or l below d (R187). -/
def execVshup (g : KReg) (t : Ty) (d a : VReg) (dist : BitVec 5) (s : State) : Res :=
  s.vec (.vshup g t d a dist) (fun s => s.vLane g t d a (fun l => if dist.toNat ≤ l then l - dist.toNat else l))

/-- Source lane l + d, or l beyond 31 (R187). -/
def execVshdn (g : KReg) (t : Ty) (d a : VReg) (dist : BitVec 5) (s : State) : Res :=
  s.vec (.vshdn g t d a dist) (fun s => s.vLane g t d a (fun l => if l + dist.toNat < 32 then l + dist.toNat else l))

/-- Source lane l XOR d (R187). -/
def execVshxor (g : KReg) (t : Ty) (d a : VReg) (dist : BitVec 5) (s : State) : Res :=
  s.vec (.vshxor g t d a dist) (fun s => s.vLane g t d a (fun l => l ^^^ dist.toNat))

/-- Source lane (l + d) mod 32 (R187). -/
def execVrot (g : KReg) (t : Ty) (d a : VReg) (dist : BitVec 5) (s : State) : Res :=
  s.vec (.vrot g t d a dist) (fun s => s.vLane g t d a (fun l => (l + dist.toNat) % 32))

/-- One combination of vred (R188). -/
def redBits (op : RedOp) (t : Ty) (x y : BitVec t.width) : BitVec t.width :=
  match op with
  | .add => x + y
  | .min => minBits t x y
  | .max => maxBits t x y
  | .and => x &&& y
  | .or => x ||| y
  | .xor => x ^^^ y

/-- The values of the active lanes combined in ascending lane order; none with no active lane (R188). -/
def redLanes (op : RedOp) (t : Ty) (xs : List (BitVec t.width)) : Option (BitVec t.width) :=
  match xs with
  | [] => none
  | x :: r => some (r.foldl (redBits op t) x)

/-- The active lanes of vA combined into sD (R188). -/
def execVred (g : KReg) (op : RedOp) (t : Ty) (d : SReg) (a : VReg) (s : State) : Res :=
  s.vec (.vred g op t d a) (fun s =>
    match redLanes op t ((s.active g).lanes.map (fun l => (s.opnd t a l).setWidth t.width)) with
    | some x => (s.setS d (extend t x)).adv 1
    | none => s.adv 1)

/-- A running sum over the active lanes, with or without the lane itself (R188). -/
def execVscan (g : KReg) (t : Ty) (ex : Bool) (d a : VReg) (s : State) : Res :=
  s.vec (.vscan g t ex d a) (fun s =>
    (s.put1 d (s.active g) (fun l =>
      (((s.active g).lanes.filter (fun m => decide (m < l) || (!ex && m == l))).map (s.getV a)).foldl (· + ·) 0)).adv 1)

/-- Low w bits of A × B + C per element (R189). -/
def execVmad (g : KReg) (t : Ty) (d a b c : VReg) (s : State) : Res :=
  s.vec (.vmad g t d a b c) (fun s => s.vTern g t d a b c (fun x y z => x * y + z))

/-- Σ of the four byte products, signed or natural by the type. -/
def dot4 (t : Ty) (x y : W32) : Int :=
  (List.range 4).foldl (fun acc k =>
    acc + intOf t (elemAt t (x.setWidth 64) k) * intOf t (elemAt t (y.setWidth 64) k)) 0

/-- C + Σ a(k) × b(k) over the four bytes, modulo 2^32 (R189). -/
def execVdot4 (g : KReg) (t : Ty) (d a b c : VReg) (s : State) : Res :=
  s.vec (.vdot4 g t d a b c) (fun s =>
    (s.put1 d (s.active g) (fun l => s.getV c l + BitVec.ofInt 32 (dot4 t (s.getV a l) (s.getV b l)))).adv 1)

/-- One-bits per element (R190). -/
def execVpop (g : KReg) (t : Ty) (d a : VReg) (s : State) : Res :=
  s.vec (.vpop g t d a) (fun s => s.vUn g t d a (fun x => BitVec.ofNat t.width (popCount x)))

/-- Leading zeros per element (R190). -/
def execVclz (g : KReg) (t : Ty) (d a : VReg) (s : State) : Res :=
  s.vec (.vclz g t d a) (fun s => s.vUn g t d a (fun x => BitVec.ofNat t.width (clzBits x)))

/-- Trailing zeros per element (R190). -/
def execVctz (g : KReg) (t : Ty) (d a : VReg) (s : State) : Res :=
  s.vec (.vctz g t d a) (fun s => s.vUn g t d a (fun x => BitVec.ofNat t.width (ctzBits x)))

/-- The field of A at bits [4:0] of B with length bits [12:8] of B plus 1, extended by the type; positions above 31 read
as bit 31 for `.i32` and as zeros for `.n32` (R190). -/
def extField (t : Ty) (x y : W32) : W32 :=
  let pos := y.toNat % 32
  let len := y.toNat / 256 % 32 + 1
  let wide : W64 := if t.isSigned then x.signExtend 64 else x.setWidth 64
  let f : W64 := (wide >>> pos) &&& BitVec.ofNat 64 (2 ^ len - 1)
  if t.isSigned && f.getLsbD (len - 1) then (f ||| ~~~(BitVec.ofNat 64 (2 ^ len - 1))).setWidth 32 else f.setWidth 32

/-- A field per lane (R190). -/
def execVext (g : KReg) (t : Ty) (d a b : VReg) (s : State) : Res :=
  s.vec (.vext g t d a b) (fun s => (s.put1 d (s.active g) (fun l => extField t (s.getV a l) (s.getV b l))).adv 1)

/-- The allotment raised to n (R148). -/
def execVgrow (n : W32) (s : State) : Res := .next ((s.modMe (fun t => { t with allot := max t.allot n.toNat })).adv 1)

/-- The registers from n up released and the allotment lowered to n, whatever the split count (R148). -/
def execVshrink (n : W32) (s : State) : Res :=
  .next ((s.modMe (fun t =>
    if n.toNat < t.allot then
      { t.releaseAll ((List.range t.allot).filter (fun r => decide (n.toNat ≤ r))) with allot := n.toNat }
    else t)).adv 1)

end Sys2Proof.Machine
end

