-- ==== Sys2Proof/Machine/Dispatch.lean ====
section
/-!
DEFINITION. The dispatch: one arm per constructor of `Instr`, each a direct call of that instruction's meaning.
-/
namespace Sys2Proof.Machine
open Sys2Proof

def exec (i : Instr) (s : State) : Host.Outcome State Fault Refusal :=
  match i with
  | .sadd t d a b => Sys2Proof.Machine.execSadd t d a b s
  | .ssub t d a b => Sys2Proof.Machine.execSsub t d a b s
  | .smul t d a b => Sys2Proof.Machine.execSmul t d a b s
  | .smulh t d a b => Sys2Proof.Machine.execSmulh t d a b s
  | .sand t d a b => Sys2Proof.Machine.execSand t d a b s
  | .sor t d a b => Sys2Proof.Machine.execSor t d a b s
  | .sxor t d a b => Sys2Proof.Machine.execSxor t d a b s
  | .sshl t d a b => Sys2Proof.Machine.execSshl t d a b s
  | .sshr t d a b => Sys2Proof.Machine.execSshr t d a b s
  | .ssar t d a b => Sys2Proof.Machine.execSsar t d a b s
  | .smin t d a b => Sys2Proof.Machine.execSmin t d a b s
  | .smax t d a b => Sys2Proof.Machine.execSmax t d a b s
  | .sandn t d a b => Sys2Proof.Machine.execSandn t d a b s
  | .saddI d a imm => Sys2Proof.Machine.execSaddI d a imm s
  | .ssubI d a imm => Sys2Proof.Machine.execSsubI d a imm s
  | .smulI d a imm => Sys2Proof.Machine.execSmulI d a imm s
  | .smulhI d a imm => Sys2Proof.Machine.execSmulhI d a imm s
  | .sandI d a imm => Sys2Proof.Machine.execSandI d a imm s
  | .sorI d a imm => Sys2Proof.Machine.execSorI d a imm s
  | .sxorI d a imm => Sys2Proof.Machine.execSxorI d a imm s
  | .sshlI d a imm => Sys2Proof.Machine.execSshlI d a imm s
  | .sshrI d a imm => Sys2Proof.Machine.execSshrI d a imm s
  | .ssarI d a imm => Sys2Proof.Machine.execSsarI d a imm s
  | .sminI d a imm => Sys2Proof.Machine.execSminI d a imm s
  | .smaxI d a imm => Sys2Proof.Machine.execSmaxI d a imm s
  | .sandnI d a imm => Sys2Proof.Machine.execSandnI d a imm s
  | .scmp cc t d a b => Sys2Proof.Machine.execScmp cc t d a b s
  | .scmpI cc d a imm => Sys2Proof.Machine.execScmpI cc d a imm s
  | .sdiv t d a b => Sys2Proof.Machine.execSdiv t d a b s
  | .srem t d a b => Sys2Proof.Machine.execSrem t d a b s
  | .sliI d imm => Sys2Proof.Machine.execSliI d imm s
  | .sliL d imm => Sys2Proof.Machine.execSliL d imm s
  | .ssel t d a b c => Sys2Proof.Machine.execSsel t d a b c s
  | .spop t d a => Sys2Proof.Machine.execSpop t d a s
  | .sclz t d a => Sys2Proof.Machine.execSclz t d a s
  | .sctz t d a => Sys2Proof.Machine.execSctz t d a s
  | .slea d a b sh => Sys2Proof.Machine.execSlea d a b sh s
  | .kand d a b => Sys2Proof.Machine.execKand d a b s
  | .kor d a b => Sys2Proof.Machine.execKor d a b s
  | .kxor d a b => Sys2Proof.Machine.execKxor d a b s
  | .kandn d a b => Sys2Proof.Machine.execKandn d a b s
  | .knot d a => Sys2Proof.Machine.execKnot d a s
  | .kmov d a => Sys2Proof.Machine.execKmov d a s
  | .kpop d a => Sys2Proof.Machine.execKpop d a s
  | .kfirst d a => Sys2Proof.Machine.execKfirst d a s
  | .ktos d a => Sys2Proof.Machine.execKtos d a s
  | .stok d a => Sys2Proof.Machine.execStok d a s
  | .vadd g t d a b => Sys2Proof.Machine.execVadd g t d a b s
  | .vsub g t d a b => Sys2Proof.Machine.execVsub g t d a b s
  | .vmul g t d a b => Sys2Proof.Machine.execVmul g t d a b s
  | .vmulh g t d a b => Sys2Proof.Machine.execVmulh g t d a b s
  | .vand g t d a b => Sys2Proof.Machine.execVand g t d a b s
  | .vor g t d a b => Sys2Proof.Machine.execVor g t d a b s
  | .vxor g t d a b => Sys2Proof.Machine.execVxor g t d a b s
  | .vshl g t d a b => Sys2Proof.Machine.execVshl g t d a b s
  | .vshr g t d a b => Sys2Proof.Machine.execVshr g t d a b s
  | .vsar g t d a b => Sys2Proof.Machine.execVsar g t d a b s
  | .vmin g t d a b => Sys2Proof.Machine.execVmin g t d a b s
  | .vmax g t d a b => Sys2Proof.Machine.execVmax g t d a b s
  | .vabs g t d a => Sys2Proof.Machine.execVabs g t d a s
  | .vneg g t d a => Sys2Proof.Machine.execVneg g t d a s
  | .vadds g t d a b => Sys2Proof.Machine.execVadds g t d a b s
  | .vsubs g t d a b => Sys2Proof.Machine.execVsubs g t d a b s
  | .vaddI g d a imm => Sys2Proof.Machine.execVaddI g d a imm s
  | .vsubI g d a imm => Sys2Proof.Machine.execVsubI g d a imm s
  | .vmulI g d a imm => Sys2Proof.Machine.execVmulI g d a imm s
  | .vmulhI g d a imm => Sys2Proof.Machine.execVmulhI g d a imm s
  | .vandI g d a imm => Sys2Proof.Machine.execVandI g d a imm s
  | .vorI g d a imm => Sys2Proof.Machine.execVorI g d a imm s
  | .vxorI g d a imm => Sys2Proof.Machine.execVxorI g d a imm s
  | .vshlI g d a imm => Sys2Proof.Machine.execVshlI g d a imm s
  | .vshrI g d a imm => Sys2Proof.Machine.execVshrI g d a imm s
  | .vsarI g d a imm => Sys2Proof.Machine.execVsarI g d a imm s
  | .vminI g d a imm => Sys2Proof.Machine.execVminI g d a imm s
  | .vmaxI g d a imm => Sys2Proof.Machine.execVmaxI g d a imm s
  | .vcmp g cc t d a b => Sys2Proof.Machine.execVcmp g cc t d a b s
  | .vcmpI g cc d a imm => Sys2Proof.Machine.execVcmpI g cc d a imm s
  | .vsel g t d a b c => Sys2Proof.Machine.execVsel g t d a b c s
  | .vmov g t d a => Sys2Proof.Machine.execVmov g t d a s
  | .vbcast g t d a => Sys2Proof.Machine.execVbcast g t d a s
  | .vlid g d => Sys2Proof.Machine.execVlid g d s
  | .vgetl t d a b => Sys2Proof.Machine.execVgetl t d a b s
  | .vsetl g t d a b => Sys2Proof.Machine.execVsetl g t d a b s
  | .vperm g t d a b => Sys2Proof.Machine.execVperm g t d a b s
  | .vshup g t d a dist => Sys2Proof.Machine.execVshup g t d a dist s
  | .vshdn g t d a dist => Sys2Proof.Machine.execVshdn g t d a dist s
  | .vshxor g t d a dist => Sys2Proof.Machine.execVshxor g t d a dist s
  | .vrot g t d a dist => Sys2Proof.Machine.execVrot g t d a dist s
  | .vred g op t d a => Sys2Proof.Machine.execVred g op t d a s
  | .vscan g t ex d a => Sys2Proof.Machine.execVscan g t ex d a s
  | .vmad g t d a b c => Sys2Proof.Machine.execVmad g t d a b c s
  | .vdot4 g t d a b c => Sys2Proof.Machine.execVdot4 g t d a b c s
  | .vpop g t d a => Sys2Proof.Machine.execVpop g t d a s
  | .vclz g t d a => Sys2Proof.Machine.execVclz g t d a s
  | .vctz g t d a => Sys2Proof.Machine.execVctz g t d a s
  | .vext g t d a b => Sys2Proof.Machine.execVext g t d a b s
  | .vgrow n => Sys2Proof.Machine.execVgrow n s
  | .vshrink n => Sys2Proof.Machine.execVshrink n s
  | .fadd g t r d a b => Sys2Proof.Machine.execFadd g t r d a b s
  | .fsub g t r d a b => Sys2Proof.Machine.execFsub g t r d a b s
  | .fmul g t r d a b => Sys2Proof.Machine.execFmul g t r d a b s
  | .fmin g t d a b => Sys2Proof.Machine.execFmin g t d a b s
  | .fmax g t d a b => Sys2Proof.Machine.execFmax g t d a b s
  | .fdiv g t r d a b => Sys2Proof.Machine.execFdiv g t r d a b s
  | .fsqrt g t r d a => Sys2Proof.Machine.execFsqrt g t r d a s
  | .fabs g t d a => Sys2Proof.Machine.execFabs g t d a s
  | .fneg g t d a => Sys2Proof.Machine.execFneg g t d a s
  | .ffma g t r d a b c => Sys2Proof.Machine.execFfma g t r d a b c s
  | .ffms g t r d a b c => Sys2Proof.Machine.execFfms g t r d a b c s
  | .ffnma g t r d a b c => Sys2Proof.Machine.execFfnma g t r d a b c s
  | .ffnms g t r d a b c => Sys2Proof.Machine.execFfnms g t r d a b c s
  | .frcp g t d a => Sys2Proof.Machine.execFrcp g t d a s
  | .frsq g t d a => Sys2Proof.Machine.execFrsq g t d a s
  | .fexp2 g t d a => Sys2Proof.Machine.execFexp2 g t d a s
  | .flog2 g t d a => Sys2Proof.Machine.execFlog2 g t d a s
  | .fcmp g cc d a b => Sys2Proof.Machine.execFcmp g cc d a b s
  | .fclass g t d a => Sys2Proof.Machine.execFclass g t d a s
  | .fcvtFf g dt st r sat part d a => Sys2Proof.Machine.execFcvtFf g dt st r sat part d a s
  | .fcvtFi g dt st r sat part d a => Sys2Proof.Machine.execFcvtFi g dt st r sat part d a s
  | .fcvtIf g dt st r sat part d a => Sys2Proof.Machine.execFcvtIf g dt st r sat part d a s
  | .fpack g dt r sat d a b => Sys2Proof.Machine.execFpack g dt r sat d a b s
  | .funpack g st part d a => Sys2Proof.Machine.execFunpack g st part d a s
  | .qblk g t r d a => Sys2Proof.Machine.execQblk g t r d a s
  | .dqblk g t d a => Sys2Proof.Machine.execDqblk g t d a s
  | .ld g sz sx d a res off => Sys2Proof.Machine.execLd g sz sx d a res off s
  | .st g sz a b off => Sys2Proof.Machine.execSt g sz a b off s
  | .gth g sz sx d a res off => Sys2Proof.Machine.execGth g sz sx d a res off s
  | .sct g sz a b off => Sys2Proof.Machine.execSct g sz a b off s
  | .spld g sz am sx d a off => Sys2Proof.Machine.execSpld g sz am sx d a off s
  | .spst g sz am a b off => Sys2Proof.Machine.execSpst g sz am a b off s
  | .pf g tgt a off => Sys2Proof.Machine.execPf g tgt a off s
  | .resid g a off => Sys2Proof.Machine.execResid g a off s
  | .sld sz sx d a off => Sys2Proof.Machine.execSld sz sx d a off s
  | .sst sz a b off => Sys2Proof.Machine.execSst sz a b off s
  | .amo g op t sc ret sp d a b c => Sys2Proof.Machine.execAmo g op t sc ret sp d a b c s
  | .racc g t sc a b => Sys2Proof.Machine.execRacc g t sc a b s
  | .fence sc k => Sys2Proof.Machine.execFence sc k s
  | .barInit sp a b c => Sys2Proof.Machine.execBarInit sp a b c s
  | .barExp sp a b => Sys2Proof.Machine.execBarExp sp a b s
  | .barArr sc expv sp a b => Sys2Proof.Machine.execBarArr sc expv sp a b s
  | .barWait sc sp d a b => Sys2Proof.Machine.execBarWait sc sp d a b s
  | .barTest sc sp d a => Sys2Proof.Machine.execBarTest sc sp d a s
  | .wcnt ld st cp tl => Sys2Proof.Machine.execWcnt ld st cp tl s
  | .seal a b => Sys2Proof.Machine.execSeal a b s
  | .unseal a b => Sys2Proof.Machine.execUnseal a b s
  | .cmr t sc a b => Sys2Proof.Machine.execCmr t sc a b s
  | .cmrend a => Sys2Proof.Machine.execCmrend a s
  | .br imm => Sys2Proof.Machine.execBr imm s
  | .bnz a imm => Sys2Proof.Machine.execBnz a imm s
  | .bz a imm => Sys2Proof.Machine.execBz a imm s
  | .bany a imm => Sys2Proof.Machine.execBany a imm s
  | .ball a imm => Sys2Proof.Machine.execBall a imm s
  | .bnone a imm => Sys2Proof.Machine.execBnone a imm s
  | .bdiv a imm => Sys2Proof.Machine.execBdiv a imm s
  | .call d imm => Sys2Proof.Machine.execCall d imm s
  | .ret a => Sys2Proof.Machine.execRet a s
  | .callr d a => Sys2Proof.Machine.execCallr d a s
  | .jmpr a => Sys2Proof.Machine.execJmpr a s
  | .spmask d => Sys2Proof.Machine.execSpmask d s
  | .spawn sc sp a => Sys2Proof.Machine.execSpawn sc sp a s
  | .spawnf sc sp d a b => Sys2Proof.Machine.execSpawnf sc sp d a b s
  | .join sc d a b => Sys2Proof.Machine.execJoin sc d a b s
  | .done sc a => Sys2Proof.Machine.execDone sc a s
  | .yield spill => Sys2Proof.Machine.execYield spill s
  | .qpush sc d a b => Sys2Proof.Machine.execQpush sc d a b s
  | .qpop sc d a b => Sys2Proof.Machine.execQpop sc d a b s
  | .stlpause => Sys2Proof.Machine.execStlpause s
  | .stlresume => Sys2Proof.Machine.execStlresume s
  | .pdist d a => Sys2Proof.Machine.execPdist d a s
  | .mwld wt s24 a b => Sys2Proof.Machine.execMwld wt s24 a b s
  | .mwsw => Sys2Proof.Machine.execMwsw s
  | .mmac xt sc osp add asrc d a b c => Sys2Proof.Machine.execMmac xt sc osp add asrc d a b c s
  | .mrdy => Sys2Proof.Machine.execMrdy s
  | .mwait opnd n => Sys2Proof.Machine.execMwait opnd n s
  | .mcnt clr d => Sys2Proof.Machine.execMcnt clr d s
  | .cpy sc dsp ssp bv bsp d a b c => Sys2Proof.Machine.execCpy sc dsp ssp bv bsp d a b c s
  | .chain sc bsp a b => Sys2Proof.Machine.execChain sc bsp a b s
  | .vwreg d a => Sys2Proof.Machine.execVwreg d a s
  | .vwdrop a => Sys2Proof.Machine.execVwdrop a s
  | .vwsync sc d a => Sys2Proof.Machine.execVwsync sc d a s
  | .bcmd g sc a b => Sys2Proof.Machine.execBcmd g sc a b s
  | .bwait sc d => Sys2Proof.Machine.execBwait sc d s
  | .xscale sc a => Sys2Proof.Machine.execXscale sc a s
  | .xsum sc a => Sys2Proof.Machine.execXsum sc a s
  | .sys g n => Sys2Proof.Machine.execSys g n s
  | .hyp g n => Sys2Proof.Machine.execHyp g n s
  | .sret => Sys2Proof.Machine.execSret s
  | .hret => Sys2Proof.Machine.execHret s
  | .rdsr g n d => Sys2Proof.Machine.execRdsr g n d s
  | .wrsr g n a => Sys2Proof.Machine.execWrsr g n a s
  | .wfi => Sys2Proof.Machine.execWfi s
  | .ahalt => Sys2Proof.Machine.execAhalt s
  | .ali d imm => Sys2Proof.Machine.execAli d imm s
  | .alih d imm => Sys2Proof.Machine.execAlih d imm s
  | .aadd d a b => Sys2Proof.Machine.execAadd d a b s
  | .aaddi d a imm => Sys2Proof.Machine.execAaddi d a imm s
  | .aloop a t => Sys2Proof.Machine.execAloop a t s
  | .abne a b t => Sys2Proof.Machine.execAbne a b t s
  | .aldw inc d a b => Sys2Proof.Machine.execAldw inc d a b s
  | .adot wf inc d a b c => Sys2Proof.Machine.execAdot wf inc d a b c s
  | .aclr d n => Sys2Proof.Machine.execAclr d n s
  | .astc sf cl inc d a n => Sys2Proof.Machine.execAstc sf cl inc d a n s
  | .aemit inc a b c => Sys2Proof.Machine.execAemit inc a b c s
  | .afadd d a b => Sys2Proof.Machine.execAfadd d a b s
  | .afmul d a b => Sys2Proof.Machine.execAfmul d a b s
  | .aldc d a => Sys2Proof.Machine.execAldc d a s
  | .anop => Sys2Proof.Machine.execAnop s
  | .blockEntry => Sys2Proof.Machine.execBlockEntry s
  | .issueCycle => Sys2Proof.Machine.execIssueCycle s
  | .stringStarvation => Sys2Proof.Machine.execStringStarvation s
  | .splitStarvation => Sys2Proof.Machine.execSplitStarvation s
  | .registerSpill => Sys2Proof.Machine.execRegisterSpill s
  | .registerFill => Sys2Proof.Machine.execRegisterFill s
  | .interruptDelivery => Sys2Proof.Machine.execInterruptDelivery s
  | .wfiWake => Sys2Proof.Machine.execWfiWake s
  | .l2WaitingStorePerform => Sys2Proof.Machine.execL2WaitingStorePerform s
  | .l1LeaseExpiry => Sys2Proof.Machine.execL1LeaseExpiry s
  | .l2VictimEvict => Sys2Proof.Machine.execL2VictimEvict s
  | .homeReadRequest => Sys2Proof.Machine.execHomeReadRequest s
  | .homeOwnRequest => Sys2Proof.Machine.execHomeOwnRequest s
  | .homeWriteback => Sys2Proof.Machine.execHomeWriteback s
  | .homeAtomic => Sys2Proof.Machine.execHomeAtomic s
  | .discover => Sys2Proof.Machine.execDiscover s
  | .agentProbeAnswer => Sys2Proof.Machine.execAgentProbeAnswer s
  | .linkUp => Sys2Proof.Machine.execLinkUp s
  | .linkWakeTimeout => Sys2Proof.Machine.execLinkWakeTimeout s
  | .agentDeclaredDead => Sys2Proof.Machine.execAgentDeclaredDead s
  | .agentReset => Sys2Proof.Machine.execAgentReset s
  | .directoryEccError => Sys2Proof.Machine.execDirectoryEccError s
  | .eccError => Sys2Proof.Machine.execEccError s
  | .memoryDieDead => Sys2Proof.Machine.execMemoryDieDead s
  | .pchRequestServe => Sys2Proof.Machine.execPchRequestServe s
  | .pchAgeLimit => Sys2Proof.Machine.execPchAgeLimit s
  | .bankRefresh => Sys2Proof.Machine.execBankRefresh s
  | .pageWalkComplete => Sys2Proof.Machine.execPageWalkComplete s
  | .tcinvAll => Sys2Proof.Machine.execTcinvAll s
  | .tcinvCtx => Sys2Proof.Machine.execTcinvCtx s
  | .tcinvPage => Sys2Proof.Machine.execTcinvPage s
  | .tcinvDrained => Sys2Proof.Machine.execTcinvDrained s
  | .regionEntryValidate => Sys2Proof.Machine.execRegionEntryValidate s
  | .regionEntryInvalidate => Sys2Proof.Machine.execRegionEntryInvalidate s
  | .regionWordWrite => Sys2Proof.Machine.execRegionWordWrite s
  | .regionDrainDone => Sys2Proof.Machine.execRegionDrainDone s
  | .timeExchange => Sys2Proof.Machine.execTimeExchange s
  | .domainTimeLost => Sys2Proof.Machine.execDomainTimeLost s
  | .barrierUpdate => Sys2Proof.Machine.execBarrierUpdate s
  | .barrierPoll => Sys2Proof.Machine.execBarrierPoll s
  | .convoyTransferStart => Sys2Proof.Machine.execConvoyTransferStart s
  | .convoyLanding => Sys2Proof.Machine.execConvoyLanding s
  | .engineBankStarvation => Sys2Proof.Machine.execEngineBankStarvation s
  | .chainCopy => Sys2Proof.Machine.execChainCopy s
  | .chainGather => Sys2Proof.Machine.execChainGather s
  | .chainScatter => Sys2Proof.Machine.execChainScatter s
  | .chainLoop => Sys2Proof.Machine.execChainLoop s
  | .chainCond => Sys2Proof.Machine.execChainCond s
  | .chainWait => Sys2Proof.Machine.execChainWait s
  | .chainArrive => Sys2Proof.Machine.execChainArrive s
  | .chainEnd => Sys2Proof.Machine.execChainEnd s
  | .chainStop => Sys2Proof.Machine.execChainStop s
  | .porterStagingComplete => Sys2Proof.Machine.execPorterStagingComplete s
  | .partitionRelease => Sys2Proof.Machine.execPartitionRelease s
  | .arrayClaimGrant => Sys2Proof.Machine.execArrayClaimGrant s
  | .tileMwldLoad => Sys2Proof.Machine.execTileMwldLoad s
  | .tileMwswExchange => Sys2Proof.Machine.execTileMwswExchange s
  | .tileMmacStream => Sys2Proof.Machine.execTileMmacStream s
  | .tileOpComplete => Sys2Proof.Machine.execTileOpComplete s
  | .rodContribution => Sys2Proof.Machine.execRodContribution s
  | .cmRegistration => Sys2Proof.Machine.execCmRegistration s
  | .partialRecallAnswer => Sys2Proof.Machine.execPartialRecallAnswer s
  | .partialWriteback => Sys2Proof.Machine.execPartialWriteback s
  | .cmrComplete => Sys2Proof.Machine.execCmrComplete s
  | .cmrendComplete => Sys2Proof.Machine.execCmrendComplete s
  | .masterWrite => Sys2Proof.Machine.execMasterWrite s
  | .derivationDelayExpiry => Sys2Proof.Machine.execDerivationDelayExpiry s
  | .derivationStart => Sys2Proof.Machine.execDerivationStart s
  | .derivationComplete => Sys2Proof.Machine.execDerivationComplete s
  | .viewRead => Sys2Proof.Machine.execViewRead s
  | .vwdropComplete => Sys2Proof.Machine.execVwdropComplete s
  | .vwsyncComplete => Sys2Proof.Machine.execVwsyncComplete s
  | .bankCommandEnqueue => Sys2Proof.Machine.execBankCommandEnqueue s
  | .bankCommandStart => Sys2Proof.Machine.execBankCommandStart s
  | .bankCommandEnd => Sys2Proof.Machine.execBankCommandEnd s
  | .abacusStepLimit => Sys2Proof.Machine.execAbacusStepLimit s
  | .launchSubmit => Sys2Proof.Machine.execLaunchSubmit s
  | .bazaarQueueEnable => Sys2Proof.Machine.execBazaarQueueEnable s
  | .bazaarQueueDisable => Sys2Proof.Machine.execBazaarQueueDisable s
  | .stealSearch => Sys2Proof.Machine.execStealSearch s
  | .stealRetry => Sys2Proof.Machine.execStealRetry s
  | .stealTake => Sys2Proof.Machine.execStealTake s
  | .droveSummary => Sys2Proof.Machine.execDroveSummary s
  | .stealPauseLapse => Sys2Proof.Machine.execStealPauseLapse s
  | .caravanToken => Sys2Proof.Machine.execCaravanToken s
  | .caravanTokenPass => Sys2Proof.Machine.execCaravanTokenPass s
  | .taskStart => Sys2Proof.Machine.execTaskStart s
  | .parkSpill => Sys2Proof.Machine.execParkSpill s
  | .spillRestore => Sys2Proof.Machine.execSpillRestore s
  | .contextFault => Sys2Proof.Machine.execContextFault s
  | .ctxSave => Sys2Proof.Machine.execCtxSave s
  | .ctxRestore => Sys2Proof.Machine.execCtxRestore s
  | .ctxRestoreCluster => Sys2Proof.Machine.execCtxRestoreCluster s
  | .ctxPreempt => Sys2Proof.Machine.execCtxPreempt s
  | .ctxEnd => Sys2Proof.Machine.execCtxEnd s
  | .evictedShareReturn => Sys2Proof.Machine.execEvictedShareReturn s
  | .hostRead => Sys2Proof.Machine.execHostRead s
  | .hostWrite => Sys2Proof.Machine.execHostWrite s
  | .hostSnoop => Sys2Proof.Machine.execHostSnoop s
  | .snoopFilterRecall => Sys2Proof.Machine.execSnoopFilterRecall s
  | .dbellWrite => Sys2Proof.Machine.execDbellWrite s
  | .naeshLinkReturn => Sys2Proof.Machine.execNaeshLinkReturn s
  | .caravanLaneFail => Sys2Proof.Machine.execCaravanLaneFail s
  | .caravanRetrainDone => Sys2Proof.Machine.execCaravanRetrainDone s
  | .remoteAccess => Sys2Proof.Machine.execRemoteAccess s
  | .remoteRefusal => Sys2Proof.Machine.execRemoteRefusal s
  | .remoteAccessTimeout => Sys2Proof.Machine.execRemoteAccessTimeout s
  | .xscaleUnitContribute => Sys2Proof.Machine.execXscaleUnitContribute s
  | .xscaleUnitFinish => Sys2Proof.Machine.execXscaleUnitFinish s
  | .xsumUnitContribute => Sys2Proof.Machine.execXsumUnitContribute s
  | .xsumUnitFinish => Sys2Proof.Machine.execXsumUnitFinish s
  | .collectiveAreaClear => Sys2Proof.Machine.execCollectiveAreaClear s
  | .packageReset => Sys2Proof.Machine.execPackageReset s
  | .powerAverage => Sys2Proof.Machine.execPowerAverage s
  | .linkSleep => Sys2Proof.Machine.execLinkSleep s
  | .clusterGate => Sys2Proof.Machine.execClusterGate s
  | .clusterUngate => Sys2Proof.Machine.execClusterUngate s
  | .caravanPortIdle => Sys2Proof.Machine.execCaravanPortIdle s
  | .caravanPortWake => Sys2Proof.Machine.execCaravanPortWake s
  | .thermalThrottle => Sys2Proof.Machine.execThermalThrottle s
  | .memoryDieHot => Sys2Proof.Machine.execMemoryDieHot s
  | .thermalStop => Sys2Proof.Machine.execThermalStop s
  | .resqRead => Sys2Proof.Machine.execResqRead s
  | .elogRead => Sys2Proof.Machine.execElogRead s
  | .mcmdRoutes => Sys2Proof.Machine.execMcmdRoutes s
  | .mcmdStealRing => Sys2Proof.Machine.execMcmdStealRing s
  | .registerWrite => Sys2Proof.Machine.execRegisterWrite s
  | .illegalInstruction => Sys2Proof.Machine.execIllegalInstruction s
  | .flitRetransmit => Sys2Proof.Machine.execFlitRetransmit s
  | .thermalThrottleEnd => Sys2Proof.Machine.execThermalThrottleEnd s
  | .memoryDieCooled => Sys2Proof.Machine.execMemoryDieCooled s

end Sys2Proof.Machine
end

