-- ==== Sys2Proof/Machine/Step.lean ====
section
/-!
DEFINITION. One step of the device: the event at the head of the agenda, else the instruction of the next entry of the issue list, else a
core cycle (log 7). What each of these does is in Sched.lean.
-/
namespace Sys2Proof.Machine
open Sys2Proof

/-- An entry of the issue list carried out: its instruction, if it brings one, and what follows an issue. -/
def issueStep (x : IssueRef) (s : State) : Res :=
  match s.prepare x with
  | (s', none) => .next (s'.afterIssue x (s.starveOf x))
  | (s', some i) =>
    match exec i s' with
    | .next t => .next (t.afterIssue x (s.starveOf x))
    | .fault f => .fault f
    | .refused r => .refused r

/-- One step. -/
def step (s : State) : Host.Outcome State Fault Refusal :=
  match s.agenda with
  | e :: r => exec e.instr { s with agenda := r, ev := e }
  | [] =>
    match s.issue with
    | x :: r => issueStep x { s with issue := r }
    | [] => .next (s.turn exec)

/-- The state in which the next step issues the instruction whose bits are `w`: an abacus word of 32 bits, else a core word (log 42). -/
def State.withFetchWord (s : State) (nbits w : Nat) : State :=
  if nbits = 32 then s.placeAbacusWord w else s.placeCoreWord w

end Sys2Proof.Machine
end

