-- ==== Sys2Proof/Safety.lean ====
section
/-!
DEFINITION. The terms in which the statements speak: what a next state changes and what it keeps, integers read and written by a
type (spec/07 R177), what an instruction writes (R139, R144, R160), and the invariant of the two memories.
-/
namespace Sys2Proof

-- ## Integers by a type

/-- The low w bits of a word as the integer that the type reads (R177, R178). -/
def Ty.read (t : Ty) (v : W64) : Int :=
  if t.isSigned then (v.setWidth t.width).toInt else ((v.setWidth t.width).toNat : Int)

/-- The low w bits of an integer, sign-extended to 64 bits for a signed type and zero-extended for a natural type (R177). -/
def Ty.low (t : Ty) (z : Int) : W64 :=
  BitVec.ofInt 64 (if t.isSigned then z.bmod (2 ^ t.width) else z % ((2 ^ t.width : Nat) : Int))

/-- Element e of a lane's value as the integer that the type reads (R161, R173). -/
def Ty.elem (t : Ty) (v : W64) (e : Nat) : Int := t.read (v >>> (t.width * e))

/-- Element e of a lane's value as a natural number (R173). -/
def Ty.bits (t : Ty) (v : W64) (e : Nat) : Nat := ((v >>> (t.width * e)).setWidth t.width).toNat

/-- The registers of a value of the type: one, or a pair (R139). -/
def Ty.regs (t : Ty) (d : VReg) : List VReg := if t.is64 then [d, d + 1] else [d]

/-- The relations of R178. -/
def Cc.rel (cc : Cc) (x y : Int) : Prop :=
  match cc with
  | .eq => x = y
  | .ne => x ≠ y
  | .lt => x < y
  | .le => x ≤ y
  | .gt => y < x
  | .ge => y ≤ x

/-- The relations on exact values. -/
def Cc.relRat (cc : Cc) (x y : Rat) : Prop :=
  match cc with
  | .eq => x = y
  | .ne => x ≠ y
  | .lt => x < y
  | .le => x ≤ y
  | .gt => y < x
  | .ge => y ≤ x

/-- The exact value (−1)^neg × m × 2^e. -/
def ratOf (neg : Bool) (m : Nat) (e : Int) : Rat := (if neg then -1 else 1) * (m : Rat) * (2 : Rat) ^ e

-- ## Rounding, in the terms of the rules

/-- a × 2^u is the magnitude that a mode makes of an exact magnitude x (R21, R22). `le q` says that q ≤ x and `lt q` that q < x, so that x may be
irrational; `r` is the random value of `.rs`. -/
def rounded (mode : Rnd) (neg : Bool) (r : W32) (le lt : Rat → Prop) (u : Int) (a : Nat) : Prop :=
  ∃ k : Nat,
    let at_ (j : Rat) : Rat := ((k : Rat) + j) * (2 : Rat) ^ u
    le (at_ 0) ∧ ¬le (at_ 1) ∧ (¬lt (at_ 0) → a = k) ∧
    (lt (at_ 0) →
      match mode with
      | .rz => a = k
      | .ru => a = if neg then k else k + 1
      | .rd => a = if neg then k + 1 else k
      | .rn => (¬le (at_ (1 / 2)) → a = k) ∧ (lt (at_ (1 / 2)) → a = k + 1) ∧ (le (at_ (1 / 2)) → ¬lt (at_ (1 / 2)) → a % 2 = 0 ∧ (a = k ∨ a = k + 1))
      | .rs => (le (at_ (((2 ^ 32 - r.toNat : Nat) : Rat) / 2 ^ 32)) → a = k + 1) ∧ (¬le (at_ (((2 ^ 32 - r.toNat : Nat) : Rat) / 2 ^ 32)) → a = k))

/-- The exact magnitude x, not zero, delivered with a sign (R20, R21, R26, R29): flushed if it is tiny under FZ, the overflow value of R26 if its rounding
passes the largest finite value, else the code of its rounding, with the flags of each. Tiny means that the rounding to the format's precision with no
bound on the exponent lies below the least normal value. -/
def Ty.Rounds (t : Ty) (mode : Rnd) (sat fz : Bool) (r : W32) (neg : Bool) (le lt : Rat → Prop) (o : Nat × Flags) : Prop :=
  ∃ (top : Int) (a f : Nat), le ((2 : Rat) ^ top) ∧ ¬le ((2 : Rat) ^ (top + 1)) ∧
    let u : Int := max top t.emin - t.manW
    let y : Rat := (a : Rat) * (2 : Rat) ^ u
    let tiny : Prop := (f : Rat) * (2 : Rat) ^ (top - t.manW) < (2 : Rat) ^ t.emin
    let flush : Prop := fz = true ∧ t.isArith = true ∧ tiny
    let large : Prop := ratOf false (t.mag t.maxCode).1 (t.mag t.maxCode).2 < y
    rounded mode neg r le lt u a ∧ rounded mode neg r le lt (top - t.manW) f ∧
    (flush → o = (t.signed neg 0, fUF ||| fNX)) ∧
    (¬flush → large → o.2 = fOF ||| fNX ∧ o.1 = t.signed neg
      (if t = .e4m3 ∨ t = .e2m1 ∨ sat = true then t.maxCode
       else match mode with
        | .rn | .rs => t.infCode
        | .rz => t.maxCode
        | .ru => if neg then t.maxCode else t.infCode
        | .rd => if neg then t.infCode else t.maxCode)) ∧
    (¬flush → ¬large → o.1 < 2 ^ t.width ∧ (∃ m e, t.decode o.1 = .fin neg m e ∧ ratOf false m e = y) ∧
      (le y → ¬lt y → o.2 = 0) ∧ (¬(le y ∧ ¬lt y) → (tiny → o.2 = fUF ||| fNX) ∧ (¬tiny → o.2 = fNX)))

/-- A rational result x delivered: zero with the sign `zneg` and no flag, else by its magnitude and sign. -/
def Ty.Gives (t : Ty) (mode : Rnd) (sat fz : Bool) (r : W32) (x : Rat) (zneg : Bool) (o : Nat × Flags) : Prop :=
  (x = 0 → o = (t.signed zneg 0, 0)) ∧
  (x ≠ 0 → let y := if x < 0 then -x else x; t.Rounds mode sat fz r (decide (x < 0)) (fun q => q ≤ y) (fun q => q < y) o)

/-- The number that a finite value is. -/
def FVal.rat : FVal → Rat
  | .fin n m e => ratOf n m e
  | _ => 0

/-- |x|. -/
def magOf (x : Rat) : Rat := if x < 0 then -x else x

/-- The step of a lane's generator (R23). -/
def genNext (g : W32) : W32 :=
  let g := g ^^^ (g <<< 13)
  let g := g ^^^ (g >>> 17)
  g ^^^ (g <<< 5)

/-- Two values are the same: both NaN, the same infinity, or one number with one sign. -/
def FVal.same : FVal → FVal → Prop
  | .nan _, .nan _ => True
  | .inf a, .inf b => a = b
  | .fin n m e, .fin n' m' e' => n = n' ∧ ratOf n m e = ratOf n' m' e'
  | _, _ => False

/-- x lies below y, and −0 below +0; neither is a NaN (R193). -/
def FVal.below : FVal → FVal → Prop
  | .inf a, .inf b => a = true ∧ b = false
  | .inf a, .fin .. => a = true
  | .fin .., .inf b => b = false
  | .fin n m e, .fin n' m' e' => ratOf n m e < ratOf n' m' e' ∨ (m = 0 ∧ m' = 0 ∧ n = true ∧ n' = false)
  | _, _ => False

/-- An FP32 code stands within k units of the spacing at an exact magnitude x with a sign, or for the infinity of that sign where x lies beyond the range
(R195, log 12). -/
def Units (k : Nat) (neg : Bool) (le lt : Rat → Prop) (code : Nat) : Prop :=
  ∃ top : Int, le ((2 : Rat) ^ top) ∧ ¬le ((2 : Rat) ^ (top + 1)) ∧
    let u : Rat := (k : Rat) * (2 : Rat) ^ (max top (-126) - 23)
    match Ty.f32.decode code with
    | .fin n m e => le (ratOf (n != neg) m e - u) ∧ ¬lt (ratOf (n != neg) m e + u)
    | .inf n => n = neg ∧ le ((2 : Rat) ^ (128 : Int))
    | .nan _ => False

/-- The destinations of an instruction of the scalar, mask, vector integer, lane and floating groups. -/
structure Dests where
  s : Option SReg
  k : Option KReg
  v : List VReg

/-- A scalar destination. -/
def Dests.ofS (d : SReg) : Dests := { s := some d, k := none, v := [] }
/-- A mask destination. -/
def Dests.ofK (d : KReg) : Dests := { s := none, k := some d, v := [] }
/-- Vector destinations. -/
def Dests.ofV (vs : List VReg) : Dests := { s := none, k := none, v := vs }

/-- The destinations of the instructions that only compute on registers (R176, R182, R183, R191 to R199). -/
def Instr.dests : Instr → Option Dests
  | .sadd _ d .. | .ssub _ d .. | .smul _ d .. | .smulh _ d .. | .sand _ d .. | .sor _ d .. | .sxor _ d .. | .sshl _ d .. | .sshr _ d ..
  | .ssar _ d .. | .smin _ d .. | .smax _ d .. | .sandn _ d .. | .saddI d .. | .ssubI d .. | .smulI d .. | .smulhI d .. | .sandI d ..
  | .sorI d .. | .sxorI d .. | .sshlI d .. | .sshrI d .. | .ssarI d .. | .sminI d .. | .smaxI d .. | .sandnI d .. | .scmp _ _ d ..
  | .scmpI _ d .. | .sdiv _ d .. | .srem _ d .. | .sliI d .. | .sliL d .. | .ssel _ d .. | .spop _ d .. | .sclz _ d .. | .sctz _ d ..
  | .slea d .. | .kpop d .. | .kfirst d .. | .ktos d .. | .vgetl _ d .. | .vred _ _ _ d .. => some (Dests.ofS d)
  | .kand d .. | .kor d .. | .kxor d .. | .kandn d .. | .knot d .. | .kmov d .. | .stok d .. | .vcmp _ _ _ d .. | .vcmpI _ _ d ..
  | .fcmp _ _ d .. => some (Dests.ofK d)
  | .vadd _ t d .. | .vsub _ t d .. | .vmul _ t d .. | .vmulh _ t d .. | .vand _ t d .. | .vor _ t d .. | .vxor _ t d .. | .vshl _ t d ..
  | .vshr _ t d .. | .vsar _ t d .. | .vmin _ t d .. | .vmax _ t d .. | .vabs _ t d .. | .vneg _ t d .. | .vadds _ t d .. | .vsubs _ t d ..
  | .vsel _ t d .. | .vmov _ t d .. | .vbcast _ t d .. | .vsetl _ t d .. | .vperm _ t d .. | .vshup _ t d .. | .vshdn _ t d ..
  | .vshxor _ t d .. | .vrot _ t d .. | .vmad _ t d .. | .vpop _ t d .. | .vclz _ t d .. | .vctz _ t d .. => some (Dests.ofV (t.regs d))
  | .vaddI _ d .. | .vsubI _ d .. | .vmulI _ d .. | .vmulhI _ d .. | .vandI _ d .. | .vorI _ d .. | .vxorI _ d .. | .vshlI _ d ..
  | .vshrI _ d .. | .vsarI _ d .. | .vminI _ d .. | .vmaxI _ d .. | .vlid _ d | .vscan _ _ _ d .. | .vdot4 _ _ d .. | .vext _ _ d ..
  | .qblk _ _ _ d _ | .dqblk _ _ d _ => some (Dests.ofV [d])
  | .fadd _ t _ d .. | .fsub _ t _ d .. | .fmul _ t _ d .. | .fmin _ t d .. | .fmax _ t d .. | .fdiv _ t _ d .. | .fsqrt _ t _ d ..
  | .fabs _ t d .. | .fneg _ t d .. | .ffma _ t _ d .. | .ffms _ t _ d .. | .ffnma _ t _ d .. | .ffnms _ t _ d .. | .frcp _ t d ..
  | .frsq _ t d .. | .fexp2 _ t d .. | .flog2 _ t d .. | .fclass _ t d .. | .fcvtFf _ t _ _ _ _ d _ | .fcvtFi _ t _ _ _ _ d _
  | .fcvtIf _ t _ _ _ _ d _ | .fpack _ t _ _ d .. => some (Dests.ofV (t.regs d))
  | .funpack _ _ _ d _ => some (Dests.ofV [d, d + 1])
  | _ => none

/-- The number of bits of the low n bits that are 1. -/
def ones (n : Nat) (p : Nat → Bool) : Nat := ((List.range n).filter p).length

/-- How many places from 0 upward, at most n, hold a 0 before the first 1. -/
def zerosBelow (n : Nat) (p : Nat → Bool) : Nat := ((List.range n).takeWhile (fun i => !p i)).length

/-- z combines the listed values, at least one, by an operation of vred (R188); for the bitwise ones, bit by bit of the values' low w bits. -/
def RedOp.all (op : RedOp) (t : Ty) (xs : List Int) (z : Int) : Prop :=
  match op with
  | .add => z = xs.sum
  | .min => z ∈ xs ∧ ∀ x ∈ xs, z ≤ x
  | .max => z ∈ xs ∧ ∀ x ∈ xs, x ≤ z
  | .and => ∀ i < t.width, (BitVec.ofInt 64 z).getLsbD i = xs.all (fun x => (BitVec.ofInt 64 x).getLsbD i)
  | .or => ∀ i < t.width, (BitVec.ofInt 64 z).getLsbD i = xs.any (fun x => (BitVec.ofInt 64 x).getLsbD i)
  | .xor => ∀ i < t.width,
      (BitVec.ofInt 64 z).getLsbD i = decide ((xs.filter (fun x => (BitVec.ofInt 64 x).getLsbD i)).length % 2 = 1)

namespace Machine

-- ## What a next state changes

/-- `s` with the issuing string replaced by `r`; everything else is the same. -/
def State.withMe (s : State) (r : Str) : State :=
  { s with cores := s.cores.set s.cur.core { s.core with strs := s.core.strs.set s.cur.slot r } }

/-- A string `r` of `s` with the issuing split n words on. -/
def State.moved (s : State) (n : Nat) (r : Str) : Str :=
  { r with splits := r.splits.set s.cur.split { r.splits[s.cur.split] with pc := (r.splits[s.cur.split]).pc + BitVec.ofNat 64 (8 * n) } }

/-- The next state of an instruction of n words whose one result is `v` in sD: no flag, mask, vector register, other split or string, special
register or byte of memory differs. -/
def State.wroteS (s : State) (d : SReg) (v : W64) (n : Nat) : State :=
  s.withMe (s.moved n { s.me with sreg := s.me.sreg.set d.toFin v })

/-- The next state of an instruction of one word whose one result is `v` in kD; k0 takes no write (R139). -/
def State.wroteK (s : State) (d : KReg) (v : Mask) : State :=
  s.withMe (s.moved 1 (if d = 0 then s.me else { s.me with kreg := s.me.kreg.set d.toFin v }))

/-- The next state of an instruction of one word with no result. -/
def State.moved1 (s : State) : State := s.withMe (s.moved 1 s.me)

/-- The next state of a taken branch: the issuing split stands at the target, whose header is checked when it next issues (R391). -/
def State.jumped (s : State) (t : W64) : State :=
  s.withMe { s.me with splits := s.me.splits.set s.cur.split { s.sp with pc := t, enter := true } }

/-- Register number n holds a value on every lane of `e`: it holds one, and no lane of `e` has lost it (R144, R405). -/
def Str.hasValue (t : Str) (e : Mask) (n : Nat) : Prop :=
  (∃ v, t.vreg.toArray.getD n none = some v) ∧ ∀ g ∈ t.gone, g.1 = n → g.2 &&& e = 0

/-- A vector instruction passes R144, and no tile operation has one of its registers on loan (R261). -/
def State.vecReady (s : State) (i : Instr) : Prop :=
  s.me.allotFail s.sp.e (vopsOf i) = none ∧ s.me.loaned (vopsOf i) = []

/-- `u` is `s` but for the vector registers `rs` of the issuing string on the lanes `lanes`, and the issuing split one word on. With no
active lane nothing is written (R160); a register that held no value holds one afterwards, zero on the other lanes (R144). -/
structure State.WroteV (s u : State) (rs : List VReg) (lanes : Mask) : Prop where
  /-- Only the issuing string differs. -/
  only : u = s.withMe u.me
  /-- In it, only vector registers, what R147 keeps of them, and splits. -/
  str : u.me = { s.me with vreg := u.me.vreg, vstamp := u.me.vstamp, vspill := u.me.vspill, gone := u.me.gone, splits := u.me.splits }
  /-- Of the splits, only the issuing one's PC. -/
  splits : u.me.splits = (s.moved 1 s.me).splits
  /-- Lanes that are not active, and registers that are no destination, read as before. -/
  kept : ∀ r l, l < 32 → (r ∉ rs ∨ lanes.has l = false) → u.getV r l = s.getV r l
  /-- Registers that are no destination hold a value, or none, as before. -/
  others : ∀ r, r ∉ rs → u.me.vreg[r.toFin] = s.me.vreg[r.toFin]
  /-- A destination written holds a value. -/
  holds : lanes ≠ 0 → ∀ r ∈ rs, (u.me.vreg[r.toFin]).isSome = true
  /-- With no active lane nothing is written. -/
  none : lanes = 0 → u.me.vreg = s.me.vreg

/-- `exec i s` answers a next state that writes only the value of type t in vD, element e of active lane l being `f l e`. -/
def State.computes (s : State) (i : Instr) (g : KReg) (t : Ty) (d : VReg) (f : Nat → Nat → Int) : Prop :=
  ∃ u, exec i s = .next u ∧ s.WroteV u (t.regs d) (s.active g) ∧
    ∀ l < 32, (s.active g).has l = true → ∀ e < t.elems, t.bits (u.opnd t d l) e = (f l e % ((2 ^ t.width : Nat) : Int)).toNat

/-- The same with the whole lane value of type t given. -/
def State.moves (s : State) (i : Instr) (g : KReg) (t : Ty) (d : VReg) (f : Nat → W64) : Prop :=
  ∃ u, exec i s = .next u ∧ s.WroteV u (t.regs d) (s.active g) ∧
    ∀ l < 32, (s.active g).has l = true → u.opnd t d l = if t.is64 then f l else ((f l).setWidth 32).setWidth 64

/-- `exec i s` answers a next state of a floating instruction that produces n elements of type dt, from element `start` of vD upward, on each active
lane (R191): element e of lane l has the code of `f l e r`, r its random value; the other elements of D are kept; the flags of all of them are
ORed into the staged flags of the issuing split; generators step under `.rs`; nothing else changes. -/
def State.floats (s : State) (i : Instr) (g : KReg) (m : Rnd) (dt : Ty) (d : VReg) (start n : Nat) (f : Nat → Nat → W32 → FRes) : Prop :=
  ∃ (u : State) (fl : Flags), exec i s = .next u ∧
    ((s.drawn m (s.active g) n).stage fl).WroteV u (dt.regs d) (s.active g) ∧
    (∀ b < 5, fl.getLsbD b = true ↔ ∃ l < 32, (s.active g).has l = true ∧ ∃ e < n, (f l e ((s.rand m l n).getD e 0)).2.getLsbD b = true) ∧
    ∀ l < 32, (s.active g).has l = true → ∀ e < dt.elems, dt.bits (u.opnd dt d l) e =
      if start ≤ e ∧ e < start + n then (f l (e - start) ((s.rand m l n).getD (e - start) 0)).1 % 2 ^ dt.width
      else dt.bits (s.opnd dt d l) e

/-- The registers of data of the size (R209). -/
def sizeRegList (sz : Size) (d : VReg) : List VReg := (List.range (sizeRegs sz)).map (fun j => d + BitVec.ofNat 8 j)

/-- Register j of a lane's loaded bytes (R209): sign-extended with SX, else the little-endian word of its four bytes. -/
def loaded (sz : Size) (sx : Bool) (bs : List Byte) (j : Nat) : W32 :=
  if sx then BitVec.ofInt 32 (BitVec.ofNat (8 * sz.bytes) (leNat bs)).toInt
  else BitVec.ofNat 32 (leNat ((bs.drop (4 * j)).take 4))

/-- Byte i of the data that lane l stores (R209). -/
def State.laneByte (s : State) (b : VReg) (l i : Nat) : Byte := (s.getV (b + BitVec.ofNat 8 (i / 4)) l).extractLsb' (8 * (i % 4)) 8

/-- The key of a scratchpad byte. -/
def scrKeyOf : Place → Option Nat
  | .scr c o => some (scrKey c o)
  | .mem _ => none

/-- The issuing split stands n words on, in the same mode and with the same lanes. -/
def State.Past (s u : State) (n : Nat) : Prop :=
  u.cur = s.cur ∧ u.sp.pc = s.sp.pc + BitVec.ofNat 64 (8 * n) ∧ u.sp.mode = s.sp.mode ∧ u.sp.m = s.sp.m ∧ u.sp.e = s.sp.e ∧ u.sp.stack = s.sp.stack

/-- No scalar, mask or vector register and no allotment of the issuing string differs, nor its PTROOT. -/
def State.SameRegs (s u : State) : Prop :=
  u.me.sreg = s.me.sreg ∧ u.me.kreg = s.me.kreg ∧ u.me.vreg = s.me.vreg ∧ u.me.allot = s.me.allot ∧ u.me.ptroot = s.me.ptroot

/-- The issuing split's region is committed (R205, R201, R398): T is ORed into FFLAGS and cleared, and for a split below the hypervisor's mode the
next region of each lane of E begins at the word after. -/
def State.Commits (s u : State) : Prop :=
  u.me.fflags = s.me.fflags ||| s.sp.t ∧ u.sp.t = 0 ∧
  ∀ l < 32, s.sp.e.has l = true →
    (s.sp.mode = .user → (u.me.lane l).urec.rentry = s.sp.pc + 8 ∧ (u.me.lane l).urec.mark = false) ∧
    (s.sp.mode = .sup → (u.me.lane l).srec.rentry = s.sp.pc + 8 ∧ (u.me.lane l).srec.mark = false)

/-- Every byte of memory and scratchpad outside the n bytes at a place reads as before. -/
def State.SameBut (s u : State) (p : Place) (n : Nat) : Prop :=
  (∀ l, (∀ i < n, placeAdd p i ≠ .mem l) → u.peek l = s.peek l) ∧
  (∀ k, (∀ i < n, scrKeyOf (placeAdd p i) ≠ some k) → cellGet u.scr k = cellGet s.scr k)

/-- A barrier's place: the 32 bytes lie in one core's scratchpad, or in memory. -/
def placeFits : Place → Prop
  | .scr _ o => o + 32 ≤ 2 ^ 22
  | .mem _ => True

/-- An access of n bytes of this device's memory that a store performs at once: its pages have D set, its lines are owned by the core's die and belong
to no view, no lease stands on them and no store waits for them (R68, R73, R91). -/
def State.StoresAt (s : State) (a : Acc) (n : Nat) : Prop :=
  a.reg = none ∧ a.remote = false ∧ a.locs.length = n ∧ a.locs.Nodup ∧ (∀ t ∈ a.trs, pteD t.pte = true) ∧
  ∀ l ∈ a.lines, lineRemote l = false ∧ s.leaseOn l = 0 ∧ (∀ p ∈ s.pend, p.line ≠ l) ∧ s.poisoned l = false ∧ s.isMaster l = false ∧ (s.lineKind a l).llcOnly = false ∧
    ∃ e, s.l2Get (agentOf (dieOf s.cur.core)) l = some e ∧ e.st ≠ .shared

/-- The accesses of the lanes that passed may be performed: D is set on their pages (R91) and other devices have answered (R431), `ret` saying
that values return; `r` is the state then. -/
def State.Performs (q : State) (ret : Bool) (rs : List (Nat × LaneChk)) (addr : Nat → W64) (r : State) : Prop :=
  ∀ k, q.performingAs ret rs (fun l => Mask.ofLanes [l]) addr k = k r

/-- The traps of the active lanes that fail, with their causes and addresses (R92, R204). -/
def State.failing (s : State) (g : KReg) (ok : Mask) (c : Nat → Nat) (addr : Nat → W64) : List Trap :=
  ((s.active g).lanes.filter (fun l => !ok.has l)).map (fun l => { lane := l, code := c l, tval := addr l })

/-- ECODE set if it holds none (R119). -/
def withEcode (w : W64) (e : Nat) : W64 :=
  if w.extractLsb' 52 4 = 0 then w ||| (BitVec.ofNat 64 e <<< 52) else w

/-- The sum of the values of A on the listed lanes, read as natural numbers (R188). -/
def State.laneSum (s : State) (ls : List Nat) (a : VReg) : Int := ((ls.map (fun l => (s.getV a l).toNat)).sum : Int)

/-- n bytes of memory, aligned to n, read as one access of the issuing split, then `k` with the state after the read and the bytes (R93). -/
def State.recordRead (s : State) (n : Nat) (va : W64) (k : State → List Byte → State) : State :=
  let c := s.chkLoad s.sp.m n va n false
  c.1.oneAccess c.2 va (fun s =>
    let r := s.readLanes [(0, c.2)] n
    k r.1.remoteDone ((r.2.map (·.2)).headD []))

/-- The read of n bytes at an address passes its checks and gives `bs`; `q` is the state after it. -/
def State.RecordAt (s : State) (va : W64) (n : Nat) (q : State) (bs : List Byte) : Prop := ∀ k, s.recordRead n va k = k q bs

/-- The 128 bytes of a manifest image at an address: of this core's scratchpad with SP, else of memory (R362 item 1). -/
def State.ManifestAt (s : State) (sp : Bool) (va : W64) (q : State) (bs : List Byte) : Prop :=
  if sp then ∃ p, scrPeer s.cur.core va = false ∧ s.scrCheck s.cur.core s.me.ctx 128 va = .ok p ∧ s.scrPoison p 128 = false ∧
    q = s ∧ bs = s.placeGet p 128
  else s.RecordAt va 128 q bs

/-- The state in which an operation stands after its checks: no register, split or allotment of the issuing string differs. -/
def State.Checked (s q : State) : Prop := q.cur = s.cur ∧ q.me = s.me

/-- `u` is `s` but for the running command of the issuing abacus, which is `r` now, and the requests for DRAM lines that it has made (R299). -/
structure State.AbRan (s u : State) (r : AbRun) : Prop where
  /-- Only the abaci and the requests at the pseudo-channels differ. -/
  only : u = { s with abaci := u.abaci, pchq := u.pchq }
  /-- No request is taken back. -/
  requests : s.pchq <+: u.pchq
  /-- The running command. -/
  run : (u.abAt s.curAb.1 s.curAb.2).run = some r
  /-- The commands that wait for it. -/
  queue : (u.abAt s.curAb.1 s.curAb.2).queue = (s.abAt s.curAb.1 s.curAb.2).queue ∧
    (u.abAt s.curAb.1 s.curAb.2).coming = (s.abAt s.curAb.1 s.curAb.2).coming
  /-- Every other abacus. -/
  others : ∀ d p, (d, p) ≠ s.curAb → u.abAt d p = s.abAt d p

/-- The event `e`, at work in `s`, leaves a next state of which `P` holds. -/
def State.happens (s : State) (e : Ev) (P : State → Prop) : Prop := s.ev = e → ∃ t, exec e.instr s = .next t ∧ P t

-- ## The invariant

/-- Memory and scratchpad are lists of cells in canonical form. -/
def State.Inv (s : State) : Prop := Memory.wf s.mem = true ∧ Memory.wf s.scr = true

end Machine
end Sys2Proof
end

