-- ==== Sys2Proof/Certificates/Slice0/Obligations.lean ====
section
/-!
DEFINITION. What is claimed of this model: the statements, each naming the rules of spec/ that it says.
-/
open Sys2Proof Sys2Proof.Machine

/-- R177: each R-form of major 0x00 leaves in sD its result on the low w bits of sA and sB, extended by the type, and changes nothing but sD and the PC;
each I-form of 0x01 takes the sign-extended immediate as B and operates as `.i64`. A shift takes the whole of B as its count. -/
def Obligations.ScalarArithmetic : Prop :=
  ∀ (s : State) (d a b : SReg),
    (∀ t : Ty, t.isInt = true →
      let X := s.getS a
      let Y := s.getS b
      let A := t.read X
      let B := t.read Y
      exec (.sadd t d a b) s = .next (s.wroteS d (t.low (A + B)) 1) ∧
      exec (.ssub t d a b) s = .next (s.wroteS d (t.low (A - B)) 1) ∧
      exec (.smul t d a b) s = .next (s.wroteS d (t.low (A * B)) 1) ∧
      exec (.smulh t d a b) s = .next (s.wroteS d (t.low (A * B / ((2 ^ t.width : Nat) : Int))) 1) ∧
      exec (.sand t d a b) s = .next (s.wroteS d (t.low (((X &&& Y).toNat : Int))) 1) ∧
      exec (.sor t d a b) s = .next (s.wroteS d (t.low (((X ||| Y).toNat : Int))) 1) ∧
      exec (.sxor t d a b) s = .next (s.wroteS d (t.low (((X ^^^ Y).toNat : Int))) 1) ∧
      exec (.sshl t d a b) s = .next (s.wroteS d (t.low (((X.toNat * 2 ^ Y.toNat : Nat) : Int))) 1) ∧
      exec (.sshr t d a b) s = .next (s.wroteS d (t.low ((((X.setWidth t.width).toNat / 2 ^ Y.toNat : Nat) : Int))) 1) ∧
      exec (.ssar t d a b) s = .next (s.wroteS d (t.low ((X.setWidth t.width).toInt / ((2 ^ Y.toNat : Nat) : Int))) 1) ∧
      exec (.smin t d a b) s = .next (s.wroteS d (t.low (min A B)) 1) ∧
      exec (.smax t d a b) s = .next (s.wroteS d (t.low (max A B)) 1) ∧
      exec (.sandn t d a b) s = .next (s.wroteS d (t.low (((X &&& ~~~Y).toNat : Int))) 1)) ∧
    (∀ imm : W32,
      let X := s.getS a
      let Y : W64 := imm.signExtend 64
      let A := X.toInt
      let B := imm.toInt
      exec (.saddI d a imm) s = .next (s.wroteS d (BitVec.ofInt 64 (A + B)) 1) ∧
      exec (.ssubI d a imm) s = .next (s.wroteS d (BitVec.ofInt 64 (A - B)) 1) ∧
      exec (.smulI d a imm) s = .next (s.wroteS d (BitVec.ofInt 64 (A * B)) 1) ∧
      exec (.smulhI d a imm) s = .next (s.wroteS d (BitVec.ofInt 64 (A * B / 2 ^ 64)) 1) ∧
      exec (.sandI d a imm) s = .next (s.wroteS d (BitVec.ofInt 64 (((X &&& Y).toNat : Int))) 1) ∧
      exec (.sorI d a imm) s = .next (s.wroteS d (BitVec.ofInt 64 (((X ||| Y).toNat : Int))) 1) ∧
      exec (.sxorI d a imm) s = .next (s.wroteS d (BitVec.ofInt 64 (((X ^^^ Y).toNat : Int))) 1) ∧
      exec (.sshlI d a imm) s = .next (s.wroteS d (BitVec.ofInt 64 (((X.toNat * 2 ^ Y.toNat : Nat) : Int))) 1) ∧
      exec (.sshrI d a imm) s = .next (s.wroteS d (BitVec.ofInt 64 (((X.toNat / 2 ^ Y.toNat : Nat) : Int))) 1) ∧
      exec (.ssarI d a imm) s = .next (s.wroteS d (BitVec.ofInt 64 (X.toInt / ((2 ^ Y.toNat : Nat) : Int))) 1) ∧
      exec (.sminI d a imm) s = .next (s.wroteS d (BitVec.ofInt 64 (min A B)) 1) ∧
      exec (.smaxI d a imm) s = .next (s.wroteS d (BitVec.ofInt 64 (max A B)) 1) ∧
      exec (.sandnI d a imm) s = .next (s.wroteS d (BitVec.ofInt 64 (((X &&& ~~~Y).toNat : Int))) 1)) ∧
    encode (.saddI 1 2 (-16)) = .word 0x01000102FFFFFFF0

/-- R178: `scmp` leaves 1 in sD if the relation holds between the low w bits of sA and sB read by the type, else 0; the I-form compares sA with the immediate as `.i64`. -/
def Obligations.ScalarCompare : Prop :=
  ∀ (s : State) (cc : Cc) (d a b : SReg),
    (∀ t : Ty, t.isInt = true → ∃ v : W64, exec (.scmp cc t d a b) s = .next (s.wroteS d v 1) ∧
      (cc.rel (t.read (s.getS a)) (t.read (s.getS b)) → v = 1) ∧ (¬cc.rel (t.read (s.getS a)) (t.read (s.getS b)) → v = 0)) ∧
    (∀ imm : W32, ∃ v : W64, exec (.scmpI cc d a imm) s = .next (s.wroteS d v 1) ∧
      (cc.rel (s.getS a).toInt imm.toInt → v = 1) ∧ (¬cc.rel (s.getS a).toInt imm.toInt → v = 0))

/-- R179: the quotient toward zero and the remainder with the sign of A, on the low w bits; B = 0 gives w one-bits and A; the least value divided by −1 gives itself and 0. -/
def Obligations.ScalarDivide : Prop :=
  ∀ (s : State) (t : Ty) (d a b : SReg), t.isInt = true →
    let A := t.read (s.getS a)
    let B := t.read (s.getS b)
    (B ≠ 0 → exec (.sdiv t d a b) s = .next (s.wroteS d (t.low (A.tdiv B)) 1) ∧
             exec (.srem t d a b) s = .next (s.wroteS d (t.low (A.tmod B)) 1)) ∧
    (B = 0 → exec (.sdiv t d a b) s = .next (s.wroteS d (t.low ((2 ^ t.width : Nat) - 1)) 1) ∧
             exec (.srem t d a b) s = .next (s.wroteS d (t.low A) 1)) ∧
    (t.isSigned = true → A = -((2 ^ (t.width - 1) : Nat) : Int) → B = -1 →
      exec (.sdiv t d a b) s = .next (s.wroteS d (t.low A) 1) ∧ exec (.srem t d a b) s = .next (s.wroteS d 0 1))

/-- R180: the I-form of `sli` leaves the sign-extended immediate in sD, the L-form its second word; the PC moves past one word and past two (R158). -/
def Obligations.ScalarConstants : Prop :=
  ∀ (s : State) (d : SReg),
    (∀ imm : W32, exec (.sliI d imm) s = .next (s.wroteS d (BitVec.ofInt 64 imm.toInt) 1)) ∧
    (∀ imm : W64, exec (.sliL d imm) s = .next (s.wroteS d imm 2))

/-- R181: `ssel`, `spop`, `sclz`, `sctz` and `slea`. -/
def Obligations.ScalarSelectCount : Prop :=
  ∀ (s : State) (d a b c : SReg),
    exec (.ssel .i64 d a b c) s = .next (s.wroteS d (if s.getS c ≠ 0 then s.getS a else s.getS b) 1) ∧
    exec (.ssel .n64 d a b c) s = .next (s.wroteS d (if s.getS c ≠ 0 then s.getS a else s.getS b) 1) ∧
    (∀ t : Ty, t.isInt = true →
      exec (.spop t d a) s = .next (s.wroteS d (BitVec.ofNat 64 (ones t.width (s.getS a).getLsbD)) 1) ∧
      exec (.sclz t d a) s = .next (s.wroteS d (BitVec.ofNat 64 (zerosBelow t.width (fun i => (s.getS a).getLsbD (t.width - 1 - i)))) 1) ∧
      exec (.sctz t d a) s = .next (s.wroteS d (BitVec.ofNat 64 (zerosBelow t.width (s.getS a).getLsbD)) 1)) ∧
    (∀ sh : BitVec 3, exec (.slea d a b sh) s =
      .next (s.wroteS d (BitVec.ofNat 64 ((s.getS a).toNat + (s.getS b).toNat * 2 ^ sh.toNat)) 1)) ∧
    encode (.slea 1 2 3 3) = .word 0x0700010203007003

/-- R182: the mask instructions on all 32 bits, whatever the lane mask; k0 reads as all ones and takes no write (R9, R139). -/
def Obligations.MaskGroup : Prop :=
  ∀ (s : State) (d a b : KReg) (r : SReg),
    exec (.kand d a b) s = .next (s.wroteK d (s.getK a &&& s.getK b)) ∧
    exec (.kor d a b) s = .next (s.wroteK d (s.getK a ||| s.getK b)) ∧
    exec (.kxor d a b) s = .next (s.wroteK d (s.getK a ^^^ s.getK b)) ∧
    exec (.kandn d a b) s = .next (s.wroteK d (s.getK a &&& ~~~s.getK b)) ∧
    exec (.knot d a) s = .next (s.wroteK d (~~~s.getK a)) ∧
    exec (.kmov d a) s = .next (s.wroteK d (s.getK a)) ∧
    exec (.kpop r a) s = .next (s.wroteS r (BitVec.ofNat 64 (ones 32 (s.getK a).getLsbD)) 1) ∧
    exec (.kfirst r a) s = .next (s.wroteS r (BitVec.ofNat 64 (zerosBelow 32 (s.getK a).getLsbD)) 1) ∧
    exec (.ktos r a) s = .next (s.wroteS r (BitVec.ofNat 64 (s.getK a).toNat) 1) ∧
    exec (.stok d r) s = .next (s.wroteK d (BitVec.ofNat 32 (s.getS r).toNat)) ∧
    s.getK 0 = BitVec.allOnes 32

/-- R184: each instruction of majors 0x20 and 0x21 computes its result for each active lane and each element, with w from R173; the immediate serves as B on every
lane, signed where signedness matters. Lanes that are not active and everything else keep their values (R160). -/
def Obligations.VectorInteger : Prop :=
  ∀ (s : State) (g : KReg) (t : Ty) (d a b : VReg),
    (t.isInt = true → t.okRegs [d, a, b] = true → s.vecReady (.vadd g t d a b) →
      s.computes (.vadd g t d a b) g t d (fun l e => let A := t.elem (s.opnd t a l) e; let B := t.elem (s.opnd t b l) e; A + B)) ∧
    (t.isInt = true → t.okRegs [d, a, b] = true → s.vecReady (.vsub g t d a b) →
      s.computes (.vsub g t d a b) g t d (fun l e => let A := t.elem (s.opnd t a l) e; let B := t.elem (s.opnd t b l) e; A - B)) ∧
    (t.isInt32 = true → t.okRegs [d, a, b] = true → s.vecReady (.vmul g t d a b) →
      s.computes (.vmul g t d a b) g t d (fun l e => let A := t.elem (s.opnd t a l) e; let B := t.elem (s.opnd t b l) e; A * B)) ∧
    (t.isInt32 = true → t.okRegs [d, a, b] = true → s.vecReady (.vmulh g t d a b) →
      s.computes (.vmulh g t d a b) g t d (fun l e => let A := t.elem (s.opnd t a l) e; let B := t.elem (s.opnd t b l) e; A * B / ((2 ^ t.width : Nat) : Int))) ∧
    (t.isInt = true → t.okRegs [d, a, b] = true → s.vecReady (.vand g t d a b) →
      s.computes (.vand g t d a b) g t d (fun l e => let X := t.bits (s.opnd t a l) e; let Y := t.bits (s.opnd t b l) e; ((X &&& Y : Nat) : Int))) ∧
    (t.isInt = true → t.okRegs [d, a, b] = true → s.vecReady (.vor g t d a b) →
      s.computes (.vor g t d a b) g t d (fun l e => let X := t.bits (s.opnd t a l) e; let Y := t.bits (s.opnd t b l) e; ((X ||| Y : Nat) : Int))) ∧
    (t.isInt = true → t.okRegs [d, a, b] = true → s.vecReady (.vxor g t d a b) →
      s.computes (.vxor g t d a b) g t d (fun l e => let X := t.bits (s.opnd t a l) e; let Y := t.bits (s.opnd t b l) e; ((X ^^^ Y : Nat) : Int))) ∧
    (t.isInt = true → t.okRegs [d, a, b] = true → s.vecReady (.vshl g t d a b) →
      s.computes (.vshl g t d a b) g t d (fun l e => let X := t.bits (s.opnd t a l) e; let Y := t.bits (s.opnd t b l) e; ((X * 2 ^ Y : Nat) : Int))) ∧
    (t.isInt = true → t.okRegs [d, a, b] = true → s.vecReady (.vshr g t d a b) →
      s.computes (.vshr g t d a b) g t d (fun l e => let X := t.bits (s.opnd t a l) e; let Y := t.bits (s.opnd t b l) e; ((X / 2 ^ Y : Nat) : Int))) ∧
    (t.isInt = true → t.okRegs [d, a, b] = true → s.vecReady (.vsar g t d a b) →
      s.computes (.vsar g t d a b) g t d (fun l e => let X := t.bits (s.opnd t a l) e; let Y := t.bits (s.opnd t b l) e; (BitVec.ofNat t.width X).toInt / ((2 ^ Y : Nat) : Int))) ∧
    (t.isInt = true → t.okRegs [d, a, b] = true → s.vecReady (.vmin g t d a b) →
      s.computes (.vmin g t d a b) g t d (fun l e => let A := t.elem (s.opnd t a l) e; let B := t.elem (s.opnd t b l) e; min A B)) ∧
    (t.isInt = true → t.okRegs [d, a, b] = true → s.vecReady (.vmax g t d a b) →
      s.computes (.vmax g t d a b) g t d (fun l e => let A := t.elem (s.opnd t a l) e; let B := t.elem (s.opnd t b l) e; max A B)) ∧
    (t.isInt32 = true → t.okRegs [d, a, b] = true → s.vecReady (.vadds g t d a b) →
      s.computes (.vadds g t d a b) g t d (fun l e => let A := t.elem (s.opnd t a l) e; let B := t.elem (s.opnd t b l) e; max t.minInt (min t.maxInt (A + B)))) ∧
    (t.isInt32 = true → t.okRegs [d, a, b] = true → s.vecReady (.vsubs g t d a b) →
      s.computes (.vsubs g t d a b) g t d (fun l e => let A := t.elem (s.opnd t a l) e; let B := t.elem (s.opnd t b l) e; max t.minInt (min t.maxInt (A - B)))) ∧
    (t.isInt32 = true → t.isSigned = true → s.vecReady (.vabs g t d a) →
      s.computes (.vabs g t d a) g t d (fun l e => ((t.elem (s.opnd t a l) e).natAbs : Int))) ∧
    (t.isInt32 = true → t.isSigned = true → s.vecReady (.vneg g t d a) →
      s.computes (.vneg g t d a) g t d (fun l e => -t.elem (s.opnd t a l) e)) ∧
    (∀ imm : W32,
      (s.vecReady (.vaddI g d a imm) → s.computes (.vaddI g d a imm) g .i32 d (fun l _ => let A := (s.getV a l).toInt; let B := imm.toInt; A + B)) ∧
      (s.vecReady (.vsubI g d a imm) → s.computes (.vsubI g d a imm) g .i32 d (fun l _ => let A := (s.getV a l).toInt; let B := imm.toInt; A - B)) ∧
      (s.vecReady (.vmulI g d a imm) → s.computes (.vmulI g d a imm) g .i32 d (fun l _ => let A := (s.getV a l).toInt; let B := imm.toInt; A * B)) ∧
      (s.vecReady (.vmulhI g d a imm) → s.computes (.vmulhI g d a imm) g .i32 d (fun l _ => let A := (s.getV a l).toInt; let B := imm.toInt; A * B / 2 ^ 32)) ∧
      (s.vecReady (.vandI g d a imm) → s.computes (.vandI g d a imm) g .i32 d (fun l _ => let X := (s.getV a l).toNat; let Y := imm.toNat; ((X &&& Y : Nat) : Int))) ∧
      (s.vecReady (.vorI g d a imm) → s.computes (.vorI g d a imm) g .i32 d (fun l _ => let X := (s.getV a l).toNat; let Y := imm.toNat; ((X ||| Y : Nat) : Int))) ∧
      (s.vecReady (.vxorI g d a imm) → s.computes (.vxorI g d a imm) g .i32 d (fun l _ => let X := (s.getV a l).toNat; let Y := imm.toNat; ((X ^^^ Y : Nat) : Int))) ∧
      (s.vecReady (.vshlI g d a imm) → s.computes (.vshlI g d a imm) g .i32 d (fun l _ => let X := (s.getV a l).toNat; let Y := imm.toNat; ((X * 2 ^ Y : Nat) : Int))) ∧
      (s.vecReady (.vshrI g d a imm) → s.computes (.vshrI g d a imm) g .i32 d (fun l _ => let X := (s.getV a l).toNat; let Y := imm.toNat; ((X / 2 ^ Y : Nat) : Int))) ∧
      (s.vecReady (.vsarI g d a imm) → s.computes (.vsarI g d a imm) g .i32 d (fun l _ => let Y := imm.toNat; (s.getV a l).toInt / ((2 ^ Y : Nat) : Int))) ∧
      (s.vecReady (.vminI g d a imm) → s.computes (.vminI g d a imm) g .i32 d (fun l _ => let A := (s.getV a l).toInt; let B := imm.toInt; min A B)) ∧
      (s.vecReady (.vmaxI g d a imm) → s.computes (.vmaxI g d a imm) g .i32 d (fun l _ => let A := (s.getV a l).toInt; let B := imm.toInt; max A B)))

/-- R185: `vcmp` sets the bits of the active lanes to the relation of R178 and keeps the others; the I-form compares with the immediate as `.i32`. A write to k0 is discarded (R139). -/
def Obligations.VectorCompare : Prop :=
  ∀ (s : State) (g : KReg) (cc : Cc) (d : KReg) (a b : VReg),
    (∀ t : Ty, [Ty.i32, .n32, .i64, .n64].contains t = true → t.okRegs [a, b] = true → s.vecReady (.vcmp g cc t d a b) →
      ∃ v : Mask, exec (.vcmp g cc t d a b) s = .next (s.wroteK d v) ∧ ∀ l < 32,
        if (s.active g).has l = true then (v.has l = true ↔ cc.rel (t.elem (s.opnd t a l) 0) (t.elem (s.opnd t b l) 0))
        else v.has l = (s.getK d).has l) ∧
    (∀ imm : W32, s.vecReady (.vcmpI g cc d a imm) →
      ∃ v : Mask, exec (.vcmpI g cc d a imm) s = .next (s.wroteK d v) ∧ ∀ l < 32,
        if (s.active g).has l = true then (v.has l = true ↔ cc.rel (s.getV a l).toInt imm.toInt)
        else v.has l = (s.getK d).has l)

/-- R186: `vsel`, `vmov`, `vbcast`, `vlid`, `vgetl` and `vsetl`. -/
def Obligations.LaneMoves : Prop :=
  ∀ (s : State) (g : KReg) (d a b : VReg) (x y : SReg),
    (∀ (t : Ty) (c : KReg), [Ty.n32, .n64].contains t = true → t.okRegs [d, a, b] = true → s.vecReady (.vsel g t d a b c) →
      s.moves (.vsel g t d a b c) g t d (fun l => if (s.getK c).has l = true then s.opnd t a l else s.opnd t b l)) ∧
    (∀ t : Ty, [Ty.n32, .n64].contains t = true → t.okRegs [d, a] = true → s.vecReady (.vmov g t d a) →
      s.moves (.vmov g t d a) g t d (fun l => s.opnd t a l)) ∧
    (∀ t : Ty, [Ty.n32, .n64].contains t = true → t.okRegs [d] = true → s.vecReady (.vbcast g t d x) →
      s.moves (.vbcast g t d x) g t d (fun _ => s.getS x)) ∧
    (s.vecReady (.vlid g d) → s.moves (.vlid g d) g .n32 d (fun l => BitVec.ofNat 64 l)) ∧
    (∀ t : Ty, [Ty.i32, .n32, .n64].contains t = true → t.okRegs [a] = true → s.vecReady (.vgetl t x a y) →
      exec (.vgetl t x a y) s = .next (s.wroteS x (t.low (t.read (s.opnd t a ((s.getS y).toNat % 32)))) 1)) ∧
    (∀ t : Ty, [Ty.n32, .n64].contains t = true → t.okRegs [d] = true → s.vecReady (.vsetl g t d x y) →
      ∃ u, exec (.vsetl g t d x y) s = .next u ∧
        s.WroteV u (t.regs d) (s.active g &&& (1#32 <<< ((s.getS y).toNat % 32))) ∧
        ((s.active g).has ((s.getS y).toNat % 32) = true →
          u.opnd t d ((s.getS y).toNat % 32) = if t.is64 then s.getS x else ((s.getS x).setWidth 32).setWidth 64))

/-- R187: the permutes write, on each active lane, the value of A at the source lane that each chooses, whether that lane is active or not (R174). -/
def Obligations.LanePermutes : Prop :=
  ∀ (s : State) (g : KReg) (t : Ty) (d a b : VReg) (n : BitVec 5), [Ty.n32, .n64].contains t = true → t.okRegs [d, a] = true →
    (s.vecReady (.vperm g t d a b) → s.moves (.vperm g t d a b) g t d (fun l => s.opnd t a ((s.getV b l).toNat % 32))) ∧
    (s.vecReady (.vshup g t d a n) →
      s.moves (.vshup g t d a n) g t d (fun l => s.opnd t a (if n.toNat ≤ l then l - n.toNat else l))) ∧
    (s.vecReady (.vshdn g t d a n) →
      s.moves (.vshdn g t d a n) g t d (fun l => s.opnd t a (if l + n.toNat < 32 then l + n.toNat else l))) ∧
    (s.vecReady (.vshxor g t d a n) → s.moves (.vshxor g t d a n) g t d (fun l => s.opnd t a (l ^^^ n.toNat))) ∧
    (s.vecReady (.vrot g t d a n) → s.moves (.vrot g t d a n) g t d (fun l => s.opnd t a ((l + n.toNat) % 32))) ∧
    encode (.vshxor 0 .n32 2 1 16) = .word 0x2503020100006010

/-- R188: `vred` combines the active lanes' values into one scalar and has no effect with no active lane; `vscan` leaves the running sum on each active lane, with the lane itself
or, with EX, without it. `State.laneSum` and `RedOp.all` say the combinations in the plain terms of the rule. -/
def Obligations.LaneReductions : Prop :=
  ∀ (s : State) (g : KReg) (a : VReg),
    (∀ (op : RedOp) (t : Ty) (d : SReg), [Ty.i32, .n32, .i64, .n64].contains t = true → t.okRegs [a] = true →
      s.vecReady (.vred g op t d a) →
      (s.active g = 0 → exec (.vred g op t d a) s = .next s.moved1) ∧
      (s.active g ≠ 0 → ∃ z : Int, exec (.vred g op t d a) s = .next (s.wroteS d (t.low z) 1) ∧
        op.all t ((s.active g).lanes.map (fun l => t.elem (s.opnd t a l) 0)) z)) ∧
    (∀ (t : Ty) (ex : Bool) (d : VReg), [Ty.i32, .n32].contains t = true → s.vecReady (.vscan g t ex d a) →
      s.computes (.vscan g t ex d a) g .n32 d (fun l _ =>
        s.laneSum ((s.active g).lanes.filter (fun m => decide (m < l) || (!ex && m == l))) a))

/-- R189: `vmad` leaves the low w bits of A × B + C in each element; `vdot4` adds the four products of bytes, signed or natural by the type, to C. -/
def Obligations.VectorMultiplyAdd : Prop :=
  ∀ (s : State) (g : KReg) (t : Ty) (d a b c : VReg),
    (t.isInt32 = true → s.vecReady (.vmad g t d a b c) →
      s.computes (.vmad g t d a b c) g t d (fun l e =>
        t.elem (s.opnd t a l) e * t.elem (s.opnd t b l) e + t.elem (s.opnd t c l) e)) ∧
    ([Ty.i8, .n8].contains t = true → s.vecReady (.vdot4 g t d a b c) →
      s.computes (.vdot4 g t d a b c) g .i32 d (fun l _ =>
        (s.getV c l).toInt + t.elem (s.opnd t a l) 0 * t.elem (s.opnd t b l) 0 + t.elem (s.opnd t a l) 1 * t.elem (s.opnd t b l) 1
          + t.elem (s.opnd t a l) 2 * t.elem (s.opnd t b l) 2 + t.elem (s.opnd t a l) 3 * t.elem (s.opnd t b l) 3))

/-- R190: `vpop`, `vclz` and `vctz` count per element; `vext` takes len bits of A from pos upward, positions above 31 reading as bit 31 for `.i32` and as zeros for `.n32`. -/
def Obligations.VectorBits : Prop :=
  ∀ (s : State) (g : KReg) (t : Ty) (d a b : VReg),
    (t.isInt32 = true →
      (s.vecReady (.vpop g t d a) → s.computes (.vpop g t d a) g t d (fun l e =>
        (ones t.width (t.bits (s.opnd t a l) e).testBit : Int))) ∧
      (s.vecReady (.vclz g t d a) → s.computes (.vclz g t d a) g t d (fun l e =>
        (zerosBelow t.width (fun i => (t.bits (s.opnd t a l) e).testBit (t.width - 1 - i)) : Int))) ∧
      (s.vecReady (.vctz g t d a) → s.computes (.vctz g t d a) g t d (fun l e =>
        (zerosBelow t.width (t.bits (s.opnd t a l) e).testBit : Int)))) ∧
    ([Ty.i32, .n32].contains t = true → s.vecReady (.vext g t d a b) →
      ∃ u, exec (.vext g t d a b) s = .next u ∧ s.WroteV u [d] (s.active g) ∧
        ∀ l < 32, (s.active g).has l = true →
          let pos := (s.getV b l).toNat % 32
          let len := (s.getV b l).toNat / 256 % 32 + 1
          let A (i : Nat) : Bool := if i < 32 then (s.getV a l).getLsbD i else t.isSigned && (s.getV a l).getLsbD 31
          ∀ i < 32, (u.getV d l).getLsbD i = if i < len then A (pos + i) else t.isSigned && A (pos + len - 1))

/-- R148: `vgrow n` raises the allotment to n if it is lower and releases nothing; `vshrink n` below the allotment releases the registers from n up and lowers it to n,
whatever the split count, and has no effect otherwise. While lanes carry a replay mark a released register holds no value on the other lanes (R405). -/
def Obligations.VectorAllotment : Prop :=
  ∀ (s : State) (n : W32),
    exec (.vgrow n) s = .next (s.withMe (s.moved 1 { s.me with allot := max s.me.allot n.toNat })) ∧
    (s.me.allot ≤ n.toNat → exec (.vshrink n) s = .next s.moved1) ∧
    (n.toNat < s.me.allot → ∃ u, exec (.vshrink n) s = .next u ∧ u = s.withMe u.me ∧ u.me.allot = n.toNat ∧
      u.me = { s.me with vreg := u.me.vreg, vspill := u.me.vspill, kept := u.me.kept, gone := u.me.gone, allot := n.toNat, splits := (s.moved 1 s.me).splits } ∧
      ∀ r : VReg, (r.toNat < n.toNat ∨ s.me.allot ≤ r.toNat → u.me.vreg[r.toFin] = s.me.vreg[r.toFin]) ∧
        (n.toNat ≤ r.toNat → r.toNat < s.me.allot →
          (s.me.marked = false → u.me.vreg[r.toFin] = none) ∧
          (∀ l < 32, (s.me.lane l).marked = false → ¬u.me.hasValue (Mask.ofLanes [l]) r.toNat)))

/-- R144: an instruction naming a register at or above the allotment, or a source that holds no value, traps with cause 6 on every lane of the split and performs no part;
STVAL names the first failing field in the order D, A, B, C and, within it, the first failing register. That holds of `rdsr` and `wrsr` of a lane register too, once their mode may name it (R150). -/
def Obligations.AllotmentTrap : Prop :=
  ∀ (s : State) (i : Instr),
    (s.me.allotFail s.sp.e (vopsOf i) = none ↔ ∀ o ∈ vopsOf i, ∀ k < o.n,
      o.reg.toNat + k < s.me.allot ∧ (o.src = true → s.me.hasValue s.sp.e (o.reg.toNat + k))) ∧
    (∀ tv, (∀ g n r, i = .rdsr g n r ∨ i = .wrsr g n r → (n ∈ [(0x030 : BitVec 12), 0x031, 0x032] ∧ s.sp.mode ≠ .user) ∨ (n ∈ [(0x040 : BitVec 12), 0x041, 0x042] ∧ s.sp.mode = .hyp)) → s.me.allotFail s.sp.e (vopsOf i) = some tv →
      exec i s = .next (s.trapAll 6 tv) ∧
      ∃ (pre post : List VOp) (o : VOp) (k : Nat), vopsOf i = pre ++ o :: post ∧ s.me.allotFail s.sp.e pre = none ∧ k < o.n ∧
        tv = BitVec.ofNat 64 (o.field * 256 + (o.reg.toNat + k)) ∧
        (s.me.allot ≤ o.reg.toNat + k ∨ (o.src = true ∧ ¬s.me.hasValue s.sp.e (o.reg.toNat + k))) ∧
        ∀ j < k, o.reg.toNat + j < s.me.allot ∧ (o.src = true → s.me.hasValue s.sp.e (o.reg.toNat + j)))

/-- The frame of the scalar, mask, vector integer, lane and floating groups, in every state: the instruction completes or traps, and no byte of memory or scratchpad, no register of
another string, no scalar, mask or vector register of its own but its destinations (and registers on loan to a tile operation that it names, R261), no FFLAGS, no special register of a core changes.
Past R144 the PC of the issuing split moves past the instruction's words. -/
def Obligations.RegisterFrame : Prop :=
  ∀ (i : Instr) (ds : Dests), i.dests = some ds → ∀ s : State, ∃ u, exec i s = .next u ∧
    (∀ l, u.peek l = s.peek l) ∧ u.scr = s.scr ∧ u.cur = s.cur ∧
    (∀ c k, ¬(c = s.cur.core ∧ k = s.cur.slot) → u.strAt c k = s.strAt c k) ∧
    (∀ c : CoreId, (u.cores[c]).svec = (s.cores[c]).svec ∧ (u.cores[c]).hvec = (s.cores[c]).hvec ∧ (u.cores[c]).hdeleg = (s.cores[c]).hdeleg ∧
      (u.cores[c]).lease = (s.cores[c]).lease ∧ (u.cores[c]).stealdist = (s.cores[c]).stealdist ∧ (u.cores[c]).tciva = (s.cores[c]).tciva ∧
      (u.cores[c]).tcinv = (s.cores[c]).tcinv) ∧ u.irecv = s.irecv ∧
    (∀ r : SReg, ds.s ≠ some r → u.getS r = s.getS r) ∧ (∀ r : KReg, ds.k ≠ some r → u.getK r = s.getK r) ∧
    (∀ r : VReg, r ∉ ds.v → r ∉ s.me.loaned (vopsOf i) → u.me.vreg[r.toFin] = s.me.vreg[r.toFin]) ∧
    u.me.fflags = s.me.fflags ∧ u.me.allot = s.me.allot ∧ u.me.ptroot = s.me.ptroot ∧ u.me.ops = s.me.ops ∧
    (s.me.allotFail s.sp.e (vopsOf i) = none → u.sp.pc = s.sp.pc + BitVec.ofNat 64 (8 * i.words))

/-- R191, R192, R193: each floating instruction of major 0x40 leaves in every element of every active lane the code of the operation on the elements of its operands under FZ and its rounding
mode, ORs the flags of all those elements into the staged flags of the issuing split, draws one random value an element under `.rs`, and changes nothing else. What the operations on
elements deliver is said by FloatValues, FloatSpecials and RoundingModes, and what minima, maxima, absolute values and negations are by FloatValues and FloatSpecials. -/
def Obligations.FloatArithmetic : Prop :=
  ∀ (s : State) (g : KReg) (t : Ty) (m : Rnd) (d a b : VReg), t.isArith = true →
    (s.vecReady (.fadd g t m d a b) → s.floats (.fadd g t m d a b) g m t d 0 t.elems (fun l e r => fpAdd t m s.me.fz false r (t.bits (s.opnd t a l) e) (t.bits (s.opnd t b l) e))) ∧
    (s.vecReady (.fsub g t m d a b) → s.floats (.fsub g t m d a b) g m t d 0 t.elems (fun l e r => fpAdd t m s.me.fz true r (t.bits (s.opnd t a l) e) (t.bits (s.opnd t b l) e))) ∧
    (s.vecReady (.fmul g t m d a b) → s.floats (.fmul g t m d a b) g m t d 0 t.elems (fun l e r => fpMul t m s.me.fz r (t.bits (s.opnd t a l) e) (t.bits (s.opnd t b l) e))) ∧
    (s.vecReady (.fdiv g t m d a b) → s.floats (.fdiv g t m d a b) g m t d 0 t.elems (fun l e r => fpDiv t m s.me.fz r (t.bits (s.opnd t a l) e) (t.bits (s.opnd t b l) e))) ∧
    (s.vecReady (.fsqrt g t m d a) → s.floats (.fsqrt g t m d a) g m t d 0 t.elems (fun l e r => fpSqrt t m s.me.fz r (t.bits (s.opnd t a l) e))) ∧
    (s.vecReady (.fmin g t d a b) → s.floats (.fmin g t d a b) g .rn t d 0 t.elems (fun l e _ => fpMinMax t s.me.fz false (t.bits (s.opnd t a l) e) (t.bits (s.opnd t b l) e))) ∧
    (s.vecReady (.fmax g t d a b) → s.floats (.fmax g t d a b) g .rn t d 0 t.elems (fun l e _ => fpMinMax t s.me.fz true (t.bits (s.opnd t a l) e) (t.bits (s.opnd t b l) e))) ∧
    (s.vecReady (.fabs g t d a) → s.floats (.fabs g t d a) g .rn t d 0 t.elems (fun l e _ => fpAbs t (t.bits (s.opnd t a l) e))) ∧
    (s.vecReady (.fneg g t d a) → s.floats (.fneg g t d a) g .rn t d 0 t.elems (fun l e _ => fpNeg t (t.bits (s.opnd t a l) e)))

/-- R191, R194, R195: each fused form and each approximation completes in every state past its checks, with elements, flags, draws and frame as for major 0x40. Of finite operands the fused forms round the exact
±(A × B) ± C once, an exact zero sum taking the sign of R19; a NaN input gives the canonical NaN, and 0 × ∞ gives it with NV, even when C is a NaN. The exact cases of R195 give their exact FP32 values and raise nothing: `frcp` of ±2^k,
`frsq` of 2^(2k), `fexp2` of an integer and `flog2` of 2^k, subnormal operands included while FZ is 0. `frcp` and `frsq` of a finite value that is not zero lie within 1 unit of the exact value and raise NX, OF and UF by R195 (an infinity
counts as within the bound of a value beyond the FP32 range: log 12; a delivered zero raises no UF: log 89). The bound of 2 units of `fexp2` and `flog2`, and the 2^−22 of `flog2`, is said here about the fixed-point value of 96 places that the
model takes for the exact one (log 12). -/
def Obligations.FloatFusedApprox : Prop :=
  ∀ (s : State) (g : KReg) (t : Ty) (m : Rnd) (d a b c : VReg), t.isArith = true →
    (s.vecReady (.ffma g t m d a b c) → s.floats (.ffma g t m d a b c) g m t d 0 t.elems (fun l e r => fpFma t m s.me.fz false false r (t.bits (s.opnd t a l) e) (t.bits (s.opnd t b l) e) (t.bits (s.opnd t c l) e))) ∧
    (s.vecReady (.ffms g t m d a b c) → s.floats (.ffms g t m d a b c) g m t d 0 t.elems (fun l e r => fpFma t m s.me.fz false true r (t.bits (s.opnd t a l) e) (t.bits (s.opnd t b l) e) (t.bits (s.opnd t c l) e))) ∧
    (s.vecReady (.ffnma g t m d a b c) → s.floats (.ffnma g t m d a b c) g m t d 0 t.elems (fun l e r => fpFma t m s.me.fz true true r (t.bits (s.opnd t a l) e) (t.bits (s.opnd t b l) e) (t.bits (s.opnd t c l) e))) ∧
    (s.vecReady (.ffnms g t m d a b c) → s.floats (.ffnms g t m d a b c) g m t d 0 t.elems (fun l e r => fpFma t m s.me.fz true false r (t.bits (s.opnd t a l) e) (t.bits (s.opnd t b l) e) (t.bits (s.opnd t c l) e))) ∧
    (s.vecReady (.frcp g t d a) → s.floats (.frcp g t d a) g .rn t d 0 t.elems (fun l e _ => fpApprox rcp32 t s.me.fz (t.bits (s.opnd t a l) e))) ∧
    (s.vecReady (.frsq g t d a) → s.floats (.frsq g t d a) g .rn t d 0 t.elems (fun l e _ => fpApprox rsq32 t s.me.fz (t.bits (s.opnd t a l) e))) ∧
    (s.vecReady (.fexp2 g t d a) → s.floats (.fexp2 g t d a) g .rn t d 0 t.elems (fun l e _ => fpApprox exp232 t s.me.fz (t.bits (s.opnd t a l) e))) ∧
    (s.vecReady (.flog2 g t d a) → s.floats (.flog2 g t d a) g .rn t d 0 t.elems (fun l e _ => fpApprox log232 t s.me.fz (t.bits (s.opnd t a l) e))) ∧
    (∀ (fz np nc : Bool) (r : W32) (x y z : Nat) (n1 n2 n3 : Bool) (m1 m2 m3 : Nat) (e1 e2 e3 : Int),
      fIn t fz x = .fin n1 m1 e1 → fIn t fz y = .fin n2 m2 e2 → fIn t fz z = .fin n3 m3 e3 →
      ∃ n k e, fpFma t m fz np nc r x y z = t.deliver m false fz r (.fin n k e) ∧
        ratOf n k e = (if np then -1 else 1) * (ratOf n1 m1 e1 * ratOf n2 m2 e2) + (if nc then -1 else 1) * ratOf n3 m3 e3 ∧
        t.Gives m false fz r (ratOf n k e) (if (m1 = 0 ∨ m2 = 0) ∧ m3 = 0 ∧ ((n1 != n2) != np) = (n3 != nc) then n3 != nc else decide (m = .rd)) (fpFma t m fz np nc r x y z)) ∧
    (∀ (fz np nc : Bool) (r : W32) (x y z : Nat), (t.decode x).isNan = true ∨ (t.decode y).isNan = true ∨ (t.decode z).isNan = true →
      (∀ n1 n2 e2, ¬(fIn t fz x = .inf n1 ∧ fIn t fz y = .fin n2 0 e2) ∧ ¬(fIn t fz x = .fin n2 0 e2 ∧ fIn t fz y = .inf n1)) →
      fpFma t m fz np nc r x y z = (t.nanCode, Flags.when ((t.decode x).isSig || (t.decode y).isSig || (t.decode z).isSig) fNV)) ∧
    (∀ (fz np nc : Bool) (r : W32) (x y z : Nat) (n1 n2 : Bool) (e2 : Int), (fIn t fz x = .inf n1 ∧ fIn t fz y = .fin n2 0 e2) ∨ (fIn t fz x = .fin n2 0 e2 ∧ fIn t fz y = .inf n1) →
      fpFma t m fz np nc r x y z = (t.nanCode, fNV)) ∧
    (∀ (fz neg : Bool), ∀ k < 253, fpApprox rcp32 .f32 fz (Ty.f32.signed neg ((k + 1) * 2 ^ 23)) = (Ty.f32.signed neg ((253 - k) * 2 ^ 23), 0)) ∧
    (∀ (fz : Bool), ∀ k < 127, fpApprox rsq32 .f32 fz ((2 * k + 1) * 2 ^ 23) = ((190 - k) * 2 ^ 23, 0)) ∧
    (∀ (fz : Bool) (k : Nat), k < 254 → fpApprox exp232 .f32 fz (Ty.f32.deliver .rn false false 0 (.ofInt ((k : Int) - 126))).1 = ((k + 1) * 2 ^ 23, 0)) ∧
    (∀ (fz : Bool) (k : Nat), k < 254 → fpApprox log232 .f32 fz ((k + 1) * 2 ^ 23) = ((Ty.f32.deliver .rn false false 0 (.ofInt ((k : Int) - 126))).1, 0)) ∧
    (∀ neg : Bool, fpApprox rcp32 .f32 false (Ty.f32.signed neg (2 ^ 22)) = (Ty.f32.signed neg (254 * 2 ^ 23), 0)) ∧
    (∀ j : Nat, j < 23 → (j % 2 = 1 → fpApprox rsq32 .f32 false (2 ^ j) = (((149 - j) / 2 + 127) * 2 ^ 23, 0)) ∧
      fpApprox log232 .f32 false (2 ^ j) = ((Ty.f32.deliver .rn false false 0 (.ofInt ((j : Int) - 149))).1, 0)) ∧
    (∀ (x : Nat) (n : Bool) (k : Nat) (e : Int), x < 2 ^ 32 → Ty.f32.decode x = .fin n k e → k ≠ 0 →
      let A := ratOf false k e
      let o := fpApprox rcp32 .f32 false x
      let p := fpApprox rsq32 .f32 false x
      let w := fpApprox exp232 .f32 false x
      let l := fpApprox log232 .f32 false x
      (Units 1 n (fun q => q * A ≤ 1) (fun q => q * A < 1) o.1 ∧
        (o.2.getLsbD 0 = true ↔ ¬∃ n' m' e', Ty.f32.decode o.1 = .fin n' m' e' ∧ ratOf n' m' e' * ratOf n k e = 1) ∧
        (o.2.getLsbD 1 = true ↔ o.2.getLsbD 0 = true ∧ Ty.f32.isSub (Ty.f32.decode o.1) = true) ∧
        (o.2.getLsbD 2 = true ↔ (2 : Rat) ^ (128 : Int) * A ≤ 1) ∧ o.2.getLsbD 3 = false ∧ o.2.getLsbD 4 = false) ∧
      (n = false → Units 1 false (fun q => q ≤ 0 ∨ q * q * A ≤ 1) (fun q => q < 0 ∨ q * q * A < 1) p.1 ∧
        (p.2 = if (Ty.f32.decode p.1).rat * (Ty.f32.decode p.1).rat * A = 1 then 0 else fNX)) ∧
      (n = true → p = (Ty.f32.nanCode, fNV) ∧ l = (Ty.f32.nanCode, fNV)) ∧
      (-96 ≤ e → A < 512 →
        let i := scaled n k e (-96)
        let V := ratOf false (exp2fix (i % 2 ^ 96).toNat) (i / 2 ^ 96 - 96)
        Units 2 false (fun q => q ≤ V) (fun q => q < V) w.1) ∧
      (n = false → (∀ j, k ≠ 2 ^ j) →
        let g := (Nat.log2 k : Int) + e
        let z := g * 2 ^ 96 + log2fix (k * 2 ^ 96 / 2 ^ Nat.log2 k)
        let V := ratOf (decide (z < 0)) z.natAbs (-96)
        if g = -1 ∨ g = 0 then magOf ((Ty.f32.decode l.1).rat - V) ≤ (2 : Rat) ^ (-22 : Int)
        else Units 2 (decide (z < 0)) (fun q => q ≤ magOf V) (fun q => q < magOf V) l.1))

/-- R196: `fcmp` sets the bit of each active lane to the relation between A and B, a NaN making `.ne` true and every other relation false, and raises NV for a signalling NaN, or for any NaN
under an order; `fclass` leaves one bit for the class of each element and raises nothing: of the ten, the bit that R196 gives the class. Finite operands compare by value, and −∞ and +∞ lie outside all of them. -/
def Obligations.FloatCompareClass : Prop :=
  ∀ (s : State) (g : KReg) (a b : VReg),
    (∀ (cc : Cc) (d : KReg), s.vecReady (.fcmp g cc d a b) → ∃ (v : Mask) (f : Flags),
      exec (.fcmp g cc d a b) s = .next ((s.stage f).wroteK d v) ∧
      (∀ l < 32, if (s.active g).has l = true then v.has l = (fpCmp cc s.me.fz (s.getV a l).toNat (s.getV b l).toNat).1
                 else v.has l = (s.getK d).has l) ∧
      (∀ n < 5, f.getLsbD n = true ↔ ∃ l < 32, (s.active g).has l = true ∧
        (fpCmp cc s.me.fz (s.getV a l).toNat (s.getV b l).toNat).2.getLsbD n = true)) ∧
    (∀ (t : Ty) (d : VReg), t.isArith = true → s.vecReady (.fclass g t d a) →
      s.floats (.fclass g t d a) g .rn t d 0 t.elems (fun l e _ => (fpClass t (t.bits (s.opnd t a l) e), 0))) ∧
    (∀ (cc : Cc) (x y : Nat), (Ty.f32.decode x).isNan = true ∨ (Ty.f32.decode y).isNan = true → ∀ fz,
      (fpCmp cc fz x y).1 = decide (cc = .ne) ∧
      ((fpCmp cc fz x y).2 = if cc = .eq ∨ cc = .ne then Flags.when ((Ty.f32.decode x).isSig || (Ty.f32.decode y).isSig) fNV else fNV)) ∧
    (∀ (cc : Cc) (x y : Nat) (n1 n2 : Bool) (m1 m2 : Nat) (e1 e2 : Int), Ty.f32.decode x = .fin n1 m1 e1 → Ty.f32.decode y = .fin n2 m2 e2 →
      ((fpCmp cc false x y).1 = true ↔ cc.relRat (ratOf n1 m1 e1) (ratOf n2 m2 e2)) ∧ (fpCmp cc false x y).2 = 0) ∧
    (∀ (cc : Cc) (fz : Bool) (x y : Nat) (n1 n2 : Bool),
      (∀ m2 e2, fIn .f32 fz x = .inf n1 → fIn .f32 fz y = .fin n2 m2 e2 →
        ((fpCmp cc fz x y).1 = true ↔ cc.rel (if n1 then -1 else 1) 0) ∧ ((fpCmp cc fz y x).1 = true ↔ cc.rel 0 (if n1 then -1 else 1)) ∧
        (fpCmp cc fz x y).2 = 0 ∧ (fpCmp cc fz y x).2 = 0) ∧
      (fIn .f32 fz x = .inf n1 → fIn .f32 fz y = .inf n2 →
        ((fpCmp cc fz x y).1 = true ↔ cc.rel (if n1 then -1 else 1) (if n2 then -1 else 1)) ∧ (fpCmp cc fz x y).2 = 0)) ∧
    (∀ (t : Ty) (x : Nat), t.isArith = true →
      (∀ sig, t.decode x = .nan sig → fpClass t x = if sig then 2 ^ 8 else 2 ^ 9) ∧
      (∀ n, t.decode x = .inf n → fpClass t x = if n then 2 ^ 0 else 2 ^ 7) ∧
      (∀ n m e, t.decode x = .fin n m e → fpClass t x =
        if ratOf false m e = 0 then (if n then 2 ^ 3 else 2 ^ 4) else if ratOf false m e < (2 : Rat) ^ t.emin then (if n then 2 ^ 2 else 2 ^ 5)
        else (if n then 2 ^ 1 else 2 ^ 6)))

/-- R197, R198: a conversion writes the elements of the group that PART selects and keeps the others of D; `fpack` writes both halves, or the four bytes of two pairs; `funpack` writes elements 2p and 2p + 1
to vD and v(D + 1). R20, R21, R25 to R28: a finite source is rounded once to a float, R25's conversions are exact and raise NV for a signalling NaN alone, and R27's table holds for the other sources; to an integer a source is rounded once and
clamped with NV alone, a NaN giving 0; an integer is rounded once to a float. -/
def Obligations.FloatConvert : Prop :=
  ∀ (s : State) (g : KReg) (m : Rnd) (sat : Bool) (p : BitVec 3) (d a b : VReg),
    (∀ dt st : Ty, Instr.wellFormed (.fcvtFf g dt st m sat p d a) = true → s.vecReady (.fcvtFf g dt st m sat p d a) →
      s.floats (.fcvtFf g dt st m sat p d a) g m dt d (if dt.elems ≤ st.elems then 0 else p.toNat * st.elems) (min st.elems dt.elems)
        (fun l e r => fpCvtFf dt st m sat s.me.fz r (st.bits (s.opnd st a l) (if dt.elems ≤ st.elems then p.toNat * dt.elems + e else e)))) ∧
    (∀ dt st : Ty, Instr.wellFormed (.fcvtFi g dt st m sat p d a) = true → s.vecReady (.fcvtFi g dt st m sat p d a) →
      s.floats (.fcvtFi g dt st m sat p d a) g m dt d (if dt.elems ≤ st.elems then 0 else p.toNat * st.elems) (min st.elems dt.elems)
        (fun l e r => fpCvtFi dt st m s.me.fz r (st.bits (s.opnd st a l) (if dt.elems ≤ st.elems then p.toNat * dt.elems + e else e)))) ∧
    (∀ dt st : Ty, Instr.wellFormed (.fcvtIf g dt st m sat p d a) = true → s.vecReady (.fcvtIf g dt st m sat p d a) →
      s.floats (.fcvtIf g dt st m sat p d a) g m dt d (if dt.elems ≤ st.elems then 0 else p.toNat * st.elems) (min st.elems dt.elems)
        (fun l e r => fpCvtIf dt m sat s.me.fz r (st.elem (s.opnd st a l) (if dt.elems ≤ st.elems then p.toNat * dt.elems + e else e)))) ∧
    (∀ dt : Ty, Instr.wellFormed (.fpack g dt m sat d a b) = true → s.vecReady (.fpack g dt m sat d a b) →
      s.floats (.fpack g dt m sat d a b) g m dt d 0 dt.elems (fun l e r => fpCvtFf dt .f32 m sat s.me.fz r
        (s.getV (if dt.width = 8 then (if e < 2 then a + BitVec.ofNat 8 e else b + BitVec.ofNat 8 (e - 2)) else if e = 0 then a else b) l).toNat)) ∧
    (∀ st : Ty, Instr.wellFormed (.funpack g st p d a) = true → s.vecReady (.funpack g st p d a) →
      ∃ (u : State) (f : Flags), exec (.funpack g st p d a) s = .next u ∧ (s.stage f).WroteV u [d, d + 1] (s.active g) ∧
        (f = Flags.when ((s.active g).lanes.any (fun l => (st.decode (st.bits ((s.getV a l).setWidth 64) (2 * p.toNat))).isSig ||
          (st.decode (st.bits ((s.getV a l).setWidth 64) (2 * p.toNat + 1))).isSig)) fNV) ∧
        ∀ l < 32, (s.active g).has l = true →
          (u.getV d l).toNat = (fpCvtFf .f32 st .rn false false 0 (st.bits ((s.getV a l).setWidth 64) (2 * p.toNat))).1 % 2 ^ 32 ∧
          (u.getV (d + 1) l).toNat = (fpCvtFf .f32 st .rn false false 0 (st.bits ((s.getV a l).setWidth 64) (2 * p.toNat + 1))).1 % 2 ^ 32) ∧
    (∀ (dt st : Ty) (fz : Bool) (r : W32) (x : Nat), [Ty.f32, .f16, .bf16, .e4m3, .e5m2, .e2m1].contains dt = true → [Ty.f32, .f16, .bf16, .e4m3, .e5m2, .e2m1].contains st = true → x < 2 ^ st.width →
      (∀ n k e, fIn st fz x = .fin n k e → dt.Gives m sat fz r (ratOf n k e) n (fpCvtFf dt st m sat fz r x)) ∧
      ((st, dt) ∈ [(Ty.f16, Ty.f32), (.bf16, .f32), (.e4m3, .f16), (.e4m3, .bf16), (.e4m3, .f32), (.e5m2, .f16), (.e5m2, .f32), (.e5m2, .bf16),
          (.e2m1, .f32), (.e2m1, .f16), (.e2m1, .bf16), (.e2m1, .e4m3), (.e2m1, .e5m2)] →
        (dt.decode (fpCvtFf dt st m sat false r x).1).same (st.decode x) ∧ (fpCvtFf dt st m sat false r x).2 = Flags.when (st.decode x).isSig fNV) ∧
      (∀ n, st.decode x = .inf n → fpCvtFf dt st m sat fz r x =
        if dt = .e4m3 then (0x7F, fNV) else if dt = .e2m1 then (if n then 0xF else 0x7, fNV)
        else if dt = .e5m2 ∧ sat = true then (if n then 0xFB else 0x7B, fNV) else (dt.signed n dt.infCode, 0)) ∧
      (∀ sig, st.decode x = .nan sig → fpCvtFf dt st m sat fz r x =
        if dt = .e2m1 then (0, fNV) else (dt.nanCode, Flags.when sig fNV))) ∧
    (∀ (dt st : Ty) (fz : Bool) (r : W32) (x : Nat), dt.isInt = true → [Ty.f32, .f16, .bf16, .e4m3, .e5m2, .e2m1].contains st = true →
      let low (z : Int) : Nat := (z % ((2 ^ dt.width : Nat) : Int)).toNat
      (∀ n k e, fIn st fz x = .fin n k e → ∃ j : Nat, rounded m n r (fun q => q ≤ ratOf false k e) (fun q => q < ratOf false k e) 0 j ∧
        let z : Int := if n then -(j : Int) else j
        fpCvtFi dt st m fz r x = if z < dt.minInt then (low dt.minInt, fNV) else if dt.maxInt < z then (low dt.maxInt, fNV)
          else (low z, Flags.when (decide ((z : Rat) ≠ ratOf n k e)) fNX)) ∧
      (∀ n, st.decode x = .inf n → fpCvtFi dt st m fz r x = (low (if n then dt.minInt else dt.maxInt), fNV)) ∧
      ((st.decode x).isNan = true → fpCvtFi dt st m fz r x = (0, fNV))) ∧
    (∀ (dt : Ty) (fz : Bool) (r : W32) (z : Int), [Ty.f32, .f16, .bf16, .e4m3, .e5m2, .e2m1].contains dt = true →
      dt.Gives m sat fz r (z : Rat) false (fpCvtIf dt m sat fz r z))

/-- R199: `qblk` writes the register image of the block quantised from the 32 lanes of A, whatever their activity, and stages its flags; `dqblk` writes element j decoded to lane j of each active lane, reading S
and P from lane 8. R30 gives the value of an element, and R32 the block step by step: the scale, the codes rounded to the element format, the spare, and NX and UF. The worked case of R199 is in the tests. -/
def Obligations.FloatBlocks : Prop :=
  ∀ (s : State) (g : KReg) (t : Ty) (m : Rnd) (d a : VReg), t.isBlock = true →
    (s.vecReady (.qblk g t m d a) → ∃ (u : State) (low : Nat),
      let q := quantise t m (s.rand m low 32) ((List.range 32).map (fun j => fIn .f32 s.me.fz (s.getV a j).toNat))
      exec (.qblk g t m d a) s = .next u ∧ (s.active g = 0 → u = s.moved1) ∧
      (s.active g ≠ 0 → (s.active g).has low = true ∧ (∀ l < low, (s.active g).has l = false) ∧
        ((s.drawn m (1#32 <<< low) 32).stage q.2).WroteV u [d] (s.active g) ∧
        ∀ l < 32, (s.active g).has l = true → u.getV d l =
          if l < (if t = .b4 then 4 else 8) then BitVec.ofNat 32 (packCodes t.width q.1.codes / 2 ^ (32 * l))
          else if l = 8 then (if t = .b4 then q.1.P.setWidth 32 <<< 8 else 0) ||| q.1.S.setWidth 32
          else 0)) ∧
    (s.vecReady (.dqblk g t d a) → ∃ (u : State) (f : Flags),
      let out (l : Nat) : FRes := Ty.f32.deliver .rn false s.me.fz 0
        (blockVal t ((s.getV a 8).setWidth 8) (if t = .b4 then ((s.getV a 8) >>> 8).setWidth 8 else 0)
          ((s.getV a (l * t.width / 32)).toNat / 2 ^ (l * t.width % 32) % 2 ^ t.width))
      exec (.dqblk g t d a) s = .next u ∧ (s.stage f).WroteV u [d] (s.active g) ∧
      (∀ b < 5, f.getLsbD b = true ↔ ∃ l < 32, (s.active g).has l = true ∧ (out l).2.getLsbD b = true) ∧
      ∀ l < 32, (s.active g).has l = true → (u.getV d l).toNat = (out l).1 % 2 ^ 32) ∧
    (∀ (S P : Byte) (c : Nat),
      (S = 0xFF → (blockVal t S P c).isNan = true) ∧
      (S ≠ 0xFF →
        let el := if t = .b8 then Ty.e4m3.decode c else if c = 8 then Ty.e4m3.decode P.toNat else Ty.e2m1.decode c
        (el.isNan = true → (blockVal t S P c).isNan = true) ∧
        (∀ n k e, el = .fin n k e → (blockVal t S P c).same (.fin n k (e + S.toNat - 127))))) ∧
    (∀ (rs : List W32) (xs : List FVal), rs.length = 32 → xs.length = 32 →
      ((∃ x ∈ xs, ∀ n k e, x ≠ .fin n k e) → quantise t m rs xs = ({ S := 0xFF, P := 0, codes := List.replicate 32 0 }, fNV)) ∧
      ((∀ x ∈ xs, ∃ n e, x = .fin n 0 e) → quantise t m rs xs = ({ S := 0x7F, P := 0, codes := List.replicate 32 0 }, 0)) ∧
      (∀ (n : Nat → Bool) (k : Nat → Nat) (e : Nat → Int), xs = (List.range 32).map (fun j => .fin (n j) (k j) (e j)) → (∃ j < 32, k j ≠ 0) →
        let b := (quantise t m rs xs).1
        let S := b.S.toNat
        let emax : Rat := if t = .b8 then 448 else 6
        let mag (j : Nat) : Rat := ratOf false (k j) (e j)
        let y (j : Nat) : Rat := ratOf (n j) (k j) (e j) * (2 : Rat) ^ (127 - (S : Int))
        let out (j : Nat) : FVal := blockVal t b.S b.P (b.codes.getD j 0)
        b.codes.length = 32 ∧ S ≤ 254 ∧
        (S < 254 → ∀ j < 32, mag j * (2 : Rat) ^ (127 - (S : Int)) ≤ emax) ∧ (0 < S → ∃ j < 32, emax < mag j * (2 : Rat) ^ (128 - (S : Int))) ∧
        (∃ c : Nat → Nat,
          let err (j : Nat) : Rat := magOf (y j - (t.blockElem.decode (c j)).rat)
          (∀ j < 32, (k j = 0 → c j = 0) ∧
            (k j ≠ 0 → ∃ o, t.blockElem.Rounds m false false (rs.getD j 0) (n j) (fun q => q ≤ magOf (y j)) (fun q => q < magOf (y j)) o ∧
              c j = if (t.blockElem.decode o.1).rat = 0 then 0 else o.1)) ∧
          (t = .b8 ∨ (∀ j < 32, err j = 0) → b.P = 0 ∧ ∀ j < 32, b.codes.getD j 0 = c j) ∧
          (t = .b4 → (∃ j < 32, err j ≠ 0) → ∃ i < 32, (∀ j < 32, err j ≤ err i) ∧ (∀ j < i, err j < err i) ∧
            (∃ o, Ty.e4m3.Rounds .rn false false 0 (n i) (fun q => q ≤ magOf (y i)) (fun q => q < magOf (y i)) o ∧ b.P.toNat = o.1) ∧
            ∀ j < 32, b.codes.getD j 0 = if magOf (y j - (Ty.e4m3.decode b.P.toNat).rat) < err j then 8 else c j)) ∧
        (quantise t m rs xs).2 = Flags.when ((List.range 32).any (fun j => decide ((out j).rat ≠ ratOf (n j) (k j) (e j)))) fNX |||
          Flags.when ((List.range 32).any (fun j => decide (k j ≠ 0 ∧ (out j).rat = 0))) fUF))

/-- R19, R192, R194: sums and products of finite values are exact before the one rounding; an exact zero sum is −0 only under `.rd` or of two negative zeros; NaN inputs give a NaN, with NV for a signalling
one; ∞ − ∞ and 0 × ∞ are NaN with NV. R20, R192, R193: the codes and flags that sums, products, quotients, roots, minima and maxima leave: of finite operands, taken as zeros where FZ flushes them, the exact result rounded once (`Ty.Gives` and
`Ty.Rounds` say R20, R21, R26 and R29); of NaNs and infinities those of R18 and R29; `fmin` and `fmax` take their operands after R20 (log 14). -/
def Obligations.FloatValues : Prop :=
  ∀ (rd : Bool) (x y : FVal) (n1 n2 : Bool) (m1 m2 : Nat) (e1 e2 : Int),
    (x = .fin n1 m1 e1 → y = .fin n2 m2 e2 →
      (∃ n m e, x.add rd y = (.fin n m e, 0) ∧ ratOf n m e = ratOf n1 m1 e1 + ratOf n2 m2 e2 ∧
        (m = 0 → n = if m1 = 0 ∧ m2 = 0 ∧ n1 = n2 then n1 else rd)) ∧
      (∃ n m e, x.mul y = (.fin n m e, 0) ∧ ratOf n m e = ratOf n1 m1 e1 * ratOf n2 m2 e2 ∧ (n = (n1 != n2)))) ∧
    (x.isNan = true ∨ y.isNan = true →
      (x.add rd y).1.isNan = true ∧ (x.mul y).1.isNan = true ∧
      (x.add rd y).2 = Flags.when (x.isSig || y.isSig) fNV ∧ (x.mul y).2 = Flags.when (x.isSig || y.isSig) fNV) ∧
    (FVal.add rd (.inf n1) (.inf n2) = if n1 = n2 then (.inf n1, 0) else (.nan false, fNV)) ∧
    (FVal.mul (.inf n1) (.fin n2 m2 e2) = if m2 = 0 then (.nan false, fNV) else (.inf (n1 != n2), 0)) ∧
    (∀ (t : Ty) (mode : Rnd) (fz sub : Bool) (r : W32) (a b : Nat), t.isArith = true → a < 2 ^ t.width → b < 2 ^ t.width →
      (∀ n k e, t.decode a = .fin n k e → fIn t fz a = if fz = true ∧ k ≠ 0 ∧ ratOf false k e < (2 : Rat) ^ t.emin then .fin n 0 0 else .fin n k e) ∧
      ((∀ n k e, t.decode a ≠ .fin n k e) → fIn t fz a = t.decode a) ∧
      (fIn t fz a = .fin n1 m1 e1 → fIn t fz b = .fin n2 m2 e2 →
        t.Gives mode false fz r (ratOf n1 m1 e1 + ratOf (n2 != sub) m2 e2) (if m1 = 0 ∧ m2 = 0 ∧ n1 = (n2 != sub) then n1 else decide (mode = .rd)) (fpAdd t mode fz sub r a b) ∧
        t.Gives mode false fz r (ratOf n1 m1 e1 * ratOf n2 m2 e2) (n1 != n2) (fpMul t mode fz r a b) ∧
        (m2 ≠ 0 → t.Gives mode false fz r (ratOf n1 m1 e1 / ratOf n2 m2 e2) (n1 != n2) (fpDiv t mode fz r a b)) ∧
        (n1 = false → m1 ≠ 0 → let v := ratOf false m1 e1
          t.Rounds mode false fz r false (fun q => q ≤ 0 ∨ q * q ≤ v) (fun q => q < 0 ∨ q * q < v) (fpSqrt t mode fz r a))) ∧
      ((t.decode a).isNan = true ∨ (t.decode b).isNan = true →
        let o := (t.nanCode, Flags.when ((t.decode a).isSig || (t.decode b).isSig) fNV)
        fpAdd t mode fz sub r a b = o ∧ fpMul t mode fz r a b = o ∧ fpDiv t mode fz r a b = o) ∧
      ((t.decode a).isNan = true → fpSqrt t mode fz r a = (t.nanCode, Flags.when (t.decode a).isSig fNV)) ∧
      (fIn t fz a = .inf n1 → fIn t fz b = .inf n2 →
        (fpAdd t mode fz sub r a b = if n1 = (n2 != sub) then (t.signed n1 t.infCode, 0) else (t.nanCode, fNV)) ∧
        fpMul t mode fz r a b = (t.signed (n1 != n2) t.infCode, 0)) ∧
      (fIn t fz a = .inf n1 → fIn t fz b = .fin n2 m2 e2 →
        fpAdd t mode fz sub r a b = (t.signed n1 t.infCode, 0) ∧ fpAdd t mode fz sub r b a = (t.signed (n1 != sub) t.infCode, 0) ∧
        (fpMul t mode fz r a b = if m2 = 0 then (t.nanCode, fNV) else (t.signed (n1 != n2) t.infCode, 0)) ∧ fpMul t mode fz r b a = fpMul t mode fz r a b ∧
        fpDiv t mode fz r a b = (t.signed (n1 != n2) t.infCode, 0) ∧ fpDiv t mode fz r b a = (t.signed (n1 != n2) 0, 0)) ∧
      (∀ mx : Bool,
        let X := fIn t fz a
        let Y := fIn t fz b
        let o := fpMinMax t fz mx a b
        o.2 = Flags.when ((t.decode a).isSig || (t.decode b).isSig) fNV ∧
        (X.isNan = true → Y.isNan = true → o.1 = t.nanCode) ∧
        (X.isNan = true → Y.isNan = false → (t.decode o.1).same Y) ∧ (X.isNan = false → Y.isNan = true → (t.decode o.1).same X) ∧
        (X.isNan = false → Y.isNan = false → ∃ v, (v = X ∨ v = Y) ∧ (t.decode o.1).same v ∧
          if mx then ¬v.below X ∧ ¬v.below Y else ¬X.below v ∧ ¬Y.below v)))

/-- R17, R192, R195: a NaN result is the canonical NaN of the format; a finite non-zero value over zero is ∞ with the sign of the quotient and DZ; 0/0 and ∞/∞ are NaN with NV; √−0 is −0, √+∞ is +∞ and the root of a
negative non-zero value is NaN with NV; `fabs` and `fneg` change only the sign bit; the approximations at zeros, infinities and NaNs. -/
def Obligations.FloatSpecials : Prop :=
  ∀ (t : Ty) (m : Rnd) (fz : Bool) (r : W32) (a b : Nat), t.isArith = true → a < 2 ^ t.width → b < 2 ^ t.width →
    (∀ v : FVal, v.isNan = true → (t.deliver m false fz r v).1 = t.nanCode) ∧
    (∀ n1 n2 m1 e1 e2, fIn t fz a = .fin n1 m1 e1 → m1 ≠ 0 → fIn t fz b = .fin n2 0 e2 →
      fpDiv t m fz r a b = (t.signed (n1 != n2) t.infCode, fDZ)) ∧
    (∀ n1 n2 e1 e2, fIn t fz a = .fin n1 0 e1 → fIn t fz b = .fin n2 0 e2 → fpDiv t m fz r a b = (t.nanCode, fNV)) ∧
    (∀ n1 n2, fIn t fz a = .inf n1 → fIn t fz b = .inf n2 → fpDiv t m fz r a b = (t.nanCode, fNV)) ∧
    (∀ n e, fIn t fz a = .fin n 0 e → fpSqrt t m fz r a = (t.signed n 0, 0)) ∧
    (fIn t fz a = .inf false → fpSqrt t m fz r a = (t.infCode, 0)) ∧
    (∀ k e, fIn t fz a = .fin true k e → k ≠ 0 → fpSqrt t m fz r a = (t.nanCode, fNV)) ∧
    ((t.decode a).isNan = true → fpAbs t a = (t.nanCode, Flags.when (t.decode a).isSig fNV) ∧
      fpNeg t a = (t.nanCode, Flags.when (t.decode a).isSig fNV)) ∧
    ((t.decode a).isNan = false → (fpAbs t a).2 = 0 ∧ (fpNeg t a).2 = 0 ∧ (fpAbs t a).1 = a % 2 ^ (t.width - 1) ∧
      (fpNeg t a).1 = if a < 2 ^ (t.width - 1) then a + 2 ^ (t.width - 1) else a - 2 ^ (t.width - 1)) ∧
    (∀ (w : W32) (n : Bool) (e : Int),
      rcp32 fz w (.fin n 0 e) = (Ty.f32.signed n 0x7F800000, fDZ) ∧ rcp32 fz w (.inf n) = (Ty.f32.signed n 0, 0) ∧
      rsq32 fz w (.fin n 0 e) = (Ty.f32.signed n 0x7F800000, fDZ) ∧ rsq32 fz w (.inf false) = (0, 0) ∧
      rsq32 fz w (.inf true) = (0x7FC00000, fNV) ∧ exp232 fz w (.fin n 0 e) = (0x3F800000, 0) ∧
      exp232 fz w (.inf false) = (0x7F800000, 0) ∧ exp232 fz w (.inf true) = (0, 0) ∧
      log232 fz w (.fin n 0 e) = (0xFF800000, fDZ) ∧ log232 fz w (.inf false) = (0x7F800000, 0) ∧
      log232 fz w (.inf true) = (0x7FC00000, fNV))

/-- R21: of a magnitude m × 2^e that is no multiple of 2^u, `.rz` takes the lesser of the two multiples of 2^u that bracket it, `.rn` the nearer and on a tie the even one, `.ru` and `.rd` the one toward +∞ and −∞
by the sign; a multiple of 2^u is its own result, and only a change is inexact. R22: `.rs` takes the next multiple where the first 32 bits of the rest and the random value reach 2^32 together. A finite value is delivered in each format rounded
once, flushed and overflowing by R20 and R26, with the flags of R29. R23: under `.rs` an element takes the next value of its lane's generator, in ascending order, on active lanes alone; the other modes take none, and RSEED seeds the lanes. -/
def Obligations.RoundingModes : Prop :=
  (∀ (t : Ty) (mode : Rnd) (sat fz neg : Bool) (r : W32) (m : Nat) (e : Int), [Ty.f32, .f16, .bf16, .e5m2, .e4m3, .e2m1].contains t = true →
    t.Gives mode sat fz r (ratOf neg m e) neg (t.deliver mode sat fz r (.fin neg m e))) ∧
  (∀ (s : State) (l n : Nat) (lanes : Mask), l < 32 →
    s.rand .rs l n = (List.range n).map (fun k => Nat.repeat genNext (k + 1) (s.me.lane l).gen) ∧
    (((s.drawn .rs lanes n).me).lane l).gen = (if lanes.has l = true then Nat.repeat genNext n (s.me.lane l).gen else (s.me.lane l).gen) ∧
    (∀ mode, mode ≠ .rs → s.drawn mode lanes n = s) ∧
    (∀ v : W64, let g : W32 := v.setWidth 32 ^^^ (v >>> 32).setWidth 32 ^^^ BitVec.ofNat 32 (l * 0x9E3779B9)
      genSeed v l = if g = 0 then 1 else g)) ∧
  ∀ (neg : Bool) (m : Nat) (e u : Int) (r : W32),
    let x := ratOf false m e
    let at_ (mode : Rnd) : Rat := ratOf false (roundAt mode neg m e false r u).1 u
    let unit := ratOf false 1 u
    (∀ mode, (roundAt mode neg m e false r u).2 = true ↔ ratOf false (m * 2 ^ (e - u).toNat / 2 ^ (u - e).toNat) u ≠ x) ∧
    (∀ mode, (roundAt mode neg m e false r u).2 = false → at_ mode = x) ∧
    (at_ .rz ≤ x ∧ x < at_ .rz + unit) ∧
    (∀ mode, (mode = .ru ∧ neg = true) ∨ (mode = .rd ∧ neg = false) → at_ mode = at_ .rz) ∧
    (∀ mode, (mode = .ru ∧ neg = false) ∨ (mode = .rd ∧ neg = true) → x ≤ at_ mode ∧ at_ mode < x + unit) ∧
    (2 * (x - at_ .rn) ≤ unit ∧ 2 * (at_ .rn - x) ≤ unit) ∧
    (2 * (x - at_ .rn) = unit ∨ 2 * (at_ .rn - x) = unit → (roundAt .rn neg m e false r u).1 % 2 = 0) ∧
    (∀ mode, rounded mode neg r (fun q => q ≤ x) (fun q => q < x) u (roundAt mode neg m e false r u).1)

/-- R107, R108, R202, R204, R207, R209, R210: `spld` and `spst` on lanes whose addresses pass R107 and R108: each lane's bytes, little-endian and extended by SX, reach its registers; each byte of scratchpad holds what the
highest-numbered lane stores there, and every other byte of scratchpad and all of memory read as before. A lane whose check fails takes no part and traps, the others completing, the bytes that they store included (R204). An aligned offset inside the
context's granules of the core itself passes, in the place R108 gives it, unless a byte there is poisoned. -/
def Obligations.ScratchAccess : Prop :=
  ∀ (s : State) (g : KReg) (sz : Size) (am sx : Bool) (a : BitVec 8) (d b : VReg) (off : BitVec 12),
    let addr (l : Nat) : W64 := if am then s.getS (a.setWidth 6) + off.signExtend 64 + BitVec.ofNat 64 (l * sz.bytes)
                                else (s.getV a l).setWidth 64 + off.signExtend 64
    (Instr.wellFormed (.spld g sz am sx d a off) = true → s.vecReady (.spld g sz am sx d a off) → s.active g ≠ 0 → s.full .ld = false →
      ∀ P : Nat → Place, (∀ l < 32, (s.active g).has l = true → s.scrLane sz.bytes (addr l) = .ok (P l)) →
      ∃ u, exec (.spld g sz am sx d a off) s = .next u ∧ (s.newOp .ld true).WroteV u (sizeRegList sz d) (s.active g) ∧
        ∀ l < 32, (s.active g).has l = true → ∀ j < sizeRegs sz, u.getV (d + BitVec.ofNat 8 j) l = loaded sz sx (s.placeGet (P l) sz.bytes) j) ∧
    (Instr.wellFormed (.spst g sz am a b off) = true → s.vecReady (.spst g sz am a b off) → s.active g ≠ 0 → s.full .st = false → s.Inv →
      ∀ P : Nat → Place, (∀ l < 32, (s.active g).has l = true → s.scrStoreLane sz.bytes (addr l) = .ok (P l)) →
      ∃ u, exec (.spst g sz am a b off) s = .next u ∧ s.Past u 1 ∧ s.SameRegs u ∧ (∀ l, u.peek l = s.peek l) ∧
        (∀ l < 32, (s.active g).has l = true → ∀ i < sz.bytes,
          (∀ m < 32, l < m → (s.active g).has m = true → ∀ j < sz.bytes, placeAdd (P m) j ≠ placeAdd (P l) i) →
          u.placeGet (placeAdd (P l) i) 1 = [s.laneByte b l i]) ∧
        (∀ (c : CoreId) (o : Nat), (∀ l < 32, (s.active g).has l = true → ∀ i < sz.bytes, scrKeyOf (placeAdd (P l) i) ≠ some (scrKey c o)) →
          u.placeGet (.scr c o) 1 = s.placeGet (.scr c o) 1)) ∧
    (Instr.wellFormed (.spld g sz am sx d a off) = true → s.vecReady (.spld g sz am sx d a off) → s.active g ≠ 0 → s.full .ld = false →
      ∀ (ok : Mask) (P : Nat → Place) (c : Nat → Nat),
      (∀ l < 32, (s.active g).has l = true → if ok.has l then s.scrLane sz.bytes (addr l) = .ok (P l) else ∃ o, s.scrLane sz.bytes (addr l) = .fail o (c l)) →
      ∃ u : State, exec (.spld g sz am sx d a off) s = .next (u.trapSome 1 (s.failing g ok c addr)) ∧
        (s.newOp .ld true).WroteV (u.adv 1) (sizeRegList sz d) (s.active g &&& ok) ∧
        ∀ l < 32, (s.active g &&& ok).has l = true → ∀ j < sizeRegs sz, u.getV (d + BitVec.ofNat 8 j) l = loaded sz sx (s.placeGet (P l) sz.bytes) j) ∧
    (Instr.wellFormed (.spst g sz am a b off) = true → s.vecReady (.spst g sz am a b off) → s.active g ≠ 0 → s.full .st = false →
      ∀ (ok : Mask) (P : Nat → Place) (c : Nat → Nat),
      (∀ l < 32, (s.active g).has l = true → if ok.has l then s.scrStoreLane sz.bytes (addr l) = .ok (P l) else ∃ o, s.scrStoreLane sz.bytes (addr l) = .fail o (c l)) →
      ∃ u : State, exec (.spst g sz am a b off) s = .next (u.trapSome 1 (s.failing g ok c addr)) ∧ s.SameRegs u ∧ u.mem = s.mem ∧
        (s.Inv → ∀ l < 32, (s.active g &&& ok).has l = true → ∀ i < sz.bytes,
          (∀ m < 32, l < m → (s.active g &&& ok).has m = true → ∀ j < sz.bytes, placeAdd (P m) j ≠ placeAdd (P l) i) →
          u.placeGet (placeAdd (P l) i) 1 = [s.laneByte b l i]) ∧
        (∀ (t : CoreId) (o : Nat), (∀ l < 32, (s.active g &&& ok).has l = true → ∀ i < sz.bytes, scrKeyOf (placeAdd (P l) i) ≠ some (scrKey t o)) →
          u.placeGet (.scr t o) 1 = s.placeGet (.scr t o) 1)) ∧
    (∀ l k, scrRange (addr l) = true → (addr l).toNat % sz.bytes = 0 → scrPeer s.cur.core (addr l) = false → fld (addr l) 21 0 < 0x300000 →
      kthBit (s.gmask s.cur.core s.me.ctx).toNat 16 (fld (addr l) 21 0 / 0x30000) = some k →
      let p := Place.scr s.cur.core (k * 0x30000 + fld (addr l) 21 0 % 0x30000)
      s.scrPoison p sz.bytes = false → s.scrLane sz.bytes (addr l) = .ok p ∧ s.scrStoreLane sz.bytes (addr l) = .ok p) ∧
    (∀ l, scrRange (addr l) = false → s.scrLane sz.bytes (addr l) = .fail ordCanon 26 ∧ s.scrStoreLane sz.bytes (addr l) = .fail ordCanon 26) ∧
    (∀ l, scrRange (addr l) = true → (addr l).toNat % sz.bytes ≠ 0 → s.scrLane sz.bytes (addr l) = .fail ordAlign 22 ∧
      s.scrStoreLane sz.bytes (addr l) = .fail ordAlign 22)

/-- R202, R209, R210: `ld` and `gth` on lanes that pass R92 (chkLoad) write to each active lane's registers the bytes at its address, extended by SX, and with `.res` clear the bits of kN that R97 and R289 name; nothing else but
the count of loads changes from the state that the checks leave. `sld` loads one value into sD. R92, R97, R204: a lane that fails takes the trap of the first condition that it meets, with its address in STVAL, and writes nothing, the
others completing; a lane of a `.res` load whose page is not resident gives zeros and clears its bit. The conditions of R92, R203's alignment among them, decide in their order: on the address, in the walk, on the entry, on the bytes. An access whose translation and lines are at hand, of a launch without a list of ranges (R102), leaves that state as it
was, so then every byte of memory is unchanged. -/
def Obligations.MemoryLoads : Prop :=
  ∀ (s : State) (g : KReg) (sz : Size) (sx : Bool) (d a : VReg) (x y : SReg) (res : KReg) (off : BitVec 12),
    (∀ (i : Instr) (addr : Nat → W64),
      (i = .ld g sz sx d x res off ∧ (addr = fun l => s.getS x + off.signExtend 64 + BitVec.ofNat 64 (l * sz.bytes))) ∨
      (i = .gth g sz sx d a res off ∧ (addr = fun l => s.getV (a + 1) l ++ s.getV a l + off.signExtend 64)) →
      i.wellFormed = true → s.vecReady i → s.active g ≠ 0 → s.full .ld = false →
      ∀ q, s.chkLanes (s.active g).lanes (fun s l => s.chkLoad (Mask.ofLanes [l]) 1 (addr l) sz.bytes (res != 0)) = q →
      ∀ (A : Nat → Acc) (Z : Nat → List Nat) (c : Nat → Bool),
      q.2 = (s.active g).lanes.map (fun l => (l, LaneChk.go (A l) (Z l) (c l))) → (∀ l, (A l).reg = none) → q.1.me = s.me → q.1.cur = s.cur →
      ∃ u, exec i s = .next u ∧
        (((q.1.setK res (q.1.getK res &&& ~~~(Mask.ofLanes ((s.active g).lanes.filter c)))).newOp .ld true).remoteDone).WroteV u (sizeRegList sz d) (s.active g) ∧
        ∀ l < 32, (s.active g).has l = true → ∀ j < sizeRegs sz, u.getV (d + BitVec.ofNat 8 j) l =
          loaded sz sx ((A l).locs.map (fun p => if (Z l).contains p then 0 else q.1.look s.cur.core p)) j) ∧
    (∀ (q : State) (A : Acc), Instr.wellFormed (.sld sz sx x y off) = true → s.full .ld = false →
      s.chkLoad s.sp.m 1 (s.getS y + off.signExtend 64) sz.bytes false = (q, .go A [] false) → A.reg = none → q.me = s.me → q.cur = s.cur →
      let v := leNat (A.locs.map (q.look s.cur.core))
      exec (.sld sz sx x y off) s = .next (((q.newOp .ld true).remoteDone).wroteS x
        (if sx then BitVec.ofInt 64 (BitVec.ofNat (8 * sz.bytes) v).toInt else BitVec.ofNat 64 (v % 256 ^ sz.bytes)) 1)) ∧
    (∀ (q : State) (c : Nat), s.full .ld = false → s.chkLoad s.sp.m 1 (s.getS y + off.signExtend 64) sz.bytes false = (q, .trap c) →
      exec (.sld sz sx x y off) s = .next (q.remoteDone.trapAll c (s.getS y + off.signExtend 64))) ∧
    (∀ (i : Instr) (addr : Nat → W64),
      (i = .ld g sz sx d x res off ∧ (addr = fun l => s.getS x + off.signExtend 64 + BitVec.ofNat 64 (l * sz.bytes))) ∨
      (i = .gth g sz sx d a res off ∧ (addr = fun l => s.getV (a + 1) l ++ s.getV a l + off.signExtend 64)) →
      i.wellFormed = true → s.vecReady i → s.active g ≠ 0 → s.full .ld = false →
      ∀ q, s.chkLanes (s.active g).lanes (fun s l => s.chkLoad (Mask.ofLanes [l]) 1 (addr l) sz.bytes (res != 0)) = q →
      ∀ (ok gone : Mask) (A : Nat → Acc) (Z : Nat → List Nat) (cl : Nat → Bool) (c : Nat → Nat),
      q.2 = (s.active g).lanes.map (fun l => (l, if gone.has l then LaneChk.nonres else if ok.has l then .go (A l) (Z l) (cl l) else .trap (c l))) →
      (∀ l, (A l).reg = none) → q.1.me = s.me → q.1.cur = s.cur →
      ∃ u : State, exec i s = .next (u.trapSome 1 (s.failing g (ok ||| gone) c addr)) ∧
        (((q.1.setK res (q.1.getK res &&& ~~~(Mask.ofLanes ((s.active g).lanes.filter (fun l => gone.has l || (ok.has l && cl l)))))).newOp .ld true).remoteDone).WroteV
          (u.adv 1) (sizeRegList sz d) (s.active g &&& (ok ||| gone)) ∧
        ∀ l < 32, (s.active g &&& (ok ||| gone)).has l = true → ∀ j < sizeRegs sz, u.getV (d + BitVec.ofNat 8 j) l =
          loaded sz sx (if gone.has l then List.replicate sz.bytes 0 else (A l).locs.map (fun p => if (Z l).contains p then 0 else q.1.look s.cur.core p)) j) ∧
    (∀ (lanes : Mask) (va : W64) (n : Nat) (r : Bool) (q : State) (o c : Nat), s.check s.who .load 1 va n = (q, .fail o c) →
      s.chkLoad lanes 1 va n r = (q, if r = true ∧ o = ordResident then .nonres else .trap c)) ∧
    (∀ (w : Who) (k : AccKind) (al : Nat) (va : W64) (n : Nat), 0 < n →
      let last := va + BitVec.ofNat 64 (n - 1)
      (w.untranslated = true → 2 ^ 48 ≤ va.toNat → s.check w k al va n = (s, .fail ordCanon 16)) ∧
      (w.untranslated = false → canonical va = false ∨ canonical last = false → s.check w k al va n = (s, .fail ordCanon 16)) ∧
      (w.untranslated = false → canonical va = true → canonical last = true →
        (va.toNat % al ≠ 0 → s.check w k al va n = (s, .fail ordAlign 22)) ∧
        (va.toNat % al = 0 → va.toNat / 4096 = last.toNat / 4096 →
          (∀ q o c, s.translate w k va = (q, .fail o c) → s.check w k al va n = (q, .fail o c)) ∧
          (∀ q t, s.translate w k va = (q, .ok t) →
            let ps := (List.range n).map (q.physAt w [t] va)
            s.check w k al va n =
              if (w.mode = .user ∧ pteU t.pte = false) ∨ (k = .fetch ∧ (pteX t.pte = false ∨ (w.mode = .sup ∧ pteU t.pte = true))) then (q, .fail ordMode 19)
              else if k.isWrite = true ∧ pteW t.pte = false then (q, .fail ordWrite 19)
              else if k.isWrite = true ∧ t.isSealed = true then (q, .fail ordSeal 20)
              else match q.physCheck w k ps with
                | some (o, c) => (q, .fail o c)
                | none => (q, .ok (q.mkAcc w [t] va n ps)))) ∧
        (va.toNat % al = 0 → va.toNat / 4096 ≠ last.toNat / 4096 → ∀ q1 q2 o1 c1 o2 c2, s.translate w k va = (q1, .fail o1 c1) → q1.translate w k last = (q2, .fail o2 c2) →
          s.check w k al va n = (q2, if o2 < o1 then .fail o2 c2 else .fail o1 c1))) ∧
      (∀ (level node l : Nat) (q : State), s.decodePa (node + 8 * (va.toNat / 2 ^ levelShift level % 512)) = .loc l → s.naeshDown = false →
        s.walkRead w (node + 8 * (va.toNat / 2 ^ levelShift level % 512)) l = (q, .ok) →
        let e := q.peek64 l
        s.walkGo w va level node =
          if e.getLsbD 63 = false then (q, .fail ordResident 17)
          else if q.malformed e level = true then (q, .fail ordEntry 18)
          else if pteSZ e = 3 then (q.walkKeep w va level (ptePA e)).walkGo w va (level - 1) (ptePA e)
          else (q, .ok { pte := e, pteLoc := l }))) ∧
    (∀ (lanes : Mask) (va : W64) (r : Bool) (A : Acc), s.check s.who .load 1 va sz.bytes = (s, .ok A) → A.reg = none → A.remote = false → A.sc = false →
      (∀ i, s.me.launch = some i → (s.launches[i]).rlist = []) →
      (∀ l ∈ A.lines, s.rangeOf l = none ∧ lineRemote l = false ∧ (s.lineKind A l).llcOnly = false ∧ (s.lineKind A l).noL1 = false ∧ s.l1Hit s.cur.core false l = true) →
      (∀ p ∈ A.locs, s.viewAt p = none) → s.chkLoad lanes 1 va sz.bytes r = (s, .go A [] false))

/-- R202, R207, R210: `st` and `sct` on lanes that pass R92 with their translations' D set, whose lines the core owns and on which no lease stands, store the low bytes of each active lane's registers at its address, the
highest-numbered lane remaining; `sst` stores the low bytes of sB. Every address outside the stored bytes reads as before, and no register changes. A store to a line under a lease waits at its slice and memory reads as before (R68). R92, R204, R205: a lane that fails traps with its cause and its address and stores nothing, the others completing, unless a lane that passes addresses an
SC page: then none stores. -/
def Obligations.MemoryStores : Prop :=
  ∀ (s : State) (g : KReg) (sz : Size) (a b : VReg) (x y : SReg) (off : BitVec 12), s.Inv →
    (∀ (i : Instr) (addr : Nat → W64),
      (i = .st g sz x b off ∧ (addr = fun l => s.getS x + off.signExtend 64 + BitVec.ofNat 64 (l * sz.bytes))) ∨
      (i = .sct g sz a b off ∧ (addr = fun l => s.getV (a + 1) l ++ s.getV a l + off.signExtend 64)) →
      i.wellFormed = true → s.vecReady i → s.active g ≠ 0 → s.full .st = false →
      ∀ A : Nat → Acc, (∀ l < 32, (s.active g).has l = true → s.chkWrite .store 1 (addr l) sz.bytes = (s, .go (A l) [] false) ∧
        (A l).sc = false ∧ s.StoresAt (A l) sz.bytes) →
      ∃ u, exec i s = .next u ∧ s.Past u 1 ∧ s.SameRegs u ∧ (∀ k, cellGet u.scr k = cellGet s.scr k) ∧
        (∀ l < 32, (s.active g).has l = true → ∀ i p, (A l).locs[i]? = some p →
          (∀ m < 32, l < m → (s.active g).has m = true → p ∉ (A m).locs) → u.peek p = s.laneByte b l i) ∧
        (∀ p, (∀ l < 32, (s.active g).has l = true → p ∉ (A l).locs) → u.peek p = s.peek p)) ∧
    (∀ (i : Instr) (addr : Nat → W64),
      (i = .st g sz x b off ∧ (addr = fun l => s.getS x + off.signExtend 64 + BitVec.ofNat 64 (l * sz.bytes))) ∨
      (i = .sct g sz a b off ∧ (addr = fun l => s.getV (a + 1) l ++ s.getV a l + off.signExtend 64)) →
      i.wellFormed = true → s.vecReady i → s.active g ≠ 0 → s.full .st = false →
      ∀ (ok : Mask) (A : Nat → Acc) (c : Nat → Nat), (∀ l < 32, (s.active g).has l = true →
        if ok.has l then s.chkWrite .store 1 (addr l) sz.bytes = (s, .go (A l) [] false) ∧ s.StoresAt (A l) sz.bytes
        else s.chkWrite .store 1 (addr l) sz.bytes = (s, .trap (c l)) ∧ s.scAt s.who (addr l) = false ∧ s.scAt s.who (addr l + BitVec.ofNat 64 (sz.bytes - 1)) = false) →
      ((∀ l < 32, (s.active g &&& ok).has l = true → (A l).sc = false) →
        ∃ u : State, exec i s = .next (u.trapSome 1 (s.failing g ok c addr)) ∧ s.SameRegs u ∧ (∀ k, cellGet u.scr k = cellGet s.scr k) ∧
          (∀ l < 32, (s.active g &&& ok).has l = true → ∀ i p, (A l).locs[i]? = some p →
            (∀ m < 32, l < m → (s.active g &&& ok).has m = true → p ∉ (A m).locs) → u.peek p = s.laneByte b l i) ∧
          (∀ p, (∀ l < 32, (s.active g &&& ok).has l = true → p ∉ (A l).locs) → u.peek p = s.peek p)) ∧
      ((∃ l < 32, (s.active g &&& ok).has l = true ∧ (A l).sc = true) → s.active g &&& ~~~ok ≠ 0 →
        ∃ u : State, exec i s = .next (u.trapHere (s.failing g ok c addr)) ∧ s.SameRegs u ∧ u.mem = s.mem ∧ u.scr = s.scr)) ∧
    (∀ (k : AccKind) (al : Nat) (va : W64) (n : Nat) (q : State) (o c : Nat), s.check s.who k al va n = (q, .fail o c) → s.chkWrite k al va n = (q, .trap c)) ∧
    (∀ A : Acc, Instr.wellFormed (.sst sz x y off) = true → s.full .st = false →
      s.chkWrite .store 1 (s.getS x + off.signExtend 64) sz.bytes = (s, .go A [] false) → s.StoresAt A sz.bytes →
      A.sc = false →
      ∃ u, exec (.sst sz x y off) s = .next u ∧ s.Past u 1 ∧ s.SameRegs u ∧ (∀ k, cellGet u.scr k = cellGet s.scr k) ∧
        (∀ i p, A.locs[i]? = some p → u.peek p = BitVec.ofNat 8 ((s.getS y).toNat / 256 ^ i)) ∧
        (∀ p, p ∉ A.locs → u.peek p = s.peek p)) ∧
    (∀ (op line : Nat) (bank : Bool) (cells : List Host.Cell), lineRemote line = false → 0 < s.leaseOn line →
      (s.storeLine op line bank cells).mem = s.mem ∧ (s.storeLine op line bank cells).pend = s.pend ++
        [{ die := dieOf s.cur.core, core := s.cur.core, slot := s.cur.slot, uid := s.me.uid, op := op, line := line, bank := bank, cells := cells }])

/-- R99, R212 to R214: `pf` and `resid` complete in every state past R144, trap on nothing, and write no register and no byte of scratchpad. A line of HBM4E that `pf.llc` names stands in the LLC
afterwards, and a line of another device is left where it is; a poisoned one drops its page. The active lanes are taken page by page, in the order of the pages' lowest lanes. A `resid` on a page that is not resident posts its page's request, once, and drops the hint, which is counted for the lowest
lane; on a resident page it does nothing, unless a line that it names is poisoned, which drops the hint (R81). -/
def Obligations.Hints : Prop :=
  ∀ (s : State) (g : KReg) (tgt : PfTgt) (a : VReg) (off : BitVec 12),
    (s.vecReady (.pf g tgt a off) → ∃ u, exec (.pf g tgt a off) s = .next u ∧ u.sp.pc = s.sp.pc + 8 ∧ s.SameRegs u ∧ u.scr = s.scr) ∧
    (s.vecReady (.resid g a off) → ∃ u, exec (.resid g a off) s = .next u ∧ u.sp.pc = s.sp.pc + 8 ∧ s.SameRegs u ∧ u.scr = s.scr) ∧
    (s.vecReady (.pf g tgt a off) → s.active g = 0 → exec (.pf g tgt a off) s = .next s.moved1) ∧
    (let pages := s.pages (s.active g).lanes (s.pairAddr a off);
      (s.vecReady (.pf g tgt a off) → exec (.pf g tgt a off) s = .next ((pages.foldl (fun u p => u.prefetchPage tgt p) s).adv 1)) ∧
      (s.vecReady (.resid g a off) → exec (.resid g a off) s = .next ((pages.foldl State.residPage s).adv 1)) ∧
      (∀ p ∈ pages, ∃ q, ∀ l < 32, (s.active g).has l = true → (s.hintPage (s.pairAddr a off l) = q ↔ (l, s.pairAddr a off l) ∈ p))) ∧
    (∀ (l : Nat) (va : W64) (A : Acc) (line : Nat), s.check s.who .hint 1 va 1 = (s, .ok A) → A.lines = [line] →
      let q := s.prefetchLine tgt (s.lineKind A line) line
      s.prefetchPage tgt [(l, va)] = if q.2 then q.1.insertLow s s.me.launch s.cur.core va [line] else s.dropHint l) ∧
    (∀ (l : Nat) (va : W64) (c : Nat), s.check s.who .hint 1 va 1 = (s, .fail ordResident c) →
      let e := (s.me.ctx, va.extractLsb' 12 45)
      (s.residPage [(l, va)]).resq = (if e ∈ s.resq ∨ 256 ≤ s.resq.length then s.resq else s.resq ++ [e]) ∧
      (s.residPage [(l, va)]).sp.pf = s.sp.pf ++ [l]) ∧
    (∀ (l : Nat) (va : W64) (A : Acc), s.check s.who .hint 1 va 1 = (s, .ok A) →
      ((∀ x ∈ A.lines, s.poisoned x = false) → s.residPage [(l, va)] = s) ∧
      ((∃ x ∈ A.lines, s.poisoned x = true) → (s.residPage [(l, va)]).resq = s.resq ∧ (s.residPage [(l, va)]).sp.pf = s.sp.pf ++ [l])) ∧
    (∀ (k : LineKind) (line : Nat), (s.poisoned line = true → s.prefetchLine tgt k line = (s, false)) ∧
      (s.poisoned line = false → lineRemote line = true → s.prefetchLine tgt k line = (s, true)) ∧
      (s.poisoned line = false → lineRemote line = false → lineHbm line = true → (s.prefetchLine .llc k line).2 = true ∧
        ∃ e ∈ (s.prefetchLine .llc k line).1.llc, e.line = line))

/-- R215, R216, R268, R279: an `amo` on lanes that pass performs them one after another in ascending lane order: each lane's word becomes the operation's result on the value found there, which the returning form leaves in vD;
then the region is committed and the PC moves on. `racc` completes without a result. Other bytes of memory or scratchpad are those of the state in which the accesses may be performed: D set, other devices' answers there. -/
def Obligations.Atomics : Prop :=
  ∀ (s : State) (g : KReg) (op : AmoOp) (t : Ty) (sc : Scope) (rt : Bool) (d a b c : VReg), s.active g ≠ 0 →
    let cmp (l : Nat) : W64 := if op = .cas then s.opnd t c l else 0
    let n := if t.is64 then 8 else 4
    let lanes := (s.active g).lanes
    (Instr.wellFormed (.amo g op t sc rt true d a b c) = true → s.vecReady (.amo g op t sc rt true d a b c) →
      s.full (if rt then .ld else .st) = false →
      ∀ (P : Nat → CoreId × Nat), (∀ l ∈ lanes, s.scrLane n ((s.getV a l).setWidth 64) = .ok (.scr (P l).1 (P l).2)) →
      ∃ (u : State) (v : Nat → List Host.Cell), exec (.amo g op t sc rt true d a b c) s = .next u ∧ s.Past u 1 ∧ s.Commits u ∧
        v 0 = s.scr ∧ u.scr = v lanes.length ∧ (∀ p, u.peek p = s.peek p) ∧
        (∀ k l, lanes[k]? = some l →
          let old := le64 ((List.range n).map (fun j => cellGet (v k) (scrKey (P l).1 (P l).2 + j)))
          v (k + 1) = cellPut (v k) (cellsAt (scrKey (P l).1 (P l).2) (leBytes n (amoNew op t old (s.opnd t b l) (cmp l)).toNat)) ∧
          (rt = true → u.opnd t d l = old)) ∧
        u.me.sreg = s.me.sreg ∧ u.me.kreg = s.me.kreg ∧ (∀ r : VReg, rt = false ∨ r ∉ t.regs d → u.me.vreg[r.toFin] = s.me.vreg[r.toFin])) ∧
    (Instr.wellFormed (.amo g op t sc rt false d a b c) = true → s.vecReady (.amo g op t sc rt false d a b c) →
      s.full (if rt then .ld else .st) = false →
      ∀ (p q : State) (A : Nat → Acc),
        s.chkLanes lanes (fun s l => s.chkAmo sc (s.pairAddr a 0 l) n) = (p, lanes.map (fun l => (l, LaneChk.go (A l) [] false))) →
        p.Performs rt (lanes.map (fun l => (l, LaneChk.go (A l) [] false))) (s.pairAddr a 0) q →
        (∀ l, (A l).reg = none ∧ ∀ x ∈ (A l).lines, q.isMaster x = false) → q.me = s.me → q.cur = s.cur →
      ∃ (u : State) (v : Nat → List Host.Cell), exec (.amo g op t sc rt false d a b c) s = .next u ∧ s.Past u 1 ∧ s.Commits u ∧
        v 0 = q.mem ∧ u.mem = v lanes.length ∧ u.scr = q.scr ∧
        (∀ k l, lanes[k]? = some l →
          let old := BitVec.ofNat 64 (leNat ((A l).locs.map (cellGet (v k))))
          v (k + 1) = cellPut (v k) ((A l).locs.zip (leBytes n (amoNew op t old (s.opnd t b l) (cmp l)).toNat)) ∧
          (rt = true → u.opnd t d l = if t.is64 then old else (old.setWidth 32).setWidth 64)) ∧
        u.me.sreg = s.me.sreg ∧ u.me.kreg = s.me.kreg ∧ (∀ r : VReg, rt = false ∨ r ∉ t.regs d → u.me.vreg[r.toFin] = s.me.vreg[r.toFin])) ∧
    (Instr.wellFormed (.racc g t sc a b) = true → s.vecReady (.racc g t sc a b) → s.full .st = false →
      ∀ (p q : State) (A : Nat → Acc),
        s.chkLanes lanes (fun s l => s.chkRacc t sc (s.pairAddr a 0 l)) = (p, lanes.map (fun l => (l, LaneChk.go (A l) [] false))) →
        p.Performs false (lanes.map (fun l => (l, LaneChk.go (A l) [] false))) (s.pairAddr a 0) q →
        q.me = s.me → q.cur = s.cur →
      ∃ u, exec (.racc g t sc a b) s = .next u ∧ s.Past u 1 ∧ s.Commits u ∧ s.SameRegs u ∧ u.scr = q.scr ∧
        (sc = .die → u.mem = q.mem) ∧
        (∀ l p ps, lanes = [l] → (A l).locs = p :: ps → sc ≠ .die → q.poisoned (lineOf p) = false →
          u.mem = cellPut q.mem (cellsAt p (leBytes n (rodAdd t (le64 ((List.range n).map (fun j => q.peek (p + j)))) (s.opnd t b l)).toNat))))

/-- R216, R35: what each operation of `amo` leaves, on w bits; `.fadd` leaves the FP32 sum rounded with `.rn`, subnormals kept, as `fadd.f32.rn` with FZ = 0 does (FloatValues), and raises no flag. -/
def Obligations.AtomicValues : Prop :=
  (∀ x y z : W64,
    amoNew .fadd .f32 x y z = BitVec.ofNat 64 (fpAdd .f32 .rn false false 0 (x.toNat % 2 ^ 32) (y.toNat % 2 ^ 32)).1 ∧
    ∀ n1 m1 e1 n2 m2 e2, Ty.f32.decode (x.toNat % 2 ^ 32) = .fin n1 m1 e1 → Ty.f32.decode (y.toNat % 2 ^ 32) = .fin n2 m2 e2 →
      ∃ f, Ty.f32.Gives .rn false false 0 (ratOf n1 m1 e1 + ratOf n2 m2 e2) (m1 = 0 ∧ m2 = 0 ∧ n1 = true ∧ n2 = true) ((amoNew .fadd .f32 x y z).toNat, f)) ∧
  ∀ (t : Ty) (x y z : W64), [Ty.i32, .n32, .i64, .n64].contains t = true →
    t.read (amoNew .add t x y z) = t.read (x + y) ∧
    t.read (amoNew .min t x y z) = min (t.read x) (t.read y) ∧ t.read (amoNew .max t x y z) = max (t.read x) (t.read y) ∧
    t.read (amoNew .and t x y z) = t.read (x &&& y) ∧ t.read (amoNew .or t x y z) = t.read (x ||| y) ∧
    t.read (amoNew .xor t x y z) = t.read (x ^^^ y) ∧ t.read (amoNew .swap t x y z) = t.read y ∧
    t.read (amoNew .cas t x y z) = (if t.read x = t.read z then t.read y else t.read x)

/-- R219, R220, R226: an acquire waits until the string's earlier loads have returned and, wider than core, discards the unsealed lines of the core's L1; a release completes once every store that it covers is complete, and the split is held until then; `wcnt` completes once each
counter of OUTST is within its limit, and the split is held until then. -/
def Obligations.FencesAndCounters : Prop :=
  ∀ (s : State) (sc : Scope) (n1 n2 n3 n4 : BitVec 8),
    ((∀ r ∈ s.remote, r.core = s.cur.core → r.uid = s.me.uid → r.wr = true) →
      ∃ u, exec (.fence sc .acq) s = .next u ∧ s.Past u 1 ∧ s.SameRegs u ∧ u.mem = s.mem ∧ u.scr = s.scr ∧
      u.l1 = if sc = .core then s.l1 else s.l1.filter (fun e => !(e.core == s.cur.core && !e.code && e.exp.isSome))) ∧
    ((∃ r ∈ s.remote, r.core = s.cur.core ∧ r.uid = s.me.uid ∧ r.wr = false) → exec (.fence sc .acq) s = .next s.holdMe) ∧
    (s.released sc = true → exec (.fence sc .rel) s = .next s.moved1 ∧
      exec (.fence sc .ar) s = exec (.fence sc .acq) s) ∧
    (∀ k, k ≠ FenceKind.acq → s.released sc = false → exec (.fence sc k) s = .next s.holdMe) ∧
    (s.released sc = true ↔ (∀ p ∈ s.pend, p.core = s.cur.core → sc = .core ∧ p.uid ≠ s.me.uid) ∧
      ∀ r ∈ s.remote, ¬(r.core = s.cur.core ∧ r.uid = s.me.uid)) ∧
    (exec (.wcnt n1 n2 n3 n4) s = .next
      (if s.me.count .ld ≤ n1.toNat ∧ s.me.count .st ≤ n2.toNat ∧ s.me.count .cp ≤ n3.toNat ∧ s.me.count .tl ≤ n4.toNat then s.moved1 else s.holdMe))

/-- R116 to R118, R222 to R225: on a barrier whose address passes R223, `bar.init` writes its words, `bar.exp` and `bar.arr` apply their update, `bar.wait` returns word 0 once PHASE differs from its operand and waits until
then, going on at the barrier it waited on without reading its operands again, `bar.test` returns word 0; both acquire, once the string's earlier loads have returned (R220). Bytes outside the barrier's 32 read as before; no register but sD changes. -/
def Obligations.Barriers : Prop :=
  ∀ (s q : State) (sp : Bool) (p : Place) (a b c d : SReg), s.barCheck s.who sp (s.getS a) = (q, .ok p) → placeRemote p = false → q.me = s.me →
    q.cur = s.cur → q.Inv → placeFits p →
    let w0 := q.barWord p 0
    let w1 := q.barWord p 1
    ((s.getS b).toNat ≤ 1048575 → (s.getS c).toNat ≤ 2 ^ 27 - 1 → ∃ u, exec (.barInit sp a b c) s = .next u ∧ s.Past u 1 ∧ s.Commits u ∧ s.SameRegs u ∧
      (let w := BitVec.ofNat 64 ((s.getS b).toNat * 2 ^ 28 + (s.getS c).toNat); u.barWord p 0 = w ∧ u.barWord p 1 = w ∧ u.barWord p 2 = 0 ∧ u.barWord p 3 = 0) ∧
      q.SameBut u p 32) ∧
    ((s.getS b).toNat ≤ 2 ^ 27 - 1 → ∃ u, exec (.barExp sp a b) s = .next u ∧ s.Past u 1 ∧ s.Commits u ∧ s.SameRegs u ∧
      u.barWord p 0 = (barApply w0 w1 0 (s.getS b).toNat 0).1 ∧ q.SameBut u p 8) ∧
    (∀ (sc : Scope) (e : Bool), let n := if e then (s.getS b).toNat else 0
      n ≤ 2 ^ 27 - 1 → q.released sc = true → ∃ u, exec (.barArr sc e sp a b) s = .next u ∧ s.Past u 1 ∧ s.Commits u ∧ s.SameRegs u ∧
      u.barWord p 0 = (barApply w0 w1 1 n 0).1 ∧ q.SameBut u p 8) ∧
    (∀ sc : Scope, (∀ x, s.sp.wait ≠ .passed x) → q.loadsBack = true → w0.extractLsb' 56 8 ≠ (s.getS b).setWidth 8 → ∃ u, exec (.barWait sc sp d a b) s = .next u ∧ s.Past u 1 ∧
      u.me.sreg = s.me.sreg.set d.toFin w0 ∧ u.me.kreg = s.me.kreg ∧ u.me.vreg = s.me.vreg ∧ u.mem = q.mem ∧ u.scr = q.scr) ∧
    (∀ (sc : Scope) (x : Place), s.sp.wait = .passed x → s.loadsBack = true → ∃ u, exec (.barWait sc sp d a b) s = .next u ∧ s.Past u 1 ∧ u.sp.wait = .none ∧
      u.me.sreg = s.me.sreg.set d.toFin (s.barWord x 0) ∧ u.me.kreg = s.me.kreg ∧ u.me.vreg = s.me.vreg ∧ u.mem = s.mem ∧ u.scr = s.scr) ∧
    (∀ sc : Scope, (∀ x, s.sp.wait ≠ .passed x) → w0.extractLsb' 56 8 = (s.getS b).setWidth 8 → ∃ u, exec (.barWait sc sp d a b) s = .next u ∧ s.SameRegs u ∧
      u.sp.pc = s.sp.pc ∧ u.sp.wait = .barrier p ((s.getS b).setWidth 8) ∧ u.mem = q.mem ∧ u.scr = q.scr) ∧
    (∀ sc : Scope, q.loadsBack = true → ∃ u, exec (.barTest sc sp d a) s = .next u ∧ s.Past u 1 ∧
      u.me.sreg = s.me.sreg.set d.toFin w0 ∧ u.me.kreg = s.me.kreg ∧ u.me.vreg = s.me.vreg ∧ u.mem = q.mem ∧ u.scr = q.scr)

/-- R117, R119: an update that leaves arrivals or bytes pending lowers PARR by the arrivals and adds what is expected less what has landed to PBYTES; one that leaves neither advances PHASE by one and loads both from EARR and
EBYTES; an arrival at PARR = 0 reports ECODE 11 and an overflow of PBYTES ECODE 10, if ECODE holds none. -/
def Obligations.BarrierUpdate : Prop :=
  ∀ (w0 w1 : W64) (arr ex la : Nat), arr ≤ 1 →
    let nb : Int := (w0.extractLsb' 0 28).toInt + ex - la
    let np := (w0.extractLsb' 28 20).toNat - arr
    let r := barApply w0 w1 arr ex la
    (arr = 1 → (w0.extractLsb' 28 20).toNat = 0 → r.2 = false ∧ r.1 = withEcode w0 11) ∧
    ((arr = 0 ∨ (w0.extractLsb' 28 20).toNat ≠ 0) → nb < -(2 ^ 27 : Nat) ∨ (2 ^ 27 : Nat) - 1 < nb → r.2 = false ∧ r.1 = withEcode w0 10) ∧
    ((arr = 0 ∨ (w0.extractLsb' 28 20).toNat ≠ 0) → -(2 ^ 27 : Nat) ≤ nb → nb ≤ (2 ^ 27 : Nat) - 1 →
      (np ≠ 0 ∨ nb ≠ 0 ∨ (arr = 0 ∧ ex = la) → r.2 = false ∧ (r.1.extractLsb' 28 20).toNat = np ∧ (r.1.extractLsb' 0 28).toInt = nb ∧
        r.1.extractLsb' 48 16 = w0.extractLsb' 48 16) ∧
      (np = 0 → nb = 0 → ¬(arr = 0 ∧ ex = la) → r.2 = true ∧ r.1.extractLsb' 56 8 = w0.extractLsb' 56 8 + 1 ∧
        r.1.extractLsb' 28 20 = w1.extractLsb' 28 20 ∧ r.1.extractLsb' 0 27 = w1.extractLsb' 0 27 ∧ r.1.extractLsb' 48 8 = w0.extractLsb' 48 8))

/-- R227 to R232, R273 to R275: a `seal` of resident HBM or LPDDR pages of one tier, aligned to their size and none of them carrying BK or SC, enters the pages and completes once the stores to them have; `unseal` of such pages takes
them out of the table once no slice has a lease on them, and is held until then; an instruction that was held goes on with the operands it has read, whatever its registers hold by then (R229). `cmr` of a range that matches none enters it and waits for its completion, or is past at once if it is entered already; `cmrend` marks the range and waits, and is past at once if its base names none. -/
def Obligations.SealsAndRanges : Prop :=
  ∀ (s s0 : State) (a b : SReg) (base len : W64),
    ((∀ n v w, s.sp.wait ≠ .opnds n v w) ∧ s0 = s ∧ s.getS a = base ∧ s.getS b = len) ∨ (∃ n, s.sp.wait = .opnds n base len ∧ s0 = s.waitMe .none) →
    (∀ (q : State) (ps : List PageAt), len ≠ 0 →
      s0.pagesOf s0.who .store false false (len.toNat / 4096 + 1) base.toNat (base.toNat + len.toNat) = (q, .ok ps) → q.me = s0.me → q.cur = s.cur →
      q.sealRefused ps base len = none →
      (ps.find? q.pagePlane = none → 
        let new := ((ps.map PageAt.pa).eraseDups).filter (fun p => !q.seals.contains p)
        q.seals.length + new.length ≤ 4096 → q.pagesBusy ps = false → q.released .pkg = true →
        ∃ u, exec (.seal a b) s = .next u ∧ s.Past u 1 ∧ s.SameRegs u ∧ u.mem = q.mem ∧ u.scr = q.scr ∧ u.seals = q.seals ++ new ∧
          ∀ p ∈ ps, p.pa ∈ u.seals) ∧
      (let copy (e : L2Line) : Prop := ∃ p ∈ ps, p.pa ∈ q.seals ∧ q.pageHas p.pa p.log e.line = true;
       (∀ e ∈ q.l2, copy e → e.agent ∉ q.asleep) →
        ((∀ e ∈ q.l2, copy e → e.lease ≤ q.ptime) → q.released .sys = true →
          ∃ u, exec (.unseal a b) s = .next u ∧ s.Past u 1 ∧ s.SameRegs u ∧ u.mem = q.mem ∧ u.scr = q.scr ∧
            ∀ p, p ∈ u.seals ↔ p ∈ q.seals ∧ p ∉ ps.map PageAt.pa) ∧
        ((∃ e ∈ q.l2, copy e ∧ q.ptime < e.lease) →
          ∃ u, exec (.unseal a b) s = .next u ∧ u.sp.pc = s.sp.pc ∧ s.SameRegs u ∧ u.mem = q.mem ∧ u.scr = q.scr ∧ u.seals = q.seals ∧
            u.sp.wait = .opnds q.cyc base len))) ∧
    (∀ (t : Ty) (sc : Scope) (q : State) (ps : List PageAt), base.toNat % 128 = 0 → len ≠ 0 → len.toNat % 128 = 0 → len.toNat ≤ 2 ^ 40 →
      s0.pagesOf s0.who .store true true (len.toNat / 4096 + 2) base.toNat (base.toNat + len.toNat) = (q, .ok ps) → q.me = s0.me → q.cur = s.cur →
      let r := q.newRange t sc ps base.toNat len.toNat
      r.far = none →
      (∀ i : Fin 256, q.matching r = none → q.cmrRefused ps r = false → r.lines ≠ [] → q.freeRange = some i → q.rangeSleeper r = none →
        ∃ u, exec (.cmr t sc a b) s = .next u ∧ s.SameRegs u ∧ u.mem = q.mem ∧ u.scr = q.scr ∧ u.sp.pc = s.sp.pc ∧ u.sp.wait = .range i base len ∧
          u.ranges = q.ranges.set i (some r) ∧ r.starting = true) ∧
      ((∀ n, s.sp.wait ≠ .held n) → q.matching r = none → q.cmrRefused ps r = true → exec (.cmr t sc a b) s = .next (q.trapAll 36 base)) ∧
      (∀ (i : Fin 256) (r' : Range), q.matching r = some i → q.ranges[i] = some r' → r'.starting = false → r'.ending = false →
        ∃ u, exec (.cmr t sc a b) s = .next u ∧ s.Past u 1 ∧ s.Commits u ∧ s.SameRegs u ∧ u.mem = q.mem ∧ u.scr = q.scr ∧ u.ranges = q.ranges)) ∧
    (∀ (q : State) (A : Acc) (l : Nat) (ls : List Nat), s0.check s0.who .contrib 1 base 1 = (q, .ok A) → A.locs = l :: ls → A.remote = false → q.me = s0.me → q.cur = s.cur →
      (q.rangeAt l = none → ∃ u, exec (.cmrend a) s = .next u ∧ s.Past u 1 ∧ s.Commits u ∧ s.SameRegs u ∧ u.mem = q.mem ∧ u.scr = q.scr ∧ u.ranges = q.ranges) ∧
      (∀ (i : Fin 256) (r : Range), q.rangeAt l = some i → q.ranges[i] = some r → r.starting = false → r.far = none → q.rangeSleeper { r with ending := true } = none →
        ∃ u, exec (.cmrend a) s = .next u ∧ s.SameRegs u ∧ u.mem = q.mem ∧ u.scr = q.scr ∧ u.sp.pc = s.sp.pc ∧ (∃ v, u.sp.wait = .range i base v) ∧
          u.ranges = q.ranges.set i (some { r with ending := true })))

/-- R390, R391: each branch, taken to its target or past; a register target is checked first for canonical form and then for bits [2:0], with the target in STVAL on every lane; `call` and `callr` leave the address of the next word
in sD, `callr` reading sA before. No memory, flag or other register changes. -/
def Obligations.Branches : Prop :=
  ∀ (s : State) (imm : W32) (d a : SReg) (k : KReg),
    let target := BitVec.ofInt 64 (s.sp.pc.toNat + 8 * imm.toInt)
    let form (v : W64) : Prop := if s.sp.mode = .hyp ∨ s.me.ptroot.getLsbD 0 = false then v.toNat < 2 ^ 48
      else v.toNat < 2 ^ 56 ∨ 2 ^ 64 - 2 ^ 56 ≤ v.toNat
    exec (.br imm) s = .next (s.jumped target) ∧
    exec (.bnz a imm) s = .next (if s.getS a ≠ 0 then s.jumped target else s.moved1) ∧
    exec (.bz a imm) s = .next (if s.getS a = 0 then s.jumped target else s.moved1) ∧
    exec (.bany k imm) s = .next (if s.sp.e &&& s.getK k ≠ 0 then s.jumped target else s.moved1) ∧
    exec (.ball k imm) s = .next (if s.sp.e &&& s.getK k = s.sp.e then s.jumped target else s.moved1) ∧
    exec (.bnone k imm) s = .next (if s.sp.e &&& s.getK k = 0 then s.jumped target else s.moved1) ∧
    exec (.call d imm) s = .next ((s.wroteS d (s.sp.pc + 8) 0).jumped target) ∧
    (form (s.getS a) → (s.getS a).toNat % 8 = 0 →
      exec (.ret a) s = .next (s.jumped (s.getS a)) ∧ exec (.jmpr a) s = .next (s.jumped (s.getS a)) ∧
      exec (.callr d a) s = .next ((s.wroteS d (s.sp.pc + 8) 0).jumped (s.getS a))) ∧
    (¬form (s.getS a) → exec (.ret a) s = .next (s.trapAll 16 (s.getS a)) ∧ exec (.jmpr a) s = .next (s.trapAll 16 (s.getS a)) ∧
      exec (.callr d a) s = .next (s.trapAll 16 (s.getS a))) ∧
    (form (s.getS a) → (s.getS a).toNat % 8 ≠ 0 → exec (.ret a) s = .next (s.trapAll 5 (s.getS a)) ∧
      exec (.jmpr a) s = .next (s.trapAll 5 (s.getS a)) ∧ exec (.callr d a) s = .next (s.trapAll 5 (s.getS a))) ∧
    exec (.spmask k) s = .next (s.wroteK k s.sp.e)

/-- R373, R374: `bdiv` branches whole when N is empty, falls through whole when T is, and else divides the split: with a free slot and an empty stack, N keeps the slot at the next word and T takes the slot at the target, with a copy of
the staged flags; otherwise T is pushed under RECONV, and traps with cause 8 without RECONV or 9 at eight entries. The header at RECONV is taken to pass its checks (R157). -/
def Obligations.Divergence : Prop :=
  ∀ (s : State) (k : KReg) (imm : W32),
    let target := BitVec.ofInt 64 (s.sp.pc.toNat + 8 * imm.toInt)
    let T := s.sp.e &&& s.getK k
    let N := s.sp.e &&& ~~~s.getK k
    (N = 0 → exec (.bdiv k imm) s = .next (s.jumped target)) ∧
    (N ≠ 0 → T = 0 → exec (.bdiv k imm) s = .next s.moved1) ∧
    (N ≠ 0 → T ≠ 0 → ∀ q, s.checkReconv = (q, .ok (), 0) → q.me = s.me → q.cur = s.cur →
      (∀ j, s.me.freeSlot = some j → j ≠ s.cur.split → s.sp.stack = [] → ∃ u, exec (.bdiv k imm) s = .next u ∧ s.SameRegs u ∧ u.mem = q.mem ∧ u.scr = q.scr ∧
        u.sp.m = N ∧ u.sp.e = N ∧ u.sp.pc = s.sp.pc + 8 ∧ u.sp.t = s.sp.t ∧ u.sp.mode = s.sp.mode ∧
        (let y := u.me.splits[j]; y.m = T ∧ y.e = T ∧ y.pc = target ∧ y.t = s.sp.t ∧ y.mode = s.sp.mode ∧ y.stack = [] ∧ y.enter = true ∧ y.wait = .none) ∧
        ∀ i : SplitId, i ≠ j → i ≠ s.cur.split → u.me.splits[i] = s.me.splits[i]) ∧
      ((s.me.freeSlot = none ∨ s.sp.stack ≠ []) →
        (s.sp.hdr.extractLsb' 24 16 = 0 → exec (.bdiv k imm) s = .next (q.trapAll 8 0)) ∧
        (s.sp.hdr.extractLsb' 24 16 ≠ 0 → 8 ≤ s.sp.stack.length → exec (.bdiv k imm) s = .next (q.trapAll 9 0)) ∧
        (s.sp.hdr.extractLsb' 24 16 ≠ 0 → s.sp.stack.length < 8 → ∃ u, exec (.bdiv k imm) s = .next u ∧ s.SameRegs u ∧ u.mem = q.mem ∧ u.scr = q.scr ∧
          u.sp.e = N ∧ u.sp.m = s.sp.m ∧ u.sp.pc = s.sp.pc + 8 ∧ u.sp.mode = s.sp.mode ∧
          u.sp.stack = { rpc := s.sp.blk + BitVec.ofInt 64 (8 * (s.sp.hdr.extractLsb' 24 16).toInt), rmask := s.sp.e, ppc := target, pmask := T } :: s.sp.stack))) ∧
    (s.sp.hdr.extractLsb' 24 16 = 0 → s.checkReconv = (s, .ok (), 0))

/-- R149 to R151, R396: `rdsr` of a register that its mode may read leaves the register in sD, or each active lane's register in vD; of any other it traps with cause 3 and the instruction word in STVAL. -/
def Obligations.SystemRegisterReads : Prop :=
  ∀ (s : State) (g : KReg) (d : BitVec 8), d.toNat < 64 →
    let rd (n : BitVec 12) (v : W64) : Prop := exec (.rdsr 0 n d) s = .next (s.wroteS (d.setWidth 6) v 1)
    rd 0x000 (BitVec.ofNat 64 ((if s.me.fz then 1 else 0) + 2 ^ 28 * (ones 4 (fun j => ((s.me.splits.toArray.getD j Split.empty).m != 0))) + 2 ^ 32 * (match s.sp.mode with | .user => 0 | .sup => 1 | .hyp => 2) + 2 ^ 40 * s.me.allot)) ∧
    rd 0x001 (BitVec.ofNat 64 (s.me.fflags ||| s.sp.t).toNat) ∧ rd 0x002 s.me.rseed ∧ rd 0x003 (BitVec.ofNat 64 s.me.pfdrop.toNat) ∧
    rd 0x004 (BitVec.ofNat 64 (s.me.count .ld * 2 ^ 18 + s.me.count .st * 2 ^ 12 + s.me.count .cp * 2 ^ 8 + s.me.count .tl * 2 ^ 4)) ∧
    rd 0x005 s.me.cperr ∧ rd 0x010 (BitVec.ofNat 64 (s.cur.core.val % 4)) ∧ rd 0x011 (BitVec.ofNat 64 (s.placeToken s.me.ctx s.cur.core).toNat) ∧
    rd 0x012 (BitVec.ofNat 64 s.um.devnum.toNat) ∧ rd 0x013 (BitVec.ofNat 64 s.ptime) ∧ rd 0x014 s.pskew ∧ rd 0x015 s.core.lease ∧
    rd 0x016 s.core.stealdist ∧ rd 0x017 (BitVec.ofNat 64 (s.gmask s.cur.core s.me.ctx).toNat) ∧
    (s.sp.mode ≠ .user → rd 0x020 s.me.ptroot ∧ rd 0x021 s.core.tciva ∧ rd 0x022 s.core.tcinv ∧ rd 0x033 s.core.svec ∧ rd 0x034 s.irecv[s.cur.core]) ∧
    (s.sp.mode = .hyp → rd 0x043 s.core.hvec ∧ rd 0x044 s.core.hdeleg) ∧
    (s.sp.mode ≠ .user →
      (d.toNat % 2 = 0 → s.vecReady (.rdsr g 0x030 d) → s.moves (.rdsr g 0x030 d) g .n64 d (fun l => (s.me.lane l).sepc)) ∧
      (s.vecReady (.rdsr g 0x031 d) → s.moves (.rdsr g 0x031 d) g .n32 d (fun l => BitVec.ofNat 64 (s.me.lane l).scause.toNat)) ∧
      (d.toNat % 2 = 0 → s.vecReady (.rdsr g 0x032 d) → s.moves (.rdsr g 0x032 d) g .n64 d (fun l => (s.me.lane l).stval))) ∧
    (s.sp.mode = .hyp →
      (d.toNat % 2 = 0 → s.vecReady (.rdsr g 0x040 d) → s.moves (.rdsr g 0x040 d) g .n64 d (fun l => (s.me.lane l).hepc)) ∧
      (s.vecReady (.rdsr g 0x041 d) → s.moves (.rdsr g 0x041 d) g .n32 d (fun l => BitVec.ofNat 64 (s.me.lane l).hcause.toNat)) ∧
      (d.toNat % 2 = 0 → s.vecReady (.rdsr g 0x042 d) → s.moves (.rdsr g 0x042 d) g .n64 d (fun l => (s.me.lane l).htval))) ∧
    (∀ n ∈ [(0x020 : BitVec 12), 0x021, 0x022, 0x030, 0x031, 0x032, 0x033, 0x034, 0x040, 0x041, 0x042, 0x043, 0x044],
      (s.sp.mode = .user ∨ (s.sp.mode = .sup ∧ 0x040#12 ≤ n)) → exec (.rdsr g n d) s = .next (s.trapAll 3 (Instr.rdsr g n d).firstWord))

/-- R150, R396: `wrsr` of a register that its mode may write changes only the fields that the register's layout marks RW or W1C; a write that R150 ignores has no effect but the PC's advance; any other traps with cause 3 and
the instruction word in STVAL. LEASE and STEALDIST keep their value when R66 and R349 do not take the one written; a write of PFDROP also gives up what the
string's regions had staged for it (R100), and TCINV's ERR bit ignores what is written to it (R95). A write of TCINV that R95 takes puts its invalidation on the agenda: of everything, of a context or of a page, which is always the writer's own context in supervisor
mode. That HCAUSE.INT keeps 0 is the model's choice (log 76). -/
def Obligations.SystemRegisterWrites : Prop :=
  ∀ (s : State) (g : KReg) (a : BitVec 8), a.toNat < 64 →
    let v := s.getS (a.setWidth 6)
    let wr (n : BitVec 12) (r : Str) : Prop := exec (.wrsr 0 n a) s = .next (s.withMe (s.moved 1 r))
    let wc (n : BitVec 12) (f : Core → Core) : Prop := exec (.wrsr 0 n a) s = .next (s.modCore s.cur.core f).moved1
    wr 0x000 { s.me with fz := v.getLsbD 0 } ∧
    wr 0x001 { s.me with fflags := v.setWidth 5, splits := s.me.splits.set s.cur.split { s.sp with t := 0 } } ∧
    wr 0x002 { s.me with rseed := v, lanes := gen 32 (fun l => { s.me.lane l with gen := genSeed v l }) } ∧
    wr 0x005 { s.me with cperr := v &&& 0xF1FFFFFFFFFFFFFF } ∧
    (s.sp.mode ≠ .user → wr 0x003 { s.me with
        pfdrop := v.setWidth 32
        lanes := gen 32 (fun l => { s.me.lane l with urec := { (s.me.lane l).urec with pf := 0 }, srec := { (s.me.lane l).srec with pf := 0 } })
        splits := s.me.splits.map (fun x => { x with pf := [] }), park := s.me.park.map (fun x => { x with pf := [] }) } ∧
      wc 0x015 (fun c => if 1 ≤ v.toNat ∧ v.toNat ≤ 256 then { c with lease := v } else c) ∧
      wc 0x016 (fun c => if v.toNat < 2 ^ 32 ∧ v.extractLsb' 12 4 = 0 ∧ v.extractLsb' 3 5 = 0 ∧ v.extractLsb' 8 4 ≠ 0 ∧ 1 ≤ (v.extractLsb' 0 3).toNat ∧ (v.extractLsb' 0 3).toNat ≤ 3
        then { c with stealdist := v } else c) ∧
      wc 0x021 (fun c => { c with tciva := v &&& 0x01FFFFFFFFFFF000 }) ∧ wc 0x033 (fun c => { c with svec := v &&& 0x01FFFFFFFFFFFFF8 }) ∧
      exec (.wrsr 0 0x034 a) s = .next (State.moved1 { s with irecv := s.irecv.set s.cur.core (((s.irecv[s.cur.core] &&& ~~~v) &&& 0xFFFF000000000000) ||| (v &&& 0x0000FFFF0000001F)) })) ∧
    (s.sp.mode = .hyp → wr 0x020 { s.me with ptroot := v &&& 0xFFF0FFFFFFFFF001 } ∧ wc 0x043 (fun c => { c with hvec := v &&& 0x0000FFFFFFFFFFF8 }) ∧
      wc 0x044 (fun c => { c with hdeleg := v }) ∧
      ∀ n ∈ [(0x004 : BitVec 12), 0x010, 0x011, 0x012, 0x013, 0x014, 0x017], exec (.wrsr 0 n a) s = .next s.moved1) ∧
    (s.sp.mode ≠ .user → a.toNat % 2 = 0 → s.vecReady (.wrsr g 0x030 a) → ∃ u, exec (.wrsr g 0x030 a) s = .next u ∧ s.Past u 1 ∧ s.SameRegs u ∧ u.mem = s.mem ∧ u.scr = s.scr ∧
      ∀ l < 32, u.me.lane l = if (s.active g).has l = true then { s.me.lane l with sepc := s.opnd .n64 a l } else s.me.lane l) ∧
    (s.sp.mode ≠ .user → a.toNat % 2 = 0 → s.vecReady (.wrsr g 0x032 a) → ∃ u, exec (.wrsr g 0x032 a) s = .next u ∧ s.Past u 1 ∧ s.SameRegs u ∧ u.mem = s.mem ∧ u.scr = s.scr ∧
      ∀ l < 32, u.me.lane l = if (s.active g).has l = true then { s.me.lane l with stval := s.opnd .n64 a l } else s.me.lane l) ∧
    (s.sp.mode = .hyp → a.toNat % 2 = 0 → s.vecReady (.wrsr g 0x040 a) → ∃ u, exec (.wrsr g 0x040 a) s = .next u ∧ s.Past u 1 ∧ s.SameRegs u ∧ u.mem = s.mem ∧ u.scr = s.scr ∧
      ∀ l < 32, u.me.lane l = if (s.active g).has l = true then { s.me.lane l with hepc := s.opnd .n64 a l } else s.me.lane l) ∧
    (s.sp.mode = .hyp → a.toNat % 2 = 0 → s.vecReady (.wrsr g 0x042 a) → ∃ u, exec (.wrsr g 0x042 a) s = .next u ∧ s.Past u 1 ∧ s.SameRegs u ∧ u.mem = s.mem ∧ u.scr = s.scr ∧
      ∀ l < 32, u.me.lane l = if (s.active g).has l = true then { s.me.lane l with htval := s.opnd .n64 a l } else s.me.lane l) ∧
    (s.sp.mode ≠ .user → s.vecReady (.wrsr g 0x031 a) → ∃ u, exec (.wrsr g 0x031 a) s = .next u ∧ s.Past u 1 ∧ s.SameRegs u ∧ u.mem = s.mem ∧ u.scr = s.scr ∧
      ∀ l < 32, u.me.lane l = if (s.active g).has l = true then { s.me.lane l with scause := s.getV a l &&& 0x800000FF } else s.me.lane l) ∧
    (s.sp.mode = .hyp → s.vecReady (.wrsr g 0x041 a) → ∃ u, exec (.wrsr g 0x041 a) s = .next u ∧ s.Past u 1 ∧ s.SameRegs u ∧ u.mem = s.mem ∧ u.scr = s.scr ∧
      ∀ l < 32, u.me.lane l = if (s.active g).has l = true then { s.me.lane l with hcause := s.getV a l &&& 0x400000FF } else s.me.lane l) ∧
    (s.sp.mode ≠ .user → (v.extractLsb' 16 47 = 0 ∧ v.toNat % 4 ≠ 3 ∧ v.toNat / 4 % 4 < 2 →
        ∃ u, exec (.wrsr 0 0x022 a) s = .next u ∧ s.SameRegs u ∧ u.mem = s.mem ∧ u.scr = s.scr ∧ u.sp.pc = s.sp.pc ∧ u.sp.wait = .tcinv (v.getLsbD 2) ∧ u.core.tcinv = v &&& 0xFFFF ∧
          (let dev := v.getLsbD 2
           let ctx : BitVec 12 := if s.sp.mode = .sup then s.me.ptroot.extractLsb' 52 12 else v.extractLsb' 4 12
           u.agenda = (if v.toNat % 4 = 2 then Ev.tcinvPage s.cur.core dev ctx
             else if v.toNat % 4 = 1 ∨ s.sp.mode = .sup then Ev.tcinvCtx s.cur.core dev ctx else Ev.tcinvAll s.cur.core dev) :: s.agenda)) ∧
      (¬(v.extractLsb' 16 47 = 0 ∧ v.toNat % 4 ≠ 3 ∧ v.toNat / 4 % 4 < 2) → wc 0x022 (fun c => { c with tcinv := c.tcinv ||| 0x8000000000000000 }))) ∧
    (∀ n ∈ [(0x003 : BitVec 12), 0x015, 0x016, 0x020, 0x021, 0x022, 0x030, 0x031, 0x032, 0x033, 0x034, 0x040, 0x041, 0x042, 0x043, 0x044, 0x004, 0x010, 0x011, 0x012, 0x013, 0x014, 0x017],
      (s.sp.mode = .user ∨ (s.sp.mode = .sup ∧ (0x040#12 ≤ n ∨ n = 0x020 ∨ n ∈ [(0x004 : BitVec 12), 0x010, 0x011, 0x012, 0x013, 0x014, 0x017]))) →
      exec (.wrsr g n a) s = .next (s.trapAll 3 (Instr.wrsr g n a).firstWord))

/-- R380 to R384, R402: every lane of a whole split trapping at its PC goes to the destination of R380: the record registers take the PC, the cause with PS and the value, the block is kept for R460, the lane's region of the trapping mode is
marked for replay, and the lanes stand as a new split in X's slot at SVEC or HVEC. SVEC is read as a virtual address, bit 56 extended (R84, R379). In hypervisor mode it is a double trap,
reported with its slot and lanes, and no record is written. R381, R382: where some lanes trap, each has its own cause and value written for its own destination, the lanes left in X stand at the word after, or at the instruction if it is a commit
point, and the trap split takes a free slot, or X's slot with X parked; where lanes go to both destinations, the hypervisor's split is placed first. R445 and log 54: a double trap of the boot string stops its core and fails the boot beside the context fault of kind 1;
that both happen is the model's reading. -/
def Obligations.TrapEntry : Prop :=
  ∀ (s : State) (code : Nat) (tval : W64), code < 256 → s.sp.e ≠ 0 → s.sp.e = s.sp.m → s.sp.stack = [] → code ≠ 10 → code ≠ 11 →
    let u := s.trapAll code tval
    let toSup := s.sp.mode = .user ∧ code < 64 ∧ s.core.hdeleg.getLsbD code = true
    (s.sp.mode ≠ .hyp → s.SameRegs u ∧ u.mem = s.mem ∧ u.scr = s.scr ∧ u.agenda = s.agenda ∧ u.me.fflags = s.me.fflags ∧
      u.sp.m = s.sp.m ∧ u.sp.e = s.sp.m ∧ u.sp.stack = [] ∧ u.sp.t = 0 ∧ u.sp.enter = true ∧ u.sp.wait = .none ∧
      (toSup → u.sp.pc = (s.core.svec.setWidth 57).signExtend 64 ∧ u.sp.mode = .sup) ∧ (¬toSup → u.sp.pc = s.core.hvec ∧ u.sp.mode = .hyp) ∧
      (∀ j : SplitId, j ≠ s.cur.split → u.me.splits[j] = s.me.splits[j]) ∧ u.me.park = s.me.park ∧
      (∀ l < 32, s.sp.m.has l = false → u.me.lane l = s.me.lane l) ∧
      (∀ l < 32, s.sp.m.has l = true →
        (toSup → (u.me.lane l).sepc = s.sp.pc ∧ (u.me.lane l).scause = BitVec.ofNat 32 code ∧ (u.me.lane l).stval = tval ∧
          (u.me.lane l).sblk = s.sp.blk ∧ (u.me.lane l).hepc = (s.me.lane l).hepc) ∧
        (¬toSup → (u.me.lane l).hepc = s.sp.pc ∧
          (u.me.lane l).hcause = BitVec.ofNat 32 (code + if s.sp.mode = .sup then 2 ^ 30 else 0) ∧ (u.me.lane l).htval = tval ∧
          (u.me.lane l).hblk = s.sp.blk ∧ (u.me.lane l).sepc = (s.me.lane l).sepc) ∧
        (s.sp.mode = .user → (u.me.lane l).urec.mark = true ∧ (u.me.lane l).urec.fpc = s.sp.pc) ∧
        (s.sp.mode = .sup → (u.me.lane l).srec.mark = true ∧ (u.me.lane l).srec.fpc = s.sp.pc))) ∧
    (s.sp.mode = .hyp → u.agenda = .contextFault s.me.ctx 1 :: s.agenda ∧ u.mem = s.mem ∧ u.me = s.me ∧ .doubleTrap s.cur.core s.cur.slot s.sp.e ∈ u.reports ∧
      (s.me.launch = none → u.core.stopped = true ∧ u.bootFailed = true) ∧ (s.me.launch ≠ none → u.cores = s.cores)) ∧
    (∀ (ts : List Trap) (n : Nat), ts ≠ [] → (ts.map (·.lane)).Nodup → (∀ r ∈ ts, r.lane < 32 ∧ s.sp.m.has r.lane = true ∧ r.code < 256 ∧ r.code ≠ 10 ∧ r.code ≠ 11) →
      s.sp.mode ≠ .hyp →
      let L := Mask.ofLanes (ts.map (·.lane))
      s.sp.m &&& ~~~L ≠ 0 →
      let sup (r : Trap) : Prop := s.sp.mode = .user ∧ r.code < 64 ∧ s.core.hdeleg.getLsbD r.code = true
      let made (y : Split) (m : Mask) (h : Bool) : Prop := y.m = m ∧ y.e = m ∧ y.stack = [] ∧ y.t = 0 ∧ y.enter = true ∧ y.wait = .none ∧
        (if h then y.pc = s.core.hvec ∧ y.mode = .hyp else y.pc = (s.core.svec.setWidth 57).signExtend 64 ∧ y.mode = .sup)
      let rest (pc : W64) (x : Split) : Prop := x.m = s.sp.m &&& ~~~L ∧ x.e = s.sp.m &&& ~~~L ∧ x.pc = pc ∧ x.mode = s.sp.mode ∧ x.stack = [] ∧ x.t = s.sp.t ∧ x.blk = s.sp.blk ∧ x.wait = .none
      ∀ v ∈ [(s.trapSome n ts, s.sp.pc + BitVec.ofNat 64 (8 * n)), (s.trapHere ts, s.sp.pc)],
        s.SameRegs v.1 ∧ v.1.mem = s.mem ∧ v.1.scr = s.scr ∧ v.1.agenda = s.agenda ∧ v.1.me.fflags = s.me.fflags ∧
        (∀ l < 32, L.has l = false → v.1.me.lane l = s.me.lane l) ∧
        (∀ r ∈ ts, let x := v.1.me.lane r.lane
          (sup r → x.sepc = s.sp.pc ∧ x.scause = BitVec.ofNat 32 r.code ∧ x.stval = r.tval ∧ x.sblk = s.sp.blk ∧ x.hepc = (s.me.lane r.lane).hepc) ∧
          (¬sup r → x.hepc = s.sp.pc ∧ x.hcause = BitVec.ofNat 32 (r.code + if s.sp.mode = .sup then 2 ^ 30 else 0) ∧ x.htval = r.tval ∧ x.hblk = s.sp.blk ∧
            x.sepc = (s.me.lane r.lane).sepc) ∧
          (s.sp.mode = .user → x.urec.mark = true ∧ x.urec.fpc = s.sp.pc) ∧ (s.sp.mode = .sup → x.srec.mark = true ∧ x.srec.fpc = s.sp.pc)) ∧
        (∀ h : Bool, (∀ r ∈ ts, if h then ¬sup r else sup r) →
          (∀ j, s.me.freeSlot = some j → made (v.1.me.splits[j]) L h ∧ rest v.2 v.1.sp ∧ v.1.me.park = s.me.park ∧
            ∀ i : SplitId, i ≠ j → i ≠ s.cur.split → v.1.me.splits[i] = s.me.splits[i]) ∧
          (s.me.freeSlot = none → made v.1.sp L h ∧ (∃ x, v.1.me.park = s.me.park ++ [x] ∧ rest v.2 x) ∧
            ∀ i : SplitId, i ≠ s.cur.split → v.1.me.splits[i] = s.me.splits[i])) ∧
        (∀ (H S : List Trap) (j k : SplitId), (∀ r, r ∈ H ↔ r ∈ ts ∧ ¬sup r) → (∀ r, r ∈ S ↔ r ∈ ts ∧ sup r) → H ≠ [] → S ≠ [] → j < k →
          (∀ i : SplitId, (s.me.splits[i]).m = 0 → j ≤ i) → (∀ i : SplitId, (s.me.splits[i]).m = 0 → i ≠ j → k ≤ i) → (s.me.splits[j]).m = 0 → (s.me.splits[k]).m = 0 →
          made (v.1.me.splits[j]) (Mask.ofLanes (H.map (·.lane))) true ∧ made (v.1.me.splits[k]) (Mask.ofLanes (S.map (·.lane))) false ∧ rest v.2 v.1.sp))

/-- R393, R394: `sys` in user mode and `hyp` in supervisor mode commit the region and take each active lane to its destination with the address of the next word, the cause and n in its records, without a mark for replay; the
other lanes go on at that word, and with no active lane nothing is done. In any other mode they trap as R393 says. -/
def Obligations.SystemCalls : Prop :=
  ∀ (s : State) (g : KReg) (n : BitVec 16),
    let act := s.active g
    (s.sp.mode = .user → act = 0 → exec (.sys g n) s = .next s.moved1) ∧ (s.sp.mode = .sup → act = 0 → exec (.hyp g n) s = .next s.moved1) ∧
    (s.sp.mode = .user → act ≠ 0 → ∃ u, exec (.sys g n) s = .next u ∧ s.SameRegs u ∧ u.mem = s.mem ∧ u.scr = s.scr ∧
      u.me.fflags = s.me.fflags ||| s.sp.t ∧
      (∃ j : SplitId, let y := u.me.splits[j]; y.pc = (s.core.svec.setWidth 57).signExtend 64 ∧ y.m = act ∧ y.e = act ∧ y.mode = .sup ∧ y.stack = [] ∧ y.t = 0 ∧ y.enter = true) ∧
      ∀ l < 32, if act.has l = true then (u.me.lane l).sepc = s.sp.pc + 8 ∧ (u.me.lane l).scause = 10 ∧ (u.me.lane l).stval = n.setWidth 64 ∧
        (u.me.lane l).urec.mark = (if s.sp.e.has l then false else (s.me.lane l).urec.mark)
        else (u.me.lane l).sepc = (s.me.lane l).sepc ∧ (u.me.lane l).scause = (s.me.lane l).scause ∧ (u.me.lane l).stval = (s.me.lane l).stval) ∧
    (s.sp.mode = .sup → act ≠ 0 → ∃ u, exec (.hyp g n) s = .next u ∧ s.SameRegs u ∧ u.mem = s.mem ∧ u.scr = s.scr ∧
      u.me.fflags = s.me.fflags ||| s.sp.t ∧
      (∃ j : SplitId, let y := u.me.splits[j]; y.pc = s.core.hvec ∧ y.m = act ∧ y.e = act ∧ y.mode = .hyp ∧ y.stack = [] ∧ y.t = 0 ∧ y.enter = true) ∧
      ∀ l < 32, if act.has l = true then (u.me.lane l).hepc = s.sp.pc + 8 ∧ (u.me.lane l).hcause = 11 + 2 ^ 30 ∧ (u.me.lane l).htval = n.setWidth 64
        else (u.me.lane l).hepc = (s.me.lane l).hepc ∧ (u.me.lane l).hcause = (s.me.lane l).hcause ∧ (u.me.lane l).htval = (s.me.lane l).htval) ∧
    (s.sp.mode ≠ .user → exec (.sys g n) s = .next (s.trapAll 1 (Instr.sys g n).firstWord)) ∧
    (s.sp.mode = .user → exec (.hyp g n) s = .next (s.trapAll 2 (Instr.hyp g n).firstWord)) ∧
    (s.sp.mode = .hyp → exec (.hyp g n) s = .next (s.trapAll 1 (Instr.hyp g n).firstWord))

/-- R386, R393, R395: `sret` and `hret` by a split with E = M and an empty stack whose lanes share one return address take all of them there in the mode returned to, in a new region, when no other split stands there and no mark asks for a replay;
their regions' staged flags are committed with the split's (R201); otherwise than with E = M and an empty stack they trap with cause 7 (that STVAL is 0 then is the model's choice, log 26). R403 to R405: lanes whose marked records name their return PC stand at RENTRY under RBLK instead, with GEN, the allotment and
the values of VSTATE that had been released given back and what their region had staged discarded; a replay of the task's first region stages its operands again. In the wrong mode they trap as R393 says. `wfi` passes once an enabled source is pending, waits until then, and is privileged. -/
def Obligations.Returns : Prop :=
  ∀ (s : State) (p b : W64) (hy : Bool) (ps : Bool),
    let i : Instr := if hy then .hret else .sret
    let mode : Mode := if hy && ps then .sup else .user
    (s.sp.mode = (if hy then .hyp else .sup) → s.sp.e = s.sp.m → s.sp.m ≠ 0 → s.sp.stack = [] →
      (∀ l < 32, s.sp.m.has l = true →
        (if hy then (s.me.lane l).hepc = p ∧ (s.me.lane l).hblk = b ∧ (s.me.lane l).hcause.getLsbD 30 = ps else (s.me.lane l).sepc = p ∧ (s.me.lane l).sblk = b) ∧
        (if mode = .user then (s.me.lane l).urec.mark else (s.me.lane l).srec.mark) = false) →
      (∀ j : SplitId, j ≠ s.cur.split → ¬((s.me.splits[j]).m ≠ 0 ∧ (s.me.splits[j]).mode = mode ∧ (s.me.splits[j]).pc = p)) →
      (∀ x ∈ s.me.park, ¬(x.mode = mode ∧ x.pc = p)) →
      ∃ u, exec i s = .next u ∧ s.SameRegs u ∧ u.mem = s.mem ∧ u.scr = s.scr ∧
        (∀ n < 5, u.me.fflags.getLsbD n = true ↔ s.me.fflags.getLsbD n = true ∨ s.sp.t.getLsbD n = true ∨
          ∃ l < 32, s.sp.m.has l = true ∧ (if mode = .user then (s.me.lane l).urec.t else (s.me.lane l).srec.t).getLsbD n = true) ∧
        (∃ j : SplitId, let y := u.me.splits[j]; y.pc = p ∧ y.m = s.sp.m ∧ y.e = s.sp.m ∧ y.mode = mode ∧ y.stack = [] ∧ y.t = 0 ∧ y.blk = b ∧ y.wait = .none) ∧
        ∀ l < 32, s.sp.m.has l = true → (if mode = .user then (u.me.lane l).urec.rentry = p ∧ (u.me.lane l).urec.mark = false
          else (u.me.lane l).srec.rentry = p ∧ (u.me.lane l).srec.mark = false)) ∧
    (s.sp.mode = (if hy then .hyp else .sup) → s.sp.e = s.sp.m → s.sp.m ≠ 0 → s.sp.stack = [] → ∀ (at_ : W64),
      let recOf (x : Lane) : Region := if mode = .user then x.urec else x.srec
      (∀ l < 32, s.sp.m.has l = true →
        (if hy then (s.me.lane l).hepc = p ∧ (s.me.lane l).hcause.getLsbD 30 = ps else (s.me.lane l).sepc = p) ∧
        (recOf (s.me.lane l)).mark = true ∧ (recOf (s.me.lane l)).fpc = p ∧ (recOf (s.me.lane l)).rentry = at_ ∧ (recOf (s.me.lane l)).rblk = b) →
      (∀ j : SplitId, j ≠ s.cur.split → ¬((s.me.splits[j]).m ≠ 0 ∧ (s.me.splits[j]).mode = mode ∧ (s.me.splits[j]).pc = at_)) →
      (∀ x ∈ s.me.park, ¬(x.mode = mode ∧ x.pc = at_)) →
      ∃ u, exec i s = .next u ∧ u.cur = s.cur ∧ u.me.sreg = s.me.sreg ∧ u.me.kreg = s.me.kreg ∧ u.mem = s.mem ∧ u.scr = s.scr ∧ u.me.fflags = s.me.fflags ||| s.sp.t ∧
        (∃ j : SplitId, let y := u.me.splits[j]; y.pc = at_ ∧ y.m = s.sp.m ∧ y.e = s.sp.m ∧ y.mode = mode ∧ y.stack = [] ∧ y.t = 0 ∧ y.blk = b ∧ y.wait = .none) ∧
        s.me.allot ≤ u.me.allot ∧ (u.me.allot = s.me.allot ∨ ∃ l < 32, s.sp.m.has l = true ∧ u.me.allot = (recOf (s.me.lane l)).allot) ∧
        (∀ l < 32, s.sp.m.has l = true →
          let r := recOf (s.me.lane l)
          (recOf (u.me.lane l)).mark = false ∧ (recOf (u.me.lane l)).rentry = at_ ∧ (recOf (u.me.lane l)).t = 0 ∧ (u.me.lane l).gen = r.gen ∧ r.allot ≤ u.me.allot ∧
          ∀ k ∈ s.me.kept, k.mode = mode → k.reg < 256 → k.lanes.has l = true → r.vstate.getLsbD k.reg = true →
            (∀ k' ∈ s.me.kept, k'.mode = mode → k'.reg = k.reg → k'.lanes.has l = true → k' = k) →
            u.getV (BitVec.ofNat 8 k.reg) l = k.v.toArray.getD l 0 ∧ u.me.hasValue (Mask.ofLanes [l]) k.reg) ∧
        (mode = .user → (∃ l < 32, s.sp.m.has l = true ∧ (s.me.lane l).urec.first = true) → ∀ g, s.me.staging = some g → u.me.st = .staging)) ∧
    (s.sp.mode = (if hy then .hyp else .sup) → (s.sp.stack ≠ [] ∨ s.sp.e ≠ s.sp.m) → exec i s = .next (s.trapAll 7 0)) ∧
    (s.sp.mode = .user → exec i s = .next (s.trapAll 2 i.firstWord) ∧ exec .wfi s = .next (s.trapAll 2 Instr.wfi.firstWord)) ∧
    (s.sp.mode = .hyp → exec .sret s = .next (s.trapAll 1 Instr.sret.firstWord)) ∧
    (s.sp.mode = .sup → exec .hret s = .next (s.trapAll 2 Instr.hret.firstWord)) ∧
    (s.sp.mode ≠ .user → (s.irecv[s.cur.core]).extractLsb' 48 16 &&& (s.irecv[s.cur.core]).extractLsb' 32 16 ≠ 0 → exec .wfi s = .next s.moved1) ∧
    (s.sp.mode ≠ .user → (s.irecv[s.cur.core]).extractLsb' 48 16 &&& (s.irecv[s.cur.core]).extractLsb' 32 16 = 0 →
      exec .wfi s = .next (s.waitMe .wfi))

/-- R338, R339, R343, R362: `spawn` and `spawnf` of a manifest image that passes its checks put its copy, with words 1 and 2 replaced, at the hot end of the core's serai and raise the launch's live count; `spawnf` first makes the future
ready and returns its PHASE. An image with a reserved bit or an unaligned ENTRY traps with cause 40; a full serai without an overflow queue makes the split wait. `join` of `spawnf`'s future is under `TaskEnd`. -/
def Obligations.TaskSpawn : Prop :=
  ∀ (s q : State) (sc : Scope) (sp : Bool) (d a b : SReg) (i : Fin 64) (bs : List Byte),
    s.me.launch = some i → s.ManifestAt sp (s.getS a) q bs → s.Checked q →
    let bad := (wordAt bs 0).extractLsb' 57 7 ≠ 0 ∨ (wordAt bs 0).extractLsb' 0 3 ≠ 0
    let word1 (fv : Nat) : W64 := BitVec.ofNat 64 (sc.code.toNat * 2 ^ 61 + fv * 2 ^ 60 + i.val * 2 ^ 54)
    let room (r : State) : Prop := r.core.serai.length < 512
    (bad → exec (.spawn sc sp a) s = .next (q.trapAll 40 (s.getS a)) ∧ exec (.spawnf sc sp d a b) s = .next (q.trapAll 40 (s.getS a))) ∧
    (¬bad → room q → q.released sc = true → ∃ u, exec (.spawn sc sp a) s = .next u ∧ s.Past u 1 ∧ s.Commits u ∧ s.SameRegs u ∧ u.mem = q.mem ∧ u.scr = q.scr ∧
      (∃ e : SEnt, u.core.serai = e :: q.core.serai ∧ e.ctx = s.me.ctx ∧ e.launch = i ∧
        e.bytes = bs.take 8 ++ leBytes 8 (word1 0).toNat ++ leBytes 8 0 ++ bs.drop 24) ∧
      u.launches[i].live = q.launches[i].live + 1) ∧
    (¬bad → ¬room q → (q.launches[i].ovf && (q.bazaar[q.launches[i].bq]).room) = false → exec (.spawn sc sp a) s = .next (q.waitMe .push)) ∧
    (∀ (r : State) (p : Place), ¬bad → q.barCheck q.who false (s.getS b) = (r, .ok p) → q.Checked r → placeRemote p = false → r.Inv → placeFits p → room r → r.released sc = true →
      let ph := (r.barWord p 0).extractLsb' 56 8
      ∃ u, exec (.spawnf sc sp d a b) s = .next u ∧ s.Past u 1 ∧ s.Commits u ∧
        u.me.sreg = s.me.sreg.set d.toFin (ph.setWidth 64) ∧ u.me.kreg = s.me.kreg ∧ u.me.vreg = s.me.vreg ∧
        u.barWord p 0 = BitVec.ofNat 64 (ph.toNat * 2 ^ 56 + 2 ^ 28) ∧ u.barWord p 1 = BitVec.ofNat 64 (2 ^ 28) ∧ u.barWord p 2 = 0 ∧ r.SameBut u p 24 ∧
        (∃ e : SEnt, u.core.serai = e :: r.core.serai ∧ e.ctx = s.me.ctx ∧ e.launch = i ∧
          e.bytes = bs.take 8 ++ leBytes 8 (word1 1).toNat ++ leBytes 8 ((s.getS b).extractLsb' 0 57).toNat ++ bs.drop 24) ∧
        u.launches[i].live = r.launches[i].live + 1)

/-- R363 to R365, R367, R368: `join` returns RESULT once the future's PHASE differs from its operand and waits until then, held while stores that a far `done` has still to fence wait (R327); `done` of a string of one split with no outstanding operation stores RESULT and arrives at its future, if it
has one, then empties its slot, counts the task and lowers the live count; `yield` takes a new age, and with SPILL gives up its slot where its string is spilled; `stlpause` and `stlresume` close and open the serai; `pdist` returns a distance class. That a `done` of a split string traps with STVAL 0 (log 26), and which values the place tokens and the tokens
of the steal ring have (log 4), are the model's choices. -/
def Obligations.TaskEnd : Prop :=
  ∀ (s : State) (sc : Scope) (d a b : SReg),
    (∀ (q : State) (p : Place), s.barCheck s.who false (s.getS a) = (q, .ok p) → placeRemote p = false → s.Checked q →
      (∀ x, s.sp.wait ≠ .passed x) →
      ((q.barWord p 0).extractLsb' 56 8 ≠ (s.getS b).setWidth 8 → q.loadsBack = true →
        (∀ x ∈ q.dones, x.place = p → x.scope.code.toNat < distClass s.cur.core x.core → ∀ y ∈ q.pend, y.core ≠ x.core) → ∃ u, exec (.join sc d a b) s = .next u ∧ s.Past u 1 ∧
        u.me.sreg = s.me.sreg.set d.toFin (q.barWord p 2) ∧ u.me.kreg = s.me.kreg ∧ u.me.vreg = s.me.vreg ∧ u.mem = q.mem ∧ u.scr = q.scr) ∧
      ((q.barWord p 0).extractLsb' 56 8 = (s.getS b).setWidth 8 → ∃ u, exec (.join sc d a b) s = .next u ∧ s.SameRegs u ∧
        u.sp.pc = s.sp.pc ∧ u.sp.wait = .barrier p ((s.getS b).setWidth 8) ∧ u.mem = q.mem ∧ u.scr = q.scr)) ∧
    (∀ p : Place, s.sp.wait = .passed p → s.loadsBack = true →
      (∀ x ∈ s.dones, x.place = p → x.scope.code.toNat < distClass s.cur.core x.core → ∀ y ∈ s.pend, y.core ≠ x.core) →
      ∃ u, exec (.join sc d a b) s = .next u ∧ s.Past u 1 ∧ u.sp.wait = .none ∧
        u.me.sreg = s.me.sreg.set d.toFin (s.barWord p 2) ∧ u.me.kreg = s.me.kreg ∧ u.me.vreg = s.me.vreg ∧ u.mem = s.mem ∧ u.scr = s.scr) ∧
    (s.me.single = false → exec (.done sc a) s = .next (s.trapAll 7 0)) ∧
    (s.me.single = true → s.me.ops ≠ [] → (∃ o ∈ s.me.ops, o.done = false) → exec (.done sc a) s = .next s.holdMe) ∧
    (s.me.single = true → s.me.ops = [] → s.me.fut = none → s.released sc = true →
      ∃ u, exec (.done sc a) s = .next u ∧ ((s.me.launch = none ∨ ∃ i, s.me.launch = some i ∧ 1 < s.launches[i].live) → u.mem = s.mem ∧ u.scr = s.scr ∧
        u.strAt s.cur.core s.cur.slot = Str.empty ∧ (∀ k, k ≠ s.cur.slot → u.strAt s.cur.core k = s.strAt s.cur.core k) ∧
        ∀ i, s.me.launch = some i → (u.launches[i]).live = (s.launches[i]).live - 1 ∧ (u.launches[i]).tasks = min ((s.launches[i]).tasks + 1) (2 ^ 32 - 1))) ∧
    (∀ (fut : W64) (i : Fin 64) (q : State) (p : Place), s.me.single = true → s.me.ops = [] → s.me.fut = some fut → s.me.launch = some i → 1 < (s.launches[i]).live →
      s.barCheck s.who false fut = (q, .ok p) → s.Checked q → q.launches = s.launches → placeRemote p = false → q.Inv → placeFits p → q.released sc = true →
      ∃ u, exec (.done sc a) s = .next u ∧ u.strAt s.cur.core s.cur.slot = Str.empty ∧ u.barWord p 2 = s.getS a ∧
        u.barWord p 0 = (barApply (q.barWord p 0) (q.barWord p 1) 1 0 0).1 ∧ q.SameBut u p 24 ∧ (∃ x ∈ u.dones, x.place = p ∧ x.scope = sc ∧ x.core = s.cur.core) ∧
        (u.launches[i]).live = (s.launches[i]).live - 1 ∧ (u.launches[i]).tasks = min ((s.launches[i]).tasks + 1) (2 ^ 32 - 1)) ∧
    (let stays := s.withMe (s.moved 1 { s.me with age := s.cyc });
      exec (.yield false) s = .next stays ∧
      ((s.core.strs.all (fun t => t.present) = false ∨ s.takeable s.cur.core s.cur.core = [] ∨ ∀ i, s.me.launch = some i → (s.launches[i]).freeRec = none) → exec (.yield true) s = .next stays) ∧
      (∀ u i, s.core.strs.all (fun t => t.present) = true → s.takeable s.cur.core s.cur.core ≠ [] → s.me.launch = some i → (s.launches[i]).freeRec ≠ none →
        stays.spillStr s.cur.core s.cur.slot true = some u → (u.strAt s.cur.core s.cur.slot).present = false → exec (.yield true) s = .next u)) ∧
    (let others := s.core.closed.filter (fun x => x.1 != s.me.ctx);
      exec .stlpause s = .next (s.modCore s.cur.core (fun x => { x with closed := (s.me.ctx, s.cyc) :: others })).moved1 ∧
      exec .stlresume s = .next (s.modCore s.cur.core (fun x => { x with closed := others })).moved1) ∧
    (let t : W32 := (s.getS a).setWidth 32;
      (∀ c : CoreId, s.placeToken s.me.ctx c = t → s.occupies c s.me.ctx = true →
        let n := if c = s.cur.core then 0 else if c.val / 4 = s.cur.core.val / 4 then 1 else if dieOf c = dieOf s.cur.core then 2 else 3
        exec (.pdist d a) s = .next (s.wroteS d (BitVec.ofNat 64 n) 1)) ∧
      (∀ c : CoreId, s.placeToken s.me.ctx c = t → s.occupies c s.me.ctx = false → exec (.pdist d a) s = .next (s.wroteS d 5 1)) ∧
      ((∀ c : CoreId, s.placeToken s.me.ctx c ≠ t) →
        exec (.pdist d a) s = .next (s.wroteS d (if s.ring ≠ none ∧ Config.ringToken t = true then 4 else 5) 1)))

/-- R350, R366: `qpush` and `qpop` return 2 for a queue that the context may not use; `qpush` returns 0 for a full queue and else writes the manifest's copy in the next place of the ring, raises the live count and returns 1; `qpop`
returns 0 for an empty queue and else writes the 128 bytes of the oldest place of the ring at its destination, lowers the live count and returns 1. Each commits its region; `qpop`, which acquires, is held while earlier loads of its string are outstanding (R220). Which place is the oldest, and what a place that cannot be
read gives, is the model's choice (log 44). -/
def Obligations.QueueInstructions : Prop :=
  ∀ (s : State) (sc : Scope) (d a b : SReg) (p : Place), scrPeer s.cur.core (s.getS a) = false → s.scrCheck s.cur.core s.me.ctx 128 (s.getS a) = .ok p →
    let mine (j : Fin 16) : Prop := (s.getS b).toNat = j.val ∧ (s.bazaar[j]).w0.getLsbD 63 = true ∧ (s.bazaar[j]).w1.extractLsb' 52 12 = s.me.ctx
    let bs := s.placeGet p 128
    let ring (j : Fin 16) (n : Nat) : Phys :=
      s.decodePa (((s.bazaar[j]).w0.extractLsb' 12 36).toNat * 4096 + 128 * (((s.bazaar[j]).head + n) % 2 ^ ((s.bazaar[j]).w1.extractLsb' 0 5).toNat))
    let gave (u : State) (v : W64) : Prop := s.Past u 1 ∧ s.Commits u ∧ u.me.sreg = s.me.sreg.set d.toFin v ∧ u.me.kreg = s.me.kreg ∧ u.me.vreg = s.me.vreg
    let idle (i : Instr) (v : W64) : Prop := ∃ u, exec i s = .next u ∧ gave u v ∧ u.mem = s.mem ∧ u.scr = s.scr ∧ u.bazaar = s.bazaar ∧ u.launches = s.launches
    ((∀ j, ¬mine j) → idle (.qpop sc d a b) 2) ∧
    (∀ j, mine j → s.loadsBack = false → exec (.qpop sc d a b) s = .next s.holdMe) ∧
    (∀ j, mine j → s.loadsBack = true → (s.bazaar[j]).q = [] → idle (.qpop sc d a b) 0) ∧
    (∀ j e r bytes, mine j → s.loadsBack = true → (s.bazaar[j]).q = e :: r → 1 < (s.launches[e.launch]).live →
      bytes = (match ring j 0 with | .loc l => if s.poisoned (lineOf l) = true then e.bytes else s.peekN l 128 | _ => e.bytes) →
      bytes.length = 128 → s.Inv → (∀ c o, p = .scr c o → o + 128 ≤ 2 ^ 22) →
      ∃ u, exec (.qpop sc d a b) s = .next u ∧ gave u 1 ∧ u.mem = s.mem ∧ u.placeGet p 128 = bytes ∧ s.SameBut u p 128 ∧
        u.bazaar = s.bazaar.set j { s.bazaar[j] with q := r, head := ((s.bazaar[j]).head + 1) % 2 ^ ((s.bazaar[j]).w1.extractLsb' 0 5).toNat } ∧ (u.launches[e.launch]).live = (s.launches[e.launch]).live - 1) ∧
    (∀ i : Fin 64, s.me.launch = some i → s.scrPoison p 128 = false → (wordAt bs 0).extractLsb' 57 7 = 0 → (wordAt bs 0).extractLsb' 0 3 = 0 →
      ((∀ j, ¬mine j) → idle (.qpush sc d a b) 2) ∧
      (∀ j, mine j → s.released .pkg = true → s.released sc = true →
        (2 ^ ((s.bazaar[j]).w1.extractLsb' 0 5).toNat ≤ (s.bazaar[j]).q.length → idle (.qpush sc d a b) 0) ∧
        ((s.bazaar[j]).q.length < 2 ^ ((s.bazaar[j]).w1.extractLsb' 0 5).toNat → ∃ u, exec (.qpush sc d a b) s = .next u ∧ gave u 1 ∧ u.scr = s.scr ∧
          (u.launches[i]).live = (s.launches[i]).live + 1 ∧
          ∃ e : SEnt, (∀ l, ring j (s.bazaar[j]).q.length = .loc l → s.isMaster (lineOf l) = false → s.lineSealed (lineOf l) = false → s.Inv →
            u.peekN l 128 = e.bytes ∧ ∀ x, (x < l ∨ l + 128 ≤ x) → u.peek x = s.peek x) ∧ u.bazaar = s.bazaar.set j { s.bazaar[j] with q := (s.bazaar[j]).q ++ [e] } ∧ e.ctx = s.me.ctx ∧ e.launch = i ∧
            e.bytes = bs.take 8 ++ leBytes 8 (BitVec.ofNat 64 (sc.code.toNat * 2 ^ 61 + i.val * 2 ^ 54)).toNat ++ leBytes 8 0 ++ bs.drop 24)))

/-- R251 to R263: by a split that is its whole string, `mwld`, `mwsw` and `mmac` put their operation into the array's queue and count it under TL; `mwsw` exchanges AL and SL, `mwld` clears SL, an `mmac` from registers puts them on loan with
the values they hold; R251: the conditions on `mmac`'s geometry, registers, scratchpad operands, memory output and AL, and on `mwld`'s image, trap in the order of its table, each with its cause and value (of several operands that fail one item, the first of OUT, A and C
gives STVAL: log 84); `mrdy` is past at once, `mwait` once the operations that it covers are complete, which ends their loans, or with OPND have read their operands, and `mcnt` returns the counters. Any other split traps with cause 7; with 15 operations counted the split is held. -/
def Obligations.MatrixInstructions : Prop :=
  ∀ (s : State) (wt xt : Ty) (s24 osp add asrc opnd clr : Bool) (sc : Scope) (d b c : SReg) (a : BitVec 8) (n : BitVec 4),
    let a6 : SReg := a.setWidth 6
    let whole := s.me.single = true ∧ s.sp.e = BitVec.allOnes 32 ∧ s.sp.stack = []
    let off (v : W64) : Nat := v.toNat % 2 ^ 22
    let issued (q u : State) (k : TileKind) : Prop := ∃ o : TileOp, u.core.arr = { q.core.arr with queue := q.core.arr.queue ++ [o] } ∧ o.kind = k ∧ o.ran = false ∧
      o.who.uid = s.me.uid ∧ o.who.ptroot = s.me.ptroot ∧ ∃ x ∈ u.me.ops, x.cls = .tl ∧ x.done = false ∧ x.id = o.who.op
    let mm : Instr := .mmac xt sc osp add asrc d a b c
    (¬whole → ∀ i ∈ [Instr.mwld wt s24 d b, .mwsw, mm, .mrdy, .mwait opnd n, .mcnt clr d], exec i s = .next (s.trapAll 7 0)) ∧
    (whole →
      (∀ os, os = (⟨s.getS d, 128, [(0, planeBytes wt s24)]⟩ : ScrOp) :: (if metaBytes wt s24 = 0 then [] else [⟨s.getS b, 16, [(0, metaBytes wt s24)]⟩]) → s.scrOpsFail os none = none →
        (s.me.count .tl = 15 → exec (.mwld wt s24 d b) s = .next s.holdMe) ∧
        (s.me.count .tl < 15 → ∃ u, exec (.mwld wt s24 d b) s = .next u ∧ s.Past u 1 ∧ s.SameRegs u ∧ u.mem = s.mem ∧ u.scr = s.scr ∧ u.me.sl = false ∧ u.me.al = s.me.al ∧
          issued s u (.mwld wt s24 (off (s.getS d)) (off (s.getS b))))) ∧
      (s.me.count .tl < 15 → ∃ u, exec .mwsw s = .next u ∧ s.Past u 1 ∧ s.Commits u ∧ s.SameRegs u ∧ u.mem = s.mem ∧ u.scr = s.scr ∧ u.me.al = s.me.sl ∧ u.me.sl = s.me.al ∧
        issued s u .mwsw) ∧
      exec .mrdy s = .next s.moved1 ∧
      (let geo := s.getS b
       let rows := (geo.extractLsb' 0 8).toNat + 1
       let astr := (geo.extractLsb' 8 16).toNat
       let ostr := (geo.extractLsb' 24 24).toNat
       let regs := rows * (xt.width / 4)
       let outs := (List.range rows).map (fun m => (m * ostr, 4 * colsOf s.core.arr.fmtsAfter.1))
       let os : List ScrOp := (if osp then [⟨s.getS d, 128, outs⟩] else []) ++ (if asrc then [] else [⟨s.getS a6, 16, (List.range rows).map (fun m => (m * astr, 32 * xt.width))⟩]) ++
         (if xt.isBlock then [⟨s.getS c, 16, [(0, 16 * rows)]⟩] else [])
       let va := if osp then none else some (s.getS d)
       let image : List ScrOp := ⟨s.getS d, 128, [(0, planeBytes wt s24)]⟩ :: (if metaBytes wt s24 = 0 then [] else [⟨s.getS b, 16, [(0, metaBytes wt s24)]⟩])
       let bad : Prop := geo.extractLsb' 48 16 ≠ 0 ∨ ostr % 128 ≠ 0 ∨ (asrc = true ∧ (astr ≠ 0 ∨ 32 < rows)) ∨ (asrc = false ∧ astr % 16 ≠ 0)
       let past : Prop := asrc = true ∧ 256 < a.toNat + regs
       (bad → exec mm s = .next (s.trapAll 48 geo)) ∧ (¬bad → past → exec mm s = .next (s.trapAll 48 (BitVec.ofNat 64 (a.toNat + regs - 1)))) ∧
       (¬bad → ¬past → asrc = true → ∀ tv, s.me.allotFail s.sp.e [vA a regs] = some tv → exec mm s = .next (s.trapAll 6 tv)) ∧
       (¬bad → ¬past → (asrc = true → s.me.allotFail s.sp.e [vA a regs] = none) →
         (∀ code tv, s.scrOpsFail os va = some (code, tv) → exec mm s = .next (s.trapAll code tv)) ∧
         (s.scrOpsFail os va = none → ∀ q, let vas := if osp then [] else outs.flatMap (fun e => (List.range (e.2 / 128)).map (fun i => s.getS d + BitVec.ofNat 64 (e.1 + 128 * i)))
           (∀ o code tv, s.outChunks sc vas = (q, .fail o code, tv) → exec mm s = .next (q.trapAll code tv)) ∧
           (∀ ls, s.outChunks sc vas = (q, .ok ls, 0) → s.Checked q → s.me.al = true → exec mm s = .next (q.trapAll 50 0)))) ∧
       (∀ code tv, s.scrOpsFail image none = some (code, tv) → exec (.mwld wt s24 d b) s = .next (s.trapAll code tv))) ∧
      (∀ (os : List ScrOp) (va : Option W64),
        let far (v : W64) : Prop := if s.sp.mode = .hyp ∨ s.me.ptroot.getLsbD 0 = false then 2 ^ 48 ≤ v.toNat else canonical v = false
        (∀ o, os.find? (fun o => scrPeer s.cur.core o.a) = some o → s.scrOpsFail os va = some (48, o.a)) ∧
        ((∀ o ∈ os, scrPeer s.cur.core o.a = false) →
          (∀ o, os.find? (fun o => !scrRange o.a) = some o → s.scrOpsFail os va = some (26, o.a)) ∧
          ((∀ o ∈ os, scrRange o.a = true) →
            (∀ v, va = some v → far v → s.scrOpsFail os va = some (16, v)) ∧ (∀ v, va = some v → ¬far v → v.toNat % 128 ≠ 0 → s.scrOpsFail os va = some (22, v)) ∧
            ((∀ v, va = some v → ¬far v ∧ v.toNat % 128 = 0) →
              (∀ o, os.find? (fun o => o.a.toNat % o.align != 0) = some o → s.scrOpsFail os va = some (22, o.a)) ∧
              ((∀ o ∈ os, o.a.toNat % o.align = 0) →
                (s.scrOpsFail os va = none ↔ ∀ o ∈ os, ∀ e ∈ o.exts, (o.a.extractLsb' 0 22).toNat + e.1 + e.2 ≤ s.partBytes) ∧
                (∀ code tv, s.scrOpsFail os va = some (code, tv) → code = 27 ∧ ∃ o ∈ os, ∃ e ∈ o.exts, s.partBytes < (o.a.extractLsb' 0 22).toNat + e.1 + e.2 ∧
                  tv = o.a + BitVec.ofNat 64 (max e.1 (s.partBytes - (o.a.extractLsb' 0 22).toNat)))))))) ∧
      (∀ (v : W64) (q : State),
        (∀ o code, s.check s.who .contrib 1 v 128 = (q, .fail o code) → s.outChunk sc v = (q, .fail o code)) ∧
        (∀ A l ls, s.check s.who .contrib 1 v 128 = (q, .ok A) → A.lines = l :: ls → A.remote = false → A.reg = none → q.poisoned l = false →
          (q.rangeOf l = none ∨ (∃ r, q.rangeOf l = some r ∧ (r.ending = true ∨ r.fmt ≠ .f32 ∨ r.scope.code.toNat < sc.code.toNat) ∧ (A.sc = false ∨ q.scBusy = false)) →
            s.outChunk sc v = (q, .fail ordRange 49)))) ∧
      ((∀ o ∈ s.me.ops, o.cls = .tl → o.id ∈ s.me.tls.take n.toNat ∨ (opnd = true ∧ o.readDone = true)) →
        exec (.mwait opnd n) s = .next (if opnd then s.moved1
          else s.withMe (s.moved 1 { s.me with loans := s.me.loans.filter (fun x => (s.me.tls.take n.toNat).contains x.2) }))) ∧
      (∀ o ∈ s.me.ops, o.cls = .tl → o.id ∉ s.me.tls.take n.toNat → (opnd = false ∨ o.readDone = false) → exec (.mwait opnd n) s = .next s.holdMe) ∧
      (let w : W64 := s.me.mcnt.nan ++ s.me.mcnt.inf ++ s.me.mcnt.scnan ++ s.me.mcnt.spidx;
        exec (.mcnt false d) s = .next (s.wroteS d w 1) ∧
        ∃ u, exec (.mcnt true d) s = .next u ∧ s.Past u 1 ∧ s.Commits u ∧ u.me.sreg = s.me.sreg.set d.toFin w ∧ u.me.kreg = s.me.kreg ∧ u.me.vreg = s.me.vreg ∧ u.mem = s.mem ∧
          u.scr = s.scr ∧ (s.me.mstage = [] → u.me.mcnt = ⟨0, 0, 0, 0⟩)) ∧
      (∀ (q w : State) (ls : List (Nat × List Tr)),
        let lines := ls.map (·.1)
        let geo := s.getS b
        let rows := (geo.extractLsb' 0 8).toNat + 1
        let astr := (geo.extractLsb' 8 16).toNat
        let ostr := (geo.extractLsb' 24 24).toNat
        let regs := rows * (xt.width / 4)
        let cols := colsOf s.core.arr.fmtsAfter.1
        let outs := (List.range rows).map (fun m => (m * ostr, 4 * cols))
        let os : List ScrOp := (if osp then [⟨s.getS d, 128, outs⟩] else []) ++ (if asrc then [] else [⟨s.getS a6, 16, (List.range rows).map (fun m => (m * astr, 32 * xt.width))⟩]) ++
          (if xt.isBlock then [⟨s.getS c, 16, [(0, 16 * rows)]⟩] else [])
        let chunks := if osp then [] else outs.flatMap (fun e => (List.range (e.2 / 128)).map (fun i => s.getS d + BitVec.ofNat 64 (e.1 + 128 * i)))
        geo.extractLsb' 48 16 = 0 → ostr % 128 = 0 → (asrc = true → astr = 0 ∧ rows ≤ 32 ∧ a.toNat + regs ≤ 256 ∧ s.me.allotFail s.sp.e [vA a regs] = none ∧ s.me.loaned [vA a regs] = []) →
        (asrc = false → astr % 16 = 0) → s.scrOpsFail os (if osp then none else some (s.getS d)) = none → s.outChunks sc chunks = (q, .ok ls, 0) → s.Checked q →
        q.setDirties (distinctTrs (ls.flatMap (·.2))) = (w, .ok) → q.Checked w →
        (∀ l ∈ lines, lineRemote l = false) → s.me.al = false → s.me.count .tl < 15 →
        ∃ u vs, exec mm s = .next u ∧ s.Past u 1 ∧ s.SameRegs u ∧ u.mem = w.mem ∧ u.scr = w.scr ∧
          issued w u (.mmac xt sc osp add asrc (off (s.getS d)) (off (s.getS a6)) (off (s.getS c)) geo vs lines) ∧ (add = true → s.Commits u) ∧ (add = false → u.me.fflags = s.me.fflags) ∧
          (asrc = false → vs = [] ∧ u.me.loans = s.me.loans) ∧
          (asrc = true → vs.length = regs ∧ (∀ j < regs, ∀ l < 32, ((vs.getD j (Vector.replicate 32 0)).toArray.getD l 0) = s.getV (a + BitVec.ofNat 8 j) l) ∧
            ∃ op, u.me.loans = s.me.loans ++ (List.range regs).map (fun j => (a + BitVec.ofNat 8 j, op)))))

/-- R123, R234 to R236, R298, R301 to R303, R306: `cpy` of 1 to 2^26 bytes puts its transfer into the engine's queue and counts it under CP; `chain` takes a free chain context and counts it; `bcmd` sends the command of each active
lane on its way and raises BKN by their number; each commits its region. Where the queue of copies, the chain contexts or a bank's queue is full, or BKN would pass 4,095, the whole string is held (R130, R303); where the CP counter is full, the split (R134). `cpy` of any other length traps with cause 34. With no active lane `bcmd` does nothing (R160). `bwait` waits until BKN is 0 and the string's earlier loads have returned, then returns and clears BKF and commits. -/
def Obligations.EngineInstructions : Prop :=
  ∀ (s : State) (sc : Scope) (dsp ssp bv bsp : Bool) (g : KReg) (d a b c : SReg) (v : VReg),
    let len := s.getS b
    (len = 0 ∨ 2 ^ 26 < len.toNat → exec (.cpy sc dsp ssp bv bsp d a b c) s = .next (s.trapAll 34 len)) ∧
    (∀ (q : State) (bar : Option Place), len ≠ 0 → len.toNat ≤ 2 ^ 26 →
      (if bv then ∃ p, s.barCheck s.who bsp (s.getS c) = (q, .ok p) ∧ bar = some p else q = s ∧ bar = none) → s.Checked q →
      (15 ≤ s.me.count .cp → exec (.cpy sc dsp ssp bv bsp d a b c) s = .next q.holdMe) ∧
      (s.me.count .cp < 15 → 16 ≤ (q.core.convoy.filter (fun t => t.chain.isNone)).length → exec (.cpy sc dsp ssp bv bsp d a b c) s = .next q.holdString) ∧
      (s.me.count .cp < 15 → (q.core.convoy.filter (fun t => t.chain.isNone)).length < 16 → ∃ u, exec (.cpy sc dsp ssp bv bsp d a b c) s = .next u ∧ s.Past u 1 ∧ s.Commits u ∧ s.SameRegs u ∧
        u.mem = q.mem ∧ u.scr = q.scr ∧ ∃ x : Xfer, u.core.convoy = q.core.convoy ++ [x] ∧ x.kind = .copy ∧ x.src = s.getS a ∧ x.dst = s.getS d ∧ x.len = len.toNat ∧ x.ssp = ssp ∧ x.dsp = dsp ∧
          x.bar = bar ∧ x.scope = sc ∧ x.chain = none ∧ x.data = none ∧ x.who.uid = s.me.uid ∧ x.who.ptroot = s.me.ptroot ∧ x.who.mode = s.sp.mode ∧
          ∃ o ∈ u.me.ops, o.cls = .cp ∧ o.done = false ∧ o.id = x.who.op)) ∧
    (∀ (q : State) (p : Place), s.barCheck s.who bsp (s.getS b) = (q, .ok p) → s.Checked q →
      (15 ≤ s.me.count .cp → exec (.chain sc bsp a b) s = .next q.holdMe) ∧
      (s.me.count .cp < 15 → (∀ k : Fin 8, q.core.chains[k] ≠ none) → exec (.chain sc bsp a b) s = .next q.holdString) ∧
      (∀ k : Fin 8, q.core.chains[k] = none → (∀ j : Fin 8, j < k → q.core.chains[j] ≠ none) → s.me.count .cp < 15 → ∃ u, exec (.chain sc bsp a b) s = .next u ∧ s.Past u 1 ∧ s.Commits u ∧
        s.SameRegs u ∧ u.mem = q.mem ∧ u.scr = q.scr ∧ ∃ x : Chain, u.core.chains = q.core.chains.set k (some x) ∧ x.ptr = (s.getS a).toNat ∧ x.idx = [0, 0, 0, 0] ∧ x.bar = p ∧ x.barVa = s.getS b ∧ x.barSp = bsp ∧ x.scope = sc ∧
          x.suspended = false ∧ x.who.uid = s.me.uid ∧ x.who.ptroot = s.me.ptroot ∧ x.who.mode = s.sp.mode ∧ ∃ o ∈ u.me.ops, o.cls = .cp ∧ o.done = false ∧ o.id = x.who.op)) ∧
    (s.vecReady (.bcmd g sc v b) → s.active g = 0 → exec (.bcmd g sc v b) s = .next s.moved1) ∧
    (∀ (q : State) (p : Place) (cmd : Nat → BankCmd) (trs : Nat → List Tr), s.vecReady (.bcmd g sc v b) → s.active g ≠ 0 → s.barCheck s.who false (s.getS b) = (q, .ok p) → s.Checked q →
      (∀ l ∈ (s.active g).lanes, q.bankLane p sc ((s.getV v l).setWidth 64) = (q, .ok (cmd l) (trs l))) →
      let sent (x : DieId × PchId) : List BankCmd := ((s.active g).lanes.map cmd).filter (fun y => y.target == x)
      let room : Prop := (∀ x : DieId × PchId, sent x ≠ [] → (q.abAt x.1 x.2).coming.length + (q.abAt x.1 x.2).queue.length + min (sent x).length 16 ≤ 16) ∧
        s.me.bkn.toNat + (s.active g).lanes.length ≤ 4095
      (¬room → exec (.bcmd g sc v b) s = .next q.holdString) ∧
      ∀ r : State, room → q.setDirties (((s.active g).lanes.flatMap trs).eraseDups) = (r, .ok) → q.Checked r → r.abaci = q.abaci →
      ∃ u, exec (.bcmd g sc v b) s = .next u ∧ s.Past u 1 ∧ s.Commits u ∧ s.SameRegs u ∧ u.mem = r.mem ∧ u.scr = r.scr ∧ u.me.bkn.toNat = s.me.bkn.toNat + (s.active g).lanes.length ∧
        ∀ x : DieId × PchId, (u.abAt x.1 x.2).coming = (q.abAt x.1 x.2).coming ++ sent x ∧ (u.abAt x.1 x.2).queue = (q.abAt x.1 x.2).queue ∧ (u.abAt x.1 x.2).run = (q.abAt x.1 x.2).run) ∧
    (s.me.bkn ≠ 0 → exec (.bwait sc d) s = .next (s.waitMe .bank)) ∧
    (s.me.bkn = 0 → s.loadsBack = false → exec (.bwait sc d) s = .next s.holdMe) ∧
    (s.me.bkn = 0 → s.loadsBack = true → ∃ u, exec (.bwait sc d) s = .next u ∧ s.Past u 1 ∧ s.Commits u ∧ u.me.sreg = s.me.sreg.set d.toFin (s.me.bkf.setWidth 64) ∧ u.me.kreg = s.me.kreg ∧ u.me.vreg = s.me.vreg ∧
      u.me.bkf = 0 ∧ u.mem = s.mem ∧ u.scr = s.scr)

/-- R281, R293 to R296, R435, R436: `vwreg` of a record that passes its checks enters a view under a free handle and returns it, or returns a refusal; `vwdrop` of a view of the context stops its timers and waits for its end; `vwsync`
of one samples its blocks' tags and waits; of a handle that names none both are past at once, `vwsync` with 0. `xscale` and `xsum` of a record within its rules hand it to the collective unit and commit; of another they trap with cause 34; a barrier on another
device is asked for first, and a refusal or timeout traps. That any failed condition of a page gives code 3, a sealed page included, is the model's reading (log 34); which free handle is given is a free value (R294). -/
def Obligations.ViewAndCollectiveIssue : Prop :=
  ∀ (s : State) (sc : Scope) (d a : SReg),
    (∀ (q : State) (bs : List Byte), s.RecordAt (s.getS a) 128 q bs → s.Checked q →
      let ws := (List.range 16).map (wordAt bs)
      let gave (u : State) (x : W64) : Prop := s.Past u 1 ∧ s.Commits u ∧ u.me.sreg = s.me.sreg.set d.toFin x ∧ u.me.kreg = s.me.kreg ∧ u.me.vreg = s.me.vreg
      ((∀ h : Fin 64, q.views[h] ≠ none) → ∃ u, exec (.vwreg d a) s = .next u ∧ gave u (2 ^ 63 + 1) ∧ u.mem = q.mem ∧ u.scr = q.scr ∧ u.views = q.views) ∧
      ((∃ h : Fin 64, q.views[h] = none) → recordBad ws = true → ∃ u, exec (.vwreg d a) s = .next u ∧ gave u (2 ^ 63 + 2) ∧ u.mem = q.mem ∧ u.scr = q.scr ∧ u.views = q.views) ∧
      (∀ (m : State) (va : W64) (code : Nat), (∃ h : Fin 64, q.views[h] = none) → recordBad ws = false → (q.acquire .pkg).viewPages false [(View.ofWords s.me.ctx (gen 11 (fun i => ws.getD i 0))).areas.1] = (m, .fail va code) → s.Checked m →
        ∃ u, exec (.vwreg d a) s = .next u ∧ gave u (2 ^ 63 + 3) ∧ u.mem = m.mem ∧ u.views = m.views) ∧
      (∀ (m e : State) (mp : List PageAt) (va : W64) (code : Nat), (∃ h : Fin 64, q.views[h] = none) → recordBad ws = false →
        let v := View.ofWords s.me.ctx (gen 11 (fun i => ws.getD i 0))
        (q.acquire .pkg).viewPages false [v.areas.1] = (m, .ok mp) → m.viewPages true (v.areas.2.1 ++ v.areas.2.2.1 ++ [v.areas.2.2.2]) = (e, .fail va code) → s.Checked e →
        ∃ u, exec (.vwreg d a) s = .next u ∧ gave u (2 ^ 63 + 3) ∧ u.mem = e.mem ∧ u.views = e.views) ∧
      (∀ (m e : State) (mp ep : List PageAt), (∃ h : Fin 64, q.views[h] = none) → recordBad ws = false →
        let q' := q.acquire .pkg
        let v := View.ofWords s.me.ctx (gen 11 (fun i => ws.getD i 0))
        q'.viewPages false [v.areas.1] = (m, .ok mp) → m.viewPages true (v.areas.2.1 ++ v.areas.2.2.1 ++ [v.areas.2.2.2]) = (e, .ok ep) → s.Checked e → e.views = q.views →
        let lin (as : List (Nat × Nat)) : List (List Nat) := e.linesOf (mp ++ ep) as
        let w : View := { v with mlines := (lin [v.areas.1]).headD [], elines := lin v.areas.2.1, slines := lin v.areas.2.2.1, tlines := (lin [v.areas.2.2.2]).headD [] }
        (∀ code, e.vwregRefused w = some code → ∃ u, exec (.vwreg d a) s = .next u ∧ gave u (BitVec.ofNat 64 (2 ^ 63 + code)) ∧ u.mem = e.mem ∧ u.views = q.views) ∧
        (e.vwregRefused w = none → (∀ l ∈ w.mlines ++ w.elines.flatten ++ w.slines.flatten ++ w.tlines, e.lineFree l = true ∧ e.reachable l = true) →
          ∃ (u : State) (h : Fin 64), exec (.vwreg d a) s = .next u ∧ gave u (BitVec.ofNat 64 h.val) ∧ q.views[h] = none ∧ u.views = q.views.set h (some w)))) ∧
    (let named (h : Fin 64) (v : View) : Prop := s.views[h] = some v ∧ (s.getS a).toNat = h.val ∧ v.ctx = s.me.ctx;
      ((∀ h v, ¬named h v) → (∃ u, exec (.vwdrop a) s = .next u ∧ s.Past u 1 ∧ s.Commits u ∧ s.SameRegs u ∧ u.mem = s.mem ∧ u.scr = s.scr ∧ u.views = s.views) ∧
        (s.released sc = true → ∃ u, exec (.vwsync sc d a) s = .next u ∧ s.Past u 1 ∧ u.me.sreg = s.me.sreg.set d.toFin 0 ∧ u.me.kreg = s.me.kreg ∧ u.me.vreg = s.me.vreg ∧ u.mem = s.mem ∧ u.scr = s.scr)) ∧
      (∀ h v, named h v →
        (∃ u, exec (.vwdrop a) s = .next u ∧ s.SameRegs u ∧ u.mem = s.mem ∧ u.scr = s.scr ∧ u.sp.pc = s.sp.pc ∧ u.sp.wait = .drop h ∧ u.views = s.views.set h (some { v with dropping := true }) ∧
          u.derivs = s.derivs ∧ ∀ x ∈ u.timers, x.1 ≠ h) ∧
        (s.released sc = true → ∃ u ns, exec (.vwsync sc d a) s = .next u ∧ s.SameRegs u ∧ u.sp.pc = s.sp.pc ∧ u.sp.wait = .sync h ns sc d ∧ u.views = s.views ∧
          ns = (List.range v.nblk).map (fun b => (b, tagOwed (s.tagGet v b)))) ∧
        (s.released sc = false → exec (.vwsync sc d a) s = .next s.holdMe))) ∧
    (∀ (sum : Bool) (q : State) (bs : List Byte), s.RecordAt (s.getS a) 64 q bs → s.Checked q →
      let i : Instr := if sum then .xsum sc a else .xscale sc a
      (collBad (wordAt bs) = true → exec i s = .next (q.trapAll 34 (s.getS a))) ∧
      (∀ (A : Acc) (r z : State) (p : Place), collBad (wordAt bs) = false → q.check q.who .hint 1 (va57 (wordAt bs 5)) 1 = (z, .ok A) → (sc ≠ .sys → A.remote = false) →
        q.barCheck q.who false (va57 (wordAt bs 6)) = (r, .ok p) → q.Checked r →
        (placeRemote p = true → (∀ (w : State) (code : Nat), r.engRemote s.cur.core true (va57 (wordAt bs 6)) (placeLoc p) = (w, (.err code : EAns Unit)) → s.Checked w →
            exec i s = .next (w.trapAll code (va57 (wordAt bs 6)))) ∧
          (∀ w : State, r.engRemote s.cur.core true (va57 (wordAt bs 6)) (placeLoc p) = (w, (.wait : EAns Unit)) → s.Checked w → exec i s = .next w.holdMe)) ∧
        (placeRemote p = false → r.released sc = true →
        ∃ u, exec i s = .next u ∧ s.Past u 1 ∧ s.Commits u ∧ s.SameRegs u ∧ u.mem = r.mem ∧ u.scr = r.scr ∧
          ∃ x : Coll, u.colls = r.colls ++ [x] ∧ x.sum = sum ∧ x.bar = p ∧ x.scope = sc ∧ x.core = s.cur.core ∧ x.stage = 0 ∧ x.ecode = 0 ∧ (∀ j : Fin 8, x.words[j] = wordAt bs j))))

/-- R307 to R311: each abacus instruction of a running command that the step limit does not stop and whose successor lies within the program has its effect on the command's registers and buffer and goes on at its successor, one step
counted; an operand outside its bounds ends the command with its ACODE and no effect, and so does a successor outside the program (ACODE 5). `ahalt` ends the command with ACODE 0. The DRAM lines that `aldw` and `adot` read are requested at the abacus's pseudo-channel (R299). An `aemit` of one value adds it to its output element, and one that no active
range of FP32 with a scope of `.pkg` or `.sys` holds is counted as refused; while `cmr` still takes a line of its output into a range, it waits (R272). The model's own: ACODE 5 at the instruction whose successor lies outside the program, before any
effect (log 57); which ACODE comes first where several conditions hold: a command's own before 5, an illegal format before a count of 0, alignment and buffer before weights, and an `adot`'s weight bytes before its scales (log 99); the count
read at the start under INC (log 100); an `aemit` in one step (log 101). -/
def Obligations.AbacusInstructions : Prop :=
  ∀ (s : State) (r : AbRun) (d a b c : BitVec 4) (imm : BitVec 16) (t : BitVec 8) (wf : BitVec 3) (inc sf cl : Bool),
    (s.abAt s.curAb.1 s.curAb.2).run = some r → r.ended = none → r.steps < 2 ^ 26 →
    let runs (i : Instr) (pc : Nat) (r' : AbRun) : Prop := ∃ u, exec i s = .next u ∧
      if pc < r.prog.length then s.AbRan u { r' with pc := pc, steps := r.steps + 1 } else s.AbRan u { r with ended := some (5, 0, r.pc) }
    let ends (i : Instr) (acode ecode : Nat) : Prop := ∃ u, exec i s = .next u ∧ s.AbRan u { r with ended := some (acode, ecode, r.pc) }
    let q (x : BitVec 4) : W32 := r.q[x.toFin]
    let cc (x : BitVec 4) : W32 := r.c[x.toFin]
    let pc' := r.pc + 1
    let setQ (r : AbRun) (x : BitVec 4) (v : W32) : AbRun := { r with q := r.q.set x.toFin v }
    let setC (r : AbRun) (x : BitVec 4) (v : W32) : AbRun := { r with c := r.c.set x.toFin v }
    let put (r : AbRun) (off : Nat) (bs : List Byte) : AbRun := { r with buf := cellPut r.buf (cellsAt off bs) }
    let byte (i : Nat) : Byte := cellGet r.buf i
    let word (i : Nat) : W32 := byte (i + 3) ++ byte (i + 2) ++ byte (i + 1) ++ byte i
    ends .ahalt 0 0 ∧ runs .anop pc' r ∧
    runs (.ali d imm) pc' (setQ r d (BitVec.ofInt 32 imm.toInt)) ∧ runs (.alih d imm) pc' (setQ r d (imm ++ (q d).setWidth 16)) ∧
    runs (.aadd d a b) pc' (setQ r d (q a + q b)) ∧ runs (.aaddi d a imm) pc' (setQ r d (q a + BitVec.ofInt 32 imm.toInt)) ∧
    runs (.aloop a t) (if q a = 1 then pc' else t.toNat) (setQ r a (q a - 1)) ∧
    runs (.abne a b t) (if q a = q b then pc' else t.toNat) r ∧
    runs (.afadd d a b) pc' (setC r d (add32 (cc a) (cc b))) ∧ runs (.afmul d a b) pc' (setC r d (mul32 (cc a) (cc b))) ∧
    (if (q a).toNat % 4 = 0 ∧ (q a).toNat + 4 ≤ 65536 then runs (.aldc d a) pc' (setC r d (word (q a).toNat)) else ends (.aldc d a) 2 0) ∧
    (if d.toNat + a.toNat ≤ 15 then
      runs (.aclr d a) pc' { r with c := gen 16 (fun i => if d.toNat ≤ i ∧ i ≤ d.toNat + a.toNat then 0 else r.c.toArray.getD i 0) } else ends (.aclr d a) 1 0) ∧
    (let n := (q b).toNat;
      let off := (q a).toNat
      if n ≠ 0 ∧ 65536 < (q d).toNat + n then ends (.aldw inc d a b) 2 0
      else if n ≠ 0 ∧ r.cmd.wlen < off + n then ends (.aldw inc d a b) 3 0
      else if n = 0 then runs (.aldw inc d a b) pc' r
      else
        let locs := (List.range n).map (fun i => areaLoc r.cmd.wlines off i)
        if locs.any (fun l => s.poisoned (lineOf l)) then ends (.aldw inc d a b) 8 4
        else
          let r1 := put r (q d).toNat (locs.map s.peek)
          let r2 := if inc then setQ r1 d (q d + q b) else r1
          runs (.aldw inc d a b) pc' (if inc then setQ r2 a ((r2.q[a.toFin]) + q b) else r2)) ∧
    (let w := if sf then 2 else 4;
      let m := (c.toNat + 1) * w
      let off := (q d).toNat
      if 15 < a.toNat + c.toNat then ends (.astc sf cl inc d a c) 1 0
      else if off % w ≠ 0 ∨ 65536 < off + m then ends (.astc sf cl inc d a c) 2 0
      else
        let bytes := (List.range (c.toNat + 1)).flatMap (fun i => let v : W32 := r.c.toArray.getD (a.toNat + i) 0
          if sf then leBytes 2 (Ty.bf16.deliver .rn false false 0 (fv32 v)).1 else leBytes 4 v.toNat)
        let r1 := put r off bytes
        let r2 := if cl then { r1 with c := gen 16 (fun i => if a.toNat ≤ i ∧ i ≤ a.toNat + c.toNat then 0 else r1.c.toArray.getD i 0) } else r1
        runs (.astc sf cl inc d a c) pc' (if inc then setQ r2 d (q d + BitVec.ofNat 32 m) else r2)) ∧
    (let n := (q c).toNat;
      let ty : Ty := match wf.toNat with | 0 => .bf16 | 1 => .e4m3 | 2 => .e5m2 | 3 => .e2m1 | 4 => .b8 | _ => .b4
      let blk := wf = 4 ∨ wf = 5
      let i : Instr := .adot wf inc d a b c
      let nb := (n * ty.width + 7) / 8
      let sb := if blk then n / 16 else 0
      let off := (q a).toNat
      let soff := if blk then (q (a + 1)).toNat else 0
      if 6 ≤ wf.toNat ∨ (blk ∧ a.toNat % 2 = 1) then ends i 1 0
      else if n = 0 then runs i pc' r
      else if blk ∧ (n % 32 ≠ 0 ∨ off % (if wf = 5 then 16 else 32) ≠ 0 ∨ soff % 2 ≠ 0) then ends i 2 0
      else if (q b).toNat % 2 ≠ 0 ∨ 65536 < (q b).toNat + 2 * n then ends i 2 0
      else if r.cmd.wlen < off + nb then ends i 3 0
      else
        let wl := (List.range nb).map (fun j => areaLoc r.cmd.wlines off j)
        let sl := (List.range sb).map (fun j => areaLoc r.cmd.wlines soff j)
        if wl.any (fun l => s.poisoned (lineOf l)) then ends i 8 4
        else if r.cmd.wlen < soff + sb then ends i 3 0
        else if sl.any (fun l => s.poisoned (lineOf l)) then ends i 8 4
        else
          let x (j : Nat) : FVal := Ty.bf16.decode ((byte ((q b).toNat + 2 * j + 1)).toNat * 256 + (byte ((q b).toNat + 2 * j)).toNat)
          let prod (j : Nat) : FVal := ((adotWeight ty (wl.map s.peek) (sl.map s.peek) j).mul (x j)).1
          let r1 := setC r d (add32 (cc d) (rn32 (kSum ((List.range n).map prod))))
          let r2 := if inc then setQ r1 a (q a + BitVec.ofNat 32 nb) else r1
          let r3 := if inc then setQ r2 b ((r2.q[b.toFin]) + BitVec.ofNat 32 (2 * n)) else r2
          runs i pc' (if inc ∧ blk then setQ r3 (a + 1) ((r3.q[(a + 1).toFin]) + BitVec.ofNat 32 (n / 16)) else r3)) ∧
    (let n := (q c).toNat;
      let i : Instr := .aemit inc a b c
      if n = 0 then runs i pc' r
      else if (q a).toNat % 4 ≠ 0 ∨ 65536 < (q a).toNat + 4 * n then ends i 2 0
      else if r.cmd.olen < (q b).toNat + n then ends i 4 0
      else if r.prog.length ≤ pc' then ends i 5 0
      else
        let loc := areaLoc r.cmd.olines r.cmd.ooff (4 * (q b).toNat)
        let after (r : AbRun) : AbRun := let r1 := if inc then setQ r a (r.q[a.toFin] + BitVec.ofNat 32 (4 * n)) else r
          { (if inc then setQ r1 b ((r1.q[b.toFin]) + BitVec.ofNat 32 n) else r1) with pc := pc', steps := r.steps + 1 }
        let starting : Prop := ∃ j < n, ∃ f, s.rangeOf (lineOf (areaLoc r.cmd.olines r.cmd.ooff (4 * ((q b).toNat + j)))) = some f ∧ f.starting = true
        (starting → exec i s = .next s) ∧
        (¬starting → ∃ u x, exec i s = .next u ∧ (u.abAt s.curAb.1 s.curAb.2).run = some (after x) ∧ x = { r with emitted := x.emitted, refused := x.refused } ∧ u.cores = s.cores ∧ u.scr = s.scr) ∧
        (n = 1 → ¬starting → s.poisoned (lineOf loc) = false → loc % 128 + 4 ≤ 128 →
          (∀ f, s.rangeOf (lineOf loc) = some f → f.ending = false → f.fmt = .f32 → (f.scope = .pkg ∨ f.scope = .sys) → s.Inv → ∃ u, exec i s = .next u ∧
            (u.abAt s.curAb.1 s.curAb.2).run = some (after { r with emitted := min (r.emitted + 1) (2 ^ 32 - 1) }) ∧
            u.peekN loc 4 = leBytes 4 (add32 (le32 (s.peekN loc 4)) (word (q a).toNat)).toNat ∧ ∀ l, (l < loc ∨ loc + 4 ≤ l) → u.peek l = s.peek l) ∧
          ((∀ f, s.rangeOf (lineOf loc) = some f → f.ending = true ∨ f.fmt ≠ .f32 ∨ (f.scope ≠ .pkg ∧ f.scope ≠ .sys)) → ∃ u, exec i s = .next u ∧ (u.abAt s.curAb.1 s.curAb.2).run = some (after { r with refused := some (r.refused.getD r.pc) }) ∧ u.mem = s.mem)))

/-- R110, R143, R147, R153, R156, R165, R244, R346 to R348, R353 to R359, R367, R372, R388, R389: what the steps of issue, of physical registers, of interrupts and of task start, stealing, spilling and partitions do: entering a block, waiting for the array, choosing strings
and splits, spilling and filling a register, delivering an interrupt to lane 0, ending a `wfi`, trapping an illegal word, taking, starting and staging a task, giving up a slot and restoring it. A header that a hold stops is no issue, and the counts of R357 and R372 stand as they stood. The model's own: the order in which steps come due (log 7); which takeable entry of a serai is taken (log 31); the staging and the end of the
task's first region (log 32); s4 of a new task with bit 56 extended (log 39); a steal that waits for the victim core's stores (log 60); the packing of a record (log 62); when a core spills, and from which string (log 65); ties between slots (log 75); the counts that victims report (log 86);
claims beyond 16 (log 103). -/
def Obligations.IssueEvents : Prop :=
  ∀ (s : State) (c v : CoreId) (k : SlotId) (j : SplitId),
    let x := s.strAt c k
    let sp := x.splits[j]
    (let s1 := s.modSp (fun y => { y with starve := 0 })
      let enters (P : State → Prop) : Prop := s.happens .blockEntry (fun t => ∃ z : State, t = z.afterIssue (.split s.cur.core s.cur.slot s.cur.split) s.sp.starve ∧ P z)
      s.sp.enter = true → s.sp.m ≠ 0 → s.sp.stack = [] → s.me.single = true →
      (∀ (q : State) (h : W64), s1.fetch64 s1.who s.sp.pc = (q, .ok h) → s1.Checked q →
      (∀ code tv, hdrFail s.sp.mode s.sp.pc h = some (code, tv) → enters (fun z => z = q.trapAll code tv)) ∧
      (let live := if h.extractLsb' 40 8 = 0 then 256 else (h.extractLsb' 40 8).toNat;
        let begun (t : State) : Prop := t.sp.t = 0 ∧ t.me.fflags = s.me.fflags ||| s.sp.t ∧ (s.sp.mode = .user → ∀ l < 32, s.sp.e.has l = true →
          (t.me.lane l).urec.rentry = s.sp.pc ∧ (t.me.lane l).urec.rblk = s.sp.pc ∧ (t.me.lane l).urec.mark = false)
        let entered (t : State) : Prop := t.sp.pc = s.sp.pc + 8 ∧ t.sp.blk = s.sp.pc ∧ t.sp.hdr = h ∧ t.sp.enter = false ∧
          t.sp.m = s.sp.m ∧ t.sp.e = s.sp.e ∧ t.sp.mode = s.sp.mode ∧ t.me.sreg = s.me.sreg ∧ t.me.kreg = s.me.kreg ∧ t.mem = q.mem ∧ t.scr = q.scr ∧
          t.me.allot = max s.me.allot live ∧
          (∀ r : VReg, (r.toNat < live → t.me.vreg[r.toFin] = s.me.vreg[r.toFin]) ∧ (live ≤ r.toNat → r.toNat < s.me.allot → ∀ l < 32,
            if (s.me.lane l).marked then t.getV r l = s.getV r l else ¬t.me.hasValue (Mask.ofLanes [l]) r.toNat)) ∧
          (h.getLsbD 8 = true → begun t) ∧
          (∀ g, s.sp.mode = .user → s.me.staging = some g → g.entered = false → s.sp.pc = g.ent.entry → begun t ∧ t.me.staging = some { g with entered := true } ∧
            ∀ l < 32, s.sp.e.has l = true → (t.me.lane l).urec.first = true)
        hdrFail s.sp.mode s.sp.pc h = none →
          (h.getLsbD 9 = false ∨ q.core.arr.owner = some (s.cur.slot, s.me.uid) → enters (fun z => ∃ w : State, z = w.hint s.sp.pc h ∧ entered w ∧ (h.extractLsb' 16 7 = 0 → z = w))) ∧
          (h.getLsbD 9 = true → q.core.arr.owner = none → q.core.arr.waiters = [] → enters (fun z => ∃ w : State, z = w.hint s.sp.pc h ∧ entered w ∧
            w.core.arr.owner = some (s.cur.slot, s.me.uid))) ∧
          (∀ o, h.getLsbD 9 = true → q.core.arr.owner = some o → o ≠ (s.cur.slot, s.me.uid) → enters (fun z => z.sp.wait = .array ∧ z.sp.pc = s.sp.pc ∧
            z.core.arr.owner = some o ∧ z.core.arr.waiters = (if q.core.arr.waiters.length < 16 then q.core.arr.waiters ++ [(s.me.uid, s.sp.m)] else q.core.arr.waiters) ∧ z.mem = q.mem)))) ∧
      (∀ (q : State) (o code : Nat), s1.fetch64 s1.who s.sp.pc = (q, .fail o code) → enters (fun z => z = q.trapAll code s.sp.pc)) ∧
      (∀ q : State, s1.fetch64 s1.who s.sp.pc = (q, .hold) → q.me = s1.me → q.cur = s1.cur → q.cyc = s.cyc → q.agenda = s.agenda → s.agenda.head? ≠ some .blockEntry →
        s.happens .blockEntry (fun t => t.sp.starve = s.sp.starve ∧ t.sp.wait = .held s.cyc ∧ ∀ x ∈ t.core.issued, x.1 ≠ s.cur.slot))) ∧
    (∀ w : W64, s.happens (.illegalInstruction w) (fun t => t = s.trapAll 1 w)) ∧
    (let picked (t : State) : Prop := t.issue = s.issue ++ [.split c k j] ∧ t.cores = s.cores.set c { s.cores[c] with issued := (k, j) :: s.cores[c].issued } ∧ t.agenda = s.agenda;
      (s.mayPick c k = true → s.freeSplits c k = [j] → sp.starve < 256 →
        ((∀ i, s.mayPick c i = true → (s.strAt c i).ready < 256 ∧ (x.age < (s.strAt c i).age ∨ (x.age = (s.strAt c i).age ∧ k ≤ i))) → s.happens (.issueCycle c) picked) ∧
        (256 ≤ x.ready → s.happens (.stringStarvation c k) picked)) ∧
      (s.mayPick c k = true → 256 ≤ x.ready → (∀ i, s.mayPick c i = true → i ≠ k → (s.strAt c i).ready < x.ready) →
        s.happens (.issueCycle c) (fun t => t.agenda = .stringStarvation c k :: s.agenda ∧ t.cores = s.cores)) ∧
      ((∀ i, s.mayPick c i = false) → s.happens (.issueCycle c) (fun t => t = s)) ∧
      (s.mayPick c k = true → j ∈ s.freeSplits c k → 256 ≤ sp.starve → s.happens (.splitStarvation c k j) picked)) ∧
    (4 + (s.cores[c]).keptRegs ≤ s.freeRegs c → s.happens (.registerSpill c) (fun t => t = s)) ∧
    (∀ (r : Nat) (w : Who) (a : Nat) (q z : State) (val : LaneVec) (tk : Taken), s.freeRegs c < 4 + (s.cores[c]).keptRegs → s.spillVictim c = some (k, r) → s.spillArea c k = (q, some (w, a)) →
      (q.strAt c k).vreg.toArray.getD r none = some val → q.putAll w (a + 128 * r) (laneBytes val) = (z, tk) → tk.waits = false → tk.err = 0 →
      s.happens (.registerSpill c) (fun t => t = z.modStr c k (fun y => { y with vspill := y.vspill ||| (1#256 <<< r) }))) ∧
    (∀ (r : VReg) (w : Who) (a : Nat) (q z : State) (tk : Taken), x.vspill.getLsbD r.toNat = true → s.spillArea c k = (q, some (w, a)) → q.getAll w (a + 128 * r.toNat) 128 = (z, tk) → tk.waits = false → tk.err = 0 →
      s.happens (.registerFill c k r) (fun t => (t.strAt c k).vspill = (z.strAt c k).vspill &&& ~~~(1#256 <<< r.toNat) ∧ ∃ val : LaneVec, (t.strAt c k).vreg[r.toFin] = some val ∧
        ∀ l : Fin 32, val[l] = le32 (((tk.data.map (·.2)).drop (4 * l.val)).take 4))) ∧
    (s.irqSlot c = some k → sp.m.getLsbD 0 = true → sp.mode = .user → (∀ i, i ≠ j → (x.splits[i]).m.getLsbD 0 = false) →
      s.happens (.interruptDelivery c) (fun t => let y := t.strAt c k
        (y.lane 0).sepc = sp.pc ∧ (y.lane 0).stval = (s.irqs c).setWidth 64 ∧ (y.lane 0).scause = BitVec.ofNat 32 (2 ^ 31 + zerosBelow 16 (fun b => (s.irqs c).getLsbD b)) ∧
        (∃ i : SplitId, (y.splits[i]).pc = (s.cores[c].svec.setWidth 57).signExtend 64 ∧ (y.splits[i]).m = 1 ∧ (y.splits[i]).e = 1 ∧ (y.splits[i]).mode = .sup) ∧ t.mem = s.mem ∧ y.sreg = x.sreg ∧ y.vreg = x.vreg)) ∧
    (s.irqSlot c = none → s.happens (.interruptDelivery c) (fun t => t = s)) ∧
    (sp.wait = .wfi → (s.irqs c ≠ 0 → s.happens (.wfiWake c k j.val) (fun t => t = s.modStr c k (fun y => { y with splits := y.splits.set j { sp with wait := .none, pc := sp.pc + 8 } }))) ∧
      (s.irqs c = 0 → s.happens (.wfiWake c k j.val) (fun t => t = s))) ∧
    (∀ (n : Nat) (y : Split), x.park[n]? = some y → y.wait = .wfi → s.irqs c ≠ 0 →
      s.happens (.wfiWake c k (n + 4)) (fun t => t = s.modStr c k (fun z => { z with park := z.park.set n { y with wait := .none, pc := y.pc + 8 } }))) ∧
    (∀ g : Staging, x.st = .staging → x.staging = some g → g.begun = false → s.happens (.taskStart c k) (fun t => let y := t.strAt c k
        (∀ i : Fin 64, y.sreg[i] = if i.val < 4 then wordAt g.ent.bytes (4 + i.val) else if i.val = 4 then va57 (wordAt g.ent.bytes 2) else 0) ∧
        (∀ l < 32, y.getV 0 l = BitVec.ofNat 32 l) ∧ (∀ r : VReg, r ≠ 0 → y.vreg[r.toFin] = none) ∧ y.rseed = wordAt g.ent.bytes 3 ∧ (∀ l < 32, (y.lane l).gen = genSeed (wordAt g.ent.bytes 3) l) ∧
        (y.splits[(0 : Fin 4)]).pc = va57 (wordAt g.ent.bytes 0) ∧ (y.splits[(0 : Fin 4)]).m = BitVec.allOnes 32 ∧ (y.splits[(0 : Fin 4)]).mode = .user ∧
        (∀ l < 32, (y.lane l).urec.rentry = va57 (wordAt g.ent.bytes 0) ∧ (y.lane l).urec.mark = false) ∧ y.staging = some { g with begun := true } ∧
        (t.partOf c g.ent.ctx).isSome = true ∧ y.st = .staging ∧ t.mem = s.mem ∧ ∀ e ∈ t.l1, ¬(e.core = c ∧ e.code = false ∧ e.exp ≠ none))) ∧
    (∀ g : Staging, x.st = .staging → x.staging = some g → g.begun = true →
      let ready (q : State) : State := q.modStr c k (fun y => { y with st := .ready, age := q.cyc })
      (g.ent.ops = [] → s.happens (.porterStagingComplete c k) (fun t => t = ready s)) ∧
      (g.ent.ops ≠ [] → k ∉ s.porting c → s.happens (.porterStagingComplete c k) (fun t => t = s)) ∧
      (∀ d q tk, k ∈ s.porting c → g.ent.ops = [d] → s.descFault c g.ent.ctx d = none → s.stageOp c x d = (q, tk) → tk.waits = false →
        s.happens (.porterStagingComplete c k) (fun t => t = if tk.err = 0 then ready q else (ready q).stageTrap c k g.ent.entry tk.err tk.addr)) ∧
      (∀ code tv, k ∈ s.porting c → g.ent.ops.findSome? (s.descFault c g.ent.ctx) = some (code, tv) → s.happens (.porterStagingComplete c k) (fun t => t = (ready s).stageTrap c k g.ent.entry code tv))) ∧
    (s.maySpill c = false → s.happens (.parkSpill c) (fun t => t = s)) ∧
    (∀ (q z : State) (n : Nat) (i : Fin 64) (tk : Taken), s.maySpill c = true → (s.cores[c].byParked).find? (fun i => s.hasPool (s.strAt c i)) = some k → s.poolFor c k = (q, some n) → (q.strAt c k).launch = some i →
      q.putParts (whoOf c s.launches[i].ptroot .user) (s.launches[i].pool + 43008 * n) (q.strAt c k).record = (z, tk) → tk.waits = false → tk.err = 0 → z.strAt c k = q.strAt c k →
      s.happens (.parkSpill c) (fun t => t.strAt c k = Str.empty ∧ ∃ p ∈ (t.cores[c]).spilled, p.woken = false ∧ p.str.uid = x.uid ∧ p.str.sreg = x.sreg ∧ p.str.vreg = x.vreg)) ∧
    (∀ (p : Spilled) (q z : State) (i : Fin 64) (n : Nat) (tk : Taken), s.firstWoken c = some p → x.present = false → s.mayStart c = true → s.faulted p.str.ctx = false → p.str.launch = some i → p.str.pool = some n →
      s.getAll (whoOf c s.launches[i].ptroot .user) (s.launches[i].pool + 43008 * n) 43008 = (q, tk) → tk.waits = false → tk.err = 0 →
      (match q.imageBlock c p.str.ctx with
        | none => z = q
        | some b => ∃ tk', q.putParts (whoOf c 0 .hyp) b [(34816 * k.val, (tk.data.map (·.2)).take 34816), (0x88000 + 8192 * k.val, (tk.data.map (·.2)).drop 34816)] = (z, tk') ∧
            tk'.waits = false ∧ tk'.err = 0) →
      let bs := tk.data.map (·.2)
      let area := bs.take 34816
      let slotOf (m : Nat) : Nat := numAt area (0x8300 + 24 * m + 16) 2 / 4 % 8
      let maskOf (m : Nat) : Mask := le32 (bytesAt area (0x8300 + 24 * m + 8) 4)
      s.happens (.spillRestore c k) (fun t => let y := t.strAt c k
        y.uid = p.str.uid ∧ y.st = .ready ∧ y.age = z.cyc ∧ (∀ w ∈ (t.cores[c]).spilled, w.str.uid ≠ p.str.uid) ∧
        ((q.imageBlock c p.str.ctx).isSome = true → n ∉ (t.launches[i]).poolUsed ∧ y.pool = none) ∧ (q.imageBlock c p.str.ctx = none → p.str.poolKept = true → y.pool = some n ∧ y.poolKept = true) ∧
        (∀ r : Fin 64, y.sreg[r] = le64 (bytesAt area (0x8000 + 8 * r.val) 8)) ∧ (∀ r : Fin 16, r ≠ 0 → y.kreg[r] = le32 (bytesAt area (0x8200 + 4 * r.val) 4)) ∧
        (p.str.gone = [] → ∀ r : Fin 256, (BitVec.ofNat 256 (numAt area 0x8267 32)).getLsbD r.val = true → ∃ val : LaneVec, y.vreg[r] = some val ∧ ∀ l : Fin 32, val[l] = le32 (bytesAt area (128 * r.val + 4 * l.val) 4)) ∧
        (∀ m < 32, (∀ m' < 32, m' ≠ m → slotOf m' = j.val → maskOf m' = 0) → slotOf m = j.val → maskOf m ≠ 0 →
          (y.splits[j]).pc = le64 (bytesAt area (0x8300 + 24 * m) 8) ∧ (y.splits[j]).m = maskOf m ∧ (y.splits[j]).e = le32 (bytesAt area (0x8300 + 24 * m + 12) 4) ∧
            (y.splits[j]).mode = (match numAt area (0x8300 + 24 * m + 16) 2 % 4 with | 0 => .user | 1 => .sup | _ => .hyp)))) ∧
    (let took (w : CoreId) (e : SEnt) (t : State) : Prop := (t.strAt c k).st = .staging ∧ (t.strAt c k).launch = some e.launch ∧ (t.strAt c k).ptroot = s.launches[e.launch].ptroot ∧
        (t.strAt c k).staging = some { ent := e, begun := false, entered := false } ∧ Ev.taskStart c k ∈ t.agenda ∧ (t.cores[w]).serai.length + 1 = (s.cores[w]).serai.length ∧ t.mem = s.mem;
      ((s.cores[c]).freeSlot = none → s.happens (.stealSearch c) (fun t => t = s)) ∧
      (∀ p, (s.cores[c]).freeSlot = some k → s.mayStart c = true → s.firstWoken c = some p → s.happens (.stealSearch c) (fun t => t = { s with agenda := .spillRestore c k :: s.agenda })) ∧
      ((s.cores[c]).freeSlot = some k → s.mayStart c = true → s.firstWoken c = none → s.returning c = none →
        (∀ e r, s.takeable c c = e :: r → s.happens (.stealSearch c) (took c e)) ∧
        (s.takeable c c = [] → s.victimFor c = some v → s.happens (.stealSearch c) (fun t => t = { s.modCore c (fun y => { y with probe := some v, probes := ((s.probeList c).dropWhile (· != v)).drop 1 }) with free := s.free + 1 })) ∧
        (∀ (q : Fin 16) (e : SEnt), s.takeable c c = [] → s.victimFor c = none → s.queueFor c = some q → s.queueHead q = some e → s.happens (.stealSearch c) (fun t =>
          (t.strAt c k).st = .staging ∧ (t.strAt c k).launch = some e.launch ∧ (t.strAt c k).ptroot = s.launches[e.launch].ptroot ∧ (t.strAt c k).staging = some { ent := e, begun := false, entered := false } ∧
          Ev.taskStart c k ∈ t.agenda ∧ (t.bazaar[q]).q = (s.bazaar[q]).q.drop 1 ∧ t.mem = s.mem)) ∧
        (s.takeable c c = [] → s.victimFor c = none → s.queueFor c = none → s.happens (.stealSearch c) (fun t => t.cores = s.cores.set c { s.cores[c] with retryAt := s.cyc + 64 }))) ∧
      (let s1 := s.modCore c (fun y => { y with probe := none, probes := [] });
        (∀ e, (s.cores[c]).freeSlot = some k → s1.mayStart c = true → c ≠ v → (s1.takeable c v).getLast? = some e → (distClass c v ≤ e.rsc.code.toNat ∨ ∀ p ∈ s.pend, p.core ≠ v) → s.happens (.stealTake c v) (took v e)) ∧
        (∀ e, (s.cores[c]).freeSlot = some k → (s1.takeable c v).getLast? = some e → e.rsc.code.toNat < distClass c v → (∃ p ∈ s.pend, p.core = v) → s.happens (.stealTake c v) (fun t => t = s1)) ∧
        (let left := (s.cores[c]).probes; (s.cores[c]).freeSlot = some k → s1.mayStart c = true → s1.takeable c v = [] →
          (∀ w, left.find? (fun y => !(s1.takeable c y).isEmpty) = some w → s.happens (.stealTake c v) (fun t =>
            t = { s1.modCore c (fun y => { y with probe := some w, probes := (left.dropWhile (· != w)).drop 1 }) with free := s.free + 1 })) ∧
          ((∀ y ∈ left, s1.takeable c y = []) → s1.queueFor c = none → s.happens (.stealTake c v) (fun t =>
            t = s.modCore c (fun y => { y with probe := none, probes := [], retryAt := s.cyc + 64 })))))) ∧
    ((s.cores[c]).retryAt ≤ s.cyc → s.happens (.stealRetry c) (fun t => t = { s with agenda := .stealSearch c :: s.agenda })) ∧
    (s.cyc < (s.cores[c]).retryAt → s.happens (.stealRetry c) (fun t => t = s)) ∧
    (∀ d : Fin 8, let now := (allCores.filter (fun i => dieOf i == d)).map (fun i => (i, s.offered i))
      let old := ((s.drove.find? (fun y => y.1 == d)).map (·.2)).getD []
      let rose := ∃ p ∈ now, 0 < p.2 ∧ ∀ o ∈ old, o.1 = p.1 → o.2 = 0
      s.happens (.droveSummary d) (fun t => t.mem = s.mem ∧ t.drove = (d, now.filter (fun p => decide (0 < p.2))) :: s.drove.filter (fun y => y.1 != d) ∧
        (rose → ∀ i : CoreId, (t.cores[i]).retryAt = 0) ∧ (¬rose → t.cores = s.cores))) ∧
    (∀ ctx : BitVec 12, s.happens (.stealPauseLapse c ctx) (fun t => t = s.modCore c (fun y => { y with closed := y.closed.filter (fun p => !(p.1 == ctx && decide (p.2 + 65536 ≤ s.cyc))) }))) ∧
    (∀ (ctx : BitVec 12) (p : Part), s.partOf c ctx = some p → (s.mayRelease c p = true → s.happens (.partitionRelease c ctx) (fun t => t = s.modCore c (fun y => { y with parts := y.parts.filter (· != p) }))) ∧
      (s.mayRelease c p = false → s.happens (.partitionRelease c ctx) (fun t => t = s))) ∧
    (let placed (y : Split) : Prop := ∃ w ∈ (s.cores[c]).arr.waiters, w.1 = x.uid ∧ w.2 &&& y.m ≠ 0;
      (s.cores[c]).arrayRoom = true → x.present = true → s.happens (.arrayClaimGrant c) (fun t => t.mem = s.mem ∧ (t.cores[c]).arr = (s.cores[c]).arr ∧
        ((sp.wait = .array ∧ ¬placed sp → ((t.strAt c k).splits[j]) = { sp with wait := .none }) ∧ (sp.wait ≠ .array ∨ placed sp → ((t.strAt c k).splits[j]) = sp)))) ∧
    (∀ o, (s.cores[c]).arrayRoom = false → (s.cores[c]).arr.owner = some o → s.happens (.arrayClaimGrant c) (fun t => t = s)) ∧
    (∀ (uid : Nat) (m : Mask), (s.cores[c]).arrayRoom = false → (s.cores[c]).arr.owner = none → s.arrayNext c = some (uid, m) → x.present = true → x.uid = uid → (∀ i, i < k → ¬((s.strAt c i).present = true ∧ (s.strAt c i).uid = uid)) →
      sp.m &&& m ≠ 0 → sp.wait = .array → s.happens (.arrayClaimGrant c) (fun t => (t.cores[c]).arr.owner = some (k, uid) ∧ (t.cores[c]).arr.waiters = (s.cores[c]).arr.waiters.filter (fun w => w.1 != uid) ∧
        ((s.cores[c]).arr.last = some uid → (t.cores[c]).arr.queue = (s.cores[c]).arr.queue) ∧
        ((s.cores[c]).arr.last ≠ some uid → ∃ o : TileOp, o.kind = .clear ∧ (t.cores[c]).arr.queue = (s.cores[c]).arr.queue ++ [o]) ∧
        ∀ i : SplitId, ((t.strAt c k).splits[i]).wait ≠ .array ∧ ((t.strAt c k).splits[i]).pc = (x.splits[i]).pc))

/-- R60, R67 to R83, R217, R408, R422, R459: what the steps of the slices, homes, links, memory dies and the snooping host do: a waiting store performed, a lease over, a line given up or requested by the directory's entry, an atomic at its home, a dropped entry
discovered, an agent lost or reset, an error of a line, a directory entry, a string or a scratchpad word, a die lost, a DRAM request served. Where a request needs room in an L2, the clauses are about a set with room; which line gives way is the device's (log 18). The model's own:
AGENT 0 in a home's error records (log 49), which waiting stores are lost at a poisoned line (logs 47 and 82), the CM mask found again from the partials (log 50), the leases that end for an operation that waits (log 43), how long a request keeps its turn (log 95), and how
long a refresh lasts within its bound (log 105). -/
def Obligations.MemoryEvents : Prop :=
  ∀ (s : State) (a : AgentId) (line : Nat) (inc : BitVec 16) (d : DieId) (p : PchId) (b : Fin 32) (c : CoreId) (k : SlotId),
    let stale := inc ≠ s.inc[a] ∨ a ∈ s.deadAgents
    let old := s.logErr 3 a (s.linePa line)
    let awake := ∀ o : AgentId, o ∉ s.deadAgents → o ∉ s.asleep
    let room := s.noCopy line = false ∧ ((s.l2Get a line).isSome = true ∨ s.l2Room a line = some s)
    let turn := ∀ x, s.lineq.find? (fun x => x.1 == line) = some x → x.2.1 = a
    let plain := s.rangeOf line = none ∧ s.poisoned line = false ∧ s.homeAsleep line = false ∧ room ∧ turn
    let holds := s.l2.filter (fun e => e.line == line && !s.deadAgents.contains e.agent)
    let ex := holds.filter (fun e => e.st != .shared)
    let sh := holds.filter (fun e => e.st == .shared)
    (∀ (die : Fin 8) (x : PStore) (xs : List PStore) (q : State), a.val = die.val → s.leaseOn line = 0 → s.pend.filter (fun y => y.die == die && y.line == line) = x :: xs →
      let cells := (x :: xs).flatMap (·.cells)
      (∀ y ∈ cells, lineOf y.1 = line) →
      (s.poisoned line = true → (∀ y ∈ x :: xs, y.full = false) →
        s.happens (.l2WaitingStorePerform a line) (fun t => t.mem = s.mem ∧ t.pend = s.pend.filter (fun y => !(y.die == die && y.line == line)))) ∧
      (s.poisoned line = false → s.ownLine x.core { llcOnly := x.bank, noL1 := false, isSealed := false } x.full line = (q, .ok) → q.poisoned line = false → q.isMaster line = false →
      s.happens (.l2WaitingStorePerform a line) (fun t => t.mem = cellPut q.mem cells ∧ t.pend = q.pend.filter (fun y => !(y.die == die && y.line == line))))) ∧
    (s.leaseOn line ≠ 0 → s.happens (.l2WaitingStorePerform a line) (fun t => t = s)) ∧
    s.happens (.l1LeaseExpiry c line) (fun t => t = { s with l1 := s.l1.filter (fun e => !(e.core == c && e.line == line && (match e.exp with | some z => decide (z ≤ s.ptime + 2) | none => false))) }) ∧
    (∀ e, s.l2Get a line = some e → s.mayGiveUp e = true → s.happens (.l2VictimEvict a line) (fun t => t.l2Get a line = none ∧ t.mem = s.mem ∧
      (e.st = .shared → t.agenda = s.agenda) ∧ (e.st = .exClean → t.agenda = .homeWriteback line a s.inc[a] false [] :: s.agenda) ∧
      (e.st = .exDirty → t.agenda = .homeWriteback line a s.inc[a] false (s.peekN (line * 128) 128) :: s.agenda))) ∧
    (s.l2Get a line = none → ∀ die : Fin 8, a.val = die.val → (∃ z ∈ s.partials, z.agent = die ∧ z.line = line) →
      s.happens (.l2VictimEvict a line) (fun t => t = { s with agenda := .partialWriteback die line s.inc[a] :: s.agenda })) ∧
    (stale → s.happens (.homeReadRequest line a inc) (fun t => t = old) ∧ (∀ full, s.happens (.homeOwnRequest line a inc full) (fun t => t = old)) ∧
      (∀ z data, s.happens (.homeWriteback line a inc z data) (fun t => t = old)) ∧ (∀ die : Fin 8, a.val = die.val → s.happens (.partialWriteback die line inc) (fun t => t = old))) ∧
    (¬stale → plain →
      (s.dirGet line = none → s.metaGet line = none → line ∉ s.lost → s.happens (.homeReadRequest line a inc) (fun t => t.mem = s.mem ∧
        if s.isMaster line then t.dirGet line = some (.sh (agentBit a)) ∧ (t.l2Get a line).map (·.st) = some .shared
        else t.dirGet line = some (.ex a) ∧ (t.l2Get a line).map (·.st) = some .exClean)) ∧
      (∀ m, s.dirGet line = some (.sh m) → s.happens (.homeReadRequest line a inc) (fun t => t.mem = s.mem ∧ t.dirGet line = some (.sh (m ||| agentBit a)) ∧ (t.l2Get a line).map (·.st) = some .shared)) ∧
      (∀ o, s.dirGet line = some (.ex o) → o ≠ a → o ∉ s.asleep → s.happens (.homeReadRequest line a inc) (fun t => t.mem = s.mem ∧ t.dirGet line = some (.sh (agentBit o ||| agentBit a)) ∧
        (t.l2Get a line).map (·.st) = some .shared ∧ ((s.l2Get o line).isSome = true → (t.l2Get o line).map (·.st) = some .shared)))) ∧
    (¬stale → plain → s.isMaster line = false →
      (∀ m full, s.dirGet line = some (.sh m) → (∀ o : AgentId, m.getLsbD o.val = true → o ≠ a → o ∉ s.asleep) → (∀ e ∈ s.l2, e.line = line → e.agent ≠ a → s.mayGiveUp e = true) →
        s.happens (.homeOwnRequest line a inc full) (fun t => t.mem = s.mem ∧ t.dirGet line = some (.ex a) ∧ (t.l2Get a line).map (·.st) = some .exDirty ∧
          ∀ o : AgentId, m.getLsbD o.val = true → o ≠ a → t.l2Get o line = none)) ∧
      (∀ m full, s.dirGet line = some (.sh m) → (∀ o : AgentId, m.getLsbD o.val = true → o ≠ a → o ∉ s.asleep) →
        (∃ e ∈ s.l2, e.line = line ∧ e.agent ≠ a ∧ m.getLsbD e.agent.val = true ∧ s.leaseOver e = false) →
        s.happens (.homeOwnRequest line a inc full) (fun t => t.mem = s.mem ∧ t.dir = s.dir ∧ t.l2 = s.l2 ∧ ∃ x ∈ t.lineq, x.1 = line ∧ x.2.1 = a))) ∧
    (¬stale → s.rangeOf line = none → s.poisoned line = false → s.homeAsleep line = false → room → ¬turn →
      s.happens (.homeReadRequest line a inc) (fun t => t.mem = s.mem ∧ t.dir = s.dir ∧ t.l2 = s.l2 ∧ ∃ x ∈ t.lineq, x.1 = line ∧ x.2.1 = a)) ∧
    (¬stale → s.isMaster line = true → s.rangeOf line = none → s.noCopy line = false → s.poisoned line = false → turn → ∀ q, s.homeTake line = (q, .ok) → ∀ full,
      s.happens (.homeOwnRequest line a inc full) (fun t => t.mem = q.mem ∧ t.dir = q.dir ∧ t.l2 = q.l2)) ∧
    (¬stale → (s.rangeOf line).isSome = true ∨ s.noCopy line = true → ∀ full, s.happens (.homeOwnRequest line a inc full) (fun t => t = s)) ∧
    (¬stale → s.rangeOf line = none → s.noCopy line = true → s.happens (.homeReadRequest line a inc) (fun t => (s.isPlane line = false → t.mem = s.mem) ∧ t.dir = s.dir ∧ t.l2 = s.l2)) ∧
    (¬stale → s.rangeOf line = none → room → s.isMaster line = false → s.pz.contains line = true → (∀ die, homeOf line = some die → die ∉ s.deadDies) → ∀ full, full.length = 128 → s.Inv →
      s.happens (.homeOwnRequest line a inc full) (fun t => t.poisoned line = false ∧ t.dirGet line = some (.ex a) ∧ t.peekN (line * 128) 128 = full)) ∧
    (¬stale → (∀ data, s.happens (.homeWriteback line a inc true data) (fun t => t = s.poison line)) ∧
      (∀ data, s.poisoned line = false → data.length = 128 → s.Inv → s.happens (.homeWriteback line a inc false data) (fun t => t.dirGet line = none ∧ t.metaGet line = none ∧ t.l2Get a line = none ∧
        t.peekN (line * 128) 128 = data)) ∧
      s.happens (.homeWriteback line a inc false []) (fun t => t.mem = s.mem ∧ t.llc = s.llc ∧ t.pz = s.pz ∧ t.dirGet line = none ∧ t.l2Get a line = none)) ∧
    (∀ (op : AmoOp) (ty : Ty) (loc : Nat) (x y : W64), s.lineSealed (lineOf loc) = true → s.happens (.homeAtomic op ty loc x y) (fun t => t = s)) ∧
    (∀ (op : AmoOp) (ty : Ty) (loc : Nat) (x y : W64) (q : State), s.isPlane (lineOf loc) = false → s.rangeOf (lineOf loc) = none → s.lineSealed (lineOf loc) = false → s.lineFree (lineOf loc) = true → s.homeTake (lineOf loc) = (q, .ok) →
      (let n := if ty.is64 then 8 else 4; (∀ i < n, q.isMaster (lineOf (loc + i)) = false) →
        let v := le64 (q.peekN loc n ++ List.replicate (8 - n) 0)
        s.happens (.homeAtomic op ty loc x y) (fun t => t.mem = cellPut q.mem (cellsAt loc (leBytes n (amoNew op ty v x y).toNat))))) ∧
    (∀ m, s.dirGet line = none → s.metaGet line = some m → awake →
      (∀ e, ex = [e] → sh = [] → s.happens (.discover line) (fun t => t.dirGet line = some (.ex e.agent) ∧ t.metaGet line = none ∧ t.pz = s.pz)) ∧
      (ex = [] → sh ≠ [] → s.happens (.discover line) (fun t => t.metaGet line = none ∧ t.pz = s.pz ∧ ∃ M, t.dirGet line = some (.sh M) ∧ ∀ o : AgentId, M.getLsbD o.val = true ↔ ∃ e ∈ sh, e.agent = o)) ∧
      (ex = [] → sh = [] → m.xcl = true → s.happens (.discover line) (fun t => t = s.poison line (if m.inc = (s.inc[m.agent]).setWidth 4 then .lostCopy else .holderReset))) ∧
      (ex = [] → sh = [] → m.xcl = false → s.happens (.discover line) (fun t => t.dirGet line = none ∧ t.metaGet line = none ∧ t.pz = s.pz)) ∧
      (1 < ex.length ∨ (ex.length = 1 ∧ sh ≠ []) → s.happens (.discover line) (fun t => t = s.poison line .conflict))) ∧
    (stale → ∀ inval, s.happens (.agentProbeAnswer a line inval inc) (fun t => t = old)) ∧
    (∀ e, ¬stale → s.l2Get a line = some e → s.mayGiveUp e = true → a ∉ s.asleep →
      s.happens (.agentProbeAnswer a line true inc) (fun t => t.l2Get a line = none ∧ (e.st ≠ .shared → e.line = line → t.dirGet line = none)) ∧
      (e.st ≠ .shared → s.happens (.agentProbeAnswer a line false inc) (fun t => (t.l2Get a line).map (·.st) = some .shared ∧ t.dirGet line = some (.sh (agentBit a))))) ∧
    s.happens (.linkUp a) (fun t => t = { s with asleep := s.asleep.filter (· != a), held := s.held.filter (fun h => h.agent != a), silent := s.silent.filter (fun x => x.1 != a) }) ∧
    (a ∈ s.asleep → (∃ h ∈ s.held, h.agent = a ∧ h.late = false ∧ h.since + 4000 ≤ s.ptime) → s.happens (.linkWakeTimeout a) (fun t => (∃ x ∈ t.silent, x.1 = a) ∧
      ∀ h ∈ t.held, h.agent = a → h.late = true)) ∧
    (a ∉ s.deadAgents → (∃ x ∈ s.silent, x.1 = a ∧ x.2 + 2000000 ≤ s.ptime) → s.happens (.agentDeclaredDead a) (fun t => a ∈ t.deadAgents ∧ (∀ e ∈ t.l2, e.agent ≠ a) ∧
      t.inc[a] = (if (s.inc[a]).toNat < 15 then s.inc[a] + 1 else s.inc[a]) ∧ ∀ l, s.dirGet l = some (.ex a) → t.poisoned l = true)) ∧
    s.happens (.agentReset a) (fun t => (∀ e ∈ t.l2, e.agent ≠ a) ∧ a ∉ t.asleep ∧ (∀ l, s.dirGet l = some (.ex a) → t.poisoned l = true) ∧
      ((s.inc[a]).toNat < 14 → a ∉ t.deadAgents ∧ t.inc[a] = s.inc[a] + 1) ∧ (15 ≤ (s.inc[a]).toNat → a ∈ t.deadAgents)) ∧
    ((∀ r, s.rangeOf line = some r → s.happens (.directoryEccError line) (fun t => t.mem = s.mem ∧ ∃ m, t.dirGet line = some (.cm m) ∧ ∀ die : Fin 8, m.getLsbD die.val = true ↔ ∃ z ∈ s.partials, z.agent = die ∧ z.line = line)) ∧
      (s.rangeOf line = none → awake →
        (∀ e, ex = [e] → sh = [] → s.happens (.directoryEccError line) (fun t => t.dirGet line = some (.ex e.agent) ∧ t.metaGet line = none ∧ line ∉ t.lost ∧ t.pz = s.pz)) ∧
        (ex = [] → sh = [] → s.metaGet line = none → s.happens (.directoryEccError line) (fun t => t.dirGet line = none ∧ line ∉ t.lost ∧ t.pz = s.pz))) ∧
      (s.rangeOf line = none → ¬awake → s.happens (.directoryEccError line) (fun t => t.dirGet line = none ∧ line ∈ t.lost ∧ t.held ≠ []))) ∧
    (s.corr[d] < 0xFFFF → s.happens (.eccError (.corrected d)) (fun t => t = { s with corr := s.corr.set d (s.corr[d] + 1) })) ∧
    s.happens (.eccError (.l1 c line)) (fun t => t = { s with l1 := s.l1.filter (fun e => !(e.core == c && e.line == line)) }) ∧
    (∀ e, s.l2Get a line = some e → s.happens (.eccError (.l2 a line)) (fun t => t = if e.st = .exDirty then (s.logErr 1 a (s.linePa line)).poison line else (s.logErr 1 a (s.linePa line)).evictL2 e)) ∧
    s.happens (.eccError (.home line)) (fun t => t = (s.logErr 1 0 (s.linePa line)).poison line) ∧ s.happens (.eccError (.metadata line)) (fun t => t = (s.logErr 1 0 (s.linePa line)).poison line) ∧
    (∀ w : Nat, w < 2 ^ 19 → s.happens (.eccError (.scratch c w)) (fun t => t.scrPoison (.scr c (8 * w)) 8 = true ∧ t.scr = s.scr ∧ t.mem = s.mem)) ∧
    ((s.strAt c k).present = true → s.happens (.eccError (.string c k)) (fun t => t = { s with agenda := .contextFault (s.strAt c k).ctx 3 :: s.agenda })) ∧
    (∀ i e, (s.cores[c]).serai[i]? = some e → s.happens (.eccError (.serai c i)) (fun t => (t.cores[c]).serai = (s.cores[c]).serai.eraseIdx i ∧ t.agenda = .contextFault e.ctx 5 :: s.agenda)) ∧
    ((∃ z ∈ s.partials, z.agent.val = a.val ∧ z.line = line) → s.happens (.eccError (.partialSum a line)) (fun t => t = (s.logErr 1 a (s.linePa line)).poison line)) ∧
    (d ∉ s.deadDies → s.um.mdie.getLsbD d.val = true → s.happens (.memoryDieDead d) (fun t => d ∈ t.deadDies ∧ (∀ l, homeOf l = some d → t.poisoned l = true) ∧ (∀ e ∈ t.dir, homeOf e.1 ≠ some d) ∧
      (∀ e ∈ t.l2, homeOf e.line ≠ some d) ∧ ∀ r ∈ t.pchq, r.die ≠ d)) ∧
    (let resting (r : PchReq) : Prop := ∃ x ∈ s.refreshing, x.1 = r.die ∧ x.2.1 = r.pch ∧ x.2.2.1 = r.bank ∧ s.cyc < x.2.2.2
      let served (r : PchReq) (t : State) : Prop := t.pchq = s.pchq.erase r ∧ (r.die, r.pch, r.bank, r.row) ∈ t.rows ∧ t.mem = s.mem
      let hit (r : PchReq) : Prop := (r.die, r.pch, r.bank, r.row) ∈ s.rows;
      (∀ r, s.agedReq d p = some r → (¬resting r → s.happens (.pchRequestServe d p) (served r) ∧ s.happens (.pchAgeLimit d p) (served r)) ∧
        (resting r → s.happens (.pchRequestServe d p) (fun t => t = s) ∧ s.happens (.pchAgeLimit d p) (fun t => t = s))) ∧
      (s.agedReq d p = none → s.happens (.pchAgeLimit d p) (fun t => t = s) ∧
        (∀ xs r ys, s.pchQueue d p = xs ++ r :: ys → ¬resting r → (hit r ∧ (∀ y ∈ xs, resting y ∨ ¬hit y) ∨ (∀ y ∈ xs, resting y) ∧ (∀ y ∈ ys, resting y ∨ ¬hit y)) →
          s.happens (.pchRequestServe d p) (served r)) ∧
        ((∀ r ∈ s.pchQueue d p, resting r) → s.happens (.pchRequestServe d p) (fun t => t = s)))) ∧
    s.happens (.bankRefresh d p b) (fun t => (∀ x ∈ t.rows, ¬(x.1 = d ∧ x.2.1 = p ∧ x.2.2.1 = b.val)) ∧ t.mem = s.mem ∧
      ∃ n, n ≤ (if d ∈ s.hot then 400 else 200) ∧ (d, p, b.val, s.cyc + n) ∈ t.refreshing) ∧
    (lineHost line = true → s.naeshDown = false → (∀ e ∈ s.l2, e.line = line → e.agent.val < 8 → s.mayGiveUp e = true) →
      let gone (t : State) : Prop := t.mem = s.mem ∧ t.dirGet line = none ∧ ∀ e ∈ t.l2, e.line = line → 8 ≤ e.agent.val
      s.happens (.hostSnoop line true) gone ∧ s.happens (.snoopFilterRecall line) gone ∧ s.happens (.hostSnoop line false) (fun t => t.mem = s.mem ∧ ∀ e ∈ t.l2, e.line = line → e.agent.val < 8 → e.st = .shared)) ∧
    (lineHost line = true → s.naeshDown = false → (∃ e ∈ s.l2, e.line = line ∧ e.agent.val < 8 ∧ s.mayGiveUp e = false) →
      let kept (t : State) : Prop := t.mem = s.mem ∧ t.l2 = s.l2 ∧ t.dir = s.dir ∧ (s.leaseOn line ≠ 0 → (line, s.leaseOn line + 128) ∈ t.closing)
      (∀ inval, s.happens (.hostSnoop line inval) kept) ∧ s.happens (.snoopFilterRecall line) kept)

/-- R50, R51, R58, R87 to R95, R266 to R276, R284 to R296, R433: what the steps of translation, of the region table, of package time, of commutative ranges and of views do. The model's own: which accesses TCINV's drain waits for (log 48), the reserved bits of a region's words, kept as written until an entry is validated (log 51), the fields of an entry that is refused (log 87), and the sample of a
waiting view read (log 19). -/
def Obligations.TableEvents : Prop :=
  ∀ (s : State) (c : CoreId) (k : SlotId) (j : SplitId) (dev : Bool) (ctx : BitVec 12) (va v : W64) (i : Fin 64) (w : Fin 4) (line : Nat) (die : Fin 8) (h : Fin 64) (b : Nat) (n : Fin 256),
    let x := s.strAt c k
    let dropped (cond : Tr → Bool) (wcond : WalkEnt → Bool) (t : State) : Prop :=
      t = { s with tlb := s.tlb.filter (fun e => !((dev || e.core == c) && cond e)), walks := s.walks.filter (fun e => !((dev || e.core == c) && wcond e)) }
    let went (ends : Wait → Bool) (t : State) : Prop := ∀ (c' : CoreId) (k' : SlotId) (j' : SplitId), (s.strAt c' k').present = true → ends ((s.strAt c' k').splits[j']).wait = true → ((s.strAt c' k').splits[j']).m ≠ 0 →
      ((t.strAt c' k').splits[j']).wait = .none ∧ ((t.strAt c' k').splits[j']).pc = ((s.strAt c' k').splits[j']).pc + 8
    let user := whoOf c x.ptroot .user
    (x.present = true → user.untranslated = false → canonical va = true → s.happens (.pageWalkComplete c k va) (fun t => t = (s.translate user .load va).1)) ∧
    (x.present = false → s.happens (.pageWalkComplete c k va) (fun t => t = s)) ∧
    s.happens (.tcinvAll c dev) (dropped (fun _ => true) (fun _ => true)) ∧ s.happens (.tcinvCtx c dev ctx) (dropped (fun e => e.ctx == ctx) (fun e => e.ctx == ctx)) ∧
    (let p := (va57 (s.cores[c]).tciva).toNat; s.happens (.tcinvPage c dev ctx) (dropped (fun e => e.ctx == ctx && decide (e.base < p + 4096) && decide (p < e.base + 2 ^ e.log))
      (fun e => e.ctx == ctx && e.tag == p / 2 ^ levelShift e.level))) ∧
    (let passed (all : Bool) (t : State) : Prop := ∀ (k' : SlotId) (j' : SplitId) (sc : Bool), (s.strAt c k').present = true → ((s.strAt c k').splits[j']).wait = .tcinv sc → ((s.strAt c k').splits[j']).m ≠ 0 →
        if all || !sc then ((t.strAt c k').splits[j']).wait = .none ∧ ((t.strAt c k').splits[j']).pc = ((s.strAt c k').splits[j']).pc + 8 else ((t.strAt c k').splits[j']).wait = .tcinv sc;
      let quiet := (∀ r ∈ s.remote, r.fault ≠ none) ∧ (∀ y ∈ s.abaci, y.coming = [] ∧ y.queue = [] ∧ y.run = none) ∧ s.colls = [] ∧
        ∀ c' : CoreId, (s.cores[c']).convoy = [] ∧ (s.cores[c']).arr.queue = [] ∧ ∀ i : Fin 8, (s.cores[c']).chains[i] = none
      (s.pend = [] → quiet → s.happens (.tcinvDrained c) (fun t => t.mem = s.mem ∧ passed true t)) ∧
      (s.pend ≠ [] → (∀ p ∈ s.pend, p.core ≠ c) → quiet → s.happens (.tcinvDrained c) (fun t => t.mem = s.mem ∧ passed false t))) ∧
    ((∃ p ∈ s.pend, p.core = c) ∨ (∃ r ∈ s.remote, r.core = c ∧ r.fault = none) ∨ (∃ y ∈ s.abaci, ∃ z ∈ y.coming ++ y.queue, z.core = c) ∨ (∃ z ∈ s.colls, z.core = c) ∨
      (∃ z ∈ (s.cores[c]).convoy, ∃ l, z.bar = some (.mem l)) ∨ (∃ o ∈ (s.cores[c]).arr.queue, o.lines ≠ []) → s.happens (.tcinvDrained c) (fun t => t = s)) ∧
    (let e := (s.regions[i]).set 2 v; v.getLsbD 63 = true →
      (s.regionErr i e = 0 → s.happens (.regionEntryValidate i v) (fun t => t.regions = s.regions.set i e ∧ t.rtstat.extractLsb' 12 4 = 0 ∧ t.rtstat.extractLsb' 0 6 = BitVec.ofNat 6 i.val ∧ t.mem = s.mem)) ∧
      (s.regionErr i e = 1 → s.happens (.regionEntryValidate i v) (fun t => t.regions = s.regions ∧ t.rtstat.extractLsb' 12 4 = 1)) ∧
      (2 ≤ s.regionErr i e → s.happens (.regionEntryValidate i v) (fun t => t.rtstat.extractLsb' 12 4 = BitVec.ofNat 4 (s.regionErr i e) ∧ regV (t.regions[i]) = false))) ∧
    s.happens (.regionEntryInvalidate i v) (fun t => regV (t.regions[i]) = false ∧ t.mem = s.mem ∧ (regV (s.regions[i]) = true → t.rtstat.getLsbD 63 = true ∧ (regBASE (s.regions[i]), regLIMIT (s.regions[i])) ∈ t.draining)) ∧
    (regV (s.regions[i]) = true → s.happens (.regionWordWrite i w v) (fun t => t.regions = s.regions ∧ t.rtstat.extractLsb' 12 4 = 1)) ∧
    (regV (s.regions[i]) = false → s.happens (.regionWordWrite i w v) (fun t => t.regions = s.regions.set i ((s.regions[i]).set w v) ∧ t.rtstat.extractLsb' 12 4 = 0)) ∧
    s.happens .regionDrainDone (fun t => t = if s.regionIdle then { s with rtstat := s.rtstat &&& 0x7FFFFFFFFFFFFFFF, draining := [] } else s) ∧
    (∀ ppm : Int, s.happens (.timeExchange ppm) (fun t => t = if ppm.natAbs ≤ 100 then { s with ppm := ppm, timeLost := false, exchanged := s.ptime } else s)) ∧
    (s.timeLost = false → s.exchanged + 100000000 ≤ s.ptime → s.happens .domainTimeLost (fun t => t.timeLost = true ∧ t.mem = s.mem)) ∧
    (∀ (r : Range) (loc : Nat) (val : W64), s.rangeOf (lineOf loc) = some r → s.poisoned (lineOf loc) = false → (r.starting = false ∨ ∃ m, s.dirGet (lineOf loc) = some (.cm m)) →
      (let m := if r.fmt = .i64 then 8 else 4; s.happens (.rodContribution none r.fmt loc val) (fun t => t = (s.pokeN loc (leBytes m (rodAdd r.fmt (le64 (s.peekN loc m)) val).toNat)).llcTouch (lineOf loc) true)) ∧
      (∀ q : Partial, s.partials = [q] → q.agent = die → q.line = lineOf loc → s.happens (.rodContribution (some die) r.fmt loc val) (fun t => t.mem = s.mem ∧
        let e := loc % 128 / (if r.fmt = .i64 then 8 else 4); t.partials = [{ q with elems := q.elems.set e (rodAdd r.fmt (q.elems.getD e 0) val) }]))) ∧
    (∀ r : Range, s.rangeOf line = some r → r.starting = true → (∀ m, s.dirGet line ≠ some (.cm m)) → s.happens (.cmRegistration die line) (fun t => t = s) ∧
      ∀ (at_ : Option (Fin 8)) (ty : Ty) (loc : Nat) (val : W64), lineOf loc = line → s.happens (.rodContribution at_ ty loc val) (fun t => t = s)) ∧
    (∀ r : Range, s.rangeOf line = some r → (r.starting = false ∨ ∃ m, s.dirGet line = some (.cm m)) → s.poisoned line = false → (∀ q ∈ s.partials, ¬(q.agent = die ∧ q.line = line)) →
      s.happens (.cmRegistration die line) (fun t => (s.l2Room (agentOf die) line = none → t = s) ∧
        (s.l2Room (agentOf die) line = some s → t.mem = s.mem ∧ t.dirGet line = some (.cm (s.cmMask line ||| agentBit (agentOf die))) ∧
          ∃ q, t.partials = q :: s.partials ∧ q.agent = die ∧ q.line = line ∧ ∀ e ∈ q.elems, e = if r.fmt = .f32 then 0x80000000 else 0))) ∧
    (∀ (r : Range) (q : Partial), s.rangeOf line = some r → s.partials.find? (fun q => q.agent == die && q.line == line) = some q →
      let folded (t : State) : Prop := t = (s.foldPartial r.fmt q).dirPut line (.cm (s.cmMask line &&& ~~~(agentBit (agentOf die))))
      (agentOf die ∉ s.deadAgents → agentOf die ∉ s.asleep →
        (s.nextFold line = some die → s.happens (.partialRecallAnswer die line (s.inc[agentOf die])) folded) ∧
        (s.nextFold line ≠ some die → s.happens (.partialRecallAnswer die line (s.inc[agentOf die])) (fun t => t = s))) ∧
      (agentOf die ∉ s.deadAgents → s.happens (.partialWriteback die line (s.inc[agentOf die])) folded)) ∧
    (∀ inc : BitVec 16, inc ≠ s.inc[agentOf die] ∨ agentOf die ∈ s.deadAgents → let old := s.logErr 3 (agentOf die) (s.linePa line)
      s.happens (.partialRecallAnswer die line inc) (fun t => t = old) ∧ s.happens (.partialWriteback die line inc) (fun t => t = old)) ∧
    (∀ r : Range, s.ranges[n] = some r →
      (r.starting = true → (∀ l ∈ r.lines, s.lineFree l = true ∧ s.reachable l = true) → s.happens (.cmrComplete n) (fun t => t.mem = s.mem ∧ t.ranges = s.ranges.set n (some { r with starting := false }) ∧ went (fun w => w.forRange n) t ∧
        ∀ l, r.lines = [l] → (s.homeTake l).2 = .ok → t.dirGet l = some (.cm 0))) ∧
      (r.starting = false → s.happens (.cmrComplete n) (fun t => t = s)) ∧
      (r.ending = true → s.rodsDue r.lines = true → (∀ l ∈ r.lines, ∀ o : AgentId, (s.cmMask l).getLsbD o.val = true → o ∉ s.asleep) → s.happens (.cmrendComplete n) (fun t => t.ranges = s.ranges ∧ t.mem = s.mem ∧ t.cores = s.cores)) ∧
      (r.ending = true → s.rodsDue r.lines = false → (∀ l ∈ r.lines, ∀ o : AgentId, (s.cmMask l).getLsbD o.val = true → o ∉ s.asleep) → s.happens (.cmrendComplete n) (fun t => t.ranges = s.ranges.set n none ∧ went (fun w => w.forRange n) t ∧
        ∀ l ∈ r.lines, t.dirGet l = none))) ∧
    (∀ (u : View) (l ix blk : Nat) (bytes : BitVec 128), s.viewList = [(h, u)] → u.mlines.idxOf? l = some ix → (((List.range 128).filter (fun z => bytes.getLsbD z)).filterMap (fun z => u.blockOfMaster (ix * 128 + z))).eraseDups = [blk] → s.Inv →
      s.happens (.masterWrite l bytes) (fun t => tagOwed (t.tagGet u blk) = (tagOwed (s.tagGet u blk) + 1) % 2 ^ 31 ∧ tagTag (t.tagGet u blk) = tagTag (s.tagGet u blk))) ∧
    (s.isMaster line = false → ∀ bytes, s.happens (.masterWrite line bytes) (fun t => t = s)) ∧
    (∀ u : View, s.views[h] = some u →
      let tag := s.tagGet u b
      let fresh (t : State) : Prop := (∃ d ∈ t.derivs, d.view = h ∧ d.blk = b ∧ d.n = tagOwed tag ∧ d.started = false) ∧
        tagBusy (t.tagGet u b) = true ∧ tagTag (t.tagGet u b) = tagTag tag ∧ tagOwed (t.tagGet u b) = tagOwed tag
      let me (z : VRead) : Prop := z.who = blockReader u b ∧ z.view = h ∧ z.blk = b
      (u.dropping = false → (∃ z ∈ s.timers, z.1 = h ∧ z.2.1 = b ∧ z.2.2 ≤ s.ptime) → s.Inv → s.happens (.derivationDelayExpiry h b) (fun t => fresh t ∧ ∀ z ∈ t.timers, ¬(z.1 = h ∧ z.2.1 = b))) ∧
      ((∃ d ∈ s.derivs, d.view = h ∧ d.blk = b ∧ d.started = false) → (∀ d ∈ s.derivs, d.view = h → d.blk = b → d.started = false) → s.reckonerFree u b = true → s.Inv → s.happens (.derivationStart h b) (fun t =>
        tagBusy (t.tagGet u b) = true ∧ tagTag (t.tagGet u b) = tagTag tag ∧ ∀ d ∈ t.derivs, d.view = h → d.blk = b → d.started = true)) ∧
      (∀ d : Deriv, s.derivs.find? (fun d => d.view == h && d.blk == b && d.started) = some d → s.poisoned (lineOf (u.tloc b)) = false → s.Inv → s.happens (.derivationComplete h b) (fun t => tagTag (t.tagGet u b) = d.n % 2 ^ 31 ∧
        (tagBusy (t.tagGet u b) = true ↔ ∃ e ∈ t.derivs, e.view = h ∧ e.blk = b) ∧ t.derivs = s.derivs.filter (fun e => e != d) ∧
        (tagFlt (t.tagGet u b) = true ↔ (∃ l ∈ u.srcLocs b, s.poisoned (lineOf l) = true) ∨ (∃ i < u.eb, s.poisoned (lineOf (u.eloc b i)) = true) ∨
          (u.vfmt.isBlock = true ∧ s.poisoned (lineOf (u.sloc b)) = true) ∨ deriveBlock u ((u.srcLocs b).map (fun l => u.mfmt.decode (leNat (s.peekN l u.msize)))) = none))) ∧
      ((∀ z ∈ s.vreads, ¬me z) →
        (tagBusy tag = false → tagStale tag = false → ∀ eng, s.happens (.viewRead h b eng) (fun t => t = s)) ∧
        (tagBusy tag = true → tagStale tag = false → ∀ eng, s.happens (.viewRead h b eng) (fun t => ∃ z, me z ∧ z.n = tagOwed tag ∧ t = { s with vreads := s.vreads ++ [z] })) ∧
        (tagStale tag = true → u.spol = 0 → u.dropping = false → s.Inv → ∀ eng, s.happens (.viewRead h b eng) (fun t => fresh t ∧ ∃ z ∈ t.vreads, me z ∧ z.n = tagOwed tag))) ∧
      (∀ z, s.sampled (blockReader u b) h b = some z → tagBusy tag = false → genGe (tagTag tag) z.n = true → ∀ eng,
        s.happens (.viewRead h b eng) (fun t => t.mem = s.mem ∧ t.derivs = s.derivs ∧ ∀ y ∈ t.vreads, ¬me y)) ∧
      (u.dropping = true → (∀ d ∈ s.derivs, d.view ≠ h) → s.happens (.vwdropComplete h) (fun t => t.views = s.views.set h none ∧ went (fun w => w == .drop h) t ∧ t.mem = s.mem)) ∧
      (∀ ns sc d, x.present = true → ((x.splits[j])).wait = .sync h ns sc d → (∀ z ∈ ns, genGe (tagTag (s.tagGet u z.1)) z.2 = true ∧ tagBusy (s.tagGet u z.1) = false) → s.happens (.vwsyncComplete c k j) (fun t => let y := t.strAt c k
        (y.splits[j]).wait = .none ∧ (y.splits[j]).pc = (x.splits[j]).pc + 8 ∧ y.sreg = x.sreg.set d.toFin (BitVec.ofNat 64 ((u.blocks.filter (fun z => tagFlt (s.tagGet u z))).length)) ∧ t.mem = s.mem)))

/-- R117, R120, R123 to R130, R239 to R263, R298 to R315, R434 to R439: what the steps of barriers, of the convoy engine and its chains, of the array, of bank commands and of the collective unit do. R437 and R438 with their values: a contribution raises each Sstar to the rank's scale or adds each element's m of R37 to its sum, or sets ERR;
the results are the sums quantised by R32, NaN blocks for an error, a dead scale or an overflow; the status word has the fields of R438. The model's own: a transfer's bytes taken and landed in one step each (log 29), a collective that goes on after a fault and who clears its area
(logs 40 and 94), the newest bytes of an operand (log 85), an update of a barrier that waits for the stores to its line (log 24), and the leases that end for it (log 43). An element that is a NaN, of which R37 gives no m, adds a free value (log 8). -/
def Obligations.EngineEvents : Prop :=
  ∀ (s : State) (c : CoreId) (k : Fin 8) (d : DieId) (p : PchId) (n : Nat),
    let core := s.cores[c]
    let arr := core.arr
    (∀ (pl : Place) (a e l : Nat), (s.barReady pl = true → s.barDead pl = false → (s.barTake pl).Inv → placeFits pl → s.happens (.barrierUpdate pl a e l) (fun t =>
        let q := s.barTake pl
        t.barWord pl 0 = (barApply (q.barWord pl 0) (q.barWord pl 1) a e l).1 ∧ q.SameBut t pl 8)) ∧
      (s.barReady pl = true → s.barDead pl = true → s.happens (.barrierUpdate pl a e l) (fun t => t = s)) ∧ (s.barReady pl = false → s.happens (.barrierUpdate pl a e l) (fun t => t = s.closeBar pl))) ∧
    (∀ pl : Place, s.happens (.barrierPoll pl) (fun t => t.mem = s.mem ∧ ∀ (c' : CoreId) (k' : SlotId) (j : SplitId), ((t.strAt c' k').splits[j]).pc = ((s.strAt c' k').splits[j]).pc ∧
      ((t.strAt c' k').splits[j]).wait = match ((s.strAt c' k').splits[j]).wait with | .barrier q v => if q = pl ∧ v ≠ s.phaseAt pl then .passed pl else .barrier q v | w => w)) ∧
    (∀ (i : Nat) (x : Xfer) (q : State) (rows : List (Option Nat)) (tk : Taken), core.nextXfer = some i → core.convoy[i]? = some x → s.xferRead c x = (q, rows, tk) →
      (tk.waits = false → s.happens (.convoyTransferStart c) (fun t =>
        t = q.modCore c (fun y => { y with convoy := y.convoy.set i { x with rows := rows, data := some tk.data, err := tk.err, errAddr := tk.addr }, turn := x.source }))) ∧
      (tk.waits = true → s.happens (.convoyTransferStart c) (fun t => (t.cores[c]).convoy = core.convoy.eraseIdx i ++ [x] ∧ (t.cores[c]).turn = x.source ∧ t.scr = s.scr))) ∧
    ((∀ x ∈ core.convoy, x.data.isSome = true) → s.happens (.convoyTransferStart c) (fun t => t = s)) ∧
    (∀ (x : Xfer) (bytes : List (Nat × Byte)) (q : State) (tk : Taken), core.convoy[n]? = some x → x.data = some bytes → s.xferWrite c x { data := bytes, err := x.err, addr := x.errAddr, waits := false } = (q, tk) → tk.waits = false →
      (∀ pl, s.reportBar c x = some pl → q.barReady pl = true) → (x.bar = none ∨ s.releasedBy c x.who.uid x.scope = true) → s.happens (.convoyLanding c n) (fun t => (t.cores[c]).convoy = (q.cores[c]).convoy.eraseIdx n ∧
        (x.bar = none → x.chain = none → tk.err = 0 → t.mem = q.mem ∧ t.scr = q.scr) ∧
        (∀ pl, x.bar = some pl → tk.err = 0 → q.barDead pl = false → let z := q.barTake pl; z.Inv → placeFits pl → t.barWord pl 0 = (barApply (z.barWord pl 0) (z.barWord pl 1) 0 0 x.len).1 ∧ z.SameBut t pl 8))) ∧
    (∀ (x : Xfer), core.convoy[n]? = some x → x.data.isSome = true → x.bar.isSome = true → s.releasedBy c x.who.uid x.scope = false → s.happens (.convoyLanding c n) (fun t => t.cores = s.cores ∧ t.scr = s.scr)) ∧
    (∀ b : Fin 64, s.happens (.engineBankStarvation c b) (fun t => t = if core.convoy.any (fun x => x.data.isNone) then { s with agenda := .convoyTransferStart c :: s.agenda } else s)) ∧
    (∀ (x : Chain) (e : Entry),
      let moved (t : State) (x' : Chain) : Prop := (t.cores[c]).chains[k] = some x' ∧ t.mem = s.mem
      let bar := if e.w3.getLsbD 63 then s.entryBar c x e else none
      (s.chainAt c k 1 = some (x, e) → s.happens (.chainCopy c k) (fun t => moved t { x with ptr := x.ptr + 32 } ∧ ∃ y : Xfer, (t.cores[c]).convoy = core.convoy ++ [y] ∧ y.kind = .copy ∧ y.chain = some k ∧ y.who = x.who ∧ y.bar = bar ∧
        y.len = (e.w3.extractLsb' 0 27).toNat ∧ y.ssp = e.w1.getLsbD 63 ∧ y.dsp = e.w1.getLsbD 62 ∧ y.src = sideAddr y.ssp e.w0 + strideOff (e.w2.extractLsb' 32 32) (x.index e) ∧
        y.dst = sideAddr y.dsp e.w1 + strideOff (e.w2.extractLsb' 0 32) (x.index e) ∧ y.data = none)) ∧
      (let side : W64 := BitVec.ofNat 64 (e.w2.extractLsb' 14 25).toNat + strideOff (e.w1.extractLsb' 0 32) (x.index e)
        let rows (t : State) (kind : XferKind) : Prop := moved t { x with ptr := x.ptr + 32 } ∧ ∃ y : Xfer, (t.cores[c]).convoy = core.convoy ++ [y] ∧ y.kind = kind ∧ y.chain = some k ∧ y.who = x.who ∧ y.bar = bar ∧
          y.nrows = (e.w3.extractLsb' 20 16).toNat + 1 ∧ y.rlen = (e.w3.extractLsb' 0 20).toNat + 1 ∧ y.len = y.nrows * y.rlen ∧ y.idx = (e.w2.extractLsb' 39 25).toNat ∧ y.rstr = (e.w1.extractLsb' 32 32).toNat ∧
          y.src = (if kind = .gather then va57 e.w0 else side) ∧ y.dst = (if kind = .gather then side else va57 e.w0) ∧ y.data = none;
        (s.chainAt c k 2 = some (x, e) → s.happens (.chainGather c k) (fun t => rows t .gather)) ∧ (s.chainAt c k 3 = some (x, e) → s.happens (.chainScatter c k) (fun t => rows t .scatter))) ∧
      (s.chainAt c k 4 = some (x, e) →
        let lv := (e.w0.extractLsb' 56 3).toNat
        let i := x.idx.getD lv 0
        s.happens (.chainLoop c k) (fun t => if i + 1 < (e.w0.extractLsb' 0 32).toNat then moved t { x with idx := x.idx.set lv (i + 1), ptr := (e.w1.extractLsb' 0 25).toNat }
          else moved t { x with idx := x.idx.set lv 0, ptr := x.ptr + 32 })) ∧
      (∀ (q : State) (bs : List Byte), s.chainAt c k 5 = some (x, e) → s.sideLoad (s.whoFor c x.who) (e.w2.getLsbD 63) (sideAddr (e.w2.getLsbD 63) e.w0).toNat 8 = (q, .ok bs) → q.cores = s.cores →
        s.happens (.chainCond c k) (fun t => (t.cores[c]).chains[k] = some { x with ptr := if condHolds (e.w2.extractLsb' 60 3).toNat (le64 bs) e.w1 then (e.w2.extractLsb' 0 25).toNat else x.ptr + 32 } ∧ t.mem = q.mem)) ∧
      (∀ pl, s.chainAt c k 6 = some (x, e) → s.entryBar c x e = some pl → s.barDead pl = false →
        (let past := (s.phaseAt pl).toNat ≠ ((e.w0.extractLsb' 0 8).toNat + x.index e) % 256; (past → s.happens (.chainWait c k) (fun t => moved t { x with ptr := x.ptr + 32 })) ∧ (¬past → s.happens (.chainWait c k) (fun t => t = s)))) ∧
      (∀ pl, s.chainAt c k 7 = some (x, e) → s.entryBar c x e = some pl → s.barDead pl = false → (∃ cc o, pl = .scr cc o) → (∀ y ∈ core.convoy, y.chain ≠ some k) → s.releasedBy c x.who.uid e.scope = true → s.Inv → placeFits pl →
        s.happens (.chainArrive c k) (fun t => (t.cores[c]).chains[k] = some { x with ptr := x.ptr + 32 } ∧ t.barWord pl 0 = (barApply (s.barWord pl 0) (s.barWord pl 1) 1 (e.w0.extractLsb' 0 27).toNat 0).1 ∧ s.SameBut t pl 8)) ∧
      ((∃ y ∈ core.convoy, y.chain = some k) → s.chainAt c k 7 = some (x, e) → (∃ pl, s.entryBar c x e = some pl) → s.happens (.chainArrive c k) (fun t => t = s)) ∧
      (∀ pl, s.chainAt c k 7 = some (x, e) → s.entryBar c x e = some pl → s.barDead pl = false → s.releasedBy c x.who.uid e.scope = false → s.happens (.chainArrive c k) (fun t => t = s)) ∧
      ((∀ y ∈ core.convoy, y.chain ≠ some k) → s.releasedBy c x.who.uid x.scope = true → s.barReady x.bar = true → s.barDead x.bar = false → let z := s.barTake x.bar; z.Inv → placeFits x.bar →
        (s.chainAt c k 8 = some (x, e) → s.happens (.chainEnd c k) (fun t => (t.cores[c]).chains[k] = none ∧ t.barWord x.bar 0 = (barApply (z.barWord x.bar 0) (z.barWord x.bar 1) 1 0 0).1 ∧ z.SameBut t x.bar 8)) ∧
        (∀ code, core.chains[k] = some x → x.suspended = false → s.chainNext c x = .stop code → code ≠ 0 → s.happens (.chainStop c k) (fun t => (t.cores[c]).chains[k] = none ∧
          t.barWord x.bar 0 = (barApply (withEcode (z.barWord x.bar 0) code) (z.barWord x.bar 1) 1 0 0).1 ∧ z.SameBut t x.bar 8)))) ∧
    (∀ (i : Nat) (o : TileOp), arr.queue[i]? = some o →
      let ctx := ctxOf o.who.ptroot
      let first (q : TileKind → Bool) : Prop := arr.queue.findIdx? (fun y => q y.kind && !y.ran) = some i ∧ ∀ y ∈ arr.queue.take i, y.kind ≠ .mwsw ∧ y.kind ≠ .clear
      (∀ wt s24 pa ma, o.kind = .mwld wt s24 pa ma → first (fun z => match z with | .mwld .. => true | _ => false) → s.happens (.tileMwldLoad c) (fun t => t.mem = s.mem ∧ t.scr = s.scr ∧ (t.cores[c]).arr.active = arr.active ∧
        (let w := (t.cores[c]).arr.shadow; w.fmt = wt ∧ w.s24 = s24 ∧ (∀ b < planeBytes wt s24, cellGet w.plane b = (s.arrRead c ctx pa (planeBytes wt s24)).getD b 0) ∧
          (∀ b < metaBytes wt s24, cellGet w.aux b = (s.arrRead c ctx ma (metaBytes wt s24)).getD b 0) ∧ (t.cores[c]).arr.queue = arr.queue.modify i (fun y => { y with ran := true, cnt := w.counts })))) ∧
      (o.kind = .mwsw → first (fun z => match z with | .mwsw => true | _ => false) → (∀ y ∈ arr.queue.take i, y.ran = true ∧ ∀ a b e f, y.kind ≠ .mwld a b e f) → s.happens (.tileMwswExchange c) (fun t => t.mem = s.mem ∧ t.scr = s.scr ∧
        (t.cores[c]).arr.active = arr.shadow ∧ (t.cores[c]).arr.shadow = arr.active ∧ (t.cores[c]).arr.queue = arr.queue.modify i (fun y => { y with ran := true }))) ∧
      (∀ xt sc osp add out src scl geo regs lines, o.kind = .mmac xt sc osp add false out src scl geo regs lines → first (fun z => match z with | .mmac .. => true | _ => false) → (geo.extractLsb' 0 8).toNat = 0 → xt.isBlock = false →
        s.happens (.tileMmacStream c) (fun t =>
          let row := (s.arrRead c ctx src (32 * xt.width))
          let xs := (List.range 256).map (fun q => xt.decode (planeCode (fun b => row.getD b 0) xt.width (xt.width * q)))
          let ys := (List.range (colsOf arr.active.fmt)).map (fun q => rn32 (kSum (((List.range 256).zip xs).map (fun z => (z.2.mul (arr.active.val z.1 q)).1))))
          let u := s.emitRow c o.who sc osp add out (lines.take (colsOf arr.active.fmt / 32)) ys
          t.mem = u.mem ∧ t.scr = u.scr ∧ t.partials = u.partials ∧ (t.cores[c]).arr.active = arr.active ∧ (t.cores[c]).arr.shadow = arr.shadow ∧ ∃ y, (t.cores[c]).arr.queue[i]? = some y ∧ y.kind = o.kind ∧ y.ran = true)) ∧
      (∀ z zs, arr.queue = z :: zs → (z.kind = .clear → s.happens (.tileOpComplete c) (fun t => t = s.modCore c (fun y => { y with arr := { y.arr with active := WSet.cleared, shadow := WSet.cleared, queue := zs } }))) ∧
        (z.kind ≠ .clear → arr.queue.findIdx? (·.ran) = some i → s.happens (.tileOpComplete c) (fun t => (t.cores[c]).arr.queue = arr.queue.eraseIdx i ∧ t.mem = s.mem ∧ t.scr = s.scr)))) ∧
    (16 ≤ (s.abAt d p).queue.length → d ∉ s.deadDies → s.happens (.bankCommandEnqueue d p) (fun t => t.mem = s.mem ∧ (t.abAt d p).coming = (s.abAt d p).coming ∧ (t.abAt d p).queue = (s.abAt d p).queue)) ∧
    (∀ (x : BankCmd) (xs : List BankCmd), (s.abAt d p).coming = x :: xs → (s.abAt d p).queue.length < 16 → d ∉ s.deadDies → s.happens (.bankCommandEnqueue d p) (fun t => t.mem = s.mem ∧ (t.abAt d p).coming = xs ∧ (t.abAt d p).queue = (s.abAt d p).queue ++ [x])) ∧
    (∀ x : BankCmd, (s.abAt d p).run = none → (s.abAt d p).queue[n]? = some x → d ∉ s.deadDies → s.happens (.bankCommandStart d p n) (fun t => t.mem = s.mem ∧ (t.abAt d p).queue = (s.abAt d p).queue.eraseIdx n ∧
      ∃ r, (t.abAt d p).run = some r ∧ r.cmd = x ∧ r.pc = 0 ∧ r.steps = 0 ∧ r.emitted = 0 ∧ (∀ i : Fin 16, r.q[i] = if i.val = 14 then x.arg.setWidth 32 else if i.val = 15 then x.arg.extractLsb' 32 32 else 0) ∧ (∀ i : Fin 16, r.c[i] = 0))) ∧
    (∀ (r : AbRun) (q : State) (ac ec pc : Nat), (s.abAt d p).run = some r → r.ended = some (ac, ec, pc) → r.refused = none → s.putStatus r.cmd (bankStatus ec ac pc r.emitted) = (q, some 0) → q.barReady r.cmd.bar = true →
      s.happens (.bankCommandEnd d p) (fun t => (t.abAt d p).run = none ∧ (q.barDead r.cmd.bar = false → let z := q.barTake r.cmd.bar; z.Inv → placeFits r.cmd.bar → ec = 0 →
        t.barWord r.cmd.bar 0 = (barApply (z.barWord r.cmd.bar 0) (z.barWord r.cmd.bar 1) 1 0 0).1 ∧ z.SameBut t r.cmd.bar 8))) ∧
    (∀ r : AbRun, (s.abAt d p).run = some r → r.ended = none → (2 ^ 26 ≤ r.steps → s.happens (.abacusStepLimit d p) (fun t => t.mem = s.mem ∧ (t.abAt d p).run = some { r with ended := some (6, 0, r.pc) })) ∧
      (r.steps < 2 ^ 26 → s.happens (.abacusStepLimit d p) (fun t => t = s))) ∧
    (∀ x : Coll, s.colls[n]? = some x →
      let area := (va57 x.words[(5 : Fin 8)]).toNat
      let ph := (x.words[(0 : Fin 8)].extractLsb' 40 8).toNat
      let phase (off : Nat) (q : State) (b : Byte) : Prop := ∃ tk : Taken, s.getAll x.who (area + off + 7) 1 = (q, tk) ∧ tk.waits = false ∧ tk.err = 0 ∧ tk.data.map (·.2) = [b]
      (∀ q b, x.sum = false → x.stage = 0 → phase 0x40 q b → s.happens (.xscaleUnitContribute n) (fun t => t = if b.toNat = (ph + 255) % 256 then s else q.collContribute n x)) ∧
      (∀ q b, x.sum = true → x.stage = 0 → phase 0 q b → s.happens (.xsumUnitContribute n) (fun t => t = if b.toNat = ph then s else q.collContribute n x)) ∧
      (∀ q b, x.sum = false → x.stage = 1 → phase 0 q b → (b.toNat = ph → s.happens (.xscaleUnitFinish n) (fun t => t = s)) ∧
        (∀ z tk, b.toNat ≠ ph → q.colls = s.colls → q.putAll x.who (va57 x.words[(7 : Fin 8)]).toNat (leBytes 8 x.stat.toNat) = (z, tk) → tk.waits = false → z.barReady x.bar = true → z.colls = s.colls →
          s.happens (.xscaleUnitFinish n) (fun t => t.colls = s.colls.eraseIdx n))) ∧
      (∀ q b, x.sum = true → x.stage = 1 → phase 0x20 q b → s.happens (.xsumUnitFinish n) (fun t => t = if b.toNat = ph then s else q.collResults n x)) ∧
      (x.ecode < 16 → x.stat.extractLsb' 60 4 = BitVec.ofNat 4 x.ecode ∧ x.stat.getLsbD 59 = x.mism ∧ x.stat.getLsbD 58 = x.err ∧ x.stat.extractLsb' 56 2 = (if x.sum then 2 else 1) ∧
        x.stat.extractLsb' 48 8 = BitVec.ofNat 8 ph ∧ x.stat.extractLsb' 0 48 = BitVec.ofNat 48 (min x.ovf (2 ^ 21 - 1))) ∧
      (∀ (q h i e : State) (th ti te : Taken),
        let blocks := (x.words[(0 : Fin 8)].extractLsb' 0 20).toNat + 1
        let ty : Ty := if x.words[(0 : Fin 8)].extractLsb' 48 2 = 0 then .b8 else .b4
        let sums := area + 0x80 + (blocks + 127) / 128 * 128
        let bytes (k : Taken) : List Byte := k.data.map (·.2)
        let hw := wordAt (bytes th) 0
        let same := hw.extractLsb' 50 14 = x.words[(0 : Fin 8)].extractLsb' 50 14 ∧ hw.extractLsb' 48 2 = x.words[(0 : Fin 8)].extractLsb' 48 2 ∧ hw.extractLsb' 0 20 = x.words[(0 : Fin 8)].extractLsb' 0 20
        let sumOf (bs : List Byte) (k : Nat) : Nat := leNat ((bs.drop (16 * k)).take 16)
        let signed (k : Nat) : Int := if k < 2 ^ 127 then k else (k : Int) - 2 ^ 128
        let read (a : State) (at_ len : Nat) (b : State) (k : Taken) : Prop := a.getAll x.who at_ len = (b, k) ∧ k.waits = false
        let arrived (off : Nat) (u : State) (y : Coll) : Prop := ∀ (v : State) (p : Place), u.barCheck x.who false (BitVec.ofNat 64 (area + off)) = (v, .ok p) → v.barReady p = true → v.barDead p = false →
          let z := v.barTake p; z.Inv → placeFits p → v.colls = s.colls →
          let t := q.collContribute n x
          t.colls[n]? = some y ∧ t.barWord p 0 = (barApply (z.barWord p 0) (z.barWord p 1) 1 0 0).1 ∧ z.SameBut t p 8
        read q (area + 0x60) 8 h th → th.err = 0 →
        (read h (va57 x.words[(2 : Fin 8)]).toNat (2 * blocks) i ti → (if x.sum then read i (va57 x.words[(1 : Fin 8)]).toNat (4 * ty.width * blocks) e te else e = i ∧ te = Taken.none) →
          ((¬same ∨ ti.err ≠ 0 ∨ te.err ≠ 0) → ∀ u tu, e.putAll x.who (area + 0x60) (leBytes 8 (hw ||| (1#64 <<< 47)).toNat) = (u, tu) → tu.waits = false → tu.err = 0 → x.ecode = 0 →
            arrived (if x.sum then 0x20 else 0) u { x with stage := 1, mism := x.mism || decide (¬same), ecode := if ti.err ≠ 0 then ecodeOf ti.err else if te.err ≠ 0 then ecodeOf te.err else 0 }) ∧
          (same → ti.err = 0 → te.err = 0 → ∀ st ts, read e (area + 0x80) blocks st ts → ts.err = 0 →
            (x.sum = false → ∃ out : List Byte, out.length = blocks ∧ (∀ b < blocks, (out.getD b 0).toNat = max ((bytes ts).getD b 0).toNat ((bytes ti).getD (2 * b) 0).toNat) ∧
              ∀ u tu, st.putAll x.who (area + 0x80) out = (u, tu) → tu.waits = false → tu.err = 0 → arrived 0 u { x with stage := 1 }) ∧
            (∀ su tz, x.sum = true → read st sums (512 * blocks) su tz → tz.err = 0 → ∃ out : List Byte, out.length = 512 * blocks ∧
              (∀ b < blocks, ∀ j < 32,
                let S := (bytes ts).getD b 0
                let v := blockVal ty ((bytes ti).getD (2 * b) 0) ((bytes ti).getD (2 * b + 1) 0)
                  (((bytes te).getD (ty.width * (32 * b + j) / 8) 0).toNat / 2 ^ (ty.width * (32 * b + j) % 8) % 2 ^ ty.width)
                let exact : Rat := v.rat * (2 : Rat) ^ (173 - (S.toNat : Int))
                (S = 0xFF → sumOf out (32 * b + j) = sumOf (bytes tz) (32 * b + j)) ∧
                (S ≠ 0xFF → (∃ sg k ex, v = .fin sg k ex) → ∃ m : Int, magOf (exact - m) ≤ 1 / 2 ∧ (magOf (exact - m) = 1 / 2 → m % 2 = 0) ∧
                  (sumOf out (32 * b + j) : Int) = (sumOf (bytes tz) (32 * b + j) + m) % 2 ^ 128)) ∧
              ∀ u tu, su.putAll x.who sums out = (u, tu) → tu.waits = false → tu.err = 0 → arrived 0x20 u { x with stage := 1 }))) ∧
        (∀ st su ts tz, read h (area + 0x80) blocks st ts → read st sums (512 * blocks) su tz → ts.err = 0 → tz.err = 0 → ∃ es ss : List Byte, es.length = 4 * ty.width * blocks ∧ ss.length = 2 * blocks ∧
          let S (b : Nat) : Byte := (bytes ts).getD b 0
          let z (b j : Nat) : Int := signed (sumOf (bytes tz) (32 * b + j))
          let dead (b : Nat) : Prop := hw.getLsbD 47 = true ∨ S b = 0xFF
          let large (b : Nat) : Prop := ∃ j < 32, z b j < -(2 ^ 63) ∨ 2 ^ 63 ≤ z b j
          (∀ b < blocks,
            let block := (es.drop (4 * ty.width * b)).take (4 * ty.width)
            (dead b ∨ large b → block = List.replicate (4 * ty.width) 0 ∧ ss.getD (2 * b) 0 = 0xFF ∧ ss.getD (2 * b + 1) 0 = 0) ∧
            (¬dead b → ¬large b →
              let r := (quantise ty .rn (List.replicate 32 0) ((List.range 32).map (fun j => .fin (decide (z b j < 0)) (z b j).natAbs ((S b).toNat - 173 : Int)))).1
              block = leBytes (4 * ty.width) (packCodes ty.width r.codes) ∧ ss.getD (2 * b) 0 = r.S ∧ ss.getD (2 * b + 1) 0 = r.P)) ∧
          ∀ u w tu tw, su.putAll x.who (va57 x.words[(3 : Fin 8)]).toNat es = (u, tu) → u.putAll x.who (va57 x.words[(4 : Fin 8)]).toNat ss = (w, tw) → tu.waits = false → tw.waits = false →
            tu.err = 0 → tw.err = 0 → w.colls = s.colls → ∃ ovf, (q.collResults n x) = w.modColl n (fun y => { y with stage := 2, err := hw.getLsbD 47, ovf := ovf }) ∧
              (ovf = 0 ↔ ∀ b < blocks, large b → dead b) ∧ ovf ≤ blocks)) ∧
      (∀ z tk, x.sum = true → 4 ≤ x.stage → s.putAll x.who (va57 x.words[(7 : Fin 8)]).toNat (leBytes 8 x.stat.toNat) = (z, tk) → tk.waits = false → z.barReady x.bar = true → z.colls = s.colls →
        s.happens (.xsumUnitFinish n) (fun t => t.colls = s.colls.eraseIdx n)) ∧
      (∀ (q z : State) (tk tz : Taken), x.sum = true → x.stage = 2 → s.getAll x.who (area + 0x60) 8 = (q, tk) → tk.waits = false → tk.err ≠ 0 →
        q.putAll x.who (area + 0x80) (List.replicate (x.sumOff - 0x80 + 512 * x.nblk) 0) = (z, tz) → tz.waits = false → z.colls = s.colls →
        s.happens (.collectiveAreaClear n) (fun t => t.agenda = .xsumUnitFinish n :: z.agenda ∧ t.colls[n]? = some { x with stage := 3 } ∧ t.mem = z.mem)) ∧
      (∀ (q u z : State) (tk tu tz : Taken), x.sum = true → x.stage = 2 → s.getAll x.who (area + 0x60) 8 = (q, tk) → tk.waits = false → tk.err = 0 →
        let hw := wordAt (tk.data.map (·.2)) 0
        let blocks := (hw.extractLsb' 0 20).toNat + 1
        q.putAll x.who (area + 0x60) (leBytes 8 (hw &&& ~~~(1#64 <<< 47)).toNat) = (u, tu) → tu.waits = false → u.putAll x.who (area + 0x80) (List.replicate ((blocks + 127) / 128 * 128 + 512 * blocks) 0) = (z, tz) →
        tz.waits = false → z.colls = s.colls → s.happens (.collectiveAreaClear n) (fun t => t.agenda = .xsumUnitFinish n :: z.agenda ∧ t.colls[n]? = some { x with stage := 3 } ∧ t.mem = z.mem)))

/-- R110, R341, R350, R352, R409 to R418: what the steps of launch submission, of bazaar queues, of the steal ring, of context faults and of the context commands do.
The model's own: a launch's record read as core 0 in user mode (log 20), its slot and the record address of a retried submission (log 102), what a fault and END
leave of a context (log 61), the packing of an image (log 62), what a restore reads and its launches (log 63), and the choice and order of evictions (log 64). -/
def Obligations.ContextEvents : Prop :=
  ∀ (s : State) (v : W64) (qn : Fin 16) (e : Fin 64) (ctx : BitVec 12) (kind : BitVec 8) (c : CoreId) (j : Nat),
    let ent := s.ctab[e]
    let ectx := ent[0].extractLsb' 0 12
    let valid := ent[0].getLsbD 63 = true
    let st := (ent[0].extractLsb' 56 3).toNat
    let ends (err : Nat) (t : State) : Prop := t.ctxstat = BitVec.ofNat 64 (err * 2 ^ 12 + e.val) ∧ t.mem = s.mem ∧ t.cores = s.cores ∧ t.ctab = s.ctab
    (((∀ i : Fin 64, (s.launches[i]).on = true) → s.happens (.launchSubmit v) (fun t => t.lstat = BitVec.ofNat 64 (2 ^ 12) ∧ t.ldoor1 = v ∧ t.launches = s.launches ∧ t.bazaar = s.bazaar))) ∧
    (∀ (i : Fin 64) (q z y : State) (tk tr : Taken),
      let s0 : State := { s with ldoor1 := v }
      let who := whoOf 0 (v &&& 0xFFF0FFFFFFFFF001) .user
      let w (n : Nat) : W64 := wordAt (tk.data.map (·.2)) n
      let root := tr.data.map (·.2)
      (s.launches[i]).on = false → (∀ i', i' < i → (s.launches[i']).on = true) → s0.getAll who (va57 s.ldoor0).toNat 64 = (q, tk) → tk.waits = false →
      (tk.err ≠ 0 → s.happens (.launchSubmit v) (fun t => t.lstat = BitVec.ofNat 64 (2 * 2 ^ 12) ∧ t.launches = q.launches ∧ t.bazaar = q.bazaar)) ∧
      (tk.err = 0 → q.getAll who (va57 (w 0)).toNat 128 = (z, tr) → tr.waits = false → tr.err = 0 →
        let l0 : Launch := { on := true, live := 1, tasks := 0, words := gen 8 w, ptroot := v &&& 0xFFF0FFFFFFFFF001, poolUsed := [], record := va57 s.ldoor0, ended := false, rlist := [], counts := [] }
        let bq := z.bazaar[l0.bq]
        let ok := recordOk w = true ∧ s.ldoor0.extractLsb' 0 6 = 0 ∧ imageBad root = false
        (∀ good, z.launchPlaces l0 = (y, some good) → (¬ok ∨ good = false ∨ bq.valid = false ∨ bq.ctx ≠ ctxOf v) → s.happens (.launchSubmit v) (fun t => t.lstat = BitVec.ofNat 64 (3 * 2 ^ 12) ∧ t.launches = y.launches)) ∧
        (ok → z.launchPlaces l0 = (y, some true) → bq.valid = true → bq.ctx = ctxOf v → (bq.room = false → s.happens (.launchSubmit v) (fun t => t.lstat = BitVec.ofNat 64 (4 * 2 ^ 12))) ∧
          (bq.room = true → (w 3).extractLsb' 58 6 = 0 → root.length = 128 → s.happens (.launchSubmit v) (fun t => t.lstat = BitVec.ofNat 64 i.val ∧ t.launches = y.launches.set i l0 ∧
            ∃ m : SEnt, (t.bazaar[l0.bq]).q = (y.bazaar[l0.bq]).q ++ [m] ∧ m.launch = i ∧ m.ctx = ctxOf v ∧ m.bytes.take 8 = root.take 8 ∧ m.bytes.drop 24 = root.drop 24))))) ∧
    (let okCap := 6 ≤ ((s.bazaar[qn]).w1.extractLsb' 0 5).toNat ∧ ((s.bazaar[qn]).w1.extractLsb' 0 5).toNat ≤ 16
      let addr := v &&& 0x0000FFFFFFFFF000;
      s.happens (.bazaarQueueDisable qn v) (fun t => (t.bazaar[qn]).q = [] ∧ (t.bazaar[qn]).w0 = addr ∧ (t.bazaar[qn]).w1 = (s.bazaar[qn]).w1) ∧
      (v.getLsbD 63 = true → s.happens (.bazaarQueueEnable qn v) (fun t => (t.bazaar[qn]).q = [] ∧ (t.bazaar[qn]).w1 = (s.bazaar[qn]).w1 ∧
        (s.ringOk v = true ∧ okCap → (t.bazaar[qn]).w0 = addr ||| (1#64 <<< 63)) ∧ (¬(s.ringOk v = true ∧ okCap) → (t.bazaar[qn]).w0 = addr)))) ∧
    (∀ loads reqs entries, (s.ring = none ∨ s.token ≠ none) → s.happens (.caravanToken loads reqs entries) (fun t => t = s)) ∧
    (∀ loads r, s.ring = some r → s.token = none → s.happens (.caravanToken loads [] []) (fun t => t.mem = s.mem ∧ t.launches = s.launches ∧ t.bazaar = s.bazaar ∧
      ∃ tok, t.token = some tok ∧ tok.loads = (s.um.devnum.toNat, s.ringLoad) :: loads.filter (fun x => x.1 != s.um.devnum.toNat) ∧ tok.entries = [] ∧ tok.since = s.ptime ∧
        (tok.reqs ≠ [] → s.ringLoad = 0 ∧ ∃ tag, tok.reqs = [(s.um.devnum.toNat, tag, 8)]))) ∧
    s.happens .caravanTokenPass (fun t => t = { s with token := none }) ∧
    (s.ctxEntry ctx = some e → s.happens (.contextFault ctx kind) (fun t => t.mem = s.mem ∧ (t.ctab[e])[0].extractLsb' 56 3 = 3 ∧ (t.ctab[e])[3].extractLsb' 56 8 = kind ∧ (∀ i, i ≠ e → t.ctab[i] = s.ctab[i]) ∧
      ∀ c' k, (t.strAt c' k).sreg = (s.strAt c' k).sreg ∧ ((t.strAt c' k).ctx = ctx → (t.strAt c' k).present = true → (t.cores[c']).arr.owner ≠ some (k, (t.strAt c' k).uid)))) ∧
    (s.ctxEntry ctx = none → s.happens (.contextFault ctx kind) (fun t => ∀ c' k, (t.strAt c' k).present = true → (t.strAt c' k).ctx ≠ ctx)) ∧
    (¬valid ∨ st ≠ 0 → s.happens (.ctxSave e) (ends 2)) ∧
    (let s1 := allCores.foldl (fun u i => u.setChains i ectx true) s; valid → st = 0 →
      ((∃ i : CoreId, s1.shareQuiet i ectx = false) → s.happens (.ctxSave e) (fun t => t.ctxstat = BitVec.ofNat 64 (2 ^ 63 + e.val) ∧ t.mem = s.mem ∧ t.ctab = s.ctab)) ∧
      (∀ (q : State) (tk : Taken), (∀ i : CoreId, s1.shareQuiet i ectx = true) → s1.coresOf ectx = [] →
        s1.putAll (imageWho 0) (s1.imageAt e) (imageHeader (ent[2].extractLsb' 0 7).toNat 1 (ent[0].extractLsb' 59 4).toNat ectx [] ((s1.launchesOf ectx).map (fun i => (i, s1.launches[i])))) = (q, tk) → tk.waits = false → q.ctab = s.ctab →
        (tk.err = 0 → s.happens (.ctxSave e) (fun t => t.ctxstat = BitVec.ofNat 64 e.val ∧ (t.ctab[e])[0].extractLsb' 56 3 = 1 ∧ t.mem = q.mem ∧ (∃ im ∈ t.images, im.ctx = ectx) ∧
          ∀ i : Fin 64, (t.launches[i]).on = true → ctxOf (t.launches[i]).ptroot ≠ ectx)) ∧
        (tk.err ≠ 0 → s.happens (.ctxSave e) (fun t => t.ctxstat = BitVec.ofNat 64 (3 * 2 ^ 12 + e.val) ∧ t.agenda = .contextFault ectx 2 :: q.agenda))) ∧
      (∀ (q w : State) (sv : Option (List SavedCore)) (wt : Bool) (tk : Taken), (∀ i : CoreId, s1.shareQuiet i ectx = true) →
        let cs := s1.coresToSave ectx
        let s2 := cs.foldl (fun u i => (u.ctxSlots i ectx).foldl (fun u k => u.releaseArray i k true) (u.assignCluster i ectx)) s1
        s2.saveCores ectx cs = (q, sv, wt) →
        (sv = none → s.happens (.ctxSave e) (fun t => t.ctxstat = BitVec.ofNat 64 (3 * 2 ^ 12 + e.val) ∧ t.agenda = .contextFault ectx 2 :: q.agenda ∧ t.ctab = q.ctab ∧ t.images = q.images)) ∧
        (∀ l, sv = some l → let cl := (l.map (·.cluster)).eraseDups
          q.putAll (imageWho 0) (s1.imageAt e) (imageHeader (ent[2].extractLsb' 0 7).toNat (max 1 cl.length) (ent[0].extractLsb' 59 4).toNat ectx cl ((q.launchesOf ectx).map (fun i => (i, q.launches[i])))) = (w, tk) →
          (wt = true ∨ tk.waits = true → s.happens (.ctxSave e) (fun t => t.ctxstat = BitVec.ofNat 64 (2 ^ 63 + e.val) ∧ t.ctab = s.ctab ∧ t.mem = s.mem)) ∧
          (wt = false → tk.waits = false → tk.err ≠ 0 → s.happens (.ctxSave e) (fun t => t.ctxstat = BitVec.ofNat 64 (3 * 2 ^ 12 + e.val) ∧ t.agenda = .contextFault ectx 2 :: w.agenda)) ∧
          (wt = false → tk.waits = false → tk.err = 0 → w.ctab = s.ctab → s.happens (.ctxSave e) (fun t => t.ctxstat = BitVec.ofNat 64 e.val ∧ (t.ctab[e])[0].extractLsb' 56 3 = 1 ∧
            (t.ctab[e])[2].extractLsb' 8 7 = BitVec.ofNat 7 (max 1 cl.length) ∧ (∃ im ∈ t.images, im.ctx = ectx ∧ im.cores = l) ∧ (∀ y ∈ t.imap, y.1 ≠ ectx) ∧
            ((∀ i k, (w.strAt i k).present = true → (w.strAt i k).ctx = ectx → i ∈ cs) → ∀ i k, (t.strAt i k).present = true → (t.strAt i k).ctx ≠ ectx) ∧
            ∀ i : Fin 64, (t.launches[i]).on = true → ctxOf (t.launches[i]).ptroot ≠ ectx))))) ∧
    ((∀ im ∈ s.images, im.ctx ≠ ectx) → s.happens (.ctxRestoreCluster e j) (fun t => t = s)) ∧
    (¬valid ∨ st ≠ 1 → s.happens (.ctxRestore e) (ends 2)) ∧
    (let im := s.remembered ectx;
      (∀ (q : State) (tk : Taken), valid → st = 1 → s.getAll (imageWho 0) (s.imageAt e) 24 = (q, tk) → tk.waits = false →
        let ident := wordAt (tk.data.map (·.2)) 0
        let cl := (List.range 64).filter (wordAt (tk.data.map (·.2)) 2).getLsbD
        (tk.err ≠ 0 ∨ ident ≠ 0x4A394358 → s.happens (.ctxRestore e) (fun t => t = { q with ctxstat := BitVec.ofNat 64 (3 * 2 ^ 12 + e.val) })) ∧
        (tk.err = 0 → ident = 0x4A394358 → q.clcount < q.mincl e → s.happens (.ctxRestore e) (fun t => t = { q with ctxstat := BitVec.ofNat 64 (4 * 2 ^ 12 + e.val) })) ∧
        (∀ (z : State) (tl : Taken) (ls : List (Fin 64 × Launch)), tk.err = 0 → ident = 0x4A394358 → q.mincl e ≤ q.clcount → q.readLaunches e im = (z, tl, ls) →
          (tl.waits = true → s.happens (.ctxRestore e) (fun t => t.ctxstat = BitVec.ofNat 64 (2 ^ 63 + e.val) ∧ t.launches = z.launches ∧ t.images = z.images)) ∧
          (tl.waits = false → tl.err ≠ 0 → s.happens (.ctxRestore e) (fun t => t = { z with ctxstat := BitVec.ofNat 64 (3 * 2 ^ 12 + e.val) })) ∧
          (tl.waits = false → tl.err = 0 → (z.newSlots ls).length < ls.length → s.happens (.ctxRestore e) (fun t => t = { z with ctxstat := BitVec.ofNat 64 (5 * 2 ^ 12 + e.val) })) ∧
          (tl.waits = false → tl.err = 0 → ls.length ≤ (z.newSlots ls).length → s.happens (.ctxRestore e) (fun t => t.ctxstat = BitVec.ofNat 64 e.val ∧ t.placings.head? = some (ectx, z.uids) ∧
            ((∀ n : Fin 16, ∀ m ∈ (z.bazaar[n]).q, m.ctx ≠ ectx) → t.mem = z.mem) ∧ ((t.ctab[e])[0].extractLsb' 56 3).toNat = (if cl = [] then 0 else 2) ∧
            (cl ≠ [] → ∃ y ∈ t.images, y.ctx = ectx ∧ y.pending = cl) ∧ (∀ l ∈ ls, l.2.on = true ∧ l.2.ptroot = q.ctxroot &&& 0xFFF0FFFFFFFFF001) ∧
            ((ls.map (·.1)).Nodup → ∀ l ∈ ls, ∃ i : Fin 64, (z.launches[i]).on = false ∧ t.launches[i] = l.2)))))) ∧
    (∀ im, s.images.find? (fun i => i.ctx == ectx) = some im →
      (st ≠ 2 ∨ j ∉ im.pending → s.happens (.ctxRestoreCluster e j) (fun t => t = s)) ∧
      (∀ (dst : Fin 64) (q : State) (tk : Taken) (xs : List SavedCore), st = 2 → j ∈ im.pending → (∀ i : CoreId, (s.cores[i]).kept ≠ some ectx) → s.readCluster e im j = (q, tk, xs) → tk.waits = false →
        (tk.err ≠ 0 → s.happens (.ctxRestoreCluster e j) (fun t => t = { q with agenda := .contextFault ectx 2 :: q.agenda })) ∧
        (tk.err = 0 → q.openClusters ectx xs = [dst] → q.images = s.images → s.happens (.ctxRestoreCluster e j) (fun t => (ectx, j, dst) ∈ t.imap ∧ (∀ y ∈ t.images, y.ctx = ectx → j ∉ y.pending) ∧
          ((∀ x ∈ xs, ∀ y ∈ x.share.strs, y.2.present = true) → ∀ x ∈ xs, ∀ y ∈ x.share.strs, ∃ k, t.strAt (coreOf dst x.cidx) k = y.2))))) ∧
    (∀ (ncore nslot ngran nreg : Nat), s.ctxstat.getLsbD 63 = false →
      let d : Demand := { ctx := ectx, nslot := nslot, ngran := ngran, nreg := nreg }
      let bad := ncore = 0 ∨ 256 < ncore ∨ 16 < nslot ∨ 16 < ngran ∨ 4096 < nreg
      (¬valid ∨ (st ≠ 0 ∧ st ≠ 1) → s.happens (.ctxPreempt e ncore nslot ngran nreg) (ends 2)) ∧
      (valid → (st = 0 ∨ st = 1) → bad → s.happens (.ctxPreempt e ncore nslot ngran nreg) (ends 6)) ∧
      (valid → (st = 0 ∨ st = 1) → ¬bad → (s.chosenCores ncore d).length < ncore → s.happens (.ctxPreempt e ncore nslot ngran nreg) (ends 7)) ∧
      (valid → (st = 0 ∨ st = 1) → ¬bad → ncore ≤ (s.chosenCores ncore d).length → s.happens (.ctxPreempt e ncore nslot ngran nreg) (fun t =>
        t.ctxstat = BitVec.ofNat 64 (if ∃ i : CoreId, (t.cores[i]).demand ≠ none then 2 ^ 63 + e.val else e.val) ∧ ∀ i ∈ s.chosenCores ncore d, (t.cores[i]).kept = some ectx))) ∧
    (¬valid → s.happens (.ctxEnd e) (ends 2)) ∧
    (valid → s.happens (.ctxEnd e) (fun t => (∀ c' k, (t.strAt c' k).present = true → (t.strAt c' k).ctx ≠ ectx) ∧ (t.ctxstat = BitVec.ofNat 64 e.val → t.ctab[e] = Vector.replicate 4 0) ∧
      (t.ctxstat = BitVec.ofNat 64 e.val ∨ t.ctxstat = BitVec.ofNat 64 (2 ^ 63 + e.val)))) ∧
    (s.returning c = none → s.happens (.evictedShareReturn c) (fun t => t = s)) ∧
    (∀ (ev : Evicted) (q : State) (tk : Taken) (h : Share), s.returning c = some ev → s.readEvicted c ev = (q, tk, h) → tk.waits = false →
      (tk.err ≠ 0 → s.happens (.evictedShareReturn c) (fun t => t = { q with agenda := .contextFault ev.ctx 2 :: q.agenda })) ∧
      (tk.err = 0 → q.fits c ev.ctx h = false → s.happens (.evictedShareReturn c) (fun t => t = q)) ∧
      (∀ (i : Nat) (x : Str) (k : SlotId) (ks : List SlotId), tk.err = 0 → q.fits c ev.ctx h = true → h = { strs := [(i, x)], spilled := [], part := none, scr := [], scrPz := [], serai := [], chains := [] } → q.freeSlots c = k :: ks →
        s.happens (.evictedShareReturn c) (fun t => t.strAt c k = x ∧ (t.cores[c]).evicted = (q.cores[c]).evicted.erase ev ∧ t.mem = q.mem ∧ (∀ i, i ≠ k → t.strAt c i = q.strAt c i) ∧
          ((q.cores[c]).gated = true → t.agenda = .clusterUngate (clusterOf c) :: q.agenda))))

/-- R45, R421 to R432, R441 to R453: what the steps of the host, of the fabric, of power, temperature and management do: an access of the host or of another device answered, the doorbell, the links' own steps, a package reset, a limit of power or temperature,
a cluster gated, a log or queue read, a management command, a register written. The model's own: DBELL written by the device (log 38), AGENT 8 of a refusal (log 66), the layout
of a command block and its ERR 3 (log 67), what a reset keeps (log 68) and where the boot string begins (log 3), a failed start (log 83), the pages of a remote rank's area (log 94), and the
times of a port's sleep and of throttling (log 105). -/
def Obligations.DeviceEvents : Prop :=
  ∀ (s : State) (pa n : Nat) (data : List Byte) (v : W64) (p : Fin 24) (a : AgentId) (j : Fin 64) (d : DieId) (dev : BitVec 14) (c : CoreId) (k : SlotId) (m : Mask) (va : W64),
    (s.naeshDown = true → s.happens (.hostRead pa n) (fun t => t = s) ∧ s.happens (.hostWrite pa data) (fun t => t = s)) ∧
    (s.naeshDown = false →
      let door (m : Nat) : Prop := 0 < m ∧ 0x7F0000040000 ≤ pa ∧ pa + m ≤ 0x7F0000040010
      s.happens (.hostRead 0x7F0000040008 8) (fun t => t = { s with hostGot := some (leBytes 8 s.hipend.toNat) }) ∧
      (door n → ¬(pa = 0x7F0000040008 ∧ n = 8) → s.happens (.hostRead pa n) (fun t => t = { s with hostGot := some (List.replicate n 0) })) ∧
      (data.length = 8 → s.happens (.hostWrite 0x7F0000040000 data) (fun t => t = { s with hostGot := some [], agenda := .dbellWrite (BitVec.ofNat 64 (leNat data)) :: s.agenda }) ∧
        s.happens (.hostWrite 0x7F0000040008 data) (fun t => t = { s with hipend := s.hipend &&& ~~~(BitVec.ofNat 16 (leNat data)), hostGot := some [] })) ∧
      (door data.length → data.length ≠ 8 ∨ (pa ≠ 0x7F0000040000 ∧ pa ≠ 0x7F0000040008) → s.happens (.hostWrite pa data) (fun t => t = { s with hostGot := some [] })) ∧
      (¬door n → ¬door data.length →
        (s.inAperture false pa n = false ∨ s.portLoc pa n = none → s.happens (.hostRead pa n) (fun t => t.hostGot = none ∧ t.mem = s.mem ∧ t = State.logErr { s with hostGot := none } 6 8 pa)) ∧
        (s.inAperture true pa data.length = false ∨ s.portLoc pa data.length = none → s.happens (.hostWrite pa data) (fun t => t.hostGot = none ∧ t.mem = s.mem)) ∧
        (∀ loc, s.inAperture false pa n = true → s.portLoc pa n = some loc → s.rangeOf (lineOf loc) = none → s.isPlane (lineOf loc) = false → s.bankLocalLine (lineOf loc) = false → s.poisoned (lineOf loc) = false →
          8 ∉ s.deadAgents → s.behind (lineOf loc) 8 = false → lineOf loc ∉ s.lost → s.dirGet (lineOf loc) = none → s.metaGet (lineOf loc) = none → s.happens (.hostRead pa n) (fun t => t.hostGot = some (s.peekN loc n) ∧ t.mem = s.mem ∧ (t.l2Get 8 (lineOf loc)).isSome = true)) ∧
        (∀ loc, s.inAperture true pa data.length = true → s.portLoc pa data.length = some loc → s.rangeOf (lineOf loc) = none → s.isPlane (lineOf loc) = false → s.lineSealed (lineOf loc) = false → s.bankLocalLine (lineOf loc) = false →
          s.isMaster (lineOf loc) = false → s.poisoned (lineOf loc) = false → 8 ∉ s.deadAgents → s.behind (lineOf loc) 8 = false → lineOf loc ∉ s.lost → s.dirGet (lineOf loc) = none → s.metaGet (lineOf loc) = none → (∀ e ∈ s.l2, e.line ≠ lineOf loc) → (∀ i < data.length, lineOf (loc + i) = lineOf loc) →
          s.happens (.hostWrite pa data) (fun t => t.hostGot = some [] ∧ t.mem = cellPut s.mem (cellsAt loc data) ∧ t.dirGet (lineOf loc) = some (.ex 8))))) ∧
    s.happens (.dbellWrite v) (fun t => t = s.raiseIrq 1) ∧
    (s.naeshDown = false ∨ 15 ≤ (s.inc[(8 : AgentId)]).toNat ∨ s.ready = false → s.happens .naeshLinkReturn (fun t => t = s)) ∧
    (s.naeshDown = true → s.ready = true → (s.inc[(8 : AgentId)]).toNat < 14 → s.happens .naeshLinkReturn (fun t => t.naeshDown = false ∧ 8 ∉ t.deadAgents ∧ t.inc[(8 : AgentId)] = s.inc[(8 : AgentId)] + 1 ∧ (∀ e ∈ t.l2, lineHost e.line = true → e.st ≠ .exDirty) ∧
      ∀ i : BitVec 4, s.hipend.getLsbD i.toNat = true → i ∈ t.naesh)) ∧
    (∀ b, s.happens (.flitRetransmit b) (fun t => t = s)) ∧
    (∀ lanes : Fin 9, s.happens (.caravanLaneFail p lanes) (fun t => t = { s with cport := s.cport.set p (let g := min lanes.val (s.um.portl[p]); BitVec.ofNat 5 (if 8 ≤ g then 8 else if 4 ≤ g then 4 else if 2 ≤ g then 2 else g)) })) ∧
    s.happens (.caravanRetrainDone p) (fun t => t.cport = s.cport.set p (if (s.cport[p]).extractLsb' 0 4 = 0 then 0 else (s.cport[p]) ||| 0x10) ∧ p ∉ t.portIdle ∧ t.mem = s.mem) ∧
    (∀ kd : RKind,
      let size := match kd with | .rd => n | .wr => data.length | .amo _ t => amoBytes t | .con t => rodBytes t | .bar .. | .init .. | .poll | .dnb _ => 32
      (s.admits dev kd pa = false ∨ s.fabricLoc pa size = none → s.happens (.remoteAccess dev kd pa n data) (fun t => t = { s with fabricGot := none })) ∧
      (∀ loc, s.admits dev kd pa = true → s.fabricLoc pa size = some loc → s.poisoned (lineOf loc) = false →
        (kd = .rd → s.rangeOf (lineOf loc) = none → lineOf loc ∉ s.lost → s.dirGet (lineOf loc) = none → s.metaGet (lineOf loc) = none → s.isPlane (lineOf loc) = false → s.happens (.remoteAccess dev kd pa n data) (fun t => t.fabricGot = some (s.peekN loc n) ∧ t.mem = s.mem)) ∧
        (kd = .wr → s.portBarred (lineOf loc) = false → lineOf loc ∉ s.lost → s.dirGet (lineOf loc) = none → s.metaGet (lineOf loc) = none → s.lineFree (lineOf loc) = true → s.homeAsleep (lineOf loc) = false → (∀ i < data.length, s.isMaster (lineOf (loc + i)) = false) → s.happens (.remoteAccess dev kd pa n data) (fun t =>
          t.fabricGot = some [] ∧ t.mem = cellPut s.mem (cellsAt loc data))) ∧
        (∀ (r : Range) (ty : Ty), kd = .con ty → s.rangeOf (lineOf loc) = some r → (r.ending = false → r.scope = .sys → r.fmt = ty → s.notYetCm r (lineOf loc) = false → s.happens (.remoteAccess dev kd pa n data) (fun t => t.fabricGot = some [] ∧
          t.mem = cellPut s.mem (cellsAt loc (leBytes (rodBytes ty) (rodAdd ty (le64 (s.peekN loc (rodBytes ty))) (wordAt data 0)).toNat)))) ∧
          (r.ending = true ∨ r.scope ≠ .sys ∨ r.fmt ≠ ty → s.happens (.remoteAccess dev kd pa n data) (fun t => t = { s with fabricGot := none }))) ∧
        (let barrier := match kd with | .bar .. | .init .. | .poll | .dnb _ => True | _ => False
          let w (u : State) (k : Nat) : W64 := u.barWord (.mem loc) k;
          (barrier → s.portBarred (lineOf loc) = true ∨ lineHbm (lineOf loc) = false ∨ loc % 32 ≠ 0 → s.happens (.remoteAccess dev kd pa n data) (fun t => t = { s with fabricGot := none })) ∧
          (s.portBarred (lineOf loc) = false → lineHbm (lineOf loc) = true → loc % 32 = 0 → (barrier → s.barReady (.mem loc) = false → s.happens (.remoteAccess dev kd pa n data) (fun t => t.fabricGot = s.fabricGot ∧ t.mem = s.mem)) ∧
            (s.barReady (.mem loc) = true → (kd = .poll → s.happens (.remoteAccess dev kd pa n data) (fun t => t = { s with fabricGot := some (s.peekN loc 8) })) ∧
              (let z := s.barTake (.mem loc); z.Inv → placeFits (.mem loc) →
                (∀ a e l, kd = .bar a e l → s.happens (.remoteAccess dev kd pa n data) (fun t => t.fabricGot = some [] ∧ w t 0 = (barApply (w z 0) (w z 1) a e l).1)) ∧
                (∀ a b, kd = .init a b → s.happens (.remoteAccess dev kd pa n data) (fun t => t.fabricGot = some [] ∧ w t 0 = (barInitWords a b).1 ∧ w t 1 = (barInitWords a b).2)) ∧
                (∀ pages, kd = .dnb pages → parr (w s 0) ≠ 1 → s.happens (.remoteAccess dev kd pa n data) (fun t => t.fabricGot = some [] ∧ w t 0 = (barApply (w z 0) (w z 1) 1 0 0).1))))))))  ∧
    (∀ r, s.remoteOf c k m va = some r → s.happens (.remoteRefusal c k m va) (fun t => t = s.answerRemote r 25) ∧ (r.since + 2000000 ≤ s.ptime → s.happens (.remoteAccessTimeout c k m va) (fun t => t = s.answerRemote r 24)) ∧
      (s.ptime < r.since + 2000000 → s.happens (.remoteAccessTimeout c k m va) (fun t => t = s)) ∧ (r.lanes ≠ 0 → ∀ code, r ∉ (s.answerRemote r code).remote)) ∧
    (s.remoteOf c k m va = none → s.happens (.remoteRefusal c k m va) (fun t => t = s) ∧ s.happens (.remoteAccessTimeout c k m va) (fun t => t = s)) ∧
    (∀ (im : BootImage) (um : UnitMap) (domain : Option Nat), s.happens (.packageReset (some im) (some um) domain none) (fun t => t.um = um ∧ t.boots = s.boots + 1 ∧ t.scr = [] ∧ t.agenda = [] ∧
      (∀ d : DieId, um.mdie.getLsbD d.val = true → (∀ d' < d, um.mdie.getLsbD d'.val = false) → let base := 0x100000000000 + d.val * 2 ^ 36
        (∀ l, t.decodePa base = .loc l → t.mem = cellPut (s.mem.filter (fun x => decide (hostBase ≤ x.1))) (cellsAt l im.bytes)) ∧
        (∀ i : CoreId, (t.cores[i]).hvec = BitVec.ofNat 64 (base + im.entry)) ∧ ((t.strAt um.bootCore 0).splits[(0 : Fin 4)]).pc = BitVec.ofNat 64 (base + im.entry)) ∧
      t.acc = domain.getD 0 * 17000000 ∧ t.ctab = State.reset.ctab ∧ t.regions = State.reset.regions ∧
      t.launches = State.reset.launches ∧ t.bazaar = State.reset.bazaar ∧ t.l1 = [] ∧ t.l2 = [] ∧ t.tlb = [] ∧ t.dir = [] ∧ t.pwrcap = 3410 ∧ t.lsidle = 20 ∧ t.bootFailed = false ∧
      (t.strAt um.bootCore 0).sreg[(0 : Fin 64)] = im.param ∧ let y := (t.strAt um.bootCore 0).splits[(0 : Fin 4)]; y.m = BitVec.allOnes 32 ∧ y.mode = .hyp ∧ y.enter = true)) ∧
    (∀ (image : Option BootImage) (map : Option UnitMap) (domain : Option Nat) (stop : Option (Fin 7)), image = none ∨ map = none ∨ stop ≠ none → s.happens (.packageReset image map domain stop) (fun t =>
      t.bootFailed = true ∧ t.ready = false ∧ t.naeshDown = true ∧ (image = none ∨ map = none → t.mem = s.mem ∧ t.um = s.um) ∧
      (∀ im um k, image = some im → map = some um → stop = some k → t.mem = (if k.val < 4 then s.mem else s.mem.filter (fun x => decide (hostBase ≤ x.1))) ∧ t.um = if k.val < 2 then s.um else um) ∧
      t.reports = s.reports ++ [.startFailed] ∧ ∀ i : CoreId, (t.cores[i]).stopped = true ∧ ∀ sl : SlotId, (t.strAt i sl).present = false)) ∧
    (∀ w : Nat, s.happens (.powerAverage w) (fun t => t = if (s.pwrcap.extractLsb' 0 13).toNat < w then { s with withhold := true, halved := s.withhold } else { s with withhold := false, halved := false })) ∧
    (s.lsidle.extractLsb' 0 16 ≠ 0 → a ∉ s.asleep → (∀ h ∈ s.held, h.agent ≠ a) → s.happens (.linkSleep a) (fun t => t = { s with asleep := a :: s.asleep })) ∧
    (s.lsidle.extractLsb' 0 16 = 0 ∨ (∃ h ∈ s.held, h.agent = a) → s.happens (.linkSleep a) (fun t => t = s)) ∧
    (let mine (i : CoreId) : Prop := i.val / 4 = j.val
      let bare (i : CoreId) : Prop := (∀ sl : SlotId, ((s.cores[i]).strs[sl]).present = false) ∧ (s.cores[i]).parts = [] ∧ (s.cores[i]).serai = [];
      ((∀ i, mine i → bare i) → s.happens (.clusterGate j) (fun t => ∀ i : CoreId, t.cores[i] = if i.val / 4 = j.val then { s.cores[i] with gated := true } else s.cores[i])) ∧
      ((∃ i, mine i ∧ ¬bare i) → s.happens (.clusterGate j) (fun t => t = s)) ∧
      s.happens (.clusterUngate j) (fun t => (∀ i : CoreId, t.cores[i] = if i.val / 4 = j.val then { s.cores[i] with gated := false } else s.cores[i]) ∧ ∀ e ∈ t.l1, e.core.val / 4 ≠ j.val)) ∧
    ((∀ r ∈ s.remote, s.portOf r.loc ≠ some p) → s.happens (.caravanPortIdle p) (fun t => p ∈ t.portIdle ∧ t.mem = s.mem)) ∧ ((∃ r ∈ s.remote, s.portOf r.loc = some p) → s.happens (.caravanPortIdle p) (fun t => t = s)) ∧ s.happens (.caravanPortWake p) (fun t => t = { s with portIdle := s.portIdle.filter (· != p) }) ∧
    (∀ deg : BitVec 8, s.happens (.thermalThrottle deg) (fun t => t = { s with therm := deg, throttled := s.throttled || decide (100 ≤ deg.toNat), agenda := if 110 ≤ deg.toNat then .thermalStop :: s.agenda else s.agenda }) ∧
      s.happens (.thermalThrottleEnd deg) (fun t => t = { s with therm := deg, throttled := s.throttled && decide (95 ≤ deg.toNat) })) ∧
    s.happens (.memoryDieHot d) (fun t => d ∈ t.hot ∧ t.mem = s.mem) ∧ s.happens (.memoryDieCooled d) (fun t => t = { s with hot := s.hot.filter (· != d) }) ∧
    s.happens .thermalStop (fun t => t.mem = s.mem ∧ (∀ i : CoreId, t.cores[i] = { s.cores[i] with stopped := true }) ∧
      ∀ (i : CoreId) (sl : SlotId), (s.strAt i sl).present = true → Ev.contextFault (s.strAt i sl).ctx 6 ∈ t.agenda) ∧
    s.happens .resqRead (fun t => t = { s with resq := s.resq.tail }) ∧
    (s.elogLost = none → s.happens .elogRead (fun t => t = { s with elog := s.elog.tail })) ∧
    (∀ e r x, s.elog = e :: r → s.elogLost = some x → s.happens .elogRead (fun t => t.elogLost = none ∧ t.elog = r ++ [{ kind := 9, agent := 0, pa := 0, time := x, cause := none }] ∧ t.mem = s.mem)) ∧
    (let ended (err : Nat) (t : State) : Prop := t = { s with mstat := BitVec.ofNat 64 err }; pa % 128 ≠ 0 → s.happens (.mcmdRoutes pa) (ended 3) ∧ s.happens (.mcmdStealRing pa) (ended 3)) ∧
    (∀ (q : State) (tk : Taken), pa % 128 = 0 → s.getAll (imageWho 0) pa 8 = (q, tk) → tk.waits = false →
      let w := wordAt (tk.data.map (·.2)) 0
      let ended (u : State) (err : Nat) (t : State) : Prop := t = { u with mstat := BitVec.ofNat 64 err }
      (tk.err ≠ 0 → s.happens (.mcmdRoutes pa) (ended q 2) ∧ s.happens (.mcmdStealRing pa) (ended q 2)) ∧
      (tk.err = 0 → (w = 0 ∨ 63 < w.toNat) → s.happens (.mcmdRoutes pa) (ended q 3)) ∧
      (tk.err = 0 → w.extractLsb' 0 7 = 0 → s.happens (.mcmdStealRing pa) (ended { q with ring := none, token := none } 0)) ∧
      (tk.err = 0 → (w.extractLsb' 0 7 = 1 ∨ 64 < (w.extractLsb' 0 7).toNat) → s.happens (.mcmdStealRing pa) (ended q 3)) ∧
      (∀ (z : State) (tz : Taken), tk.err = 0 → tz.waits = false → tz.err = 0 →
        let bs := tz.data.map (·.2)
        (1 ≤ w.toNat → w.toNat ≤ 63 → q.getAll (imageWho 0) pa (8 + 16 * w.toNat) = (z, tz) →
          let rs := (List.range w.toNat).map (fun i => let x := wordAt bs (1 + 2 * i); ({ lo := x.extractLsb' 0 14, hi := x.extractLsb' 16 14, ports := (wordAt bs (2 + 2 * i)).extractLsb' 0 24 } : Route))
          s.happens (.mcmdRoutes pa) (if overlapping rs then ended z 3 else ended { z with routes := rs } 0)) ∧
        (2 ≤ (w.extractLsb' 0 7).toNat → (w.extractLsb' 0 7).toNat ≤ 64 → q.getAll (imageWho 0) pa (8 + 2 * (w.extractLsb' 0 7).toNat) = (z, tz) →
          s.happens (.mcmdStealRing pa) (ended { z with ring := some (w.extractLsb' 48 16, (List.range (w.extractLsb' 0 7).toNat).map (fun i => BitVec.ofNat 14 (leNat ((bs.drop (8 + 2 * i)).take 2)))) } 0)))) ∧
    (n ≠ 8 ∨ pa % 8 ≠ 0 → s.happens (.registerWrite pa n v) (fun t => t = s)) ∧
    s.happens (.registerWrite (regBase + 0x60008) 8 v) (fun t => t = let w := (v.extractLsb' 0 13).toNat; if 500 ≤ w ∧ w ≤ 3600 then { s with pwrcap := BitVec.ofNat 64 w } else s) ∧
    s.happens (.registerWrite (regBase + 0x60018) 8 v) (fun t => t = { s with lsidle := v &&& 0xFFFF }) ∧
    s.happens (.registerWrite (regBase + 0x40008) 8 v) (fun t => t = { s with hipend := s.hipend &&& ~~~(v.setWidth 16) }) ∧
    s.happens (.registerWrite (regBase + 0x40000) 8 v) (fun t => t = s.raiseIrq 1) ∧
    s.happens (.registerWrite (regBase + 0x20000) 8 v) (fun t => t = { s with ldoor0 := (s.ldoor0 &&& 0xFE00000000000000) ||| (v &&& 0x01FFFFFFFFFFFFFF) }) ∧
    (s.lstat.getLsbD 63 = false → s.happens (.registerWrite (regBase + 0x20008) 8 v) (fun t => t = { s with agenda := .launchSubmit v :: s.agenda })) ∧
    (s.lstat.getLsbD 63 = true → s.happens (.registerWrite (regBase + 0x20008) 8 v) (fun t => t = s))

/-- R444, R445: the machine after reset. Every register, table, queue and cache is empty or zero but those with a stated value; no string runs but the boot string, in slot 0 of the core with CIDX 0 of the lowest working
cluster. The model's own choices: caches, queues and all state that is no register empty (log 1), the full part (log 2), the address in HVEC and s0 of the boot string, which a boot image brings (log 3),
and memory at zero, host memory with it (log 6). -/
def Obligations.ResetState : Prop :=
  let s := State.reset
  (∀ c : CoreId, let x := s.cores[c]
    x.lease = 8 ∧ x.stealdist = 0xFFFF0202 ∧ x.hdeleg = BitVec.allOnes 64 ∧ x.hvec = bootEntry ∧ x.svec = 0 ∧ x.tciva = 0 ∧ x.tcinv = 0 ∧ x.serai = [] ∧ x.convoy = [] ∧ x.arr.active = WSet.cleared ∧
    x.arr.shadow = WSet.cleared ∧ x.arr.queue = [] ∧ x.arr.owner = none ∧ s.irecv[c] = 0 ∧ (∀ k : Fin 8, x.chains[k] = none) ∧
    (∀ k : SlotId, (x.strs[k]).ptroot = 0 ∧ ((x.strs[k]).present = true ↔ c = s.um.bootCore ∧ k = 0)) ∧ (x.parts ≠ [] ↔ c = s.um.bootCore)) ∧
  (let t := s.strAt s.um.bootCore 0
    let x := t.splits[(0 : SplitId)]
    s.um.bootCore = 0 ∧ t.allot = 64 ∧ t.launch = none ∧ t.ctx = 0 ∧ (∀ r, t.sreg[(r : Fin 64)] = 0) ∧ (∀ r, t.kreg[(r : Fin 16)] = 0) ∧ (∀ l < 32, t.getV 0 l = BitVec.ofNat 32 l) ∧ (∀ r, r ≠ 0 → ∀ l < 32, t.getV r l = 0) ∧
    t.fflags = 0 ∧ t.fz = false ∧ t.rseed = 0 ∧ t.pfdrop = 0 ∧ t.ops = [] ∧ x.pc = bootEntry ∧ x.m = BitVec.allOnes 32 ∧ x.e = BitVec.allOnes 32 ∧ x.mode = .hyp ∧ x.stack = [] ∧ x.t = 0 ∧ x.enter = true ∧
    (∀ j : SplitId, j ≠ 0 → (t.splits[j]).m = 0) ∧ t.park = []) ∧
  (∀ i : Fin 64, s.regions[i] = Vector.replicate 4 0 ∧ s.ctab[i] = Vector.replicate 4 0 ∧ s.fat[i] = Vector.replicate 4 0 ∧ (s.launches[i]).on = false ∧ s.views[i] = none) ∧
  (∀ i : Fin 16, s.apert[i] = Vector.replicate 2 0 ∧ (s.bazaar[i]).valid = false ∧ (s.bazaar[i]).q = []) ∧ (∀ i : Fin 256, s.ranges[i] = none) ∧
  s.mem = [] ∧ s.scr = [] ∧ s.l1 = [] ∧ s.l2 = [] ∧ s.tlb = [] ∧ s.dir = [] ∧ s.partials = [] ∧ s.seals = [] ∧ s.pend = [] ∧ s.walks = [] ∧ s.llc = [] ∧ s.lost = [] ∧ s.vreads = [] ∧ s.dones = [] ∧ s.bars = [] ∧ s.bkPages = [] ∧ s.lineq = [] ∧ s.counted = [] ∧ s.remote = [] ∧ s.held = [] ∧ s.images = [] ∧ s.placings = [] ∧ s.reports = [] ∧ s.acc = 0 ∧ s.ppm = 0 ∧ s.pskew = 0 ∧ s.rtstat = 0 ∧ s.lstat = 0 ∧ s.ctxstat = 0 ∧
  s.mstat = 0 ∧ s.hipend = 0 ∧ s.elog = [] ∧ s.resq = [] ∧ s.ring = none ∧ s.routes = [] ∧ s.ready = true ∧ s.pwrcap = 3410 ∧ s.lsidle = 20 ∧ s.bootFailed = false

/-- Memory and scratchpads are in canonical form after reset. -/
def Obligations.ResetInv : Prop := State.reset.Inv

/-- Whatever a step does, the lists that hold memory and scratchpads stay in canonical form: addresses rise strictly and no cell holds what an unlisted address reads as. -/
def Obligations.StepKeepsInv : Prop := ∀ s t : State, s.Inv → step s = .next t → t.Inv

/-- R154, R166, R307, R311: a step at an event carries out the event; a step at a split whose next bytes decode to an instruction is `exec` of that instruction, its wait for registers over (R147), and the core then looks for another split; a step at a running
abacus is `exec` of the word at its PC; with nothing left in the cycle, a step is the next cycle (log 7). -/
def Obligations.StepRuns : Prop :=
  ∀ (s : State),
    (∀ e r, s.agenda = e :: r → step s = exec e.instr { s with agenda := r, ev := e }) ∧
    (s.agenda = [] → s.issue = [] → step s = .next (s.turn exec)) ∧
    (∀ (d : DieId) (p : PchId) (r : List IssueRef) (x : AbRun) (w : W32) (i : Instr), s.agenda = [] → s.issue = .abacus d p :: r → (s.abAt d p).run = some x → x.ended = none → x.steps < 2 ^ 26 → x.prog[x.pc]? = some w →
      decodeAbacus w = some i → step s = exec i { s with issue := r, curAb := (d, p) }) ∧
    (∀ (u v : State) (who : Who) (va : W64) (a : Acc), u.checkRead who .fetch true 1 va 8 = (v, .ok a) → a.reg = none → a.remote = false → (a.sc = true → v.scBusy = false) →
      u.fetch64 who va = (v, .ok (le64 (a.locs.map (v.look who.core))))) ∧
    (∀ (c : CoreId) (k : SlotId) (j : SplitId) (r : List IssueRef) (q : State) (w : W64) (i : Instr), s.agenda = [] → s.issue = .split c k j :: r →
      let s0 : State := { s with issue := r, cur := { core := c, slot := k, split := j } }
      let s1 := s0.modSp (fun x => { x with starve := 0, wait := x.wait.retried })
      let s2 := s1.modMe (fun t => t.mergeInto j false)
      let pc := s2.sp.pc
      let runs (u : State) : Prop := (∀ n ∈ namedRegs u.me i, u.me.vspill.getLsbD n = false) → newRegs i ≤ u.freeRegsFor c u.me.ctx →
        ((∀ y ∈ u.core.regWait, ¬(y.1 = u.cur.slot ∧ y.2.1 = u.cur.split)) → u.regsFound = u) ∧
        (∀ t, exec i u.regsFound = .next t → step s = .next (t.afterIssue (.split c k j) ((s.strAt c k).splits[j]).starve)) ∧
        (∀ f, exec i u.regsFound = .fault f → step s = .fault f) ∧ (∀ f, exec i u.regsFound = .refused f → step s = .refused f);
      s0.strRuns c k = true → (s0.freeSplits c k).contains j = true → s1.sp.unread = false → s1.sp.mustEnter = false → (hdrMx s2.sp.hdr = true → s2.core.arr.owner = some (k, s2.me.uid)) →
      s2.fetch64 s2.who pc = (q, .ok w) →
      (isLong w = false → (w.extractLsb' 56 8 = 0xC0 → hdrMx s2.sp.hdr = true) → decode w 0 = some i → q.cur.core = c → runs q) ∧
      (∀ (q2 : State) (w2 : W64), isLong w = true → q.fetch64 q.who (pc + 8) = (q2, .ok w2) →
        (s2.sp.within (pc + 8) = true → decode w w2 = some i → q2.cur.core = c → runs q2) ∧
        (s2.sp.within (pc + 8) = false → step s = .next ((q2.soon (.illegalInstruction w)).afterIssue (.split c k j) ((s.strAt c k).splits[j]).starve))))

/-- R158, R159, R161, R163, R165, R307, R308: decoding the words of a well-formed instruction gives the instruction back, with every operand at every value that its encoding admits, and a word decodes to nothing but a
well-formed instruction that it encodes. -/
def Obligations.DecodeEncode : Prop :=
  ∀ (i : Instr),
    (i.wellFormed = true →
      (∀ w, encode i = .word w → ∀ w2, decode w w2 = some i) ∧ (∀ w w2, encode i = .long w w2 → decode w w2 = some i) ∧ (∀ w, encode i = .abacus w → decodeAbacus w = some i)) ∧
    (∀ w w2, decode w w2 = some i → i.wellFormed = true ∧ (encode i = .word w ∨ encode i = .long w w2)) ∧
    (∀ w, decodeAbacus w = some i → i.wellFormed = true ∧ encode i = .abacus w)

/-- Words whose encodings the spec writes out, of every group: R177, R180, R181, R187, R192, R199, R212, R215, R219, R222, R226, R234, R257, R279, R301, R308, R366, R390, R394 and the worked case after R170. -/
def Obligations.DecodeWords : Prop :=
  decode 0x01000102FFFFFFF0 0 = some (.saddI 1 2 0xFFFFFFF0) ∧
  decode 0x0501050000000000 0x123456789ABCDEF0 = some (.sliL 5 0x123456789ABCDEF0) ∧
  decode 0x0700010203007003 0 = some (.slea 1 2 3 3) ∧
  decode 0x2000200405002000 0 = some (.vadd 0 .i32 32 4 5) ∧
  decode 0x2503020100006010 0 = some (.vshxor 0 .n32 2 1 16) ∧
  decode 0x3F00000000000028 0 = some (.vgrow 40) ∧
  decode 0x4130040506078000 0 = some (.ffma 3 .f32 .rn 4 5 6 7) ∧
  decode 0x460009080000F000 0 = some (.qblk 0 .b4 .rn 9 8) ∧
  decode 0x6600000200001080 0 = some (.pf 0 .l2 2 128) ∧
  decode 0x8010040206006700 0 = some (.amo 1 .add .n32 .pkg true false 4 2 6 0) ∧
  decode 0x8110000208003400 0 = some (.racc 1 .i64 .die 2 8) ∧
  decode 0x9000000000000601 0 = some (.fence .pkg .rel) ∧
  decode 0x9103040102000600 0 = some (.barWait .pkg false 4 1 2) ∧
  decode 0x920000003F000F0F 0 = some (.wcnt 63 0 15 15) ∧
  decode 0xA006000200000003 0 = some (.bdiv 2 3) ∧
  decode 0xA1003C0000000002 0 = some (.call 60 2) ∧
  decode 0xB001040102000620 0 = some (.spawnf .pkg true 4 1 2) ∧
  decode 0xB100030102000600 0 = some (.qpush .pkg 3 1 2) ∧
  decode 0xC00206070809F640 0 = some (.mmac .b4 .pkg false true false 6 7 8 9) ∧
  decode 0xD000040506070160 0 = some (.cpy .core true false true true 4 5 6 7) ∧
  decode 0xD210000402000600 0 = some (.bcmd 1 .pkg 4 2) ∧
  decode 0xD301000100000800 0 = some (.xsum .sys 1) ∧
  decode 0xE0E1000000000003 0 = some (.hyp 14 3) ∧
  decode 0xE005000A00000030 0 = some (.wrsr 0 0x030 10) ∧
  decodeAbacus 0x80143000 = some (.adot 0 false 0 1 4 3) ∧
  decodeAbacus 0xA5000600 = some (.astc false true true 5 0 0) ∧
  decode 0x0900000000000000 0 = none ∧ decode 0x0000000000008000 0 = none ∧ decodeAbacus 0x00000001 = none
end

