-- ==== Sys2Proof/Laws/Coherence.lean ====
section
/-!
SUPPORT. What the operations of the memory side change: `MemSide s t` says that `t` differs from `s` only in memory, its caches, directories and logs, in
the translation caches, and in the waits and counts that accesses keep. Every core, launch table and register of the device reads as before.
-/
namespace Sys2Proof.Machine
open Sys2Proof

/-- Only fields of the memory side differ. -/
def State.MemSide (s t : State) : Prop :=
  t = { s with mem := t.mem, pz := t.pz, l1 := t.l1, tlb := t.tlb, dir := t.dir, metas := t.metas, l2 := t.l2, closing := t.closing, llc := t.llc, pchq := t.pchq,
               partials := t.partials, elog := t.elog, elogLost := t.elogLost, irecv := t.irecv, hipend := t.hipend, naesh := t.naesh,
               derivs := t.derivs, timers := t.timers, launches := t.launches, remote := t.remote, walks := t.walks, lost := t.lost,
                      counted := t.counted, vreads := t.vreads, held := t.held, lineq := t.lineq, bkPages := t.bkPages,
                      bars := t.bars }

theorem State.MemSide.refl (s : State) : s.MemSide s := by unfold State.MemSide; exact Eq.refl _

/-- Such a change of fields is one. -/
theorem State.MemSide.of {s t : State}
    (h : t = { s with mem := t.mem, pz := t.pz, l1 := t.l1, tlb := t.tlb, dir := t.dir, metas := t.metas, l2 := t.l2, closing := t.closing, llc := t.llc, pchq := t.pchq,
                      partials := t.partials, elog := t.elog, elogLost := t.elogLost, irecv := t.irecv, hipend := t.hipend, naesh := t.naesh,
                      derivs := t.derivs, timers := t.timers, launches := t.launches, remote := t.remote, walks := t.walks, lost := t.lost,
                      counted := t.counted, vreads := t.vreads, held := t.held, lineq := t.lineq, bkPages := t.bkPages,
                      bars := t.bars }) : s.MemSide t := h

theorem State.MemSide.trans {s t u : State} (h : s.MemSide t) (k : t.MemSide u) : s.MemSide u := by
  unfold State.MemSide at *
  rw [h] at k
  exact k

/-- Followed by such a change of fields. -/
theorem State.MemSide.then {s t u : State} (h : s.MemSide t)
    (k : u = { t with mem := u.mem, pz := u.pz, l1 := u.l1, tlb := u.tlb, dir := u.dir, metas := u.metas, l2 := u.l2, closing := u.closing, llc := u.llc, pchq := u.pchq,
                      partials := u.partials, elog := u.elog, elogLost := u.elogLost, irecv := u.irecv, hipend := u.hipend, naesh := u.naesh,
                      derivs := u.derivs, timers := u.timers, launches := u.launches, remote := u.remote, walks := u.walks, lost := u.lost,
                      counted := u.counted, vreads := u.vreads, held := u.held, lineq := u.lineq, bkPages := u.bkPages,
                      bars := u.bars }) : s.MemSide u := h.trans k

theorem State.MemSide.cores {s t : State} (h : s.MemSide t) : t.cores = s.cores := by rw [h]
theorem State.MemSide.cur {s t : State} (h : s.MemSide t) : t.cur = s.cur := by rw [h]

/-- The issuing string is the same. -/
theorem State.MemSide.me {s t : State} (h : s.MemSide t) : t.me = s.me := by
  unfold State.me State.strAt
  rw [h.cores, h.cur]

/-- A fold of such operations is one. -/
theorem State.MemSide.foldl {s : State} (f : State → α → State) (h : ∀ (s : State) (a : α), s.MemSide (f s a)) (xs : List α) : s.MemSide (xs.foldl f s) := by
  induction xs generalizing s with
  | nil => exact .refl s
  | cons x xs ih => exact (h s x).trans ih

theorem State.signalHost_side (s : State) (i : BitVec 4) : s.MemSide (s.signalHost i) := by
  unfold State.signalHost
  split
  · exact .refl s
  · exact .of rfl

theorem State.raiseIrq_side (s : State) (i : BitVec 4) : s.MemSide (s.raiseIrq i) := by
  unfold State.raiseIrq
  dsimp only
  split
  · exact .of rfl
  · exact s.signalHost_side i

theorem State.logErr_side (s : State) (k : BitVec 7) (a : BitVec 4) (p : Nat) (c : Option PzCause) : s.MemSide (s.logErr k a p c) := by
  unfold State.logErr
  split
  · refine .trans ?_ (State.raiseIrq_side _ 2)
    exact .of rfl
  · exact .of rfl

theorem State.dirSet_side (s : State) (l : Nat) (d : DState) : s.MemSide (s.dirSet l d) := .of rfl
theorem State.dirDel_side (s : State) (l : Nat) : s.MemSide (s.dirDel l) := .of rfl
theorem State.l1Drop_side (s : State) (l : Nat) : s.MemSide (s.l1Drop l) := .of rfl
theorem State.metaClear_side (s : State) (l : Nat) : s.MemSide (s.metaClear l) := .of rfl
theorem State.l2Set_side (s : State) (a : AgentId) (l : Nat) (x : L2State) : s.MemSide (s.l2Set a l x) := .of rfl

theorem State.poison_side (s : State) (l : Nat) (c : PzCause) : s.MemSide (s.poison l c) := by
  have h := ((s.metaClear_side l).trans (State.dirDel_side _ l)).trans (State.l1Drop_side _ l)
  unfold State.poison
  generalize ((s.metaClear l).dirDel l).l1Drop l = q at h
  dsimp only
  refine .trans (h.then ?_) (State.logErr_side _ _ _ _ _)
  rfl

theorem State.found_side (s : State) (l : Nat) : s.MemSide (s.found l) := .of rfl

theorem State.dirRoom_side (s : State) (l : Nat) : s.MemSide (s.dirRoom l) := by
  unfold State.dirRoom
  repeat' split
  all_goals first | exact .refl s | (dsimp only; repeat' split) <;> first | exact .refl s | exact .of rfl

theorem State.dramReq_side (s : State) (l : Nat) : s.MemSide (s.dramReq l) := by
  unfold State.dramReq
  split
  · exact .of rfl
  · exact .refl s

theorem State.llcRoom_side (s : State) (l : Nat) : s.MemSide (s.llcRoom l) := by
  unfold State.llcRoom
  dsimp only
  repeat' split
  · exact .refl s
  · exact .trans (.of rfl) (State.dramReq_side _ _)
  · exact .of rfl
  · exact .refl s

/-- What reading or writing a line at its LLC slice changes (R61). -/
theorem State.llcTouch_side (s : State) (l : Nat) (d : Bool) : s.MemSide (s.llcTouch l d) := by
  unfold State.llcTouch
  repeat' split
  · exact .refl s
  · exact .of rfl
  · exact .refl s
  · refine ((s.dramReq_side l).trans (State.llcRoom_side _ l)).then ?_
    rfl

theorem State.allocLlc_side (s : State) (l : Nat) : s.MemSide (s.allocLlc l) := s.llcTouch_side l false

theorem State.homeWritten_side (s : State) (l : Nat) (b : Bool) : s.MemSide (s.homeWritten l b) := by
  unfold State.homeWritten
  split
  · exact (s.llcTouch_side l false).trans (State.dramReq_side _ _)
  · exact s.llcTouch_side l true

theorem State.dirPut_side (s : State) (l : Nat) (d : DState) : s.MemSide (s.dirPut l d) := (s.dirRoom_side l).trans (State.dirSet_side _ _ _)

theorem State.discover_side (s : State) (l : Nat) : s.MemSide (s.discover l).1 := by
  have h (d : DState) := (s.found_side l).trans (State.dirPut_side _ l d)
  unfold State.discover
  split
  · exact .refl s
  · dsimp only
    split
    · exact s.poison_side l _
    · split
      · split
        · exact (h _).trans (State.llcTouch_side _ _ _)
        · exact h _
      · split
        · exact h _
        · split
          · split
            · exact s.poison_side l _
            · exact s.found_side l
          · exact s.found_side l

theorem State.lookup_side (s : State) (l : Nat) : s.MemSide (s.lookup l).1 := by
  unfold State.lookup
  repeat' split
  all_goals first | exact .refl s | exact s.discover_side l

theorem State.closeLine_side (s : State) (l : Nat) : s.MemSide (s.closeLine l) := by
  unfold State.closeLine
  split
  · exact .refl s
  · exact .of rfl

theorem State.l2Drop_side (s : State) (a : AgentId) (l : Nat) : s.MemSide (s.l2Drop a l) := .of rfl

theorem State.l2Drops_side (s : State) (l : Nat) (as : List AgentId) : s.MemSide (as.foldl (fun s o => s.l2Drop o l) s) :=
  .foldl _ (fun _ _ => .of rfl) as

theorem State.queueUp_side (s : State) (l : Nat) (a : AgentId) : s.MemSide (s.queueUp l a) := .of rfl

/-- A request served in its turn changes what serving it changes, and the queue. -/
theorem State.inTurn_side (s : State) (l : Nat) (a : AgentId) (f : State → State × Ans) (h : s.MemSide (f s).1) : s.MemSide (s.inTurn l a f).1 := by
  unfold State.inTurn
  split
  · exact s.queueUp_side l a
  · dsimp only
    split
    · exact h.trans (State.queueUp_side _ _ _)
    · exact h.trans (State.queueUp_side _ _ _)
    · exact h.then rfl

theorem State.serveRead_side (s : State) (l : Nat) (a : AgentId) : s.MemSide (s.serveRead l a).1 := by
  have h := (s.allocLlc_side l).trans (State.lookup_side _ l)
  unfold State.serveRead
  split; · exact .refl s
  split; · exact .refl s
  generalize (s.allocLlc l).lookup l = r at h
  obtain ⟨q, e, x⟩ := r
  dsimp only at h ⊢
  split; · exact h
  split
  · split
    · exact h.trans (State.l2Set_side _ _ _ _)
    · split
      · exact h
      · refine State.MemSide.trans ?_ ((State.dirSet_side _ _ _).trans (State.l2Set_side _ _ _ _))
        split
        · refine State.MemSide.trans ?_ (State.l2Set_side _ _ _ _)
          split
          · exact h.trans (State.llcTouch_side _ _ _)
          · exact h
        · exact h
  · exact (h.trans (State.dirSet_side _ _ _)).trans (State.l2Set_side _ _ _ _)
  · exact h
  · split
    all_goals exact (h.trans (State.dirPut_side _ _ _)).trans (State.l2Set_side _ _ _ _)

theorem State.homeRead_side (s : State) (l : Nat) (a : AgentId) : s.MemSide (s.homeRead l a).1 := by
  unfold State.homeRead
  split
  · exact .refl s
  · exact s.inTurn_side l a _ (s.serveRead_side l a)

theorem State.clearPz_side (s : State) (l : Nat) (a : AgentId) (b : Bool) : s.MemSide (s.clearPz l a b) := by
  have h : s.MemSide (State.metaClear { s with pz := s.pz.filter (· != l) } l) := .trans (.of rfl) (State.metaClear_side _ l)
  unfold State.clearPz
  dsimp only
  split
  · exact h.trans (State.homeWritten_side _ l b)
  · exact ((h.trans (State.llcTouch_side _ l true)).trans (State.dirPut_side _ l _)).trans (State.l2Set_side _ _ _ _)

/-- What taking a line back to its home changes (R75, R217). -/
theorem State.homeTake_side (s : State) (l : Nat) : s.MemSide (s.homeTake l).1 := by
  have h := s.lookup_side l
  unfold State.homeTake
  split; · exact .refl s
  split; · exact .refl s
  generalize s.lookup l = r at h
  obtain ⟨q, e, x⟩ := r
  dsimp only at h ⊢
  split; · exact h
  generalize holders e = os
  have k := (h.trans (State.l2Drops_side _ l os)).trans (State.dirDel_side _ l)
  split
  · exact h
  · split
    · exact h.trans (State.closeLine_side _ _)
    · split
      · exact k.trans (State.llcTouch_side _ _ _)
      · exact k

theorem State.serveOwn_side (s : State) (l : Nat) (a : AgentId) : s.MemSide (s.serveOwn l a).1 := by
  have h := (s.allocLlc_side l).trans (State.lookup_side _ l)
  have k := s.homeTake_side l
  unfold State.serveOwn
  generalize (s.allocLlc l).lookup l = r at h
  obtain ⟨q, e, x⟩ := r
  dsimp only at h ⊢
  split; · exact .refl s
  split
  · split
    · exact k.trans (State.homeWritten_side _ l false)
    · exact k
  split; · exact .refl s
  split; · exact h
  split
  · exact h
  · split
    · exact h.trans (State.closeLine_side _ _)
    · exact ((h.trans (State.l2Drops_side _ l _)).trans (State.dirPut_side _ l _)).trans (State.l2Set_side _ _ _ _)

theorem State.homeOwn_side (s : State) (l : Nat) (a : AgentId) (full : Bool) : s.MemSide (s.homeOwn l a full).1 := by
  unfold State.homeOwn
  split; · exact .refl s
  split
  · exact s.clearPz_side l a false
  · exact s.inTurn_side l a _ (s.serveOwn_side l a)

theorem State.evictL2_side (s : State) (e : L2Line) : s.MemSide (s.evictL2 e) := by
  have h := ((s.l2Drop_side e.agent e.line).trans (State.dirDel_side _ e.line)).trans (State.metaClear_side _ e.line)
  unfold State.evictL2
  dsimp only
  repeat' split
  · exact s.l2Drop_side _ _
  · exact h.trans (State.llcTouch_side _ _ _)
  · exact h

theorem State.rodHome_side (s : State) (f : Ty) (l : Nat) (v : W64) : s.MemSide (s.rodHome f l v) := by
  unfold State.rodHome
  split
  · exact .refl s
  · exact .trans (.of rfl) (State.llcTouch_side _ _ _)

theorem State.withPartials_side (s : State) (ps : List Partial) : s.MemSide { s with partials := ps } := .of rfl

theorem State.foldPartial_side (s : State) (f : Ty) (p : Partial) : s.MemSide (s.foldPartial f p) := by
  unfold State.foldPartial
  refine State.MemSide.trans (.foldl _ (fun t x => ?_) _) (State.withPartials_side _ _)
  exact t.rodHome_side f _ x.2

theorem State.foldFrom_side (s : State) (a : Fin 8) (l : Nat) : s.MemSide (s.foldFrom a l) := by
  unfold State.foldFrom
  split
  · exact (s.foldPartial_side _ _).trans (State.dirPut_side _ _ _)
  · exact .refl s

/-- What making room in an L2 changes (R62, R69). -/
theorem State.l2Room_side (s t : State) (a : AgentId) (l : Nat) (h : s.l2Room a l = some t) : s.MemSide t := by
  unfold State.l2Room at h
  dsimp only at h
  split at h
  · cases h; exact .refl s
  · rw [Option.map_eq_some_iff] at h
    obtain ⟨e, -, rfl⟩ := h
    split
    · exact s.evictL2_side _
    · exact s.foldFrom_side _ _

theorem State.l2Fill_side (s : State) (a : AgentId) (l : Nat) : s.MemSide (s.l2Fill a l).1 := by
  unfold State.l2Fill
  split
  · exact .refl s
  · split
    · exact .refl s
    · rename_i t h
      exact (s.l2Room_side t a l h).trans (t.homeRead_side l a)

theorem State.l1Room_side (s : State) (c : CoreId) (code : Bool) (l : Nat) : s.MemSide (s.l1Room c code l) := by
  unfold State.l1Room
  dsimp only
  repeat' split
  all_goals first | exact .refl s | exact .of rfl

theorem State.l1Fill_side (s : State) (c : CoreId) (code b : Bool) (l : Nat) : s.MemSide (s.l1Fill c code b l) := by
  have h := s.l1Room_side c code l
  unfold State.l1Fill
  dsimp only
  generalize s.l1Room c code l = q at h
  split
  · exact h.then rfl
  · exact h.then rfl

/-- What a read of a line through the caches changes (R64 to R75). -/
theorem State.readLine_side (s : State) (c : CoreId) (k : LineKind) (l1 code : Bool) (l : Nat) : s.MemSide (s.readLine c k l1 code l).1 := by
  have h := s.l2Fill_side (agentOf (dieOf c)) l
  unfold State.readLine
  split; · exact .refl s
  split; · exact .refl s
  split; · exact .refl s
  split
  · split
    · exact .refl s
    · exact s.allocLlc_side l
  split; · exact .refl s
  dsimp only
  generalize s.l2Fill (agentOf (dieOf c)) l = r at h
  repeat' split
  all_goals first | exact h | exact h.trans (State.l1Fill_side _ _ _ _ _)

/-- What asking for write permission changes (R68, R73, R75). -/
theorem State.ownLine_side (s : State) (c : CoreId) (k : LineKind) (full : Bool) (l : Nat) : s.MemSide (s.ownLine c k full l).1 := by
  have o (t : State) (a : AgentId) (h : s.l2Room a l = some t) := s.l2Room_side t a l h
  unfold State.ownLine
  dsimp only
  split; · exact .refl s
  split; · exact .refl s
  split
  · split; · exact .refl s
    split; · exact .refl s
    split
    · exact .refl s
    · exact o _ _ ‹_›
  split; · exact s.homeWritten_side l true
  split
  · exact s.homeOwn_side l _ full
  · split
    · split
      · exact s.homeOwn_side l _ full
      · exact State.l2Set_side _ _ _ _
    · split
      · exact .refl s
      · exact (o _ _ ‹_›).trans (State.homeOwn_side _ l _ full)

/-- What clearing the poison of lines that are written whole changes (R75, R81). -/
theorem State.unpoison_side (s : State) (a : AgentId) (b : Bool) (cells : List Host.Cell) : s.MemSide (s.unpoison a b cells) := by
  unfold State.unpoison
  refine .foldl _ (fun t l => ?_) _
  split
  · exact t.clearPz_side l a b
  · exact .refl t

/-- What combining a line of a range changes (R270). -/
theorem State.combine_side (s : State) (f : Ty) (l : Nat) : s.MemSide (s.combine f l).1 := by
  unfold State.combine
  split; · exact .refl s
  dsimp only
  split
  · exact .refl s
  · refine State.MemSide.trans (State.MemSide.trans (.foldl _ (fun t a => ?_) _) (State.allocLlc_side _ _)) (State.dirPut_side _ _ _)
    split
    · exact t.foldPartial_side f _
    · exact .refl t

theorem State.readAny_side (s : State) (c : CoreId) (k : LineKind) (l1 code : Bool) (l : Nat) : s.MemSide (s.readAny c k l1 code l).1 := by
  unfold State.readAny
  split
  · split
    · exact s.readLine_side c k l1 code l
    · exact s.combine_side _ l
  · exact s.readLine_side c k l1 code l

theorem State.walkKeep_side (s : State) (w : Who) (va : W64) (level node : Nat) : s.MemSide (s.walkKeep w va level node) := by
  unfold State.walkKeep
  split
  · exact .refl s
  · exact .of rfl

theorem State.noteBank_side (s : State) (e : W64) : s.MemSide (s.noteBank e) := by
  unfold State.noteBank
  dsimp only
  split
  · exact .refl s
  · exact .of rfl

theorem State.walkGo_side (s : State) (w : Who) (va : W64) (level node : Nat) : s.MemSide (s.walkGo w va level node).1 := by
  have rd (s : State) (pa l : Nat) : s.MemSide (s.walkRead w pa l).1 := s.readAny_side ..
  induction level generalizing s node with
  | zero =>
    unfold State.walkGo
    dsimp only
    repeat' split
    all_goals first | exact .refl s | exact rd s _ _
  | succ k ih =>
    unfold State.walkGo
    dsimp only
    repeat' split
    all_goals first | exact .refl s | exact rd s _ _ | exact ((rd s _ _).trans (State.walkKeep_side _ _ _ _ _)).trans (ih _ _)

theorem State.tlbPut_side (s : State) (f : Option TCache) (t : Tr) : s.MemSide (s.tlbPut f t) := .of rfl

theorem State.trigger_side (s : State) (h : Fin 64) (b : Nat) : s.MemSide (s.trigger h b) := by
  unfold State.trigger
  split; · exact .refl s
  split; · exact .refl s
  dsimp only
  split <;> exact .of rfl

theorem State.startDelay_side (s : State) (h : Fin 64) (v : View) (b : Nat) : s.MemSide (s.startDelay h v b) := by
  unfold State.startDelay
  split
  · exact s.trigger_side h b
  · split
    · exact .refl s
    · exact .of rfl

theorem State.oweBlock_side (s : State) (h : Fin 64) (v : View) (b : Nat) : s.MemSide (s.oweBlock h v b) := by
  unfold State.oweBlock
  dsimp only
  repeat' split
  · exact .trans (.of rfl) (State.trigger_side _ h b)
  · exact .trans (.of rfl) (State.startDelay_side _ h v b)
  · exact .of rfl
  · exact .trans (.of rfl) (State.startDelay_side _ h v b)

/-- What a write to a master line changes (R284). -/
theorem State.masterWritten_side (s : State) (l : Nat) (bytes : BitVec 128) : s.MemSide (s.masterWritten l bytes) := by
  unfold State.masterWritten
  refine .foldl _ (fun t x => ?_) _
  dsimp only
  split
  · exact .refl t
  · exact .foldl _ (fun u b => u.oweBlock_side _ _ b) _

/-- What the walker's write of an entry changes (R91). -/
theorem State.setPte_side (s : State) (loc : Nat) (e : W64) : s.MemSide (s.setPte loc e).1 := by
  have h := s.homeTake_side (lineOf loc)
  unfold State.setPte
  dsimp only
  generalize s.homeTake (lineOf loc) = r at h
  split
  · exact s.closeLine_side _
  · split
    · have k := (h.trans (u := r.1.pokeN loc (leBytes 8 e.toNat)) (.of rfl)).trans (State.homeWritten_side _ (lineOf loc) false)
      split
      · exact k.trans (State.masterWritten_side _ _ _)
      · exact k
    · exact h

/-- What a walk changes: it sets A and installs (R87, R91, R94). -/
theorem State.walk_side (s : State) (w : Who) (k : AccKind) (va : W64) : s.MemSide (s.walk w k va).1 := by
  have h := s.walkGo_side w va (s.walkStart w va).1 (s.walkStart w va).2
  unfold State.walk
  dsimp only
  generalize s.walkGo w va (s.walkStart w va).1 (s.walkStart w va).2 = r at h
  split
  · rename_i lf _
    have n := h.trans (State.noteBank_side _ lf.pte)
    split
    · exact n.trans (State.tlbPut_side _ _ _)
    · split
      · exact n.then rfl
      · have q := n.trans (State.setPte_side _ lf.pteLoc (lf.pte ||| 0x10))
        split
        · exact q.trans (State.tlbPut_side _ _ _)
        all_goals exact q
  all_goals exact h

/-- What translating an address changes. -/
theorem State.translate_side (s : State) (w : Who) (k : AccKind) (va : W64) : s.MemSide (s.translate w k va).1 := by
  have h := s.walk_side w k va
  unfold State.translate
  dsimp only
  split
  · dsimp only
    split
    · exact .refl s
    · exact s.tlbPut_side _ _
  · split
    · exact h
    · exact .refl s
    · exact h

/-- What checking an access changes (R92). -/
theorem State.check_side (s : State) (w : Who) (k : AccKind) (al : Nat) (va : W64) (n : Nat) : s.MemSide (s.check w k al va n).1 := by
  have h2 : s.MemSide (if va.toNat / 4096 = (va + BitVec.ofNat 64 (n - 1)).toNat / 4096 then ((s.translate w k va).1, (s.translate w k va).2)
      else (s.translate w k va).1.translate w k (va + BitVec.ofNat 64 (n - 1))).1 := by
    split
    · exact s.translate_side w k va
    · exact (s.translate_side w k va).trans (State.translate_side _ w k _)
  unfold State.check
  generalize (if w.untranslated = true then decide (2 ^ 48 ≤ va.toNat) || decide (2 ^ 48 < va.toNat + n)
    else !canonical va || !canonical (va + BitVec.ofNat 64 (n - 1))) = bad
  dsimp only
  split; · exact .refl s
  split; · exact .refl s
  split
  · split <;> exact .refl s
  · generalize (if va.toNat / 4096 = (va + BitVec.ofNat 64 (n - 1)).toNat / 4096 then ((s.translate w k va).1, (s.translate w k va).2)
      else (s.translate w k va).1.translate w k (va + BitVec.ofNat 64 (n - 1))) = r at h2 ⊢
    obtain ⟨q, x⟩ := r
    generalize (s.translate w k va).2 = y
    dsimp only at h2 ⊢
    repeat' split
    all_goals exact h2

theorem State.homeWake_side (s : State) (a : AgentId) (c : CoreId) (l : Nat) : s.MemSide (s.homeWake a c l) := by
  unfold State.homeWake
  dsimp only
  split
  · exact .refl s
  · exact .of rfl

theorem State.setDirty_side (s : State) (t : Tr) : s.MemSide (s.setDirty t).1 := by
  have h := s.setPte_side t.pteLoc (t.pte ||| 0x8)
  unfold State.setDirty
  dsimp only
  generalize s.setPte t.pteLoc (t.pte ||| 0x8) = q at h
  split; · exact .refl s
  split
  · split
    · exact h.then rfl
    · exact h.then rfl
    · exact h
  · exact .of rfl

theorem State.setDirties_side (s : State) (ts : List Tr) : s.MemSide (s.setDirties ts).1 := by
  induction ts generalizing s with
  | nil => exact .refl s
  | cons t ts ih =>
    unfold State.setDirties
    dsimp only
    split
    · exact (s.setDirty_side t).trans (ih _)
    · exact s.setDirty_side t

/-- What reading the lines of an access changes. -/
theorem State.readLines_side (s : State) (c : CoreId) (a : Acc) (l1 code : Bool) (ls : List Nat) : s.MemSide (s.readLines c a l1 code ls).1 := by
  induction ls generalizing s with
  | nil => exact .refl s
  | cons l ls ih =>
    unfold State.readLines
    dsimp only
    split
    · exact (s.readAny_side c _ l1 code l).trans (ih _)
    all_goals exact s.readAny_side c _ l1 code l

/-- What checking a read changes. -/
theorem State.checkRead_side (s : State) (w : Who) (k : AccKind) (l1 : Bool) (al : Nat) (va : W64) (n : Nat) : s.MemSide (s.checkRead w k l1 al va n).1 := by
  unfold State.checkRead
  dsimp only
  split
  · split
    · exact s.check_side w k al va n
    · split
      all_goals exact (s.check_side w k al va n).trans (State.readLines_side _ _ _ _ _ _)
  all_goals exact s.check_side w k al va n

theorem State.remoteFetch_side (s : State) (va : W64) (l : Nat) (sc : Bool) : s.MemSide (s.remoteFetch va l sc).1 := by
  unfold State.remoteFetch
  repeat' split
  all_goals exact .of rfl

/-- What fetching a word of memory changes; a word of the register window is read as a device register. -/
theorem State.fetch64_side (s : State) (w : Who) (va : W64) (h : (match (s.checkRead w .fetch true 1 va 8).2 with | .ok a => a.reg.isNone | _ => true) = true) :
    s.MemSide (s.fetch64 w va).1 := by
  have k := s.checkRead_side w .fetch true 1 va 8
  unfold State.fetch64
  generalize s.checkRead w .fetch true 1 va 8 = r at h k
  dsimp only
  split
  · rename_i a e
    rw [e] at h
    split
    · rename_i p hp
      simp [hp] at h
    · split
      · exact k
      · split
        · exact k.trans (State.remoteFetch_side _ _ _ _)
        · exact k
  all_goals exact k

theorem State.countLine_side (s : State) (va : W64) (b : Bool) (l : Nat) : s.MemSide (s.countLine va b l) := by
  have h : s.MemSide (s.countRange s.me.launch s.cur.core va l) := by
    unfold State.countRange
    repeat' split
    all_goals first | exact .refl s | exact .of rfl
  unfold State.countLine
  split
  · exact .refl s
  · exact h.then rfl

theorem State.countOnce_side (s : State) (va : W64) (a : Acc) (b : Bool) : s.MemSide (s.countOnce va a b) := by
  unfold State.countOnce
  split
  · exact .refl s
  · split
    · exact .refl s
    · exact .foldl _ (fun t l => t.countLine_side va b l) _

theorem State.insertLow_side (s s0 : State) (l : Option (Fin 64)) (c : CoreId) (va : W64) (ls : List Nat) : s.MemSide (s.insertLow s0 l c va ls) := by
  unfold State.insertLow
  dsimp only
  split
  · exact .of rfl
  · exact .refl s

/-- What waiting for a remote answer changes (R431). -/
theorem State.remoteGo_side (s : State) (m : Mask) (va : W64) (l : Nat) (wr sc : Bool) : s.MemSide (s.remoteGo m va l wr sc).1 := by
  unfold State.remoteGo
  dsimp only
  split
  · exact .refl s
  · exact .of rfl

/-- What checking a write kind's lane changes (R91, R92). -/
theorem State.chkWrite_side (s : State) (k : AccKind) (al : Nat) (va : W64) (n : Nat) : s.MemSide (s.chkWrite k al va n).1 := by
  have h := s.check_side s.who k al va n
  unfold State.chkWrite
  generalize s.check s.who k al va n = r at h
  dsimp only
  split
  · exact h
  · exact h
  · exact h
  · split
    · exact h
    · split
      · exact h
      · exact h.trans (State.countOnce_side _ _ _ _)

/-- What checking lanes one after another changes, where checking one lane changes no more. -/
theorem State.chkLanes_side (s : State) (ls : List Nat) (f : State → Nat → State × LaneChk) (h : ∀ (s : State) (l : Nat), s.MemSide (f s l).1) :
    s.MemSide (s.chkLanes ls f).1 := by
  have go : ∀ (r : State × List (Nat × LaneChk)), s.MemSide r.1 → s.MemSide (ls.foldl (fun r l => ((f r.1 l).1, r.2 ++ [(l, (f r.1 l).2)])) r).1 := by
    induction ls with
    | nil => exact fun _ k => k
    | cons l ls ih => exact fun r k => ih _ (k.trans (h r.1 l))
  exact go (s, []) (.refl s)

theorem State.amoLine_side (s : State) (sc : Scope) (a : Acc) (l : Nat) : s.MemSide (s.amoLine sc a l).1 := by
  have h := s.homeTake_side l
  unfold State.amoLine
  split; · exact .refl s
  split
  · exact s.closeLine_side l
  · dsimp only
    split
    · split
      · exact h.trans (State.homeWritten_side _ _ _)
      · exact h
    · exact s.ownLine_side _ _ _ _

/-- What checking an atomic's lane changes (R217). -/
theorem State.chkAmo_side (s : State) (sc : Scope) (va : W64) (n : Nat) : s.MemSide (s.chkAmo sc va n).1 := by
  have h := s.chkWrite_side .store n va n
  unfold State.chkAmo
  generalize s.chkWrite .store n va n = q at h
  dsimp only
  split
  · split
    · exact h
    · split
      · exact (h.trans (State.amoLine_side _ _ _ _)).trans (State.insertLow_side _ _ _ _ _ _)
      all_goals exact h.trans (State.amoLine_side _ _ _ _)
  · exact h

/-- What registering a partial changes (R269). -/
theorem State.cmRegister_side (s u : State) (d : Fin 8) (l : Nat) (f : Ty) (h : s.cmRegister d l f = some u) : s.MemSide u := by
  unfold State.cmRegister at h
  split at h
  · cases h; exact .refl s
  · cases hr : s.l2Room (agentOf d) l with
    | none => rw [hr] at h; exact absurd h (by simp)
    | some t =>
      rw [hr] at h
      have k := s.l2Room_side t _ l hr
      simp only [Option.map_some, Option.some.injEq] at h
      rw [← h]
      exact (k.trans (State.dirPut_side _ _ _)).then rfl

/-- What checking a contribution's lane changes (R279). -/
theorem State.chkRacc_side (s : State) (t : Ty) (sc : Scope) (va : W64) : s.MemSide (s.chkRacc t sc va).1 := by
  have h := s.chkWrite_side .contrib (amoBytes t) va (amoBytes t)
  unfold State.chkRacc
  dsimp only
  generalize s.chkWrite .contrib (amoBytes t) va (amoBytes t) = q at h
  repeat' split
  all_goals first | exact h | exact h.trans (State.cmRegister_side _ _ _ _ _ ‹_›)

theorem State.pageAt_side (s : State) (w : Who) (k : AccKind) (b m : Bool) (va : W64) : s.MemSide (s.pageAt w k b m va).1 := by
  have h := s.translate_side w k va
  unfold State.pageAt
  generalize s.translate w k va = r at h
  dsimp only
  split
  · split
    · exact .refl s
    · split <;> exact .refl s
  · split
    · exact .refl s
    · repeat' split
      all_goals exact h

/-- What finding the pages of a range changes. -/
theorem State.pagesOf_side (s : State) (w : Who) (k : AccKind) (b m : Bool) (fuel va stop : Nat) : s.MemSide (s.pagesOf w k b m fuel va stop).1 := by
  induction fuel generalizing s va with
  | zero => exact .refl s
  | succ f ih =>
    have h := s.pageAt_side w k b m (BitVec.ofNat 64 va)
    unfold State.pagesOf
    dsimp only
    split
    · exact .refl s
    · split
      · exact h
      · exact h
      · exact h
      · split
        · exact h.trans (ih _ _)
        · exact h.trans (ih _ _)

theorem State.noteBar_side (s : State) (l : Nat) : s.MemSide (s.noteBar l) := by
  have k := s.allocLlc_side (lineOf l)
  unfold State.noteBar
  dsimp only
  split
  · exact k
  · exact k.then rfl

theorem State.barHome_side (s : State) (p : Place) : s.MemSide (s.barHome p).1 := by
  unfold State.barHome
  split
  · split <;> exact .refl s
  · rename_i l
    have h := s.homeTake_side (lineOf l)
    dsimp only
    repeat' split
    all_goals first | exact .refl s | exact h.trans (State.noteBar_side _ _) | exact h

/-- What checking a barrier's address changes (R115, R223). -/
theorem State.barCheck_side (s : State) (w : Who) (sp : Bool) (a : W64) : s.MemSide (s.barCheck w sp a).1 := by
  have h := s.check_side w .contrib 32 a 32
  unfold State.barCheck
  dsimp only
  generalize s.check w .contrib 32 a 32 = r at h
  split
  · split
    · exact s.barHome_side _
    · exact .refl s
  · repeat' split
    all_goals first | exact h | exact (h.trans (State.barHome_side _ _)).trans (State.setDirties_side _ _) | exact h.trans (State.barHome_side _ _)

theorem State.outChunk_side (s : State) (sc : Scope) (va : W64) : s.MemSide (s.outChunk sc va).1 := by
  have h := s.check_side s.who .contrib 1 va 128
  unfold State.outChunk
  dsimp only
  generalize s.check s.who .contrib 1 va 128 = r at h
  repeat' split
  all_goals exact h

/-- What checking the chunks of a memory output changes (R251). -/
theorem State.outChunks_side (s : State) (sc : Scope) (vas : List W64) : s.MemSide (s.outChunks sc vas).1 := by
  have go : ∀ (r : State × List (W64 × XRes (Nat × List Tr))), s.MemSide r.1 →
      s.MemSide (vas.foldl (fun (r : State × List (W64 × XRes (Nat × List Tr))) va => ((r.1.outChunk sc va).1, r.2 ++ [(va, (r.1.outChunk sc va).2)])) r).1 := by
    induction vas with
    | nil => exact fun _ k => k
    | cons v vs ih => exact fun r k => ih _ (k.trans (r.1.outChunk_side sc v))
  have h := go (s, []) (.refl s)
  unfold State.outChunks
  dsimp only
  repeat' split
  all_goals exact h

end Sys2Proof.Machine
end

