-- ==== Sys2Proof/Laws/Decode.lean ====
section
/-!
SUPPORT. The fields of the layouts of spec/06 R158, read back from a word that is put together from them, and the codes of R161 read
back to what they stand for.
-/
namespace Sys2Proof

@[simp] theorem Ty.ofCode_code (t : Ty) : Ty.ofCode t.code = t := by cases t <;> rfl
@[simp] theorem Rnd.ofCode_code (r : Rnd) : Rnd.ofCode r.code = r := by cases r <;> rfl
@[simp] theorem Scope.ofCode_code (c : Scope) : Scope.ofCode c.code = c := by cases c <;> rfl
@[simp] theorem Cc.ofCode_code (c : Cc) : Cc.ofCode c.code = c := by cases c <;> rfl
@[simp] theorem Size.ofCode_code (z : Size) : Size.ofCode z.code = z := by cases z <;> rfl
@[simp] theorem RedOp.ofCode_code (o : RedOp) : RedOp.ofCode o.code = o := by cases o <;> rfl
@[simp] theorem AmoOp.ofCode_code (o : AmoOp) : AmoOp.ofCode o.code = o := by cases o <;> rfl
@[simp] theorem FenceKind.ofCode_code (k : FenceKind) : FenceKind.ofCode k.code = k := by cases k <;> rfl
@[simp] theorem PfTgt.ofCode_code (p : PfTgt) : PfTgt.ofCode p.code = p := by cases p <;> rfl

variable (op : BitVec 8) (g f : BitVec 4) (d a b c : Byte) (m : BitVec 16) (imm : W32)

@[simp] theorem rWord_op : (rWord op g f d a b c m).extractLsb' 56 8 = op := by simp [rWord]; ext j hj; simp; grind
@[simp] theorem rWord_g : fG (rWord op g f d a b c m) = g := by simp [rWord, fG]; ext j hj; simp; grind
@[simp] theorem rWord_f : fF (rWord op g f d a b c m) = f := by simp [rWord, fF]; ext j hj; simp; grind
@[simp] theorem rWord_d : vD (rWord op g f d a b c m) = d := by simp [rWord, vD]; ext j hj; simp; grind
@[simp] theorem rWord_a : vA (rWord op g f d a b c m) = a := by simp [rWord, vA]; ext j hj; simp; grind
@[simp] theorem rWord_b : vB (rWord op g f d a b c m) = b := by simp [rWord, vB]; ext j hj; simp; grind
@[simp] theorem rWord_c : vC (rWord op g f d a b c m) = c := by simp [rWord, vC]; ext j hj; simp; grind
/-- A field within the modifier. -/
theorem rWord_m (lo n : Nat) (h : lo + n ≤ 16) : (rWord op g f d a b c m).extractLsb' lo n = m.extractLsb' lo n := by
  simp [rWord]; ext j hj; simp; grind
/-- A bit of the modifier. -/
theorem rWord_bit (n : Nat) (h : n < 16) : (rWord op g f d a b c m).getLsbD n = m.getLsbD n := by
  simp [rWord]; grind

@[simp] theorem iWord_op : (iWord op g f d a imm).extractLsb' 56 8 = op := by simp [iWord]; ext j hj; simp; grind
@[simp] theorem iWord_f : fF (iWord op g f d a imm) = f := by simp [iWord, fF]; ext j hj; simp; grind
@[simp] theorem iWord_g : fG (iWord op g f d a imm) = g := by simp [iWord, fG]; ext j hj; simp; grind
@[simp] theorem iWord_d : vD (iWord op g f d a imm) = d := by simp [iWord, vD]; ext j hj; simp; grind
@[simp] theorem iWord_a : vA (iWord op g f d a imm) = a := by simp [iWord, vA]; ext j hj; simp; grind
@[simp] theorem iWord_imm : fImm (iWord op g f d a imm) = imm := by simp [iWord, fImm]; ext j hj; simp; grind

/-- A scalar register's field gives the register back. -/
@[simp] theorem ofS_back (r : SReg) : (ofS r).setWidth 6 = r := by simp [ofS]
/-- A mask register's field gives the register back. -/
@[simp] theorem ofK_back (r : KReg) : (ofK r).setWidth 4 = r := by simp [ofK]
theorem sD_eq (w : W64) : sD w = (vD w).setWidth 6 := by simp [sD, vD]; ext j hj; simp; grind
theorem sA_eq (w : W64) : sA w = (vA w).setWidth 6 := by simp [sA, vA]; ext j hj; simp; grind
theorem sB_eq (w : W64) : sB w = (vB w).setWidth 6 := by simp [sB, vB]; ext j hj; simp; grind
theorem sC_eq (w : W64) : sC w = (vC w).setWidth 6 := by simp [sC, vC]; ext j hj; simp; grind
theorem kD_eq (w : W64) : kD w = (vD w).setWidth 4 := by simp [kD, vD]; ext j hj; simp; grind
theorem kA_eq (w : W64) : kA w = (vA w).setWidth 4 := by simp [kA, vA]; ext j hj; simp; grind
theorem kB_eq (w : W64) : kB w = (vB w).setWidth 4 := by simp [kB, vB]; ext j hj; simp; grind
theorem kC_eq (w : W64) : kC w = (vC w).setWidth 4 := by simp [kC, vC]; ext j hj; simp; grind

end Sys2Proof
end

