-- ==== Sys2Proof/Laws/Quiet.lean ====
section
/-!
SUPPORT. Checks that leave the state as it was, and engines at work on host memory of a quiet machine: no access of theirs waits or fails. The witnesses of the
obligations rest on these.
-/
namespace Sys2Proof.Machine
open Sys2Proof


-- ## Checks that leave the state as it was

theorem check_same (s : State) (w : Who) (k : AccKind) (al : Nat) (va : W64) (n : Nat) (h : w.untranslated = true) : (s.check w k al va n).1 = s := by
  unfold State.check
  simp only [h, if_true]
  repeat' split
  all_goals rfl

theorem countOnce_same (s : State) (va : W64) (a : Acc) (b : Bool) (h : s.me.launch = none) : s.countOnce va a b = s := by simp only [State.countOnce, h]

theorem insertLow_same (s t : State) (c : CoreId) (va : W64) (ls : List Nat) : s.insertLow t none c va ls = s := rfl

theorem chkWrite_same (s : State) (k : AccKind) (al : Nat) (va : W64) (n : Nat) (a : Acc) (hu : s.who.untranslated = true) (hl : s.me.launch = none)
    (h : (s.check s.who k al va n).2 = .ok a) (ha : a.reg = none ∧ a.sc = false) : s.chkWrite k al va n = (s, .go a [] false) := by
  simp [State.chkWrite, h, ha, check_same _ _ _ _ _ _ hu, countOnce_same _ _ _ _ hl]

/-- Accesses to this device's memory on pages with nothing to set are performed at once. -/
theorem performs_same (s : State) (ret : Bool) (rs : List (Nat × LaneChk)) (addr : Nat → W64) (h : ∀ x ∈ passed rs, x.2.trs = [] ∧ x.2.remote = false) : s.Performs ret rs addr s := by
  intro k
  have ht : (passed rs).flatMap (fun x => x.2.trs) = [] := List.flatMap_eq_nil_iff.mpr (fun x hx => (h x hx).1)
  have hr : (passed rs).filter (fun x => x.2.remote) = [] := List.filter_eq_nil_iff.mpr (fun x hx => by simp [(h x hx).2])
  simp [State.performingAs, ht, hr, distinctTrs, State.setDirties]

theorem inv_of (s : State) (h : (Memory.wf s.mem && Memory.wf s.scr) = true) : s.Inv := by simpa [State.Inv] using h

theorem readLines_same (s : State) (c : CoreId) (a : Acc) (ls : List Nat) (hd : s.deadAgents = [])
    (h : ∀ l ∈ ls, s.rangeOf l = none ∧ lineRemote l = false ∧ (s.lineKind a l).llcOnly = false ∧ (s.lineKind a l).noL1 = false ∧ s.l1Hit c false l = true) :
    s.readLines c a true false ls = (s, .ok ()) := by
  induction ls with
  | nil => rfl
  | cons l ls ih =>
    obtain ⟨h1, h2, h3, h4, h5⟩ := h l (List.mem_cons_self ..)
    simp only [State.readLines, State.readAny, h1, State.readLine, h2, h3, h4, h5, hd, List.contains_nil]
    exact ih (fun x hx => h x (List.mem_cons_of_mem l hx))

theorem viewLocs_same (s : State) (w : Reader) (e : Bool) (locs : List Nat) (h : ∀ p ∈ locs, s.viewAt p = none) :
    s.viewLocs w e locs = (s, .go { locs := [], reg := none, sc := false, scLines := [], bkLines := [], sealLines := [], remote := false, trs := [] } [] false, []) := by
  have : locs.filterMap (fun l => (s.viewAt l).map (fun x => (l, x))) = [] := by
    rw [List.filterMap_eq_nil_iff]
    intro p hp
    simp [h p hp]
  unfold State.viewLocs
  rw [this]
  rfl

/-- A load of memory whose lines the L1 holds leaves the state as it was. -/
theorem chkLoad_same (s : State) (m : Mask) (al : Nat) (va : W64) (n : Nat) (r : Bool) (a : Acc) (hu : s.who.untranslated = true) (hl : s.me.launch = none)
    (hd : s.deadAgents = []) (h : (s.check s.who .load al va n).2 = .ok a) (ha : a.reg = none ∧ a.remote = false ∧ a.sc = false)
    (hs : ∀ l ∈ a.lines, s.rangeOf l = none ∧ lineRemote l = false ∧ (s.lineKind a l).llcOnly = false ∧ (s.lineKind a l).noL1 = false ∧ s.l1Hit s.cur.core false l = true)
    (hv : ∀ p ∈ a.locs, s.viewAt p = none) : s.chkLoad m al va n r = (s, .go a [] false) := by
  simp [State.chkLoad, h, ha, check_same _ _ _ _ _ _ hu, countOnce_same _ _ _ _ hl, hl, insertLow_same, readLines_same _ _ _ _ hd hs, viewLocs_same _ _ _ _ hv]

/-- Then the bytes there are the record read. -/
theorem recordAt_same (s : State) (va : W64) (n : Nat) (a : Acc) (h : s.chkLoad s.sp.m n va n false = (s, .go a [] false)) (ha : a.reg = none) (hr : s.remote = [] ∧ s.counted = [] ∧ s.vreads = []) :
    s.RecordAt va n s (a.locs.map (s.look s.cur.core)) := by
  have hd : s.remoteDone = s := by
    obtain ⟨h1, h2, h3⟩ := hr
    simp only [State.remoteDone, h1, h2, h3, List.filter_nil]
    rw [← h1]
    rw [← h2, ← h3]
  intro k
  simp [State.recordRead, h, State.oneAccess, State.readLanes, State.readGo, ha, hd]


-- ## Engines at work on host memory of a quiet machine: none of their accesses waits or fails

/-- The parts of the state on which `Calm` rests, but for the copies of lines. -/
def State.calmParts (s : State) :=
  (s.pz, s.deadDies, s.asleep, s.pend, s.closing, s.metas, s.regs, s.ranges, s.views, s.naeshDown, s.um, s.deadAgents, s.lost, s.partials, s.lineq, s.seals)

/-- Nothing is poisoned, asleep, waiting, leased, sealed, in a range or in a view. -/
structure Calm (s : State) : Prop where
  pz : s.pz = []
  dead : s.deadDies = []
  agents : s.deadAgents = []
  lost : s.lost = []
  l1 : s.l1 = []
  partials : s.partials = []
  lineq : s.lineq = []
  seals : s.seals = []
  asleep : s.asleep = []
  pend : s.pend = []
  closing : s.closing = []
  metas : s.metas = []
  regs : s.regs = []
  ranges : ∀ l, s.rangeOf l = none
  views : s.viewList = []
  naesh : s.naeshDown = false
  host : s.um.hostBytes = 2 ^ 36
  leases : ∀ e ∈ s.l2, e.lease = 0

theorem Calm.poisoned {s : State} (h : Calm s) (l : Nat) : s.poisoned l = false := by
  simp only [State.poisoned, h.pz, h.dead]
  split <;> rfl

theorem eraseDups_const (l : List Nat) (x : Nat) (hne : l ≠ []) (h : ∀ y ∈ l, y = x) : l.eraseDups = [x] := by
  match l with
  | a :: as =>
    obtain rfl := h a (List.mem_cons_self ..)
    have : as.filter (fun b => !b == a) = [] := by
      rw [List.filter_eq_nil_iff]
      intro y hy
      simp [h y (List.mem_cons_of_mem _ hy)]
    rw [List.eraseDups_cons, this]
    rfl

/-- An access of n bytes of host memory. -/
def hostAcc (va n : Nat) : Acc := { locs := (List.range n).map (va + ·), reg := none, sc := false, scLines := [], bkLines := [], sealLines := [], remote := false, trs := [] }

theorem check_host (s : State) (h : Calm s) (w : Who) (k : AccKind) (va n : Nat) (hw : w.untranslated = true) (_ : k = .load ∨ k = .store)
    (h0 : hostBase ≤ va) (h1 : va + n ≤ hostBase + 2 ^ 36) (hn : 0 < n) : s.check w k 1 (BitVec.ofNat 64 va) n = (s, .ok (hostAcc va n)) := by
  have hb : hostBase = 0x400000000000 := rfl
  have hv : (BitVec.ofNat 64 va).toNat = va := by simp only [BitVec.toNat_ofNat]; omega
  have ps : (List.range n).map (s.physAt w [] (BitVec.ofNat 64 va)) = (List.range n).map (fun i => Phys.loc (va + i)) := by
    apply List.map_congr_left
    intro i hi
    have hi := List.mem_range.mp hi
    have e : (va + i) % 2 ^ 64 = va + i := by omega
    simp only [State.physAt, hw, if_true, hv, e, State.decodePa, h.host]
    rw [if_neg (by omega), if_neg (by omega), if_neg (by omega), if_neg (by simp only [lpddrBase]; omega), if_neg (by omega), if_neg (by omega), if_pos (by simp only [regBase]; omega), if_pos (by omega)]
  have pl (l : Nat) : s.isPlane l = false := by simp [State.isPlane, h.views]
  have bad : ¬(decide (2 ^ 48 ≤ va) || decide (2 ^ 48 < va + n)) = true := by simp; omega
  unfold State.check
  simp only [hw, if_true, hv, Nat.mod_one, bne_self_eq_false, ps, Bool.false_eq_true, if_false]
  rw [if_neg bad]
  have pc : s.physCheck w k ((List.range n).map (fun i => Phys.loc (va + i))) = none := by
    have sl (l : Nat) : s.lineSealed l = false := by simp [State.lineSealed, h.seals]
    simp only [State.physCheck, pl, h.ranges]
    simp [State.nowhere, h.naesh, sl]
  simp only [pc]
  have nb : s.linesWith w [] (BitVec.ofNat 64 va) n (fun t => pteBK t.pte) s.bankAt = [] := by
    unfold State.linesWith
    rw [show ((List.range n).filter (fun i => i == 0 || ((BitVec.ofNat 64 va).toNat + i) % 128 == 0)).filterMap (fun i => _) = [] from List.filterMap_eq_nil_iff.mpr (fun i hi => ?_)]
    · rfl
    · have hi := List.mem_range.mp (List.mem_filter.mp hi).1
      have hp := List.map_inj_left.mp ps i (List.mem_range.mpr hi)
      simp only [State.physAt, hw, if_true] at hp
      have far : lineHbm (lineOf (va + i)) = false := decide_eq_false (by simp only [lineOf]; omega)
      rw [hv] at hp ⊢
      simp only [hw, if_true, hp, State.bankAt, far, Bool.false_and, Bool.false_eq_true, if_false]
  simp only [State.mkAcc, hostAcc, nb, hw, Bool.true_or, if_true, List.any_nil, Bool.false_eq_true, if_false]
  simp [List.filterMap_map, Function.comp_def]

theorem hostAcc_lines (va n : Nat) (hn : 0 < n) (h : va % 128 + n ≤ 128) : (hostAcc va n).lines = [va / 128] := by
  refine eraseDups_const _ _ (by simp [hostAcc]; omega) (fun y hy => ?_)
  simp only [hostAcc, List.mem_map, List.mem_range] at hy
  obtain ⟨_, ⟨i, hi, rfl⟩, rfl⟩ := hy
  simp only [lineOf]
  omega

theorem Calm.lease {s : State} (h : Calm s) (l : Nat) : s.leaseOn l = 0 := by
  have : ∀ e ∈ (s.l2.filter (fun e => e.line == l && decide (s.ptime < e.lease))).map (·.lease), e = 0 := by
    intro e he
    simp only [List.mem_map, List.mem_filter] at he
    obtain ⟨x, hx, rfl⟩ := he
    exact h.leases x hx.1
  unfold State.leaseOn
  generalize (s.l2.filter (fun e => e.line == l && decide (s.ptime < e.lease))).map (·.lease) = xs at this
  induction xs with
  | nil => rfl
  | cons x xs ih =>
    obtain rfl := this x (List.mem_cons_self ..)
    exact ih (fun e he => this e (List.mem_cons_of_mem _ he))

theorem Calm.lookup {s : State} (h : Calm s) (l : Nat) : s.lookup l = (s, s.dirGet l, .ok) := by
  unfold State.lookup
  split
  · simp [*]
  · simp [State.metaGet, h.metas, h.lost, *]

/-- Then so is a state that agrees on those parts and has no lease and no line of an L1 that s has not. -/
theorem Calm.of {s t : State} (h : Calm s) (e : t.calmParts = s.calmParts) (l : ∀ x ∈ t.l2, x.lease = 0) (k : ∀ x ∈ t.l1, x ∈ s.l1) : Calm t := by
  simp only [State.calmParts, Prod.mk.injEq] at e
  obtain ⟨e1, e2, e3, e4, e5, e6, e7, e8, e9, e10, e11, e12, e13, e14, e15, e16⟩ := e
  exact
    { pz := e1 ▸ h.pz, dead := e2 ▸ h.dead, agents := e12 ▸ h.agents, lost := e13 ▸ h.lost, partials := e14 ▸ h.partials, lineq := e15 ▸ h.lineq, seals := e16 ▸ h.seals
      l1 := List.eq_nil_iff_forall_not_mem.mpr (fun x hx => by have := k x hx; rw [h.l1] at this; cases this)
      asleep := e3 ▸ h.asleep, pend := e4 ▸ h.pend, closing := e5 ▸ h.closing, metas := e6 ▸ h.metas, regs := e7 ▸ h.regs
      ranges := fun l => by simp only [State.rangeOf, e8]; exact h.ranges l
      views := by simp only [State.viewList, e9]; exact h.views
      naesh := e10 ▸ h.naesh, host := e11 ▸ h.host, leases := l }

theorem Calm.l2Set {s : State} (h : Calm s) (a : AgentId) (l : Nat) (x : L2State) : Calm (s.l2Set a l x) := by
  refine h.of rfl (fun y hy => ?_) (fun _ hx => hx)
  simp only [State.l2Set, List.mem_cons, List.mem_filter] at hy
  obtain rfl | hy := hy
  · dsimp only [State.l2Get]
    cases e : s.l2.find? (fun e => e.agent == a && e.line == l) with
    | some y => exact h.leases _ (List.mem_of_find?_eq_some e)
    | none => rfl
  · exact h.leases y hy.1

theorem Calm.dirSet {s : State} (h : Calm s) (l : Nat) (d : DState) : Calm (s.dirSet l d) := h.of rfl h.leases (fun _ hx => hx)
theorem Calm.dirDel {s : State} (h : Calm s) (l : Nat) : Calm (s.dirDel l) := h.of rfl h.leases (fun _ hx => hx)

theorem Calm.dramReq {s : State} (h : Calm s) (l : Nat) : Calm (s.dramReq l) := by
  unfold State.dramReq
  split
  · exact h.of rfl h.leases (fun _ hx => hx)
  · exact h

theorem Calm.touch {s : State} (h : Calm s) (l : Nat) (d : Bool) : Calm (s.llcTouch l d) := by
  have room (q : State) (hq : Calm q) : Calm (q.llcRoom l) := by
    unfold State.llcRoom
    dsimp only
    repeat' split
    · exact hq
    · refine Calm.dramReq ?_ _
      exact hq.of rfl hq.leases (fun _ hx => hx)
    · exact hq.of rfl hq.leases (fun _ hx => hx)
    · exact hq
  unfold State.llcTouch
  repeat' split
  · exact h
  · exact h.of rfl h.leases (fun _ hx => hx)
  · exact h
  · have k := room _ (h.dramReq l)
    exact k.of rfl k.leases (fun _ hx => hx)

theorem Calm.drop {s : State} (h : Calm s) (a : AgentId) (l : Nat) : Calm (s.l2Drop a l) :=
  h.of rfl (fun y hy => h.leases y (List.mem_filter.mp hy).1) (fun _ hx => (List.mem_filter.mp hx).1)

theorem Calm.drops {s : State} (h : Calm s) (l : Nat) (as : List AgentId) : Calm (as.foldl (fun s o => s.l2Drop o l) s) := by
  induction as generalizing s with
  | nil => exact h
  | cons a as ih => exact ih (h.drop a l)

theorem Calm.metaClear {s : State} (h : Calm s) (l : Nat) : Calm (s.metaClear l) := by
  have e : s.metaClear l = s := by simp only [State.metaClear, h.metas, List.filter_nil]; rw [← h.metas]
  rw [e]
  exact h

/-- No lease, no store and no closed link keeps a line in its L2. -/
theorem Calm.gives {s : State} (h : Calm s) (e : L2Line) (he : e ∈ s.l2) : s.mayGiveUp e = true := by
  simp [State.mayGiveUp, State.leaseOver, State.stuck, h.leases e he, h.l1, h.pend, h.naesh]

theorem Calm.evictL2 {s : State} (h : Calm s) (e : L2Line) : Calm (s.evictL2 e) := by
  have k := ((h.drop e.agent e.line).dirDel e.line).metaClear e.line
  unfold State.evictL2
  dsimp only
  repeat' split
  · exact h.drop _ _
  · exact k.touch _ _
  · exact k

/-- So an L2 always has room. -/
theorem Calm.l2Room {s : State} (h : Calm s) (a : AgentId) (l : Nat) : ∃ t, s.l2Room a l = some t ∧ Calm t := by
  unfold State.l2Room
  simp only [h.partials, List.filter_nil, List.map_nil, List.append_nil]
  split
  · exact ⟨s, rfl, h⟩
  · rename_i hc
    generalize hm : s.l2.filter (fun e => e.agent == a && e.line != l) = mine at hc ⊢
    generalize hn : setOf 16 2 32768 l (mine.map (·.line)) = names at hc ⊢
    simp only [Bool.or_eq_true, decide_eq_true_eq, not_or, Nat.not_lt] at hc
    have sub : ∀ x ∈ names, x ∈ mine.map (·.line) := by
      intro x hx
      rw [← hn, setOf] at hx
      split at hx
      · cases hx
      · exact (List.mem_filter.mp hx).1
    generalize hq : mine.filter (fun e => names.contains e.line && s.mayGiveUp e) = set
    have ne : set ≠ [] := by
      match names, hc.1, sub with
      | x :: _, _, sub =>
        obtain ⟨e, he, hx⟩ := List.mem_map.mp (sub x (List.mem_cons_self ..))
        refine List.ne_nil_of_mem (a := e) (hq ▸ List.mem_filter.mpr ⟨he, ?_⟩)
        simp [hx, h.gives e (List.mem_filter.mp (hm ▸ he)).1]
    generalize hp : (if (set.filter (·.low)).isEmpty then set.map Sum.inl else (set.filter (·.low)).map Sum.inl : List (L2Line ⊕ Partial)) = pick
    have pn : pick ≠ [] := by
      rw [← hp]
      split
      · simpa using ne
      · rename_i hne
        exact fun e => hne (by rw [List.map_eq_nil_iff.mp e]; rfl)
    have lt : Config.victim s.cyc l % pick.length < pick.length := Nat.mod_lt _ (List.length_pos_iff.mpr pn)
    simp only [State.victimOf, List.getElem?_eq_getElem lt, Option.map_some]
    refine ⟨_, rfl, ?_⟩
    split
    · exact h.evictL2 _
    · simp only [State.foldFrom, h.ranges]
      exact h

theorem Calm.master {s : State} (h : Calm s) (l : Nat) : s.isMaster l = false := by simp [State.isMaster, h.views]

theorem Calm.dirRoom {s : State} (h : Calm s) (l : Nat) (hl : homeOf l = none) : Calm (s.dirRoom l) := by
  unfold State.dirRoom
  rw [hl]
  exact h

theorem Calm.dirPut {s : State} (h : Calm s) (l : Nat) (d : DState) (hl : homeOf l = none) : Calm (s.dirPut l d) := (h.dirRoom l hl).dirSet l d

/-- No request waits in its turn: a request is served at once. -/
theorem Calm.inTurn {s : State} (h : Calm s) (l : Nat) (a : AgentId) (f : State → State × Ans) (hf : Calm (f s).1 ∧ (f s).2 = .ok) :
    s.inTurn l a f = f s := by
  have hb : s.behind l a = false := by simp [State.behind, h.lineq]
  have e : { (f s).1 with lineq := (f s).1.lineq.filter (fun x => !(x.1 == l && x.2.1 == a)) } = (f s).1 := by
    have := hf.1.lineq
    simp only [this, List.filter_nil]
    rw [← this]
  simp only [State.inTurn, hb, Bool.false_eq_true, if_false, hf.2, e]
  exact Prod.ext rfl hf.2.symm

theorem Calm.serveRead {s : State} (h : Calm s) (l : Nat) (a : AgentId) (hl : homeOf l = none) : Calm (s.serveRead l a).1 ∧ (s.serveRead l a).2 = .ok := by
  have ha : Calm (s.allocLlc l) := h.touch l false
  have hs : s.homeAsleep l = false := by simp [State.homeAsleep, h.asleep]
  have hx : (s.allocLlc l).asleep = [] := ha.asleep
  unfold State.serveRead
  simp only [h.poisoned, hs, ha.lookup, Bool.false_eq_true, if_false]
  generalize s.allocLlc l = q at ha hx ⊢
  simp only [bne_self_eq_false, Bool.false_eq_true, if_false]
  split
  · split
    · exact ⟨ha.l2Set _ _ _, rfl⟩
    · simp only [hx, List.contains_nil, Bool.false_eq_true, if_false]
      refine ⟨Calm.l2Set (Calm.dirSet ?_ _ _) _ _ _, trivial⟩
      split
      · refine Calm.l2Set ?_ _ _ _
        split
        · exact ha.touch _ _
        · exact ha
      · exact ha
  · exact ⟨(ha.dirSet _ _).l2Set _ _ _, rfl⟩
  · exact ⟨ha, rfl⟩
  · simp only [ha.master, Bool.false_eq_true, if_false]
    exact ⟨(ha.dirPut _ _ hl).l2Set _ _ _, trivial⟩

theorem Calm.homeRead {s : State} (h : Calm s) (l : Nat) (a : AgentId) (hl : homeOf l = none) : Calm (s.homeRead l a).1 ∧ (s.homeRead l a).2 = .ok := by
  have k := h.serveRead l a hl
  simp only [State.homeRead, h.agents, List.contains_nil, Bool.false_eq_true, if_false, h.inTurn l a (fun s => s.serveRead l a) k]
  exact k

theorem Calm.held {s : State} (h : Calm s) (l : Nat) (as : List AgentId) : s.leaseHeld l as = false := by
  unfold State.leaseHeld
  rw [List.any_eq_false]
  intro e he
  simp [State.leaseOver, h.l1, h.leases e he]

theorem Calm.serveOwn {s : State} (h : Calm s) (l : Nat) (a : AgentId) (hl : homeOf l = none) : Calm (s.serveOwn l a).1 ∧ (s.serveOwn l a).2 = .ok := by
  have ha : Calm (s.allocLlc l) := h.touch l false
  have hs : s.homeAsleep l = false := by simp [State.homeAsleep, h.asleep]
  have hx : (s.allocLlc l).asleep = [] := ha.asleep
  unfold State.serveOwn
  simp only [h.poisoned, h.master, hs, ha.lookup, Bool.false_eq_true, if_false]
  generalize s.allocLlc l = q at ha hx ⊢
  have sl (as : List AgentId) : q.sleeper as = none := by simp [State.sleeper, hx]
  simp only [bne_self_eq_false, Bool.false_eq_true, if_false, sl, ha.held]
  exact ⟨((ha.drops l _).dirPut _ _ hl).l2Set _ _ _, trivial⟩

theorem Calm.homeOwn {s : State} (h : Calm s) (l : Nat) (a : AgentId) (full : Bool) (hl : homeOf l = none) : Calm (s.homeOwn l a full).1 ∧ (s.homeOwn l a full).2 = .ok := by
  have k := h.serveOwn l a hl
  have hc : s.clearable l = false := by simp [State.clearable, h.pz]
  simp only [State.homeOwn, h.agents, List.contains_nil, hc, Bool.false_and, Bool.false_eq_true, if_false, h.inTurn l a (fun s => s.serveOwn l a) k]
  exact k

theorem Calm.l2Fill {s : State} (h : Calm s) (l : Nat) (a : AgentId) (hl : homeOf l = none) : Calm (s.l2Fill a l).1 ∧ (s.l2Fill a l).2 = .ok := by
  obtain ⟨t, ht, hc⟩ := h.l2Room a l
  have k := hc.homeRead l a hl
  unfold State.l2Fill
  split
  · exact ⟨h, rfl⟩
  · rw [ht]
    exact ⟨k.1, by simp only [k.2, Ans.toLine]⟩

theorem Calm.unpoison {s : State} (h : Calm s) (a : AgentId) (b : Bool) (cs : List Host.Cell) : s.unpoison a b cs = s := by
  have : ((cs.map (fun c => lineOf c.1)).eraseDups).filter s.clearable = [] := by
    rw [List.filter_eq_nil_iff]
    intro l _
    simp [State.clearable, h.pz]
  simp only [State.unpoison, this, List.foldl_nil]

theorem Calm.insertLow {s : State} (h : Calm s) (t : State) (i : Option (Fin 64)) (c : CoreId) (va : W64) (ls : List Nat) : Calm (s.insertLow t i c va ls) := by
  unfold State.insertLow
  dsimp only
  split
  · refine h.of rfl (fun x hx => ?_) (fun _ hx => hx)
    obtain ⟨y, hy, rfl⟩ := List.mem_map.mp hx
    split
    · exact h.leases y hy
    · exact h.leases y hy
  · exact h

theorem Calm.engLoad {s : State} (h : Calm s) (w : Who) (va n : Nat) (hw : w.untranslated = true) (h0 : hostBase ≤ va) (h1 : va + n ≤ hostBase + 2 ^ 36) (hn : 0 < n)
    (hl : va % 128 + n ≤ 128) : Calm (s.engLoad w (BitVec.ofNat 64 va) n).1 ∧ s.MemSide (s.engLoad w (BitVec.ofNat 64 va) n).1 ∧
      ∃ bs, (s.engLoad w (BitVec.ofNat 64 va) n).2 = .ok bs := by
  have hb : hostBase = 0x400000000000 := rfl
  have rem : lineRemote (va / 128) = false := by simp only [lineRemote, decide_eq_false_iff_not]; omega
  have home : homeOf (va / 128) = none := by simp only [homeOf]; rw [dif_neg (by omega)]
  have pl (t : State) (ht : Calm t) (l : Nat) : t.isPlane l = false := by simp [State.isPlane, ht.views]
  have kind : s.lineKind (hostAcc va n) (va / 128) = { llcOnly := false, noL1 := false, isSealed := false } := by simp [State.lineKind, hostAcc, pl s h]
  have rl : Calm (s.readLines w.core (hostAcc va n) false false [va / 128]).1 ∧ (s.readLines w.core (hostAcc va n) false false [va / 128]).2 = .ok () := by
    have hr := h.l2Fill (va / 128) (agentOf (dieOf w.core)) home
    have key : Calm (s.readLine w.core { llcOnly := false, noL1 := false, isSealed := false } false false (va / 128)).1 ∧
        (s.readLine w.core { llcOnly := false, noL1 := false, isSealed := false } false false (va / 128)).2 = .ok := by
      simp only [State.readLine, rem, h.agents, h.pend, h.closing, List.contains_nil, List.any_nil, Bool.or_self, Bool.false_eq_true, if_false, Bool.false_and]
      simp only [hr.2, hr.1.poisoned, Bool.false_eq_true, if_false]
      exact ⟨hr.1, trivial⟩
    simp only [State.readLines, kind, State.readAny, h.ranges, key.2]
    exact ⟨key.1, trivial⟩
  have vl (t : State) (ht : Calm t) := viewLocs_same t (engReader w.core (BitVec.ofNat 64 va)) true (hostAcc va n).locs (fun p _ => by simp [State.viewAt, ht.views])
  unfold State.engLoad
  simp only [check_host s h w .load va n hw (.inl rfl) h0 h1 hn, hostAcc_lines va n hn hl]
  simp only [show (hostAcc va n).reg = none from rfl, show (hostAcc va n).remote = false from rfl, Bool.false_eq_true, if_false, rl.2]
  have low := rl.1.insertLow s w.launch w.core (BitVec.ofNat 64 va) [va / 128]
  simp only [vl _ low]
  exact ⟨low.of rfl low.leases (fun _ hx => hx), ((State.readLines_side ..).trans (State.insertLow_side ..)).then rfl, _, rfl⟩

theorem Calm.perform {s : State} (h : Calm s) (cs : List Host.Cell) : s.perform cs = s.poke cs := by
  have hp : Calm (s.poke cs) := h.of rfl h.leases (fun _ hx => hx)
  have rw_ (t : State) (ht : Calm t) (p : Place) : t.rewake p 1 = t := by simp [State.rewake, ht.regs]
  have fold (t : State) (ht : Calm t) (xs : List Host.Cell) : xs.foldl (fun s c => s.rewake (.mem c.1) 1) t = t := by
    induction xs with
    | nil => rfl
    | cons x xs ih => simp only [List.foldl_cons, rw_ t ht]; exact ih
  unfold State.perform
  simp only [fold _ hp]
  have nm : ((cs.map (fun c => lineOf c.1)).eraseDups).filter (s.poke cs).isMaster = [] := by
    rw [List.filter_eq_nil_iff]
    intro l _
    simp [State.isMaster, hp.views]
  rw [nm]
  rfl

theorem Calm.engStore {s : State} (h : Calm s) (w : Who) (va : Nat) (bs : List Byte) (hw : w.untranslated = true) (h0 : hostBase ≤ va) (h1 : va + bs.length ≤ hostBase + 2 ^ 36)
    (hn : 0 < bs.length) (hl : va % 128 + bs.length ≤ 128) : Calm (s.engStore w (BitVec.ofNat 64 va) bs).1 ∧ s.MemSide (s.engStore w (BitVec.ofNat 64 va) bs).1 ∧
      (s.engStore w (BitVec.ofNat 64 va) bs).2 = .ok () := by
  have hb : hostBase = 0x400000000000 := rfl
  have rem : lineRemote (va / 128) = false := by simp only [lineRemote, decide_eq_false_iff_not]; omega
  have home : homeOf (va / 128) = none := by simp only [homeOf]; rw [dif_neg (by omega)]
  have kind : s.lineKind (hostAcc va bs.length) (va / 128) = { llcOnly := false, noL1 := false, isSealed := false } := by simp [State.lineKind, hostAcc, State.isPlane, h.views]
  have free : s.lineFree (va / 128) = true := by simp [State.lineFree, h.lease, h.pend]
  have own (full : Bool) : Calm (s.ownLine w.core { llcOnly := false, noL1 := false, isSealed := false } full (va / 128)).1 ∧
      (s.ownLine w.core { llcOnly := false, noL1 := false, isSealed := false } full (va / 128)).2 = .ok := by
    have ho := h.homeOwn (va / 128) (agentOf (dieOf w.core)) full home
    obtain ⟨t, ht, hc⟩ := h.l2Room (agentOf (dieOf w.core)) (va / 128)
    have ho' := hc.homeOwn (va / 128) (agentOf (dieOf w.core)) full home
    simp only [State.ownLine, rem, h.agents, h.poisoned, h.master, List.contains_nil, Bool.false_eq_true, if_false]
    split
    · split
      · exact ⟨ho.1, by rw [ho.2]; rfl⟩
      · exact ⟨h.l2Set _ _ _, rfl⟩
    · simp only [ht, ho'.2]
      exact ⟨ho'.1, rfl⟩
  unfold State.engStore
  simp only [check_host s h w .store va bs.length hw (.inr rfl) h0 h1 hn, hostAcc_lines va bs.length hn hl]
  simp only [show (hostAcc va bs.length).reg = none from rfl, show (hostAcc va bs.length).remote = false from rfl, show (hostAcc va bs.length).trs = [] from rfl, Bool.not_true,
    Bool.false_eq_true, if_false, free, kind, (own _).2]
  have e : distinctTrs [] = [] := rfl
  have low := (own (bs.length == 128)).1.insertLow s w.launch w.core (BitVec.ofNat 64 va) [va / 128]
  simp only [e, State.setDirties, low.unpoison, low.perform]
  exact ⟨low.of rfl low.leases (fun _ hx => hx), ((State.ownLine_side ..).trans (State.insertLow_side ..)).then rfl, trivial⟩

-- ## Extents

/-- One access of an extent: within a line, in host memory. -/
def segOk (g : Nat × Nat) : Prop := hostBase ≤ g.1 ∧ g.1 + g.2 ≤ hostBase + 2 ^ 36 ∧ 0 < g.2 ∧ g.1 % 128 + g.2 ≤ 128

theorem segs_ok (va n : Nat) (hn : 0 < n) (h0 : hostBase ≤ va) (h1 : va + n ≤ hostBase + 2 ^ 36) : ∀ g ∈ segs va n, segOk g := by
  intro g hg
  simp only [segs, List.mem_map, List.mem_range] at hg
  obtain ⟨i, hi, rfl⟩ := hg
  simp only [segOk]
  split
  · subst i
    omega
  · omega

theorem take_calm (w : Who) (hw : w.untranslated = true) (va at_ : Nat) (gs : List (Nat × Nat)) (hg : ∀ g ∈ gs, segOk g) (s : State) (h : Calm s) (t : Taken)
    (ht : t.waits = false ∧ t.err = 0) :
    let r := gs.foldl (fun (r : State × Taken) g =>
      let q := r.1.sideLoad w false g.1 g.2
      match q.2 with
      | .ok bs => (q.1, { r.2 with data := r.2.data ++ (List.range bs.length).zipWith (fun i b => (at_ + (g.1 - va) + i, b)) bs })
      | .err c => (q.1, r.2.fault c (r.1.failByte w false g.1 g.2))
      | .wait => (q.1, { r.2 with waits := true })) (s, t)
    Calm r.1 ∧ s.MemSide r.1 ∧ r.2.waits = false ∧ r.2.err = 0 := by
  induction gs generalizing s t with
  | nil => exact ⟨h, .refl s, ht⟩
  | cons g gs ih =>
    obtain ⟨a, b, c, d⟩ := hg g (List.mem_cons_self ..)
    obtain ⟨h1, hc, bs, h2⟩ := h.engLoad w g.1 g.2 hw a b c d
    have := ih (fun x hx => hg x (List.mem_cons_of_mem _ hx)) (s.engLoad w (BitVec.ofNat 64 g.1) g.2).1 h1
      { t with data := t.data ++ (List.range bs.length).zipWith (fun i b => (at_ + (g.1 - va) + i, b)) bs } ht
    have this := And.intro this.1 (And.intro (hc.trans this.2.1) this.2.2)
    simp only [List.foldl_cons, State.sideLoad, Bool.false_eq_true, if_false, h2]
    simpa only [State.sideLoad, Bool.false_eq_true, if_false] using this

theorem land_calm (w : Who) (hw : w.untranslated = true) (va at_ : Nat) (gs : List (Nat × Nat)) (hg : ∀ g ∈ gs, segOk g) (s : State) (h : Calm s) (t : Taken)
    (ht : t.waits = false ∧ t.err = 0) :
    let r := gs.foldl (fun (r : State × Taken) g =>
      let off := at_ + (g.1 - va)
      let bs := (r.2.data.filter (fun x => decide (off ≤ x.1) && decide (x.1 < off + g.2))).map (·.2)
      if bs.length = g.2 then
        let q := r.1.sideStore w false g.1 bs
        match q.2 with
        | .ok _ => (q.1, r.2)
        | .err c => (q.1, r.2.fault c g.1)
        | .wait => (q.1, { r.2 with waits := true })
      else r) (s, t)
    Calm r.1 ∧ s.MemSide r.1 ∧ r.2.waits = false ∧ r.2.err = 0 := by
  induction gs generalizing s with
  | nil => exact ⟨h, .refl s, ht⟩
  | cons g gs ih =>
    obtain ⟨a, b, c, d⟩ := hg g (List.mem_cons_self ..)
    have ih := ih (fun x hx => hg x (List.mem_cons_of_mem _ hx))
    rw [List.foldl_cons]
    dsimp only at ih ⊢
    split
    · rename_i e
      generalize ((t.data.filter (fun x => decide (at_ + (g.1 - va) ≤ x.1) && decide (x.1 < at_ + (g.1 - va) + g.2))).map (·.2)) = bs at e ⊢
      obtain ⟨h1, hc, h2⟩ := h.engStore w g.1 bs hw a (by omega) (by omega) (by omega)
      simp only [State.sideStore, Bool.false_eq_true, if_false, h2] at ih ⊢
      have := ih _ h1
      exact ⟨this.1, hc.trans this.2.1, this.2.2⟩
    · exact ih s h

theorem Calm.getAll {s : State} (h : Calm s) (w : Who) (va n : Nat) (hw : w.untranslated = true) (hn : 0 < n) (h0 : hostBase ≤ va) (h1 : va + n ≤ hostBase + 2 ^ 36) :
    Calm (s.getAll w va n).1 ∧ s.MemSide (s.getAll w va n).1 ∧ (s.getAll w va n).2.waits = false ∧ (s.getAll w va n).2.err = 0 :=
  take_calm w hw va 0 (segs va n) (segs_ok va n hn h0 h1) s h Taken.none ⟨rfl, rfl⟩

theorem Calm.putAll {s : State} (h : Calm s) (w : Who) (va : Nat) (bs : List Byte) (hw : w.untranslated = true) (hn : 0 < bs.length) (h0 : hostBase ≤ va)
    (h1 : va + bs.length ≤ hostBase + 2 ^ 36) :
    Calm (s.putAll w va bs).1 ∧ s.MemSide (s.putAll w va bs).1 ∧ (s.putAll w va bs).2.waits = false ∧ (s.putAll w va bs).2.err = 0 :=
  land_calm w hw va 0 (segs va bs.length) (segs_ok va bs.length hn h0 h1) s h _ ⟨rfl, rfl⟩

theorem Calm.putParts {s : State} (h : Calm s) (w : Who) (base : Nat) (ps : List (Nat × List Byte)) (hw : w.untranslated = true) (h0 : hostBase ≤ base)
    (hp : ∀ p ∈ ps, 0 < p.2.length ∧ base + p.1 + p.2.length ≤ hostBase + 2 ^ 36) :
    Calm (s.putParts w base ps).1 ∧ s.MemSide (s.putParts w base ps).1 ∧ (s.putParts w base ps).2.waits = false ∧ (s.putParts w base ps).2.err = 0 := by
  have go : ∀ (r : State × Taken), Calm r.1 → s.MemSide r.1 → r.2.waits = false → r.2.err = 0 →
      let f := ps.foldl (fun r p =>
        let q := r.1.putAll w (base + p.1) p.2
        (q.1, { r.2 with err := if r.2.err = 0 then q.2.err else r.2.err, addr := if r.2.err = 0 then q.2.addr else r.2.addr, waits := r.2.waits || q.2.waits })) r
      Calm f.1 ∧ s.MemSide f.1 ∧ f.2.waits = false ∧ f.2.err = 0 := by
    induction ps with
    | nil => exact fun _ a b c d => ⟨a, b, c, d⟩
    | cons p ps ih =>
      intro r a b c d
      obtain ⟨e, f⟩ := hp p (List.mem_cons_self ..)
      obtain ⟨h1, h2, h3, h4⟩ := a.putAll w (base + p.1) p.2 hw e (by omega) f
      exact ih (fun x hx => hp x (List.mem_cons_of_mem _ hx)) _ h1 (b.trans h2) (by simp [c, h3]) (by simp [d, h4])
  exact go (s, Taken.none) h (.refl s) rfl rfl

/-- Nothing is poisoned or asleep, and the directory records no agent. -/
structure Fresh (s : State) : Prop where
  pz : s.pz = []
  dead : s.deadDies = []
  asleep : s.asleep = []
  metas : s.metas = []
  lost : s.lost = []
  pend : s.pend = []
  dir : s.dir = []

/-- A line of which no agent is recorded is taken back at once. -/
theorem Fresh.homeTake {s : State} (h : Fresh s) (l : Nat) : s.homeTake l = (s, .ok) := by
  have hs : s.homeAsleep l = false := by simp [State.homeAsleep, h.asleep]
  have hg : s.dirGet l = none := by simp [State.dirGet, h.dir]
  have hk : s.lookup l = (s, none, .ok) := by simp [State.lookup, hg, State.metaGet, h.metas, h.lost]
  have hp : s.poisoned l = false := by
    simp only [State.poisoned, h.pz, h.dead]
    split <;> rfl
  have e : s.dirDel l = s := by simp only [State.dirDel, h.dir, List.filter_nil]; rw [← h.dir]
  have ho : holders none = [] := rfl
  have sl : s.sleeper [] = none := by simp [State.sleeper]
  have lh : s.leaseHeld l [] = false := by simp [State.leaseHeld]
  simp [State.homeTake, hp, hs, hk, ho, sl, lh, e]

theorem Fresh.barTake {s : State} (h : Fresh s) (p : Place) : s.barTake p = s := by
  unfold State.barTake
  split
  · rfl
  · split
    · rfl
    · rw [h.homeTake]

theorem Fresh.poisoned {s : State} (h : Fresh s) (l : Nat) : s.poisoned l = false := by
  simp only [State.poisoned, h.pz, h.dead]
  split <;> rfl

/-- A barrier of this device is in its HBM4E. -/
theorem barPlaced_local {s : State} {acc : Acc} {l : Nat} (hl : l < 2 ^ 48) (h : s.barPlaced acc l = true) : lineRemote (lineOf l) = false := by
  simp only [State.barPlaced, locHbm, Bool.and_eq_true, if_neg (show ¬2 ^ 48 ≤ l by omega), lineHbm, decide_eq_true_eq] at h
  simp only [lineRemote, decide_eq_false_iff_not]
  omega

/-- A barrier's address in such memory passes its checks: what changes is that its home has read its line. -/
theorem Fresh.barCheck {s : State} (h : Fresh s) (w : Who) (a : W64) (acc : Acc) (l : Nat) (ls : List Nat) (hw : w.untranslated = true)
    (hc : (s.check w .contrib 32 a 32).2 = .ok acc) (hb : l < 2 ^ 48)
    (hx : s.barPlaced acc l = true ∧ acc.trs = [] ∧ acc.locs = l :: ls) (hsc : acc.sc = false ∨ s.scBusy = false) :
    s.barCheck w false a = (s.noteBar l, .ok (.mem l)) := by
  obtain ⟨h2, h3, h4⟩ := hx
  have hl := barPlaced_local hb h2
  simp [State.barCheck, hc, check_same _ _ _ _ _ _ hw, h2, h3, h4, hl, h.poisoned, h.pend, State.setDirties, State.barHome, h.homeTake]
  exact fun a _ => hsc.resolve_left (by simp [a])

theorem rangeOf_reset (l : Nat) : State.reset.rangeOf l = none := by
  have e : State.reset.ranges = Vector.replicate 256 none := rfl
  have n : (Vector.replicate 256 (none : Option Range)).toList.filterMap id = [] := by rw [Vector.toList_replicate, List.filterMap_replicate_of_none rfl]
  rw [State.rangeOf, e, n, List.find?_nil]

theorem Calm.reset : Calm State.reset where
  pz := rfl
  dead := rfl
  agents := rfl
  lost := rfl
  l1 := rfl
  partials := rfl
  lineq := rfl
  seals := rfl
  asleep := rfl
  pend := rfl
  closing := rfl
  metas := rfl
  regs := rfl
  ranges := rangeOf_reset
  views := rfl
  naesh := rfl
  host := rfl
  leases := fun _ h => nomatch h

-- ## Pages without translation

theorem pageAt_same (s : State) (w : Who) (k : AccKind) (b m : Bool) (va : W64) (h : w.untranslated = true) : (s.pageAt w k b m va).1 = s := by
  unfold State.pageAt
  simp only [h, if_true]
  repeat' split
  all_goals rfl

theorem pagesOf_same (s : State) (w : Who) (k : AccKind) (b m : Bool) (fuel va stop : Nat) (h : w.untranslated = true) : (s.pagesOf w k b m fuel va stop).1 = s := by
  induction fuel generalizing va with
  | zero => rfl
  | succ f ih =>
    have hp := pageAt_same s w k b m (BitVec.ofNat 64 va) h
    unfold State.pagesOf
    split; · rfl
    generalize s.pageAt w k b m (BitVec.ofNat 64 va) = r at hp
    obtain ⟨r, x⟩ := r
    obtain rfl : r = s := hp
    dsimp only
    split
    · rfl
    · rfl
    · rfl
    · split <;> exact ih _

theorem viewPages_same (s : State) (b : Bool) (as : List (Nat × Nat)) (h : s.who.untranslated = true) : (s.viewPages b as).1 = s := by
  induction as with
  | nil => rfl
  | cons a as ih =>
    obtain ⟨va, len⟩ := a
    have hp := pagesOf_same s s.who .store true true (len / 4096 + 2) va (va + len) h
    unfold State.viewPages
    generalize s.pagesOf s.who .store true true (len / 4096 + 2) va (va + len) = r at hp
    obtain ⟨r, x⟩ := r
    obtain rfl : r = s := hp
    dsimp only
    split
    · split
      · rfl
      · split <;> exact ih
    · rfl

-- ## Translations that are cached

theorem setDirties_set (s : State) (t : Tr) (h : pteD t.pte = true) : s.setDirties [t] = (s, .ok) := by simp [State.setDirties, State.setDirty, h]

theorem translate_hit (s : State) (w : Who) (k : AccKind) (va : W64) (t : Tr) (h : s.tlbFind w k va = some t) (hf : (t.isIn (w.first k) || w.first k == none) = true) : s.translate w k va = (s, .ok t) := by
  unfold State.translate
  rw [h]
  simp only [hf, if_true]

/-- An access whose first and last byte have cached translations leaves the state as it was. -/
theorem check_hit (s : State) (w : Who) (k : AccKind) (al : Nat) (va : W64) (n : Nat) (t u : Tr) (h : s.tlbFind w k va = some t) (hf : (t.isIn (w.first k) || w.first k == none) = true)
    (h' : s.tlbFind w k (va + BitVec.ofNat 64 (n - 1)) = some u) (hf' : (u.isIn (w.first k) || w.first k == none) = true) : (s.check w k al va n).1 = s := by
  unfold State.check
  simp only [translate_hit _ _ _ _ _ h hf, translate_hit _ _ _ _ _ h' hf']
  by_cases e : va.toNat / 4096 = (va + BitVec.ofNat 64 (n - 1)).toNat / 4096
  all_goals
    simp only [e, if_true, if_false]
    repeat' split
    all_goals rfl

/-- So does a page whose translation is cached. -/
theorem pageAt_hit (s : State) (w : Who) (k : AccKind) (b m : Bool) (va : W64) (t : Tr) (h : s.tlbFind w k va = some t) (hf : (t.isIn (w.first k) || w.first k == none) = true) : (s.pageAt w k b m va).1 = s := by
  unfold State.pageAt
  simp only [translate_hit _ _ _ _ _ h hf]
  repeat' split
  all_goals rfl

/-- An extent within one such page. -/
theorem extPages_hit (s : State) (k : AccKind) (va : W64) (n : Nat) (t : Tr) (p : PageAt) (h : s.tlbFind s.who k va = some t) (hf : (t.isIn (s.who.first k) || s.who.first k == none) = true) (hp : (s.pageAt s.who k true true va).2 = .ok p)
    (hn : 0 < n) (hs : va.toNat + n ≤ (va.toNat / 2 ^ p.log + 1) * 2 ^ p.log) : s.extPages k va n = (s, .ok [p]) := by
  have e : BitVec.ofNat 64 va.toNat = va := by simp
  have st := pageAt_hit s s.who k true true va t h hf
  have pe : s.pageAt s.who k true true va = (s, .ok p) := Prod.ext st hp
  have nx (f : Nat) : s.pagesOf s.who k true true (f + 1) ((va.toNat / 2 ^ p.log + 1) * 2 ^ p.log) (va.toNat + n) = (s, .ok []) := by
    unfold State.pagesOf
    rw [if_pos hs]
  have go (f : Nat) : s.pagesOf s.who k true true (f + 2) va.toNat (va.toNat + n) = (s, .ok [p]) := by
    unfold State.pagesOf
    rw [if_neg (by omega), e, pe]
    dsimp only
    rw [nx]
  unfold State.extPages
  rw [if_neg (by omega)]
  exact go _

theorem extAll_cons (s : State) (k : AccKind) (va : W64) (n : Nat) (r : List (AccKind × W64 × Nat)) (ps : List PageAt) (h : s.extPages k va n = (s, .ok ps)) (hr : (s.extAll r).1 = s) :
    (s.extAll ((k, va, n) :: r)).1 = s := by
  unfold State.extAll
  rw [h]
  exact hr

/-- A barrier's address whose translation is cached with D = 1. -/
theorem Fresh.barCheck_hit {s : State} (h : Fresh s) (w : Who) (a : W64) (acc : Acc) (l : Nat) (ls : List Nat) (t : Tr) (ht : s.tlbFind w .contrib a = some t)
    (ht' : s.tlbFind w .contrib (a + BitVec.ofNat 64 31) = some t) (hf : (t.isIn (w.first .contrib) || w.first .contrib == none) = true) (hD : pteD t.pte = true) (hc : (s.check w .contrib 32 a 32).2 = .ok acc)
    (hb : l < 2 ^ 48)
    (hx : s.barPlaced acc l = true ∧ acc.trs = [t] ∧ acc.locs = l :: ls) (hsc : acc.sc = false ∨ s.scBusy = false) : s.barCheck w false a = (s.noteBar l, .ok (.mem l)) := by
  obtain ⟨h2, h3, h4⟩ := hx
  have hl := barPlaced_local hb h2
  simp [State.barCheck, hc, check_hit s w .contrib 32 a 32 t t ht hf ht' hf, h2, h3, h4, hl, h.poisoned, h.pend, setDirties_set _ t hD, State.barHome, h.homeTake]
  exact fun a _ => hsc.resolve_left (by simp [a])

/-- A lane's bank command whose extents leave the state as it was does so. -/
theorem bankLane_same (s : State) (bar : Place) (sc : Scope) (a : W64) (p : Place) (hp : s.scrByte s.cur.core s.me.ctx a = .ok p)
    (h : let w (i : Nat) : W64 := wordAt (s.placeGet p 64) i;
      (s.bankPages [(va57 (w 0), fld (w 5) 63 42), (va57 (w 1), 4 * (fld (w 5) 7 0 + 1)), (va57 (w 2), fld (w 5) 41 25)] (va57 (w 3), 4 * fld (w 6) 24 0)
        (va57 (w 4))).1 = s) : (s.bankLane bar sc a).1 = s := by
  unfold State.bankLane
  simp only [hp]
  split; · rfl
  split; · rfl
  split; · rfl
  split; · rfl
  unfold State.bankFields
  split; · rfl
  dsimp only at h ⊢
  revert h
  generalize s.bankPages _ _ _ = q
  intro h
  repeat' split
  all_goals exact h

theorem leBytes_length (n v : Nat) : (leBytes n v).length = n := by
  induction n generalizing v with
  | zero => rfl
  | succ n ih => simp [leBytes, ih]

theorem padTo_length (n : Nat) (bs : List Byte) (h : bs.length ≤ n) : (padTo n bs).length = n := by
  simp only [padTo, List.length_append, List.length_replicate]
  omega

/-- Lists of one length joined. -/
theorem flatMap_length {α β : Type} (xs : List α) (f : α → List β) (n : Nat) (h : ∀ x, (f x).length = n) : (xs.flatMap f).length = n * xs.length := by
  induction xs with
  | nil => simp
  | cons x xs ih => simp only [List.flatMap_cons, List.length_append, List.length_cons, h, ih, Nat.mul_succ]; omega

theorem laneBytes_length (v : LaneVec) : (laneBytes v).length = 128 := by simp [laneBytes, List.length_flatMap, leBytes_length, List.map_const']

theorem Str.sys_length (t : Str) : t.sysBytes.length = 192 := by
  refine padTo_length _ _ ?_
  have pre (bs : List Byte) (n : Nat) (h : bs.length ≤ n) : (padTo n bs).length = n := padTo_length n bs h
  have m : t.moreBytes.length = 91 := by
    unfold Str.moreBytes
    cases t.staging with
    | none => simp [leBytes_length]
    | some g =>
      simp only [List.length_append, leBytes_length]
      rw [pre _ 8 (List.length_take_le _ _), pre _ 64 (List.length_take_le _ _)]
  simp [leBytes_length, m]

/-- The parts of a string's area lie within 34816 bytes. -/
theorem Str.parts_ok (t : Str) : ∀ p ∈ t.parts, 0 < p.2.length ∧ p.1 + p.2.length ≤ 0x8800 := by
  have pk (α : Type) (xs : List α) (m : Nat) : (xs.take m).length ≤ m := List.length_take_le m xs
  intro p hp
  simp only [Str.parts, List.mem_append, List.mem_filterMap, List.mem_range, Option.map_eq_some_iff, List.mem_cons, List.not_mem_nil, or_false] at hp
  obtain ⟨r, hr, v, hv, rfl⟩ | rfl | rfl | rfl | rfl | rfl | rfl | rfl | rfl | rfl := hp
  · constructor <;> simp only [laneBytes_length] <;> omega
  · simp [List.length_flatMap, leBytes_length, List.map_const']
  · simp [List.length_flatMap, leBytes_length, List.map_const']
  · have : t.sysBytes.length = 192 := t.sys_length
    constructor <;> simp only [this] <;> omega
  · rw [padTo_length _ _ (by
      rw [flatMap_length _ _ 24 (fun x => by simp [splitBytes, leBytes_length])]
      have := pk _ t.placed 32
      omega)]
    exact ⟨by decide, by simp only []; decide⟩
  · simp [List.length_flatMap, leBytes_length, List.map_const']
  · simp [leBytes_length]
  · rw [padTo_length _ _ (by
      rw [flatMap_length _ _ 16 (fun x => by simp [MStage.bytes, leBytes_length])]
      have := pk _ t.staged 4
      omega)]
    exact ⟨by decide, by simp only []; decide⟩
  · rw [padTo_length _ _ (by
      rw [flatMap_length _ _ 8 (fun x => by simp [leBytes_length])]
      have := pk _ t.placed 32
      omega)]
    exact ⟨by decide, by simp only []; decide⟩
  · simp

theorem Str.control_length (t : Str) : t.control.length = 8192 := by
  refine padTo_length _ _ ?_
  have h : (((t.placed.flatMap (·.2.stack)).take 31).flatMap StackEnt.bytes).length ≤ 744 := by
    rw [flatMap_length _ _ 24 (fun x => by simp [StackEnt.bytes, leBytes_length])]
    have := List.length_take_le 31 (t.placed.flatMap (·.2.stack))
    omega
  simp only [List.length_append, padTo_length _ _ h]
  rw [flatMap_length _ _ 56 (fun l => by simp [Lane.trapBytes, leBytes_length]),
    flatMap_length _ _ 128 (fun l => by simp [Region.bytes, leBytes_length]), List.length_range]
  decide

/-- The parts of a pool record lie within its 43008 bytes. -/
theorem Str.record_ok (t : Str) : ∀ p ∈ t.record, 0 < p.2.length ∧ p.1 + p.2.length ≤ 43008 := by
  intro p hp
  simp only [Str.record, List.mem_append, List.mem_cons, List.not_mem_nil, or_false] at hp
  obtain hp | rfl := hp
  · have := t.parts_ok p hp
    omega
  · simp only [t.control_length]
    omega

theorem State.MemSide.imageBlock {s t : State} (h : s.MemSide t) (c : CoreId) (x : BitVec 12) : t.imageBlock c x = s.imageBlock c x := by
  have e : t.ctab = s.ctab ∧ t.imap = s.imap := by rw [h]; exact ⟨rfl, rfl⟩
  simp only [State.imageBlock, State.ctxEntry, State.imageAt, e]

/-- The area of a string with a pool record and no image, which it keeps from then on (R147, R411). -/
theorem spillArea_pool (s : State) (c : CoreId) (k : SlotId) (n : Nat) (i : Fin 64) (hi : s.imageBlock c (s.strAt c k).ctx = none) (hp : (s.strAt c k).pool = some n)
    (hl : (s.strAt c k).launch = some i) : s.spillArea c k =
      (s.modStr c k (fun t => { t with poolKept := true }), some (whoOf c s.launches[i].ptroot .user, s.launches[i].pool + poolRec * n)) := by
  simp only [State.spillArea, hi, State.poolFor, hp, hl]

/-- A string with a pool record in host memory is spilled. -/
theorem Calm.spillStr {s : State} (h : Calm s) (c : CoreId) (k : SlotId) (woken : Bool) (n : Nat) (i : Fin 64) (hp : (s.strAt c k).pool = some n) (hl : (s.strAt c k).launch = some i)
    (hw : (whoOf c s.launches[i].ptroot .user).untranslated = true) (h0 : hostBase ≤ s.launches[i].pool) (h1 : s.launches[i].pool + 43008 * n + 43008 ≤ hostBase + 2 ^ 36) :
    ∃ u, s.spillStr c k woken = some u ∧ u.strAt c k = Str.empty := by
  have hq : s.poolFor c k = (s, some n) := by simp only [State.poolFor, hp]
  obtain ⟨_, _, h4, h5⟩ := h.putParts (whoOf c s.launches[i].ptroot .user) (s.launches[i].pool + poolRec * n) (s.strAt c k).record hw (by omega) (fun p hp => by
    obtain ⟨a, b⟩ := (s.strAt c k).record_ok p hp
    simp only [poolRec]
    omega)
  simp only [State.spillStr, hq, hl, h4, h5, Bool.false_eq_true, if_false, ne_eq, not_true_eq_false]
  refine ⟨_, rfl, ?_⟩
  simp [State.strAt, State.modStr, State.modCore]

-- ## Choosing a register and a string

theorem foldl_min_mem (l : List Nat) (a : Nat) : l.foldl min a ∈ a :: l := by
  induction l generalizing a with
  | nil => simp
  | cons x xs ih =>
    have := ih (min a x)
    simp only [List.foldl_cons, List.mem_cons] at this ⊢
    obtain h | h := this
    · rw [h]
      have : min a x = a ∨ min a x = x := by omega
      exact this.imp id .inl
    · exact .inr (.inr h)

/-- A string with a register that may be spilled has a victim, which holds a value. -/
theorem Str.victimReg_some (t : Str) (r : Nat) (hr : r < 256)
    (h : ((t.vreg.toArray.getD r none).isSome && !t.vspill.getLsbD r && !t.awaited r) = true) :
    ∃ k v, k < 256 ∧ t.victimReg = some k ∧ t.vreg.toArray.getD k none = some v := by
  let p (r : Nat) : Bool := (t.vreg.toArray.getD r none).isSome && !t.vspill.getLsbD r && !t.awaited r
  let cs := (List.range 256).filter p
  let f (r : Nat) : Nat := t.vstamp.toArray.getD r 0
  let m := (cs.map f).foldl min ((cs.map f).headD 0)
  have hc : cs ≠ [] := List.ne_nil_of_mem (List.mem_filter.mpr ⟨List.mem_range.mpr hr, h⟩)
  have hm : m ∈ cs.map f := by
    have := foldl_min_mem (cs.map f) ((cs.map f).headD 0)
    match e : cs, hc with
    | c :: cs', _ =>
      simp only [m, e, List.map_cons, List.headD_cons] at this ⊢
      rw [List.mem_cons] at this
      obtain h | h := this
      · rw [h]; exact List.mem_cons_self ..
      · exact h
  obtain ⟨c, hc', e⟩ := List.mem_map.mp hm
  match hf : cs.find? (fun r => f r == m) with
  | none => exact absurd (List.find?_eq_none.mp hf c hc') (by simp [e])
  | some k =>
    have hm := List.mem_filter.mp (List.mem_of_find?_eq_some hf)
    have hk := hm.2
    simp only [p, Bool.and_eq_true] at hk
    obtain ⟨v, hv⟩ := Option.isSome_iff_exists.mp hk.1.1
    exact ⟨k, v, List.mem_range.mp hm.1, hf, hv⟩

/-- A sorted list meets a condition that all of its elements meet. -/
theorem findSome_sorted {α β : Type} (l : List α) (le : α → α → Bool) (f : α → Option β) (hne : l ≠ []) (h : ∀ a ∈ l, (f a).isSome = true) :
    ∃ a ∈ l, (l.mergeSort le).findSome? f = f a := by
  have hp := List.mergeSort_perm l le
  generalize l.mergeSort le = m at hp
  match m with
  | [] => exact absurd (List.Perm.eq_nil hp.symm) hne
  | a :: as =>
    have ha : a ∈ l := hp.subset (List.mem_cons_self ..)
    refine ⟨a, ha, ?_⟩
    obtain ⟨b, hb⟩ := Option.isSome_iff_exists.mp (h a ha)
    simp [hb]

theorem find_sorted {α : Type} (l : List α) (le : α → α → Bool) (f : α → Bool) (hne : l ≠ []) (h : ∀ a ∈ l, f a = true) : ∃ a ∈ l, (l.mergeSort le).find? f = some a := by
  have hp := List.mergeSort_perm l le
  generalize l.mergeSort le = m at hp
  match m with
  | [] => exact absurd (List.Perm.eq_nil hp.symm) hne
  | a :: as =>
    have ha : a ∈ l := hp.subset (List.mem_cons_self ..)
    exact ⟨a, ha, by simp [h a ha]⟩

end Sys2Proof.Machine
end

