-- ==== Sys2Proof/Laws/Images.lean ====
section
/-!
SUPPORT. What reads and writes of extents in host memory, or where there is no memory, give, and those of a context's image there (spec/15 R413 to R418), while nothing is in their way.
-/
namespace Sys2Proof.Machine
open Sys2Proof

-- ## A read of host memory leaves memory and the launches as they were

/-- What such a read leaves alone beside what no access changes. -/
def State.readKeeps (s : State) := (s.mem, s.launches)

theorem State.l2Set_keeps (s : State) (a : AgentId) (l : Nat) (x : L2State) : (s.l2Set a l x).readKeeps = s.readKeeps := rfl
theorem State.dirSet_keeps (s : State) (l : Nat) (d : DState) : (s.dirSet l d).readKeeps = s.readKeeps := rfl
theorem State.dramReq_keeps (s : State) (l : Nat) : (s.dramReq l).readKeeps = s.readKeeps := by
  unfold State.dramReq; split <;> rfl
theorem State.llcRoom_keeps (s : State) (l : Nat) : (s.llcRoom l).readKeeps = s.readKeeps := by
  unfold State.llcRoom
  dsimp only
  repeat' split
  all_goals first | exact State.dramReq_keeps _ _ | rfl
theorem State.llcTouch_keeps (s : State) (l : Nat) (d : Bool) : (s.llcTouch l d).readKeeps = s.readKeeps := by
  have e := (State.llcRoom_keeps (s.dramReq l) l).trans (State.dramReq_keeps s l)
  unfold State.llcTouch
  simp only [State.readKeeps, Prod.mk.injEq] at e ⊢
  repeat' split
  all_goals first | exact e | exact ⟨rfl, rfl⟩
theorem State.evictL2_keeps (s : State) (e : L2Line) : (s.evictL2 e).readKeeps = s.readKeeps := by
  unfold State.evictL2
  dsimp only
  repeat' split
  all_goals first | exact (State.llcTouch_keeps _ _ _).trans rfl | rfl
theorem Calm.l2Room_keeps {s t : State} (h : Calm s) (a : AgentId) (l : Nat) (e : s.l2Room a l = some t) : t.readKeeps = s.readKeeps := by
  unfold State.l2Room at e
  simp only [h.partials, List.filter_nil, List.map_nil, List.append_nil] at e
  split at e
  · cases e; rfl
  · obtain ⟨v, -, rfl⟩ := Option.map_eq_some_iff.mp e
    split
    · exact State.evictL2_keeps _ _
    · simp only [State.foldFrom, h.ranges]
theorem Calm.serveRead_keeps {s : State} (h : Calm s) (l : Nat) (a : AgentId) (hl : homeOf l = none) : (s.serveRead l a).1.readKeeps = s.readKeeps := by
  have ha : Calm (s.allocLlc l) := h.touch l false
  have hm : (s.allocLlc l).readKeeps = s.readKeeps := s.llcTouch_keeps l false
  have hs : s.homeAsleep l = false := by simp [State.homeAsleep, h.asleep]
  unfold State.serveRead
  simp only [h.poisoned, hs, ha.lookup, Bool.false_eq_true, if_false, ← hm]
  generalize s.allocLlc l = q at ha ⊢
  simp only [bne_self_eq_false, Bool.false_eq_true, if_false, ha.asleep, List.contains_nil, ha.master]
  have room : q.dirRoom l = q := by unfold State.dirRoom; rw [hl]
  repeat' split
  all_goals simp only [State.dirPut, room, State.l2Set_keeps, State.dirSet_keeps, State.llcTouch_keeps]
theorem Calm.l2Fill_keeps {s : State} (h : Calm s) (a : AgentId) (l : Nat) (hl : homeOf l = none) : (s.l2Fill a l).1.readKeeps = s.readKeeps := by
  obtain ⟨t, ht, hc⟩ := h.l2Room a l
  have k := hc.serveRead l a hl
  unfold State.l2Fill
  split
  · rfl
  · rw [ht]
    simp only [State.homeRead, hc.agents, List.contains_nil, Bool.false_eq_true, if_false, hc.inTurn l a (fun s => s.serveRead l a) k]
    exact (hc.serveRead_keeps l a hl).trans (h.l2Room_keeps a l ht)

/-- The bytes read are those of memory. -/
theorem Calm.engLoad_keeps {s : State} (h : Calm s) (w : Who) (va n : Nat) (hw : w.untranslated = true) (h0 : hostBase ≤ va) (h1 : va + n ≤ hostBase + 2 ^ 36) (hn : 0 < n)
    (hl : va % 128 + n ≤ 128) : (s.engLoad w (BitVec.ofNat 64 va) n).1.readKeeps = s.readKeeps ∧ (s.engLoad w (BitVec.ofNat 64 va) n).2 = .ok (s.peekN va n) := by
  have hb : hostBase = 0x400000000000 := rfl
  have rem : lineRemote (va / 128) = false := by simp only [lineRemote, decide_eq_false_iff_not]; omega
  have home : homeOf (va / 128) = none := by simp only [homeOf]; rw [dif_neg (by omega)]
  have pl (t : State) (ht : Calm t) (l : Nat) : t.isPlane l = false := by simp [State.isPlane, ht.views]
  have kind : s.lineKind (hostAcc va n) (va / 128) = { llcOnly := false, noL1 := false, isSealed := false } := by simp [State.lineKind, hostAcc, pl s h]
  have rl : Calm (s.readLines w.core (hostAcc va n) false false [va / 128]).1 ∧ (s.readLines w.core (hostAcc va n) false false [va / 128]).2 = .ok () ∧
      (s.readLines w.core (hostAcc va n) false false [va / 128]).1.readKeeps = s.readKeeps := by
    have hr := h.l2Fill (va / 128) (agentOf (dieOf w.core)) home
    have hm := h.l2Fill_keeps (agentOf (dieOf w.core)) (va / 128) home
    have key : Calm (s.readLine w.core { llcOnly := false, noL1 := false, isSealed := false } false false (va / 128)).1 ∧
        (s.readLine w.core { llcOnly := false, noL1 := false, isSealed := false } false false (va / 128)).2 = .ok ∧
        (s.readLine w.core { llcOnly := false, noL1 := false, isSealed := false } false false (va / 128)).1.readKeeps = s.readKeeps := by
      simp only [State.readLine, rem, h.agents, h.pend, h.closing, List.contains_nil, List.any_nil, Bool.or_self, Bool.false_eq_true, if_false, Bool.false_and]
      simp only [hr.2, hr.1.poisoned, Bool.false_eq_true, if_false]
      exact ⟨hr.1, trivial, hm⟩
    simp only [State.readLines, kind, State.readAny, h.ranges, key.2.1]
    exact ⟨key.1, trivial, key.2.2⟩
  have vl (t : State) (ht : Calm t) := viewLocs_same t (engReader w.core (BitVec.ofNat 64 va)) true (hostAcc va n).locs (fun p _ => by simp [State.viewAt, ht.views])
  have lm (t u : State) : (t.insertLow u w.launch w.core (BitVec.ofNat 64 va) [va / 128]).readKeeps = t.readKeeps := by
    unfold State.insertLow; dsimp only; split <;> rfl
  unfold State.engLoad
  simp only [check_host s h w .load va n hw (.inl rfl) h0 h1 hn, hostAcc_lines va n hn hl]
  simp only [show (hostAcc va n).reg = none from rfl, show (hostAcc va n).remote = false from rfl, Bool.false_eq_true, if_false, rl.2.1]
  have low := rl.1.insertLow s w.launch w.core (BitVec.ofNat 64 va) [va / 128]
  simp only [vl _ low]
  refine ⟨(lm _ _).trans rl.2.2, ?_⟩
  have lm' (t u : State) : (t.insertLow u w.launch w.core (BitVec.ofNat 64 va) [va / 128]).mem = t.mem := congrArg Prod.fst (lm t u)
  have rl' : (s.readLines w.core (hostAcc va n) false false [va / 128]).1.mem = s.mem := congrArg Prod.fst rl.2.2
  simp only [State.peek, State.peekN, lm', rl']
  simp only [hostAcc, List.contains_nil, Bool.false_eq_true, if_false, List.map_map, Function.comp_def]

theorem peekN_append (s : State) (a n m : Nat) : s.peekN a n ++ s.peekN (a + n) m = s.peekN a (n + m) := by
  simp only [State.peekN, List.range_add, List.map_append, List.map_map, Function.comp_def, Nat.add_assoc]

theorem Calm.getAll_bytes {s : State} (h : Calm s) (w : Who) (va n : Nat) (hw : w.untranslated = true) (hn : 0 < n) (h0 : hostBase ≤ va) (h1 : va + n ≤ hostBase + 2 ^ 36) :
    (s.getAll w va n).1.readKeeps = s.readKeeps ∧ (s.getAll w va n).2.data.map (·.2) = s.peekN va n := by
  have go : ∀ (k i : Nat) (t : State) (x : Taken), Calm t → t.readKeeps = s.readKeeps → i + k = (va % 128 + n + 127) / 128 →
      let r := ((List.range' i k).map (fun i =>
        let a := if i = 0 then va else (va / 128 + i) * 128
        (a, min ((va / 128 + i + 1) * 128) (va + n) - a))).foldl (fun (r : State × Taken) g =>
          let q := r.1.sideLoad w false g.1 g.2
          match q.2 with
          | .ok bs => (q.1, { r.2 with data := r.2.data ++ (List.range bs.length).zipWith (fun i b => (0 + (g.1 - va) + i, b)) bs })
          | .err c => (q.1, r.2.fault c (r.1.failByte w false g.1 g.2))
          | .wait => (q.1, { r.2 with waits := true })) (t, x)
      let a := if i = 0 then va else (va / 128 + i) * 128
      r.1.readKeeps = s.readKeeps ∧ r.2.data.map (·.2) = x.data.map (·.2) ++ s.peekN a (va + n - a) := by
    intro k
    induction k with
    | zero =>
      intro i t x _ hm hi
      refine ⟨hm, ?_⟩
      have : va + n - (if i = 0 then va else (va / 128 + i) * 128) = 0 := by split <;> omega
      simp [this, State.peekN]
    | succ k ih =>
      intro i t x hc hm hi
      simp only [List.range'_succ, List.map_cons, List.foldl_cons]
      generalize ha : (if i = 0 then va else (va / 128 + i) * 128) = a
      generalize hb : min ((va / 128 + i + 1) * 128) (va + n) - a = m
      have hk : hostBase = 0x400000000000 := rfl
      have f : hostBase ≤ a ∧ a + m ≤ va + n ∧ 0 < m ∧ a % 128 + m ≤ 128 ∧ (a + m = (va / 128 + i + 1) * 128 ∨ (a + m = va + n ∧ k = 0)) := by split at ha <;> omega
      obtain ⟨e1, e2⟩ := hc.engLoad_keeps w a m hw f.1 (by omega) f.2.2.1 f.2.2.2.1
      have e3 := (hc.engLoad w a m hw f.1 (by omega) f.2.2.1 f.2.2.2.1).1
      have pk : t.peekN a m = s.peekN a m := by
        have hm : t.mem = s.mem := congrArg Prod.fst hm
        simp only [State.peekN, State.peek, hm]
      simp only [State.sideLoad, Bool.false_eq_true, if_false, e2]
      have := ih (i + 1) _ { x with data := x.data ++ (List.range (t.peekN a m).length).zipWith (fun i b => (0 + (a - va) + i, b)) (t.peekN a m) } e3 (e1.trans hm) (by omega)
      simp only [State.sideLoad, Bool.false_eq_true, if_false, Nat.add_eq_zero_iff, Nat.one_ne_zero, and_false] at this
      refine ⟨this.1, this.2.trans ?_⟩
      rw [List.map_append, List.append_assoc]
      refine congrArg (_ ++ ·) ?_
      have z : ((List.range (t.peekN a m).length).zipWith (fun i b => (0 + (a - va) + i, b)) (t.peekN a m)).map (·.2) = s.peekN a m := by
        rw [← pk, List.map_zipWith]
        apply List.ext_getElem
        · simp
        · intro j _ _; simp [State.peekN]
      rw [z]
      obtain f | f := f.2.2.2.2
      · rw [show (va / 128 + (i + 1)) * 128 = a + m by omega, peekN_append]
        congr 1
        omega
      · have : va + n - (va / 128 + (i + 1)) * 128 = 0 := by omega
        rw [this, show va + n - a = m by omega]
        simp [State.peekN]
  have := go ((va % 128 + n + 127) / 128) 0 s Taken.none h rfl (by omega)
  simp only [if_true, Nat.add_sub_cancel_left, ← List.range_eq_range'] at this
  exact ⟨this.1, this.2.trans (by simp [Taken.none])⟩
-- ## Extents in no memory

theorem countP_part (n off m : Nat) : (List.range n).countP (fun x => decide (off ≤ x) && decide (x < off + m)) = min (off + m) n - min off n := by
  induction n with
  | zero => simp
  | succ n ih =>
    rw [List.range_succ, List.countP_append, ih, List.countP_singleton]
    split
    · rename_i h
      simp only [Bool.and_eq_true, decide_eq_true_eq] at h
      omega
    · rename_i h
      simp only [Bool.and_eq_true, decide_eq_true_eq] at h
      omega

/-- The bytes of a part of an extent are as many as the part is long. -/
theorem part_length (bs : List Byte) (off m : Nat) (h : off + m ≤ bs.length) :
    ((((List.range bs.length).zip bs).filter (fun x => decide (off ≤ x.1) && decide (x.1 < off + m))).map (·.2)).length = m := by
  have z : (((List.range bs.length).zip bs).map (·.1)) = List.range bs.length := List.map_fst_zip (by simp)
  have : ((List.range bs.length).zip bs).countP (fun x => decide (off ≤ x.1) && decide (x.1 < off + m)) = (List.range bs.length).countP (fun x => decide (off ≤ x) && decide (x < off + m)) := by
    have := List.countP_map (p := fun x => decide (off ≤ x) && decide (x < off + m)) (f := (·.1)) (l := (List.range bs.length).zip bs)
    rw [z] at this
    exact this.symm
  rw [List.length_map, ← List.countP_eq_length_filter, this, countP_part]
  omega

/-- An access between the LPDDR window and host memory fails. -/
theorem check_hole (s : State) (w : Who) (k : AccKind) (va n : Nat) (hw : w.untranslated = true) (h0 : 0x208000000000 ≤ va) (h1 : va + n ≤ hostBase) (hn : 0 < n) :
    s.check w k 1 (BitVec.ofNat 64 va) n = (s, .fail ordPhys 21) := by
  have hb : hostBase = 0x400000000000 := rfl
  have hv : (BitVec.ofNat 64 va).toNat = va := by simp only [BitVec.toNat_ofNat]; omega
  have ps : (List.range n).map (s.physAt w [] (BitVec.ofNat 64 va)) = List.replicate n Phys.unmapped := by
    rw [List.eq_replicate_iff]
    refine ⟨by simp, fun p hp => ?_⟩
    obtain ⟨i, hi, rfl⟩ := List.mem_map.mp hp
    have hi := List.mem_range.mp hi
    have e : (va + i) % 2 ^ 64 = va + i := by omega
    simp only [State.physAt, hw, if_true, hv, e, State.decodePa]
    rw [if_neg (by omega), if_neg (by omega), if_neg (by omega), if_neg (by simp only [lpddrBase]; omega), if_neg (by omega), if_pos (by omega)]
  have bad : ¬(decide (2 ^ 48 ≤ va) || decide (2 ^ 48 < va + n)) = true := by simp; omega
  have pc : s.physCheck w k (List.replicate n Phys.unmapped) = some (ordPhys, 21) := by
    simp only [State.physCheck]
    simp [State.nowhere]
    omega
  unfold State.check
  simp only [hw, if_true, hv, Nat.mod_one, bne_self_eq_false, ps, Bool.false_eq_true, if_false, pc]
  rw [if_neg bad]

theorem putAll_hole (s : State) (w : Who) (va : Nat) (bs : List Byte) (hw : w.untranslated = true) (h0 : 0x208000000000 ≤ va) (h1 : va + bs.length ≤ hostBase) (hn : 0 < bs.length) :
    (s.putAll w va bs).1 = s ∧ (s.putAll w va bs).2.waits = false ∧ (s.putAll w va bs).2.err ≠ 0 := by
  have hb : hostBase = 0x400000000000 := rfl
  have go : ∀ (gs : List (Nat × Nat)) (t : Taken), (∀ g ∈ gs, va ≤ g.1 ∧ g.1 + g.2 ≤ va + bs.length ∧ 0 < g.2) → t.data = (List.range bs.length).zip bs → t.waits = false →
      let r := gs.foldl (fun (r : State × Taken) g =>
        let off := 0 + (g.1 - va)
        let bs := (r.2.data.filter (fun x => decide (off ≤ x.1) && decide (x.1 < off + g.2))).map (·.2)
        if bs.length = g.2 then
          let q := r.1.sideStore w false g.1 bs
          match q.2 with
          | .ok _ => (q.1, r.2)
          | .err c => (q.1, r.2.fault c g.1)
          | .wait => (q.1, { r.2 with waits := true })
        else r) (s, t)
      r.1 = s ∧ r.2.waits = false ∧ (t.err ≠ 0 ∨ gs ≠ [] → r.2.err ≠ 0) := by
    intro gs
    induction gs with
    | nil => exact fun t _ _ w => ⟨rfl, w, fun h => h.elim id (fun h => absurd rfl h)⟩
    | cons g gs ih =>
      intro t hg ht w0
      obtain ⟨a, b, c⟩ := hg g (List.mem_cons_self ..)
      rw [List.foldl_cons]
      dsimp only
      have hl := part_length bs (0 + (g.1 - va)) g.2 (by omega)
      rw [← ht] at hl
      rw [if_pos hl]
      generalize ((t.data.filter (fun x => decide (0 + (g.1 - va) ≤ x.1) && decide (x.1 < 0 + (g.1 - va) + g.2))).map (·.2)) = cs at hl
      have e : s.sideStore w false g.1 cs = (s, .err 21) := by
        simp only [State.sideStore, Bool.false_eq_true, if_false, State.engStore, check_hole s w .store g.1 cs.length hw (by omega) (by omega) (by omega)]
      rw [e]
      have f : (t.fault 21 g.1).waits = false ∧ (t.fault 21 g.1).data = t.data ∧ (t.fault 21 g.1).err ≠ 0 := by
        unfold Taken.fault
        split
        · exact ⟨w0, rfl, by simp⟩
        · exact ⟨w0, rfl, ‹_›⟩
      have := ih (t.fault 21 g.1) (fun x hx => hg x (List.mem_cons_of_mem _ hx)) (f.2.1.trans ht) f.1
      exact ⟨this.1, this.2.1, fun _ => this.2.2 (.inl f.2.2)⟩
  have sg : ∀ g ∈ segs va bs.length, va ≤ g.1 ∧ g.1 + g.2 ≤ va + bs.length ∧ 0 < g.2 := by
    intro g hg
    simp only [segs, List.mem_map, List.mem_range] at hg
    obtain ⟨i, hi, rfl⟩ := hg
    dsimp only
    split <;> omega
  have ne : segs va bs.length ≠ [] := by
    intro e
    have := congrArg List.length e
    simp only [segs, List.length_map, List.length_range, List.length_nil] at this
    omega
  have := go (segs va bs.length) { Taken.none with data := (List.range bs.length).zip bs } sg rfl rfl
  exact ⟨this.1, this.2.1, this.2.2 (.inr ne)⟩

/-- Parts of which the first is no empty one cannot be written there. -/
theorem putParts_hole (s : State) (w : Who) (base : Nat) (p : Nat × List Byte) (ps : List (Nat × List Byte)) (hw : w.untranslated = true) (h0 : 0x208000000000 ≤ base) (hn : 0 < p.2.length)
    (h1 : ∀ q ∈ p :: ps, base + q.1 + q.2.length ≤ hostBase ∧ (q.2 = [] → q.1 % 128 = 0) ∧ base % 128 = 0) :
    (s.putParts w base (p :: ps)).1 = s ∧ (s.putParts w base (p :: ps)).2.waits = false ∧ (s.putParts w base (p :: ps)).2.err ≠ 0 := by
  have one (q : Nat × List Byte) (hq : q ∈ p :: ps) : (s.putAll w (base + q.1) q.2).1 = s ∧ (s.putAll w (base + q.1) q.2).2.waits = false ∧ (q.2 ≠ [] → (s.putAll w (base + q.1) q.2).2.err ≠ 0) := by
    obtain ⟨a, b, c⟩ := h1 q hq
    by_cases e : q.2 = []
    · have z : segs (base + q.1) 0 = [] := by
        have := b e
        unfold segs
        rw [show ((base + q.1) % 128 + 0 + 127) / 128 = 0 by omega]
        rfl
      simp only [State.putAll, e, List.length_nil, State.land, z, List.foldl_nil]
      exact ⟨trivial, rfl, fun h => absurd rfl h⟩
    · have := putAll_hole s w (base + q.1) q.2 hw (by omega) a (List.length_pos_iff.mpr e)
      exact ⟨this.1, this.2.1, fun _ => this.2.2⟩
  have go : ∀ (qs : List (Nat × List Byte)) (t : Taken), (∀ q ∈ qs, q ∈ p :: ps) → t.waits = false → t.err ≠ 0 →
      let f := qs.foldl (fun (r : State × Taken) p =>
        let q := r.1.putAll w (base + p.1) p.2
        (q.1, { r.2 with err := if r.2.err = 0 then q.2.err else r.2.err, addr := if r.2.err = 0 then q.2.addr else r.2.addr, waits := r.2.waits || q.2.waits })) (s, t)
      f.1 = s ∧ f.2.waits = false ∧ f.2.err ≠ 0 := by
    intro qs
    induction qs with
    | nil => exact fun t _ a b => ⟨rfl, a, b⟩
    | cons q qs ih =>
      intro t hq a b
      obtain ⟨o1, o2, -⟩ := one q (hq q (List.mem_cons_self ..))
      rw [List.foldl_cons]
      dsimp only
      rw [o1, o2, if_neg b]
      exact ih _ (fun x hx => hq x (List.mem_cons_of_mem _ hx)) (by simp [a]) b
  obtain ⟨o1, o2, o3⟩ := one p (List.mem_cons_self ..)
  unfold State.putParts
  rw [List.foldl_cons]
  dsimp only
  rw [o1]
  exact go ps _ (fun q hq => List.mem_cons_of_mem _ hq) (by simp [o2, Taken.none]) (o3 (List.length_pos_iff.mp hn))
-- ## Images

/-- A state that reads of host memory have led to: calm, its memory and launches, and all that no access changes but the numbers given out, as they were. -/
structure ReadFrom (s t : State) : Prop where
  calm : Calm t
  keeps : t.readKeeps = s.readKeeps
  cores : t.cores = s.cores
  um : t.um = s.um
  ctab : t.ctab = s.ctab
  ctxroot : t.ctxroot = s.ctxroot
  images : t.images = s.images
  imap : t.imap = s.imap
  bazaar : t.bazaar = s.bazaar
  regions : t.regions = s.regions

theorem ReadFrom.refl {s : State} (h : Calm s) : ReadFrom s s := ⟨h, rfl, rfl, rfl, rfl, rfl, rfl, rfl, rfl, rfl⟩
theorem ReadFrom.trans {s t u : State} (a : ReadFrom s t) (b : ReadFrom t u) : ReadFrom s u :=
  ⟨b.calm, b.keeps.trans a.keeps, b.cores.trans a.cores, b.um.trans a.um, b.ctab.trans a.ctab, b.ctxroot.trans a.ctxroot, b.images.trans a.images, b.imap.trans a.imap, b.bazaar.trans a.bazaar, b.regions.trans a.regions⟩
theorem ReadFrom.mem {s t : State} (h : ReadFrom s t) : t.mem = s.mem := congrArg Prod.fst h.keeps
theorem ReadFrom.launches {s t : State} (h : ReadFrom s t) : t.launches = s.launches := congrArg Prod.snd h.keeps
theorem ReadFrom.of {s t : State} (c : Calm t) (k : t.readKeeps = s.readKeeps) (m : s.MemSide t) : ReadFrom s t :=
  ⟨c, k, by rw [m], by rw [m], by rw [m], by rw [m], by rw [m], by rw [m], by rw [m], by rw [m]⟩
theorem ReadFrom.uids {s t : State} (h : ReadFrom s t) (n : Nat) : ReadFrom s { t with uids := n } :=
  ⟨h.calm.of rfl h.calm.leases (fun _ h => h), h.keeps, h.cores, h.um, h.ctab, h.ctxroot, h.images, h.imap, h.bazaar, h.regions⟩

/-- Bytes of an extent are within host memory. -/
def inHost (va n : Nat) : Prop := hostBase ≤ va ∧ va + n ≤ hostBase + 2 ^ 36 ∧ (0 < n ∨ va % 128 = 0)

theorem Calm.getHost {s : State} (h : Calm s) (w : Who) (va n : Nat) (hw : w.untranslated = true) (hi : inHost va n) :
    ReadFrom s (s.getAll w va n).1 ∧ (s.getAll w va n).2.waits = false ∧ (s.getAll w va n).2.err = 0 ∧ (s.getAll w va n).2.data.map (·.2) = s.peekN va n := by
  obtain ⟨h0, h1, h2⟩ := hi
  by_cases hn : 0 < n
  · obtain ⟨a, b, c, d⟩ := h.getAll w va n hw hn h0 h1
    obtain ⟨e, f⟩ := h.getAll_bytes w va n hw hn h0 h1
    exact ⟨.of a e b, c, d, f⟩
  · obtain rfl : n = 0 := by omega
    have z : segs va 0 = [] := by
      unfold segs
      rw [show (va % 128 + 0 + 127) / 128 = 0 by omega]
      rfl
    simp only [State.getAll, State.take, z, List.foldl_nil]
    exact ⟨.refl h, rfl, rfl, rfl⟩

/-- What a step of reading an image gives, from a state: the same faults and waits, and the bytes of memory. -/
structure ImageRead (s : State) (r q : State × Taken) : Prop where
  state : ReadFrom s q.1
  err : q.2.err = r.2.err
  waits : q.2.waits = r.2.waits

theorem getImage_host (s : State) (r : State × Taken) (h : ReadFrom s r.1) (at_ n : Nat) (hi : inHost at_ n) :
    ImageRead s r (getImage r at_ n).1 ∧ (getImage r at_ n).2 = s.peekN at_ n := by
  obtain ⟨a, b, c, d⟩ := h.calm.getHost (imageWho 0) at_ n rfl hi
  refine ⟨⟨h.trans a, ?_, ?_⟩, ?_⟩
  · simp only [getImage, c]
    split <;> simp_all
  · simp only [getImage, b, Bool.or_false]
  · exact d.trans (by simp only [State.peekN, State.peek, h.mem])

/-- The slots of a block that are all FREE hold no string. -/
theorem readStrs_free (s : State) (r : State × Taken) (hr : ReadFrom s r.1) (b : Nat) (h : Share) (hb : hostBase ≤ b ∧ b + coreBlock ≤ hostBase + 2 ^ 36)
    (hf : ∀ i < 16, cellGet s.mem (b + slotArea * i + 0x8295) = 0) : ImageRead s r (readStrs r b h).1 ∧ (readStrs r b h).2 = [] := by
  have go : ∀ (is : List Nat) (r : State × Taken), (∀ i ∈ is, i < 16) → ReadFrom s r.1 →
      let f := is.foldl (fun (a : (State × Taken) × List (Nat × Str)) i =>
        let q := getImage a.1 (b + slotArea * i + 0x8295) 1
        let old := (((h.strs ++ h.spilled).find? (fun x => x.1 == i)).map (·.2)).getD { Str.empty with uid := q.1.1.uids + i }
        if leNat q.2 = 0 then (q.1, a.2)
        else let x := readSlot q.1 b i old; (x.1, a.2 ++ [(i, x.2)])) (r, [])
      ImageRead s r f.1 ∧ f.2 = [] := by
    intro is
    induction is with
    | nil => exact fun r _ h => ⟨⟨h, rfl, rfl⟩, rfl⟩
    | cons i is ih =>
      intro r hi hr
      have i16 := hi i (List.mem_cons_self ..)
      have hk : coreBlock = 0x3B9000 ∧ slotArea * i = 0x8800 * i := ⟨rfl, rfl⟩
      obtain ⟨g, e⟩ := getImage_host s r hr (b + slotArea * i + 0x8295) 1 ⟨by omega, by omega, .inl (by decide)⟩
      have z : leNat (getImage r (b + slotArea * i + 0x8295) 1).2 = 0 := by
        rw [e]
        simp only [State.peekN, State.peek, List.range_one, List.map_cons, List.map_nil, Nat.add_zero, hf i i16]
        rfl
      rw [List.foldl_cons]
      dsimp only
      rw [if_pos z]
      obtain ⟨k, l⟩ := ih _ (fun x hx => hi x (List.mem_cons_of_mem _ hx)) g.state
      exact ⟨⟨k.state, k.err.trans g.err, k.waits.trans g.waits⟩, l⟩
  exact go (List.range 16) r (fun i hi => List.mem_range.mp hi) hr

/-- The record of a core block. -/
def recordAt (s : State) (b : Nat) : List Byte := s.peekN (b + coreRecord) 536
/-- The serai entries of a core block that counts n. -/
def entriesAt (s : State) (b : Nat) (ctx : BitVec 12) (n : Nat) : List SEnt := ((List.range n).map (fun i => SEnt.ofBytes ctx (s.peekN (b + seraiSlot + 128 * i) 128))).reverse

theorem readEntries_host (s : State) (r : State × Taken) (hr : ReadFrom s r.1) (b : Nat) (ctx : BitVec 12) (n : Nat) (hb : hostBase ≤ b ∧ b + coreBlock ≤ hostBase + 2 ^ 36) (hn : n ≤ 512) :
    ImageRead s r (readEntries r b ctx n).1 ∧ (readEntries r b ctx n).2 = entriesAt s b ctx n := by
  have go : ∀ (is : List Nat) (a : (State × Taken) × List SEnt), (∀ i ∈ is, i < 512) → ReadFrom s a.1.1 →
      let f := is.foldl (fun (a : (State × Taken) × List SEnt) i =>
        let q := getImage a.1 (b + seraiSlot + 128 * i) 128
        (q.1, SEnt.ofBytes ctx q.2 :: a.2)) a
      ImageRead s a.1 f.1 ∧ f.2 = (is.map (fun i => SEnt.ofBytes ctx (s.peekN (b + seraiSlot + 128 * i) 128))).reverse ++ a.2 := by
    intro is
    induction is with
    | nil => exact fun a _ h => ⟨⟨h, rfl, rfl⟩, rfl⟩
    | cons i is ih =>
      intro a hi ha
      have i512 := hi i (List.mem_cons_self ..)
      have hk : coreBlock = 0x3B9000 ∧ seraiSlot = 0x0A9000 := ⟨rfl, rfl⟩
      obtain ⟨g, e⟩ := getImage_host s a.1 ha (b + seraiSlot + 128 * i) 128 ⟨by omega, by omega, .inl (by decide)⟩
      rw [List.foldl_cons]
      obtain ⟨k, l⟩ := ih ((getImage a.1 (b + seraiSlot + 128 * i) 128).1, SEnt.ofBytes ctx (getImage a.1 (b + seraiSlot + 128 * i) 128).2 :: a.2) (fun x hx => hi x (List.mem_cons_of_mem _ hx)) g.state
      refine ⟨⟨k.state, k.err.trans g.err, k.waits.trans g.waits⟩, l.trans ?_⟩
      rw [e, List.map_cons, List.reverse_cons, List.append_assoc]
      rfl
  obtain ⟨a, e⟩ := go (List.range n) (r, []) (fun i hi => by have := List.mem_range.mp hi; omega) hr
  exact ⟨a, e.trans (List.append_nil _)⟩

/-- A block without strings, granules and chains holds its serai entries. -/
theorem readBlock_plain (s t : State) (hs : ReadFrom s t) (b : Nat) (ctx : BitVec 12) (h : Share) (hb : hostBase ≤ b ∧ b + coreBlock ≤ hostBase + 2 ^ 36 ∧ b % 128 = 0)
    (hf : ∀ i < 16, cellGet s.mem (b + slotArea * i + 0x8295) = 0) (hn : numAt (recordAt s b) 0 8 = 0) (hc : ∀ i < 8, numAt (bytesAt (recordAt s b) (16 + 64 * i) 64) 16 8 % 2 = 0) :
    let q := t.readBlock b ctx h
    ReadFrom s q.1 ∧ q.2.1.err = 0 ∧ q.2.1.waits = false ∧
      q.2.2 = { strs := [], spilled := h.spilled.filter (fun x => decide (16 ≤ x.1)), part := none, scr := [], scrPz := h.scrPz, serai := entriesAt s b ctx (min 512 (numAt (recordAt s b) 528 8)), chains := [] } := by
  have hk : coreBlock = 0x3B9000 ∧ coreRecord = 0x0A8000 ∧ scratchSlot = 0x0B9000 := ⟨rfl, rfl, rfl⟩
  obtain ⟨g1, e1⟩ := getImage_host s (t, Taken.none) hs (b + coreRecord) 536 ⟨by omega, by omega, .inl (by decide)⟩
  rw [show s.peekN (b + coreRecord) 536 = recordAt s b from rfl] at e1
  obtain ⟨g2, e2⟩ := readStrs_free s _ g1.state b h ⟨hb.1, hb.2.1⟩ hf
  obtain ⟨g3, e3⟩ := readEntries_host s _ g2.state b ctx (min 512 (numAt (recordAt s b) 528 8)) ⟨hb.1, hb.2.1⟩ (Nat.min_le_left _ _)
  obtain ⟨g4, e4⟩ := getImage_host s _ g3.state (b + scratchSlot) (min 16 0 * 0x30000) ⟨by omega, by omega, .inr (by omega)⟩
  have cs : (List.range 8).filterMap (fun i => Chain.ofBytes (bytesAt (recordAt s b) (16 + 64 * i) 64) [] h.chains[i]? (t.uids + 16 + i)) = [] := by
    rw [List.filterMap_eq_nil_iff]
    intro i hi
    simp only [Chain.ofBytes, hc i (List.mem_range.mp hi), if_true]
  unfold State.readBlock
  dsimp only
  rw [e1, e2, hn, cs, e3, e4]
  refine ⟨g4.state.uids _, ?_, ?_, rfl⟩
  · rw [g4.err, g3.err, g2.err, g1.err]; rfl
  · rw [g4.waits, g3.waits, g2.waits, g1.waits]; rfl

-- ## A cluster and the launches of an image

/-- A share that holds nothing but serai entries. -/
def serais (es : List SEnt) : Share := { strs := [], spilled := [], part := none, scr := [], scrPz := [], serai := es, chains := [] }

/-- What a core's block adds to a cluster once it is read. -/
def clusterNext (im : Image) (j k : Nat) (root : W64) (a : Taken × List SavedCore) (q : State × Taken × Share) : State × Taken × List SavedCore :=
  let f := q.1.findBars ((q.2.2.relaunch (slotIn im.slots)).reroot root)
  let err := if a.1.err ≠ 0 then a.1.err else if q.2.1.err ≠ 0 then q.2.1.err else f.2.1.err
  (f.1, { a.1 with err := err, waits := a.1.waits || q.2.1.waits || f.2.1.waits }, if f.2.2.isEmpty then a.2 else a.2 ++ [{ cluster := j, cidx := k, share := f.2.2 }])

/-- One core of a cluster read. -/
def clusterStep (s : State) (e : Fin 64) (im : Image) (j : Nat) (a : State × Taken × List SavedCore) (k : Nat) : State × Taken × List SavedCore :=
  clusterNext im j k s.ctxroot a.2
    (a.1.readBlock (blockAt (s.imageAt e) j k) im.ctx (((im.cores.find? (fun x => x.cluster == j && x.cidx == k)).map (·.share)).getD (serais [])))

/-- What core k of a cluster then adds. -/
def addsOne (im : Image) (j : Nat) (es : List SEnt) (k : Nat) : List SavedCore :=
  if es.isEmpty then [] else [{ cluster := j, cidx := k, share := serais (es.map (SEnt.relaunch (slotIn im.slots))) }]

/-- A core block that has serai entries and nothing else: its slots are FREE, and its record has no granules and no chains. -/
structure PlainBlock (s : State) (b : Nat) (ctx : BitVec 12) (es : List SEnt) : Prop where
  host : hostBase ≤ b ∧ b + coreBlock ≤ hostBase + 2 ^ 36 ∧ b % 128 = 0
  free : ∀ i < 16, cellGet s.mem (b + slotArea * i + 0x8295) = 0
  grans : numAt (recordAt s b) 0 8 = 0
  chains : ∀ i < 8, numAt (bytesAt (recordAt s b) (16 + 64 * i) 64) 16 8 % 2 = 0
  entries : entriesAt s b ctx (min 512 (numAt (recordAt s b) 528 8)) = es

theorem PlainBlock.read {s : State} {b : Nat} {ctx : BitVec 12} {es : List SEnt} (p : PlainBlock s b ctx es) (t : State) (ht : ReadFrom s t) :
    ReadFrom s (t.readBlock b ctx (serais [])).1 ∧ (t.readBlock b ctx (serais [])).2.1.err = 0 ∧ (t.readBlock b ctx (serais [])).2.1.waits = false ∧ (t.readBlock b ctx (serais [])).2.2 = serais es := by
  obtain ⟨r1, r2, r3, r4⟩ := readBlock_plain s t ht b ctx (serais []) p.host p.free p.grans p.chains
  refine ⟨r1, r2, r3, r4.trans ?_⟩
  rw [p.entries]
  rfl

theorem clusterNext_plain (s : State) (im : Image) (j k : Nat) (root : W64) (es : List SEnt) (a : Taken × List SavedCore) (q : State × Taken × Share)
    (h0 : a.1.err = 0) (h1 : a.1.waits = false) (r1 : ReadFrom s q.1) (r2 : q.2.1.err = 0) (r3 : q.2.1.waits = false) (r4 : q.2.2 = serais es) :
    ReadFrom s (clusterNext im j k root a q).1 ∧ (clusterNext im j k root a q).2.1.err = 0 ∧ (clusterNext im j k root a q).2.1.waits = false ∧
      (clusterNext im j k root a q).2.2 = a.2 ++ addsOne im j es k := by
  have fb : q.1.findBars ((q.2.2.relaunch (slotIn im.slots)).reroot root) = (q.1, Taken.none, serais (es.map (SEnt.relaunch (slotIn im.slots)))) := by
    rw [r4]
    rfl
  unfold clusterNext
  rw [fb]
  refine ⟨r1, ?_, ?_, ?_⟩
  · simp [h0, r2, Taken.none]
  · simp [h1, r3, Taken.none]
  · have : (serais (es.map (SEnt.relaunch (slotIn im.slots)))).isEmpty = es.isEmpty := by
      simp [serais, Share.isEmpty]
    simp only [this, addsOne]
    split <;> simp

theorem clusterStep_plain (s : State) (e : Fin 64) (im : Image) (j : Nat) (hi : im.cores = []) (k b : Nat) (hk : blockAt (s.imageAt e) j k = b) (es : List SEnt) (p : PlainBlock s b im.ctx es)
    (a : State × Taken × List SavedCore) (ha : ReadFrom s a.1) (h0 : a.2.1.err = 0) (h1 : a.2.1.waits = false) :
    ReadFrom s (clusterStep s e im j a k).1 ∧ (clusterStep s e im j a k).2.1.err = 0 ∧ (clusterStep s e im j a k).2.1.waits = false ∧ (clusterStep s e im j a k).2.2 = a.2.2 ++ addsOne im j es k := by
  obtain ⟨r1, r2, r3, r4⟩ := p.read a.1 ha
  have ho : ((im.cores.find? (fun x => x.cluster == j && x.cidx == k)).map (·.share)).getD (serais []) = serais [] := by rw [hi]; rfl
  unfold clusterStep
  rw [ho, hk]
  exact clusterNext_plain s im j k s.ctxroot es a.2 _ h0 h1 r1 r2 r3 r4

/-- So a cluster of such blocks holds what they add. -/
theorem readCluster_plain (s : State) (e : Fin 64) (im : Image) (j : Nat) (h : Calm s) (hi : im.cores = []) (b : Nat → Nat) (es : Nat → List SEnt) (hk : ∀ k < 4, blockAt (s.imageAt e) j k = b k)
    (p : ∀ k < 4, PlainBlock s (b k) im.ctx (es k)) :
    ReadFrom s (s.readCluster e im j).1 ∧ (s.readCluster e im j).2.1.err = 0 ∧ (s.readCluster e im j).2.1.waits = false ∧ (s.readCluster e im j).2.2 = (List.range 4).flatMap (fun k => addsOne im j (es k) k) := by
  have go : ∀ (ks : List Nat) (a : State × Taken × List SavedCore), (∀ k ∈ ks, k < 4) → ReadFrom s a.1 → a.2.1.err = 0 → a.2.1.waits = false →
      ReadFrom s (ks.foldl (clusterStep s e im j) a).1 ∧ (ks.foldl (clusterStep s e im j) a).2.1.err = 0 ∧ (ks.foldl (clusterStep s e im j) a).2.1.waits = false ∧
        (ks.foldl (clusterStep s e im j) a).2.2 = a.2.2 ++ ks.flatMap (fun k => addsOne im j (es k) k) := by
    intro ks
    induction ks with
    | nil => exact fun a _ h e w => ⟨h, e, w, (List.append_nil _).symm⟩
    | cons k ks ih =>
      intro a hl ha h0 h1
      have k4 := hl k (List.mem_cons_self ..)
      obtain ⟨r1, r2, r3, r4⟩ := clusterStep_plain s e im j hi k (b k) (hk k k4) (es k) (p k k4) a ha h0 h1
      obtain ⟨i1, i2, i3, i4⟩ := ih _ (fun x hx => hl x (List.mem_cons_of_mem _ hx)) r1 r2 r3
      rw [List.foldl_cons, List.flatMap_cons]
      exact ⟨i1, i2, i3, by rw [i4, r4, List.append_assoc]⟩
  obtain ⟨a, b, c, d⟩ := go (List.range 4) (s, Taken.none, []) (fun k hk => List.mem_range.mp hk) (.refl h) rfl rfl
  have e : s.readCluster e im j = (List.range 4).foldl (clusterStep s e im j) (s, Taken.none, []) := rfl
  rw [e]
  exact ⟨a, b, c, d.trans (List.nil_append _)⟩

/-- The records of an image's header. -/
def launchRecs (s : State) (e : Fin 64) : List (List Byte) := (List.range 64).map (fun i => bytesAt (s.peekN (s.imageAt e + 0x400) 2048) (32 * i) 32)

/-- Launches that the device remembers, or none at all, are found without another access. -/
theorem readLaunches_known (s t : State) (hs : ReadFrom s t) (e : Fin 64) (im : Image) (hi : inHost (s.imageAt e + 0x400) 2048)
    (hr : ∀ bs ∈ launchRecs s e, numAt bs 0 4 / 64 % 2 = 0 ∨ (im.launches.find? (fun l => l.1 == ⟨numAt bs 0 4 % 64, by omega⟩ && l.2.record == le64 (bytesAt bs 16 8))).isSome = true) :
    let q := t.readLaunches e im
    ReadFrom s q.1 ∧ q.2.1.err = 0 ∧ q.2.1.waits = false ∧ q.2.2.length = (launchRecs s e).countP (fun bs => decide (numAt bs 0 4 / 64 % 2 ≠ 0)) ∧
      ∀ l ∈ q.2.2, ∃ bs ∈ launchRecs s e, l.1.val = numAt bs 0 4 % 64 := by
  have go : ∀ (xs : List (List Byte)) (root : W64) (a : State × Taken × List (Fin 64 × Launch)),
      (∀ bs ∈ xs, numAt bs 0 4 / 64 % 2 = 0 ∨ (im.launches.find? (fun l => l.1 == ⟨numAt bs 0 4 % 64, by omega⟩ && l.2.record == le64 (bytesAt bs 16 8))).isSome = true) →
      ReadFrom s a.1 → a.2.1.err = 0 → a.2.1.waits = false →
      let f := xs.foldl (fun (a : State × Taken × List (Fin 64 × Launch)) bs =>
        if numAt bs 0 4 / 64 % 2 = 0 then a
        else
          let q := a.1.readLaunch root im bs
          (q.1, { a.2.1 with err := if a.2.1.err = 0 then q.2.1.err else a.2.1.err, waits := a.2.1.waits || q.2.1.waits }, a.2.2 ++ [q.2.2])) a
      ReadFrom s f.1 ∧ f.2.1.err = 0 ∧ f.2.1.waits = false ∧ f.2.2.length = a.2.2.length + xs.countP (fun bs => decide (numAt bs 0 4 / 64 % 2 ≠ 0)) ∧
        ∀ l ∈ f.2.2, l ∈ a.2.2 ∨ ∃ bs ∈ xs, l.1.val = numAt bs 0 4 % 64 := by
    intro xs root
    induction xs with
    | nil => exact fun a _ h e w => ⟨h, e, w, rfl, fun l hl => .inl hl⟩
    | cons bs xs ih =>
      intro a hx ha he hw
      have ih := fun a => ih a (fun y hy => hx y (List.mem_cons_of_mem _ hy))
      rw [List.foldl_cons, List.countP_cons]
      dsimp only
      by_cases z : numAt bs 0 4 / 64 % 2 = 0
      · rw [if_pos z]
        obtain ⟨a1, a2, a3, a4, a5⟩ := ih a ha he hw
        refine ⟨a1, a2, a3, by simp [z, a4], fun l hl => (a5 l hl).imp_right (fun ⟨y, hy, e⟩ => ⟨y, List.mem_cons_of_mem _ hy, e⟩)⟩
      · rw [if_neg z]
        obtain ⟨l, hl⟩ := Option.isSome_iff_exists.mp ((hx bs (List.mem_cons_self ..)).resolve_left z)
        have q : (a.1.readLaunch root im bs).1 = a.1 ∧ (a.1.readLaunch root im bs).2.1 = Taken.none ∧ (a.1.readLaunch root im bs).2.2.1.val = numAt bs 0 4 % 64 := by
          simp only [State.readLaunch, hl]
          exact ⟨trivial, trivial, trivial⟩
        obtain ⟨a1, a2, a3, a4, a5⟩ := ih ((a.1.readLaunch root im bs).1, { a.2.1 with err := if a.2.1.err = 0 then (a.1.readLaunch root im bs).2.1.err else a.2.1.err, waits := a.2.1.waits || (a.1.readLaunch root im bs).2.1.waits },
          a.2.2 ++ [(a.1.readLaunch root im bs).2.2]) (by rw [q.1]; exact ha) (by rw [q.2.1]; simp [he, Taken.none]) (by rw [q.2.1]; simp [hw, Taken.none])
        refine ⟨a1, a2, a3, a4.trans ?_, fun l hl => ?_⟩
        · simp [z]; omega
        · obtain h | ⟨y, hy, e⟩ := a5 l hl
          · obtain h | h := List.mem_append.mp h
            · exact .inl h
            · rw [List.mem_singleton.mp h]
              exact .inr ⟨bs, List.mem_cons_self .., q.2.2⟩
          · exact .inr ⟨y, List.mem_cons_of_mem _ hy, e⟩
  have ie : t.imageAt e = s.imageAt e := by simp only [State.imageAt, hs.ctab]
  obtain ⟨g, b⟩ := getImage_host s (t, Taken.none) hs (s.imageAt e + 0x400) 2048 hi
  unfold State.readLaunches
  dsimp only
  rw [ie, b]
  obtain ⟨a1, a2, a3, a4, a5⟩ := go (launchRecs s e) (t.ctxroot &&& 0xFFF0FFFFFFFFF001) ((getImage (t, Taken.none) (s.imageAt e + 0x400) 2048).1.1, (getImage (t, Taken.none) (s.imageAt e + 0x400) 2048).1.2, []) hr g.state
    (g.err.trans rfl) (g.waits.trans rfl)
  exact ⟨a1, a2, a3, a4.trans (Nat.zero_add _), fun l hl => (a5 l hl).resolve_left (fun h => nomatch h)⟩

/-- One launch record alone: it is read from the state that the header's read has left. -/
theorem readLaunches_one (s t : State) (hs : ReadFrom s t) (e : Fin 64) (im : Image) (hi : inHost (s.imageAt e + 0x400) 2048) (bs : List Byte) (rest : List (List Byte)) (hl : launchRecs s e = bs :: rest)
    (h0 : numAt bs 0 4 / 64 % 2 ≠ 0) (hr : ∀ y ∈ rest, numAt y 0 4 / 64 % 2 = 0) :
    ∃ g, ReadFrom s g ∧ (t.readLaunches e im).1 = (g.readLaunch (t.ctxroot &&& 0xFFF0FFFFFFFFF001) im bs).1 ∧
      (t.readLaunches e im).2.1.err = (g.readLaunch (t.ctxroot &&& 0xFFF0FFFFFFFFF001) im bs).2.1.err ∧ (t.readLaunches e im).2.1.waits = (g.readLaunch (t.ctxroot &&& 0xFFF0FFFFFFFFF001) im bs).2.1.waits ∧
      (t.readLaunches e im).2.2 = [(g.readLaunch (t.ctxroot &&& 0xFFF0FFFFFFFFF001) im bs).2.2] := by
  have ie : t.imageAt e = s.imageAt e := by simp only [State.imageAt, hs.ctab]
  obtain ⟨g, b⟩ := getImage_host s (t, Taken.none) hs (s.imageAt e + 0x400) 2048 hi
  have skip : ∀ (xs : List (List Byte)) (root : W64) (a : State × Taken × List (Fin 64 × Launch)), (∀ y ∈ xs, numAt y 0 4 / 64 % 2 = 0) →
      xs.foldl (fun (a : State × Taken × List (Fin 64 × Launch)) bs =>
        if numAt bs 0 4 / 64 % 2 = 0 then a
        else
          let q := a.1.readLaunch root im bs
          (q.1, { a.2.1 with err := if a.2.1.err = 0 then q.2.1.err else a.2.1.err, waits := a.2.1.waits || q.2.1.waits }, a.2.2 ++ [q.2.2])) a = a := by
    intro xs root
    induction xs with
    | nil => exact fun _ _ => rfl
    | cons y ys ih =>
      intro a h
      rw [List.foldl_cons]
      dsimp only
      rw [if_pos (h y (List.mem_cons_self ..))]
      exact ih a (fun z hz => h z (List.mem_cons_of_mem _ hz))
  refine ⟨_, g.state, ?_⟩
  unfold State.readLaunches
  dsimp only
  rw [ie, b, show (List.range 64).map (fun i => bytesAt (s.peekN (s.imageAt e + 0x400) 2048) (32 * i) 32) = bs :: rest from hl, List.foldl_cons]
  dsimp only
  rw [if_neg h0, skip rest _ _ hr]
  refine ⟨rfl, ?_, ?_, rfl⟩
  · simp [show (getImage (t, Taken.none) (s.imageAt e + 0x400) 2048).1.2.err = 0 from g.err.trans rfl]
  · simp [show (getImage (t, Taken.none) (s.imageAt e + 0x400) 2048).1.2.waits = false from g.waits.trans rfl]

-- ## What waits, and what fails

theorem take_waits (w : Who) (va at_ : Nat) (gs : List (Nat × Nat)) (r : State × Taken) (h : r.2.waits = true) :
    (gs.foldl (fun (r : State × Taken) g =>
      let q := r.1.sideLoad w false g.1 g.2
      match q.2 with
      | .ok bs => (q.1, { r.2 with data := r.2.data ++ (List.range bs.length).zipWith (fun i b => (at_ + (g.1 - va) + i, b)) bs })
      | .err c => (q.1, r.2.fault c (r.1.failByte w false g.1 g.2))
      | .wait => (q.1, { r.2 with waits := true })) r).2.waits = true := by
  induction gs generalizing r with
  | nil => exact h
  | cons g gs ih =>
    rw [List.foldl_cons]
    refine ih _ ?_
    dsimp only
    split
    · exact h
    · simp only [Taken.fault]
      split <;> exact h
    · rfl

/-- A read whose first part waits, waits. -/
theorem getAll_waits (s : State) (w : Who) (va n : Nat) (g : Nat × Nat) (gs : List (Nat × Nat)) (hg : segs va n = g :: gs) (h : (s.sideLoad w false g.1 g.2).2 = .wait) : (s.getAll w va n).2.waits = true := by
  unfold State.getAll State.take
  rw [hg, List.foldl_cons]
  refine take_waits w va 0 gs _ ?_
  dsimp only
  rw [h]

theorem land_waits (w : Who) (va at_ : Nat) (gs : List (Nat × Nat)) (r : State × Taken) (h : r.2.waits = true) :
    (gs.foldl (fun (r : State × Taken) g =>
      let off := at_ + (g.1 - va)
      let bs := (r.2.data.filter (fun x => decide (off ≤ x.1) && decide (x.1 < off + g.2))).map (·.2)
      if bs.length = g.2 then
        let q := r.1.sideStore w false g.1 bs
        match q.2 with
        | .ok _ => (q.1, r.2)
        | .err c => (q.1, r.2.fault c g.1)
        | .wait => (q.1, { r.2 with waits := true })
      else r) r).2.waits = true := by
  induction gs generalizing r with
  | nil => exact h
  | cons g gs ih =>
    rw [List.foldl_cons]
    refine ih _ ?_
    dsimp only
    split
    · split
      · exact h
      · simp only [Taken.fault]
        split <;> exact h
      · rfl
    · exact h

/-- A write whose first part waits, waits. -/
theorem putAll_waits (s : State) (w : Who) (va : Nat) (bs : List Byte) (m : Nat) (gs : List (Nat × Nat)) (hg : segs va bs.length = (va, m) :: gs) (hm : m ≤ bs.length)
    (h : ∀ cs : List Byte, cs.length = m → (s.sideStore w false va cs).2 = .wait) : (s.putAll w va bs).2.waits = true := by
  unfold State.putAll State.land
  rw [hg, List.foldl_cons]
  refine land_waits w va 0 gs _ ?_
  dsimp only
  have hl := part_length bs (0 + (va - va)) m (by omega)
  rw [if_pos hl]
  rw [h _ hl]

/-- The header's launches wait with the header. -/
theorem readLaunches_waits (s : State) (e : Fin 64) (im : Image) (h : (getImage (s, Taken.none) (s.imageAt e + 0x400) 2048).1.2.waits = true) : (s.readLaunches e im).2.1.waits = true := by
  have go : ∀ (xs : List (List Byte)) (root : W64) (a : State × Taken × List (Fin 64 × Launch)), a.2.1.waits = true →
      (xs.foldl (fun (a : State × Taken × List (Fin 64 × Launch)) bs =>
        if numAt bs 0 4 / 64 % 2 = 0 then a
        else
          let q := a.1.readLaunch root im bs
          (q.1, { a.2.1 with err := if a.2.1.err = 0 then q.2.1.err else a.2.1.err, waits := a.2.1.waits || q.2.1.waits }, a.2.2 ++ [q.2.2])) a).2.1.waits = true := by
    intro xs root
    induction xs with
    | nil => exact fun _ h => h
    | cons y ys ih =>
      intro a h
      rw [List.foldl_cons]
      refine ih _ ?_
      dsimp only
      split
      · exact h
      · simp only [h, Bool.true_or]
  exact go _ _ _ h

theorem getAll_hole (s : State) (w : Who) (va n : Nat) (hw : w.untranslated = true) (h0 : 0x208000000000 ≤ va) (h1 : va + n ≤ hostBase) (hn : 0 < n) :
    (s.getAll w va n).1 = s ∧ (s.getAll w va n).2.waits = false ∧ (s.getAll w va n).2.err ≠ 0 := by
  have hb : hostBase = 0x400000000000 := rfl
  have go : ∀ (gs : List (Nat × Nat)) (t : Taken), (∀ g ∈ gs, va ≤ g.1 ∧ g.1 + g.2 ≤ va + n ∧ 0 < g.2) → t.waits = false →
      let r := gs.foldl (fun (r : State × Taken) g =>
        let q := r.1.sideLoad w false g.1 g.2
        match q.2 with
        | .ok bs => (q.1, { r.2 with data := r.2.data ++ (List.range bs.length).zipWith (fun i b => (0 + (g.1 - va) + i, b)) bs })
        | .err c => (q.1, r.2.fault c (r.1.failByte w false g.1 g.2))
        | .wait => (q.1, { r.2 with waits := true })) (s, t)
      r.1 = s ∧ r.2.waits = false ∧ (t.err ≠ 0 ∨ gs ≠ [] → r.2.err ≠ 0) := by
    intro gs
    induction gs with
    | nil => exact fun t _ w => ⟨rfl, w, fun h => h.elim id (fun h => absurd rfl h)⟩
    | cons g gs ih =>
      intro t hg w0
      obtain ⟨a, b, c⟩ := hg g (List.mem_cons_self ..)
      rw [List.foldl_cons]
      dsimp only
      have e : s.sideLoad w false g.1 g.2 = (s, .err 21) := by
        simp only [State.sideLoad, Bool.false_eq_true, if_false, State.engLoad, check_hole s w .load g.1 g.2 hw (by omega) (by omega) c]
      rw [e]
      have f (v : Nat) : (t.fault 21 v).waits = false ∧ (t.fault 21 v).err ≠ 0 := by
        unfold Taken.fault
        split
        · exact ⟨w0, by simp⟩
        · exact ⟨w0, ‹_›⟩
      have := ih (t.fault 21 (s.failByte w false g.1 g.2)) (fun x hx => hg x (List.mem_cons_of_mem _ hx)) (f _).1
      exact ⟨this.1, this.2.1, fun _ => this.2.2 (.inl (f _).2)⟩
  have sg : ∀ g ∈ segs va n, va ≤ g.1 ∧ g.1 + g.2 ≤ va + n ∧ 0 < g.2 := by
    intro g hg
    simp only [segs, List.mem_map, List.mem_range] at hg
    obtain ⟨i, hi, rfl⟩ := hg
    dsimp only
    split <;> omega
  have ne : segs va n ≠ [] := by
    intro e
    have := congrArg List.length e
    simp only [segs, List.length_map, List.length_range, List.length_nil] at this
    omega
  have := go (segs va n) Taken.none sg rfl
  exact ⟨this.1, this.2.1, this.2.2 (.inr ne)⟩

/-- A launch record that lies where there is no memory. -/
theorem readLaunch_hole (s : State) (root : W64) (im : Image) (bs : List Byte) (hi : im.launches = []) (hw : (whoOf 0 root .user).untranslated = true) (h0 : 0x208000000000 ≤ (le64 (bytesAt bs 16 8)).toNat)
    (h1 : (le64 (bytesAt bs 16 8)).toNat + 64 ≤ hostBase) : (s.readLaunch root im bs).2.1.waits = false ∧ (s.readLaunch root im bs).2.1.err ≠ 0 := by
  obtain ⟨a, b, c⟩ := getAll_hole s (whoOf 0 root .user) (le64 (bytesAt bs 16 8)).toNat 64 hw h0 h1 (by decide)
  simp only [State.readLaunch, hi, List.find?_nil]
  generalize s.getAll (whoOf 0 root .user) (le64 (bytesAt bs 16 8)).toNat 64 = q at a b c ⊢
  have e : (decide (fld (wordAt q.2.bytes 3) 63 58 = 0) || decide (q.2.err ≠ 0)) = true := by simp [c]
  rw [if_pos e]
  exact ⟨by simp [b, Taken.none], c⟩

-- ## Saving

/-- Parts within host memory, some of them empty, are written. -/
theorem Calm.putHost {s : State} (h : Calm s) (w : Who) (base : Nat) (ps : List (Nat × List Byte)) (hw : w.untranslated = true) (hp : ∀ p ∈ ps, inHost (base + p.1) p.2.length) :
    Calm (s.putParts w base ps).1 ∧ s.MemSide (s.putParts w base ps).1 ∧ (s.putParts w base ps).2.waits = false ∧ (s.putParts w base ps).2.err = 0 := by
  have go : ∀ (ps : List (Nat × List Byte)) (r : State × Taken), (∀ p ∈ ps, inHost (base + p.1) p.2.length) → Calm r.1 → s.MemSide r.1 → r.2.waits = false → r.2.err = 0 →
      let f := ps.foldl (fun r p =>
        let q := r.1.putAll w (base + p.1) p.2
        (q.1, { r.2 with err := if r.2.err = 0 then q.2.err else r.2.err, addr := if r.2.err = 0 then q.2.addr else r.2.addr, waits := r.2.waits || q.2.waits })) r
      Calm f.1 ∧ s.MemSide f.1 ∧ f.2.waits = false ∧ f.2.err = 0 := by
    intro ps
    induction ps with
    | nil => exact fun _ _ a b c d => ⟨a, b, c, d⟩
    | cons p ps ih =>
      intro r hp a b c d
      obtain ⟨e, f, g⟩ := hp p (List.mem_cons_self ..)
      have k : Calm (r.1.putAll w (base + p.1) p.2).1 ∧ r.1.MemSide (r.1.putAll w (base + p.1) p.2).1 ∧ (r.1.putAll w (base + p.1) p.2).2.waits = false ∧ (r.1.putAll w (base + p.1) p.2).2.err = 0 := by
        by_cases hn : 0 < p.2.length
        · exact a.putAll w (base + p.1) p.2 hw hn e f
        · have z : p.2.length = 0 := by omega
          have zs : segs (base + p.1) 0 = [] := by
            unfold segs
            rw [show ((base + p.1) % 128 + 0 + 127) / 128 = 0 by omega]
            rfl
          simp only [State.putAll, State.land, z, zs, List.foldl_nil]
          exact ⟨a, .refl _, rfl, rfl⟩
      exact ih _ (fun x hx => hp x (List.mem_cons_of_mem _ hx)) k.1 (b.trans k.2.1) (by simp [c, k.2.2.1]) (by simp [d, k.2.2.2])
  exact go ps (s, Taken.none) hp h (.refl s) rfl rfl

/-- The parts of a share that holds nothing but at most 512 manifests lie within a block, those without bytes at the start of a line. -/
theorem serais_parts (es : List SEnt) (he : es.length ≤ 512) (hb : ∀ e ∈ es, e.bytes.length = 128) (p : Nat × List Byte) (hp : p ∈ (serais es).parts) : p.1 + p.2.length ≤ coreBlock ∧ (0 < p.2.length ∨ p.1 % 128 = 0) := by
  have hk : coreBlock = 0x3B9000 ∧ coreRecord = 0x0A8000 ∧ scratchSlot = 0x0B9000 ∧ seraiSlot = 0x0A9000 := ⟨rfl, rfl, rfl, rfl⟩
  have len : (es.reverse.flatMap (·.bytes)).length = 128 * es.length := by
    have : ∀ l : List SEnt, (∀ e ∈ l, e.bytes.length = 128) → (l.flatMap (·.bytes)).length = 128 * l.length := by
      intro l
      induction l with
      | nil => exact fun _ => rfl
      | cons x xs ih =>
        intro h
        rw [List.flatMap_cons, List.length_append, ih (fun y hy => h y (List.mem_cons_of_mem _ hy)), h x (List.mem_cons_self ..), List.length_cons]
        omega
    rw [this _ (fun e h => hb e (List.mem_reverse.mp h)), List.length_reverse]
  have rec_ : ((serais es).record).length ≤ 4096 := by
    simp only [Share.record, serais, List.take_nil, List.flatMap_nil, List.length_append, leBytes_length, padTo_length 512 [] (Nat.zero_le _)]
    omega
  simp only [Share.parts, List.mem_append, List.mem_flatMap, List.mem_cons, List.not_mem_nil, or_false] at hp
  obtain ⟨i, hi, hp⟩ | rfl | rfl | rfl := hp
  · have hi := List.mem_range.mp hi
    simp only [serais, List.map_nil, List.append_nil, List.find?_nil, List.mem_singleton] at hp
    subst hp
    have : slotArea * i = 0x8800 * i := rfl
    simp only [List.length_replicate]
    omega
  · simp only [padTo_length 4096 _ rec_]
    omega
  · simp only [show (serais es).serai = es from rfl, len]
    omega
  · simp only [show (serais es).partBytes = 0 from rfl, List.range_zero, List.map_nil, List.length_nil]
    omega

theorem State.MemSide.shareOf {s t : State} (h : s.MemSide t) (c : CoreId) (ctx : BitVec 12) : t.shareOf c ctx = s.shareOf c ctx := by
  have e : t.cores = s.cores ∧ t.scr = s.scr ∧ t.scrPz = s.scrPz := by rw [h]; exact ⟨rfl, rfl, rfl⟩
  simp only [State.shareOf, State.partOf, State.gmask, State.ctxSlots, State.strAt, e]

/-- One core of a save whose share is written. -/
theorem State.saveCores_cons (s : State) (ctx : BitVec 12) (c : CoreId) (cs : List CoreId) (t : State) (w : Bool) (m : BitVec 12 × Nat × Fin 64)
    (q : s.putShare c ctx (s.shareOf c ctx) = (t, some w)) (hm : s.imap.find? (fun m => m.1 == ctx && m.2.2 == clusterOf c) = some m) :
    s.saveCores ctx (c :: cs) = ((t.saveCores ctx cs).1,
      (t.saveCores ctx cs).2.1.map (fun l => { cluster := m.2.1, cidx := cidx c, share := s.shareOf c ctx } :: l), w || (t.saveCores ctx cs).2.2) := by
  rw [State.saveCores]
  generalize s.putShare c ctx (s.shareOf c ctx) = r at q ⊢
  generalize s.imap.find? (fun m => m.1 == ctx && m.2.2 == clusterOf c) = o at hm ⊢
  subst q hm
  rfl

/-- Shares of manifests alone are written to their blocks in host memory. -/
theorem Calm.saveCores {s : State} (h : Calm s) (ctx : BitVec 12) (cs : List CoreId)
    (hc : ∀ c ∈ cs, ∃ b es, s.imageBlock c ctx = some b ∧ hostBase ≤ b ∧ b + coreBlock ≤ hostBase + 2 ^ 36 ∧ b % 128 = 0 ∧ s.shareOf c ctx = serais es ∧ es.length ≤ 512 ∧ ∀ e ∈ es, e.bytes.length = 128)
    (hm : ∀ c ∈ cs, (s.imap.find? (fun m => m.1 == ctx && m.2.2 == clusterOf c)).isSome = true) :
    Calm (s.saveCores ctx cs).1 ∧ s.MemSide (s.saveCores ctx cs).1 ∧ (∃ l, (s.saveCores ctx cs).2.1 = some l) ∧ (s.saveCores ctx cs).2.2 = false := by
  induction cs generalizing s with
  | nil => exact ⟨h, .refl s, ⟨[], rfl⟩, rfl⟩
  | cons c cs ih =>
    obtain ⟨b, es, h1, h2, h3, h4, h5, h6, h7⟩ := hc c (List.mem_cons_self ..)
    obtain ⟨m, hm'⟩ := Option.isSome_iff_exists.mp (hm c (List.mem_cons_self ..))
    have hk : coreBlock = 0x3B9000 := rfl
    obtain ⟨a1, a2, a3, a4⟩ := h.putHost (imageWho c) b (serais es).parts rfl (fun p hp => by
      obtain ⟨x, y⟩ := serais_parts es h6 h7 p hp
      exact ⟨by omega, by omega, y.imp_right (fun y => by omega)⟩)
    have q : s.putShare c ctx (s.shareOf c ctx) = ((s.putParts (imageWho c) b (serais es).parts).1, some false) := by
      unfold State.putShare
      rw [h1, h5]
      simp [a3, a4]
    rw [State.saveCores_cons s ctx c cs _ _ _ q hm']
    have i : (s.putParts (imageWho c) b (serais es).parts).1.imap = s.imap := by rw [a2]
    obtain ⟨b1, b2, ⟨l, b3⟩, b4⟩ := ih a1 (fun d hd => by
      obtain ⟨b, es, h1, h⟩ := hc d (List.mem_cons_of_mem _ hd)
      exact ⟨b, es, by rw [a2.imageBlock]; exact h1, by rw [a2.shareOf]; exact h⟩) (fun d hd => by rw [i]; exact hm d (List.mem_cons_of_mem _ hd))
    exact ⟨b1, a2.trans b2, ⟨_, by rw [b3]; rfl⟩, by rw [b4]; rfl⟩

end Sys2Proof.Machine
end

