-- ==== Sys2Proof/Laws/State.lean ====
section
/-!
SUPPORT. One lemma per field of each update: the change of a core, a string or a split, bytes written, and the agenda. Each is true by
unfolding the update, so that no later proof unfolds a record.
-/
namespace Sys2Proof.Machine
open Sys2Proof

-- ## A core changed

@[simp] theorem State.modCore_acc (s : State) (c : CoreId) (f : Core → Core) : (s.modCore c f).acc = s.acc := rfl
@[simp] theorem State.modCore_ppm (s : State) (c : CoreId) (f : Core → Core) : (s.modCore c f).ppm = s.ppm := rfl
@[simp] theorem State.modCore_cyc (s : State) (c : CoreId) (f : Core → Core) : (s.modCore c f).cyc = s.cyc := rfl
@[simp] theorem State.modCore_pskew (s : State) (c : CoreId) (f : Core → Core) : (s.modCore c f).pskew = s.pskew := rfl
@[simp] theorem State.modCore_timeLost (s : State) (c : CoreId) (f : Core → Core) : (s.modCore c f).timeLost = s.timeLost := rfl
@[simp] theorem State.modCore_exchanged (s : State) (c : CoreId) (f : Core → Core) : (s.modCore c f).exchanged = s.exchanged := rfl
@[simp] theorem State.modCore_um (s : State) (c : CoreId) (f : Core → Core) : (s.modCore c f).um = s.um := rfl
@[simp] theorem State.modCore_irecv (s : State) (c : CoreId) (f : Core → Core) : (s.modCore c f).irecv = s.irecv := rfl
@[simp] theorem State.modCore_boots (s : State) (c : CoreId) (f : Core → Core) : (s.modCore c f).boots = s.boots := rfl
@[simp] theorem State.modCore_regions (s : State) (c : CoreId) (f : Core → Core) : (s.modCore c f).regions = s.regions := rfl
@[simp] theorem State.modCore_rtstat (s : State) (c : CoreId) (f : Core → Core) : (s.modCore c f).rtstat = s.rtstat := rfl
@[simp] theorem State.modCore_draining (s : State) (c : CoreId) (f : Core → Core) : (s.modCore c f).draining = s.draining := rfl
@[simp] theorem State.modCore_mem (s : State) (c : CoreId) (f : Core → Core) : (s.modCore c f).mem = s.mem := rfl
@[simp] theorem State.modCore_pz (s : State) (c : CoreId) (f : Core → Core) : (s.modCore c f).pz = s.pz := rfl
@[simp] theorem State.modCore_scr (s : State) (c : CoreId) (f : Core → Core) : (s.modCore c f).scr = s.scr := rfl
@[simp] theorem State.modCore_scrPz (s : State) (c : CoreId) (f : Core → Core) : (s.modCore c f).scrPz = s.scrPz := rfl
@[simp] theorem State.modCore_l1 (s : State) (c : CoreId) (f : Core → Core) : (s.modCore c f).l1 = s.l1 := rfl
@[simp] theorem State.modCore_tlb (s : State) (c : CoreId) (f : Core → Core) : (s.modCore c f).tlb = s.tlb := rfl
@[simp] theorem State.modCore_deadDies (s : State) (c : CoreId) (f : Core → Core) : (s.modCore c f).deadDies = s.deadDies := rfl
@[simp] theorem State.modCore_dir (s : State) (c : CoreId) (f : Core → Core) : (s.modCore c f).dir = s.dir := rfl
@[simp] theorem State.modCore_metas (s : State) (c : CoreId) (f : Core → Core) : (s.modCore c f).metas = s.metas := rfl
@[simp] theorem State.modCore_inc (s : State) (c : CoreId) (f : Core → Core) : (s.modCore c f).inc = s.inc := rfl
@[simp] theorem State.modCore_deadAgents (s : State) (c : CoreId) (f : Core → Core) : (s.modCore c f).deadAgents = s.deadAgents := rfl
@[simp] theorem State.modCore_l2 (s : State) (c : CoreId) (f : Core → Core) : (s.modCore c f).l2 = s.l2 := rfl
@[simp] theorem State.modCore_pend (s : State) (c : CoreId) (f : Core → Core) : (s.modCore c f).pend = s.pend := rfl
@[simp] theorem State.modCore_closing (s : State) (c : CoreId) (f : Core → Core) : (s.modCore c f).closing = s.closing := rfl
@[simp] theorem State.modCore_asleep (s : State) (c : CoreId) (f : Core → Core) : (s.modCore c f).asleep = s.asleep := rfl
@[simp] theorem State.modCore_held (s : State) (c : CoreId) (f : Core → Core) : (s.modCore c f).held = s.held := rfl
@[simp] theorem State.modCore_silent (s : State) (c : CoreId) (f : Core → Core) : (s.modCore c f).silent = s.silent := rfl
@[simp] theorem State.modCore_llc (s : State) (c : CoreId) (f : Core → Core) : (s.modCore c f).llc = s.llc := rfl
@[simp] theorem State.modCore_pchq (s : State) (c : CoreId) (f : Core → Core) : (s.modCore c f).pchq = s.pchq := rfl
@[simp] theorem State.modCore_rows (s : State) (c : CoreId) (f : Core → Core) : (s.modCore c f).rows = s.rows := rfl
@[simp] theorem State.modCore_refreshing (s : State) (c : CoreId) (f : Core → Core) : (s.modCore c f).refreshing = s.refreshing := rfl
@[simp] theorem State.modCore_hot (s : State) (c : CoreId) (f : Core → Core) : (s.modCore c f).hot = s.hot := rfl
@[simp] theorem State.modCore_seals (s : State) (c : CoreId) (f : Core → Core) : (s.modCore c f).seals = s.seals := rfl
@[simp] theorem State.modCore_ranges (s : State) (c : CoreId) (f : Core → Core) : (s.modCore c f).ranges = s.ranges := rfl
@[simp] theorem State.modCore_partials (s : State) (c : CoreId) (f : Core → Core) : (s.modCore c f).partials = s.partials := rfl
@[simp] theorem State.modCore_views (s : State) (c : CoreId) (f : Core → Core) : (s.modCore c f).views = s.views := rfl
@[simp] theorem State.modCore_derivs (s : State) (c : CoreId) (f : Core → Core) : (s.modCore c f).derivs = s.derivs := rfl
@[simp] theorem State.modCore_timers (s : State) (c : CoreId) (f : Core → Core) : (s.modCore c f).timers = s.timers := rfl
@[simp] theorem State.modCore_regs (s : State) (c : CoreId) (f : Core → Core) : (s.modCore c f).regs = s.regs := rfl
@[simp] theorem State.modCore_abaci (s : State) (c : CoreId) (f : Core → Core) : (s.modCore c f).abaci = s.abaci := rfl
@[simp] theorem State.modCore_launches (s : State) (c : CoreId) (f : Core → Core) : (s.modCore c f).launches = s.launches := rfl
@[simp] theorem State.modCore_ldoor0 (s : State) (c : CoreId) (f : Core → Core) : (s.modCore c f).ldoor0 = s.ldoor0 := rfl
@[simp] theorem State.modCore_ldoor1 (s : State) (c : CoreId) (f : Core → Core) : (s.modCore c f).ldoor1 = s.ldoor1 := rfl
@[simp] theorem State.modCore_lstat (s : State) (c : CoreId) (f : Core → Core) : (s.modCore c f).lstat = s.lstat := rfl
@[simp] theorem State.modCore_bazaar (s : State) (c : CoreId) (f : Core → Core) : (s.modCore c f).bazaar = s.bazaar := rfl
@[simp] theorem State.modCore_drove (s : State) (c : CoreId) (f : Core → Core) : (s.modCore c f).drove = s.drove := rfl
@[simp] theorem State.modCore_ctab (s : State) (c : CoreId) (f : Core → Core) : (s.modCore c f).ctab = s.ctab := rfl
@[simp] theorem State.modCore_ctxcmd (s : State) (c : CoreId) (f : Core → Core) : (s.modCore c f).ctxcmd = s.ctxcmd := rfl
@[simp] theorem State.modCore_ctxroot (s : State) (c : CoreId) (f : Core → Core) : (s.modCore c f).ctxroot = s.ctxroot := rfl
@[simp] theorem State.modCore_ctxstat (s : State) (c : CoreId) (f : Core → Core) : (s.modCore c f).ctxstat = s.ctxstat := rfl
@[simp] theorem State.modCore_images (s : State) (c : CoreId) (f : Core → Core) : (s.modCore c f).images = s.images := rfl
@[simp] theorem State.modCore_imap (s : State) (c : CoreId) (f : Core → Core) : (s.modCore c f).imap = s.imap := rfl
@[simp] theorem State.modCore_uids (s : State) (c : CoreId) (f : Core → Core) : (s.modCore c f).uids = s.uids := rfl
@[simp] theorem State.modCore_resq (s : State) (c : CoreId) (f : Core → Core) : (s.modCore c f).resq = s.resq := rfl
@[simp] theorem State.modCore_elog (s : State) (c : CoreId) (f : Core → Core) : (s.modCore c f).elog = s.elog := rfl
@[simp] theorem State.modCore_elogLost (s : State) (c : CoreId) (f : Core → Core) : (s.modCore c f).elogLost = s.elogLost := rfl
@[simp] theorem State.modCore_corr (s : State) (c : CoreId) (f : Core → Core) : (s.modCore c f).corr = s.corr := rfl
@[simp] theorem State.modCore_apert (s : State) (c : CoreId) (f : Core → Core) : (s.modCore c f).apert = s.apert := rfl
@[simp] theorem State.modCore_hipend (s : State) (c : CoreId) (f : Core → Core) : (s.modCore c f).hipend = s.hipend := rfl
@[simp] theorem State.modCore_naesh (s : State) (c : CoreId) (f : Core → Core) : (s.modCore c f).naesh = s.naesh := rfl
@[simp] theorem State.modCore_naeshDown (s : State) (c : CoreId) (f : Core → Core) : (s.modCore c f).naeshDown = s.naeshDown := rfl
@[simp] theorem State.modCore_fat (s : State) (c : CoreId) (f : Core → Core) : (s.modCore c f).fat = s.fat := rfl
@[simp] theorem State.modCore_cport (s : State) (c : CoreId) (f : Core → Core) : (s.modCore c f).cport = s.cport := rfl
@[simp] theorem State.modCore_portIdle (s : State) (c : CoreId) (f : Core → Core) : (s.modCore c f).portIdle = s.portIdle := rfl
@[simp] theorem State.modCore_routes (s : State) (c : CoreId) (f : Core → Core) : (s.modCore c f).routes = s.routes := rfl
@[simp] theorem State.modCore_ring (s : State) (c : CoreId) (f : Core → Core) : (s.modCore c f).ring = s.ring := rfl
@[simp] theorem State.modCore_token (s : State) (c : CoreId) (f : Core → Core) : (s.modCore c f).token = s.token := rfl
@[simp] theorem State.modCore_remote (s : State) (c : CoreId) (f : Core → Core) : (s.modCore c f).remote = s.remote := rfl
@[simp] theorem State.modCore_colls (s : State) (c : CoreId) (f : Core → Core) : (s.modCore c f).colls = s.colls := rfl
@[simp] theorem State.modCore_hostGot (s : State) (c : CoreId) (f : Core → Core) : (s.modCore c f).hostGot = s.hostGot := rfl
@[simp] theorem State.modCore_fabricGot (s : State) (c : CoreId) (f : Core → Core) : (s.modCore c f).fabricGot = s.fabricGot := rfl
@[simp] theorem State.modCore_ready (s : State) (c : CoreId) (f : Core → Core) : (s.modCore c f).ready = s.ready := rfl
@[simp] theorem State.modCore_pwrcap (s : State) (c : CoreId) (f : Core → Core) : (s.modCore c f).pwrcap = s.pwrcap := rfl
@[simp] theorem State.modCore_therm (s : State) (c : CoreId) (f : Core → Core) : (s.modCore c f).therm = s.therm := rfl
@[simp] theorem State.modCore_lsidle (s : State) (c : CoreId) (f : Core → Core) : (s.modCore c f).lsidle = s.lsidle := rfl
@[simp] theorem State.modCore_mcmd (s : State) (c : CoreId) (f : Core → Core) : (s.modCore c f).mcmd = s.mcmd := rfl
@[simp] theorem State.modCore_mstat (s : State) (c : CoreId) (f : Core → Core) : (s.modCore c f).mstat = s.mstat := rfl
@[simp] theorem State.modCore_bootFailed (s : State) (c : CoreId) (f : Core → Core) : (s.modCore c f).bootFailed = s.bootFailed := rfl
@[simp] theorem State.modCore_withhold (s : State) (c : CoreId) (f : Core → Core) : (s.modCore c f).withhold = s.withhold := rfl
@[simp] theorem State.modCore_halved (s : State) (c : CoreId) (f : Core → Core) : (s.modCore c f).halved = s.halved := rfl
@[simp] theorem State.modCore_throttled (s : State) (c : CoreId) (f : Core → Core) : (s.modCore c f).throttled = s.throttled := rfl
@[simp] theorem State.modCore_agenda (s : State) (c : CoreId) (f : Core → Core) : (s.modCore c f).agenda = s.agenda := rfl
@[simp] theorem State.modCore_ev (s : State) (c : CoreId) (f : Core → Core) : (s.modCore c f).ev = s.ev := rfl
@[simp] theorem State.modCore_issue (s : State) (c : CoreId) (f : Core → Core) : (s.modCore c f).issue = s.issue := rfl
@[simp] theorem State.modCore_cur (s : State) (c : CoreId) (f : Core → Core) : (s.modCore c f).cur = s.cur := rfl
@[simp] theorem State.modCore_curAb (s : State) (c : CoreId) (f : Core → Core) : (s.modCore c f).curAb = s.curAb := rfl
@[simp] theorem State.modCore_free (s : State) (c : CoreId) (f : Core → Core) : (s.modCore c f).free = s.free := rfl
@[simp] theorem State.modCore_placings (s : State) (c : CoreId) (f : Core → Core) : (s.modCore c f).placings = s.placings := rfl
@[simp] theorem State.modCore_walks (s : State) (c : CoreId) (f : Core → Core) : (s.modCore c f).walks = s.walks := rfl
@[simp] theorem State.modCore_lost (s : State) (c : CoreId) (f : Core → Core) : (s.modCore c f).lost = s.lost := rfl
@[simp] theorem State.modCore_vreads (s : State) (c : CoreId) (f : Core → Core) : (s.modCore c f).vreads = s.vreads := rfl
@[simp] theorem State.modCore_dones (s : State) (c : CoreId) (f : Core → Core) : (s.modCore c f).dones = s.dones := rfl
@[simp] theorem State.modCore_counted (s : State) (c : CoreId) (f : Core → Core) : (s.modCore c f).counted = s.counted := rfl
@[simp] theorem State.modCore_reports (s : State) (c : CoreId) (f : Core → Core) : (s.modCore c f).reports = s.reports := rfl
@[simp] theorem State.modCore_lineq (s : State) (c : CoreId) (f : Core → Core) : (s.modCore c f).lineq = s.lineq := rfl
@[simp] theorem State.modCore_bars (s : State) (c : CoreId) (f : Core → Core) : (s.modCore c f).bars = s.bars := rfl
@[simp] theorem State.modCore_bkPages (s : State) (c : CoreId) (f : Core → Core) : (s.modCore c f).bkPages = s.bkPages := rfl

-- ## A string changed

@[simp] theorem State.modStr_acc (s : State) (c : CoreId) (k : SlotId) (f : Str → Str) : (s.modStr c k f).acc = s.acc := rfl
@[simp] theorem State.modStr_ppm (s : State) (c : CoreId) (k : SlotId) (f : Str → Str) : (s.modStr c k f).ppm = s.ppm := rfl
@[simp] theorem State.modStr_cyc (s : State) (c : CoreId) (k : SlotId) (f : Str → Str) : (s.modStr c k f).cyc = s.cyc := rfl
@[simp] theorem State.modStr_pskew (s : State) (c : CoreId) (k : SlotId) (f : Str → Str) : (s.modStr c k f).pskew = s.pskew := rfl
@[simp] theorem State.modStr_timeLost (s : State) (c : CoreId) (k : SlotId) (f : Str → Str) : (s.modStr c k f).timeLost = s.timeLost := rfl
@[simp] theorem State.modStr_exchanged (s : State) (c : CoreId) (k : SlotId) (f : Str → Str) : (s.modStr c k f).exchanged = s.exchanged := rfl
@[simp] theorem State.modStr_um (s : State) (c : CoreId) (k : SlotId) (f : Str → Str) : (s.modStr c k f).um = s.um := rfl
@[simp] theorem State.modStr_irecv (s : State) (c : CoreId) (k : SlotId) (f : Str → Str) : (s.modStr c k f).irecv = s.irecv := rfl
@[simp] theorem State.modStr_boots (s : State) (c : CoreId) (k : SlotId) (f : Str → Str) : (s.modStr c k f).boots = s.boots := rfl
@[simp] theorem State.modStr_regions (s : State) (c : CoreId) (k : SlotId) (f : Str → Str) : (s.modStr c k f).regions = s.regions := rfl
@[simp] theorem State.modStr_rtstat (s : State) (c : CoreId) (k : SlotId) (f : Str → Str) : (s.modStr c k f).rtstat = s.rtstat := rfl
@[simp] theorem State.modStr_draining (s : State) (c : CoreId) (k : SlotId) (f : Str → Str) : (s.modStr c k f).draining = s.draining := rfl
@[simp] theorem State.modStr_mem (s : State) (c : CoreId) (k : SlotId) (f : Str → Str) : (s.modStr c k f).mem = s.mem := rfl
@[simp] theorem State.modStr_pz (s : State) (c : CoreId) (k : SlotId) (f : Str → Str) : (s.modStr c k f).pz = s.pz := rfl
@[simp] theorem State.modStr_scr (s : State) (c : CoreId) (k : SlotId) (f : Str → Str) : (s.modStr c k f).scr = s.scr := rfl
@[simp] theorem State.modStr_scrPz (s : State) (c : CoreId) (k : SlotId) (f : Str → Str) : (s.modStr c k f).scrPz = s.scrPz := rfl
@[simp] theorem State.modStr_l1 (s : State) (c : CoreId) (k : SlotId) (f : Str → Str) : (s.modStr c k f).l1 = s.l1 := rfl
@[simp] theorem State.modStr_tlb (s : State) (c : CoreId) (k : SlotId) (f : Str → Str) : (s.modStr c k f).tlb = s.tlb := rfl
@[simp] theorem State.modStr_deadDies (s : State) (c : CoreId) (k : SlotId) (f : Str → Str) : (s.modStr c k f).deadDies = s.deadDies := rfl
@[simp] theorem State.modStr_dir (s : State) (c : CoreId) (k : SlotId) (f : Str → Str) : (s.modStr c k f).dir = s.dir := rfl
@[simp] theorem State.modStr_metas (s : State) (c : CoreId) (k : SlotId) (f : Str → Str) : (s.modStr c k f).metas = s.metas := rfl
@[simp] theorem State.modStr_inc (s : State) (c : CoreId) (k : SlotId) (f : Str → Str) : (s.modStr c k f).inc = s.inc := rfl
@[simp] theorem State.modStr_deadAgents (s : State) (c : CoreId) (k : SlotId) (f : Str → Str) : (s.modStr c k f).deadAgents = s.deadAgents := rfl
@[simp] theorem State.modStr_l2 (s : State) (c : CoreId) (k : SlotId) (f : Str → Str) : (s.modStr c k f).l2 = s.l2 := rfl
@[simp] theorem State.modStr_pend (s : State) (c : CoreId) (k : SlotId) (f : Str → Str) : (s.modStr c k f).pend = s.pend := rfl
@[simp] theorem State.modStr_closing (s : State) (c : CoreId) (k : SlotId) (f : Str → Str) : (s.modStr c k f).closing = s.closing := rfl
@[simp] theorem State.modStr_asleep (s : State) (c : CoreId) (k : SlotId) (f : Str → Str) : (s.modStr c k f).asleep = s.asleep := rfl
@[simp] theorem State.modStr_held (s : State) (c : CoreId) (k : SlotId) (f : Str → Str) : (s.modStr c k f).held = s.held := rfl
@[simp] theorem State.modStr_silent (s : State) (c : CoreId) (k : SlotId) (f : Str → Str) : (s.modStr c k f).silent = s.silent := rfl
@[simp] theorem State.modStr_llc (s : State) (c : CoreId) (k : SlotId) (f : Str → Str) : (s.modStr c k f).llc = s.llc := rfl
@[simp] theorem State.modStr_pchq (s : State) (c : CoreId) (k : SlotId) (f : Str → Str) : (s.modStr c k f).pchq = s.pchq := rfl
@[simp] theorem State.modStr_rows (s : State) (c : CoreId) (k : SlotId) (f : Str → Str) : (s.modStr c k f).rows = s.rows := rfl
@[simp] theorem State.modStr_refreshing (s : State) (c : CoreId) (k : SlotId) (f : Str → Str) : (s.modStr c k f).refreshing = s.refreshing := rfl
@[simp] theorem State.modStr_hot (s : State) (c : CoreId) (k : SlotId) (f : Str → Str) : (s.modStr c k f).hot = s.hot := rfl
@[simp] theorem State.modStr_seals (s : State) (c : CoreId) (k : SlotId) (f : Str → Str) : (s.modStr c k f).seals = s.seals := rfl
@[simp] theorem State.modStr_ranges (s : State) (c : CoreId) (k : SlotId) (f : Str → Str) : (s.modStr c k f).ranges = s.ranges := rfl
@[simp] theorem State.modStr_partials (s : State) (c : CoreId) (k : SlotId) (f : Str → Str) : (s.modStr c k f).partials = s.partials := rfl
@[simp] theorem State.modStr_views (s : State) (c : CoreId) (k : SlotId) (f : Str → Str) : (s.modStr c k f).views = s.views := rfl
@[simp] theorem State.modStr_derivs (s : State) (c : CoreId) (k : SlotId) (f : Str → Str) : (s.modStr c k f).derivs = s.derivs := rfl
@[simp] theorem State.modStr_timers (s : State) (c : CoreId) (k : SlotId) (f : Str → Str) : (s.modStr c k f).timers = s.timers := rfl
@[simp] theorem State.modStr_regs (s : State) (c : CoreId) (k : SlotId) (f : Str → Str) : (s.modStr c k f).regs = s.regs := rfl
@[simp] theorem State.modStr_abaci (s : State) (c : CoreId) (k : SlotId) (f : Str → Str) : (s.modStr c k f).abaci = s.abaci := rfl
@[simp] theorem State.modStr_launches (s : State) (c : CoreId) (k : SlotId) (f : Str → Str) : (s.modStr c k f).launches = s.launches := rfl
@[simp] theorem State.modStr_ldoor0 (s : State) (c : CoreId) (k : SlotId) (f : Str → Str) : (s.modStr c k f).ldoor0 = s.ldoor0 := rfl
@[simp] theorem State.modStr_ldoor1 (s : State) (c : CoreId) (k : SlotId) (f : Str → Str) : (s.modStr c k f).ldoor1 = s.ldoor1 := rfl
@[simp] theorem State.modStr_lstat (s : State) (c : CoreId) (k : SlotId) (f : Str → Str) : (s.modStr c k f).lstat = s.lstat := rfl
@[simp] theorem State.modStr_bazaar (s : State) (c : CoreId) (k : SlotId) (f : Str → Str) : (s.modStr c k f).bazaar = s.bazaar := rfl
@[simp] theorem State.modStr_drove (s : State) (c : CoreId) (k : SlotId) (f : Str → Str) : (s.modStr c k f).drove = s.drove := rfl
@[simp] theorem State.modStr_ctab (s : State) (c : CoreId) (k : SlotId) (f : Str → Str) : (s.modStr c k f).ctab = s.ctab := rfl
@[simp] theorem State.modStr_ctxcmd (s : State) (c : CoreId) (k : SlotId) (f : Str → Str) : (s.modStr c k f).ctxcmd = s.ctxcmd := rfl
@[simp] theorem State.modStr_ctxroot (s : State) (c : CoreId) (k : SlotId) (f : Str → Str) : (s.modStr c k f).ctxroot = s.ctxroot := rfl
@[simp] theorem State.modStr_ctxstat (s : State) (c : CoreId) (k : SlotId) (f : Str → Str) : (s.modStr c k f).ctxstat = s.ctxstat := rfl
@[simp] theorem State.modStr_images (s : State) (c : CoreId) (k : SlotId) (f : Str → Str) : (s.modStr c k f).images = s.images := rfl
@[simp] theorem State.modStr_imap (s : State) (c : CoreId) (k : SlotId) (f : Str → Str) : (s.modStr c k f).imap = s.imap := rfl
@[simp] theorem State.modStr_uids (s : State) (c : CoreId) (k : SlotId) (f : Str → Str) : (s.modStr c k f).uids = s.uids := rfl
@[simp] theorem State.modStr_resq (s : State) (c : CoreId) (k : SlotId) (f : Str → Str) : (s.modStr c k f).resq = s.resq := rfl
@[simp] theorem State.modStr_elog (s : State) (c : CoreId) (k : SlotId) (f : Str → Str) : (s.modStr c k f).elog = s.elog := rfl
@[simp] theorem State.modStr_elogLost (s : State) (c : CoreId) (k : SlotId) (f : Str → Str) : (s.modStr c k f).elogLost = s.elogLost := rfl
@[simp] theorem State.modStr_corr (s : State) (c : CoreId) (k : SlotId) (f : Str → Str) : (s.modStr c k f).corr = s.corr := rfl
@[simp] theorem State.modStr_apert (s : State) (c : CoreId) (k : SlotId) (f : Str → Str) : (s.modStr c k f).apert = s.apert := rfl
@[simp] theorem State.modStr_hipend (s : State) (c : CoreId) (k : SlotId) (f : Str → Str) : (s.modStr c k f).hipend = s.hipend := rfl
@[simp] theorem State.modStr_naesh (s : State) (c : CoreId) (k : SlotId) (f : Str → Str) : (s.modStr c k f).naesh = s.naesh := rfl
@[simp] theorem State.modStr_naeshDown (s : State) (c : CoreId) (k : SlotId) (f : Str → Str) : (s.modStr c k f).naeshDown = s.naeshDown := rfl
@[simp] theorem State.modStr_fat (s : State) (c : CoreId) (k : SlotId) (f : Str → Str) : (s.modStr c k f).fat = s.fat := rfl
@[simp] theorem State.modStr_cport (s : State) (c : CoreId) (k : SlotId) (f : Str → Str) : (s.modStr c k f).cport = s.cport := rfl
@[simp] theorem State.modStr_portIdle (s : State) (c : CoreId) (k : SlotId) (f : Str → Str) : (s.modStr c k f).portIdle = s.portIdle := rfl
@[simp] theorem State.modStr_routes (s : State) (c : CoreId) (k : SlotId) (f : Str → Str) : (s.modStr c k f).routes = s.routes := rfl
@[simp] theorem State.modStr_ring (s : State) (c : CoreId) (k : SlotId) (f : Str → Str) : (s.modStr c k f).ring = s.ring := rfl
@[simp] theorem State.modStr_token (s : State) (c : CoreId) (k : SlotId) (f : Str → Str) : (s.modStr c k f).token = s.token := rfl
@[simp] theorem State.modStr_remote (s : State) (c : CoreId) (k : SlotId) (f : Str → Str) : (s.modStr c k f).remote = s.remote := rfl
@[simp] theorem State.modStr_colls (s : State) (c : CoreId) (k : SlotId) (f : Str → Str) : (s.modStr c k f).colls = s.colls := rfl
@[simp] theorem State.modStr_hostGot (s : State) (c : CoreId) (k : SlotId) (f : Str → Str) : (s.modStr c k f).hostGot = s.hostGot := rfl
@[simp] theorem State.modStr_fabricGot (s : State) (c : CoreId) (k : SlotId) (f : Str → Str) : (s.modStr c k f).fabricGot = s.fabricGot := rfl
@[simp] theorem State.modStr_ready (s : State) (c : CoreId) (k : SlotId) (f : Str → Str) : (s.modStr c k f).ready = s.ready := rfl
@[simp] theorem State.modStr_pwrcap (s : State) (c : CoreId) (k : SlotId) (f : Str → Str) : (s.modStr c k f).pwrcap = s.pwrcap := rfl
@[simp] theorem State.modStr_therm (s : State) (c : CoreId) (k : SlotId) (f : Str → Str) : (s.modStr c k f).therm = s.therm := rfl
@[simp] theorem State.modStr_lsidle (s : State) (c : CoreId) (k : SlotId) (f : Str → Str) : (s.modStr c k f).lsidle = s.lsidle := rfl
@[simp] theorem State.modStr_mcmd (s : State) (c : CoreId) (k : SlotId) (f : Str → Str) : (s.modStr c k f).mcmd = s.mcmd := rfl
@[simp] theorem State.modStr_mstat (s : State) (c : CoreId) (k : SlotId) (f : Str → Str) : (s.modStr c k f).mstat = s.mstat := rfl
@[simp] theorem State.modStr_bootFailed (s : State) (c : CoreId) (k : SlotId) (f : Str → Str) : (s.modStr c k f).bootFailed = s.bootFailed := rfl
@[simp] theorem State.modStr_withhold (s : State) (c : CoreId) (k : SlotId) (f : Str → Str) : (s.modStr c k f).withhold = s.withhold := rfl
@[simp] theorem State.modStr_halved (s : State) (c : CoreId) (k : SlotId) (f : Str → Str) : (s.modStr c k f).halved = s.halved := rfl
@[simp] theorem State.modStr_throttled (s : State) (c : CoreId) (k : SlotId) (f : Str → Str) : (s.modStr c k f).throttled = s.throttled := rfl
@[simp] theorem State.modStr_agenda (s : State) (c : CoreId) (k : SlotId) (f : Str → Str) : (s.modStr c k f).agenda = s.agenda := rfl
@[simp] theorem State.modStr_ev (s : State) (c : CoreId) (k : SlotId) (f : Str → Str) : (s.modStr c k f).ev = s.ev := rfl
@[simp] theorem State.modStr_issue (s : State) (c : CoreId) (k : SlotId) (f : Str → Str) : (s.modStr c k f).issue = s.issue := rfl
@[simp] theorem State.modStr_cur (s : State) (c : CoreId) (k : SlotId) (f : Str → Str) : (s.modStr c k f).cur = s.cur := rfl
@[simp] theorem State.modStr_curAb (s : State) (c : CoreId) (k : SlotId) (f : Str → Str) : (s.modStr c k f).curAb = s.curAb := rfl
@[simp] theorem State.modStr_free (s : State) (c : CoreId) (k : SlotId) (f : Str → Str) : (s.modStr c k f).free = s.free := rfl
@[simp] theorem State.modStr_placings (s : State) (c : CoreId) (k : SlotId) (f : Str → Str) : (s.modStr c k f).placings = s.placings := rfl
@[simp] theorem State.modStr_walks (s : State) (c : CoreId) (k : SlotId) (f : Str → Str) : (s.modStr c k f).walks = s.walks := rfl
@[simp] theorem State.modStr_lost (s : State) (c : CoreId) (k : SlotId) (f : Str → Str) : (s.modStr c k f).lost = s.lost := rfl
@[simp] theorem State.modStr_vreads (s : State) (c : CoreId) (k : SlotId) (f : Str → Str) : (s.modStr c k f).vreads = s.vreads := rfl
@[simp] theorem State.modStr_dones (s : State) (c : CoreId) (k : SlotId) (f : Str → Str) : (s.modStr c k f).dones = s.dones := rfl
@[simp] theorem State.modStr_counted (s : State) (c : CoreId) (k : SlotId) (f : Str → Str) : (s.modStr c k f).counted = s.counted := rfl
@[simp] theorem State.modStr_reports (s : State) (c : CoreId) (k : SlotId) (f : Str → Str) : (s.modStr c k f).reports = s.reports := rfl
@[simp] theorem State.modStr_lineq (s : State) (c : CoreId) (k : SlotId) (f : Str → Str) : (s.modStr c k f).lineq = s.lineq := rfl
@[simp] theorem State.modStr_bars (s : State) (c : CoreId) (k : SlotId) (f : Str → Str) : (s.modStr c k f).bars = s.bars := rfl
@[simp] theorem State.modStr_bkPages (s : State) (c : CoreId) (k : SlotId) (f : Str → Str) : (s.modStr c k f).bkPages = s.bkPages := rfl

-- ## The issuing string changed

@[simp] theorem State.modMe_acc (s : State) (f : Str → Str) : (s.modMe f).acc = s.acc := rfl
@[simp] theorem State.modMe_ppm (s : State) (f : Str → Str) : (s.modMe f).ppm = s.ppm := rfl
@[simp] theorem State.modMe_cyc (s : State) (f : Str → Str) : (s.modMe f).cyc = s.cyc := rfl
@[simp] theorem State.modMe_pskew (s : State) (f : Str → Str) : (s.modMe f).pskew = s.pskew := rfl
@[simp] theorem State.modMe_timeLost (s : State) (f : Str → Str) : (s.modMe f).timeLost = s.timeLost := rfl
@[simp] theorem State.modMe_exchanged (s : State) (f : Str → Str) : (s.modMe f).exchanged = s.exchanged := rfl
@[simp] theorem State.modMe_um (s : State) (f : Str → Str) : (s.modMe f).um = s.um := rfl
@[simp] theorem State.modMe_irecv (s : State) (f : Str → Str) : (s.modMe f).irecv = s.irecv := rfl
@[simp] theorem State.modMe_boots (s : State) (f : Str → Str) : (s.modMe f).boots = s.boots := rfl
@[simp] theorem State.modMe_regions (s : State) (f : Str → Str) : (s.modMe f).regions = s.regions := rfl
@[simp] theorem State.modMe_rtstat (s : State) (f : Str → Str) : (s.modMe f).rtstat = s.rtstat := rfl
@[simp] theorem State.modMe_draining (s : State) (f : Str → Str) : (s.modMe f).draining = s.draining := rfl
@[simp] theorem State.modMe_mem (s : State) (f : Str → Str) : (s.modMe f).mem = s.mem := rfl
@[simp] theorem State.modMe_pz (s : State) (f : Str → Str) : (s.modMe f).pz = s.pz := rfl
@[simp] theorem State.modMe_scr (s : State) (f : Str → Str) : (s.modMe f).scr = s.scr := rfl
@[simp] theorem State.modMe_scrPz (s : State) (f : Str → Str) : (s.modMe f).scrPz = s.scrPz := rfl
@[simp] theorem State.modMe_l1 (s : State) (f : Str → Str) : (s.modMe f).l1 = s.l1 := rfl
@[simp] theorem State.modMe_tlb (s : State) (f : Str → Str) : (s.modMe f).tlb = s.tlb := rfl
@[simp] theorem State.modMe_deadDies (s : State) (f : Str → Str) : (s.modMe f).deadDies = s.deadDies := rfl
@[simp] theorem State.modMe_dir (s : State) (f : Str → Str) : (s.modMe f).dir = s.dir := rfl
@[simp] theorem State.modMe_metas (s : State) (f : Str → Str) : (s.modMe f).metas = s.metas := rfl
@[simp] theorem State.modMe_inc (s : State) (f : Str → Str) : (s.modMe f).inc = s.inc := rfl
@[simp] theorem State.modMe_deadAgents (s : State) (f : Str → Str) : (s.modMe f).deadAgents = s.deadAgents := rfl
@[simp] theorem State.modMe_l2 (s : State) (f : Str → Str) : (s.modMe f).l2 = s.l2 := rfl
@[simp] theorem State.modMe_pend (s : State) (f : Str → Str) : (s.modMe f).pend = s.pend := rfl
@[simp] theorem State.modMe_closing (s : State) (f : Str → Str) : (s.modMe f).closing = s.closing := rfl
@[simp] theorem State.modMe_asleep (s : State) (f : Str → Str) : (s.modMe f).asleep = s.asleep := rfl
@[simp] theorem State.modMe_held (s : State) (f : Str → Str) : (s.modMe f).held = s.held := rfl
@[simp] theorem State.modMe_silent (s : State) (f : Str → Str) : (s.modMe f).silent = s.silent := rfl
@[simp] theorem State.modMe_llc (s : State) (f : Str → Str) : (s.modMe f).llc = s.llc := rfl
@[simp] theorem State.modMe_pchq (s : State) (f : Str → Str) : (s.modMe f).pchq = s.pchq := rfl
@[simp] theorem State.modMe_rows (s : State) (f : Str → Str) : (s.modMe f).rows = s.rows := rfl
@[simp] theorem State.modMe_refreshing (s : State) (f : Str → Str) : (s.modMe f).refreshing = s.refreshing := rfl
@[simp] theorem State.modMe_hot (s : State) (f : Str → Str) : (s.modMe f).hot = s.hot := rfl
@[simp] theorem State.modMe_seals (s : State) (f : Str → Str) : (s.modMe f).seals = s.seals := rfl
@[simp] theorem State.modMe_ranges (s : State) (f : Str → Str) : (s.modMe f).ranges = s.ranges := rfl
@[simp] theorem State.modMe_partials (s : State) (f : Str → Str) : (s.modMe f).partials = s.partials := rfl
@[simp] theorem State.modMe_views (s : State) (f : Str → Str) : (s.modMe f).views = s.views := rfl
@[simp] theorem State.modMe_derivs (s : State) (f : Str → Str) : (s.modMe f).derivs = s.derivs := rfl
@[simp] theorem State.modMe_timers (s : State) (f : Str → Str) : (s.modMe f).timers = s.timers := rfl
@[simp] theorem State.modMe_regs (s : State) (f : Str → Str) : (s.modMe f).regs = s.regs := rfl
@[simp] theorem State.modMe_abaci (s : State) (f : Str → Str) : (s.modMe f).abaci = s.abaci := rfl
@[simp] theorem State.modMe_launches (s : State) (f : Str → Str) : (s.modMe f).launches = s.launches := rfl
@[simp] theorem State.modMe_ldoor0 (s : State) (f : Str → Str) : (s.modMe f).ldoor0 = s.ldoor0 := rfl
@[simp] theorem State.modMe_ldoor1 (s : State) (f : Str → Str) : (s.modMe f).ldoor1 = s.ldoor1 := rfl
@[simp] theorem State.modMe_lstat (s : State) (f : Str → Str) : (s.modMe f).lstat = s.lstat := rfl
@[simp] theorem State.modMe_bazaar (s : State) (f : Str → Str) : (s.modMe f).bazaar = s.bazaar := rfl
@[simp] theorem State.modMe_drove (s : State) (f : Str → Str) : (s.modMe f).drove = s.drove := rfl
@[simp] theorem State.modMe_ctab (s : State) (f : Str → Str) : (s.modMe f).ctab = s.ctab := rfl
@[simp] theorem State.modMe_ctxcmd (s : State) (f : Str → Str) : (s.modMe f).ctxcmd = s.ctxcmd := rfl
@[simp] theorem State.modMe_ctxroot (s : State) (f : Str → Str) : (s.modMe f).ctxroot = s.ctxroot := rfl
@[simp] theorem State.modMe_ctxstat (s : State) (f : Str → Str) : (s.modMe f).ctxstat = s.ctxstat := rfl
@[simp] theorem State.modMe_images (s : State) (f : Str → Str) : (s.modMe f).images = s.images := rfl
@[simp] theorem State.modMe_imap (s : State) (f : Str → Str) : (s.modMe f).imap = s.imap := rfl
@[simp] theorem State.modMe_uids (s : State) (f : Str → Str) : (s.modMe f).uids = s.uids := rfl
@[simp] theorem State.modMe_resq (s : State) (f : Str → Str) : (s.modMe f).resq = s.resq := rfl
@[simp] theorem State.modMe_elog (s : State) (f : Str → Str) : (s.modMe f).elog = s.elog := rfl
@[simp] theorem State.modMe_elogLost (s : State) (f : Str → Str) : (s.modMe f).elogLost = s.elogLost := rfl
@[simp] theorem State.modMe_corr (s : State) (f : Str → Str) : (s.modMe f).corr = s.corr := rfl
@[simp] theorem State.modMe_apert (s : State) (f : Str → Str) : (s.modMe f).apert = s.apert := rfl
@[simp] theorem State.modMe_hipend (s : State) (f : Str → Str) : (s.modMe f).hipend = s.hipend := rfl
@[simp] theorem State.modMe_naesh (s : State) (f : Str → Str) : (s.modMe f).naesh = s.naesh := rfl
@[simp] theorem State.modMe_naeshDown (s : State) (f : Str → Str) : (s.modMe f).naeshDown = s.naeshDown := rfl
@[simp] theorem State.modMe_fat (s : State) (f : Str → Str) : (s.modMe f).fat = s.fat := rfl
@[simp] theorem State.modMe_cport (s : State) (f : Str → Str) : (s.modMe f).cport = s.cport := rfl
@[simp] theorem State.modMe_portIdle (s : State) (f : Str → Str) : (s.modMe f).portIdle = s.portIdle := rfl
@[simp] theorem State.modMe_routes (s : State) (f : Str → Str) : (s.modMe f).routes = s.routes := rfl
@[simp] theorem State.modMe_ring (s : State) (f : Str → Str) : (s.modMe f).ring = s.ring := rfl
@[simp] theorem State.modMe_token (s : State) (f : Str → Str) : (s.modMe f).token = s.token := rfl
@[simp] theorem State.modMe_remote (s : State) (f : Str → Str) : (s.modMe f).remote = s.remote := rfl
@[simp] theorem State.modMe_colls (s : State) (f : Str → Str) : (s.modMe f).colls = s.colls := rfl
@[simp] theorem State.modMe_hostGot (s : State) (f : Str → Str) : (s.modMe f).hostGot = s.hostGot := rfl
@[simp] theorem State.modMe_fabricGot (s : State) (f : Str → Str) : (s.modMe f).fabricGot = s.fabricGot := rfl
@[simp] theorem State.modMe_ready (s : State) (f : Str → Str) : (s.modMe f).ready = s.ready := rfl
@[simp] theorem State.modMe_pwrcap (s : State) (f : Str → Str) : (s.modMe f).pwrcap = s.pwrcap := rfl
@[simp] theorem State.modMe_therm (s : State) (f : Str → Str) : (s.modMe f).therm = s.therm := rfl
@[simp] theorem State.modMe_lsidle (s : State) (f : Str → Str) : (s.modMe f).lsidle = s.lsidle := rfl
@[simp] theorem State.modMe_mcmd (s : State) (f : Str → Str) : (s.modMe f).mcmd = s.mcmd := rfl
@[simp] theorem State.modMe_mstat (s : State) (f : Str → Str) : (s.modMe f).mstat = s.mstat := rfl
@[simp] theorem State.modMe_bootFailed (s : State) (f : Str → Str) : (s.modMe f).bootFailed = s.bootFailed := rfl
@[simp] theorem State.modMe_withhold (s : State) (f : Str → Str) : (s.modMe f).withhold = s.withhold := rfl
@[simp] theorem State.modMe_halved (s : State) (f : Str → Str) : (s.modMe f).halved = s.halved := rfl
@[simp] theorem State.modMe_throttled (s : State) (f : Str → Str) : (s.modMe f).throttled = s.throttled := rfl
@[simp] theorem State.modMe_agenda (s : State) (f : Str → Str) : (s.modMe f).agenda = s.agenda := rfl
@[simp] theorem State.modMe_ev (s : State) (f : Str → Str) : (s.modMe f).ev = s.ev := rfl
@[simp] theorem State.modMe_issue (s : State) (f : Str → Str) : (s.modMe f).issue = s.issue := rfl
@[simp] theorem State.modMe_cur (s : State) (f : Str → Str) : (s.modMe f).cur = s.cur := rfl
@[simp] theorem State.modMe_curAb (s : State) (f : Str → Str) : (s.modMe f).curAb = s.curAb := rfl
@[simp] theorem State.modMe_free (s : State) (f : Str → Str) : (s.modMe f).free = s.free := rfl
@[simp] theorem State.modMe_placings (s : State) (f : Str → Str) : (s.modMe f).placings = s.placings := rfl
@[simp] theorem State.modMe_walks (s : State) (f : Str → Str) : (s.modMe f).walks = s.walks := rfl
@[simp] theorem State.modMe_lost (s : State) (f : Str → Str) : (s.modMe f).lost = s.lost := rfl
@[simp] theorem State.modMe_vreads (s : State) (f : Str → Str) : (s.modMe f).vreads = s.vreads := rfl
@[simp] theorem State.modMe_dones (s : State) (f : Str → Str) : (s.modMe f).dones = s.dones := rfl
@[simp] theorem State.modMe_counted (s : State) (f : Str → Str) : (s.modMe f).counted = s.counted := rfl
@[simp] theorem State.modMe_reports (s : State) (f : Str → Str) : (s.modMe f).reports = s.reports := rfl
@[simp] theorem State.modMe_lineq (s : State) (f : Str → Str) : (s.modMe f).lineq = s.lineq := rfl
@[simp] theorem State.modMe_bars (s : State) (f : Str → Str) : (s.modMe f).bars = s.bars := rfl
@[simp] theorem State.modMe_bkPages (s : State) (f : Str → Str) : (s.modMe f).bkPages = s.bkPages := rfl

-- ## Memory bytes written

@[simp] theorem State.poke_acc (s : State) (cs : List Host.Cell) : (s.poke cs).acc = s.acc := rfl
@[simp] theorem State.poke_ppm (s : State) (cs : List Host.Cell) : (s.poke cs).ppm = s.ppm := rfl
@[simp] theorem State.poke_cyc (s : State) (cs : List Host.Cell) : (s.poke cs).cyc = s.cyc := rfl
@[simp] theorem State.poke_pskew (s : State) (cs : List Host.Cell) : (s.poke cs).pskew = s.pskew := rfl
@[simp] theorem State.poke_timeLost (s : State) (cs : List Host.Cell) : (s.poke cs).timeLost = s.timeLost := rfl
@[simp] theorem State.poke_exchanged (s : State) (cs : List Host.Cell) : (s.poke cs).exchanged = s.exchanged := rfl
@[simp] theorem State.poke_um (s : State) (cs : List Host.Cell) : (s.poke cs).um = s.um := rfl
@[simp] theorem State.poke_irecv (s : State) (cs : List Host.Cell) : (s.poke cs).irecv = s.irecv := rfl
@[simp] theorem State.poke_boots (s : State) (cs : List Host.Cell) : (s.poke cs).boots = s.boots := rfl
@[simp] theorem State.poke_cores (s : State) (cs : List Host.Cell) : (s.poke cs).cores = s.cores := rfl
@[simp] theorem State.poke_regions (s : State) (cs : List Host.Cell) : (s.poke cs).regions = s.regions := rfl
@[simp] theorem State.poke_rtstat (s : State) (cs : List Host.Cell) : (s.poke cs).rtstat = s.rtstat := rfl
@[simp] theorem State.poke_draining (s : State) (cs : List Host.Cell) : (s.poke cs).draining = s.draining := rfl
@[simp] theorem State.poke_pz (s : State) (cs : List Host.Cell) : (s.poke cs).pz = s.pz := rfl
@[simp] theorem State.poke_scr (s : State) (cs : List Host.Cell) : (s.poke cs).scr = s.scr := rfl
@[simp] theorem State.poke_scrPz (s : State) (cs : List Host.Cell) : (s.poke cs).scrPz = s.scrPz := rfl
@[simp] theorem State.poke_l1 (s : State) (cs : List Host.Cell) : (s.poke cs).l1 = s.l1 := rfl
@[simp] theorem State.poke_tlb (s : State) (cs : List Host.Cell) : (s.poke cs).tlb = s.tlb := rfl
@[simp] theorem State.poke_deadDies (s : State) (cs : List Host.Cell) : (s.poke cs).deadDies = s.deadDies := rfl
@[simp] theorem State.poke_dir (s : State) (cs : List Host.Cell) : (s.poke cs).dir = s.dir := rfl
@[simp] theorem State.poke_metas (s : State) (cs : List Host.Cell) : (s.poke cs).metas = s.metas := rfl
@[simp] theorem State.poke_inc (s : State) (cs : List Host.Cell) : (s.poke cs).inc = s.inc := rfl
@[simp] theorem State.poke_deadAgents (s : State) (cs : List Host.Cell) : (s.poke cs).deadAgents = s.deadAgents := rfl
@[simp] theorem State.poke_l2 (s : State) (cs : List Host.Cell) : (s.poke cs).l2 = s.l2 := rfl
@[simp] theorem State.poke_pend (s : State) (cs : List Host.Cell) : (s.poke cs).pend = s.pend := rfl
@[simp] theorem State.poke_closing (s : State) (cs : List Host.Cell) : (s.poke cs).closing = s.closing := rfl
@[simp] theorem State.poke_asleep (s : State) (cs : List Host.Cell) : (s.poke cs).asleep = s.asleep := rfl
@[simp] theorem State.poke_held (s : State) (cs : List Host.Cell) : (s.poke cs).held = s.held := rfl
@[simp] theorem State.poke_silent (s : State) (cs : List Host.Cell) : (s.poke cs).silent = s.silent := rfl
@[simp] theorem State.poke_llc (s : State) (cs : List Host.Cell) : (s.poke cs).llc = s.llc := rfl
@[simp] theorem State.poke_pchq (s : State) (cs : List Host.Cell) : (s.poke cs).pchq = s.pchq := rfl
@[simp] theorem State.poke_rows (s : State) (cs : List Host.Cell) : (s.poke cs).rows = s.rows := rfl
@[simp] theorem State.poke_refreshing (s : State) (cs : List Host.Cell) : (s.poke cs).refreshing = s.refreshing := rfl
@[simp] theorem State.poke_hot (s : State) (cs : List Host.Cell) : (s.poke cs).hot = s.hot := rfl
@[simp] theorem State.poke_seals (s : State) (cs : List Host.Cell) : (s.poke cs).seals = s.seals := rfl
@[simp] theorem State.poke_ranges (s : State) (cs : List Host.Cell) : (s.poke cs).ranges = s.ranges := rfl
@[simp] theorem State.poke_partials (s : State) (cs : List Host.Cell) : (s.poke cs).partials = s.partials := rfl
@[simp] theorem State.poke_views (s : State) (cs : List Host.Cell) : (s.poke cs).views = s.views := rfl
@[simp] theorem State.poke_derivs (s : State) (cs : List Host.Cell) : (s.poke cs).derivs = s.derivs := rfl
@[simp] theorem State.poke_timers (s : State) (cs : List Host.Cell) : (s.poke cs).timers = s.timers := rfl
@[simp] theorem State.poke_regs (s : State) (cs : List Host.Cell) : (s.poke cs).regs = s.regs := rfl
@[simp] theorem State.poke_abaci (s : State) (cs : List Host.Cell) : (s.poke cs).abaci = s.abaci := rfl
@[simp] theorem State.poke_launches (s : State) (cs : List Host.Cell) : (s.poke cs).launches = s.launches := rfl
@[simp] theorem State.poke_ldoor0 (s : State) (cs : List Host.Cell) : (s.poke cs).ldoor0 = s.ldoor0 := rfl
@[simp] theorem State.poke_ldoor1 (s : State) (cs : List Host.Cell) : (s.poke cs).ldoor1 = s.ldoor1 := rfl
@[simp] theorem State.poke_lstat (s : State) (cs : List Host.Cell) : (s.poke cs).lstat = s.lstat := rfl
@[simp] theorem State.poke_bazaar (s : State) (cs : List Host.Cell) : (s.poke cs).bazaar = s.bazaar := rfl
@[simp] theorem State.poke_drove (s : State) (cs : List Host.Cell) : (s.poke cs).drove = s.drove := rfl
@[simp] theorem State.poke_ctab (s : State) (cs : List Host.Cell) : (s.poke cs).ctab = s.ctab := rfl
@[simp] theorem State.poke_ctxcmd (s : State) (cs : List Host.Cell) : (s.poke cs).ctxcmd = s.ctxcmd := rfl
@[simp] theorem State.poke_ctxroot (s : State) (cs : List Host.Cell) : (s.poke cs).ctxroot = s.ctxroot := rfl
@[simp] theorem State.poke_ctxstat (s : State) (cs : List Host.Cell) : (s.poke cs).ctxstat = s.ctxstat := rfl
@[simp] theorem State.poke_images (s : State) (cs : List Host.Cell) : (s.poke cs).images = s.images := rfl
@[simp] theorem State.poke_imap (s : State) (cs : List Host.Cell) : (s.poke cs).imap = s.imap := rfl
@[simp] theorem State.poke_uids (s : State) (cs : List Host.Cell) : (s.poke cs).uids = s.uids := rfl
@[simp] theorem State.poke_resq (s : State) (cs : List Host.Cell) : (s.poke cs).resq = s.resq := rfl
@[simp] theorem State.poke_elog (s : State) (cs : List Host.Cell) : (s.poke cs).elog = s.elog := rfl
@[simp] theorem State.poke_elogLost (s : State) (cs : List Host.Cell) : (s.poke cs).elogLost = s.elogLost := rfl
@[simp] theorem State.poke_corr (s : State) (cs : List Host.Cell) : (s.poke cs).corr = s.corr := rfl
@[simp] theorem State.poke_apert (s : State) (cs : List Host.Cell) : (s.poke cs).apert = s.apert := rfl
@[simp] theorem State.poke_hipend (s : State) (cs : List Host.Cell) : (s.poke cs).hipend = s.hipend := rfl
@[simp] theorem State.poke_naesh (s : State) (cs : List Host.Cell) : (s.poke cs).naesh = s.naesh := rfl
@[simp] theorem State.poke_naeshDown (s : State) (cs : List Host.Cell) : (s.poke cs).naeshDown = s.naeshDown := rfl
@[simp] theorem State.poke_fat (s : State) (cs : List Host.Cell) : (s.poke cs).fat = s.fat := rfl
@[simp] theorem State.poke_cport (s : State) (cs : List Host.Cell) : (s.poke cs).cport = s.cport := rfl
@[simp] theorem State.poke_portIdle (s : State) (cs : List Host.Cell) : (s.poke cs).portIdle = s.portIdle := rfl
@[simp] theorem State.poke_routes (s : State) (cs : List Host.Cell) : (s.poke cs).routes = s.routes := rfl
@[simp] theorem State.poke_ring (s : State) (cs : List Host.Cell) : (s.poke cs).ring = s.ring := rfl
@[simp] theorem State.poke_token (s : State) (cs : List Host.Cell) : (s.poke cs).token = s.token := rfl
@[simp] theorem State.poke_remote (s : State) (cs : List Host.Cell) : (s.poke cs).remote = s.remote := rfl
@[simp] theorem State.poke_colls (s : State) (cs : List Host.Cell) : (s.poke cs).colls = s.colls := rfl
@[simp] theorem State.poke_hostGot (s : State) (cs : List Host.Cell) : (s.poke cs).hostGot = s.hostGot := rfl
@[simp] theorem State.poke_fabricGot (s : State) (cs : List Host.Cell) : (s.poke cs).fabricGot = s.fabricGot := rfl
@[simp] theorem State.poke_ready (s : State) (cs : List Host.Cell) : (s.poke cs).ready = s.ready := rfl
@[simp] theorem State.poke_pwrcap (s : State) (cs : List Host.Cell) : (s.poke cs).pwrcap = s.pwrcap := rfl
@[simp] theorem State.poke_therm (s : State) (cs : List Host.Cell) : (s.poke cs).therm = s.therm := rfl
@[simp] theorem State.poke_lsidle (s : State) (cs : List Host.Cell) : (s.poke cs).lsidle = s.lsidle := rfl
@[simp] theorem State.poke_mcmd (s : State) (cs : List Host.Cell) : (s.poke cs).mcmd = s.mcmd := rfl
@[simp] theorem State.poke_mstat (s : State) (cs : List Host.Cell) : (s.poke cs).mstat = s.mstat := rfl
@[simp] theorem State.poke_bootFailed (s : State) (cs : List Host.Cell) : (s.poke cs).bootFailed = s.bootFailed := rfl
@[simp] theorem State.poke_withhold (s : State) (cs : List Host.Cell) : (s.poke cs).withhold = s.withhold := rfl
@[simp] theorem State.poke_halved (s : State) (cs : List Host.Cell) : (s.poke cs).halved = s.halved := rfl
@[simp] theorem State.poke_throttled (s : State) (cs : List Host.Cell) : (s.poke cs).throttled = s.throttled := rfl
@[simp] theorem State.poke_agenda (s : State) (cs : List Host.Cell) : (s.poke cs).agenda = s.agenda := rfl
@[simp] theorem State.poke_ev (s : State) (cs : List Host.Cell) : (s.poke cs).ev = s.ev := rfl
@[simp] theorem State.poke_issue (s : State) (cs : List Host.Cell) : (s.poke cs).issue = s.issue := rfl
@[simp] theorem State.poke_cur (s : State) (cs : List Host.Cell) : (s.poke cs).cur = s.cur := rfl
@[simp] theorem State.poke_curAb (s : State) (cs : List Host.Cell) : (s.poke cs).curAb = s.curAb := rfl
@[simp] theorem State.poke_free (s : State) (cs : List Host.Cell) : (s.poke cs).free = s.free := rfl

@[simp] theorem State.poke_mem (s : State) (cs : List Host.Cell) : (s.poke cs).mem = cellPut s.mem cs := rfl
@[simp] theorem State.poke_placings (s : State) (cs : List Host.Cell) : (s.poke cs).placings = s.placings := rfl
@[simp] theorem State.poke_walks (s : State) (cs : List Host.Cell) : (s.poke cs).walks = s.walks := rfl
@[simp] theorem State.poke_lost (s : State) (cs : List Host.Cell) : (s.poke cs).lost = s.lost := rfl
@[simp] theorem State.poke_vreads (s : State) (cs : List Host.Cell) : (s.poke cs).vreads = s.vreads := rfl
@[simp] theorem State.poke_dones (s : State) (cs : List Host.Cell) : (s.poke cs).dones = s.dones := rfl
@[simp] theorem State.poke_counted (s : State) (cs : List Host.Cell) : (s.poke cs).counted = s.counted := rfl
@[simp] theorem State.poke_reports (s : State) (cs : List Host.Cell) : (s.poke cs).reports = s.reports := rfl
@[simp] theorem State.poke_lineq (s : State) (cs : List Host.Cell) : (s.poke cs).lineq = s.lineq := rfl
@[simp] theorem State.poke_bars (s : State) (cs : List Host.Cell) : (s.poke cs).bars = s.bars := rfl
@[simp] theorem State.poke_bkPages (s : State) (cs : List Host.Cell) : (s.poke cs).bkPages = s.bkPages := rfl

-- ## Scratchpad bytes written

@[simp] theorem State.scrPut_acc (s : State) (cs : List Host.Cell) : (s.scrPut cs).acc = s.acc := rfl
@[simp] theorem State.scrPut_ppm (s : State) (cs : List Host.Cell) : (s.scrPut cs).ppm = s.ppm := rfl
@[simp] theorem State.scrPut_cyc (s : State) (cs : List Host.Cell) : (s.scrPut cs).cyc = s.cyc := rfl
@[simp] theorem State.scrPut_pskew (s : State) (cs : List Host.Cell) : (s.scrPut cs).pskew = s.pskew := rfl
@[simp] theorem State.scrPut_timeLost (s : State) (cs : List Host.Cell) : (s.scrPut cs).timeLost = s.timeLost := rfl
@[simp] theorem State.scrPut_exchanged (s : State) (cs : List Host.Cell) : (s.scrPut cs).exchanged = s.exchanged := rfl
@[simp] theorem State.scrPut_um (s : State) (cs : List Host.Cell) : (s.scrPut cs).um = s.um := rfl
@[simp] theorem State.scrPut_irecv (s : State) (cs : List Host.Cell) : (s.scrPut cs).irecv = s.irecv := rfl
@[simp] theorem State.scrPut_boots (s : State) (cs : List Host.Cell) : (s.scrPut cs).boots = s.boots := rfl
@[simp] theorem State.scrPut_cores (s : State) (cs : List Host.Cell) : (s.scrPut cs).cores = s.cores := rfl
@[simp] theorem State.scrPut_regions (s : State) (cs : List Host.Cell) : (s.scrPut cs).regions = s.regions := rfl
@[simp] theorem State.scrPut_rtstat (s : State) (cs : List Host.Cell) : (s.scrPut cs).rtstat = s.rtstat := rfl
@[simp] theorem State.scrPut_draining (s : State) (cs : List Host.Cell) : (s.scrPut cs).draining = s.draining := rfl
@[simp] theorem State.scrPut_mem (s : State) (cs : List Host.Cell) : (s.scrPut cs).mem = s.mem := rfl
@[simp] theorem State.scrPut_pz (s : State) (cs : List Host.Cell) : (s.scrPut cs).pz = s.pz := rfl
@[simp] theorem State.scrPut_l1 (s : State) (cs : List Host.Cell) : (s.scrPut cs).l1 = s.l1 := rfl
@[simp] theorem State.scrPut_tlb (s : State) (cs : List Host.Cell) : (s.scrPut cs).tlb = s.tlb := rfl
@[simp] theorem State.scrPut_deadDies (s : State) (cs : List Host.Cell) : (s.scrPut cs).deadDies = s.deadDies := rfl
@[simp] theorem State.scrPut_dir (s : State) (cs : List Host.Cell) : (s.scrPut cs).dir = s.dir := rfl
@[simp] theorem State.scrPut_metas (s : State) (cs : List Host.Cell) : (s.scrPut cs).metas = s.metas := rfl
@[simp] theorem State.scrPut_inc (s : State) (cs : List Host.Cell) : (s.scrPut cs).inc = s.inc := rfl
@[simp] theorem State.scrPut_deadAgents (s : State) (cs : List Host.Cell) : (s.scrPut cs).deadAgents = s.deadAgents := rfl
@[simp] theorem State.scrPut_l2 (s : State) (cs : List Host.Cell) : (s.scrPut cs).l2 = s.l2 := rfl
@[simp] theorem State.scrPut_pend (s : State) (cs : List Host.Cell) : (s.scrPut cs).pend = s.pend := rfl
@[simp] theorem State.scrPut_closing (s : State) (cs : List Host.Cell) : (s.scrPut cs).closing = s.closing := rfl
@[simp] theorem State.scrPut_asleep (s : State) (cs : List Host.Cell) : (s.scrPut cs).asleep = s.asleep := rfl
@[simp] theorem State.scrPut_held (s : State) (cs : List Host.Cell) : (s.scrPut cs).held = s.held := rfl
@[simp] theorem State.scrPut_silent (s : State) (cs : List Host.Cell) : (s.scrPut cs).silent = s.silent := rfl
@[simp] theorem State.scrPut_llc (s : State) (cs : List Host.Cell) : (s.scrPut cs).llc = s.llc := rfl
@[simp] theorem State.scrPut_pchq (s : State) (cs : List Host.Cell) : (s.scrPut cs).pchq = s.pchq := rfl
@[simp] theorem State.scrPut_rows (s : State) (cs : List Host.Cell) : (s.scrPut cs).rows = s.rows := rfl
@[simp] theorem State.scrPut_refreshing (s : State) (cs : List Host.Cell) : (s.scrPut cs).refreshing = s.refreshing := rfl
@[simp] theorem State.scrPut_hot (s : State) (cs : List Host.Cell) : (s.scrPut cs).hot = s.hot := rfl
@[simp] theorem State.scrPut_seals (s : State) (cs : List Host.Cell) : (s.scrPut cs).seals = s.seals := rfl
@[simp] theorem State.scrPut_ranges (s : State) (cs : List Host.Cell) : (s.scrPut cs).ranges = s.ranges := rfl
@[simp] theorem State.scrPut_partials (s : State) (cs : List Host.Cell) : (s.scrPut cs).partials = s.partials := rfl
@[simp] theorem State.scrPut_views (s : State) (cs : List Host.Cell) : (s.scrPut cs).views = s.views := rfl
@[simp] theorem State.scrPut_derivs (s : State) (cs : List Host.Cell) : (s.scrPut cs).derivs = s.derivs := rfl
@[simp] theorem State.scrPut_timers (s : State) (cs : List Host.Cell) : (s.scrPut cs).timers = s.timers := rfl
@[simp] theorem State.scrPut_regs (s : State) (cs : List Host.Cell) : (s.scrPut cs).regs = s.regs := rfl
@[simp] theorem State.scrPut_abaci (s : State) (cs : List Host.Cell) : (s.scrPut cs).abaci = s.abaci := rfl
@[simp] theorem State.scrPut_launches (s : State) (cs : List Host.Cell) : (s.scrPut cs).launches = s.launches := rfl
@[simp] theorem State.scrPut_ldoor0 (s : State) (cs : List Host.Cell) : (s.scrPut cs).ldoor0 = s.ldoor0 := rfl
@[simp] theorem State.scrPut_ldoor1 (s : State) (cs : List Host.Cell) : (s.scrPut cs).ldoor1 = s.ldoor1 := rfl
@[simp] theorem State.scrPut_lstat (s : State) (cs : List Host.Cell) : (s.scrPut cs).lstat = s.lstat := rfl
@[simp] theorem State.scrPut_bazaar (s : State) (cs : List Host.Cell) : (s.scrPut cs).bazaar = s.bazaar := rfl
@[simp] theorem State.scrPut_drove (s : State) (cs : List Host.Cell) : (s.scrPut cs).drove = s.drove := rfl
@[simp] theorem State.scrPut_ctab (s : State) (cs : List Host.Cell) : (s.scrPut cs).ctab = s.ctab := rfl
@[simp] theorem State.scrPut_ctxcmd (s : State) (cs : List Host.Cell) : (s.scrPut cs).ctxcmd = s.ctxcmd := rfl
@[simp] theorem State.scrPut_ctxroot (s : State) (cs : List Host.Cell) : (s.scrPut cs).ctxroot = s.ctxroot := rfl
@[simp] theorem State.scrPut_ctxstat (s : State) (cs : List Host.Cell) : (s.scrPut cs).ctxstat = s.ctxstat := rfl
@[simp] theorem State.scrPut_images (s : State) (cs : List Host.Cell) : (s.scrPut cs).images = s.images := rfl
@[simp] theorem State.scrPut_imap (s : State) (cs : List Host.Cell) : (s.scrPut cs).imap = s.imap := rfl
@[simp] theorem State.scrPut_uids (s : State) (cs : List Host.Cell) : (s.scrPut cs).uids = s.uids := rfl
@[simp] theorem State.scrPut_resq (s : State) (cs : List Host.Cell) : (s.scrPut cs).resq = s.resq := rfl
@[simp] theorem State.scrPut_elog (s : State) (cs : List Host.Cell) : (s.scrPut cs).elog = s.elog := rfl
@[simp] theorem State.scrPut_elogLost (s : State) (cs : List Host.Cell) : (s.scrPut cs).elogLost = s.elogLost := rfl
@[simp] theorem State.scrPut_corr (s : State) (cs : List Host.Cell) : (s.scrPut cs).corr = s.corr := rfl
@[simp] theorem State.scrPut_apert (s : State) (cs : List Host.Cell) : (s.scrPut cs).apert = s.apert := rfl
@[simp] theorem State.scrPut_hipend (s : State) (cs : List Host.Cell) : (s.scrPut cs).hipend = s.hipend := rfl
@[simp] theorem State.scrPut_naesh (s : State) (cs : List Host.Cell) : (s.scrPut cs).naesh = s.naesh := rfl
@[simp] theorem State.scrPut_naeshDown (s : State) (cs : List Host.Cell) : (s.scrPut cs).naeshDown = s.naeshDown := rfl
@[simp] theorem State.scrPut_fat (s : State) (cs : List Host.Cell) : (s.scrPut cs).fat = s.fat := rfl
@[simp] theorem State.scrPut_cport (s : State) (cs : List Host.Cell) : (s.scrPut cs).cport = s.cport := rfl
@[simp] theorem State.scrPut_portIdle (s : State) (cs : List Host.Cell) : (s.scrPut cs).portIdle = s.portIdle := rfl
@[simp] theorem State.scrPut_routes (s : State) (cs : List Host.Cell) : (s.scrPut cs).routes = s.routes := rfl
@[simp] theorem State.scrPut_ring (s : State) (cs : List Host.Cell) : (s.scrPut cs).ring = s.ring := rfl
@[simp] theorem State.scrPut_token (s : State) (cs : List Host.Cell) : (s.scrPut cs).token = s.token := rfl
@[simp] theorem State.scrPut_remote (s : State) (cs : List Host.Cell) : (s.scrPut cs).remote = s.remote := rfl
@[simp] theorem State.scrPut_colls (s : State) (cs : List Host.Cell) : (s.scrPut cs).colls = s.colls := rfl
@[simp] theorem State.scrPut_hostGot (s : State) (cs : List Host.Cell) : (s.scrPut cs).hostGot = s.hostGot := rfl
@[simp] theorem State.scrPut_fabricGot (s : State) (cs : List Host.Cell) : (s.scrPut cs).fabricGot = s.fabricGot := rfl
@[simp] theorem State.scrPut_ready (s : State) (cs : List Host.Cell) : (s.scrPut cs).ready = s.ready := rfl
@[simp] theorem State.scrPut_pwrcap (s : State) (cs : List Host.Cell) : (s.scrPut cs).pwrcap = s.pwrcap := rfl
@[simp] theorem State.scrPut_therm (s : State) (cs : List Host.Cell) : (s.scrPut cs).therm = s.therm := rfl
@[simp] theorem State.scrPut_lsidle (s : State) (cs : List Host.Cell) : (s.scrPut cs).lsidle = s.lsidle := rfl
@[simp] theorem State.scrPut_mcmd (s : State) (cs : List Host.Cell) : (s.scrPut cs).mcmd = s.mcmd := rfl
@[simp] theorem State.scrPut_mstat (s : State) (cs : List Host.Cell) : (s.scrPut cs).mstat = s.mstat := rfl
@[simp] theorem State.scrPut_bootFailed (s : State) (cs : List Host.Cell) : (s.scrPut cs).bootFailed = s.bootFailed := rfl
@[simp] theorem State.scrPut_withhold (s : State) (cs : List Host.Cell) : (s.scrPut cs).withhold = s.withhold := rfl
@[simp] theorem State.scrPut_halved (s : State) (cs : List Host.Cell) : (s.scrPut cs).halved = s.halved := rfl
@[simp] theorem State.scrPut_throttled (s : State) (cs : List Host.Cell) : (s.scrPut cs).throttled = s.throttled := rfl
@[simp] theorem State.scrPut_agenda (s : State) (cs : List Host.Cell) : (s.scrPut cs).agenda = s.agenda := rfl
@[simp] theorem State.scrPut_ev (s : State) (cs : List Host.Cell) : (s.scrPut cs).ev = s.ev := rfl
@[simp] theorem State.scrPut_issue (s : State) (cs : List Host.Cell) : (s.scrPut cs).issue = s.issue := rfl
@[simp] theorem State.scrPut_cur (s : State) (cs : List Host.Cell) : (s.scrPut cs).cur = s.cur := rfl
@[simp] theorem State.scrPut_curAb (s : State) (cs : List Host.Cell) : (s.scrPut cs).curAb = s.curAb := rfl
@[simp] theorem State.scrPut_free (s : State) (cs : List Host.Cell) : (s.scrPut cs).free = s.free := rfl

@[simp] theorem State.scrPut_scr (s : State) (cs : List Host.Cell) : (s.scrPut cs).scr = cellPut s.scr cs := rfl
@[simp] theorem State.scrPut_placings (s : State) (cs : List Host.Cell) : (s.scrPut cs).placings = s.placings := rfl
@[simp] theorem State.scrPut_walks (s : State) (cs : List Host.Cell) : (s.scrPut cs).walks = s.walks := rfl
@[simp] theorem State.scrPut_lost (s : State) (cs : List Host.Cell) : (s.scrPut cs).lost = s.lost := rfl
@[simp] theorem State.scrPut_vreads (s : State) (cs : List Host.Cell) : (s.scrPut cs).vreads = s.vreads := rfl
@[simp] theorem State.scrPut_dones (s : State) (cs : List Host.Cell) : (s.scrPut cs).dones = s.dones := rfl
@[simp] theorem State.scrPut_counted (s : State) (cs : List Host.Cell) : (s.scrPut cs).counted = s.counted := rfl
@[simp] theorem State.scrPut_reports (s : State) (cs : List Host.Cell) : (s.scrPut cs).reports = s.reports := rfl
@[simp] theorem State.scrPut_lineq (s : State) (cs : List Host.Cell) : (s.scrPut cs).lineq = s.lineq := rfl
@[simp] theorem State.scrPut_bars (s : State) (cs : List Host.Cell) : (s.scrPut cs).bars = s.bars := rfl
@[simp] theorem State.scrPut_bkPages (s : State) (cs : List Host.Cell) : (s.scrPut cs).bkPages = s.bkPages := rfl

-- ## An event put on the agenda

@[simp] theorem State.soon_acc (s : State) (e : Ev) : (s.soon e).acc = s.acc := rfl
@[simp] theorem State.soon_ppm (s : State) (e : Ev) : (s.soon e).ppm = s.ppm := rfl
@[simp] theorem State.soon_cyc (s : State) (e : Ev) : (s.soon e).cyc = s.cyc := rfl
@[simp] theorem State.soon_pskew (s : State) (e : Ev) : (s.soon e).pskew = s.pskew := rfl
@[simp] theorem State.soon_timeLost (s : State) (e : Ev) : (s.soon e).timeLost = s.timeLost := rfl
@[simp] theorem State.soon_exchanged (s : State) (e : Ev) : (s.soon e).exchanged = s.exchanged := rfl
@[simp] theorem State.soon_um (s : State) (e : Ev) : (s.soon e).um = s.um := rfl
@[simp] theorem State.soon_irecv (s : State) (e : Ev) : (s.soon e).irecv = s.irecv := rfl
@[simp] theorem State.soon_boots (s : State) (e : Ev) : (s.soon e).boots = s.boots := rfl
@[simp] theorem State.soon_cores (s : State) (e : Ev) : (s.soon e).cores = s.cores := rfl
@[simp] theorem State.soon_regions (s : State) (e : Ev) : (s.soon e).regions = s.regions := rfl
@[simp] theorem State.soon_rtstat (s : State) (e : Ev) : (s.soon e).rtstat = s.rtstat := rfl
@[simp] theorem State.soon_draining (s : State) (e : Ev) : (s.soon e).draining = s.draining := rfl
@[simp] theorem State.soon_mem (s : State) (e : Ev) : (s.soon e).mem = s.mem := rfl
@[simp] theorem State.soon_pz (s : State) (e : Ev) : (s.soon e).pz = s.pz := rfl
@[simp] theorem State.soon_scr (s : State) (e : Ev) : (s.soon e).scr = s.scr := rfl
@[simp] theorem State.soon_scrPz (s : State) (e : Ev) : (s.soon e).scrPz = s.scrPz := rfl
@[simp] theorem State.soon_l1 (s : State) (e : Ev) : (s.soon e).l1 = s.l1 := rfl
@[simp] theorem State.soon_tlb (s : State) (e : Ev) : (s.soon e).tlb = s.tlb := rfl
@[simp] theorem State.soon_deadDies (s : State) (e : Ev) : (s.soon e).deadDies = s.deadDies := rfl
@[simp] theorem State.soon_dir (s : State) (e : Ev) : (s.soon e).dir = s.dir := rfl
@[simp] theorem State.soon_metas (s : State) (e : Ev) : (s.soon e).metas = s.metas := rfl
@[simp] theorem State.soon_inc (s : State) (e : Ev) : (s.soon e).inc = s.inc := rfl
@[simp] theorem State.soon_deadAgents (s : State) (e : Ev) : (s.soon e).deadAgents = s.deadAgents := rfl
@[simp] theorem State.soon_l2 (s : State) (e : Ev) : (s.soon e).l2 = s.l2 := rfl
@[simp] theorem State.soon_pend (s : State) (e : Ev) : (s.soon e).pend = s.pend := rfl
@[simp] theorem State.soon_closing (s : State) (e : Ev) : (s.soon e).closing = s.closing := rfl
@[simp] theorem State.soon_asleep (s : State) (e : Ev) : (s.soon e).asleep = s.asleep := rfl
@[simp] theorem State.soon_held (s : State) (e : Ev) : (s.soon e).held = s.held := rfl
@[simp] theorem State.soon_silent (s : State) (e : Ev) : (s.soon e).silent = s.silent := rfl
@[simp] theorem State.soon_llc (s : State) (e : Ev) : (s.soon e).llc = s.llc := rfl
@[simp] theorem State.soon_pchq (s : State) (e : Ev) : (s.soon e).pchq = s.pchq := rfl
@[simp] theorem State.soon_rows (s : State) (e : Ev) : (s.soon e).rows = s.rows := rfl
@[simp] theorem State.soon_refreshing (s : State) (e : Ev) : (s.soon e).refreshing = s.refreshing := rfl
@[simp] theorem State.soon_hot (s : State) (e : Ev) : (s.soon e).hot = s.hot := rfl
@[simp] theorem State.soon_seals (s : State) (e : Ev) : (s.soon e).seals = s.seals := rfl
@[simp] theorem State.soon_ranges (s : State) (e : Ev) : (s.soon e).ranges = s.ranges := rfl
@[simp] theorem State.soon_partials (s : State) (e : Ev) : (s.soon e).partials = s.partials := rfl
@[simp] theorem State.soon_views (s : State) (e : Ev) : (s.soon e).views = s.views := rfl
@[simp] theorem State.soon_derivs (s : State) (e : Ev) : (s.soon e).derivs = s.derivs := rfl
@[simp] theorem State.soon_timers (s : State) (e : Ev) : (s.soon e).timers = s.timers := rfl
@[simp] theorem State.soon_regs (s : State) (e : Ev) : (s.soon e).regs = s.regs := rfl
@[simp] theorem State.soon_abaci (s : State) (e : Ev) : (s.soon e).abaci = s.abaci := rfl
@[simp] theorem State.soon_launches (s : State) (e : Ev) : (s.soon e).launches = s.launches := rfl
@[simp] theorem State.soon_ldoor0 (s : State) (e : Ev) : (s.soon e).ldoor0 = s.ldoor0 := rfl
@[simp] theorem State.soon_ldoor1 (s : State) (e : Ev) : (s.soon e).ldoor1 = s.ldoor1 := rfl
@[simp] theorem State.soon_lstat (s : State) (e : Ev) : (s.soon e).lstat = s.lstat := rfl
@[simp] theorem State.soon_bazaar (s : State) (e : Ev) : (s.soon e).bazaar = s.bazaar := rfl
@[simp] theorem State.soon_drove (s : State) (e : Ev) : (s.soon e).drove = s.drove := rfl
@[simp] theorem State.soon_ctab (s : State) (e : Ev) : (s.soon e).ctab = s.ctab := rfl
@[simp] theorem State.soon_ctxcmd (s : State) (e : Ev) : (s.soon e).ctxcmd = s.ctxcmd := rfl
@[simp] theorem State.soon_ctxroot (s : State) (e : Ev) : (s.soon e).ctxroot = s.ctxroot := rfl
@[simp] theorem State.soon_ctxstat (s : State) (e : Ev) : (s.soon e).ctxstat = s.ctxstat := rfl
@[simp] theorem State.soon_images (s : State) (e : Ev) : (s.soon e).images = s.images := rfl
@[simp] theorem State.soon_imap (s : State) (e : Ev) : (s.soon e).imap = s.imap := rfl
@[simp] theorem State.soon_uids (s : State) (e : Ev) : (s.soon e).uids = s.uids := rfl
@[simp] theorem State.soon_resq (s : State) (e : Ev) : (s.soon e).resq = s.resq := rfl
@[simp] theorem State.soon_elog (s : State) (e : Ev) : (s.soon e).elog = s.elog := rfl
@[simp] theorem State.soon_elogLost (s : State) (e : Ev) : (s.soon e).elogLost = s.elogLost := rfl
@[simp] theorem State.soon_corr (s : State) (e : Ev) : (s.soon e).corr = s.corr := rfl
@[simp] theorem State.soon_apert (s : State) (e : Ev) : (s.soon e).apert = s.apert := rfl
@[simp] theorem State.soon_hipend (s : State) (e : Ev) : (s.soon e).hipend = s.hipend := rfl
@[simp] theorem State.soon_naesh (s : State) (e : Ev) : (s.soon e).naesh = s.naesh := rfl
@[simp] theorem State.soon_naeshDown (s : State) (e : Ev) : (s.soon e).naeshDown = s.naeshDown := rfl
@[simp] theorem State.soon_fat (s : State) (e : Ev) : (s.soon e).fat = s.fat := rfl
@[simp] theorem State.soon_cport (s : State) (e : Ev) : (s.soon e).cport = s.cport := rfl
@[simp] theorem State.soon_portIdle (s : State) (e : Ev) : (s.soon e).portIdle = s.portIdle := rfl
@[simp] theorem State.soon_routes (s : State) (e : Ev) : (s.soon e).routes = s.routes := rfl
@[simp] theorem State.soon_ring (s : State) (e : Ev) : (s.soon e).ring = s.ring := rfl
@[simp] theorem State.soon_token (s : State) (e : Ev) : (s.soon e).token = s.token := rfl
@[simp] theorem State.soon_remote (s : State) (e : Ev) : (s.soon e).remote = s.remote := rfl
@[simp] theorem State.soon_colls (s : State) (e : Ev) : (s.soon e).colls = s.colls := rfl
@[simp] theorem State.soon_hostGot (s : State) (e : Ev) : (s.soon e).hostGot = s.hostGot := rfl
@[simp] theorem State.soon_fabricGot (s : State) (e : Ev) : (s.soon e).fabricGot = s.fabricGot := rfl
@[simp] theorem State.soon_ready (s : State) (e : Ev) : (s.soon e).ready = s.ready := rfl
@[simp] theorem State.soon_pwrcap (s : State) (e : Ev) : (s.soon e).pwrcap = s.pwrcap := rfl
@[simp] theorem State.soon_therm (s : State) (e : Ev) : (s.soon e).therm = s.therm := rfl
@[simp] theorem State.soon_lsidle (s : State) (e : Ev) : (s.soon e).lsidle = s.lsidle := rfl
@[simp] theorem State.soon_mcmd (s : State) (e : Ev) : (s.soon e).mcmd = s.mcmd := rfl
@[simp] theorem State.soon_mstat (s : State) (e : Ev) : (s.soon e).mstat = s.mstat := rfl
@[simp] theorem State.soon_bootFailed (s : State) (e : Ev) : (s.soon e).bootFailed = s.bootFailed := rfl
@[simp] theorem State.soon_withhold (s : State) (e : Ev) : (s.soon e).withhold = s.withhold := rfl
@[simp] theorem State.soon_halved (s : State) (e : Ev) : (s.soon e).halved = s.halved := rfl
@[simp] theorem State.soon_throttled (s : State) (e : Ev) : (s.soon e).throttled = s.throttled := rfl
@[simp] theorem State.soon_agenda (s : State) (e : Ev) : (s.soon e).agenda = e :: s.agenda := rfl
@[simp] theorem State.soon_ev (s : State) (e : Ev) : (s.soon e).ev = s.ev := rfl
@[simp] theorem State.soon_issue (s : State) (e : Ev) : (s.soon e).issue = s.issue := rfl
@[simp] theorem State.soon_cur (s : State) (e : Ev) : (s.soon e).cur = s.cur := rfl
@[simp] theorem State.soon_curAb (s : State) (e : Ev) : (s.soon e).curAb = s.curAb := rfl
@[simp] theorem State.soon_free (s : State) (e : Ev) : (s.soon e).free = s.free := rfl
@[simp] theorem State.soon_placings (s : State) (e : Ev) : (s.soon e).placings = s.placings := rfl
@[simp] theorem State.soon_walks (s : State) (e : Ev) : (s.soon e).walks = s.walks := rfl
@[simp] theorem State.soon_lost (s : State) (e : Ev) : (s.soon e).lost = s.lost := rfl
@[simp] theorem State.soon_vreads (s : State) (e : Ev) : (s.soon e).vreads = s.vreads := rfl
@[simp] theorem State.soon_dones (s : State) (e : Ev) : (s.soon e).dones = s.dones := rfl
@[simp] theorem State.soon_counted (s : State) (e : Ev) : (s.soon e).counted = s.counted := rfl
@[simp] theorem State.soon_reports (s : State) (e : Ev) : (s.soon e).reports = s.reports := rfl
@[simp] theorem State.soon_lineq (s : State) (e : Ev) : (s.soon e).lineq = s.lineq := rfl
@[simp] theorem State.soon_bars (s : State) (e : Ev) : (s.soon e).bars = s.bars := rfl
@[simp] theorem State.soon_bkPages (s : State) (e : Ev) : (s.soon e).bkPages = s.bkPages := rfl

-- ## The PC advanced

@[simp] theorem State.adv_acc (s : State) (n : Nat) : (s.adv n).acc = s.acc := rfl
@[simp] theorem State.adv_ppm (s : State) (n : Nat) : (s.adv n).ppm = s.ppm := rfl
@[simp] theorem State.adv_cyc (s : State) (n : Nat) : (s.adv n).cyc = s.cyc := rfl
@[simp] theorem State.adv_pskew (s : State) (n : Nat) : (s.adv n).pskew = s.pskew := rfl
@[simp] theorem State.adv_timeLost (s : State) (n : Nat) : (s.adv n).timeLost = s.timeLost := rfl
@[simp] theorem State.adv_exchanged (s : State) (n : Nat) : (s.adv n).exchanged = s.exchanged := rfl
@[simp] theorem State.adv_um (s : State) (n : Nat) : (s.adv n).um = s.um := rfl
@[simp] theorem State.adv_irecv (s : State) (n : Nat) : (s.adv n).irecv = s.irecv := rfl
@[simp] theorem State.adv_boots (s : State) (n : Nat) : (s.adv n).boots = s.boots := rfl
@[simp] theorem State.adv_regions (s : State) (n : Nat) : (s.adv n).regions = s.regions := rfl
@[simp] theorem State.adv_rtstat (s : State) (n : Nat) : (s.adv n).rtstat = s.rtstat := rfl
@[simp] theorem State.adv_draining (s : State) (n : Nat) : (s.adv n).draining = s.draining := rfl
@[simp] theorem State.adv_mem (s : State) (n : Nat) : (s.adv n).mem = s.mem := rfl
@[simp] theorem State.adv_pz (s : State) (n : Nat) : (s.adv n).pz = s.pz := rfl
@[simp] theorem State.adv_scr (s : State) (n : Nat) : (s.adv n).scr = s.scr := rfl
@[simp] theorem State.adv_scrPz (s : State) (n : Nat) : (s.adv n).scrPz = s.scrPz := rfl
@[simp] theorem State.adv_l1 (s : State) (n : Nat) : (s.adv n).l1 = s.l1 := rfl
@[simp] theorem State.adv_tlb (s : State) (n : Nat) : (s.adv n).tlb = s.tlb := rfl
@[simp] theorem State.adv_deadDies (s : State) (n : Nat) : (s.adv n).deadDies = s.deadDies := rfl
@[simp] theorem State.adv_dir (s : State) (n : Nat) : (s.adv n).dir = s.dir := rfl
@[simp] theorem State.adv_metas (s : State) (n : Nat) : (s.adv n).metas = s.metas := rfl
@[simp] theorem State.adv_inc (s : State) (n : Nat) : (s.adv n).inc = s.inc := rfl
@[simp] theorem State.adv_deadAgents (s : State) (n : Nat) : (s.adv n).deadAgents = s.deadAgents := rfl
@[simp] theorem State.adv_l2 (s : State) (n : Nat) : (s.adv n).l2 = s.l2 := rfl
@[simp] theorem State.adv_pend (s : State) (n : Nat) : (s.adv n).pend = s.pend := rfl
@[simp] theorem State.adv_closing (s : State) (n : Nat) : (s.adv n).closing = s.closing := rfl
@[simp] theorem State.adv_asleep (s : State) (n : Nat) : (s.adv n).asleep = s.asleep := rfl
@[simp] theorem State.adv_held (s : State) (n : Nat) : (s.adv n).held = s.held := rfl
@[simp] theorem State.adv_silent (s : State) (n : Nat) : (s.adv n).silent = s.silent := rfl
@[simp] theorem State.adv_llc (s : State) (n : Nat) : (s.adv n).llc = s.llc := rfl
@[simp] theorem State.adv_pchq (s : State) (n : Nat) : (s.adv n).pchq = s.pchq := rfl
@[simp] theorem State.adv_rows (s : State) (n : Nat) : (s.adv n).rows = s.rows := rfl
@[simp] theorem State.adv_refreshing (s : State) (n : Nat) : (s.adv n).refreshing = s.refreshing := rfl
@[simp] theorem State.adv_hot (s : State) (n : Nat) : (s.adv n).hot = s.hot := rfl
@[simp] theorem State.adv_seals (s : State) (n : Nat) : (s.adv n).seals = s.seals := rfl
@[simp] theorem State.adv_ranges (s : State) (n : Nat) : (s.adv n).ranges = s.ranges := rfl
@[simp] theorem State.adv_partials (s : State) (n : Nat) : (s.adv n).partials = s.partials := rfl
@[simp] theorem State.adv_views (s : State) (n : Nat) : (s.adv n).views = s.views := rfl
@[simp] theorem State.adv_derivs (s : State) (n : Nat) : (s.adv n).derivs = s.derivs := rfl
@[simp] theorem State.adv_timers (s : State) (n : Nat) : (s.adv n).timers = s.timers := rfl
@[simp] theorem State.adv_regs (s : State) (n : Nat) : (s.adv n).regs = s.regs := rfl
@[simp] theorem State.adv_abaci (s : State) (n : Nat) : (s.adv n).abaci = s.abaci := rfl
@[simp] theorem State.adv_launches (s : State) (n : Nat) : (s.adv n).launches = s.launches := rfl
@[simp] theorem State.adv_ldoor0 (s : State) (n : Nat) : (s.adv n).ldoor0 = s.ldoor0 := rfl
@[simp] theorem State.adv_ldoor1 (s : State) (n : Nat) : (s.adv n).ldoor1 = s.ldoor1 := rfl
@[simp] theorem State.adv_lstat (s : State) (n : Nat) : (s.adv n).lstat = s.lstat := rfl
@[simp] theorem State.adv_bazaar (s : State) (n : Nat) : (s.adv n).bazaar = s.bazaar := rfl
@[simp] theorem State.adv_drove (s : State) (n : Nat) : (s.adv n).drove = s.drove := rfl
@[simp] theorem State.adv_ctab (s : State) (n : Nat) : (s.adv n).ctab = s.ctab := rfl
@[simp] theorem State.adv_ctxcmd (s : State) (n : Nat) : (s.adv n).ctxcmd = s.ctxcmd := rfl
@[simp] theorem State.adv_ctxroot (s : State) (n : Nat) : (s.adv n).ctxroot = s.ctxroot := rfl
@[simp] theorem State.adv_ctxstat (s : State) (n : Nat) : (s.adv n).ctxstat = s.ctxstat := rfl
@[simp] theorem State.adv_images (s : State) (n : Nat) : (s.adv n).images = s.images := rfl
@[simp] theorem State.adv_imap (s : State) (n : Nat) : (s.adv n).imap = s.imap := rfl
@[simp] theorem State.adv_uids (s : State) (n : Nat) : (s.adv n).uids = s.uids := rfl
@[simp] theorem State.adv_resq (s : State) (n : Nat) : (s.adv n).resq = s.resq := rfl
@[simp] theorem State.adv_elog (s : State) (n : Nat) : (s.adv n).elog = s.elog := rfl
@[simp] theorem State.adv_elogLost (s : State) (n : Nat) : (s.adv n).elogLost = s.elogLost := rfl
@[simp] theorem State.adv_corr (s : State) (n : Nat) : (s.adv n).corr = s.corr := rfl
@[simp] theorem State.adv_apert (s : State) (n : Nat) : (s.adv n).apert = s.apert := rfl
@[simp] theorem State.adv_hipend (s : State) (n : Nat) : (s.adv n).hipend = s.hipend := rfl
@[simp] theorem State.adv_naesh (s : State) (n : Nat) : (s.adv n).naesh = s.naesh := rfl
@[simp] theorem State.adv_naeshDown (s : State) (n : Nat) : (s.adv n).naeshDown = s.naeshDown := rfl
@[simp] theorem State.adv_fat (s : State) (n : Nat) : (s.adv n).fat = s.fat := rfl
@[simp] theorem State.adv_cport (s : State) (n : Nat) : (s.adv n).cport = s.cport := rfl
@[simp] theorem State.adv_portIdle (s : State) (n : Nat) : (s.adv n).portIdle = s.portIdle := rfl
@[simp] theorem State.adv_routes (s : State) (n : Nat) : (s.adv n).routes = s.routes := rfl
@[simp] theorem State.adv_ring (s : State) (n : Nat) : (s.adv n).ring = s.ring := rfl
@[simp] theorem State.adv_token (s : State) (n : Nat) : (s.adv n).token = s.token := rfl
@[simp] theorem State.adv_remote (s : State) (n : Nat) : (s.adv n).remote = s.remote := rfl
@[simp] theorem State.adv_colls (s : State) (n : Nat) : (s.adv n).colls = s.colls := rfl
@[simp] theorem State.adv_hostGot (s : State) (n : Nat) : (s.adv n).hostGot = s.hostGot := rfl
@[simp] theorem State.adv_fabricGot (s : State) (n : Nat) : (s.adv n).fabricGot = s.fabricGot := rfl
@[simp] theorem State.adv_ready (s : State) (n : Nat) : (s.adv n).ready = s.ready := rfl
@[simp] theorem State.adv_pwrcap (s : State) (n : Nat) : (s.adv n).pwrcap = s.pwrcap := rfl
@[simp] theorem State.adv_therm (s : State) (n : Nat) : (s.adv n).therm = s.therm := rfl
@[simp] theorem State.adv_lsidle (s : State) (n : Nat) : (s.adv n).lsidle = s.lsidle := rfl
@[simp] theorem State.adv_mcmd (s : State) (n : Nat) : (s.adv n).mcmd = s.mcmd := rfl
@[simp] theorem State.adv_mstat (s : State) (n : Nat) : (s.adv n).mstat = s.mstat := rfl
@[simp] theorem State.adv_bootFailed (s : State) (n : Nat) : (s.adv n).bootFailed = s.bootFailed := rfl
@[simp] theorem State.adv_withhold (s : State) (n : Nat) : (s.adv n).withhold = s.withhold := rfl
@[simp] theorem State.adv_halved (s : State) (n : Nat) : (s.adv n).halved = s.halved := rfl
@[simp] theorem State.adv_throttled (s : State) (n : Nat) : (s.adv n).throttled = s.throttled := rfl
@[simp] theorem State.adv_agenda (s : State) (n : Nat) : (s.adv n).agenda = s.agenda := rfl
@[simp] theorem State.adv_ev (s : State) (n : Nat) : (s.adv n).ev = s.ev := rfl
@[simp] theorem State.adv_issue (s : State) (n : Nat) : (s.adv n).issue = s.issue := rfl
@[simp] theorem State.adv_cur (s : State) (n : Nat) : (s.adv n).cur = s.cur := rfl
@[simp] theorem State.adv_curAb (s : State) (n : Nat) : (s.adv n).curAb = s.curAb := rfl
@[simp] theorem State.adv_free (s : State) (n : Nat) : (s.adv n).free = s.free := rfl
@[simp] theorem State.adv_placings (s : State) (n : Nat) : (s.adv n).placings = s.placings := rfl
@[simp] theorem State.adv_walks (s : State) (n : Nat) : (s.adv n).walks = s.walks := rfl
@[simp] theorem State.adv_lost (s : State) (n : Nat) : (s.adv n).lost = s.lost := rfl
@[simp] theorem State.adv_vreads (s : State) (n : Nat) : (s.adv n).vreads = s.vreads := rfl
@[simp] theorem State.adv_dones (s : State) (n : Nat) : (s.adv n).dones = s.dones := rfl
@[simp] theorem State.adv_counted (s : State) (n : Nat) : (s.adv n).counted = s.counted := rfl
@[simp] theorem State.adv_reports (s : State) (n : Nat) : (s.adv n).reports = s.reports := rfl
@[simp] theorem State.adv_lineq (s : State) (n : Nat) : (s.adv n).lineq = s.lineq := rfl
@[simp] theorem State.adv_bars (s : State) (n : Nat) : (s.adv n).bars = s.bars := rfl
@[simp] theorem State.adv_bkPages (s : State) (n : Nat) : (s.adv n).bkPages = s.bkPages := rfl

-- ## A split of a string changed

@[simp] theorem Str.modSplit_st (t : Str) (j : SplitId) (f : Split → Split) : (t.modSplit j f).st = t.st := rfl
@[simp] theorem Str.modSplit_ptroot (t : Str) (j : SplitId) (f : Split → Split) : (t.modSplit j f).ptroot = t.ptroot := rfl
@[simp] theorem Str.modSplit_sreg (t : Str) (j : SplitId) (f : Split → Split) : (t.modSplit j f).sreg = t.sreg := rfl
@[simp] theorem Str.modSplit_kreg (t : Str) (j : SplitId) (f : Split → Split) : (t.modSplit j f).kreg = t.kreg := rfl
@[simp] theorem Str.modSplit_vreg (t : Str) (j : SplitId) (f : Split → Split) : (t.modSplit j f).vreg = t.vreg := rfl
@[simp] theorem Str.modSplit_vspill (t : Str) (j : SplitId) (f : Split → Split) : (t.modSplit j f).vspill = t.vspill := rfl
@[simp] theorem Str.modSplit_vstamp (t : Str) (j : SplitId) (f : Split → Split) : (t.modSplit j f).vstamp = t.vstamp := rfl
@[simp] theorem Str.modSplit_kept (t : Str) (j : SplitId) (f : Split → Split) : (t.modSplit j f).kept = t.kept := rfl
@[simp] theorem Str.modSplit_allot (t : Str) (j : SplitId) (f : Split → Split) : (t.modSplit j f).allot = t.allot := rfl
@[simp] theorem Str.modSplit_fflags (t : Str) (j : SplitId) (f : Split → Split) : (t.modSplit j f).fflags = t.fflags := rfl
@[simp] theorem Str.modSplit_fz (t : Str) (j : SplitId) (f : Split → Split) : (t.modSplit j f).fz = t.fz := rfl
@[simp] theorem Str.modSplit_rseed (t : Str) (j : SplitId) (f : Split → Split) : (t.modSplit j f).rseed = t.rseed := rfl
@[simp] theorem Str.modSplit_pfdrop (t : Str) (j : SplitId) (f : Split → Split) : (t.modSplit j f).pfdrop = t.pfdrop := rfl
@[simp] theorem Str.modSplit_cperr (t : Str) (j : SplitId) (f : Split → Split) : (t.modSplit j f).cperr = t.cperr := rfl
@[simp] theorem Str.modSplit_ops (t : Str) (j : SplitId) (f : Split → Split) : (t.modSplit j f).ops = t.ops := rfl
@[simp] theorem Str.modSplit_loans (t : Str) (j : SplitId) (f : Split → Split) : (t.modSplit j f).loans = t.loans := rfl
@[simp] theorem Str.modSplit_tls (t : Str) (j : SplitId) (f : Split → Split) : (t.modSplit j f).tls = t.tls := rfl
@[simp] theorem Str.modSplit_mcnt (t : Str) (j : SplitId) (f : Split → Split) : (t.modSplit j f).mcnt = t.mcnt := rfl
@[simp] theorem Str.modSplit_mstage (t : Str) (j : SplitId) (f : Split → Split) : (t.modSplit j f).mstage = t.mstage := rfl
@[simp] theorem Str.modSplit_al (t : Str) (j : SplitId) (f : Split → Split) : (t.modSplit j f).al = t.al := rfl
@[simp] theorem Str.modSplit_sl (t : Str) (j : SplitId) (f : Split → Split) : (t.modSplit j f).sl = t.sl := rfl
@[simp] theorem Str.modSplit_bkn (t : Str) (j : SplitId) (f : Split → Split) : (t.modSplit j f).bkn = t.bkn := rfl
@[simp] theorem Str.modSplit_bkf (t : Str) (j : SplitId) (f : Split → Split) : (t.modSplit j f).bkf = t.bkf := rfl
@[simp] theorem Str.modSplit_launch (t : Str) (j : SplitId) (f : Split → Split) : (t.modSplit j f).launch = t.launch := rfl
@[simp] theorem Str.modSplit_rsc (t : Str) (j : SplitId) (f : Split → Split) : (t.modSplit j f).rsc = t.rsc := rfl
@[simp] theorem Str.modSplit_fut (t : Str) (j : SplitId) (f : Split → Split) : (t.modSplit j f).fut = t.fut := rfl
@[simp] theorem Str.modSplit_lanes (t : Str) (j : SplitId) (f : Split → Split) : (t.modSplit j f).lanes = t.lanes := rfl
@[simp] theorem Str.modSplit_park (t : Str) (j : SplitId) (f : Split → Split) : (t.modSplit j f).park = t.park := rfl
@[simp] theorem Str.modSplit_age (t : Str) (j : SplitId) (f : Split → Split) : (t.modSplit j f).age = t.age := rfl
@[simp] theorem Str.modSplit_ready (t : Str) (j : SplitId) (f : Split → Split) : (t.modSplit j f).ready = t.ready := rfl
@[simp] theorem Str.modSplit_parkedAt (t : Str) (j : SplitId) (f : Split → Split) : (t.modSplit j f).parkedAt = t.parkedAt := rfl
@[simp] theorem Str.modSplit_pool (t : Str) (j : SplitId) (f : Split → Split) : (t.modSplit j f).pool = t.pool := rfl
@[simp] theorem Str.modSplit_staging (t : Str) (j : SplitId) (f : Split → Split) : (t.modSplit j f).staging = t.staging := rfl
@[simp] theorem Str.modSplit_uid (t : Str) (j : SplitId) (f : Split → Split) : (t.modSplit j f).uid = t.uid := rfl
@[simp] theorem Str.modSplit_gone (t : Str) (j : SplitId) (f : Split → Split) : (t.modSplit j f).gone = t.gone := rfl
@[simp] theorem Str.modSplit_poolKept (t : Str) (j : SplitId) (f : Split → Split) : (t.modSplit j f).poolKept = t.poolKept := rfl
@[simp] theorem Str.modSplit_lent (t : Str) (j : SplitId) (f : Split → Split) : (t.modSplit j f).lent = t.lent := rfl

-- ## A vector register written on some lanes

@[simp] theorem Str.setV_st (t : Str) (n : Nat) (r : VReg) (m : Mask) (f : Nat → W32) : (t.setV n r m f).st = t.st := rfl
@[simp] theorem Str.setV_ptroot (t : Str) (n : Nat) (r : VReg) (m : Mask) (f : Nat → W32) : (t.setV n r m f).ptroot = t.ptroot := rfl
@[simp] theorem Str.setV_sreg (t : Str) (n : Nat) (r : VReg) (m : Mask) (f : Nat → W32) : (t.setV n r m f).sreg = t.sreg := rfl
@[simp] theorem Str.setV_kreg (t : Str) (n : Nat) (r : VReg) (m : Mask) (f : Nat → W32) : (t.setV n r m f).kreg = t.kreg := rfl
@[simp] theorem Str.setV_kept (t : Str) (n : Nat) (r : VReg) (m : Mask) (f : Nat → W32) : (t.setV n r m f).kept = t.kept := rfl
@[simp] theorem Str.setV_allot (t : Str) (n : Nat) (r : VReg) (m : Mask) (f : Nat → W32) : (t.setV n r m f).allot = t.allot := rfl
@[simp] theorem Str.setV_fflags (t : Str) (n : Nat) (r : VReg) (m : Mask) (f : Nat → W32) : (t.setV n r m f).fflags = t.fflags := rfl
@[simp] theorem Str.setV_fz (t : Str) (n : Nat) (r : VReg) (m : Mask) (f : Nat → W32) : (t.setV n r m f).fz = t.fz := rfl
@[simp] theorem Str.setV_rseed (t : Str) (n : Nat) (r : VReg) (m : Mask) (f : Nat → W32) : (t.setV n r m f).rseed = t.rseed := rfl
@[simp] theorem Str.setV_pfdrop (t : Str) (n : Nat) (r : VReg) (m : Mask) (f : Nat → W32) : (t.setV n r m f).pfdrop = t.pfdrop := rfl
@[simp] theorem Str.setV_cperr (t : Str) (n : Nat) (r : VReg) (m : Mask) (f : Nat → W32) : (t.setV n r m f).cperr = t.cperr := rfl
@[simp] theorem Str.setV_ops (t : Str) (n : Nat) (r : VReg) (m : Mask) (f : Nat → W32) : (t.setV n r m f).ops = t.ops := rfl
@[simp] theorem Str.setV_loans (t : Str) (n : Nat) (r : VReg) (m : Mask) (f : Nat → W32) : (t.setV n r m f).loans = t.loans := rfl
@[simp] theorem Str.setV_tls (t : Str) (n : Nat) (r : VReg) (m : Mask) (f : Nat → W32) : (t.setV n r m f).tls = t.tls := rfl
@[simp] theorem Str.setV_mcnt (t : Str) (n : Nat) (r : VReg) (m : Mask) (f : Nat → W32) : (t.setV n r m f).mcnt = t.mcnt := rfl
@[simp] theorem Str.setV_mstage (t : Str) (n : Nat) (r : VReg) (m : Mask) (f : Nat → W32) : (t.setV n r m f).mstage = t.mstage := rfl
@[simp] theorem Str.setV_al (t : Str) (n : Nat) (r : VReg) (m : Mask) (f : Nat → W32) : (t.setV n r m f).al = t.al := rfl
@[simp] theorem Str.setV_sl (t : Str) (n : Nat) (r : VReg) (m : Mask) (f : Nat → W32) : (t.setV n r m f).sl = t.sl := rfl
@[simp] theorem Str.setV_bkn (t : Str) (n : Nat) (r : VReg) (m : Mask) (f : Nat → W32) : (t.setV n r m f).bkn = t.bkn := rfl
@[simp] theorem Str.setV_bkf (t : Str) (n : Nat) (r : VReg) (m : Mask) (f : Nat → W32) : (t.setV n r m f).bkf = t.bkf := rfl
@[simp] theorem Str.setV_launch (t : Str) (n : Nat) (r : VReg) (m : Mask) (f : Nat → W32) : (t.setV n r m f).launch = t.launch := rfl
@[simp] theorem Str.setV_rsc (t : Str) (n : Nat) (r : VReg) (m : Mask) (f : Nat → W32) : (t.setV n r m f).rsc = t.rsc := rfl
@[simp] theorem Str.setV_fut (t : Str) (n : Nat) (r : VReg) (m : Mask) (f : Nat → W32) : (t.setV n r m f).fut = t.fut := rfl
@[simp] theorem Str.setV_lanes (t : Str) (n : Nat) (r : VReg) (m : Mask) (f : Nat → W32) : (t.setV n r m f).lanes = t.lanes := rfl
@[simp] theorem Str.setV_splits (t : Str) (n : Nat) (r : VReg) (m : Mask) (f : Nat → W32) : (t.setV n r m f).splits = t.splits := rfl
@[simp] theorem Str.setV_park (t : Str) (n : Nat) (r : VReg) (m : Mask) (f : Nat → W32) : (t.setV n r m f).park = t.park := rfl
@[simp] theorem Str.setV_age (t : Str) (n : Nat) (r : VReg) (m : Mask) (f : Nat → W32) : (t.setV n r m f).age = t.age := rfl
@[simp] theorem Str.setV_ready (t : Str) (n : Nat) (r : VReg) (m : Mask) (f : Nat → W32) : (t.setV n r m f).ready = t.ready := rfl
@[simp] theorem Str.setV_parkedAt (t : Str) (n : Nat) (r : VReg) (m : Mask) (f : Nat → W32) : (t.setV n r m f).parkedAt = t.parkedAt := rfl
@[simp] theorem Str.setV_pool (t : Str) (n : Nat) (r : VReg) (m : Mask) (f : Nat → W32) : (t.setV n r m f).pool = t.pool := rfl
@[simp] theorem Str.setV_staging (t : Str) (n : Nat) (r : VReg) (m : Mask) (f : Nat → W32) : (t.setV n r m f).staging = t.staging := rfl
@[simp] theorem Str.setV_uid (t : Str) (n : Nat) (r : VReg) (m : Mask) (f : Nat → W32) : (t.setV n r m f).uid = t.uid := rfl
@[simp] theorem Str.setV_poolKept (t : Str) (n : Nat) (r : VReg) (m : Mask) (f : Nat → W32) : (t.setV n r m f).poolKept = t.poolKept := rfl

end Sys2Proof.Machine
end

