-- ==== Sys2Proof/Laws/Memory.lean ====
section
/-!
SUPPORT. The canonical form of a list of cells: every operation keeps it, the memories of the state after reset have it, and a read after a
write gives what was written there and what stood elsewhere.
-/
namespace Sys2Proof.Machine
open Sys2Proof

/-- A key below a bound, or no bound. -/
def Memory.above : Option Nat → Nat → Prop
  | none, _ => True
  | some l, a => l < a

theorem Memory.wfFrom_cons (lo : Option Nat) (x : Nat) (v : Byte) (r : List Host.Cell) :
    Memory.wfFrom lo ((x, v) :: r) = true ↔ Memory.above lo x ∧ v ≠ 0 ∧ Memory.wfFrom (some x) r = true := by
  cases lo <;> simp [Memory.wfFrom, Memory.above, and_assoc]

theorem Memory.wfFrom_weaken (lo : Option Nat) (a b : Nat) (m : List Host.Cell) (ha : Memory.above lo a) (hab : a ≤ b)
    (h : Memory.wfFrom (some b) m = true) : Memory.wfFrom lo m = true := by
  cases m with
  | nil => rfl
  | cons c r =>
    obtain ⟨x, v⟩ := c
    rw [Memory.wfFrom_cons] at h ⊢
    refine ⟨?_, h.2⟩
    have := h.1
    cases lo <;> simp_all [Memory.above]
    omega

theorem cellSet_wfFrom (m : List Host.Cell) (lo : Option Nat) (a : Nat) (b : Byte) (ha : Memory.above lo a)
    (h : Memory.wfFrom lo m = true) : Memory.wfFrom lo (cellSet m a b) = true := by
  induction m generalizing lo with
  | nil =>
    unfold cellSet
    split
    · rfl
    · rw [Memory.wfFrom_cons]; exact ⟨ha, ‹_›, rfl⟩
  | cons c r ih =>
    obtain ⟨x, v⟩ := c
    have h' := (Memory.wfFrom_cons _ _ _ _).1 h
    unfold cellSet
    split
    · split
      · exact h
      · rw [Memory.wfFrom_cons]
        refine ⟨ha, ‹_›, ?_⟩
        rw [Memory.wfFrom_cons]
        exact ⟨‹a < x›, h'.2⟩
    · split
      · subst_vars
        split
        · exact Memory.wfFrom_weaken lo x x r h'.1 (Nat.le_refl _) h'.2.2
        · rw [Memory.wfFrom_cons]; exact ⟨ha, ‹_›, h'.2.2⟩
      · rw [Memory.wfFrom_cons]
        refine ⟨h'.1, h'.2.1, ih _ ?_ h'.2.2⟩
        show x < a
        omega

/-- Writing a byte keeps the canonical form. -/
theorem cellSet_wf (m : List Host.Cell) (a : Nat) (b : Byte) (h : Memory.wf m = true) : Memory.wf (cellSet m a b) = true :=
  cellSet_wfFrom m none a b trivial h

/-- Writing cells keeps the canonical form. -/
theorem cellPut_wf (m cs : List Host.Cell) (h : Memory.wf m = true) : Memory.wf (cellPut m cs) = true := by
  unfold cellPut
  induction cs generalizing m with
  | nil => exact h
  | cons c r ih => exact ih _ (cellSet_wf _ _ _ h)

/-- Leaving some cells out keeps the canonical form. -/
theorem Memory.filter_wfFrom (p : Host.Cell → Bool) (m : List Host.Cell) (lo : Option Nat) (h : Memory.wfFrom lo m = true) :
    Memory.wfFrom lo (m.filter p) = true := by
  induction m generalizing lo with
  | nil => rfl
  | cons c r ih =>
    obtain ⟨x, v⟩ := c
    have h' := (Memory.wfFrom_cons _ _ _ _).1 h
    rw [List.filter_cons]
    split
    · rw [Memory.wfFrom_cons]; exact ⟨h'.1, h'.2.1, ih _ h'.2.2⟩
    · exact Memory.wfFrom_weaken lo x x _ h'.1 (Nat.le_refl _) (ih _ h'.2.2)

theorem Memory.filter_wf (p : Host.Cell → Bool) (m : List Host.Cell) (h : Memory.wf m = true) : Memory.wf (m.filter p) = true :=
  Memory.filter_wfFrom p m none h

/-- Both memories after reset are in canonical form: they list nothing. -/
theorem State.reset_wf : Memory.wf State.reset.mem = true ∧ Memory.wf State.reset.scr = true := ⟨rfl, rfl⟩

/-- `poke` keeps the canonical form. -/
theorem State.poke_wf (s : State) (cs : List Host.Cell) (h : Memory.wf s.mem = true) : Memory.wf (s.poke cs).mem = true :=
  cellPut_wf _ _ h

/-- `scrPut` keeps the canonical form. -/
theorem State.scrPut_wf (s : State) (cs : List Host.Cell) (h : Memory.wf s.scr = true) : Memory.wf (s.scrPut cs).scr = true :=
  cellPut_wf _ _ h

theorem cellGet_below (m : List Host.Cell) (lo a : Nat) (h : Memory.wfFrom (some lo) m = true) (ha : a ≤ lo) : cellGet m a = 0 := by
  induction m generalizing lo with
  | nil => rfl
  | cons c r ih =>
    obtain ⟨x, v⟩ := c
    have h' := (Memory.wfFrom_cons _ _ _ _).1 h
    have hx : lo < x := h'.1
    unfold cellGet
    rw [if_neg (by omega)]
    exact ih x h'.2.2 (by omega)

theorem cellGet_cellSet_from (m : List Host.Cell) (lo : Option Nat) (a x : Nat) (b : Byte) (h : Memory.wfFrom lo m = true) :
    cellGet (cellSet m a b) x = if x = a then b else cellGet m x := by
  induction m generalizing lo with
  | nil =>
    unfold cellSet
    by_cases hb : b = 0
    · simp [hb, cellGet]
    · simp only [if_neg hb, cellGet]
      by_cases hx : x = a
      · simp [hx]
      · rw [if_neg (fun e => hx e.symm), if_neg hx]
  | cons c r ih =>
    obtain ⟨y, v⟩ := c
    have h' := (Memory.wfFrom_cons _ _ _ _).1 h
    unfold cellSet
    by_cases h1 : a < y
    · rw [if_pos h1]
      have low : cellGet ((y, v) :: r) a = 0 := by
        unfold cellGet; rw [if_neg (by omega)]
        exact cellGet_below r y a h'.2.2 (by omega)
      by_cases hb : b = 0
      · rw [if_pos hb]
        by_cases hx : x = a
        · rw [if_pos hx, hx, low, hb]
        · rw [if_neg hx]
      · rw [if_neg hb]
        by_cases hx : x = a
        · rw [if_pos hx]; simp [cellGet, hx]
        · rw [if_neg hx]; rw [cellGet]; rw [if_neg (fun e => hx e.symm)]
    · rw [if_neg h1]
      by_cases h2 : a = y
      · rw [if_pos h2]
        by_cases hb : b = 0
        · rw [if_pos hb]
          by_cases hx : x = a
          · rw [if_pos hx, hx, h2, hb]; exact cellGet_below r y y h'.2.2 (Nat.le_refl _)
          · rw [if_neg hx, cellGet, if_neg (fun e => hx (by rw [h2]; exact e.symm))]
        · rw [if_neg hb]
          by_cases hx : x = a
          · rw [if_pos hx]; simp [cellGet, hx]
          · rw [if_neg hx, cellGet, if_neg (fun e => hx e.symm), cellGet, if_neg (fun e => hx (by rw [h2]; exact e.symm))]
      · rw [if_neg h2, cellGet]
        by_cases hy : y = x
        · rw [if_pos hy, cellGet, if_pos hy, if_neg (fun e => h2 (by rw [hy]; exact e.symm))]
        · rw [if_neg hy, ih _ h'.2.2, cellGet, if_neg hy]

/-- A byte written reads back; every other byte is as it was. -/
theorem cellGet_cellSet (m : List Host.Cell) (a x : Nat) (b : Byte) (h : Memory.wf m = true) :
    cellGet (cellSet m a b) x = if x = a then b else cellGet m x := cellGet_cellSet_from m none a x b h

/-- Where no cell of a write lies, memory reads as before. -/
theorem cellGet_cellPut_other (m cs : List Host.Cell) (x : Nat) (h : Memory.wf m = true) (hx : ∀ c ∈ cs, c.1 ≠ x) :
    cellGet (cellPut m cs) x = cellGet m x := by
  unfold cellPut
  induction cs generalizing m with
  | nil => rfl
  | cons c r ih =>
    rw [List.foldl_cons, ih _ (cellSet_wf _ _ _ h) (fun d hd => hx d (List.mem_cons_of_mem _ hd)), cellGet_cellSet _ _ _ _ h,
      if_neg (fun e => hx c (List.mem_cons_self) e.symm)]

/-- Memory outside the bytes that `poke` writes reads as before. -/
theorem State.peek_poke_other (s : State) (cs : List Host.Cell) (l : Nat) (h : Memory.wf s.mem = true) (hl : ∀ c ∈ cs, c.1 ≠ l) :
    (s.poke cs).peek l = s.peek l := cellGet_cellPut_other _ _ _ h hl

end Sys2Proof.Machine
end

