-- ==== Sys2Proof/Laws/Ops.lean ====
section
/-!
SUPPORT. What a change of a core, a string or a split does, said once: what is read after it, that two changes are one, and the
closed forms of the operations that the meanings share.
-/
namespace Sys2Proof.Machine
open Sys2Proof

-- ## Reading after a change

@[simp] theorem State.modCore_get_same (s : State) (c : CoreId) (f : Core → Core) : (s.modCore c f).cores[c.val] = f s.cores[c.val] := by
  simp [State.modCore]

theorem State.modCore_get_other (s : State) (c d : CoreId) (f : Core → Core) (h : d ≠ c) :
    (s.modCore c f).cores[d.val] = s.cores[d.val] := by
  have : c.val ≠ d.val := fun e => h (Fin.ext e.symm)
  simp [State.modCore, this]

@[simp] theorem State.strAt_modStr_same (s : State) (c : CoreId) (k : SlotId) (f : Str → Str) :
    (s.modStr c k f).strAt c k = f (s.strAt c k) := by
  simp [State.modStr, State.strAt]

theorem State.strAt_modStr_other (s : State) (c d : CoreId) (k j : SlotId) (f : Str → Str) (h : ¬(d = c ∧ j = k)) :
    (s.modStr c k f).strAt d j = s.strAt d j := by
  unfold State.strAt State.modStr
  by_cases hc : d = c
  · subst hc
    have hk : k.val ≠ j.val := fun e => h ⟨rfl, Fin.ext e.symm⟩
    simp [hk]
  · simp [State.modCore_get_other _ _ _ _ hc]

@[simp] theorem State.me_modMe (s : State) (f : Str → Str) : (s.modMe f).me = f s.me := by
  show (s.modStr s.cur.core s.cur.slot f).strAt s.cur.core s.cur.slot = _
  simp [State.me]

theorem State.strAt_modMe_other (s : State) (f : Str → Str) (c : CoreId) (k : SlotId) (h : ¬(c = s.cur.core ∧ k = s.cur.slot)) :
    (s.modMe f).strAt c k = s.strAt c k := State.strAt_modStr_other s _ _ _ _ f h

@[simp] theorem State.sp_modMe (s : State) (f : Str → Str) : (s.modMe f).sp = (f s.me).splits[s.cur.split] := by
  show (s.modMe f).me.splits[s.cur.split] = _
  rw [State.me_modMe]

@[simp] theorem Str.modSplit_get_same (t : Str) (j : SplitId) (f : Split → Split) : (t.modSplit j f).splits[j] = f t.splits[j] := by
  simp [Str.modSplit]

@[simp] theorem State.me_modSp (s : State) (f : Split → Split) : (s.modSp f).me = s.me.modSplit s.cur.split f := State.me_modMe s _

@[simp] theorem State.sp_modSp (s : State) (f : Split → Split) : (s.modSp f).sp = f s.sp := by
  show (s.modSp f).me.splits[s.cur.split] = _
  rw [State.me_modSp, Str.modSplit_get_same]; rfl

-- ## Two changes are one

@[simp] theorem State.modCore_modCore (s : State) (c : CoreId) (f g : Core → Core) :
    (s.modCore c f).modCore c g = s.modCore c (fun x => g (f x)) := by
  simp [State.modCore, Vector.set_set]

@[simp] theorem State.modStr_modStr (s : State) (c : CoreId) (k : SlotId) (f g : Str → Str) :
    (s.modStr c k f).modStr c k g = s.modStr c k (fun t => g (f t)) := by
  simp [State.modStr, Vector.set_set]

@[simp] theorem State.modMe_modMe (s : State) (f g : Str → Str) : (s.modMe f).modMe g = s.modMe (fun t => g (f t)) := by
  show (s.modStr s.cur.core s.cur.slot f).modStr s.cur.core s.cur.slot g = _
  rw [State.modStr_modStr]; rfl

/-- A change says only what it makes of the issuing string. -/
theorem State.modMe_eq (s : State) (f : Str → Str) : s.modMe f = s.modMe (fun _ => f s.me) := rfl

@[simp] theorem Str.modSplit_modSplit (t : Str) (j : SplitId) (f g : Split → Split) :
    (t.modSplit j f).modSplit j g = t.modSplit j (fun x => g (f x)) := by
  simp [Str.modSplit, Vector.set_set]

theorem Vector.set_get_self (v : Vector α n) (i : Nat) (h : i < n) : v.set i v[i] h = v := by
  apply Vector.ext; intro j hj
  by_cases e : i = j
  · subst e; simp
  · simp

theorem State.modMe_self (s : State) : s.modMe (fun t => t) = s := by
  unfold State.modMe State.modStr
  have : ∀ x : Core, ({ x with strs := x.strs.set s.cur.slot x.strs[s.cur.slot] } : Core) = x := by
    intro x
    have := Vector.set_get_self x.strs s.cur.slot.val s.cur.slot.isLt
    simp only [Fin.getElem_fin, this]
  simp only [State.modCore, this]
  have := Vector.set_get_self s.cores s.cur.core.val s.cur.core.isLt
  simp only [Fin.getElem_fin, this]

-- ## Registers and the PC

theorem State.getS_setS (s : State) (r q : SReg) (v : W64) : (s.setS r v).getS q = if q = r then v else s.getS q := by
  by_cases h : q = r
  · subst h; simp [State.setS, State.getS]
  · have hn : r.toNat ≠ q.toNat := fun e => h (BitVec.eq_of_toNat_eq e.symm)
    simp [State.setS, State.getS, h, hn]

/-- k0 takes no write; every other mask register holds what was written (R9, R139). -/
theorem State.getK_setK (s : State) (r q : KReg) (v : Mask) :
    (s.setK r v).getK q = if q = r ∧ r ≠ 0 then v else s.getK q := by
  unfold State.setK State.getK Str.getK
  by_cases h0 : r = 0
  · rw [if_pos h0]; simp [h0]
  · rw [if_neg h0]
    by_cases h : q = r
    · subst h; rw [if_neg h0, if_pos ⟨rfl, h0⟩]; simp
    · have hn : r.toNat ≠ q.toNat := fun e => h (BitVec.eq_of_toNat_eq e.symm)
      simp [h, hn]

/-- A scalar result and the advance of the PC as one change. -/
theorem State.setS_adv (s : State) (d : SReg) (v : W64) (n : Nat) :
    (s.setS d v).adv n = s.modMe (fun t => ({ t with sreg := t.sreg.set d.toFin v } : Str).modSplit s.cur.split
      (fun x => { x with pc := x.pc + BitVec.ofNat 64 (8 * n) })) := by
  unfold State.setS State.adv State.modSp
  rw [State.modMe_modMe]; rfl

@[simp] theorem State.pc_adv (s : State) (n : Nat) : (s.adv n).sp.pc = s.sp.pc + BitVec.ofNat 64 (8 * n) := by
  simp [State.adv]

@[simp] theorem State.getS_adv (s : State) (n : Nat) (r : SReg) : (s.adv n).getS r = s.getS r := by
  simp [State.adv, State.getS]

@[simp] theorem State.getK_adv (s : State) (n : Nat) (r : KReg) : (s.adv n).getK r = s.getK r := by
  simp [State.adv, State.getK, Str.getK]

@[simp] theorem State.getV_adv (s : State) (n : Nat) (r : VReg) (l : Nat) : (s.adv n).getV r l = s.getV r l := by
  simp [State.adv, State.getV, Str.getV]

-- ## Vector registers

theorem gen_getD (n : Nat) (f : Nat → α) (l : Nat) (d : α) (h : l < n) : (gen n f).toArray.getD l d = f l := by
  simp [gen, Array.getD, h]

/-- What `setV` leaves on a lane of any register. -/
theorem Str.getV_setV (t : Str) (n : Nat) (r q : VReg) (m : Mask) (f : Nat → W32) (l : Nat) (h : l < 32) :
    (t.setV n r m f).getV q l = if q = r ∧ m.has l = true then f l else t.getV q l := by
  unfold Str.setV Str.getV
  by_cases hq : q = r
  · subst hq
    simp [gen_getD _ _ _ _ h]
  · have hn : r.toNat ≠ q.toNat := fun e => hq (BitVec.eq_of_toNat_eq e.symm)
    simp [hq, hn]

/-- `setV` leaves the register holding a value and every other as it was (R144). -/
theorem Str.vreg_setV_other (t : Str) (n : Nat) (r q : VReg) (m : Mask) (f : Nat → W32) (h : q ≠ r) :
    (t.setV n r m f).vreg[q.toFin] = t.vreg[q.toFin] := by
  have hn : r.toNat ≠ q.toNat := fun e => h (BitVec.eq_of_toNat_eq e.symm)
  simp [Str.setV, hn]

theorem Str.vreg_setV_same (t : Str) (n : Nat) (r : VReg) (m : Mask) (f : Nat → W32) :
    ((t.setV n r m f).vreg[r.toFin]).isSome = true := by
  simp [Str.setV]

-- ## Loans and the allotment

/-- R144 passed with none of the named registers on loan: the effect `k` alone (R261). -/
theorem State.vec_ok (s : State) (i : Instr) (k : State → State) (ha : s.me.allotFail s.sp.e (vopsOf i) = none)
    (hl : s.me.loaned (vopsOf i) = []) : s.vec i k = .next (k s) := by
  unfold State.vec; simp [ha, hl]

/-- An instruction with no active lane touches no loaned register (R261). -/
theorem State.vec_idle (s : State) (i : Instr) (k : State → State) (ha : s.me.allotFail s.sp.e (vopsOf i) = none)
    (hl : s.active (guardOf i) = 0) : s.vec i k = .next (k s) := by
  unfold State.vec; simp [ha, hl]

/-- R144 failed: cause 6 on every lane of E, nothing performed. -/
theorem State.vec_trap (s : State) (i : Instr) (k : State → State) (tv : W64) (ha : s.me.allotFail s.sp.e (vopsOf i) = some tv) :
    s.vec i k = .next (s.trapAll 6 tv) := by
  unfold State.vec; rw [ha]

end Sys2Proof.Machine
end

