-- ==== Sys2Proof/Laws/PerInstr.lean ====
section
/-!
SUPPORT. For every instruction: its first word is no block header. A header's mark is 0xFF in bits 63 to 56 (spec/06 R152), and no major
opcode of R163 is 0xFF (R154, R165).
-/
namespace Sys2Proof.Laws
open Sys2Proof

/-- The first word of the instruction does not carry a header's mark; an event has no word. -/
def NotHeader.Statement (i : Instr) : Prop := i.firstWord.extractLsb' 56 8 ≠ 0xFF

theorem NotHeader.of_rWord (op : BitVec 8) (g f : BitVec 4) (d a b c : Byte) (m : BitVec 16) (h : op ≠ 0xFF) :
    (rWord op g f d a b c m).extractLsb' 56 8 ≠ 0xFF := by
  have : (rWord op g f d a b c m).extractLsb' 56 8 = op := by simp [rWord]; ext j hj; simp; grind
  rwa [this]

theorem NotHeader.of_iWord (op : BitVec 8) (g f : BitVec 4) (d a : Byte) (imm : W32) (h : op ≠ 0xFF) :
    (iWord op g f d a imm).extractLsb' 56 8 ≠ 0xFF := by
  have : (iWord op g f d a imm).extractLsb' 56 8 = op := by simp [iWord]; ext j hj; simp; grind
  rwa [this]

theorem NotHeader.sadd (t : Ty) (d a b : SReg) : NotHeader.Statement (.sadd t d a b) := NotHeader.of_rWord _ _ _ _ _ _ _ _ (by decide)
theorem NotHeader.ssub (t : Ty) (d a b : SReg) : NotHeader.Statement (.ssub t d a b) := NotHeader.of_rWord _ _ _ _ _ _ _ _ (by decide)
theorem NotHeader.smul (t : Ty) (d a b : SReg) : NotHeader.Statement (.smul t d a b) := NotHeader.of_rWord _ _ _ _ _ _ _ _ (by decide)
theorem NotHeader.smulh (t : Ty) (d a b : SReg) : NotHeader.Statement (.smulh t d a b) := NotHeader.of_rWord _ _ _ _ _ _ _ _ (by decide)
theorem NotHeader.sand (t : Ty) (d a b : SReg) : NotHeader.Statement (.sand t d a b) := NotHeader.of_rWord _ _ _ _ _ _ _ _ (by decide)
theorem NotHeader.sor (t : Ty) (d a b : SReg) : NotHeader.Statement (.sor t d a b) := NotHeader.of_rWord _ _ _ _ _ _ _ _ (by decide)
theorem NotHeader.sxor (t : Ty) (d a b : SReg) : NotHeader.Statement (.sxor t d a b) := NotHeader.of_rWord _ _ _ _ _ _ _ _ (by decide)
theorem NotHeader.sshl (t : Ty) (d a b : SReg) : NotHeader.Statement (.sshl t d a b) := NotHeader.of_rWord _ _ _ _ _ _ _ _ (by decide)
theorem NotHeader.sshr (t : Ty) (d a b : SReg) : NotHeader.Statement (.sshr t d a b) := NotHeader.of_rWord _ _ _ _ _ _ _ _ (by decide)
theorem NotHeader.ssar (t : Ty) (d a b : SReg) : NotHeader.Statement (.ssar t d a b) := NotHeader.of_rWord _ _ _ _ _ _ _ _ (by decide)
theorem NotHeader.smin (t : Ty) (d a b : SReg) : NotHeader.Statement (.smin t d a b) := NotHeader.of_rWord _ _ _ _ _ _ _ _ (by decide)
theorem NotHeader.smax (t : Ty) (d a b : SReg) : NotHeader.Statement (.smax t d a b) := NotHeader.of_rWord _ _ _ _ _ _ _ _ (by decide)
theorem NotHeader.sandn (t : Ty) (d a b : SReg) : NotHeader.Statement (.sandn t d a b) := NotHeader.of_rWord _ _ _ _ _ _ _ _ (by decide)
theorem NotHeader.saddI (d a : SReg) (imm : W32) : NotHeader.Statement (.saddI d a imm) := NotHeader.of_iWord _ _ _ _ _ _ (by decide)
theorem NotHeader.ssubI (d a : SReg) (imm : W32) : NotHeader.Statement (.ssubI d a imm) := NotHeader.of_iWord _ _ _ _ _ _ (by decide)
theorem NotHeader.smulI (d a : SReg) (imm : W32) : NotHeader.Statement (.smulI d a imm) := NotHeader.of_iWord _ _ _ _ _ _ (by decide)
theorem NotHeader.smulhI (d a : SReg) (imm : W32) : NotHeader.Statement (.smulhI d a imm) := NotHeader.of_iWord _ _ _ _ _ _ (by decide)
theorem NotHeader.sandI (d a : SReg) (imm : W32) : NotHeader.Statement (.sandI d a imm) := NotHeader.of_iWord _ _ _ _ _ _ (by decide)
theorem NotHeader.sorI (d a : SReg) (imm : W32) : NotHeader.Statement (.sorI d a imm) := NotHeader.of_iWord _ _ _ _ _ _ (by decide)
theorem NotHeader.sxorI (d a : SReg) (imm : W32) : NotHeader.Statement (.sxorI d a imm) := NotHeader.of_iWord _ _ _ _ _ _ (by decide)
theorem NotHeader.sshlI (d a : SReg) (imm : W32) : NotHeader.Statement (.sshlI d a imm) := NotHeader.of_iWord _ _ _ _ _ _ (by decide)
theorem NotHeader.sshrI (d a : SReg) (imm : W32) : NotHeader.Statement (.sshrI d a imm) := NotHeader.of_iWord _ _ _ _ _ _ (by decide)
theorem NotHeader.ssarI (d a : SReg) (imm : W32) : NotHeader.Statement (.ssarI d a imm) := NotHeader.of_iWord _ _ _ _ _ _ (by decide)
theorem NotHeader.sminI (d a : SReg) (imm : W32) : NotHeader.Statement (.sminI d a imm) := NotHeader.of_iWord _ _ _ _ _ _ (by decide)
theorem NotHeader.smaxI (d a : SReg) (imm : W32) : NotHeader.Statement (.smaxI d a imm) := NotHeader.of_iWord _ _ _ _ _ _ (by decide)
theorem NotHeader.sandnI (d a : SReg) (imm : W32) : NotHeader.Statement (.sandnI d a imm) := NotHeader.of_iWord _ _ _ _ _ _ (by decide)
theorem NotHeader.scmp (cc : Cc) (t : Ty) (d a b : SReg) : NotHeader.Statement (.scmp cc t d a b) := NotHeader.of_rWord _ _ _ _ _ _ _ _ (by decide)
theorem NotHeader.scmpI (cc : Cc) (d a : SReg) (imm : W32) : NotHeader.Statement (.scmpI cc d a imm) := NotHeader.of_iWord _ _ _ _ _ _ (by decide)
theorem NotHeader.sdiv (t : Ty) (d a b : SReg) : NotHeader.Statement (.sdiv t d a b) := NotHeader.of_rWord _ _ _ _ _ _ _ _ (by decide)
theorem NotHeader.srem (t : Ty) (d a b : SReg) : NotHeader.Statement (.srem t d a b) := NotHeader.of_rWord _ _ _ _ _ _ _ _ (by decide)
theorem NotHeader.sliI (d : SReg) (imm : W32) : NotHeader.Statement (.sliI d imm) := NotHeader.of_iWord _ _ _ _ _ _ (by decide)
theorem NotHeader.sliL (d : SReg) (imm : W64) : NotHeader.Statement (.sliL d imm) := NotHeader.of_iWord _ _ _ _ _ _ (by decide)
theorem NotHeader.ssel (t : Ty) (d a b c : SReg) : NotHeader.Statement (.ssel t d a b c) := NotHeader.of_rWord _ _ _ _ _ _ _ _ (by decide)
theorem NotHeader.spop (t : Ty) (d a : SReg) : NotHeader.Statement (.spop t d a) := NotHeader.of_rWord _ _ _ _ _ _ _ _ (by decide)
theorem NotHeader.sclz (t : Ty) (d a : SReg) : NotHeader.Statement (.sclz t d a) := NotHeader.of_rWord _ _ _ _ _ _ _ _ (by decide)
theorem NotHeader.sctz (t : Ty) (d a : SReg) : NotHeader.Statement (.sctz t d a) := NotHeader.of_rWord _ _ _ _ _ _ _ _ (by decide)
theorem NotHeader.slea (d a b : SReg) (sh : BitVec 3) : NotHeader.Statement (.slea d a b sh) := NotHeader.of_rWord _ _ _ _ _ _ _ _ (by decide)
theorem NotHeader.kand (d a b : KReg) : NotHeader.Statement (.kand d a b) := NotHeader.of_rWord _ _ _ _ _ _ _ _ (by decide)
theorem NotHeader.kor (d a b : KReg) : NotHeader.Statement (.kor d a b) := NotHeader.of_rWord _ _ _ _ _ _ _ _ (by decide)
theorem NotHeader.kxor (d a b : KReg) : NotHeader.Statement (.kxor d a b) := NotHeader.of_rWord _ _ _ _ _ _ _ _ (by decide)
theorem NotHeader.kandn (d a b : KReg) : NotHeader.Statement (.kandn d a b) := NotHeader.of_rWord _ _ _ _ _ _ _ _ (by decide)
theorem NotHeader.knot (d a : KReg) : NotHeader.Statement (.knot d a) := NotHeader.of_rWord _ _ _ _ _ _ _ _ (by decide)
theorem NotHeader.kmov (d a : KReg) : NotHeader.Statement (.kmov d a) := NotHeader.of_rWord _ _ _ _ _ _ _ _ (by decide)
theorem NotHeader.kpop (d : SReg) (a : KReg) : NotHeader.Statement (.kpop d a) := NotHeader.of_rWord _ _ _ _ _ _ _ _ (by decide)
theorem NotHeader.kfirst (d : SReg) (a : KReg) : NotHeader.Statement (.kfirst d a) := NotHeader.of_rWord _ _ _ _ _ _ _ _ (by decide)
theorem NotHeader.ktos (d : SReg) (a : KReg) : NotHeader.Statement (.ktos d a) := NotHeader.of_rWord _ _ _ _ _ _ _ _ (by decide)
theorem NotHeader.stok (d : KReg) (a : SReg) : NotHeader.Statement (.stok d a) := NotHeader.of_rWord _ _ _ _ _ _ _ _ (by decide)
theorem NotHeader.vadd (g : KReg) (t : Ty) (d a b : VReg) : NotHeader.Statement (.vadd g t d a b) := NotHeader.of_rWord _ _ _ _ _ _ _ _ (by decide)
theorem NotHeader.vsub (g : KReg) (t : Ty) (d a b : VReg) : NotHeader.Statement (.vsub g t d a b) := NotHeader.of_rWord _ _ _ _ _ _ _ _ (by decide)
theorem NotHeader.vmul (g : KReg) (t : Ty) (d a b : VReg) : NotHeader.Statement (.vmul g t d a b) := NotHeader.of_rWord _ _ _ _ _ _ _ _ (by decide)
theorem NotHeader.vmulh (g : KReg) (t : Ty) (d a b : VReg) : NotHeader.Statement (.vmulh g t d a b) := NotHeader.of_rWord _ _ _ _ _ _ _ _ (by decide)
theorem NotHeader.vand (g : KReg) (t : Ty) (d a b : VReg) : NotHeader.Statement (.vand g t d a b) := NotHeader.of_rWord _ _ _ _ _ _ _ _ (by decide)
theorem NotHeader.vor (g : KReg) (t : Ty) (d a b : VReg) : NotHeader.Statement (.vor g t d a b) := NotHeader.of_rWord _ _ _ _ _ _ _ _ (by decide)
theorem NotHeader.vxor (g : KReg) (t : Ty) (d a b : VReg) : NotHeader.Statement (.vxor g t d a b) := NotHeader.of_rWord _ _ _ _ _ _ _ _ (by decide)
theorem NotHeader.vshl (g : KReg) (t : Ty) (d a b : VReg) : NotHeader.Statement (.vshl g t d a b) := NotHeader.of_rWord _ _ _ _ _ _ _ _ (by decide)
theorem NotHeader.vshr (g : KReg) (t : Ty) (d a b : VReg) : NotHeader.Statement (.vshr g t d a b) := NotHeader.of_rWord _ _ _ _ _ _ _ _ (by decide)
theorem NotHeader.vsar (g : KReg) (t : Ty) (d a b : VReg) : NotHeader.Statement (.vsar g t d a b) := NotHeader.of_rWord _ _ _ _ _ _ _ _ (by decide)
theorem NotHeader.vmin (g : KReg) (t : Ty) (d a b : VReg) : NotHeader.Statement (.vmin g t d a b) := NotHeader.of_rWord _ _ _ _ _ _ _ _ (by decide)
theorem NotHeader.vmax (g : KReg) (t : Ty) (d a b : VReg) : NotHeader.Statement (.vmax g t d a b) := NotHeader.of_rWord _ _ _ _ _ _ _ _ (by decide)
theorem NotHeader.vabs (g : KReg) (t : Ty) (d a : VReg) : NotHeader.Statement (.vabs g t d a) := NotHeader.of_rWord _ _ _ _ _ _ _ _ (by decide)
theorem NotHeader.vneg (g : KReg) (t : Ty) (d a : VReg) : NotHeader.Statement (.vneg g t d a) := NotHeader.of_rWord _ _ _ _ _ _ _ _ (by decide)
theorem NotHeader.vadds (g : KReg) (t : Ty) (d a b : VReg) : NotHeader.Statement (.vadds g t d a b) := NotHeader.of_rWord _ _ _ _ _ _ _ _ (by decide)
theorem NotHeader.vsubs (g : KReg) (t : Ty) (d a b : VReg) : NotHeader.Statement (.vsubs g t d a b) := NotHeader.of_rWord _ _ _ _ _ _ _ _ (by decide)
theorem NotHeader.vaddI (g : KReg) (d a : VReg) (imm : W32) : NotHeader.Statement (.vaddI g d a imm) := NotHeader.of_iWord _ _ _ _ _ _ (by decide)
theorem NotHeader.vsubI (g : KReg) (d a : VReg) (imm : W32) : NotHeader.Statement (.vsubI g d a imm) := NotHeader.of_iWord _ _ _ _ _ _ (by decide)
theorem NotHeader.vmulI (g : KReg) (d a : VReg) (imm : W32) : NotHeader.Statement (.vmulI g d a imm) := NotHeader.of_iWord _ _ _ _ _ _ (by decide)
theorem NotHeader.vmulhI (g : KReg) (d a : VReg) (imm : W32) : NotHeader.Statement (.vmulhI g d a imm) := NotHeader.of_iWord _ _ _ _ _ _ (by decide)
theorem NotHeader.vandI (g : KReg) (d a : VReg) (imm : W32) : NotHeader.Statement (.vandI g d a imm) := NotHeader.of_iWord _ _ _ _ _ _ (by decide)
theorem NotHeader.vorI (g : KReg) (d a : VReg) (imm : W32) : NotHeader.Statement (.vorI g d a imm) := NotHeader.of_iWord _ _ _ _ _ _ (by decide)
theorem NotHeader.vxorI (g : KReg) (d a : VReg) (imm : W32) : NotHeader.Statement (.vxorI g d a imm) := NotHeader.of_iWord _ _ _ _ _ _ (by decide)
theorem NotHeader.vshlI (g : KReg) (d a : VReg) (imm : W32) : NotHeader.Statement (.vshlI g d a imm) := NotHeader.of_iWord _ _ _ _ _ _ (by decide)
theorem NotHeader.vshrI (g : KReg) (d a : VReg) (imm : W32) : NotHeader.Statement (.vshrI g d a imm) := NotHeader.of_iWord _ _ _ _ _ _ (by decide)
theorem NotHeader.vsarI (g : KReg) (d a : VReg) (imm : W32) : NotHeader.Statement (.vsarI g d a imm) := NotHeader.of_iWord _ _ _ _ _ _ (by decide)
theorem NotHeader.vminI (g : KReg) (d a : VReg) (imm : W32) : NotHeader.Statement (.vminI g d a imm) := NotHeader.of_iWord _ _ _ _ _ _ (by decide)
theorem NotHeader.vmaxI (g : KReg) (d a : VReg) (imm : W32) : NotHeader.Statement (.vmaxI g d a imm) := NotHeader.of_iWord _ _ _ _ _ _ (by decide)
theorem NotHeader.vcmp (g : KReg) (cc : Cc) (t : Ty) (d : KReg) (a b : VReg) : NotHeader.Statement (.vcmp g cc t d a b) := NotHeader.of_rWord _ _ _ _ _ _ _ _ (by decide)
theorem NotHeader.vcmpI (g : KReg) (cc : Cc) (d : KReg) (a : VReg) (imm : W32) : NotHeader.Statement (.vcmpI g cc d a imm) := NotHeader.of_iWord _ _ _ _ _ _ (by decide)
theorem NotHeader.vsel (g : KReg) (t : Ty) (d a b : VReg) (c : KReg) : NotHeader.Statement (.vsel g t d a b c) := NotHeader.of_rWord _ _ _ _ _ _ _ _ (by decide)
theorem NotHeader.vmov (g : KReg) (t : Ty) (d a : VReg) : NotHeader.Statement (.vmov g t d a) := NotHeader.of_rWord _ _ _ _ _ _ _ _ (by decide)
theorem NotHeader.vbcast (g : KReg) (t : Ty) (d : VReg) (a : SReg) : NotHeader.Statement (.vbcast g t d a) := NotHeader.of_rWord _ _ _ _ _ _ _ _ (by decide)
theorem NotHeader.vlid (g : KReg) (d : VReg) : NotHeader.Statement (.vlid g d) := NotHeader.of_rWord _ _ _ _ _ _ _ _ (by decide)
theorem NotHeader.vgetl (t : Ty) (d : SReg) (a : VReg) (b : SReg) : NotHeader.Statement (.vgetl t d a b) := NotHeader.of_rWord _ _ _ _ _ _ _ _ (by decide)
theorem NotHeader.vsetl (g : KReg) (t : Ty) (d : VReg) (a b : SReg) : NotHeader.Statement (.vsetl g t d a b) := NotHeader.of_rWord _ _ _ _ _ _ _ _ (by decide)
theorem NotHeader.vperm (g : KReg) (t : Ty) (d a b : VReg) : NotHeader.Statement (.vperm g t d a b) := NotHeader.of_rWord _ _ _ _ _ _ _ _ (by decide)
theorem NotHeader.vshup (g : KReg) (t : Ty) (d a : VReg) (dist : BitVec 5) : NotHeader.Statement (.vshup g t d a dist) := NotHeader.of_rWord _ _ _ _ _ _ _ _ (by decide)
theorem NotHeader.vshdn (g : KReg) (t : Ty) (d a : VReg) (dist : BitVec 5) : NotHeader.Statement (.vshdn g t d a dist) := NotHeader.of_rWord _ _ _ _ _ _ _ _ (by decide)
theorem NotHeader.vshxor (g : KReg) (t : Ty) (d a : VReg) (dist : BitVec 5) : NotHeader.Statement (.vshxor g t d a dist) := NotHeader.of_rWord _ _ _ _ _ _ _ _ (by decide)
theorem NotHeader.vrot (g : KReg) (t : Ty) (d a : VReg) (dist : BitVec 5) : NotHeader.Statement (.vrot g t d a dist) := NotHeader.of_rWord _ _ _ _ _ _ _ _ (by decide)
theorem NotHeader.vred (g : KReg) (op : RedOp) (t : Ty) (d : SReg) (a : VReg) : NotHeader.Statement (.vred g op t d a) := NotHeader.of_rWord _ _ _ _ _ _ _ _ (by decide)
theorem NotHeader.vscan (g : KReg) (t : Ty) (ex : Bool) (d a : VReg) : NotHeader.Statement (.vscan g t ex d a) := NotHeader.of_rWord _ _ _ _ _ _ _ _ (by decide)
theorem NotHeader.vmad (g : KReg) (t : Ty) (d a b c : VReg) : NotHeader.Statement (.vmad g t d a b c) := NotHeader.of_rWord _ _ _ _ _ _ _ _ (by decide)
theorem NotHeader.vdot4 (g : KReg) (t : Ty) (d a b c : VReg) : NotHeader.Statement (.vdot4 g t d a b c) := NotHeader.of_rWord _ _ _ _ _ _ _ _ (by decide)
theorem NotHeader.vpop (g : KReg) (t : Ty) (d a : VReg) : NotHeader.Statement (.vpop g t d a) := NotHeader.of_rWord _ _ _ _ _ _ _ _ (by decide)
theorem NotHeader.vclz (g : KReg) (t : Ty) (d a : VReg) : NotHeader.Statement (.vclz g t d a) := NotHeader.of_rWord _ _ _ _ _ _ _ _ (by decide)
theorem NotHeader.vctz (g : KReg) (t : Ty) (d a : VReg) : NotHeader.Statement (.vctz g t d a) := NotHeader.of_rWord _ _ _ _ _ _ _ _ (by decide)
theorem NotHeader.vext (g : KReg) (t : Ty) (d a b : VReg) : NotHeader.Statement (.vext g t d a b) := NotHeader.of_rWord _ _ _ _ _ _ _ _ (by decide)
theorem NotHeader.vgrow (n : W32) : NotHeader.Statement (.vgrow n) := NotHeader.of_iWord _ _ _ _ _ _ (by decide)
theorem NotHeader.vshrink (n : W32) : NotHeader.Statement (.vshrink n) := NotHeader.of_iWord _ _ _ _ _ _ (by decide)
theorem NotHeader.fadd (g : KReg) (t : Ty) (r : Rnd) (d a b : VReg) : NotHeader.Statement (.fadd g t r d a b) := NotHeader.of_rWord _ _ _ _ _ _ _ _ (by decide)
theorem NotHeader.fsub (g : KReg) (t : Ty) (r : Rnd) (d a b : VReg) : NotHeader.Statement (.fsub g t r d a b) := NotHeader.of_rWord _ _ _ _ _ _ _ _ (by decide)
theorem NotHeader.fmul (g : KReg) (t : Ty) (r : Rnd) (d a b : VReg) : NotHeader.Statement (.fmul g t r d a b) := NotHeader.of_rWord _ _ _ _ _ _ _ _ (by decide)
theorem NotHeader.fmin (g : KReg) (t : Ty) (d a b : VReg) : NotHeader.Statement (.fmin g t d a b) := NotHeader.of_rWord _ _ _ _ _ _ _ _ (by decide)
theorem NotHeader.fmax (g : KReg) (t : Ty) (d a b : VReg) : NotHeader.Statement (.fmax g t d a b) := NotHeader.of_rWord _ _ _ _ _ _ _ _ (by decide)
theorem NotHeader.fdiv (g : KReg) (t : Ty) (r : Rnd) (d a b : VReg) : NotHeader.Statement (.fdiv g t r d a b) := NotHeader.of_rWord _ _ _ _ _ _ _ _ (by decide)
theorem NotHeader.fsqrt (g : KReg) (t : Ty) (r : Rnd) (d a : VReg) : NotHeader.Statement (.fsqrt g t r d a) := NotHeader.of_rWord _ _ _ _ _ _ _ _ (by decide)
theorem NotHeader.fabs (g : KReg) (t : Ty) (d a : VReg) : NotHeader.Statement (.fabs g t d a) := NotHeader.of_rWord _ _ _ _ _ _ _ _ (by decide)
theorem NotHeader.fneg (g : KReg) (t : Ty) (d a : VReg) : NotHeader.Statement (.fneg g t d a) := NotHeader.of_rWord _ _ _ _ _ _ _ _ (by decide)
theorem NotHeader.ffma (g : KReg) (t : Ty) (r : Rnd) (d a b c : VReg) : NotHeader.Statement (.ffma g t r d a b c) := NotHeader.of_rWord _ _ _ _ _ _ _ _ (by decide)
theorem NotHeader.ffms (g : KReg) (t : Ty) (r : Rnd) (d a b c : VReg) : NotHeader.Statement (.ffms g t r d a b c) := NotHeader.of_rWord _ _ _ _ _ _ _ _ (by decide)
theorem NotHeader.ffnma (g : KReg) (t : Ty) (r : Rnd) (d a b c : VReg) : NotHeader.Statement (.ffnma g t r d a b c) := NotHeader.of_rWord _ _ _ _ _ _ _ _ (by decide)
theorem NotHeader.ffnms (g : KReg) (t : Ty) (r : Rnd) (d a b c : VReg) : NotHeader.Statement (.ffnms g t r d a b c) := NotHeader.of_rWord _ _ _ _ _ _ _ _ (by decide)
theorem NotHeader.frcp (g : KReg) (t : Ty) (d a : VReg) : NotHeader.Statement (.frcp g t d a) := NotHeader.of_rWord _ _ _ _ _ _ _ _ (by decide)
theorem NotHeader.frsq (g : KReg) (t : Ty) (d a : VReg) : NotHeader.Statement (.frsq g t d a) := NotHeader.of_rWord _ _ _ _ _ _ _ _ (by decide)
theorem NotHeader.fexp2 (g : KReg) (t : Ty) (d a : VReg) : NotHeader.Statement (.fexp2 g t d a) := NotHeader.of_rWord _ _ _ _ _ _ _ _ (by decide)
theorem NotHeader.flog2 (g : KReg) (t : Ty) (d a : VReg) : NotHeader.Statement (.flog2 g t d a) := NotHeader.of_rWord _ _ _ _ _ _ _ _ (by decide)
theorem NotHeader.fcmp (g : KReg) (cc : Cc) (d : KReg) (a b : VReg) : NotHeader.Statement (.fcmp g cc d a b) := NotHeader.of_rWord _ _ _ _ _ _ _ _ (by decide)
theorem NotHeader.fclass (g : KReg) (t : Ty) (d a : VReg) : NotHeader.Statement (.fclass g t d a) := NotHeader.of_rWord _ _ _ _ _ _ _ _ (by decide)
theorem NotHeader.fcvtFf (g : KReg) (dt st : Ty) (r : Rnd) (sat : Bool) (part : BitVec 3) (d a : VReg) : NotHeader.Statement (.fcvtFf g dt st r sat part d a) := NotHeader.of_rWord _ _ _ _ _ _ _ _ (by decide)
theorem NotHeader.fcvtFi (g : KReg) (dt st : Ty) (r : Rnd) (sat : Bool) (part : BitVec 3) (d a : VReg) : NotHeader.Statement (.fcvtFi g dt st r sat part d a) := NotHeader.of_rWord _ _ _ _ _ _ _ _ (by decide)
theorem NotHeader.fcvtIf (g : KReg) (dt st : Ty) (r : Rnd) (sat : Bool) (part : BitVec 3) (d a : VReg) : NotHeader.Statement (.fcvtIf g dt st r sat part d a) := NotHeader.of_rWord _ _ _ _ _ _ _ _ (by decide)
theorem NotHeader.fpack (g : KReg) (dt : Ty) (r : Rnd) (sat : Bool) (d a b : VReg) : NotHeader.Statement (.fpack g dt r sat d a b) := NotHeader.of_rWord _ _ _ _ _ _ _ _ (by decide)
theorem NotHeader.funpack (g : KReg) (st : Ty) (part : BitVec 3) (d a : VReg) : NotHeader.Statement (.funpack g st part d a) := NotHeader.of_rWord _ _ _ _ _ _ _ _ (by decide)
theorem NotHeader.qblk (g : KReg) (t : Ty) (r : Rnd) (d a : VReg) : NotHeader.Statement (.qblk g t r d a) := NotHeader.of_rWord _ _ _ _ _ _ _ _ (by decide)
theorem NotHeader.dqblk (g : KReg) (t : Ty) (d a : VReg) : NotHeader.Statement (.dqblk g t d a) := NotHeader.of_rWord _ _ _ _ _ _ _ _ (by decide)
theorem NotHeader.ld (g : KReg) (sz : Size) (sx : Bool) (d : VReg) (a : SReg) (res : KReg) (off : BitVec 12) : NotHeader.Statement (.ld g sz sx d a res off) := NotHeader.of_rWord _ _ _ _ _ _ _ _ (by decide)
theorem NotHeader.st (g : KReg) (sz : Size) (a : SReg) (b : VReg) (off : BitVec 12) : NotHeader.Statement (.st g sz a b off) := NotHeader.of_rWord _ _ _ _ _ _ _ _ (by decide)
theorem NotHeader.gth (g : KReg) (sz : Size) (sx : Bool) (d a : VReg) (res : KReg) (off : BitVec 12) : NotHeader.Statement (.gth g sz sx d a res off) := NotHeader.of_rWord _ _ _ _ _ _ _ _ (by decide)
theorem NotHeader.sct (g : KReg) (sz : Size) (a b : VReg) (off : BitVec 12) : NotHeader.Statement (.sct g sz a b off) := NotHeader.of_rWord _ _ _ _ _ _ _ _ (by decide)
theorem NotHeader.spld (g : KReg) (sz : Size) (am sx : Bool) (d : VReg) (a : BitVec 8) (off : BitVec 12) : NotHeader.Statement (.spld g sz am sx d a off) := NotHeader.of_rWord _ _ _ _ _ _ _ _ (by decide)
theorem NotHeader.spst (g : KReg) (sz : Size) (am : Bool) (a : BitVec 8) (b : VReg) (off : BitVec 12) : NotHeader.Statement (.spst g sz am a b off) := NotHeader.of_rWord _ _ _ _ _ _ _ _ (by decide)
theorem NotHeader.pf (g : KReg) (tgt : PfTgt) (a : VReg) (off : BitVec 12) : NotHeader.Statement (.pf g tgt a off) := NotHeader.of_rWord _ _ _ _ _ _ _ _ (by decide)
theorem NotHeader.resid (g : KReg) (a : VReg) (off : BitVec 12) : NotHeader.Statement (.resid g a off) := NotHeader.of_rWord _ _ _ _ _ _ _ _ (by decide)
theorem NotHeader.sld (sz : Size) (sx : Bool) (d a : SReg) (off : BitVec 12) : NotHeader.Statement (.sld sz sx d a off) := NotHeader.of_rWord _ _ _ _ _ _ _ _ (by decide)
theorem NotHeader.sst (sz : Size) (a b : SReg) (off : BitVec 12) : NotHeader.Statement (.sst sz a b off) := NotHeader.of_rWord _ _ _ _ _ _ _ _ (by decide)
theorem NotHeader.amo (g : KReg) (op : AmoOp) (t : Ty) (sc : Scope) (ret sp : Bool) (d a b c : VReg) : NotHeader.Statement (.amo g op t sc ret sp d a b c) := NotHeader.of_rWord _ _ _ _ _ _ _ _ (by decide)
theorem NotHeader.racc (g : KReg) (t : Ty) (sc : Scope) (a b : VReg) : NotHeader.Statement (.racc g t sc a b) := NotHeader.of_rWord _ _ _ _ _ _ _ _ (by decide)
theorem NotHeader.fence (sc : Scope) (k : FenceKind) : NotHeader.Statement (.fence sc k) := NotHeader.of_rWord _ _ _ _ _ _ _ _ (by decide)
theorem NotHeader.barInit (sp : Bool) (a b c : SReg) : NotHeader.Statement (.barInit sp a b c) := NotHeader.of_rWord _ _ _ _ _ _ _ _ (by decide)
theorem NotHeader.barExp (sp : Bool) (a b : SReg) : NotHeader.Statement (.barExp sp a b) := NotHeader.of_rWord _ _ _ _ _ _ _ _ (by decide)
theorem NotHeader.barArr (sc : Scope) (expv sp : Bool) (a b : SReg) : NotHeader.Statement (.barArr sc expv sp a b) := NotHeader.of_rWord _ _ _ _ _ _ _ _ (by decide)
theorem NotHeader.barWait (sc : Scope) (sp : Bool) (d a b : SReg) : NotHeader.Statement (.barWait sc sp d a b) := NotHeader.of_rWord _ _ _ _ _ _ _ _ (by decide)
theorem NotHeader.barTest (sc : Scope) (sp : Bool) (d a : SReg) : NotHeader.Statement (.barTest sc sp d a) := NotHeader.of_rWord _ _ _ _ _ _ _ _ (by decide)
theorem NotHeader.wcnt (ld st cp tl : BitVec 8) : NotHeader.Statement (.wcnt ld st cp tl) := NotHeader.of_iWord _ _ _ _ _ _ (by decide)
theorem NotHeader.seal (a b : SReg) : NotHeader.Statement (.seal a b) := NotHeader.of_rWord _ _ _ _ _ _ _ _ (by decide)
theorem NotHeader.unseal (a b : SReg) : NotHeader.Statement (.unseal a b) := NotHeader.of_rWord _ _ _ _ _ _ _ _ (by decide)
theorem NotHeader.cmr (t : Ty) (sc : Scope) (a b : SReg) : NotHeader.Statement (.cmr t sc a b) := NotHeader.of_rWord _ _ _ _ _ _ _ _ (by decide)
theorem NotHeader.cmrend (a : SReg) : NotHeader.Statement (.cmrend a) := NotHeader.of_rWord _ _ _ _ _ _ _ _ (by decide)
theorem NotHeader.br (imm : W32) : NotHeader.Statement (.br imm) := NotHeader.of_iWord _ _ _ _ _ _ (by decide)
theorem NotHeader.bnz (a : SReg) (imm : W32) : NotHeader.Statement (.bnz a imm) := NotHeader.of_iWord _ _ _ _ _ _ (by decide)
theorem NotHeader.bz (a : SReg) (imm : W32) : NotHeader.Statement (.bz a imm) := NotHeader.of_iWord _ _ _ _ _ _ (by decide)
theorem NotHeader.bany (a : KReg) (imm : W32) : NotHeader.Statement (.bany a imm) := NotHeader.of_iWord _ _ _ _ _ _ (by decide)
theorem NotHeader.ball (a : KReg) (imm : W32) : NotHeader.Statement (.ball a imm) := NotHeader.of_iWord _ _ _ _ _ _ (by decide)
theorem NotHeader.bnone (a : KReg) (imm : W32) : NotHeader.Statement (.bnone a imm) := NotHeader.of_iWord _ _ _ _ _ _ (by decide)
theorem NotHeader.bdiv (a : KReg) (imm : W32) : NotHeader.Statement (.bdiv a imm) := NotHeader.of_iWord _ _ _ _ _ _ (by decide)
theorem NotHeader.call (d : SReg) (imm : W32) : NotHeader.Statement (.call d imm) := NotHeader.of_iWord _ _ _ _ _ _ (by decide)
theorem NotHeader.ret (a : SReg) : NotHeader.Statement (.ret a) := NotHeader.of_rWord _ _ _ _ _ _ _ _ (by decide)
theorem NotHeader.callr (d a : SReg) : NotHeader.Statement (.callr d a) := NotHeader.of_rWord _ _ _ _ _ _ _ _ (by decide)
theorem NotHeader.jmpr (a : SReg) : NotHeader.Statement (.jmpr a) := NotHeader.of_rWord _ _ _ _ _ _ _ _ (by decide)
theorem NotHeader.spmask (d : KReg) : NotHeader.Statement (.spmask d) := NotHeader.of_rWord _ _ _ _ _ _ _ _ (by decide)
theorem NotHeader.spawn (sc : Scope) (sp : Bool) (a : SReg) : NotHeader.Statement (.spawn sc sp a) := NotHeader.of_rWord _ _ _ _ _ _ _ _ (by decide)
theorem NotHeader.spawnf (sc : Scope) (sp : Bool) (d a b : SReg) : NotHeader.Statement (.spawnf sc sp d a b) := NotHeader.of_rWord _ _ _ _ _ _ _ _ (by decide)
theorem NotHeader.join (sc : Scope) (d a b : SReg) : NotHeader.Statement (.join sc d a b) := NotHeader.of_rWord _ _ _ _ _ _ _ _ (by decide)
theorem NotHeader.done (sc : Scope) (a : SReg) : NotHeader.Statement (.done sc a) := NotHeader.of_rWord _ _ _ _ _ _ _ _ (by decide)
theorem NotHeader.yield (spill : Bool) : NotHeader.Statement (.yield spill) := NotHeader.of_rWord _ _ _ _ _ _ _ _ (by decide)
theorem NotHeader.qpush (sc : Scope) (d a b : SReg) : NotHeader.Statement (.qpush sc d a b) := NotHeader.of_rWord _ _ _ _ _ _ _ _ (by decide)
theorem NotHeader.qpop (sc : Scope) (d a b : SReg) : NotHeader.Statement (.qpop sc d a b) := NotHeader.of_rWord _ _ _ _ _ _ _ _ (by decide)
theorem NotHeader.stlpause : NotHeader.Statement .stlpause := NotHeader.of_rWord _ _ _ _ _ _ _ _ (by decide)
theorem NotHeader.stlresume : NotHeader.Statement .stlresume := NotHeader.of_rWord _ _ _ _ _ _ _ _ (by decide)
theorem NotHeader.pdist (d a : SReg) : NotHeader.Statement (.pdist d a) := NotHeader.of_rWord _ _ _ _ _ _ _ _ (by decide)
theorem NotHeader.mwld (wt : Ty) (s24 : Bool) (a b : SReg) : NotHeader.Statement (.mwld wt s24 a b) := NotHeader.of_rWord _ _ _ _ _ _ _ _ (by decide)
theorem NotHeader.mwsw : NotHeader.Statement .mwsw := NotHeader.of_rWord _ _ _ _ _ _ _ _ (by decide)
theorem NotHeader.mmac (xt : Ty) (sc : Scope) (osp add asrc : Bool) (d : SReg) (a : BitVec 8) (b c : SReg) : NotHeader.Statement (.mmac xt sc osp add asrc d a b c) := NotHeader.of_rWord _ _ _ _ _ _ _ _ (by decide)
theorem NotHeader.mrdy : NotHeader.Statement .mrdy := NotHeader.of_rWord _ _ _ _ _ _ _ _ (by decide)
theorem NotHeader.mwait (opnd : Bool) (n : BitVec 4) : NotHeader.Statement (.mwait opnd n) := NotHeader.of_rWord _ _ _ _ _ _ _ _ (by decide)
theorem NotHeader.mcnt (clr : Bool) (d : SReg) : NotHeader.Statement (.mcnt clr d) := NotHeader.of_rWord _ _ _ _ _ _ _ _ (by decide)
theorem NotHeader.cpy (sc : Scope) (dsp ssp bv bsp : Bool) (d a b c : SReg) : NotHeader.Statement (.cpy sc dsp ssp bv bsp d a b c) := NotHeader.of_rWord _ _ _ _ _ _ _ _ (by decide)
theorem NotHeader.chain (sc : Scope) (bsp : Bool) (a b : SReg) : NotHeader.Statement (.chain sc bsp a b) := NotHeader.of_rWord _ _ _ _ _ _ _ _ (by decide)
theorem NotHeader.vwreg (d a : SReg) : NotHeader.Statement (.vwreg d a) := NotHeader.of_rWord _ _ _ _ _ _ _ _ (by decide)
theorem NotHeader.vwdrop (a : SReg) : NotHeader.Statement (.vwdrop a) := NotHeader.of_rWord _ _ _ _ _ _ _ _ (by decide)
theorem NotHeader.vwsync (sc : Scope) (d a : SReg) : NotHeader.Statement (.vwsync sc d a) := NotHeader.of_rWord _ _ _ _ _ _ _ _ (by decide)
theorem NotHeader.bcmd (g : KReg) (sc : Scope) (a : VReg) (b : SReg) : NotHeader.Statement (.bcmd g sc a b) := NotHeader.of_rWord _ _ _ _ _ _ _ _ (by decide)
theorem NotHeader.bwait (sc : Scope) (d : SReg) : NotHeader.Statement (.bwait sc d) := NotHeader.of_rWord _ _ _ _ _ _ _ _ (by decide)
theorem NotHeader.xscale (sc : Scope) (a : SReg) : NotHeader.Statement (.xscale sc a) := NotHeader.of_rWord _ _ _ _ _ _ _ _ (by decide)
theorem NotHeader.xsum (sc : Scope) (a : SReg) : NotHeader.Statement (.xsum sc a) := NotHeader.of_rWord _ _ _ _ _ _ _ _ (by decide)
theorem NotHeader.sys (g : KReg) (n : BitVec 16) : NotHeader.Statement (.sys g n) := NotHeader.of_rWord _ _ _ _ _ _ _ _ (by decide)
theorem NotHeader.hyp (g : KReg) (n : BitVec 16) : NotHeader.Statement (.hyp g n) := NotHeader.of_rWord _ _ _ _ _ _ _ _ (by decide)
theorem NotHeader.sret : NotHeader.Statement .sret := NotHeader.of_rWord _ _ _ _ _ _ _ _ (by decide)
theorem NotHeader.hret : NotHeader.Statement .hret := NotHeader.of_rWord _ _ _ _ _ _ _ _ (by decide)
theorem NotHeader.rdsr (g : KReg) (n : BitVec 12) (d : BitVec 8) : NotHeader.Statement (.rdsr g n d) := NotHeader.of_rWord _ _ _ _ _ _ _ _ (by decide)
theorem NotHeader.wrsr (g : KReg) (n : BitVec 12) (a : BitVec 8) : NotHeader.Statement (.wrsr g n a) := NotHeader.of_rWord _ _ _ _ _ _ _ _ (by decide)
theorem NotHeader.wfi : NotHeader.Statement .wfi := NotHeader.of_rWord _ _ _ _ _ _ _ _ (by decide)
theorem NotHeader.ahalt : NotHeader.Statement .ahalt := (by decide : (0 : W64).extractLsb' 56 8 ≠ 0xFF)
theorem NotHeader.ali (d : BitVec 4) (imm : BitVec 16) : NotHeader.Statement (.ali d imm) := (by decide : (0 : W64).extractLsb' 56 8 ≠ 0xFF)
theorem NotHeader.alih (d : BitVec 4) (imm : BitVec 16) : NotHeader.Statement (.alih d imm) := (by decide : (0 : W64).extractLsb' 56 8 ≠ 0xFF)
theorem NotHeader.aadd (d a b : BitVec 4) : NotHeader.Statement (.aadd d a b) := (by decide : (0 : W64).extractLsb' 56 8 ≠ 0xFF)
theorem NotHeader.aaddi (d a : BitVec 4) (imm : BitVec 16) : NotHeader.Statement (.aaddi d a imm) := (by decide : (0 : W64).extractLsb' 56 8 ≠ 0xFF)
theorem NotHeader.aloop (a : BitVec 4) (t : BitVec 8) : NotHeader.Statement (.aloop a t) := (by decide : (0 : W64).extractLsb' 56 8 ≠ 0xFF)
theorem NotHeader.abne (a b : BitVec 4) (t : BitVec 8) : NotHeader.Statement (.abne a b t) := (by decide : (0 : W64).extractLsb' 56 8 ≠ 0xFF)
theorem NotHeader.aldw (inc : Bool) (d a b : BitVec 4) : NotHeader.Statement (.aldw inc d a b) := (by decide : (0 : W64).extractLsb' 56 8 ≠ 0xFF)
theorem NotHeader.adot (wf : BitVec 3) (inc : Bool) (d a b c : BitVec 4) : NotHeader.Statement (.adot wf inc d a b c) := (by decide : (0 : W64).extractLsb' 56 8 ≠ 0xFF)
theorem NotHeader.aclr (d n : BitVec 4) : NotHeader.Statement (.aclr d n) := (by decide : (0 : W64).extractLsb' 56 8 ≠ 0xFF)
theorem NotHeader.astc (sf cl inc : Bool) (d a n : BitVec 4) : NotHeader.Statement (.astc sf cl inc d a n) := (by decide : (0 : W64).extractLsb' 56 8 ≠ 0xFF)
theorem NotHeader.aemit (inc : Bool) (a b c : BitVec 4) : NotHeader.Statement (.aemit inc a b c) := (by decide : (0 : W64).extractLsb' 56 8 ≠ 0xFF)
theorem NotHeader.afadd (d a b : BitVec 4) : NotHeader.Statement (.afadd d a b) := (by decide : (0 : W64).extractLsb' 56 8 ≠ 0xFF)
theorem NotHeader.afmul (d a b : BitVec 4) : NotHeader.Statement (.afmul d a b) := (by decide : (0 : W64).extractLsb' 56 8 ≠ 0xFF)
theorem NotHeader.aldc (d a : BitVec 4) : NotHeader.Statement (.aldc d a) := (by decide : (0 : W64).extractLsb' 56 8 ≠ 0xFF)
theorem NotHeader.anop : NotHeader.Statement .anop := (by decide : (0 : W64).extractLsb' 56 8 ≠ 0xFF)
theorem NotHeader.blockEntry : NotHeader.Statement .blockEntry := (by decide : (0 : W64).extractLsb' 56 8 ≠ 0xFF)
theorem NotHeader.issueCycle : NotHeader.Statement .issueCycle := (by decide : (0 : W64).extractLsb' 56 8 ≠ 0xFF)
theorem NotHeader.stringStarvation : NotHeader.Statement .stringStarvation := (by decide : (0 : W64).extractLsb' 56 8 ≠ 0xFF)
theorem NotHeader.splitStarvation : NotHeader.Statement .splitStarvation := (by decide : (0 : W64).extractLsb' 56 8 ≠ 0xFF)
theorem NotHeader.registerSpill : NotHeader.Statement .registerSpill := (by decide : (0 : W64).extractLsb' 56 8 ≠ 0xFF)
theorem NotHeader.registerFill : NotHeader.Statement .registerFill := (by decide : (0 : W64).extractLsb' 56 8 ≠ 0xFF)
theorem NotHeader.interruptDelivery : NotHeader.Statement .interruptDelivery := (by decide : (0 : W64).extractLsb' 56 8 ≠ 0xFF)
theorem NotHeader.wfiWake : NotHeader.Statement .wfiWake := (by decide : (0 : W64).extractLsb' 56 8 ≠ 0xFF)
theorem NotHeader.l2WaitingStorePerform : NotHeader.Statement .l2WaitingStorePerform := (by decide : (0 : W64).extractLsb' 56 8 ≠ 0xFF)
theorem NotHeader.l1LeaseExpiry : NotHeader.Statement .l1LeaseExpiry := (by decide : (0 : W64).extractLsb' 56 8 ≠ 0xFF)
theorem NotHeader.l2VictimEvict : NotHeader.Statement .l2VictimEvict := (by decide : (0 : W64).extractLsb' 56 8 ≠ 0xFF)
theorem NotHeader.homeReadRequest : NotHeader.Statement .homeReadRequest := (by decide : (0 : W64).extractLsb' 56 8 ≠ 0xFF)
theorem NotHeader.homeOwnRequest : NotHeader.Statement .homeOwnRequest := (by decide : (0 : W64).extractLsb' 56 8 ≠ 0xFF)
theorem NotHeader.homeWriteback : NotHeader.Statement .homeWriteback := (by decide : (0 : W64).extractLsb' 56 8 ≠ 0xFF)
theorem NotHeader.homeAtomic : NotHeader.Statement .homeAtomic := (by decide : (0 : W64).extractLsb' 56 8 ≠ 0xFF)
theorem NotHeader.discover : NotHeader.Statement .discover := (by decide : (0 : W64).extractLsb' 56 8 ≠ 0xFF)
theorem NotHeader.agentProbeAnswer : NotHeader.Statement .agentProbeAnswer := (by decide : (0 : W64).extractLsb' 56 8 ≠ 0xFF)
theorem NotHeader.linkUp : NotHeader.Statement .linkUp := (by decide : (0 : W64).extractLsb' 56 8 ≠ 0xFF)
theorem NotHeader.linkWakeTimeout : NotHeader.Statement .linkWakeTimeout := (by decide : (0 : W64).extractLsb' 56 8 ≠ 0xFF)
theorem NotHeader.agentDeclaredDead : NotHeader.Statement .agentDeclaredDead := (by decide : (0 : W64).extractLsb' 56 8 ≠ 0xFF)
theorem NotHeader.agentReset : NotHeader.Statement .agentReset := (by decide : (0 : W64).extractLsb' 56 8 ≠ 0xFF)
theorem NotHeader.directoryEccError : NotHeader.Statement .directoryEccError := (by decide : (0 : W64).extractLsb' 56 8 ≠ 0xFF)
theorem NotHeader.eccError : NotHeader.Statement .eccError := (by decide : (0 : W64).extractLsb' 56 8 ≠ 0xFF)
theorem NotHeader.memoryDieDead : NotHeader.Statement .memoryDieDead := (by decide : (0 : W64).extractLsb' 56 8 ≠ 0xFF)
theorem NotHeader.pchRequestServe : NotHeader.Statement .pchRequestServe := (by decide : (0 : W64).extractLsb' 56 8 ≠ 0xFF)
theorem NotHeader.pchAgeLimit : NotHeader.Statement .pchAgeLimit := (by decide : (0 : W64).extractLsb' 56 8 ≠ 0xFF)
theorem NotHeader.bankRefresh : NotHeader.Statement .bankRefresh := (by decide : (0 : W64).extractLsb' 56 8 ≠ 0xFF)
theorem NotHeader.pageWalkComplete : NotHeader.Statement .pageWalkComplete := (by decide : (0 : W64).extractLsb' 56 8 ≠ 0xFF)
theorem NotHeader.tcinvAll : NotHeader.Statement .tcinvAll := (by decide : (0 : W64).extractLsb' 56 8 ≠ 0xFF)
theorem NotHeader.tcinvCtx : NotHeader.Statement .tcinvCtx := (by decide : (0 : W64).extractLsb' 56 8 ≠ 0xFF)
theorem NotHeader.tcinvPage : NotHeader.Statement .tcinvPage := (by decide : (0 : W64).extractLsb' 56 8 ≠ 0xFF)
theorem NotHeader.tcinvDrained : NotHeader.Statement .tcinvDrained := (by decide : (0 : W64).extractLsb' 56 8 ≠ 0xFF)
theorem NotHeader.regionEntryValidate : NotHeader.Statement .regionEntryValidate := (by decide : (0 : W64).extractLsb' 56 8 ≠ 0xFF)
theorem NotHeader.regionEntryInvalidate : NotHeader.Statement .regionEntryInvalidate := (by decide : (0 : W64).extractLsb' 56 8 ≠ 0xFF)
theorem NotHeader.regionWordWrite : NotHeader.Statement .regionWordWrite := (by decide : (0 : W64).extractLsb' 56 8 ≠ 0xFF)
theorem NotHeader.regionDrainDone : NotHeader.Statement .regionDrainDone := (by decide : (0 : W64).extractLsb' 56 8 ≠ 0xFF)
theorem NotHeader.timeExchange : NotHeader.Statement .timeExchange := (by decide : (0 : W64).extractLsb' 56 8 ≠ 0xFF)
theorem NotHeader.domainTimeLost : NotHeader.Statement .domainTimeLost := (by decide : (0 : W64).extractLsb' 56 8 ≠ 0xFF)
theorem NotHeader.barrierUpdate : NotHeader.Statement .barrierUpdate := (by decide : (0 : W64).extractLsb' 56 8 ≠ 0xFF)
theorem NotHeader.barrierPoll : NotHeader.Statement .barrierPoll := (by decide : (0 : W64).extractLsb' 56 8 ≠ 0xFF)
theorem NotHeader.convoyTransferStart : NotHeader.Statement .convoyTransferStart := (by decide : (0 : W64).extractLsb' 56 8 ≠ 0xFF)
theorem NotHeader.convoyLanding : NotHeader.Statement .convoyLanding := (by decide : (0 : W64).extractLsb' 56 8 ≠ 0xFF)
theorem NotHeader.engineBankStarvation : NotHeader.Statement .engineBankStarvation := (by decide : (0 : W64).extractLsb' 56 8 ≠ 0xFF)
theorem NotHeader.chainCopy : NotHeader.Statement .chainCopy := (by decide : (0 : W64).extractLsb' 56 8 ≠ 0xFF)
theorem NotHeader.chainGather : NotHeader.Statement .chainGather := (by decide : (0 : W64).extractLsb' 56 8 ≠ 0xFF)
theorem NotHeader.chainScatter : NotHeader.Statement .chainScatter := (by decide : (0 : W64).extractLsb' 56 8 ≠ 0xFF)
theorem NotHeader.chainLoop : NotHeader.Statement .chainLoop := (by decide : (0 : W64).extractLsb' 56 8 ≠ 0xFF)
theorem NotHeader.chainCond : NotHeader.Statement .chainCond := (by decide : (0 : W64).extractLsb' 56 8 ≠ 0xFF)
theorem NotHeader.chainWait : NotHeader.Statement .chainWait := (by decide : (0 : W64).extractLsb' 56 8 ≠ 0xFF)
theorem NotHeader.chainArrive : NotHeader.Statement .chainArrive := (by decide : (0 : W64).extractLsb' 56 8 ≠ 0xFF)
theorem NotHeader.chainEnd : NotHeader.Statement .chainEnd := (by decide : (0 : W64).extractLsb' 56 8 ≠ 0xFF)
theorem NotHeader.chainStop : NotHeader.Statement .chainStop := (by decide : (0 : W64).extractLsb' 56 8 ≠ 0xFF)
theorem NotHeader.porterStagingComplete : NotHeader.Statement .porterStagingComplete := (by decide : (0 : W64).extractLsb' 56 8 ≠ 0xFF)
theorem NotHeader.partitionRelease : NotHeader.Statement .partitionRelease := (by decide : (0 : W64).extractLsb' 56 8 ≠ 0xFF)
theorem NotHeader.arrayClaimGrant : NotHeader.Statement .arrayClaimGrant := (by decide : (0 : W64).extractLsb' 56 8 ≠ 0xFF)
theorem NotHeader.tileMwldLoad : NotHeader.Statement .tileMwldLoad := (by decide : (0 : W64).extractLsb' 56 8 ≠ 0xFF)
theorem NotHeader.tileMwswExchange : NotHeader.Statement .tileMwswExchange := (by decide : (0 : W64).extractLsb' 56 8 ≠ 0xFF)
theorem NotHeader.tileMmacStream : NotHeader.Statement .tileMmacStream := (by decide : (0 : W64).extractLsb' 56 8 ≠ 0xFF)
theorem NotHeader.tileOpComplete : NotHeader.Statement .tileOpComplete := (by decide : (0 : W64).extractLsb' 56 8 ≠ 0xFF)
theorem NotHeader.rodContribution : NotHeader.Statement .rodContribution := (by decide : (0 : W64).extractLsb' 56 8 ≠ 0xFF)
theorem NotHeader.cmRegistration : NotHeader.Statement .cmRegistration := (by decide : (0 : W64).extractLsb' 56 8 ≠ 0xFF)
theorem NotHeader.partialRecallAnswer : NotHeader.Statement .partialRecallAnswer := (by decide : (0 : W64).extractLsb' 56 8 ≠ 0xFF)
theorem NotHeader.partialWriteback : NotHeader.Statement .partialWriteback := (by decide : (0 : W64).extractLsb' 56 8 ≠ 0xFF)
theorem NotHeader.cmrComplete : NotHeader.Statement .cmrComplete := (by decide : (0 : W64).extractLsb' 56 8 ≠ 0xFF)
theorem NotHeader.cmrendComplete : NotHeader.Statement .cmrendComplete := (by decide : (0 : W64).extractLsb' 56 8 ≠ 0xFF)
theorem NotHeader.masterWrite : NotHeader.Statement .masterWrite := (by decide : (0 : W64).extractLsb' 56 8 ≠ 0xFF)
theorem NotHeader.derivationDelayExpiry : NotHeader.Statement .derivationDelayExpiry := (by decide : (0 : W64).extractLsb' 56 8 ≠ 0xFF)
theorem NotHeader.derivationStart : NotHeader.Statement .derivationStart := (by decide : (0 : W64).extractLsb' 56 8 ≠ 0xFF)
theorem NotHeader.derivationComplete : NotHeader.Statement .derivationComplete := (by decide : (0 : W64).extractLsb' 56 8 ≠ 0xFF)
theorem NotHeader.viewRead : NotHeader.Statement .viewRead := (by decide : (0 : W64).extractLsb' 56 8 ≠ 0xFF)
theorem NotHeader.vwdropComplete : NotHeader.Statement .vwdropComplete := (by decide : (0 : W64).extractLsb' 56 8 ≠ 0xFF)
theorem NotHeader.vwsyncComplete : NotHeader.Statement .vwsyncComplete := (by decide : (0 : W64).extractLsb' 56 8 ≠ 0xFF)
theorem NotHeader.bankCommandEnqueue : NotHeader.Statement .bankCommandEnqueue := (by decide : (0 : W64).extractLsb' 56 8 ≠ 0xFF)
theorem NotHeader.bankCommandStart : NotHeader.Statement .bankCommandStart := (by decide : (0 : W64).extractLsb' 56 8 ≠ 0xFF)
theorem NotHeader.bankCommandEnd : NotHeader.Statement .bankCommandEnd := (by decide : (0 : W64).extractLsb' 56 8 ≠ 0xFF)
theorem NotHeader.abacusStepLimit : NotHeader.Statement .abacusStepLimit := (by decide : (0 : W64).extractLsb' 56 8 ≠ 0xFF)
theorem NotHeader.launchSubmit : NotHeader.Statement .launchSubmit := (by decide : (0 : W64).extractLsb' 56 8 ≠ 0xFF)
theorem NotHeader.bazaarQueueEnable : NotHeader.Statement .bazaarQueueEnable := (by decide : (0 : W64).extractLsb' 56 8 ≠ 0xFF)
theorem NotHeader.bazaarQueueDisable : NotHeader.Statement .bazaarQueueDisable := (by decide : (0 : W64).extractLsb' 56 8 ≠ 0xFF)
theorem NotHeader.stealSearch : NotHeader.Statement .stealSearch := (by decide : (0 : W64).extractLsb' 56 8 ≠ 0xFF)
theorem NotHeader.stealRetry : NotHeader.Statement .stealRetry := (by decide : (0 : W64).extractLsb' 56 8 ≠ 0xFF)
theorem NotHeader.stealTake : NotHeader.Statement .stealTake := (by decide : (0 : W64).extractLsb' 56 8 ≠ 0xFF)
theorem NotHeader.droveSummary : NotHeader.Statement .droveSummary := (by decide : (0 : W64).extractLsb' 56 8 ≠ 0xFF)
theorem NotHeader.stealPauseLapse : NotHeader.Statement .stealPauseLapse := (by decide : (0 : W64).extractLsb' 56 8 ≠ 0xFF)
theorem NotHeader.caravanToken : NotHeader.Statement .caravanToken := (by decide : (0 : W64).extractLsb' 56 8 ≠ 0xFF)
theorem NotHeader.caravanTokenPass : NotHeader.Statement .caravanTokenPass := (by decide : (0 : W64).extractLsb' 56 8 ≠ 0xFF)
theorem NotHeader.taskStart : NotHeader.Statement .taskStart := (by decide : (0 : W64).extractLsb' 56 8 ≠ 0xFF)
theorem NotHeader.parkSpill : NotHeader.Statement .parkSpill := (by decide : (0 : W64).extractLsb' 56 8 ≠ 0xFF)
theorem NotHeader.spillRestore : NotHeader.Statement .spillRestore := (by decide : (0 : W64).extractLsb' 56 8 ≠ 0xFF)
theorem NotHeader.contextFault : NotHeader.Statement .contextFault := (by decide : (0 : W64).extractLsb' 56 8 ≠ 0xFF)
theorem NotHeader.ctxSave : NotHeader.Statement .ctxSave := (by decide : (0 : W64).extractLsb' 56 8 ≠ 0xFF)
theorem NotHeader.ctxRestore : NotHeader.Statement .ctxRestore := (by decide : (0 : W64).extractLsb' 56 8 ≠ 0xFF)
theorem NotHeader.ctxRestoreCluster : NotHeader.Statement .ctxRestoreCluster := (by decide : (0 : W64).extractLsb' 56 8 ≠ 0xFF)
theorem NotHeader.ctxPreempt : NotHeader.Statement .ctxPreempt := (by decide : (0 : W64).extractLsb' 56 8 ≠ 0xFF)
theorem NotHeader.ctxEnd : NotHeader.Statement .ctxEnd := (by decide : (0 : W64).extractLsb' 56 8 ≠ 0xFF)
theorem NotHeader.evictedShareReturn : NotHeader.Statement .evictedShareReturn := (by decide : (0 : W64).extractLsb' 56 8 ≠ 0xFF)
theorem NotHeader.hostRead : NotHeader.Statement .hostRead := (by decide : (0 : W64).extractLsb' 56 8 ≠ 0xFF)
theorem NotHeader.hostWrite : NotHeader.Statement .hostWrite := (by decide : (0 : W64).extractLsb' 56 8 ≠ 0xFF)
theorem NotHeader.hostSnoop : NotHeader.Statement .hostSnoop := (by decide : (0 : W64).extractLsb' 56 8 ≠ 0xFF)
theorem NotHeader.snoopFilterRecall : NotHeader.Statement .snoopFilterRecall := (by decide : (0 : W64).extractLsb' 56 8 ≠ 0xFF)
theorem NotHeader.dbellWrite : NotHeader.Statement .dbellWrite := (by decide : (0 : W64).extractLsb' 56 8 ≠ 0xFF)
theorem NotHeader.naeshLinkReturn : NotHeader.Statement .naeshLinkReturn := (by decide : (0 : W64).extractLsb' 56 8 ≠ 0xFF)
theorem NotHeader.caravanLaneFail : NotHeader.Statement .caravanLaneFail := (by decide : (0 : W64).extractLsb' 56 8 ≠ 0xFF)
theorem NotHeader.caravanRetrainDone : NotHeader.Statement .caravanRetrainDone := (by decide : (0 : W64).extractLsb' 56 8 ≠ 0xFF)
theorem NotHeader.remoteAccess : NotHeader.Statement .remoteAccess := (by decide : (0 : W64).extractLsb' 56 8 ≠ 0xFF)
theorem NotHeader.remoteRefusal : NotHeader.Statement .remoteRefusal := (by decide : (0 : W64).extractLsb' 56 8 ≠ 0xFF)
theorem NotHeader.remoteAccessTimeout : NotHeader.Statement .remoteAccessTimeout := (by decide : (0 : W64).extractLsb' 56 8 ≠ 0xFF)
theorem NotHeader.xscaleUnitContribute : NotHeader.Statement .xscaleUnitContribute := (by decide : (0 : W64).extractLsb' 56 8 ≠ 0xFF)
theorem NotHeader.xscaleUnitFinish : NotHeader.Statement .xscaleUnitFinish := (by decide : (0 : W64).extractLsb' 56 8 ≠ 0xFF)
theorem NotHeader.xsumUnitContribute : NotHeader.Statement .xsumUnitContribute := (by decide : (0 : W64).extractLsb' 56 8 ≠ 0xFF)
theorem NotHeader.xsumUnitFinish : NotHeader.Statement .xsumUnitFinish := (by decide : (0 : W64).extractLsb' 56 8 ≠ 0xFF)
theorem NotHeader.collectiveAreaClear : NotHeader.Statement .collectiveAreaClear := (by decide : (0 : W64).extractLsb' 56 8 ≠ 0xFF)
theorem NotHeader.packageReset : NotHeader.Statement .packageReset := (by decide : (0 : W64).extractLsb' 56 8 ≠ 0xFF)
theorem NotHeader.powerAverage : NotHeader.Statement .powerAverage := (by decide : (0 : W64).extractLsb' 56 8 ≠ 0xFF)
theorem NotHeader.linkSleep : NotHeader.Statement .linkSleep := (by decide : (0 : W64).extractLsb' 56 8 ≠ 0xFF)
theorem NotHeader.clusterGate : NotHeader.Statement .clusterGate := (by decide : (0 : W64).extractLsb' 56 8 ≠ 0xFF)
theorem NotHeader.clusterUngate : NotHeader.Statement .clusterUngate := (by decide : (0 : W64).extractLsb' 56 8 ≠ 0xFF)
theorem NotHeader.caravanPortIdle : NotHeader.Statement .caravanPortIdle := (by decide : (0 : W64).extractLsb' 56 8 ≠ 0xFF)
theorem NotHeader.caravanPortWake : NotHeader.Statement .caravanPortWake := (by decide : (0 : W64).extractLsb' 56 8 ≠ 0xFF)
theorem NotHeader.thermalThrottle : NotHeader.Statement .thermalThrottle := (by decide : (0 : W64).extractLsb' 56 8 ≠ 0xFF)
theorem NotHeader.memoryDieHot : NotHeader.Statement .memoryDieHot := (by decide : (0 : W64).extractLsb' 56 8 ≠ 0xFF)
theorem NotHeader.thermalStop : NotHeader.Statement .thermalStop := (by decide : (0 : W64).extractLsb' 56 8 ≠ 0xFF)
theorem NotHeader.resqRead : NotHeader.Statement .resqRead := (by decide : (0 : W64).extractLsb' 56 8 ≠ 0xFF)
theorem NotHeader.elogRead : NotHeader.Statement .elogRead := (by decide : (0 : W64).extractLsb' 56 8 ≠ 0xFF)
theorem NotHeader.mcmdRoutes : NotHeader.Statement .mcmdRoutes := (by decide : (0 : W64).extractLsb' 56 8 ≠ 0xFF)
theorem NotHeader.mcmdStealRing : NotHeader.Statement .mcmdStealRing := (by decide : (0 : W64).extractLsb' 56 8 ≠ 0xFF)
theorem NotHeader.registerWrite : NotHeader.Statement .registerWrite := (by decide : (0 : W64).extractLsb' 56 8 ≠ 0xFF)
theorem NotHeader.illegalInstruction : NotHeader.Statement .illegalInstruction := (by decide : (0 : W64).extractLsb' 56 8 ≠ 0xFF)
theorem NotHeader.flitRetransmit : NotHeader.Statement .flitRetransmit := (by decide : (0 : W64).extractLsb' 56 8 ≠ 0xFF)
theorem NotHeader.thermalThrottleEnd : NotHeader.Statement .thermalThrottleEnd := (by decide : (0 : W64).extractLsb' 56 8 ≠ 0xFF)
theorem NotHeader.memoryDieCooled : NotHeader.Statement .memoryDieCooled := (by decide : (0 : W64).extractLsb' 56 8 ≠ 0xFF)

end Sys2Proof.Laws
end

