-- ==== Sys2Proof/Tests/Slice0.lean ====
section
/-!
SUPPORT. Tests: words that the spec writes out and their instructions, a term that each check of WellFormed refuses, values and single steps from the spec's worked cases, and, for every obligation with
hypotheses, a state and operands that meet them (witness_<obligation>).
-/
namespace Sys2Proof.Tests
open Sys2Proof Sys2Proof.Machine
set_option Elab.async false

/-- A decidable property of every element of a list, one element after the other. -/
theorem all_of {α : Type} {p : α → Prop} [DecidablePred p] (l : List α) (h : l.all (fun x => decide (p x)) = true) : ∀ x ∈ l, p x := by
  simpa using h

-- ## States

/-- The boot string with every vector register at 5 on each lane and the whole allotment. -/
def full : State := State.reset.modStr 0 0 (fun t => { t with vreg := Vector.replicate 256 (some (Vector.replicate 32 5)), allot := 256 })

/-- Vector instructions pass R144 on it, and none of their registers is on loan. -/
def readyAll (s : State) (is : List Instr) : Bool := is.all (fun i => (s.me.allotFail s.sp.e (vopsOf i)).isNone && (s.me.loaned (vopsOf i)).isEmpty)

theorem vecReady_of (s : State) (is : List Instr) (h : readyAll s is = true) (i : Instr) (hi : i ∈ is) : s.vecReady i := by
  have := List.all_eq_true.mp h i hi
  simpa [State.vecReady] using this

/-- The boot string past a header at 0x100000001000, every vector register holding a value, with the memory address 0x100000002000 in s2 and, on every lane, in the pair v2, v3, and
lane 31 alone in k1. -/
def str1 : Str :=
  { Str.boot with
    allot := 256
    sreg := (Vector.replicate 64 0).set 2 0x100000002000
    kreg := (Vector.replicate 16 0).set 1 0x80000000
    vreg := ((Vector.replicate 256 (some (Vector.replicate 32 5))).set 2 (some (Vector.replicate 32 0x2000))).set 3 (some (Vector.replicate 32 0x1000))
    splits := (Vector.replicate 4 Split.empty).set 0 { Split.boot with enter := false, pc := 0x100000001008, blk := 0x100000001000 } }

/-- A machine after reset whose boot string is `t`. -/
def with_ (t : Str) : State :=
  { State.reset with cores := (Vector.replicate 256 Core.reset).set 0 { Core.boot with strs := (Vector.replicate 16 Str.empty).set 0 t } }

def run1 : State := with_ str1

/-- The same in user mode without translation. -/
def user1 : State := run1.modSp (fun x => { x with mode := .user })

/-- The location of 0x100000002000. -/
def loc2 : Nat := 0x800000000

/-- An access of n bytes at a location of this device's memory. -/
def accAt (l n : Nat) : Acc := { locs := (List.range n).map (l + ·), reg := none, sc := false, scLines := [], bkLines := [], sealLines := [], remote := false, trs := [] }

/-- `run1` with the line of `loc2` held by core 0's L1, and with it owned by its slice. -/
def held1 : State := { run1 with l1 := [{ core := 0, code := false, line := loc2 / 128, exp := none }] }
def own1 : State := { run1 with l2 := [{ agent := 0, line := loc2 / 128, st := .exDirty, lease := 0, low := false }] }

/-- What the checks of one lane leave. -/
def go (l n : Nat) : LaneChk := .go (accAt l n) [] false

/-- The boot string in user mode under an empty page table at 0x100000010000, whose line for low addresses the slice holds. -/
def nopage : State :=
  { (run1.modMe (fun t => { t with ptroot := 0x100000010001 })).modSp (fun x => { x with mode := .user }) with
    l2 := [{ agent := 0, line := 8, st := .exClean, lease := 0, low := false }] }

/-- `run1` with a range of one line at `loc2`. -/
def range1 : Range := { base := loc2, len := 128, lines := [loc2 / 128], far := none, fmt := .i32, scope := .pkg, starting := false, ending := false }
def cm1 : State := { run1 with ranges := run1.ranges.set 255 (some range1) }

/-- `run1` with s2 and s3 the base and length of a range. -/
def area1 (base len : W64) : State := (run1.setS 2 base).setS 3 len

-- ## Witnesses: hypotheses met together

theorem witness_ScalarArithmetic : Ty.isInt .i8 = true ∧ Ty.isInt .n64 = true := by decide

theorem witness_ScalarCompare : Ty.isInt .i32 = true ∧ Ty.read .i32 (State.reset.getS 1) < 1 ∧ ¬Ty.read .i32 (State.reset.getS 1) ≠ 0 := by decide +kernel

/-- A state whose sA is the least 32-bit integer and sB −1. -/
def corner : State := (State.reset.setS 1 0x80000000).setS 2 0xFFFFFFFF

theorem witness_ScalarDivide : Ty.isInt .i32 = true ∧ Ty.read .i32 (corner.getS 2) ≠ 0 ∧ Ty.read .i32 (corner.getS 3) = 0 ∧ Ty.isSigned .i32 = true ∧
    Ty.read .i32 (corner.getS 1) = -((2 ^ (Ty.width .i32 - 1) : Nat) : Int) ∧ Ty.read .i32 (corner.getS 2) = -1 := by decide +kernel

theorem witness_ScalarSelectCount : Ty.isInt .n16 = true := by decide

theorem witness_VectorInteger : Ty.isInt .i64 = true ∧ Ty.okRegs .i64 [2, 4, 254] = true ∧ Ty.isInt32 .i8 = true ∧ Ty.isSigned .i8 = true ∧
    readyAll full [.vadd 0 .i64 2 4 254, .vsub 0 .i64 2 4 254, .vmul 0 .i8 2 4 255, .vmulh 0 .n16 2 4 255, .vand 0 .i64 2 4 254, .vor 0 .i64 2 4 254,
      .vxor 0 .i64 2 4 254, .vshl 0 .i64 2 4 254, .vshr 0 .i64 2 4 254, .vsar 0 .i64 2 4 254, .vmin 0 .i64 2 4 254, .vmax 0 .i64 2 4 254, .vadds 0 .i8 2 4 255,
      .vsubs 0 .n8 2 4 255, .vabs 0 .i8 2 255, .vneg 0 .i8 2 255, .vaddI 0 2 255 1, .vsubI 0 2 255 1, .vmulI 0 2 255 1, .vmulhI 0 2 255 1, .vandI 0 2 255 1,
      .vorI 0 2 255 1, .vxorI 0 2 255 1, .vshlI 0 2 255 1, .vshrI 0 2 255 1, .vsarI 0 2 255 1, .vminI 0 2 255 1, .vmaxI 0 2 255 1] = true := by decide +kernel

theorem witness_VectorCompare : [Ty.i32, .n32, .i64, .n64].contains .i64 = true ∧ Ty.okRegs .i64 [4, 254] = true ∧ full.active 0 ≠ 0 ∧
    readyAll full [.vcmp 0 .lt .i64 1 4 254, .vcmpI 0 .eq 0 255 7] = true := by decide +kernel

theorem witness_LaneMoves : [Ty.n32, .n64].contains .n64 = true ∧ Ty.okRegs .n64 [2, 4, 254] = true ∧ (full.active 0).has ((full.getS 3).toNat % 32) = true ∧
    readyAll full [.vsel 0 .n64 2 4 254 1, .vmov 0 .n64 2 4, .vbcast 0 .n64 2 1, .vlid 0 2, .vgetl .i32 1 255 3, .vsetl 0 .n64 2 1 3] = true := by decide +kernel

theorem witness_LanePermutes : [Ty.n32, .n64].contains .n32 = true ∧ Ty.okRegs .n64 [2, 4] = true ∧
    readyAll full [.vperm 0 .n64 2 4 255, .vshup 0 .n64 2 4 31, .vshdn 0 .n64 2 4 0, .vshxor 0 .n32 2 255 16, .vrot 0 .n32 2 255 1] = true := by decide +kernel

/-- A string of which no lane is set in k1. -/
theorem witness_LaneReductions : [Ty.i32, .n32, .i64, .n64].contains .i64 = true ∧ Ty.okRegs .i64 [254] = true ∧ full.active 1 = 0 ∧ full.active 0 ≠ 0 ∧
    readyAll full [.vred 1 .add .i64 1 254, .vred 0 .min .i32 1 255, .vscan 0 .n32 true 2 255] = true := by decide +kernel

theorem witness_VectorMultiplyAdd : Ty.isInt32 .i16 = true ∧ [Ty.i8, .n8].contains .n8 = true ∧
    readyAll full [.vmad 0 .i16 2 3 4 255, .vdot4 0 .n8 2 3 4 255] = true := by decide +kernel

theorem witness_VectorBits : Ty.isInt32 .n8 = true ∧ [Ty.i32, .n32].contains .i32 = true ∧ (full.active 0).has 31 = true ∧
    readyAll full [.vpop 0 .n8 2 255, .vclz 0 .n8 2 255, .vctz 0 .n8 2 255, .vext 0 .i32 2 3 255] = true := by decide +kernel

theorem witness_VectorAllotment : State.reset.me.allot ≤ (64 : W32).toNat ∧ (63 : W32).toNat < State.reset.me.allot ∧ State.reset.me.marked = false ∧ (State.reset.me.lane 31).marked = false := by decide +kernel

theorem witness_AllotmentTrap : State.reset.me.allotFail State.reset.sp.e (vopsOf (.vadd 0 .i32 1 2 3)) = some 0x102 ∧ State.reset.me.allotFail State.reset.sp.e (vopsOf (.vlid 0 64)) = some 0x40 ∧
    (∀ g n r, Instr.vadd 0 .i32 1 2 3 ≠ .rdsr g n r ∧ Instr.vadd 0 .i32 1 2 3 ≠ .wrsr g n r) :=
  ⟨by decide +kernel, by decide +kernel, fun _ _ _ => ⟨nofun, nofun⟩⟩

theorem witness_RegisterFrame : (Instr.dests (.sadd .i32 1 2 3)).isSome = true ∧ (Instr.dests (.funpack 0 .f16 0 2 4)).isSome = true ∧
    full.me.allotFail full.sp.e (vopsOf (.funpack 0 .f16 0 2 4)) = none := by decide +kernel

theorem witness_FloatArithmetic : Ty.isArith .bf16 = true ∧ readyAll full [.fadd 0 .bf16 .rs 2 3 255, .fsub 0 .f32 .rd 2 3 255, .fmul 0 .f16 .ru 2 3 255,
    .fdiv 0 .f32 .rz 2 3 255, .fsqrt 0 .f32 .rn 2 255, .fmin 0 .f16 2 3 255, .fmax 0 .f16 2 3 255, .fabs 0 .f32 2 255, .fneg 0 .f32 2 255] = true := by decide +kernel

theorem witness_FloatFusedApprox : Ty.isArith .f32 = true ∧ readyAll full [.ffma 0 .f32 .rn 2 3 4 255, .ffms 0 .f32 .rn 2 3 4 255, .ffnma 0 .f16 .rs 2 3 4 255,
    .ffnms 0 .bf16 .ru 2 3 4 255, .frcp 0 .f32 2 255, .frsq 0 .f16 2 255, .fexp2 0 .bf16 2 255, .flog2 0 .f32 2 255] = true ∧
    (fIn .f32 false 0x3F800000 = .fin false 0x800000 (-23) ∧ fIn .f32 false 0x80000000 = .fin true 0 (-149) ∧ fIn .f32 false 0x7F800000 = .inf false) ∧ (0 < 253 ∧ 252 < 253) ∧ (0 < 127 ∧ 126 < 127) ∧
    (0 < 254 ∧ 253 < 254) := by decide +kernel

theorem witness_FloatCompareClass : Ty.isArith .f16 = true ∧ (Ty.f32.decode 0x7FC00000).isNan = true ∧ Ty.f32.decode 0x3F800000 = .fin false 0x800000 (-23) ∧
    readyAll full [.fcmp 0 .lt 1 2 255, .fclass 0 .f16 2 255] = true := by decide +kernel

theorem witness_FloatConvert : Instr.wellFormed (.fcvtFf 0 .e5m2 .f32 .rs true 3 2 255) = true ∧ Instr.wellFormed (.fcvtFi 0 .i64 .f32 .rz false 0 2 255) = true ∧
    Instr.wellFormed (.fcvtIf 0 .f32 .n8 .rn false 3 2 255) = true ∧ Instr.wellFormed (.fpack 0 .e4m3 .rn false 2 4 254) = true ∧
    Instr.wellFormed (.funpack 0 .e2m1 3 254 4) = true ∧ readyAll full [.fcvtFf 0 .e5m2 .f32 .rs true 3 2 255, .fcvtFi 0 .i64 .f32 .rz false 0 2 255,
      .fcvtIf 0 .f32 .n8 .rn false 3 2 255, .fpack 0 .e4m3 .rn false 2 4 254, .funpack 0 .e2m1 3 254 4] = true := by decide +kernel

theorem witness_FloatBlocks : Ty.isBlock .b4 = true ∧ full.active 1 = 0 ∧ full.active 0 ≠ 0 ∧ readyAll full [.qblk 0 .b4 .rn 9 8, .qblk 1 .b8 .rs 9 8, .dqblk 0 .b4 10 9] = true := by
  decide +kernel

theorem witness_FloatValues : (FVal.nan true).isNan = true ∧ (∃ x : FVal, x = .fin true 3 (-5)) := ⟨rfl, _, rfl⟩

theorem witness_FloatSpecials : Ty.isArith .f32 = true ∧ (0x7F800000 : Nat) < 2 ^ Ty.width .f32 ∧ (FVal.nan false).isNan = true ∧ fIn .f32 false 0x3F800000 = .fin false 0x800000 (-23) ∧
    fIn .f32 false 0x80000000 = .fin true 0 (-149) ∧ fIn .f32 false 0x7F800000 = .inf false ∧ fIn .f32 false 0xBF800000 = .fin true 0x800000 (-23) ∧
    (Ty.f32.decode 0x7F800001).isNan = true ∧ (Ty.f32.decode 0x3F800000).isNan = false := by decide +kernel

theorem witness_RoundingModes : (Rnd.ru = .ru ∧ true = true) ∧ (roundAt .rn false 3 0 false 0 1).2 = true ∧ (roundAt .rn false 2 0 false 0 1).2 = false := by
  decide +kernel

theorem witness_ScratchAccess :
    (Instr.wellFormed (.spld 0 .b4 true false 4 1 0x7F) = true ∧ readyAll run1 [.spld 0 .b4 true false 4 1 0x7F, .spst 0 .b4 false 0 4 0x10] = true ∧ run1.active 0 ≠ 0 ∧
      run1.full .ld = false ∧ run1.full .st = false ∧ Instr.wellFormed (.spst 0 .b4 false 0 4 0x10) = true ∧
      ∀ l < 32, run1.scrLane 4 (0x1FF80 + BitVec.ofNat 64 (l * 4)) = .ok (.scr 0 (0x1FF80 + 4 * l)) ∧
        run1.scrStoreLane 4 ((run1.getV 0 l).setWidth 64 + 0x3) = .ok (.scr 0 8)) ∧
    (run1.scrLane 4 0x2FFFC = .ok (.scr 0 0x2FFFC) ∧ run1.scrLane 4 0x30000 = .fail ordEntry 27 ∧ run1.scrStoreLane 4 0x30000 = .fail ordEntry 27) ∧
    (∀ n ∈ [0, 0x2FFFC], let a := BitVec.ofNat 64 n; scrRange a = true ∧ a.toNat % Size.b4.bytes = 0 ∧ scrPeer run1.cur.core a = false ∧ fld a 21 0 < 0x300000 ∧
      kthBit (run1.gmask run1.cur.core run1.me.ctx).toNat 16 (fld a 21 0 / 0x30000) = some 0 ∧ run1.scrPoison (.scr 0 n) 4 = false) ∧
    scrRange 0x2000000 = false ∧ scrRange 0x1FFFFFE = true ∧ (0x1FFFFFE : W64).toNat % Size.b4.bytes ≠ 0 := by decide +kernel

set_option maxRecDepth 100000 in
/-- Lane 31 loads alone. -/
theorem witness_MemoryLoads :
    (run1.active 1 = 1 <<< 31 ∧ Instr.wellFormed (.ld 1 .b4 false 4 2 0 0) = true ∧ readyAll run1 [.ld 1 .b4 false 4 2 0 0, .gth 1 .b8 false 4 2 3 0x7FF] = true ∧ run1.active 1 ≠ 0 ∧ run1.full .ld = false) ∧
    (let q := run1.chkLanes (run1.active 1).lanes (fun s l => s.chkLoad (Mask.ofLanes [l]) 1 (run1.getS 2 + (0 : BitVec 12).signExtend 64 + BitVec.ofNat 64 (l * 4)) 4 false);
      q.2 = (run1.active 1).lanes.map (fun l => (l, LaneChk.go (accAt (loc2 + l * 4) 4) [] false)) ∧ q.1.me = run1.me ∧ q.1.cur = run1.cur) ∧
    (Instr.wellFormed (.sld .b8 false 1 2 0) = true ∧ (run1.chkLoad run1.sp.m 1 (run1.getS 2 + (0 : BitVec 12).signExtend 64) 8 false).2 = go loc2 8 ∧
      (run1.chkLoad run1.sp.m 1 (run1.getS 2 + (0 : BitVec 12).signExtend 64) 8 false).1.me = run1.me) ∧
    (held1.check held1.who .load 1 0x100000002000 8 = (held1, .ok (accAt loc2 8)) ∧ (accAt loc2 8).remote = false ∧ (accAt loc2 8).sc = false ∧ held1.me.launch = none ∧
      (∀ l ∈ (accAt loc2 8).lines, held1.rangeOf l = none ∧ lineRemote l = false ∧ (held1.lineKind (accAt loc2 8) l).llcOnly = false ∧ (held1.lineKind (accAt loc2 8) l).noL1 = false ∧ held1.l1Hit held1.cur.core false l = true) ∧
      ∀ p ∈ (accAt loc2 8).locs, held1.viewAt p = none) :=
  ⟨by decide +kernel, ⟨by decide +kernel, rfl, rfl⟩, ⟨by decide +kernel, by decide +kernel, rfl⟩, Prod.ext (check_same _ _ _ _ _ _ (by decide +kernel)) (by decide +kernel), rfl, rfl, rfl, by decide +kernel, by decide +kernel⟩

/-- Lanes 30 and 31 in k1, with the address of lane 30 past the last. -/
def two1 : State := run1.modMe (fun t => { t with
  kreg := t.kreg.set 1 0xC0000000, vreg := t.vreg.set 3 (some ((Vector.replicate 32 (0x1000 : W32)).set 30 0x10000)), sreg := t.sreg.set 4 0x1000000000000 })

/-- What the checks of `two1` leave for n bytes: lane 31 goes on. -/
def partChk (n : Nat) (l : Nat) : Nat × LaneChk := (l, if l = 31 then go loc2 n else .trap 16)

theorem witness_MemoryLoadTraps :
    let q := two1.chkLanes (two1.active 1).lanes (fun s l => s.chkLoad (Mask.ofLanes [l]) 1 (two1.pairAddr 2 0 l) 4 true);
    (Instr.wellFormed (.gth 1 .b4 false 4 2 3 0) = true ∧ readyAll two1 [.gth 1 .b4 false 4 2 3 0] = true ∧ two1.full .ld = false ∧ (two1.active 1).lanes = [30, 31] ∧ q.2 = [30, 31].map (partChk 4) ∧
      (two1.chkLoad two1.sp.m 1 (two1.getS 4 + (0 : BitVec 12).signExtend 64) 8 false).2 = .trap 16 ∧ (two1.check two1.who .load 1 0x1000000000000 8).2 = .fail ordCanon 16) ∧
    q.1.me = two1.me ∧ q.1.cur = two1.cur := ⟨by decide +kernel, rfl, rfl⟩

/-- The stores of `st`, `sct` and `sst` on lane 31, and a store to a line under a lease. -/
theorem witness_MemoryStores :
    (own1.Inv ∧ Instr.wellFormed (.st 1 .b4 2 4 0) = true ∧ Instr.wellFormed (.sct 1 .b4 2 4 0) = true ∧ readyAll own1 [.st 1 .b4 2 4 0, .sct 1 .b4 2 4 0] = true ∧
      own1.active 1 ≠ 0 ∧ own1.full .st = false) ∧
    (∀ l < 32, (own1.active 1).has l = true → own1.chkWrite .store 1 (own1.getS 2 + (0 : BitVec 12).signExtend 64 + BitVec.ofNat 64 (l * 4)) 4 = (own1, go (loc2 + l * 4) 4) ∧
      (accAt (loc2 + l * 4) 4).sc = false ∧ own1.StoresAt (accAt (loc2 + l * 4) 4) 4) ∧
    (own1.chkWrite .store 1 (own1.getS 2 + (0 : BitVec 12).signExtend 64) 4 = (own1, go loc2 4) ∧ (accAt loc2 4).sc = false ∧
      own1.StoresAt (accAt loc2 4) 4) ∧
    (lineRemote (loc2 / 128) = false ∧ 0 < State.leaseOn { own1 with l2 := [{ agent := 0, line := loc2 / 128, st := .exClean, lease := 100, low := false }] } (loc2 / 128)) := by
  have line (x : Nat) (h : x = loc2 / 128) (a : Acc) (ha : a.bkLines = [] ∧ a.sealLines = []) : lineRemote x = false ∧ own1.leaseOn x = 0 ∧ (∀ p ∈ own1.pend, p.line ≠ x) ∧
      own1.poisoned x = false ∧ own1.isMaster x = false ∧ (own1.lineKind a x).llcOnly = false ∧ ∃ e, own1.l2Get (agentOf (dieOf own1.cur.core)) x = some e ∧ e.st ≠ .shared := by
    subst h
    refine ⟨by decide +kernel, by decide +kernel, by decide +kernel, by decide +kernel, by decide +kernel, ?_, { agent := 0, line := loc2 / 128, st := .exDirty, lease := 0, low := false }, by decide +kernel, by decide⟩
    simp only [State.lineKind, ha]
    decide +kernel
  have at_ (d : Nat) (hd : d + 4 ≤ 128) (hl : (accAt (loc2 + d) 4).lines = [loc2 / 128]) : own1.StoresAt (accAt (loc2 + d) 4) 4 :=
    ⟨rfl, rfl, rfl, by simp [accAt, List.range, List.range.loop], nofun, fun x hx => line x (by rw [hl] at hx; simpa using hx) _ ⟨rfl, rfl⟩⟩
  refine ⟨⟨inv_of _ (by decide +kernel), by decide +kernel⟩, fun l hl ha => ?_, ⟨chkWrite_same _ _ _ _ _ (accAt loc2 4) (by decide +kernel) rfl (by decide +kernel) ⟨rfl, rfl⟩, rfl,
    at_ 0 (by decide) (by decide +kernel)⟩, by decide +kernel⟩
  have h31 : l = 31 := by revert l; exact (by decide +kernel : ∀ l < 32, (own1.active 1).has l = true → l = 31)
  subst h31
  exact ⟨chkWrite_same _ _ _ _ _ (accAt (loc2 + 31 * 4) 4) (by decide +kernel) rfl (by decide +kernel) ⟨rfl, rfl⟩, rfl, at_ 124 (by decide) (by decide +kernel)⟩

/-- `two1` with the line of `loc2` owned by its slice; and in user mode with an SC page at 0x200000, which lane 31 addresses. -/
def pown1 : State := { two1 with l2 := own1.l2 }
def scTr : Tr :=
  { core := 0, ctx := 0, base := 0x200000, log := 21, pte := 0xC000080000000358, pteLoc := 0, isSealed := false, isMaster := false, entry := none, data := true, code := false, second := true }
def sc1 : State :=
  let s : State := { pown1 with tlb := [scTr] }
  (s.modMe (fun t => { t with ptroot := 0x100000010001, vreg := (t.vreg.set 2 (some (Vector.replicate 32 0x202000))).set 3 (some ((Vector.replicate 32 (0 : W32)).set 30 0x1000000)) })).modSp
    (fun x => { x with mode := .user })
def scAcc : Acc := { accAt loc2 4 with sc := true, scLines := [loc2 / 128], trs := [scTr] }

theorem sc1_go : sc1.chkWrite .store 1 0x202000 4 = (sc1, .go scAcc [] false) := by
  have h1 : (sc1.check sc1.who .store 1 0x202000 4).1 = sc1 :=
    check_hit sc1 sc1.who .store 1 0x202000 4 scTr scTr (by decide +kernel) (by decide +kernel) (by decide +kernel) (by decide +kernel)
  have h2 : (sc1.check sc1.who .store 1 0x202000 4).2 = .ok scAcc := by decide +kernel
  have h3 : sc1.scBusy = false := by decide +kernel
  have h4 : scAcc.reg.isSome = false := rfl
  simp only [State.chkWrite, h1, h2, h3, h4, Bool.and_false, countOnce_same sc1 _ _ _ rfl]
  rfl

/-- Lane 30 traps on each, and lane 31 stores, or would store to an SC page. -/
theorem witness_MemoryStoreTraps :
    (pown1.Inv ∧ readyAll pown1 [.sct 1 .b4 2 4 0] = true ∧ pown1.full .st = false ∧ (pown1.active 1).lanes = [30, 31] ∧
      (pown1.chkWrite .store 1 (pown1.pairAddr 2 0 31) 4 = (pown1, go loc2 4) ∧ pown1.StoresAt (accAt loc2 4) 4 ∧ (accAt loc2 4).sc = false) ∧
      (pown1.chkWrite .store 1 (pown1.pairAddr 2 0 30) 4 = (pown1, .trap 16) ∧ ∀ i < 4, pown1.scAt pown1.who (pown1.pairAddr 2 0 30 + BitVec.ofNat 64 i) = false)) ∧
    (sc1.Inv ∧ readyAll sc1 [.sct 1 .b4 2 4 0] = true ∧ sc1.full .st = false ∧ (sc1.active 1).lanes = [30, 31] ∧
      (sc1.chkWrite .store 1 (sc1.pairAddr 2 0 31) 4 = (sc1, .go scAcc [] false) ∧ sc1.StoresAt scAcc 4 ∧ scAcc.sc = true) ∧
      (sc1.chkWrite .store 1 (sc1.pairAddr 2 0 30) 4 = (sc1, .trap 16) ∧ ∀ i < 4, sc1.scAt sc1.who (sc1.pairAddr 2 0 30 + BitVec.ofNat 64 i) = false)) := by
  have e : pown1.pairAddr 2 0 31 = 0x100000002000 ∧ pown1.pairAddr 2 0 30 = 0x1000000002000 ∧ sc1.pairAddr 2 0 31 = 0x202000 ∧ sc1.pairAddr 2 0 30 = 0x100000000202000 := by decide +kernel
  have line (s : State) (h : (lineRemote (loc2 / 128) = false ∧ s.leaseOn (loc2 / 128) = 0 ∧ (∀ p ∈ s.pend, p.line ≠ loc2 / 128) ∧ s.poisoned (loc2 / 128) = false ∧ s.isMaster (loc2 / 128) = false) ∧
      s.l2Get (agentOf (dieOf s.cur.core)) (loc2 / 128) = some { agent := 0, line := loc2 / 128, st := .exDirty, lease := 0, low := false }) (a : Acc) (hl : a.lines = [loc2 / 128])
      (ht : ∀ t ∈ a.trs, pteD t.pte = true) (ha : a.reg = none ∧ a.remote = false ∧ a.locs.length = 4 ∧ a.locs.Nodup) (hk : (s.lineKind a (loc2 / 128)).llcOnly = false) : s.StoresAt a 4 := by
    refine ⟨ha.1, ha.2.1, ha.2.2.1, ha.2.2.2, ht, fun x hx => ?_⟩
    rw [hl, List.mem_singleton] at hx
    subst hx
    exact ⟨h.1.1, h.1.2.1, h.1.2.2.1, h.1.2.2.2.1, h.1.2.2.2.2, hk, _, h.2, by decide⟩
  rw [e.1, e.2.1, e.2.2.1, e.2.2.2]
  refine ⟨⟨inv_of _ (by decide +kernel), by decide +kernel, by decide +kernel, by decide +kernel, ⟨?_, ?_, rfl⟩, ?_, by decide +kernel⟩,
    ⟨inv_of _ (by decide +kernel), by decide +kernel, by decide +kernel, by decide +kernel, ⟨sc1_go, ?_, rfl⟩, ?_, by decide +kernel⟩⟩
  · exact chkWrite_same _ _ _ _ _ (accAt loc2 4) (by decide +kernel) rfl (by decide +kernel) ⟨rfl, rfl⟩
  · exact line _ (by decide +kernel) _ (by decide +kernel) nofun (by decide +kernel) (by decide +kernel)
  · exact Prod.ext rfl (by decide +kernel)
  · exact line _ (by decide +kernel) _ (by decide +kernel) (by decide +kernel) (by decide +kernel) (by decide +kernel)
  · exact Prod.ext rfl (by decide +kernel)

/-- The walks of `nopage` read one line, whose entry is not valid. -/
theorem nopage_read (pa : Nat) (h : nopage.bankAt pa (lineOf 1024) = false) : nopage.walkRead nopage.who pa 1024 = (nopage, .ok) := by
  have hr : nopage.rangeOf (lineOf 1024) = none := by decide +kernel
  have hp : nopage.isPlane (lineOf 1024) = false := by decide +kernel
  have h2 : (nopage.l2Get (agentOf (dieOf nopage.who.core)) (lineOf 1024)).isSome = true := by decide +kernel
  have hz : nopage.poisoned (lineOf 1024) = false := by decide +kernel
  have h0 : lineRemote (lineOf 1024) = false := by decide
  simp [State.walkRead, h, State.readAny, hr, State.readLine, State.l2Fill, h0, hp, h2, hz, show nopage.pend = [] from rfl, show nopage.closing = [] from rfl, show nopage.deadAgents = [] from rfl]

theorem nopage_walk (va : W64) (h : nopage.decodePa (fld nopage.who.ptroot 47 12 * 4096 + 8 * (va.toNat / 2 ^ levelShift 4 % 512)) = .loc 1024)
    (hb : nopage.bankAt (fld nopage.who.ptroot 47 12 * 4096 + 8 * (va.toNat / 2 ^ levelShift 4 % 512)) (lineOf 1024) = false) :
    nopage.walkGo nopage.who va 4 (fld nopage.who.ptroot 47 12 * 4096) = (nopage, .fail ordResident 17) := by
  have he : (nopage.peek64 1024).getLsbD 63 = false := by decide +kernel
  unfold State.walkGo
  simp only [h, nopage_read _ hb, he]
  rfl

theorem nopage_tr (va : W64) (hv : va = 0x5000 ∨ va = 0x6000) : nopage.translate nopage.who .hint va = (nopage, .fail ordResident 17) := by
  have t : (nopage.tlbFind nopage.who .hint va = none ∧ nopage.walkStart nopage.who va = (4, fld nopage.who.ptroot 47 12 * 4096)) ∧
      nopage.decodePa (fld nopage.who.ptroot 47 12 * 4096 + 8 * (va.toNat / 2 ^ levelShift 4 % 512)) = .loc 1024 ∧
      nopage.bankAt (fld nopage.who.ptroot 47 12 * 4096 + 8 * (va.toNat / 2 ^ levelShift 4 % 512)) (lineOf 1024) = false := by
    obtain rfl | rfl := hv <;> decide +kernel
  have w : nopage.walk nopage.who .hint va = (nopage, .fail ordResident 17) := by
    unfold State.walk
    rw [t.1.2]
    dsimp only
    rw [nopage_walk va t.2.1 t.2.2]
  unfold State.translate
  rw [t.1.1]
  dsimp only
  rw [w]

/-- Each condition of R92: an address too high without translation, one of no canonical form, a misaligned one, a walk that fails, a page that is cached, and an access of two pages that both fail. -/
theorem witness_TranslationConditions :
    (run1.who.untranslated = true ∧ 2 ^ 48 ≤ (0x1000000000000 : W64).toNat) ∧ (nopage.who.untranslated = false ∧ canonical 0x0100000000000000 = false) ∧
    (canonical 0x5001 = true ∧ canonical (0x5001 + BitVec.ofNat 64 3) = true ∧ (0x5001 : W64).toNat % 4 ≠ 0) ∧
    (canonical 0x5000 = true ∧ (0x5000 : W64).toNat % 4 = 0 ∧ (0x5000 : W64).toNat / 4096 = (0x5000 + BitVec.ofNat 64 3 : W64).toNat / 4096 ∧
      nopage.translate nopage.who .hint 0x5000 = (nopage, .fail ordResident 17)) ∧
    (sc1.who.untranslated = false ∧ canonical 0x202000 = true ∧ sc1.translate sc1.who .store 0x202000 = (sc1, .ok scTr)) ∧
    (canonical 0x5FFE = true ∧ canonical (0x5FFE + BitVec.ofNat 64 0xFFF) = true ∧ (0x5FFE : W64).toNat % 1 = 0 ∧ (0x5000 : W64).toNat / 4096 ≠ (0x5000 + BitVec.ofNat 64 0x1000 : W64).toNat / 4096 ∧
      nopage.translate nopage.who .hint (0x5000 + BitVec.ofNat 64 0x1000) = (nopage, .fail ordResident 17)) ∧
    (let pa := fld nopage.who.ptroot 47 12 * 4096 + 8 * ((0x5000 : W64).toNat / 2 ^ levelShift 4 % 512);
      nopage.decodePa pa = .loc 1024 ∧ nopage.naeshDown = false ∧ nopage.walkRead nopage.who pa 1024 = (nopage, .ok)) :=
  ⟨by decide +kernel, by decide +kernel, by decide +kernel, ⟨by decide +kernel, by decide, by decide, nopage_tr _ (.inl rfl)⟩,
    ⟨by decide +kernel, by decide, translate_hit _ _ _ _ _ (by decide +kernel) (by decide +kernel)⟩, ⟨by decide, by decide, by decide, by decide, nopage_tr _ (.inr rfl)⟩,
    ⟨by decide +kernel, rfl, nopage_read _ (by decide +kernel)⟩⟩

theorem witness_Hints : readyAll run1 [.pf 0 .l2 2 0x7FF, .resid 0 2 0] = true ∧ (run1.active 2 = 0 ∧ readyAll run1 [.pf 2 .l1 2 0] = true) ∧
    nopage.check nopage.who .hint 1 0x5000 1 = (nopage, .fail ordResident 17) ∧
    ((∀ z ∈ [[], [loc2 / 128]], ({ run1 with pz := z } : State).check run1.who .hint 1 0x100000002000 1 = ({ run1 with pz := z }, .ok (accAt loc2 1))) ∧ (accAt loc2 1).lines = [loc2 / 128] ∧
      run1.poisoned (loc2 / 128) = false ∧ ({ run1 with pz := [loc2 / 128] } : State).poisoned (loc2 / 128) = true) ∧
    (lineRemote (2 ^ 41) = true ∧ run1.poisoned (2 ^ 41) = false ∧ lineRemote (loc2 / 128) = false ∧ lineHbm (loc2 / 128) = true) := by
  refine ⟨by decide +kernel, by decide +kernel, ?_, ⟨?_, by decide +kernel, by decide +kernel, by decide +kernel⟩, by decide +kernel⟩
  rotate_left
  · intro z hz
    simp only [List.mem_cons, List.not_mem_nil, or_false] at hz
    obtain rfl | rfl := hz <;> exact Prod.ext (check_same _ _ _ _ _ _ (by decide +kernel)) (by decide +kernel)
  have tr := nopage_tr 0x5000 (.inl rfl)
  have hu : nopage.who.untranslated = false := by decide +kernel
  have hc : canonical 0x5000 = true := by decide
  revert hc tr
  generalize (0x5000 : W64) = va
  intro tr hc
  simp [State.check, hu, hc, tr, Nat.mod_one]

theorem witness_Atomics :
    (run1.active 1 ≠ 0 ∧ run1.full .ld = false ∧ run1.full .st = false ∧ readyAll run1 [.amo 1 .cas .n64 .core true true 4 0 6 8, .amo 1 .add .i32 .die false false 0 2 6 0] = true ∧
      Instr.wellFormed (.amo 1 .cas .n64 .core true true 4 0 6 8) = true ∧ Instr.wellFormed (.amo 1 .add .i32 .die false false 0 2 6 0) = true ∧ Instr.wellFormed (.racc 1 .i32 .pkg 2 8) = true ∧
      readyAll cm1 [.racc 1 .i32 .pkg 2 8] = true) ∧
    (∀ l ∈ (run1.active 1).lanes, (run1.modMe (fun t => { t with vreg := t.vreg.set 0 (some (Vector.replicate 32 0x1FFF8)) })).scrLane 8 (((0x1FFF8 : W32)).setWidth 64) = .ok (.scr 0 0x1FFF8)) ∧
    (let q := own1.chkLanes (own1.active 1).lanes (fun s l => s.chkAmo .die (own1.pairAddr 2 0 l) 4);
      q.2 = (own1.active 1).lanes.map (fun l => (l, go loc2 4)) ∧ q.1.Performs false ((own1.active 1).lanes.map (fun l => (l, go loc2 4))) (own1.pairAddr 2 0) q.1 ∧ (∀ x ∈ (accAt loc2 4).lines, q.1.isMaster x = false) ∧ q.1.me = own1.me ∧ q.1.cur = own1.cur) ∧
    (let q := cm1.chkLanes (cm1.active 1).lanes (fun s l => s.chkRacc .i32 .pkg (cm1.pairAddr 2 0 l));
      q.2 = (cm1.active 1).lanes.map (fun l => (l, go loc2 4)) ∧ q.1.Performs false ((cm1.active 1).lanes.map (fun l => (l, go loc2 4))) (cm1.pairAddr 2 0) q.1 ∧ (cm1.active 1).lanes = [31] ∧ q.1.poisoned (lineOf loc2) = false ∧ q.1.me = cm1.me ∧ q.1.cur = cm1.cur) :=
  ⟨by decide +kernel, by decide +kernel,
    ⟨by decide +kernel, performs_same _ _ _ _ (by decide +kernel), by decide +kernel, (State.chkLanes_side _ _ _ (fun s l => s.chkAmo_side _ _ _)).me, (State.chkLanes_side _ _ _ (fun s l => s.chkAmo_side _ _ _)).cur⟩,
    by decide +kernel, performs_same _ _ _ _ (by decide +kernel), by decide +kernel, by decide +kernel, (State.chkLanes_side _ _ _ (fun s l => s.chkRacc_side _ _ _)).me, (State.chkLanes_side _ _ _ (fun s l => s.chkRacc_side _ _ _)).cur⟩

theorem witness_AtomicValues : [Ty.i32, .n32, .i64, .n64].contains .n64 = true := by decide

/-- `run1` with a store that waits at the slice. -/
def waits1 : State := { run1 with pend := [{ die := 0, core := 0, slot := 0, uid := 1, op := 5, line := loc2 / 128, bank := false, cells := [(loc2, 1)] }] }

/-- `run1` whose string has a load, or a write of its engine, at another device. -/
def away (wr : Bool) : State :=
  { run1 with remote := [{ core := 0, slot := 0, uid := run1.me.uid, lanes := 1, va := 0x2000, loc := 2 ^ 48, since := 0, wr := wr, sc := false, code := false, fault := none }] }

theorem witness_FencesAndCounters : run1.released .sys = true ∧ waits1.released .core = false ∧ FenceKind.rel ≠ .acq ∧
    (∀ r ∈ (away true).remote, r.core = (away true).cur.core → r.uid = (away true).me.uid → r.wr = true) ∧
    (∃ r ∈ (away false).remote, r.core = (away false).cur.core ∧ r.uid = (away false).me.uid ∧ r.wr = false) := by decide +kernel

/-- A barrier in memory and one in scratchpad, PHASE 0 in both. -/
theorem witness_Barriers :
    let q := run1.barCheck run1.who false (run1.getS 2);
    (q.2 = .ok (.mem loc2) ∧ placeRemote (.mem loc2) = false ∧ q.1.released .pkg = true ∧ (Memory.wf q.1.mem && Memory.wf q.1.scr) = true ∧
      (q.1.barWord (.mem loc2) 0).extractLsb' 56 8 ≠ (run1.getS 2 >>> 40).setWidth 8 ∧ (q.1.barWord (.mem loc2) 0).extractLsb' 56 8 = (run1.getS 3).setWidth 8 ∧
      (q.1.loadsBack = true ∧ run1.sp.wait = .none ∧ (run1.modSp (fun x => { x with wait := .passed (.mem loc2) })).sp.wait = .passed (.mem loc2)) ∧
      (run1.barCheck run1.who true 0x1FFE0).2 = .ok (.scr 0 0x1FFE0) ∧ 0x1FFE0 + 32 ≤ 2 ^ 22 ∧ (1048575 : W64).toNat ≤ 1048575 ∧ (134217727 : W64).toNat ≤ 2 ^ 27 - 1) ∧
    q.1.me = run1.me ∧ q.1.cur = run1.cur := ⟨by decide +kernel, (run1.barCheck_side _ _ _).me, (run1.barCheck_side _ _ _).cur⟩

/-- The clauses at their limits: PARR 0 and an arrival; PBYTES one past its range, and at its end; PARR 1 and PBYTES 0. -/
theorem witness_BarrierUpdate :
    ((0 : W64).extractLsb' 28 20).toNat = 0 ∧
    (((0x7FFFFFF : W64).extractLsb' 0 28).toInt + 1 - 0 > (2 ^ 27 : Nat) - 1 ∧ ((0x8000000 : W64).extractLsb' 0 28).toInt + 0 - 1 < -(2 ^ 27 : Nat)) ∧
    (((0x20000000 : W64).extractLsb' 28 20).toNat ≠ 0 ∧ ((0x20000000 : W64).extractLsb' 28 20).toNat - 1 ≠ 0 ∧ ((0x27FFFFFF : W64).extractLsb' 0 28).toInt + 0 - 0 ≤ (2 ^ 27 : Nat) - 1) ∧
    (((0x10000000 : W64).extractLsb' 28 20).toNat - 1 = 0 ∧ ((0x10000000 : W64).extractLsb' 0 28).toInt + 0 - 0 = 0) := by decide

/-- The pages of a `seal` of 2 MiB, and of a range of one line. -/
def sealPages : List PageAt := [{ va := 0x100000200000, log := 21, tr := none, phys := .loc 0x8000 }]
def cmrPages : List PageAt := [{ va := 0x100000002000, log := 21, tr := none, phys := .loc loc2 }]

/-- `run1` with that page sealed and a copy of its first line in an L2, under a lease that ends at n. -/
def sealed1 (n : Nat) : State := { run1 with seals := sealPages.map PageAt.pa, l2 := [{ agent := 0, line := 0x8000 / 128, st := .shared, lease := n, low := false }] }

theorem witness_SealsAndRanges :
    (let q := run1.pagesOf run1.who .store false false ((0x200000 : W64).toNat / 4096 + 1) (0x100000200000 : W64).toNat ((0x100000200000 : W64).toNat + (0x200000 : W64).toNat);
      (q.2 = .ok sealPages ∧ q.1.sealRefused sealPages 0x100000200000 0x200000 = none ∧ (sealPages.find? q.1.pagePlane) = none ∧ q.1.pagesBusy sealPages = false ∧
        q.1.seals.length + (((sealPages.map PageAt.pa).eraseDups).filter (fun p => !q.1.seals.contains p)).length ≤ 4096 ∧ q.1.released .pkg = true ∧ q.1.released .sys = true) ∧
      (∀ n ∈ [0, 1], let s : State := sealed1 n; let q := s.pagesOf s.who .store false false ((0x200000 : W64).toNat / 4096 + 1) (0x100000200000 : W64).toNat ((0x100000200000 : W64).toNat + (0x200000 : W64).toNat);
        q.2 = .ok sealPages ∧ q.1.sealRefused sealPages 0x100000200000 0x200000 = none ∧ q.1.asleep = [] ∧ q.1.released .sys = true ∧
          ∃ e ∈ q.1.l2, (∃ p ∈ sealPages, p.pa ∈ q.1.seals ∧ q.1.pageHas p.pa p.log e.line = true) ∧ decide (q.1.ptime < e.lease) = decide (n = 1)) ∧
      q.1.me = run1.me ∧ q.1.cur = run1.cur) ∧
    (let q := run1.pagesOf run1.who .store true true ((128 : W64).toNat / 4096 + 2) (0x100000002000 : W64).toNat ((0x100000002000 : W64).toNat + (128 : W64).toNat);
      ((0x100000002000 : W64).toNat % 128 = 0 ∧ (128 : W64).toNat % 128 = 0 ∧ (128 : W64).toNat ≤ 2 ^ 40 ∧ q.2 = .ok cmrPages ∧ cmrPages.any q.1.pageRemote = false ∧
        q.1.matching (q.1.newRange .f32 .die cmrPages 0x100000002000 128) = none ∧ q.1.cmrRefused cmrPages (q.1.newRange .f32 .die cmrPages 0x100000002000 128) = false ∧ q.1.freeRange = some 0) ∧
      q.1.me = run1.me ∧ q.1.cur = run1.cur) ∧
    (let q := cm1.pagesOf cm1.who .store true true ((128 : W64).toNat / 4096 + 2) (0x100000002000 : W64).toNat ((0x100000002000 : W64).toNat + (128 : W64).toNat);
      q.2 = .ok cmrPages ∧ q.1.matching (q.1.newRange .i32 .pkg cmrPages 0x100000002000 128) = some 255 ∧ q.1.ranges[(255 : Fin 256)] = some range1 ∧ range1.starting = false ∧ range1.ending = false) ∧
    (let q := cm1.check cm1.who .contrib 1 0x100000002000 1;
      (q.2 = .ok (accAt loc2 1) ∧ (accAt loc2 1).locs = [loc2] ∧ q.1.rangeAt loc2 = some 255 ∧ q.1.ranges[(255 : Fin 256)] = some range1 ∧ range1.starting = false ∧ run1.rangeAt loc2 = none) ∧
      q.1.me = cm1.me ∧ q.1.cur = cm1.cur) :=
  ⟨⟨by decide +kernel, by decide +kernel, (run1.pagesOf_side _ _ _ _ _ _ _).me, (run1.pagesOf_side _ _ _ _ _ _ _).cur⟩, ⟨by decide +kernel, (run1.pagesOf_side _ _ _ _ _ _ _).me, (run1.pagesOf_side _ _ _ _ _ _ _).cur⟩,
    by decide +kernel, by decide +kernel, (cm1.check_side _ _ _ _ _).me, (cm1.check_side _ _ _ _ _).cur⟩

/-- A string in translated user mode, with the highest canonical addresses of both halves in s4 and s5 and the first of neither in s6. -/
def user2 : State := with_ { str1 with ptroot := 0x100000010001, sreg := ((str1.sreg.set 4 0x00FFFFFFFFFFFFF8).set 5 0xFF00000000000000).set 6 0x0100000000000000,
                                        splits := str1.splits.set 0 { str1.splits[0] with mode := .user } }

theorem witness_Branches :
    (run1.sp.mode = .hyp ∧ (run1.getS 2).toNat < 2 ^ 48 ∧ (run1.getS 2).toNat % 8 = 0) ∧
    (¬(user2.sp.mode = .hyp ∨ user2.me.ptroot.getLsbD 0 = false) ∧ ((user2.getS 4).toNat < 2 ^ 56 ∧ (user2.getS 4).toNat % 8 = 0) ∧ 2 ^ 64 - 2 ^ 56 ≤ (user2.getS 5).toNat ∧
      ¬((user2.getS 6).toNat < 2 ^ 56 ∨ 2 ^ 64 - 2 ^ 56 ≤ (user2.getS 6).toNat)) ∧
    ((full.setS 4 0xFFFFFFFFFFFC).sp.mode = .hyp ∧ ((full.setS 4 0xFFFFFFFFFFFC).getS 4).toNat < 2 ^ 48 ∧ ((full.setS 4 0xFFFFFFFFFFFC).getS 4).toNat % 8 ≠ 0) ∧
    ¬((full.setS 4 0x1000000000000).getS 4).toNat < 2 ^ 48 := by decide +kernel

/-- A split whose header names the block at 0x100000001010 as its RECONV, that block's header being in memory; its stack holds n entries, and its string's other slots a split each, or none. -/
def recon (n : Nat) (busy : Bool) : State :=
  let top : StackEnt := { rpc := 0x100000001010, rmask := 0xFFFFFFFF, ppc := 0x100000001040, pmask := 1 }
  let x : Split := { str1.splits[0] with hdr := 0xFF01400002000000, stack := List.replicate n top }
  let rest : Vector Split 4 := if busy then Vector.replicate 4 { Split.boot with m := 1, e := 1 } else str1.splits
  let s : State := with_ { str1 with splits := rest.set 0 x }
  { s with mem := cellsAt 0x400000010 (leBytes 8 0xFF01400000000000) }

theorem witness_Divergence :
    ((run1.sp.e &&& ~~~run1.getK 0 = 0) ∧ (run1.sp.e &&& run1.getK 2 = 0 ∧ run1.sp.e &&& ~~~run1.getK 2 ≠ 0) ∧ (run1.sp.e &&& run1.getK 1 ≠ 0 ∧ run1.sp.e &&& ~~~run1.getK 1 ≠ 0) ∧
      run1.me.freeSlot = some 1 ∧ (1 : SplitId) ≠ run1.cur.split ∧ run1.sp.stack = [] ∧ run1.sp.hdr.extractLsb' 24 16 = 0) ∧
    run1.checkReconv = (run1, .ok (), 0) ∧
    (let q := (recon 7 true).checkReconv;
      (q.2 = (.ok (), 0) ∧ (recon 7 true).me.freeSlot = none ∧ (recon 7 true).sp.hdr.extractLsb' 24 16 ≠ 0 ∧ (recon 7 true).sp.stack.length < 8 ∧ (recon 7 true).sp.e &&& (recon 7 true).getK 1 ≠ 0 ∧
        (recon 7 true).sp.e &&& ~~~(recon 7 true).getK 1 ≠ 0) ∧ q.1.me = (recon 7 true).me ∧ q.1.cur = (recon 7 true).cur) ∧
    ((recon 8 false).checkReconv.2 = (.ok (), 0) ∧ 8 ≤ (recon 8 false).sp.stack.length ∧ (recon 8 false).sp.stack ≠ []) := by
  have h : (recon 7 true).MemSide (recon 7 true).checkReconv.1 := by
    unfold State.checkReconv
    dsimp only
    repeat' split
    all_goals exact .refl _
  refine ⟨by decide +kernel, ?_, ⟨by decide +kernel, h.me, h.cur⟩, by decide +kernel⟩
  have : hdrHasReconv run1.sp.hdr = false := by decide +kernel
  simp [State.checkReconv, this]

/-- A string like `str1` in a mode. -/
def mode1 (m : Mode) : State := with_ { str1 with splits := str1.splits.set 0 { str1.splits[0] with mode := m } }

theorem witness_SystemRegisterReads :
    (mode1 .user).sp.mode ≠ .hyp ∧ (mode1 .sup).sp.mode ≠ .user ∧ (mode1 .hyp).sp.mode = .hyp ∧ (62 : BitVec 8).toNat < 64 ∧ (62 : BitVec 8).toNat % 2 = 0 ∧
    readyAll (mode1 .hyp) [.rdsr 1 0x030 62, .rdsr 1 0x031 63, .rdsr 1 0x032 62, .rdsr 1 0x040 62, .rdsr 1 0x041 63, .rdsr 1 0x042 62] = true ∧
    readyAll (mode1 .sup) [.rdsr 1 0x030 62, .rdsr 1 0x031 63, .rdsr 1 0x032 62] = true := by decide +kernel

theorem witness_SystemRegisterWrites :
    ((mode1 .sup).sp.mode = .sup ∧ (mode1 .user).sp.mode = .user ∧ (mode1 .hyp).sp.mode = .hyp ∧
      readyAll (mode1 .hyp) [.wrsr 1 0x030 62, .wrsr 1 0x031 63, .wrsr 1 0x032 62, .wrsr 1 0x040 62, .wrsr 1 0x041 63, .wrsr 1 0x042 62] = true) ∧
    (let v : W64 := 0x8000000000000006; v.extractLsb' 16 47 = 0 ∧ v.toNat % 4 ≠ 3 ∧ v.toNat / 4 % 4 < 2) ∧ ¬(let v : W64 := 0x0003; v.extractLsb' 16 47 = 0 ∧ v.toNat % 4 ≠ 3 ∧ v.toNat / 4 % 4 < 2) := by decide +kernel

/-- `mode1` with code 63 kept by the hypervisor. -/
def noDeleg : State := (mode1 .user).modCore 0 (fun c => { c with hdeleg := 0x7FFFFFFFFFFFFFFF })

theorem witness_TrapEntry :
    ∀ s ∈ [mode1 .user, mode1 .sup, mode1 .hyp, noDeleg], s.sp.e ≠ 0 ∧ s.sp.e = s.sp.m ∧ s.sp.stack = [] ∧ (63 : Nat) < 256 ∧ (63 : Nat) ≠ 10 ∧
      (s.me.launch = none) ∧ (s = mode1 .user → True) := by
  intro s hs
  simp only [List.mem_cons, List.not_mem_nil, or_false] at hs
  obtain rfl | rfl | rfl | rfl := hs <;> exact ⟨by decide +kernel, by decide +kernel, by decide +kernel, by decide, by decide, by decide +kernel, fun _ => trivial⟩

theorem witness_TrapEntry_modes :
    ((mode1 .user).sp.mode = .user ∧ (mode1 .user).core.hdeleg.getLsbD 63 = true) ∧ (noDeleg.sp.mode = .user ∧ noDeleg.core.hdeleg.getLsbD 63 = false) ∧ (mode1 .sup).sp.mode = .sup ∧
    ((mode1 .hyp).sp.mode = .hyp ∧ (mode1 .hyp).me.launch = none) ∧ (with_ { str1 with launch := some 0 }).me.launch ≠ none := by decide +kernel

theorem witness_SystemCalls :
    ((mode1 .user).sp.mode = .user ∧ (mode1 .user).active 2 = 0 ∧ (mode1 .user).active 1 ≠ 0) ∧ ((mode1 .sup).sp.mode = .sup ∧ (mode1 .sup).active 2 = 0 ∧ (mode1 .sup).active 0 ≠ 0) ∧
    (mode1 .hyp).sp.mode = .hyp := by decide +kernel

/-- The string of `mode1` in which every lane returns to 0x100000003008 under the header at 0x100000003000, from either handler. -/
def back (m : Mode) : State :=
  with_ { str1 with splits := str1.splits.set 0 { str1.splits[0] with mode := m },
                    lanes := Vector.replicate 32 { Lane.start 0 0 with sepc := 0x100000003008, sblk := 0x100000003000, hepc := 0x100000003008, hblk := 0x100000003000, hcause := 0x40000007 } }

theorem witness_Returns :
    (∀ m ∈ [Mode.sup, .hyp], (back m).sp.mode = m ∧ (back m).sp.e = (back m).sp.m ∧ (back m).sp.m ≠ 0 ∧ (back m).sp.stack = [] ∧
      (∀ l < 32, ((back m).me.lane l).hepc = 0x100000003008 ∧ ((back m).me.lane l).hblk = 0x100000003000 ∧ ((back m).me.lane l).hcause.getLsbD 30 = true ∧ ((back m).me.lane l).sepc = 0x100000003008 ∧
        ((back m).me.lane l).sblk = 0x100000003000 ∧ ((back m).me.lane l).urec.mark = false ∧ ((back m).me.lane l).srec.mark = false) ∧
      (∀ j : SplitId, j ≠ (back m).cur.split → ((back m).me.splits[j]).m = 0) ∧ (back m).me.park = []) ∧
    (with_ { str1 with splits := str1.splits.set 0 { str1.splits[0] with e := 1 } }).sp.e ≠ (with_ { str1 with splits := str1.splits.set 0 { str1.splits[0] with e := 1 } }).sp.m ∧
    (mode1 .user).sp.mode = .user ∧ ((mode1 .sup).irecv[(mode1 .sup).cur.core]).extractLsb' 48 16 &&& ((mode1 .sup).irecv[(mode1 .sup).cur.core]).extractLsb' 32 16 = 0 ∧
    (let s : State := { mode1 .sup with irecv := (Vector.replicate 256 0).set 0 0x0002000200000010 }; (s.irecv[s.cur.core]).extractLsb' 48 16 &&& (s.irecv[s.cur.core]).extractLsb' 32 16 ≠ 0) := by
  decide +kernel

/-- `str1` as a task of launch slot 63, with a manifest image in its scratchpad at 0x100, a future in memory and the serai holding n manifests. -/
def ent0 : SEnt := { bytes := List.replicate 128 0, ctx := 0, launch := 63 }
def task1 (w0 : Byte) (n : Nat) : State :=
  let s : State := with_ { str1 with launch := some 63, sreg := str1.sreg.set 1 0x100 }
  { s with scr := if w0 = 0 then [] else [(0x100, w0)], cores := s.cores.set 0 { s.cores[0] with serai := List.replicate n ent0 },
           launches := s.launches.set 63 { Launch.none with on := true, live := 2 } }

theorem manifest_task1 (w0 : Byte) (n : Nat) (h : scrPeer (task1 w0 n).cur.core 0x100 = false ∧ (task1 w0 n).scrCheck (task1 w0 n).cur.core (task1 w0 n).me.ctx 128 0x100 = .ok (.scr 0 0x100) ∧
    (task1 w0 n).scrPoison (.scr 0 0x100) 128 = false) : (task1 w0 n).ManifestAt true 0x100 (task1 w0 n) ((task1 w0 n).placeGet (.scr 0 0x100) 128) := by
  simp only [State.ManifestAt, if_true]
  exact ⟨_, h.1, h.2.1, h.2.2, trivial, rfl⟩

/-- The checks of a barrier at s2: its home has read the line. -/
theorem bar2 (s : State) (h : Fresh s) (w : Who) (hw : w.untranslated = true) (hc : (s.check w .contrib 32 0x100000002000 32).2 = .ok (accAt loc2 32) ∧ s.barPlaced (accAt loc2 32) loc2 = true) :
    s.barCheck w false 0x100000002000 = (s.noteBar loc2, .ok (.mem loc2)) :=
  h.barCheck w _ _ loc2 ((List.range 31).map (fun i => loc2 + (i + 1))) hw hc.1 (by decide) ⟨hc.2, rfl, rfl⟩ (.inl rfl)

theorem witness_TaskSpawn :
    ((task1 0 511).ManifestAt true 0x100 (task1 0 511) ((task1 0 511).placeGet (.scr 0 0x100) 128) ∧ (task1 0 511).Checked (task1 0 511)) ∧
    ((task1 1 0).ManifestAt true 0x100 (task1 1 0) ((task1 1 0).placeGet (.scr 0 0x100) 128)) ∧
    ((task1 0 511).getS 1 = 0x100 ∧ (task1 0 511).me.launch = some 63 ∧ (wordAt ((task1 1 0).placeGet (.scr 0 0x100) 128) 0).extractLsb' 0 3 ≠ 0 ∧
      (let bs := (task1 0 511).placeGet (.scr 0 0x100) 128; (wordAt bs 0).extractLsb' 57 7 = 0 ∧ (wordAt bs 0).extractLsb' 0 3 = 0) ∧ (task1 0 511).core.serai.length < 512 ∧
      (task1 0 511).released .sys = true ∧ (let r := (task1 0 512).launches[(63 : Fin 64)]; ¬(task1 0 512).core.serai.length < 512 ∧ (r.ovf && ((task1 0 512).bazaar[r.bq]).room) = false)) ∧
    (let r := (task1 0 511).barCheck (task1 0 511).who false ((task1 0 511).getS 2);
      (r.2 = .ok (.mem loc2) ∧ placeRemote (.mem loc2) = false ∧ (Memory.wf r.1.mem && Memory.wf r.1.scr) = true ∧ r.1.core.serai.length < 512 ∧ r.1.released .die = true) ∧
      r.1.cur = (task1 0 511).cur ∧ r.1.me = (task1 0 511).me) := by
  refine ⟨⟨manifest_task1 0 511 (by decide +kernel), rfl, rfl⟩, manifest_task1 1 0 (by decide +kernel), by decide +kernel, ?_⟩
  rw [show (task1 0 511).getS 2 = 0x100000002000 by decide +kernel, bar2 (task1 0 511) ⟨rfl, rfl, rfl, rfl, rfl, rfl, rfl⟩ _ rfl (by decide +kernel)]
  exact ⟨by decide +kernel, rfl, rfl⟩

/-- `str1` with its future at s2 and an operation under way, or none. -/
def ending (fut : Bool) (ops : List OutOp) : State :=
  let s : State := with_ { str1 with launch := some 63, fut := if fut then some 0x100000002000 else none, ops := ops }
  { s with launches := s.launches.set 63 { Launch.none with on := true, live := 2 } }

/-- Every slot of core 0 present and a manifest that it may take in its serai; the string holds a pool record. -/
def crowded : State :=
  let s : State := with_ str1
  let t : Str := { str1 with launch := some 63, pool := some 0, uid := 9, vreg := Vector.replicate 256 none }
  { s with cores := s.cores.set 0 { s.cores[0] with strs := (Vector.replicate 16 t).set 0 { t with uid := 1 }, serai := [ent0] },
           launches := s.launches.set 63 { Launch.none with on := true, live := 2, poolUsed := [0], words := ((Vector.replicate 8 0).set 5 0x400000000000).set 6 2 } }

/-- `crowded` after its issuing string has taken the manifest. -/
def crowded2 : State := crowded.withMe (crowded.moved 1 { crowded.me with age := crowded.cyc })
theorem crowded2_calm : Calm crowded2 := Calm.reset.of rfl (fun _ h => nomatch h) (fun _ h => h)
theorem crowded2_str : (crowded2.strAt crowded.cur.core crowded.cur.slot).pool = some 0 ∧ (crowded2.strAt crowded.cur.core crowded.cur.slot).launch = some 63 := by decide +kernel
theorem crowded2_launch : (whoOf crowded.cur.core (crowded2.launches[(63 : Fin 64)]).ptroot .user).untranslated = true ∧ (crowded2.launches[(63 : Fin 64)]).pool = 0x400000000000 := by decide +kernel
theorem crowded2_spill : ∃ u, crowded2.spillStr crowded.cur.core crowded.cur.slot true = some u ∧ (u.strAt crowded.cur.core crowded.cur.slot).present = false := by
  obtain ⟨u, h1, h2⟩ := crowded2_calm.spillStr crowded.cur.core crowded.cur.slot true 0 63 crowded2_str.1 crowded2_str.2 crowded2_launch.1 (by rw [crowded2_launch.2]; decide)
    (by rw [crowded2_launch.2]; decide)
  exact ⟨u, h1, by rw [h2]; rfl⟩
theorem ending_bar : (ending true []).barCheck (ending true []).who false 0x100000002000 = ((ending true []).noteBar loc2, .ok (.mem loc2)) :=
 
  bar2 (ending true []) ⟨rfl, rfl, rfl, rfl, rfl, rfl, rfl⟩ (ending true []).who rfl (by decide +kernel)

theorem placeToken_um (s t : State) (h : s.boots = t.boots ∧ s.placings = t.placings) (x : BitVec 12) (c : CoreId) : s.placeToken x c = t.placeToken x c := by simp only [State.placeToken, h]

theorem with_me (t : Str) : (with_ t).me = t := rfl
theorem with_occ (t : Str) (ht : (t.present && t.ctx == 0) = true) : ∀ c ∈ [(0 : CoreId), 255], (with_ t).occupies c 0 = decide (c = 0) := by
  have e0 : (with_ t).cores[(0 : CoreId)] = { Core.boot with strs := (Vector.replicate 16 Str.empty).set 0 t } := rfl
  have e1 : (with_ t).cores[(255 : CoreId)] = Core.reset := rfl
  intro c hc
  rw [List.mem_cons, List.mem_singleton] at hc
  obtain rfl | rfl := hc
  · simp only [State.occupies, e0]
    have : ((Vector.replicate 16 Str.empty).set 0 t).any (fun t => t.present && t.ctx == 0) = true := by
      rw [Vector.any_eq_true]
      exact ⟨0, by decide, by rw [Vector.getElem_set_self]; exact ht⟩
    rw [this]
    rfl
  · simp only [State.occupies, e1]
    decide +kernel

theorem witness_TaskEnd :
    (let q := run1.barCheck run1.who false (run1.getS 2);
      (q.2 = .ok (.mem loc2) ∧ placeRemote (.mem loc2) = false ∧ (q.1.barWord (.mem loc2) 0).extractLsb' 56 8 = (run1.getS 3).setWidth 8 ∧
        (q.1.barWord (.mem loc2) 0).extractLsb' 56 8 ≠ (run1.getS 2 >>> 40).setWidth 8 ∧ q.1.loadsBack = true ∧ q.1.dones = [] ∧ run1.sp.wait = .none) ∧ q.1.cur = run1.cur ∧ q.1.me = run1.me) ∧
    ((run1.modSp (fun x => { x with wait := .passed (.mem loc2) })).sp.wait = .passed (.mem loc2) ∧ run1.loadsBack = true ∧ run1.dones = []) ∧
    ((recon 0 true).me.single = false ∧ ((ending false [{ cls := .cp, id := 3, done := false, readDone := false }]).me.single = true ∧
        ∃ o ∈ (ending false [{ cls := .cp, id := 3, done := false, readDone := false }]).me.ops, o.done = false) ∧
      (run1.me.single = true ∧ run1.me.ops = [] ∧ run1.me.fut = none ∧ run1.released .sys = true ∧ run1.me.launch = none) ∧
      ((ending false []).me.launch = some 63 ∧ 1 < ((ending false []).launches[(63 : Fin 64)]).live)) ∧
    (let s := ending true [];
      let q := s.barCheck s.who false 0x100000002000;
      (s.me.single = true ∧ s.me.ops = [] ∧ s.me.fut = some 0x100000002000 ∧ s.me.launch = some 63 ∧ 1 < (s.launches[(63 : Fin 64)]).live ∧ q.2 = .ok (.mem loc2) ∧
        placeRemote (.mem loc2) = false ∧ (Memory.wf q.1.mem && Memory.wf q.1.scr) = true ∧ q.1.released .core = true) ∧ q.1.launches = s.launches ∧ q.1.cur = s.cur ∧ q.1.me = s.me) ∧
    (run1.core.strs.all (fun t => t.present) = false ∧ (crowded.core.strs.all (fun t => t.present) = true ∧ crowded.takeable crowded.cur.core crowded.cur.core ≠ [] ∧
        (crowded.me.launch = some 63 ∧ (crowded.launches[(63 : Fin 64)]).freeRec ≠ none) ∧
      ∃ u, (crowded.withMe (crowded.moved 1 { crowded.me with age := crowded.cyc })).spillStr crowded.cur.core crowded.cur.slot true = some u ∧ (u.strAt crowded.cur.core crowded.cur.slot).present = false)) ∧
    (∀ c ∈ [(0 : CoreId), 255], ∃ s : State, s.placeToken s.me.ctx c = (s.getS 1).setWidth 32 ∧ s.occupies c s.me.ctx = decide (c = 0)) := by
  have e2 : run1.getS 2 = 0x100000002000 := by decide +kernel
  have sd := run1.barCheck_side run1.who false (run1.getS 2)
  have se := (ending true []).barCheck_side (ending true []).who false 0x100000002000
  refine ⟨⟨by decide +kernel, sd.cur, sd.me⟩, by decide +kernel, by decide +kernel, ?_, ⟨by decide +kernel, by decide +kernel, by decide +kernel, by decide +kernel, ?_⟩, fun c hc => ?_⟩
  · exact ⟨by decide +kernel, by rw [ending_bar]; decide +kernel, se.cur, se.me⟩
  · exact crowded2_spill
  · let t : Str := { str1 with sreg := str1.sreg.set 1 ((run1.placeToken 0 c).setWidth 64) }
    have hc0 : t.ctx = 0 := by
      show str1.ctx = 0
      decide +kernel
    refine ⟨with_ t, ?_, ?_⟩
    · have hg : (with_ t).getS 1 = (run1.placeToken 0 c).setWidth 64 := by
        rw [State.getS, with_me]
        exact Vector.getElem_set_self ..
      rw [hg, with_me, hc0, placeToken_um (with_ t) run1 ⟨rfl, rfl⟩ 0]
      simp
    · rw [with_me, hc0]
      refine with_occ t ?_ c hc
      rw [hc0]
      show (str1.present && (0 : BitVec 12) == 0) = true
      decide +kernel

/-- `task1` with queue 15 of its own context, holding q; s3 names it. -/
def queue1 (q : List SEnt) : State :=
  let s : State := with_ { str1 with launch := some 63, sreg := (str1.sreg.set 1 0x100).set 3 15 }
  { s with bazaar := s.bazaar.set 15 { w0 := 0x8000100000002000, w1 := 0, head := 0, q := q }, launches := s.launches.set 63 { Launch.none with on := true, live := 2 } }

theorem witness_QueueInstructions :
    (∀ q ∈ [[], [ent0]], scrPeer (queue1 q).cur.core ((queue1 q).getS 1) = false ∧ (queue1 q).scrCheck (queue1 q).cur.core (queue1 q).me.ctx 128 ((queue1 q).getS 1) = .ok (.scr 0 0x100) ∧
      ((queue1 q).getS 3).toNat = 15 ∧ ((queue1 q).bazaar[(15 : Fin 16)]).w0.getLsbD 63 = true ∧ ((queue1 q).bazaar[(15 : Fin 16)]).w1.extractLsb' 52 12 = (queue1 q).me.ctx ∧
      (queue1 q).me.launch = some 63 ∧ (queue1 q).scrPoison (.scr 0 0x100) 128 = false ∧
      (let bs := (queue1 q).placeGet (.scr 0 0x100) 128; (wordAt bs 0).extractLsb' 57 7 = 0 ∧ (wordAt bs 0).extractLsb' 0 3 = 0) ∧
      (queue1 q).released .pkg = true ∧ (queue1 q).released .sys = true) ∧
    (∀ j : Fin 16, ((queue1 []).getS 2).toNat ≠ j.val) ∧ ((queue1 []).bazaar[(15 : Fin 16)]).q = [] ∧
    (∀ n ∈ [0, 1], ∃ l ∈ [loc2, loc2 + 128], (queue1 []).decodePa ((((queue1 []).bazaar[(15 : Fin 16)]).w0.extractLsb' 12 36).toNat * 4096 + 128 * n) = .loc l ∧ (queue1 []).poisoned (lineOf l) = false ∧
      ((queue1 []).peekN l 128).length = 128 ∧ (queue1 []).isMaster (lineOf l) = false) ∧
    (((queue1 [ent0]).bazaar[(15 : Fin 16)]).q = [ent0] ∧ 1 < ((queue1 [ent0]).launches[ent0.launch]).live ∧ ent0.bytes.length = 128 ∧ (queue1 [ent0]).Inv ∧ 0x100 + 128 ≤ 2 ^ 22) ∧
    2 ^ (((queue1 [ent0]).bazaar[(15 : Fin 16)]).w1.extractLsb' 0 5).toNat ≤ ((queue1 [ent0]).bazaar[(15 : Fin 16)]).q.length ∧
    ((queue1 []).bazaar[(15 : Fin 16)]).q.length < 2 ^ (((queue1 []).bazaar[(15 : Fin 16)]).w1.extractLsb' 0 5).toNat :=
  ⟨by decide +kernel, by decide +kernel, by decide +kernel, by decide +kernel,
    ⟨by decide +kernel, by decide +kernel, by decide +kernel, inv_of _ (by decide +kernel), by decide +kernel⟩, by decide +kernel, by decide +kernel⟩

/-- n tile operations under way. -/
def tiles (n : Nat) : List OutOp := (List.range n).map (fun i => { cls := .tl, id := i, done := false, readDone := i != 0 })

/-- `str1` with n tile operations; s3 is an address of the last 4 KiB of a partition of one granule, s5 a geometry of 256 rows. -/
def mat1 (n : Nat) : State :=
  with_ { str1 with ops := tiles n, tls := List.range n, sreg := (str1.sreg.set 3 0x2F000).set 5 (255 + 16 * 2 ^ 8 + 512 * 2 ^ 24), mcnt := { nan := 1, inf := 2, scnan := 3, spidx := 4 } }

/-- The lines of 512 bytes at s2. -/
def lines4 : List Nat := [268435456, 268435457, 276824064, 276824065]

/-- The same with an f32 range of four lines at s2. -/
def mat2 : State :=
  { mat1 14 with ranges := (mat1 14).ranges.set 255 (some { range1 with len := 512, lines := lines4, fmt := .f32 }) }

/-- The memory chunks of a row at s2. -/
def chunks1 : List W64 := (List.range 4).map (fun i => 0x100000002000 + BitVec.ofNat 64 (128 * i))

theorem witness_MatrixInstructions :
    ((recon 0 true).me.single = false) ∧
    (∀ n ∈ [0, 14, 15], (mat1 n).me.single = true ∧ (mat1 n).sp.e = BitVec.allOnes 32 ∧ (mat1 n).sp.stack = [] ∧ (mat1 n).me.count .tl = n) ∧
    (∀ n ∈ [14, 15], (mat1 n).scrOpsFail ((⟨(mat1 n).getS 1, 128, [(0, planeBytes .b8 false)]⟩ : ScrOp) :: (if metaBytes .b8 false = 0 then [] else [⟨(mat1 n).getS 3, 16, [(0, metaBytes .b8 false)]⟩])) none = none) ∧
    ((∀ o ∈ (mat1 2).me.ops, o.cls = .tl → o.id ∈ (mat1 2).me.tls.take (2 : BitVec 4).toNat ∨ (true = true ∧ o.readDone = true)) ∧
      (∃ o ∈ (mat1 2).me.ops, o.cls = .tl ∧ o.id ∉ (mat1 2).me.tls.take (0 : BitVec 4).toNat ∧ o.readDone = false)) ∧
    ((mat1 0).me.mstage = []) ∧
    (((mat1 14).getS 1).extractLsb' 48 16 = 0 ∧ (252 : BitVec 8).toNat + 4 ≤ 256 ∧ (mat1 14).me.allotFail (mat1 14).sp.e [Machine.vA 252 4] = none ∧ (mat1 14).me.loaned [Machine.vA 252 4] = [] ∧ colsOf (mat1 14).core.arr.fmtsAfter.1 = 128 ∧
      (mat1 14).scrOpsFail [⟨(mat1 14).getS 1, 128, [(0, 512)]⟩] none = none ∧ ((mat1 14).outChunks .sys []).2 = (.ok [], 0) ∧ (mat1 14).me.al = false) ∧
    (((mat1 14).getS 5).extractLsb' 48 16 = 0 ∧
      (mat1 14).scrOpsFail [⟨(mat1 14).getS 1, 128, (List.range 256).map (fun m => (m * 512, 512))⟩, ⟨(mat1 14).getS 6, 16, (List.range 256).map (fun m => (m * 16, 512))⟩] none = none) ∧
    (mat2.scrOpsFail [⟨mat2.getS 6, 16, [(0, 512)]⟩] (some (mat2.getS 2)) = none ∧
      (∃ ls : List (Nat × List Tr), (mat2.outChunks .pkg chunks1).2 = (.ok ls, 0) ∧ (∀ l ∈ ls.map (·.1), lineRemote l = false) ∧ distinctTrs (ls.flatMap (·.2)) = []) ∧
      mat2.Checked (mat2.outChunks .pkg chunks1).1) ∧ (mat2.outChunks .pkg chunks1).1.setDirties [] = ((mat2.outChunks .pkg chunks1).1, .ok) := by
  refine ⟨by decide +kernel, by decide +kernel, by decide +kernel, by decide +kernel, by decide +kernel, by decide +kernel, by decide +kernel,
    ⟨⟨by decide +kernel, ⟨lines4.map (fun l => (l, [])), by decide +kernel⟩, (State.outChunks_side _ _ _).cur, (State.outChunks_side _ _ _).me⟩, rfl⟩⟩

/-- `str1` with `len` bytes to copy, n copies counted and m transfers in the core's engine. -/
def cpy1 (len : W64) (n m : Nat) : State :=
  let who : Issuer := { slot := 1, uid := 7, op := 0, ptroot := 0, mode := .user }
  let x : Xfer := { kind := .copy, who := who, chain := none, ssp := false, dsp := false, src := 0, dst := 0, len := 1, idx := 0, nrows := 0, rlen := 0, rstr := 0, bar := none, scope := .core, rows := [],
                    data := none, err := 0, errAddr := 0 }
  let s : State := with_ { str1 with sreg := str1.sreg.set 3 len, ops := (List.range n).map (fun i => { cls := .cp, id := i, done := false, readDone := false }) }
  { s with cores := s.cores.set 0 { s.cores[0] with convoy := List.replicate m x } }

/-- The last n chain contexts of core 0 taken. -/
def chn1 (n : Nat) : State :=
  let who : Issuer := { slot := 1, uid := 7, op := 0, ptroot := 0, mode := .user }
  let x : Chain := { who := who, ptr := 0, idx := [0, 0, 0, 0], bar := .mem 0, barVa := 0, barSp := true, scope := .core, suspended := false }
  let s : State := with_ str1
  { s with cores := s.cores.set 0 { s.cores[0] with chains := gen 8 (fun k => if 8 ≤ k + n then some x else none) } }

/-- A BK page at 0 and a page of die 0 at 0x200000, both with A and D set. -/
def bkTr : Tr := { core := 0, ctx := 0, base := 0, log := 21, pte := 0xC000000000000338, pteLoc := 0, isSealed := false, isMaster := false, entry := none, data := true, code := false, second := true }
def plTr : Tr := { core := 0, ctx := 0, base := 0x200000, log := 21, pte := 0xC000080000000318, pteLoc := 0, isSealed := false, isMaster := false, entry := none, data := true, code := false, second := true }

/-- The boot string in user mode under these translations, the BK page in a bank-local region, the scratchpad holding at 0x2000 a descriptor of 128 weight bytes, one program word, 16 input bytes and one output, which lies in an f32 range. -/
def bank1 : State :=
  let s : State := with_ { str1 with ptroot := 0x100000010001, bkn := 4094, sreg := str1.sreg.set 2 0x202000 }
  { s.modSp (fun x => { x with mode := .user }) with
    tlb := [bkTr, plTr]
    regions := s.regions.set 0 ((((Vector.replicate 4 0).set 1 0x200000).set 2 0x8115000100000001))
    ranges := s.ranges.set 255 (some { base := 0x3000, len := 128, lines := [0x60], far := none, fmt := .f32, scope := .pkg, starting := false, ending := false })
    scr := [(0x2009, 0x10), (0x2011, 0x20), (0x2019, 0x30), (0x2021, 0x30), (0x2022, 0x20), (0x202B, 0x20), (0x202E, 0x02), (0x2030, 0x01)] }

theorem bank1_bar : bank1.barCheck bank1.who false (bank1.getS 2) = (bank1.noteBar loc2, .ok (.mem loc2)) := by
  have e2 : bank1.getS 2 = 0x202000 := by decide +kernel
  rw [e2]
  exact Fresh.barCheck_hit (s := bank1) ⟨rfl, rfl, rfl, rfl, rfl, rfl, rfl⟩ bank1.who 0x202000 { accAt loc2 32 with trs := [plTr] } loc2 ((List.range 31).map (fun i => loc2 + (i + 1))) plTr
    (by decide +kernel) (by decide +kernel) rfl (by decide +kernel) (by decide +kernel) (by decide) ⟨by decide +kernel, rfl, rfl⟩ (.inl rfl)

/-- The lane's command. -/
def bankCmd1 : BankCmd :=
  { core := 0, slot := 0, uid := 1, wlines := [0], wlen := 128, plines := [32], poff := 0, plen := 1, ilines := [64], ioff := 0, ilen := 16, iboff := 0, olines := [96], ooff := 0, olen := 1,
    spa := 0x100000003000, sloc := 0xC00000000, arg := 0, bar := .mem loc2, scope := .sys }

/-- A page of such an extent. -/
def bkPage (va log : Nat) (t : Tr) (l : Nat) : PageAt := { va := va, log := log, tr := some t, phys := .loc l }

/-- The state after the check of its barrier, whose home has read the line and remembers it. -/
def bankQ : State := bank1.noteBar loc2

theorem bank1_lane : bankQ.bankLane (.mem loc2) .sys ((bankQ.getV 2 31).setWidth 64) = (bankQ, .ok bankCmd1 [bkTr, plTr]) := by
  have e : (bankQ.getV 2 31).setWidth 64 = 0x2000 := by decide +kernel
  rw [e]
  refine Prod.ext (bankLane_same bankQ _ _ _ (.scr 0 0x2000) (by decide +kernel) ?_) (by decide +kernel)
  have w : (List.range 8).map (wordAt (bankQ.placeGet (.scr 0 0x2000) 64)) = [0, 0x1000, 0x2000, 0x3000, 0x203000, 0x2000020000000, 1, 0] := by decide +kernel
  simp only [List.range, List.range.loop, List.map, List.cons.injEq] at w
  obtain ⟨w0, w1, w2, w3, w4, w5, w6, -⟩ := w
  simp only [w0, w1, w2, w3, w4, w5, w6]
  have hit (k : AccKind) (va : W64) (n : Nat) (t : Tr) (p : PageAt) (h : bankQ.tlbFind bankQ.who k va = some t ∧ (t.isIn (bankQ.who.first k) || bankQ.who.first k == none) = true ∧ (bankQ.pageAt bankQ.who k true true va).2 = .ok p ∧ 0 < n ∧
      va.toNat + n ≤ (va.toNat / 2 ^ p.log + 1) * 2 ^ p.log) : bankQ.extPages k va n = (bankQ, .ok [p]) := extPages_hit bankQ k va n t p h.1 h.2.1 h.2.2.1 h.2.2.2.1 h.2.2.2.2
  have st : bankQ.extPages .store (va57 0x203000) 8 = (bankQ, .ok [bkPage 0x203000 21 plTr 0xC00000000]) := hit _ _ _ plTr (bkPage 0x203000 21 plTr 0xC00000000) (by decide +kernel)
  unfold State.bankPages
  dsimp only [List.map, List.cons_append, List.nil_append]
  have al : (bankQ.extAll [(.load, va57 0, fld 0x2000020000000 63 42), (.load, va57 0x1000, 4 * (fld 0x2000020000000 7 0 + 1)), (.load, va57 0x2000, fld 0x2000020000000 41 25), (.contrib, va57 0x3000, 4 * fld 1 24 0)]).1 = bankQ := by
    refine extAll_cons _ _ _ _ _ _ (hit _ _ _ bkTr (bkPage 0 21 bkTr 0) (by decide +kernel)) ?_
    refine extAll_cons _ _ _ _ _ _ (hit _ _ _ bkTr (bkPage 0x1000 21 bkTr 0x1000) (by decide +kernel)) ?_
    refine extAll_cons _ _ _ _ _ _ (hit _ _ _ bkTr (bkPage 0x2000 21 bkTr 0x2000) (by decide +kernel)) ?_
    refine extAll_cons _ _ _ _ _ _ (hit _ _ _ bkTr (bkPage 0x3000 21 bkTr 0x3000) (by decide +kernel)) ?_
    rfl
  revert al
  generalize bankQ.extAll _ = q
  obtain ⟨q1, q2⟩ := q
  rintro rfl
  dsimp only
  repeat' split
  all_goals simp_all

theorem bank1_rest : bankQ.setDirties [bkTr, plTr] = (bankQ, .ok) ∧ bankQ.abaci = [] :=
  ⟨by simp only [State.setDirties, State.setDirty, show pteD bkTr.pte = true by decide, show pteD plTr.pte = true by decide, if_true], by decide +kernel⟩

theorem witness_EngineInstructions :
    ((run1.getS 1 = 0 ∧ 2 ^ 26 < ((cpy1 (2 ^ 26 + 1) 0 0).getS 3).toNat) ∧
      (∀ n ∈ [(1, 0, 16), (2 ^ 26, 15, 0), (2 ^ 26, 14, 15)], (cpy1 (BitVec.ofNat 64 n.1) n.2.1 n.2.2).getS 3 ≠ 0 ∧ ((cpy1 (BitVec.ofNat 64 n.1) n.2.1 n.2.2).getS 3).toNat ≤ 2 ^ 26 ∧
        (cpy1 (BitVec.ofNat 64 n.1) n.2.1 n.2.2).me.count .cp = n.2.1 ∧ ((cpy1 (BitVec.ofNat 64 n.1) n.2.1 n.2.2).core.convoy.filter (fun t => t.chain.isNone)).length = n.2.2) ∧
      (let s := cpy1 (2 ^ 26) 14 15; let q := s.barCheck s.who false (s.getS 2); q.2 = .ok (.mem loc2) ∧ (q.1.core.convoy.filter (fun t => t.chain.isNone)).length = 15 ∧ s.Checked q.1)) ∧
    ((let q := run1.barCheck run1.who false (run1.getS 2); q.2 = .ok (.mem loc2) ∧ q.1.core.chains[(0 : Fin 8)] = none ∧ run1.me.count .cp < 15) ∧
      (∀ n ∈ [7, 8], let q := (chn1 n).barCheck (chn1 n).who false ((chn1 n).getS 2); q.2 = .ok (.mem loc2) ∧ (∀ k : Fin 8, q.1.core.chains[k] = none → n = 7)) ∧
      (∀ n, (chn1 n).Checked ((chn1 n).barCheck (chn1 n).who false ((chn1 n).getS 2)).1)) ∧
    (bank1.vecReady (.bcmd 1 .sys 2 2) ∧ bank1.barCheck bank1.who false (bank1.getS 2) = (bankQ, .ok (.mem loc2)) ∧ bank1.Checked bankQ ∧
      (∀ l ∈ (bank1.active 1).lanes, bankQ.bankLane (.mem loc2) .sys ((bankQ.getV 2 l).setWidth 64) = (bankQ, .ok bankCmd1 [bkTr, plTr])) ∧
      bankQ.setDirties (((bank1.active 1).lanes.flatMap (fun _ => [bkTr, plTr])).eraseDups) = (bankQ, .ok) ∧ bankQ.Checked bankQ ∧
      (∀ x : DieId × PchId, (bankQ.abAt x.1 x.2).coming.length + (bankQ.abAt x.1 x.2).queue.length + min (((bank1.active 1).lanes.map (fun _ => bankCmd1)).filter (fun y => y.target == x)).length 16 ≤ 16) ∧
      bank1.me.bkn.toNat + (bank1.active 1).lanes.length ≤ 4095 ∧ bank1.me.bkn ≠ 0) ∧
    run1.me.bkn = 0 ∧ run1.loadsBack = true ∧ (away false).me.bkn = 0 ∧ (away false).loadsBack = false := by
  have la : (bank1.active 1).lanes = [31] := by decide +kernel
  have side (s : State) : s.Checked (s.barCheck s.who false (s.getS 2)).1 := ⟨(s.barCheck_side _ _ _).cur, (s.barCheck_side _ _ _).me⟩
  have ck : bank1.Checked bankQ := by
    have := side bank1
    rwa [bank1_bar] at this
  refine ⟨⟨by decide +kernel, by decide +kernel, by decide +kernel, by decide +kernel, side _⟩, ⟨by decide +kernel, by decide +kernel, fun n => side (chn1 n)⟩,
    ⟨⟨by decide +kernel, by decide +kernel⟩, bank1_bar, ck, ?_, ?_, ⟨rfl, rfl⟩, ?_, by decide +kernel, by decide +kernel⟩, by decide +kernel⟩
  · intro l hl
    rw [la, List.mem_singleton] at hl
    subst hl
    exact bank1_lane
  · rw [la]
    exact bank1_rest.1
  · intro x
    have : bankQ.abAt x.1 x.2 = Abacus.idle x.1 x.2 := by simp [State.abAt, bank1_rest.2]
    rw [this]
    show (0 : Nat) + 0 + min _ 16 ≤ 16
    omega

/-- A view's record at `loc2`: a master of one row of 32 elements at 0x1000_0000_3000 (or at an address of LPDDR), its plane and its tags; the L1 holds its line. -/
def recMem (hi : Byte) : List Host.Cell :=
  [(1, 0x30), (5, hi), (7, 0x80), (8, 0x20), (12, 1), (16, 0x80), (31, 0x90), (33, 0x40), (37, 0x10), (48, 0x40), (81, 0x50), (85, 0x10)].map (fun c => (loc2 + c.1, c.2))
/-- A collective's record there: the area at 0x1000_0000_4000, the barrier at 0x1000_0000_6000; or a misaligned plane. -/
def collMem (bad : Bool) : List Host.Cell := (if bad then [(loc2 + 8, 1)] else []) ++ [(loc2 + 41, 0x40), (loc2 + 45, 0x10), (loc2 + 49, 0x60), (loc2 + 53, 0x10)]

def rec1 (mem : List Host.Cell) : State := { with_ { str1 with sreg := str1.sreg.set 3 63 } with mem := mem, l1 := [{ core := 0, code := false, line := loc2 / 128, exp := none }] }
/-- A view of context 0 without lines. -/
def view0 : View := { ctx := 0, words := Vector.replicate 11 0, mlines := [], elines := [], slines := [], tlines := [], dropping := false }
def recFull (n : Nat) : State := { rec1 (recMem 0x10) with views := gen 64 (fun h => if 64 ≤ h + n then some view0 else none) }
def recRange : State := { rec1 (recMem 0x10) with ranges := (rec1 (recMem 0x10)).ranges.set 255 (some { range1 with lines := [0x18000000] }) }

/-- The line of the record is read at once. -/
theorem rec_at (s : State) (n : Nat) (h : s.getS 2 = 0x100000002000 ∧ s.who.untranslated = true ∧ s.me.launch = none ∧ (s.check s.who .load n 0x100000002000 n).2 = .ok (accAt loc2 n) ∧
      (∀ l ∈ (accAt loc2 n).lines, s.rangeOf l = none ∧ lineRemote l = false ∧ (s.lineKind (accAt loc2 n) l).llcOnly = false ∧ (s.lineKind (accAt loc2 n) l).noL1 = false ∧ s.l1Hit s.cur.core false l = true) ∧
      (∀ p ∈ (accAt loc2 n).locs, s.viewAt p = none)) (hr : s.remote = [] ∧ s.counted = [] ∧ s.vreads = []) (hd : s.deadAgents = []) : s.RecordAt (s.getS 2) n s ((accAt loc2 n).locs.map (s.look s.cur.core)) := by
  obtain ⟨h1, h2, h3, h4, h5, h6⟩ := h
  rw [h1]
  exact recordAt_same s _ _ _ (chkLoad_same s _ _ _ _ _ _ h2 h3 hd h4 ⟨rfl, rfl, rfl⟩ h5 h6) rfl hr

def recWords (s : State) : List W64 := (List.range 16).map (wordAt ((accAt loc2 128).locs.map (s.look s.cur.core)))
def recView (s : State) : View := View.ofWords s.me.ctx (gen 11 (fun i => (recWords s).getD i 0))
/-- The view with its lines found, and the pages of its areas. -/
def recPages : List PageAt × List PageAt := ([{ va := 0x100000003000, log := 21, tr := none, phys := .loc 0xC00000000 }],
  [{ va := 0x100000004000, log := 21, tr := none, phys := .loc 0x100 }, { va := 0x100000005000, log := 21, tr := none, phys := .loc 0x400000100 }])
def recLocated (s : State) : View :=
  let v := recView s
  let lin (as : List (Nat × Nat)) : List (List Nat) := s.linesOf (recPages.1 ++ recPages.2) as
  { v with mlines := (lin [v.areas.1]).headD [], elines := lin v.areas.2.1, slines := lin v.areas.2.2.1, tlines := (lin [v.areas.2.2.2]).headD [] }

/-- The facts that `rec_at` asks of a state. -/
def recReady (s : State) (n : Nat) : Bool :=
  decide (s.getS 2 = 0x100000002000 ∧ s.who.untranslated = true ∧ s.me.launch = none ∧ (s.check s.who .load n 0x100000002000 n).2 = .ok (accAt loc2 n) ∧
      (∀ l ∈ (accAt loc2 n).lines, s.rangeOf l = none ∧ lineRemote l = false ∧ (s.lineKind (accAt loc2 n) l).llcOnly = false ∧ (s.lineKind (accAt loc2 n) l).noL1 = false ∧ s.l1Hit s.cur.core false l = true) ∧
      (∀ p ∈ (accAt loc2 n).locs, s.viewAt p = none))

theorem witness_ViewAndCollectiveIssue :
    (∀ s ∈ [recFull 64, rec1 [], rec1 (recMem 0x20), rec1 (recMem 0x10), recRange], s.RecordAt (s.getS 2) 128 s ((accAt loc2 128).locs.map (s.look s.cur.core)) ∧ s.Checked s) ∧
    ((∀ h : Fin 64, (recFull 64).views[h] ≠ none) ∧ ((rec1 []).views[(63 : Fin 64)] = none ∧ recordBad (recWords (rec1 [])) = true)) ∧
    (let s := rec1 (recMem 0x20);
      s.views[(0 : Fin 64)] = none ∧ recordBad (recWords s) = false ∧ (s.acquire .pkg).viewPages false [(recView s).areas.1] = (s.acquire .pkg, .fail 0x200000003000 21) ∧ s.Checked (s.acquire .pkg)) ∧
    (∀ s ∈ [rec1 (recMem 0x10), recRange], s.views[(0 : Fin 64)] = none ∧ recordBad (recWords s) = false ∧
      (s.acquire .pkg).viewPages false [(recView s).areas.1] = (s.acquire .pkg, .ok recPages.1) ∧
      (s.acquire .pkg).viewPages true ((recView s).areas.2.1 ++ (recView s).areas.2.2.1 ++ [(recView s).areas.2.2.2]) = (s.acquire .pkg, .ok recPages.2) ∧ s.Checked (s.acquire .pkg) ∧
      (s.acquire .pkg).views = s.views) ∧
    ((recRange.acquire .pkg).vwregRefused (recLocated (recRange.acquire .pkg)) = some 4 ∧
      (let e := (rec1 (recMem 0x10)).acquire .pkg; let w := recLocated e;
        e.vwregRefused w = none ∧ ∀ l ∈ w.mlines ++ w.elines.flatten ++ w.slines.flatten ++ w.tlines, e.lineFree l = true ∧ e.reachable l = true)) ∧
    ((∀ h : Fin 64, (recFull 0).views[h] = none) ∧ ((recFull 1).views[(63 : Fin 64)] = some view0 ∧ ((recFull 1).getS 3).toNat = 63 ∧ view0.ctx = (recFull 1).me.ctx ∧ (recFull 1).released .sys = true)) ∧
    (∀ b ∈ [true, false], (rec1 (collMem b)).RecordAt ((rec1 (collMem b)).getS 2) 64 (rec1 (collMem b)) ((accAt loc2 64).locs.map ((rec1 (collMem b)).look 0)) ∧
      collBad (wordAt ((accAt loc2 64).locs.map ((rec1 (collMem b)).look 0))) = b) ∧
    (let s := rec1 (collMem false); let w := wordAt ((accAt loc2 64).locs.map (s.look 0));
      (∃ A, s.check s.who .hint 1 (va57 (w 5)) 1 = (s, .ok A) ∧ A.remote = false) ∧ s.barCheck s.who false (va57 (w 6)) = (s.noteBar 0x800000100, .ok (.mem 0x800000100)) ∧
      s.Checked (s.noteBar 0x800000100) ∧ (s.noteBar 0x800000100).released .sys = true) := by
  have q128 : ∀ s ∈ [recFull 64, rec1 [], rec1 (recMem 0x20), rec1 (recMem 0x10), recRange], recReady s 128 = true := by decide +kernel
  have q64 : ∀ b ∈ [true, false], recReady (rec1 (collMem b)) 64 = true := by decide +kernel
  have un : ∀ s ∈ [rec1 (recMem 0x20), rec1 (recMem 0x10), recRange], (s.acquire .pkg).who.untranslated = true := by decide +kernel
  have mem2 (s : State) (h : s ∈ [rec1 (recMem 0x10), recRange]) : s ∈ [rec1 (recMem 0x20), rec1 (recMem 0x10), recRange] := List.mem_cons_of_mem _ h
  refine ⟨fun s hs => ⟨rec_at s 128 (of_decide_eq_true (q128 s hs)) ?_ ?_, rfl, rfl⟩, by decide +kernel, ⟨by decide +kernel, by decide +kernel, Prod.ext (viewPages_same _ _ _ (un _ (by simp))) (by decide +kernel), rfl, rfl⟩, fun s hs => ?_,
    by decide +kernel, by decide +kernel, fun b hb => ⟨rec_at _ 64 (of_decide_eq_true (q64 b hb)) ⟨rfl, rfl, rfl⟩ rfl, ?_⟩, ⟨_, Prod.ext (check_same _ _ _ _ _ _ (by decide +kernel)) rfl, by decide +kernel⟩, ?_, ⟨((rec1 (collMem false)).noteBar_side _).cur, ((rec1 (collMem false)).noteBar_side _).me⟩, by decide +kernel⟩
  · simp only [List.mem_cons, List.not_mem_nil, or_false] at hs
    obtain rfl | rfl | rfl | rfl | rfl := hs <;> exact ⟨rfl, rfl, rfl⟩
  · simp only [List.mem_cons, List.not_mem_nil, or_false] at hs
    obtain rfl | rfl | rfl | rfl | rfl := hs <;> rfl
  · have p : ∀ s ∈ [rec1 (recMem 0x10), recRange], s.views[(0 : Fin 64)] = none ∧ recordBad (recWords s) = false ∧ ((s.acquire .pkg).viewPages false [(recView s).areas.1]).2 = .ok recPages.1 ∧
        ((s.acquire .pkg).viewPages true ((recView s).areas.2.1 ++ (recView s).areas.2.2.1 ++ [(recView s).areas.2.2.2])).2 = .ok recPages.2 := by decide +kernel
    obtain ⟨p1, p2, p3, p4⟩ := p s hs
    have u := un s (mem2 s hs)
    exact ⟨p1, p2, Prod.ext (viewPages_same _ _ _ u) p3, Prod.ext (viewPages_same _ _ _ u) p4, ⟨rfl, rfl⟩, rfl⟩
  · have : ∀ b ∈ [true, false], collBad (wordAt ((accAt loc2 64).locs.map ((rec1 (collMem b)).look 0))) = b := by decide +kernel
    exact this b hb
  · have e : va57 (wordAt ((accAt loc2 64).locs.map ((rec1 (collMem false)).look 0)) 6) = 0x100000006000 := by decide +kernel
    rw [e]
    exact Fresh.barCheck (s := rec1 (collMem false)) ⟨rfl, rfl, rfl, rfl, rfl, rfl, rfl⟩ (rec1 (collMem false)).who 0x100000006000 (accAt 0x800000100 32) _ ((List.range 31).map (fun i => 0x800000100 + (i + 1)))
      (by decide +kernel) (by decide +kernel) (by decide) ⟨by decide +kernel, rfl, rfl⟩ (.inl rfl)

/-- A command running on abacus (0, 0): two program words, the last step allowed, one output to emit at byte 124 of line 0x60, its value the last word of the buffer. -/
def abRun1 : AbRun :=
  { cmd := { bankCmd1 with ooff := 124 }, prog := [0, 0], buf := [], q := ((Vector.replicate 16 0).set 1 65532).set 3 1, c := Vector.replicate 16 0, pc := 0, steps := 2 ^ 26 - 1, emitted := 0,
    refused := none, ended := none }
def ab1 (range : Bool) : State :=
  { State.reset with
    abaci := [{ die := 0, pch := 0, coming := [], queue := [], run := some abRun1 }]
    ranges := State.reset.ranges.set 255 (if range then some { base := 0x3000, len := 128, lines := [0x60], fmt := .f32, scope := .pkg, starting := false, ending := false, far := none } else none) }

theorem witness_AbacusInstructions :
    ∀ b ∈ [true, false], ((ab1 b).abAt (ab1 b).curAb.1 (ab1 b).curAb.2).run = some abRun1 ∧ abRun1.ended = none ∧ abRun1.steps < 2 ^ 26 ∧
      (abRun1.q[(3 : Fin 16)]).toNat = 1 ∧ (abRun1.q[(1 : Fin 16)]).toNat % 4 = 0 ∧ (abRun1.q[(1 : Fin 16)]).toNat + 4 * 1 ≤ 65536 ∧ (abRun1.q[(2 : Fin 16)]).toNat + 1 ≤ abRun1.cmd.olen ∧
      abRun1.pc + 1 < abRun1.prog.length ∧
      (let loc := areaLoc abRun1.cmd.olines abRun1.cmd.ooff (4 * (abRun1.q[(2 : Fin 16)]).toNat); (ab1 b).poisoned (lineOf loc) = false ∧ loc % 128 + 4 ≤ 128 ∧
        (∀ f, (ab1 b).rangeOf (lineOf loc) = some f → f.ending = false ∧ f.fmt = .f32 ∧ (f.scope = .pkg ∨ f.scope = .sys)) ∧ (b = false → (ab1 b).rangeOf (lineOf loc) = none) ∧ (b = true → ((ab1 b).rangeOf (lineOf loc)).isSome = true)) ∧ (ab1 b).Inv := by
  intro b hb
  have p : ∀ b ∈ [true, false], ((ab1 b).abAt (ab1 b).curAb.1 (ab1 b).curAb.2).run = some abRun1 ∧ (Memory.wf (ab1 b).mem && Memory.wf (ab1 b).scr) = true ∧
      (let loc := areaLoc abRun1.cmd.olines abRun1.cmd.ooff (4 * (abRun1.q[(2 : Fin 16)]).toNat); (ab1 b).poisoned (lineOf loc) = false ∧ loc % 128 + 4 ≤ 128 ∧
        (ab1 b).rangeOf (lineOf loc) = (if b then some { base := 0x3000, len := 128, lines := [0x60], fmt := .f32, scope := .pkg, starting := false, ending := false, far := none } else none)) := by decide +kernel
  obtain ⟨p1, p2, p3, p4, p5⟩ := p b hb
  refine ⟨p1, by decide, by decide, by decide, by decide, by decide, by decide, by decide, ⟨p3, p4, fun f hf => ?_, fun h => ?_, fun h => ?_⟩, inv_of _ p2⟩
  · rw [p5] at hf
    cases b
    · simp at hf
    · simp at hf
      subst hf
      exact ⟨rfl, rfl, .inl rfl⟩
  · rw [p5, h]; rfl
  · rw [p5, h]; rfl

-- ## Issue, registers, interrupts, tasks

/-- A machine after reset with core 0 as f makes it of the boot core. -/
def core1 (f : Core → Core) : State := { State.reset with cores := (Vector.replicate 256 Core.reset).set 0 (f Core.boot) }

/-- The boot string about to enter a block at bootEntry: its header, with R set, or none. -/
def entry1 (hdr : Bool) : State := { State.reset with mem := if hdr then [(1, 0x01), (5, 0x40), (6, 0xFF), (7, 0xFF)] else [] }
/-- The same at an address of no memory. -/
def entry2 : State := with_ { Str.boot with splits := Str.boot.splits.set 0 { Str.boot.splits[0] with pc := 0x200000000000 } }

theorem fetch_checked (s : State) (w : Who) (va : W64) (x : XRes W64) (h : (s.fetch64 w va).2 = x ∧ (match (s.checkRead w .fetch true 1 va 8).2 with | .ok a => a.reg.isNone | _ => true) = true) :
    ∃ q, s.fetch64 w va = (q, x) ∧ s.Checked q :=
  ⟨_, Prod.ext rfl h.1, (s.fetch64_side w va h.2).cur, (s.fetch64_side w va h.2).me⟩

/-- The same with the header's X bit, the array of its core owned by o, and at ENTRY of a task that is staged. -/
def entry3 (o : Option (SlotId × Nat)) : State :=
  { (entry1 true) with mem := [(1, 0x03), (5, 0x40), (6, 0xFF), (7, 0xFF)], cores := (entry1 true).cores.set 0 { (entry1 true).core with arr := { (entry1 true).core.arr with owner := o } } }
def entE : SEnt := { bytes := leBytes 8 State.reset.sp.pc.toNat ++ List.replicate 120 0, ctx := 0, launch := 63 }
def entry4 : State := (entry1 true).modMe (fun t => { t with staging := some { ent := entE, begun := true, entered := false }, splits := t.splits.set 0 { t.splits[0] with mode := .user } })

theorem witness_IssueEvents_array : (∀ o ∈ [none, some ((0 : SlotId), State.reset.me.uid), some (15, 99)], (entry3 o).sp.enter = true ∧ (entry3 o).sp.m ≠ 0 ∧ (entry3 o).sp.stack = [] ∧ (entry3 o).me.single = true ∧
      (let q := (entry3 o).fetch64 (entry3 o).who (entry3 o).sp.pc; q.2 = .ok 0xFFFF400000000300 ∧ q.1.core.arr.owner = o ∧ q.1.core.arr.waiters = []) ∧
      (match ((entry3 o).checkRead (entry3 o).who .fetch true 1 (entry3 o).sp.pc 8).2 with | .ok a => a.reg.isNone | _ => true) = true) ∧
    (hdrFail (entry3 none).sp.mode (entry3 none).sp.pc 0xFFFF400000000300 = none ∧ (0xFFFF400000000300 : W64).getLsbD 9 = true ∧ (0xFFFF400000000300 : W64).extractLsb' 16 7 = 0) ∧
    ((entry4).sp.enter = true ∧ entry4.sp.mode = .user ∧ entry4.sp.pc = entE.entry ∧ entry4.me.staging = some { ent := entE, begun := true, entered := false } ∧
      (entry4.fetch64 entry4.who entry4.sp.pc).2 = .ok 0xFFFF400000000100 ∧ hdrFail entry4.sp.mode entry4.sp.pc 0xFFFF400000000100 = none) := by decide +kernel

theorem witness_IssueEvents_entry : (∀ b ∈ [true, false], (entry1 b).sp.enter = true ∧ (entry1 b).sp.m ≠ 0 ∧ (entry1 b).sp.stack = [] ∧ (entry1 b).me.single = true ∧
      ((entry1 b).fetch64 (entry1 b).who (entry1 b).sp.pc).2 = .ok (if b then 0xFFFF400000000100 else 0) ∧
      (match ((entry1 b).checkRead (entry1 b).who .fetch true 1 (entry1 b).sp.pc 8).2 with | .ok a => a.reg.isNone | _ => true) = true) ∧
    hdrFail (entry1 true).sp.mode (entry1 true).sp.pc 0xFFFF400000000100 = none ∧ (0xFFFF400000000100 : W64).getLsbD 9 = false ∧ (0xFFFF400000000100 : W64).getLsbD 8 = true ∧
    hdrFail (entry1 false).sp.mode (entry1 false).sp.pc 0 = some (5, (entry1 false).sp.pc) ∧
    (entry2.sp.enter = true ∧ entry2.sp.m ≠ 0 ∧ entry2.sp.stack = [] ∧ entry2.me.single = true ∧ (entry2.fetch64 entry2.who entry2.sp.pc).2 = .fail ordPhys 21) := by decide +kernel

/-- `str1` that has been ready for n cycles and whose split has been free for m. -/
def ready1 (n m : Nat) : State := with_ { str1 with ready := n, splits := str1.splits.set 0 { str1.splits[0] with starve := m } }

theorem witness_IssueEvents_picks : (∀ n ∈ [(255, 255), (256, 255), (0, 256)], (ready1 n.1 n.2).mayPick 0 0 = true ∧ (ready1 n.1 n.2).freeSplits 0 0 = [0] ∧ ((ready1 n.1 n.2).strAt 0 0).ready = n.1 ∧
      (((ready1 n.1 n.2).strAt 0 0).splits[(0 : Fin 4)]).starve = n.2 ∧ ∀ i : SlotId, (ready1 n.1 n.2).mayPick 0 i = decide (i = 0)) ∧
    (∀ i, (with_ Str.empty).mayPick 0 i = false) := by decide +kernel

/-- A string with a pool record of launch 63, all of its splits waiting. -/
def strP : Str := { str1 with launch := some 63, pool := some 0, splits := str1.splits.set 0 { str1.splits[0] with wait := .bank } }
def poolLaunch : Launch := { Launch.none with on := true, live := 2, words := (Vector.replicate 8 0).set 5 0x400000000000 }
def host63 (s : State) : State := { s with launches := s.launches.set 63 poolLaunch }
/-- Core 0 with every slot and every physical register taken, all slots parked for 64 cycles, a manifest in its serai. -/
def packed : State := { host63 (core1 (fun x => { x with strs := Vector.replicate 16 strP, allParked := some 0, serai := [ent0] })) with cyc := 64 }
/-- Register 255 of the boot string spilled. -/
def filled : State := host63 (with_ { strP with vspill := 1#256 <<< 255 })
/-- Core 0 with all slots free, one string spilled and woken. -/
def woken1 : State := host63 (core1 (fun x => { x with strs := Vector.replicate 16 Str.empty, spilled := [{ str := strP, woken := true, at_ := 0 }] }))

theorem packed_str (k : SlotId) : packed.strAt 0 k = strP := by
  show (Vector.replicate 16 strP)[k] = strP
  exact Vector.getElem_replicate ..
theorem packed_calm : Calm packed := Calm.reset.of rfl (fun _ h => nomatch h) (fun _ h => h)
/-- A state whose string in slot k of core 0 keeps its pool record. -/
def keeps (s : State) (k : SlotId) : State := s.modStr 0 k (fun t => { t with poolKept := true })
theorem keeps_calm (s : State) (k : SlotId) (h : Calm s) (e : s.l2 = []) : Calm (keeps s k) :=
  h.of rfl (fun _ hx => by rw [show (keeps s k).l2 = [] from e] at hx; cases hx) (fun _ h => h)
theorem packed_area (k : SlotId) : packed.spillArea 0 k = (keeps packed k, some (whoOf 0 0 .user, 0x400000000000)) := by
  have hi : packed.imageBlock 0 strP.ctx = none := by decide +kernel
  have e := spillArea_pool packed 0 k 0 63 (by rw [packed_str]; exact hi) (by rw [packed_str]; rfl) (by rw [packed_str]; rfl)
  have hp : (packed.launches[(63 : Fin 64)]).ptroot = 0 ∧ (packed.launches[(63 : Fin 64)]).pool + poolRec * 0 = 0x400000000000 := by decide +kernel
  rw [hp.1, hp.2] at e
  exact e

theorem packed_victim : ∃ k r v, r < 256 ∧ packed.spillVictim 0 = some (k, r) ∧ strP.vreg.toArray.getD r none = some v := by
  obtain ⟨r, v, h256, hv, hr⟩ := strP.victimReg_some 0 (by decide) (by decide +kernel)
  let l := allSlots.filter (fun k => (packed.cores[(0 : CoreId)]).strs[k].present)
  let f (k : SlotId) : Option (SlotId × Nat) :=
    match (packed.strAt 0 k).victimReg with
    | some r => if (packed.spillArea 0 k).2.isSome then some (k, r) else none
    | none => none
  have all (k : SlotId) : f k = some (k, r) := by
    simp only [f, packed_str, hv, packed_area]
    rfl
  have hne : l ≠ [] := List.ne_nil_of_mem (List.mem_filter.mpr (⟨List.mem_finRange 0, by
    show (packed.strAt 0 0).present = true
    rw [packed_str]
    decide⟩ : (0 : SlotId) ∈ allSlots ∧ _))
  obtain ⟨k, hk, e⟩ := findSome_sorted l (fun a b => decide ((packed.cores[(0 : CoreId)]).strs[b].physical < (packed.cores[(0 : CoreId)]).strs[a].physical) ||
      ((packed.cores[(0 : CoreId)]).strs[a].physical == (packed.cores[(0 : CoreId)]).strs[b].physical && decide (a.val ≤ b.val))) f hne (fun k _ => by rw [all k]; rfl)
  exact ⟨k, r, v, h256, e.trans (all k), hr⟩

theorem packed_regs : packed.freeRegs 0 < 4 := by
  have hp : strP.physical = 256 := by decide +kernel
  have : ((packed.cores[(0 : CoreId)]).strs.toList.map Str.physical) = List.replicate 16 256 := by
    show ((Vector.replicate 16 strP).toList.map Str.physical) = _
    rw [Vector.toList_replicate, List.map_replicate, hp]
  rw [State.freeRegs, this]
  decide

theorem pools : (packed.launches[(63 : Fin 64)]).ptroot = 0 ∧ (packed.launches[(63 : Fin 64)]).pool + 43008 * 0 = 0x400000000000 ∧ (woken1.launches[(63 : Fin 64)]).ptroot = 0 ∧
    (woken1.launches[(63 : Fin 64)]).pool + 43008 * 0 = 0x400000000000 := by decide +kernel

theorem filledFacts : filled.imageBlock 0 (filled.strAt 0 0).ctx = none ∧ (filled.strAt 0 0).pool = some 0 ∧ (filled.strAt 0 0).launch = some 63 ∧ (filled.launches[(63 : Fin 64)]).ptroot = 0 ∧
      (filled.launches[(63 : Fin 64)]).pool + poolRec * 0 = 0x400000000000 := by decide +kernel
theorem strP_pool : strP.pool = some 0 := rfl
theorem strP_launch : strP.launch = some 63 := rfl

theorem wokenImg : woken1.imageBlock 0 strP.ctx = none := by decide +kernel

theorem pair_ok (p : State × Taken) (h1 : p.2.waits = false) (h2 : p.2.err = 0) : ∃ z tk, p = (z, tk) ∧ tk.waits = false ∧ tk.err = 0 := ⟨p.1, p.2, rfl, h1, h2⟩
theorem pair_str (s : State) (k : SlotId) (p : State × Taken) (m : s.MemSide p.1) (h1 : p.2.waits = false) (h2 : p.2.err = 0) :
    ∃ z tk, p = (z, tk) ∧ tk.waits = false ∧ tk.err = 0 ∧ z.strAt 0 k = s.strAt 0 k := ⟨p.1, p.2, rfl, h1, h2, by simp only [State.strAt, m.cores]⟩
theorem pair_img (s : State) (x : BitVec 12) (p : State × Taken) (m : s.MemSide p.1) (h1 : p.2.waits = false) (h2 : p.2.err = 0) (hs : s.imageBlock 0 x = none) :
    ∃ z tk, p = (z, tk) ∧ tk.waits = false ∧ tk.err = 0 ∧ z.imageBlock 0 x = none := ⟨p.1, p.2, rfl, h1, h2, by rw [m.imageBlock]; exact hs⟩

/-- A register, then a parked string, then a woken one through the launch's pool in host memory. -/
theorem witness_IssueEvents_spill :
    (packed.freeRegs 0 < 4 + (packed.cores[(0 : CoreId)]).keptRegs ∧ (packed.cores[(0 : CoreId)]).keptRegs = 0 ∧ ∃ (k : SlotId) (r : Nat) (val : LaneVec), packed.spillVictim 0 = some (k, r) ∧
      packed.spillArea 0 k = (keeps packed k, some (whoOf 0 0 .user, 0x400000000000)) ∧ ((keeps packed k).strAt 0 k).vreg.toArray.getD r none = some val ∧
      ∃ z tk, (keeps packed k).putAll (whoOf 0 0 .user) (0x400000000000 + 128 * r) (laneBytes val) = (z, tk) ∧ tk.waits = false ∧ tk.err = 0) ∧
    ((filled.strAt 0 0).vspill.getLsbD 255 = true ∧ filled.spillArea 0 0 = (keeps filled 0, some (whoOf 0 0 .user, 0x400000000000)) ∧
      ∃ z tk, (keeps filled 0).getAll (whoOf 0 0 .user) (0x400000000000 + 128 * 255) 128 = (z, tk) ∧ tk.waits = false ∧ tk.err = 0) ∧
    (State.reset.maySpill 0 = false ∧ packed.maySpill 0 = true ∧ ∃ (k : SlotId), (packed.cores[(0 : CoreId)]).byParked.find? (fun i => packed.hasPool (packed.strAt 0 i)) = some k ∧
      packed.poolFor 0 k = (packed, some 0) ∧ (packed.strAt 0 k).launch = some 63 ∧
      ∃ z tk, packed.putParts (whoOf 0 0 .user) 0x400000000000 (packed.strAt 0 k).record = (z, tk) ∧ tk.waits = false ∧ tk.err = 0 ∧
        z.strAt 0 k = packed.strAt 0 k) ∧
    (woken1.firstWoken 0 = some { str := strP, woken := true, at_ := 0 } ∧ (woken1.strAt 0 0).present = false ∧ woken1.mayStart 0 = true ∧ woken1.faulted strP.ctx = false ∧
      ∃ q tk, woken1.getAll (whoOf 0 0 .user) 0x400000000000 43008 = (q, tk) ∧ tk.waits = false ∧ tk.err = 0 ∧
        q.imageBlock 0 strP.ctx = none) ∧
    ((packed.launches[(63 : Fin 64)]).ptroot = 0 ∧ (packed.launches[(63 : Fin 64)]).pool + 43008 * 0 = 0x400000000000 ∧ (woken1.launches[(63 : Fin 64)]).ptroot = 0 ∧
      (woken1.launches[(63 : Fin 64)]).pool + 43008 * 0 = 0x400000000000) := by
  obtain ⟨k, r, v, hr256, hk, hr⟩ := packed_victim
  have hb : hostBase = 0x400000000000 := rfl
  obtain ⟨_, _, a1, a2⟩ := (keeps_calm _ k packed_calm rfl).putAll (whoOf 0 0 .user) (0x400000000000 + 128 * r) (laneBytes v) rfl (by rw [laneBytes_length]; omega) (by omega) (by rw [laneBytes_length]; omega)
  have fc : Calm filled := Calm.reset.of rfl (fun _ h => nomatch h) (fun _ h => h)
  obtain ⟨_, _, b1, b2⟩ := (keeps_calm _ 0 fc rfl).getAll (whoOf 0 0 .user) (0x400000000000 + 128 * 255) 128 rfl (by omega) (by omega) (by omega)
  have wc : Calm woken1 := Calm.reset.of rfl (fun _ h => nomatch h) (fun _ h => h)
  obtain ⟨_, m, c1, c2⟩ := wc.getAll (whoOf 0 0 .user) 0x400000000000 43008 rfl (by omega) (by omega) (by omega)
  have fa : filled.spillArea 0 0 = (keeps filled 0, some (whoOf 0 0 .user, 0x400000000000)) := by
    have h := filledFacts
    have e := spillArea_pool filled 0 0 0 63 h.1 h.2.1 h.2.2.1
    rwa [h.2.2.2.1, h.2.2.2.2] at e
  have pp (i : SlotId) : packed.hasPool (packed.strAt 0 i) = true := by
    rw [packed_str]
    simp only [State.hasPool, strP_pool, Option.isSome_some, Bool.true_or]
  obtain ⟨j, _, hj⟩ := find_sorted allSlots (fun a b => decide ((packed.cores[(0 : CoreId)]).strs[a].parkedAt < (packed.cores[(0 : CoreId)]).strs[b].parkedAt)
    || ((packed.cores[(0 : CoreId)]).strs[a].parkedAt == (packed.cores[(0 : CoreId)]).strs[b].parkedAt && decide (a.val ≤ b.val))) (fun i => packed.hasPool (packed.strAt 0 i)) (by decide) (fun i _ => pp i)
  obtain ⟨_, mp, d1, d2⟩ := packed_calm.putParts (whoOf 0 0 .user) 0x400000000000 (packed.strAt 0 j).record rfl
    (by omega) (fun p hp => by
      have := (packed.strAt 0 j).record_ok p hp
      omega)
  have pl : (packed.strAt 0 j).launch = some 63 := by
    rw [packed_str]
    exact strP_launch
  exact ⟨⟨packed_regs, rfl, k, r, v, hk, packed_area k, by rw [keeps, State.strAt_modStr_same, packed_str]; exact hr, pair_ok _ a1 a2⟩, ⟨by decide +kernel, fa, pair_ok _ b1 b2⟩,
    ⟨by decide +kernel, by decide +kernel, j, hj, by simp only [State.poolFor, packed_str, strP_pool], pl, pair_str packed _ _ mp d1 d2⟩, ⟨rfl, by decide +kernel, by decide +kernel, by decide +kernel,
    pair_img woken1 _ _ m c1 c2 wokenImg⟩, pools⟩

/-- The boot string as a user with source 0 of its core pending (irecv p) and delivered to slot 0, or waiting in `wfi`. -/
def irq1 (p : Bool) : State := { user1 with irecv := user1.irecv.set 0 (if p then 0x0001000100000010 else 0x10) }
def park1 (p : Bool) : State :=
  let s : State := with_ { str1 with park := [{ str1.splits[0] with wait := .wfi }] }
  { s with irecv := s.irecv.set 0 (if p then 0x0001000100000000 else 0) }
def wfi1 (p : Bool) : State :=
  let s : State := with_ { str1 with splits := str1.splits.set 0 { str1.splits[0] with wait := .wfi } }
  { s with irecv := s.irecv.set 0 (if p then 0x0001000100000000 else 0) }

/-- A manifest with one Porter descriptor: 16 bytes of host memory to offset 0 of the partition, or to an offset that is not aligned to 16. -/
def entOp (bad : Bool) : SEnt :=
  { bytes := List.replicate 69 0 ++ [0x40, 0, 0x80] ++ (if bad then [0, 0, 0, 0, 0, 0x04] else List.replicate 6 0) ++ List.replicate 50 0, ctx := 0, launch := 63 }
/-- The boot string staging a manifest. -/
def stage1 (e : SEnt) (begun : Bool) : State := with_ { str1 with st := .staging, staging := some { ent := e, begun := begun, entered := false } }

/-- Core 0 with free slots, holding a manifest, or core 1 holding one that it reports, or queue 15. -/
def steal1 (own other : Bool) (n : Nat) : State :=
  let s : State := host63 (core1 (fun x => { x with serai := if own then [ent0] else [], retryAt := n }))
  { s with cores := s.cores.set 1 { s.cores[1] with serai := if other then [ent0] else [], shown := if other then 1 else 0 } }
def steal2 : State :=
  let s : State := host63 (core1 (fun x => { x with stealdist := x.stealdist ||| 0x80000000 }))
  { s with bazaar := s.bazaar.set 15 { w0 := 0x8000000000000000, w1 := 0x100, head := 0, q := [ent0] } }
/-- The manifest of core 1 spawned with `.core`, a store of core 1 waiting. -/
def steal3 : State := { steal1 false true 0 with pend := [{ die := 0, core := 1, slot := 0, uid := 9, op := 0, line := loc2 / 128, bank := false, cells := [(loc2, 1)] }] }

/-- Core 0 holding a partition, in use by a string or not; its array free, with the boot string's split 0 waiting for it. -/
def part1 : Part := { ctx := 0, gmask := 1, keep := false }
def parts1 (used : Bool) : State := core1 (fun x => { x with parts := [part1], strs := if used then x.strs else Vector.replicate 16 Str.empty })
def array1 : State :=
  core1 (fun x => { x with arr := { x.arr with waiters := [(1, 1)] }, strs := (Vector.replicate 16 Str.empty).set 0 { str1 with splits := str1.splits.set 0 { str1.splits[0] with wait := .array } } })

theorem pair_of {α β : Type} (p : α × β) (x : β) (h : p.2 = x) : ∃ q, p = (q, x) := ⟨p.1, Prod.ext rfl h⟩

theorem packed_full : (packed.cores[(0 : CoreId)]).freeSlot = none := by
  have e (k : SlotId) : (packed.cores[(0 : CoreId)]).strs[k] = strP := packed_str k
  have p : strP.present = true := by decide
  simp only [Core.freeSlot, e, p]
  rw [List.find?_eq_none]
  intro k _
  decide

theorem returning_none (s : State) (c : CoreId) (h : (s.cores[c]).evicted = []) : s.returning c = none := by
  simp only [State.returning, h, List.filter_nil]
  simp

theorem victims_one (s : State) (c v : CoreId) (k : Nat) (hv : (allCores.filter (fun v => distClass c v == k && s.working v && decide (0 < s.reported c v))) = [v]) (ht : 0 < s.cores[c].tries) :
    s.victims c k = [v] := by
  unfold State.victims
  simp only [hv]
  have e (n : Nat) : n % [v].length = 0 := by simp [Nat.mod_one]
  have tk (n : Nat) (hn : 0 < n) : [v].take n = [v] := List.take_of_length_le hn
  split
  · simpa using tk _ ht
  · rw [e]; simpa using tk _ ht

theorem porting_one (s : State) (c : CoreId) (k : SlotId) (h : (allSlots.filter (fun k => (s.strAt c k).ported)) = [k]) :
    s.porting c = [k] := by
  unfold State.porting
  rw [h, List.mergeSort_singleton]
  rfl

theorem victims_none (s : State) (c : CoreId) (k : Nat) (hv : (allCores.filter (fun v => distClass c v == k && s.working v && decide (0 < s.reported c v))) = []) : s.victims c k = [] := by
  unfold State.victims
  simp [hv]

theorem steal_probes : (steal1 false true 0).probeList 0 = [1] := by
  have a : allCores.filter (fun v => distClass 0 v == 1 && (steal1 false true 0).working v && decide (0 < (steal1 false true 0).reported 0 v)) = [1] := by decide +kernel
  have n : allCores.filter (fun v => distClass 0 v == 2 && (steal1 false true 0).working v && decide (0 < (steal1 false true 0).reported 0 v)) = [] := by decide +kernel
  have m : [1, 2, 3].filter (fun k => decide (k ≤ (steal1 false true 0).cores[(0 : CoreId)].maxd)) = [1, 2] := by decide +kernel
  simp only [State.probeList, m, List.flatMap_cons, List.flatMap_nil, victims_one _ _ _ _ a (by decide +kernel), victims_none _ _ _ n, List.append_nil]

theorem steal_victim : (steal1 false true 0).victimFor 0 = some 1 := by
  have b : (steal1 false true 0).takeable 0 1 = [ent0] := by decide +kernel
  simp only [State.victimFor, State.holding, steal_probes, List.find?_cons, b, List.isEmpty_cons, Bool.not_false]

theorem victim_none (s : State) (c : CoreId) (h : ∀ k ∈ [1, 2, 3], (allCores.filter (fun v => distClass c v == k && s.working v && decide (0 < s.reported c v))) = []) : s.victimFor c = none := by
  have : s.probeList c = [] := by
    rw [State.probeList, List.flatMap_eq_nil_iff]
    exact fun k hk => victims_none s c k (h k (List.mem_filter.mp hk).1)
  simp only [State.victimFor, State.holding, this, List.find?_nil]

/-- Five strings of core 0 staging operands. -/
def porting5 : State := core1 (fun x => { x with strs := gen 16 (fun i => if i < 5 then { str1 with uid := i, st := .staging, staging := some { ent := entOp false, begun := true, entered := false } } else Str.empty) })

theorem mergeSort_of {α : Type} (le : α → α → Bool) (l : List α) (h : l.Pairwise (fun a b => le a b = true)) : l.mergeSort le = l := List.mergeSort_of_pairwise h

theorem porting_five : (4 : SlotId) ∉ porting5.porting 0 ∧ (0 : SlotId) ∈ porting5.porting 0 := by
  have f : (allSlots.filter (fun k => (porting5.strAt 0 k).ported)) = [0, 1, 2, 3, 4] := by decide +kernel
  unfold State.porting
  rw [f, mergeSort_of _ _ (by decide +kernel)]
  decide

theorem witness_IssueEvents :
    ((∀ b ∈ [true, false], ∃ q, (entry1 b).fetch64 (entry1 b).who (entry1 b).sp.pc = (q, .ok (if b then 0xFFFF400000000100 else 0)) ∧ (entry1 b).Checked q) ∧
      (∃ q, entry2.fetch64 entry2.who entry2.sp.pc = (q, .fail ordPhys 21))) ∧
    (4 ≤ State.reset.freeRegs 0) ∧
    ((irq1 true).irqSlot 0 = some 0 ∧ (((irq1 true).strAt 0 0).splits[(0 : Fin 4)]).m.getLsbD 0 = true ∧ (((irq1 true).strAt 0 0).splits[(0 : Fin 4)]).mode = .user ∧
      (∀ i : Fin 4, i ≠ 0 → (((irq1 true).strAt 0 0).splits[i]).m.getLsbD 0 = false) ∧ (irq1 false).irqSlot 0 = none) ∧
    (∀ b ∈ [true, false], (((wfi1 b).strAt 0 0).splits[(0 : Fin 4)]).wait = .wfi ∧ ((wfi1 b).irqs 0 ≠ 0 ↔ b = true)) ∧
    ((((park1 true).strAt 0 0).park[0]?).map (·.wait) = some .wfi ∧ (park1 true).irqs 0 ≠ 0) ∧
    (((∀ b ∈ [true, false], ((stage1 ent0 b).strAt 0 0).st = .staging ∧ ((stage1 ent0 b).strAt 0 0).staging = some { ent := ent0, begun := b, entered := false }) ∧ ent0.ops = [] ∧
      (let s := stage1 (entOp false) true; let d : Nat × W64 × W64 := (0, 0x8000400000000000, 0);
        (entOp false).ops = [d] ∧ s.descFault 0 0 d = none ∧ (s.stageOp 0 (s.strAt 0 0) d).2.waits = false ∧ (s.stageOp 0 (s.strAt 0 0) d).2.err = 0) ∧
      (entOp true).ops.findSome? ((stage1 (entOp true) true).descFault 0 0) = some (18, 0)) ∧
      (∀ b ∈ [true, false], (0 : SlotId) ∈ (stage1 (entOp b) true).porting 0) ∧ (4 : SlotId) ∉ porting5.porting 0) ∧
    ((packed.cores[(0 : CoreId)]).freeSlot = none ∧
      (∀ o ∈ [(true, false), (false, true), (false, false)], ((steal1 o.1 o.2 0).cores[(0 : CoreId)]).freeSlot = some 1 ∧ (steal1 o.1 o.2 0).mayStart 0 = true ∧ (steal1 o.1 o.2 0).firstWoken 0 = none ∧
        (steal1 o.1 o.2 0).takeable 0 0 = (if o.1 then [ent0] else []) ∧ (steal1 o.1 o.2 0).queueFor 0 = none) ∧
      (steal1 false true 0).returning 0 = none ∧ (steal1 false true 0).victimFor 0 = some 1 ∧ (steal1 false false 0).victimFor 0 = none ∧
      (steal2.takeable 0 0 = [] ∧ steal2.victimFor 0 = none ∧ steal2.queueFor 0 = some 15 ∧ steal2.queueHead 15 = some ent0 ∧ steal2.firstWoken 0 = none ∧ steal2.returning 0 = none) ∧
      ((woken1.cores[(0 : CoreId)]).freeSlot = some 0 ∧ (woken1.firstWoken 0).isSome = true) ∧
      (((steal1 false true 0).takeable 0 1).getLast? = some ent0 ∧ (∀ p ∈ (steal1 false true 0).pend, p.core ≠ 1)) ∧
      ((steal3.takeable 0 1).getLast? = some ent0 ∧ ent0.rsc.code.toNat < distClass 0 1 ∧ ∃ p ∈ steal3.pend, p.core = 1) ∧ (steal1 false false 0).takeable 0 1 = [] ∧
      ((steal1 true true 0).cores[(0 : CoreId)]).retryAt ≤ (steal1 true true 0).cyc ∧ (steal1 true true 1).cyc < ((steal1 true true 1).cores[(0 : CoreId)]).retryAt) ∧
    ((steal1 false true 0).offered 1 = 1 ∧ (steal1 false true 0).drove = [] ∧ ∀ c ∈ [0, 5], (steal1 false false 0).offered c = 0) ∧
    (∀ b ∈ [true, false], (parts1 b).partOf 0 0 = some part1 ∧ (parts1 b).mayRelease 0 part1 = !b) ∧
    ((array1.cores[(0 : CoreId)]).arr.owner = none ∧ array1.arrayNext 0 = some (1, 1) ∧ (array1.strAt 0 0).present = true ∧ (array1.strAt 0 0).uid = 1 ∧
      (((array1.strAt 0 0).splits[(0 : Fin 4)]).m &&& 1 ≠ 0) ∧ ((array1.strAt 0 0).splits[(0 : Fin 4)]).wait = .array) := by
  obtain ⟨f1, -, -, -, -, f2⟩ := witness_IssueEvents_entry
  have p1 (b : Bool) : (0 : SlotId) ∈ (stage1 (entOp b) true).porting 0 := by
    rw [porting_one _ _ 0 (by cases b <;> decide +kernel)]
    decide
  refine ⟨⟨fun b hb => ?_, ?_⟩, by decide +kernel, by decide +kernel, by decide +kernel, by decide +kernel, ⟨by decide +kernel, fun b _ => p1 b, porting_five.1⟩,
    ⟨packed_full, by decide +kernel, returning_none _ _ rfl, steal_victim, victim_none _ _ (by decide +kernel),
      ⟨by decide +kernel, victim_none _ _ (by decide +kernel), by decide +kernel, by decide +kernel, by decide +kernel, returning_none _ _ rfl⟩,
      by decide +kernel⟩, by decide +kernel⟩
  · obtain ⟨-, -, -, -, h1, h2⟩ := f1 b hb
    exact fetch_checked _ _ _ _ ⟨h1, h2⟩
  · exact pair_of _ _ f2.2.2.2.2

-- ## The memory side

/-- The line of `loc2`, in the die-0 agent's cache or not, with the directory's entry for it. -/
def lineA : Nat := 0x10000000
def cached (l2 : List L2Line) (d : Option DState) : State := { State.reset with l2 := l2, dir := (d.map (fun x => (lineA, x))).toList }
/-- The same line held by agent a. -/
def heldBy (a : AgentId) (st : L2State) : L2Line := { agent := a, line := lineA, st := st, lease := 0, low := false }
def pst : PStore := { die := 0, core := 0, slot := 0, uid := 1, op := 0, line := lineA, bank := false, cells := [(loc2, 1)] }
def partialA : Partial := { agent := 0, line := lineA, elems := List.replicate 32 0x80000000 }
def range2 : Range := { range1 with lines := [lineA], fmt := .f32 }
def ranged (ps : List Partial) : State := { State.reset with ranges := State.reset.ranges.set 255 (some range2), partials := ps }
def metaA (x : Bool) : Meta := { line := lineA, xcl := x, agent := 0, inc := 0 }
/-- Agent 9's link sleeps, a message waiting for it since 0, at 4000 ns; an agent that has been silent for 2 ms. -/
def asleepA : State := { State.reset with acc := 4000 * 17000000, asleep := [9], held := [{ agent := 9, core := 0, slot := 0, lanes := 1, va := 0, since := 0, late := false }] }
/-- A dirty copy of the line whose lease runs out at 1. -/
def leasedA : L2Line := { agent := 9, line := lineA, st := .shared, lease := 1, low := false }
def silentA : State := { State.reset with acc := 2000000 * 17000000, silent := [(9, 0)] }
/-- A request that has waited for n cycles. -/
def req1 : PchReq := { die := 11, pch := 63, bank := 31, row := 5, at_ := 0 }
def queued (n : Nat) : State := { State.reset with pchq := [req1], cyc := n }
/-- A line of host memory. -/
def hostLine : Nat := 0x8000000000

/-- The words of region 63: 2 MiB at 0 with a valid word 2, or without; or an empty range. -/
def regionWords (len w2 : W64) : State := { State.reset with regions := State.reset.regions.set 63 (((Vector.replicate 4 0).set 1 len).set 2 w2) }
def regionV : W64 := 0x8115000100000001
/-- A machine at PTIME n. -/
def late (n : Nat) : State := { State.reset with acc := n * 17000000 }

/-- The view of one block of `rec1`, under handle 63, its generation owed 1 or none; dropping or not, and with a derivation or none. -/
def viewB (drop : Bool) : View :=
  { view0 with words := (((((((Vector.replicate 11 0).set 0 0x8000100000003000).set 1 0x100000020).set 2 0x80).set 3 0x9000000000000000).set 4 0x100000004000).set 6 0x40).set 10 0x100000005000,
               mlines := [0x18000000], elines := [[2]], tlines := [0x8000002], dropping := drop }
def viewed (owed drop : Bool) (ds : List Deriv) : State :=
  { State.reset with views := State.reset.views.set 63 (some (viewB drop)), mem := if owed then [(0x400000100, 1)] else [], derivs := ds, timers := [(63, 0, 0)] }
def deriv1 (started : Bool) : Deriv := { view := 63, blk := 0, n := 1, started := started }

theorem witness_MemoryEvents :
    (let s := { State.reset with pend := [pst] };
      s.leaseOn lineA = 0 ∧ s.pend.filter (fun y => y.die == 0 && y.line == lineA) = [pst] ∧ (let q := s.ownLine 0 { llcOnly := false, noL1 := false, isSealed := false } false lineA; q.2 = .ok ∧ q.1.poisoned lineA = false ∧ q.1.isMaster lineA = false) ∧
      (∀ y ∈ [pst].flatMap (·.cells), lineOf y.1 = lineA) ∧ s.poisoned lineA = false ∧ ({ s with pz := [lineA] } : State).poisoned lineA = true ∧ pst.full = false) ∧
    ((cached [{ agent := 9, line := lineA, st := .exClean, lease := 1, low := false }] none).leaseOn lineA ≠ 0) ∧
    (∀ st ∈ [L2State.shared, .exClean, .exDirty], (cached [heldBy 9 st] none).l2Get 9 lineA = some (heldBy 9 st) ∧ (cached [heldBy 9 st] none).mayGiveUp (heldBy 9 st) = true) ∧
    ((ranged [partialA]).l2Get 0 lineA = none ∧ ∃ z ∈ (ranged [partialA]).partials, z.agent = 0 ∧ z.line = lineA) ∧
    ((1 : BitVec 16) ≠ State.reset.inc[(9 : AgentId)] ∧ (0 : BitVec 16) = State.reset.inc[(9 : AgentId)] ∧ State.reset.deadAgents = []) ∧
    (∀ d ∈ [none, some (DState.sh 0x3FE), some (.ex 9)], let s := cached [] d;
      s.rangeOf lineA = none ∧ s.poisoned lineA = false ∧ s.homeAsleep lineA = false ∧ s.dirGet lineA = d ∧ s.metaGet lineA = none ∧ s.lost = [] ∧ s.asleep = [] ∧ s.pz.contains lineA = false ∧ s.isMaster lineA = false) ∧
    ((viewed true false []).isMaster 0x18000000 = true ∧ (viewed true false []).dirGet 0x18000000 = none ∧ (viewed true false []).metaGet 0x18000000 = none) ∧
    (let s := cached [leasedA] (some (.sh 0x200)); ∃ e ∈ s.l2, e.line = lineA ∧ e.agent ≠ 0 ∧ (0x200 : BitVec 10).getLsbD e.agent.val = true ∧ s.leaseOver e = false) ∧
    (let s := cached [heldBy 9 .shared] (some (.sh 0x200)); ∀ e ∈ s.l2, e.line = lineA → e.agent ≠ 0 → s.mayGiveUp e = true) ∧
    (let s := { State.reset with pz := [lineA] };
      s.rangeOf lineA = none ∧ s.pz.contains lineA = true ∧ (∀ die, homeOf lineA = some die → die ∉ s.deadDies) ∧ (List.replicate 128 (1 : Byte)).length = 128 ∧ s.Inv) ∧
    (State.reset.poisoned lineA = false ∧ State.reset.Inv) ∧
    (State.reset.isPlane (lineOf loc2) = false ∧ State.reset.rangeOf (lineOf loc2) = none ∧ State.reset.lineSealed (lineOf loc2) = false ∧ (sealed1 0).lineSealed (lineOf 0x8000) = true ∧ State.reset.lineFree (lineOf loc2) = true ∧ (State.reset.homeTake (lineOf loc2)).2 = .ok ∧
      ∀ i < 8, (State.reset.homeTake (lineOf loc2)).1.isMaster (lineOf (loc2 + i)) = false) ∧
    (∀ x ∈ [true, false], let s := { State.reset with metas := [metaA x] }; s.dirGet lineA = none ∧ s.metaGet lineA = some (metaA x) ∧ s.deadAgents = [] ∧ s.asleep = []) ∧
    (∀ ls ∈ [[heldBy 9 .exClean], [heldBy 9 .shared], [], [heldBy 9 .exClean, heldBy 0 .exDirty], [heldBy 9 .exClean, heldBy 0 .shared]], let s := { cached ls none with metas := [metaA true] };
      let holds := s.l2.filter (fun e => e.line == lineA && !s.deadAgents.contains e.agent);
      holds.filter (fun e => e.st != .shared) = ls.filter (fun e => e.st != .shared) ∧ holds.filter (fun e => e.st == .shared) = ls.filter (fun e => e.st == .shared)) ∧
    (9 ∈ asleepA.asleep ∧ ∃ h ∈ asleepA.held, h.agent = 9 ∧ h.late = false ∧ h.since + 4000 ≤ asleepA.ptime) ∧
    ((9 : AgentId) ∉ silentA.deadAgents ∧ ∃ x ∈ silentA.silent, x.1 = 9 ∧ x.2 + 2000000 ≤ silentA.ptime) ∧
    ((State.reset.inc[(9 : AgentId)]).toNat < 14 ∧ 15 ≤ (({ State.reset with inc := State.reset.inc.set 9 15 } : State).inc[(9 : AgentId)]).toNat) ∧
    ((ranged []).rangeOf lineA = some range2 ∧ State.reset.metaGet lineA = none ∧ State.reset.deadAgents = [] ∧ State.reset.asleep = [] ∧ asleepA.rangeOf lineA = none ∧ (9 : AgentId) ∉ asleepA.deadAgents) ∧
    (State.reset.corr[(11 : DieId)] < 0xFFFF ∧ 2 ^ 19 - 1 < 2 ^ 19 ∧ (State.reset.strAt 0 0).present = true ∧ ((task1 0 511).cores[(0 : CoreId)]).serai[510]? = some ent0) ∧
    ((11 : DieId) ∉ State.reset.deadDies ∧ State.reset.um.mdie.getLsbD 11 = true) ∧
    ((queued 1023).agedReq 11 63 = none ∧ (queued 1024).agedReq 11 63 = some req1 ∧
      ∀ n ∈ [1023, 1024], (((queued n).agedReq 11 63) <|> ((queued n).pchQueue 11 63).find? (queued n).rowHit <|> ((queued n).pchQueue 11 63).head?) = some req1) ∧
    (lineHost hostLine = true ∧ State.reset.naeshDown = false ∧ ∀ e ∈ State.reset.l2, e.line = hostLine → e.agent.val < 8 → State.reset.mayGiveUp e = true) := by
  and_intros
  all_goals decide +kernel

-- ## Tables, ranges and views

def whoE : Issuer := { slot := 0, uid := 1, op := 3, ptroot := 0, mode := .hyp }
def tileOp (k : TileKind) (ran : Bool) : TileOp := { kind := k, who := whoE, ran := ran, cnt := { nan := 0, inf := 0, scnan := 0, spidx := 0 } }
def arr1 (q : List TileOp) : State := core1 (fun x => { x with arr := { x.arr with queue := q } })
def mm1 : TileKind := .mmac .bf16 .core true false false 0x4000 0 0 0 [] []

theorem witness_TableEvents :
    ((nopage.strAt 0 0).present = true ∧ (whoOf 0 (nopage.strAt 0 0).ptroot .user).untranslated = false ∧ canonical 0xFF00000000001000 = true ∧ ((with_ Str.empty).strAt 0 0).present = false) ∧
    ((∃ p ∈ ({ State.reset with pend := [pst] } : State).pend, p.core = 0) ∧ ∀ sc ∈ [true, false], ∀ ps ∈ [[], [{ pst with core := 1 }]],
      let s : State := { with_ { str1 with splits := str1.splits.set 0 { str1.splits[0] with wait := .tcinv sc } } with pend := ps };
      (∀ p ∈ s.pend, p.core ≠ 0) ∧ (s.strAt 0 0).present = true ∧ ((s.strAt 0 0).splits[(0 : Fin 4)]).wait = .tcinv sc ∧ ((s.strAt 0 0).splits[(0 : Fin 4)]).m ≠ 0) ∧
    (regionV.getLsbD 63 = true ∧ (∀ x ∈ [(0x200000, 0, 0), (0x200000, regionV, 1), (0, 0, 3)], let s := regionWords x.1 x.2.1; s.regionErr 63 ((s.regions[(63 : Fin 64)]).set 2 regionV) = x.2.2) ∧
      regV ((regionWords 0x200000 regionV).regions[(63 : Fin 64)]) = true ∧ regV ((regionWords 0x200000 0).regions[(63 : Fin 64)]) = false) ∧
    ((late 100000000).timeLost = false ∧ (late 100000000).exchanged + 100000000 ≤ (late 100000000).ptime) ∧
    ((ranged [partialA]).rangeOf (lineOf (loc2 + 124)) = some range2 ∧ (ranged [partialA]).poisoned (lineOf (loc2 + 124)) = false ∧ (ranged [partialA]).partials = [partialA] ∧ partialA.agent = 0 ∧
      partialA.line = lineOf (loc2 + 124) ∧ (ranged [partialA]).partials.find? (fun q => q.agent == 0 && q.line == lineA) = some partialA ∧ (ranged [partialA]).asleep = [] ∧ (ranged [partialA]).deadAgents = [] ∧
      (ranged [partialA]).nextFold lineA ≠ some 0 ∧ ({ ranged [partialA] with dir := [(lineA, .cm 1)] } : State).nextFold lineA = some 0 ∧ (1 : BitVec 16) ≠ (ranged [partialA]).inc[agentOf 0]) ∧
    ((ranged []).rangeOf lineA = some range2 ∧ (ranged []).poisoned lineA = false ∧ (ranged []).partials = []) ∧
    (∀ b ∈ [true, false], let r := { range2 with starting := b, ending := !b }; let s := { State.reset with ranges := State.reset.ranges.set 255 (some r) };
      s.ranges[(255 : Fin 256)] = some r ∧ (∀ l ∈ r.lines, s.lineFree l = true ∧ s.reachable l = true) ∧ s.asleep = [] ∧ r.lines = [lineA] ∧ (s.homeTake lineA).2 = .ok ∧ s.rodsDue r.lines = false) ∧
    (let s : State := { arr1 [tileOp (.mmac .bf16 .core true true false 0x4000 0 0 0 [] [lineA]) false] with ranges := State.reset.ranges.set 255 (some { range2 with ending := true }) }; s.rodsDue [lineA] = true) ∧
    (let s := viewed true false [];
      s.viewList = [(63, viewB false)] ∧ (viewB false).mlines.idxOf? 0x18000000 = some 0 ∧
      (((List.range 128).filter (fun z => (BitVec.allOnes 128 : BitVec 128).getLsbD z)).filterMap (fun z => (viewB false).blockOfMaster (0 * 128 + z))).eraseDups = [0] ∧ s.Inv ∧ s.isMaster lineA = false) ∧
    (let s := viewed true false [deriv1 false]; let tag := s.tagGet (viewB false) 0;
      s.views[(63 : Fin 64)] = some (viewB false) ∧ (viewB false).dropping = false ∧ (∃ z ∈ s.timers, z.1 = 63 ∧ z.2.1 = 0 ∧ z.2.2 ≤ s.ptime) ∧ (∃ d ∈ s.derivs, d.view = 63 ∧ d.blk = 0 ∧ d.started = false) ∧
      (∀ d ∈ s.derivs, d.view = 63 → d.blk = 0 → d.started = false) ∧ s.reckonerFree (viewB false) 0 = true ∧ s.Inv ∧ tagBusy tag = false ∧ tagStale tag = true ∧ (viewB false).spol = 0 ∧ s.vreads = []) ∧
    ((viewed true false [deriv1 true]).derivs.find? (fun d => d.view == 63 && d.blk == 0 && d.started) = some (deriv1 true) ∧ (viewed true false [deriv1 true]).poisoned (lineOf ((viewB false).tloc 0)) = false ∧ (viewed true false [deriv1 true]).Inv ∧
      (∀ bz ∈ [true, false], let s : State := { viewed false false [] with mem := if bz then [(0x400000107, 0x40)] else [] }; let tag := s.tagGet (viewB false) 0; tagStale tag = false ∧ tagBusy tag = bz) ∧
      (let who := blockReader (viewB false) 0; let z : VRead := { who := who, view := 63, blk := 0, n := 0 }; let s : State := { viewed false false [] with vreads := [z] }; let tag := s.tagGet (viewB false) 0;
        s.sampled who 63 0 = some z ∧ tagBusy tag = false ∧ genGe (tagTag tag) z.n = true)) ∧
    ((viewed false true []).views[(63 : Fin 64)] = some (viewB true) ∧ (viewB true).dropping = true ∧ (viewed false true []).derivs = []) ∧
    (let s : State := { with_ { str1 with splits := str1.splits.set 0 { str1.splits[0] with wait := .sync 63 [(0, 0)] .sys 5 } } with views := State.reset.views.set 63 (some (viewB false)) };
      (s.strAt 0 0).present = true ∧ ((s.strAt 0 0).splits[(0 : Fin 4)]).wait = .sync 63 [(0, 0)] .sys 5 ∧ ∀ z ∈ [((0 : Nat), (0 : Nat))], genGe (tagTag (s.tagGet (viewB false) z.1)) z.2 = true ∧ tagBusy (s.tagGet (viewB false) z.1) = false) := by
  and_intros
  all_goals decide +kernel

-- ## Engines

/-- 16 bytes from scratchpad 0x100 to 0x200 with a barrier, or none; taken or not. -/
def xfer1 (bar : Option Place) (taken : Bool) : Xfer :=
  { kind := .copy, who := whoE, chain := none, ssp := true, dsp := true, src := 0x100, dst := 0x200, len := 16, idx := 0, nrows := 0, rlen := 0, rstr := 0, bar := bar, scope := .core, rows := [],
    data := if taken then some ((List.range 16).map (fun i => (i, (1 : Byte)))) else none, err := 0, errAddr := 0 }
def convoy1 (bar : Option Place) (taken : Bool) : State := core1 (fun x => { x with convoy := [xfer1 bar taken] })

/-- Chain context 7 at an entry at scratchpad 0x1000 given by its bytes that are not zero, its barrier at 0x2000; a transfer of it under way or not. -/
def chain1 : Chain := { who := whoE, ptr := 0x1000, idx := [0, 0, 0, 0], bar := .scr 0 0x2000, barVa := 0x2000, barSp := true, scope := .core, suspended := false }
def chained (bytes : List (Nat × Byte)) (busy : Bool) : State :=
  { core1 (fun x => { x with chains := x.chains.set 7 (some chain1), convoy := if busy then [{ xfer1 none false with chain := some 7 }] else [] }) with
    scr := bytes.map (fun b => (0x1000 + b.1, b.2)) }
def entryOf (bytes : List (Nat × Byte)) : Entry :=
  let bs := (List.range 32).map (cellGet bytes)
  { w0 := wordAt bs 0, w1 := wordAt bs 1, w2 := wordAt bs 2, w3 := wordAt bs 3 }
def eCopy : List (Nat × Byte) := [(7, 0x10), (15, 0xC0), (24, 0x10), (30, 0x08), (31, 0x80)]
def eGather : List (Nat × Byte) := [(7, 0x20), (24, 0x0F)]
def eScatter : List (Nat × Byte) := [(7, 0x30), (24, 0x0F)]
def eLoop : List (Nat × Byte) := [(0, 0x02), (7, 0x40), (8, 0xE0), (9, 0x0F)]
def eCond : List (Nat × Byte) := [(1, 0x20), (7, 0x50), (16, 0x20), (17, 0x10), (23, 0x80)]
def eWait (p : Byte) : List (Nat × Byte) := (if p = 0 then [] else [(0, p)]) ++ [(7, 0x60), (9, 0x20)]
def eArrive : List (Nat × Byte) := [(0, 1), (7, 0x70), (9, 0x20)]
def eEnd : List (Nat × Byte) := [(7, 0x80)]

/-- Abacus (0, 0) with commands on their way, in its queue, and one running. -/
def aba1 (coming queue : List BankCmd) (run : Option AbRun) : State := { State.reset with abaci := [{ die := 0, pch := 0, coming := coming, queue := queue, run := run }] }

theorem witness_EngineEvents_core :
    ((State.reset.barReady (.mem loc2) = true ∧ State.reset.barDead (.mem loc2) = false ∧ (State.reset.barTake (.mem loc2)).Inv ∧ placeFits (.mem loc2)) ∧
      (State.reset.barReady (.scr 255 0x3FFFE0) = true ∧ State.reset.barDead (.scr 255 0x3FFFE0) = false ∧ placeFits (.scr 255 0x3FFFE0)) ∧
      (({ State.reset with pz := [lineA] } : State).barReady (.mem loc2) = true ∧ ({ State.reset with pz := [lineA] } : State).barDead (.mem loc2) = true) ∧
      (cached [{ agent := 9, line := lineA, st := .exClean, lease := 1, low := false }] none).barReady (.mem loc2) = false) ∧
    (let s := convoy1 none false;
      (s.cores[(0 : CoreId)]).nextXfer = some 0 ∧ (s.cores[(0 : CoreId)]).convoy[0]? = some (xfer1 none false) ∧ (s.xferRead 0 (xfer1 none false)).2.2.waits = false ∧
        (let x := { xfer1 none false with ssp := false, src := 0x100000003000 }; let s := { core1 (fun y => { y with convoy := [x] }) with asleep := [9], dir := [(0x18000000, .ex 9)] };
          (s.cores[(0 : CoreId)]).nextXfer = some 0 ∧ (s.xferRead 0 x).2.2.waits = true)) ∧
    (∀ bar ∈ [none, some (Place.scr 0 0x2000)], let s := convoy1 bar true; let x := xfer1 bar true; let data := (List.range 16).map (fun i => (i, (1 : Byte)));
      (s.cores[(0 : CoreId)]).convoy[0]? = some x ∧ x.data = some data ∧ x.bar = bar ∧ s.reportBar 0 x = bar ∧ s.releasedBy 0 x.who.uid x.scope = true ∧ ({ s with pend := [pst] } : State).releasedBy 0 x.who.uid x.scope = false ∧
      (let q := s.xferWrite 0 x { data := data, err := x.err, addr := x.errAddr, waits := false }; q.2.waits = false ∧ q.2.err = 0 ∧ q.1.barReady (.scr 0 0x2000) = true ∧ q.1.barDead (.scr 0 0x2000) = false ∧
        (Memory.wf q.1.mem && Memory.wf q.1.scr) = true)) ∧
    (∀ x ∈ ((convoy1 none true).cores[(0 : CoreId)]).convoy, x.data.isSome = true) ∧
    (∀ k ∈ [(1, eCopy), (2, eGather), (3, eScatter), (4, eLoop), (5, eCond), (6, eWait 0), (6, eWait 1), (7, eArrive), (8, eEnd)],
      (chained k.2 false).chainAt 0 7 k.1 = some (chain1, entryOf k.2)) ∧
    ((chained eCond false).sideLoad ((chained eCond false).whoFor 0 chain1.who) ((entryOf eCond).w2.getLsbD 63) (sideAddr ((entryOf eCond).w2.getLsbD 63) (entryOf eCond).w0).toNat 8 = (chained eCond false, .ok (List.replicate 8 0))) ∧
    (∀ k ∈ [eWait 0, eWait 1, eArrive], (chained k false).entryBar 0 chain1 (entryOf k) = some (.scr 0 0x2000) ∧ (chained k false).barDead (.scr 0 0x2000) = false ∧ placeFits (.scr 0 0x2000) ∧
      (chained k false).releasedBy 0 1 (entryOf k).scope = true ∧ ({ chained k false with pend := [pst] } : State).releasedBy 0 1 (entryOf k).scope = false ∧ (Memory.wf (chained k false).mem && Memory.wf (chained k false).scr) = true) ∧
    (((chained (eWait 0) false).phaseAt (.scr 0 0x2000)).toNat = (((entryOf (eWait 0)).w0.extractLsb' 0 8).toNat + chain1.index (entryOf (eWait 0))) % 256 ∧
      ((chained (eWait 1) false).phaseAt (.scr 0 0x2000)).toNat ≠ (((entryOf (eWait 1)).w0.extractLsb' 0 8).toNat + chain1.index (entryOf (eWait 1))) % 256) ∧
    ((∀ y ∈ ((chained eArrive false).cores[(0 : CoreId)]).convoy, y.chain ≠ some 7) ∧ (∃ y ∈ ((chained eArrive true).cores[(0 : CoreId)]).convoy, y.chain = some 7) ∧
      (chained eArrive true).chainAt 0 7 7 = some (chain1, entryOf eArrive)) ∧
    (∀ e ∈ [eEnd, []], (chained e false).barReady chain1.bar = true ∧ (chained e false).barDead chain1.bar = false ∧ (Memory.wf (chained e false).mem && Memory.wf (chained e false).scr) = true ∧ placeFits chain1.bar ∧
      (chained e false).releasedBy 0 chain1.who.uid chain1.scope = true ∧
      ∀ y ∈ ((chained e false).cores[(0 : CoreId)]).convoy, y.chain ≠ some 7) ∧
    (((chained [] false).cores[(0 : CoreId)]).chains[(7 : Fin 8)] = some chain1 ∧ chain1.suspended = false ∧ (chained [] false).chainNext 0 chain1 = .stop 12) := by
  refine ⟨⟨⟨by decide +kernel, by decide +kernel, inv_of _ (by decide +kernel), trivial⟩, ⟨by decide +kernel, by decide +kernel, by simp only [placeFits]; decide⟩, by decide +kernel, by decide +kernel⟩, by decide +kernel,
    ?_, by decide +kernel, by decide +kernel, Prod.ext rfl (by decide +kernel), ?_, by decide +kernel, by decide +kernel, ?_, by decide +kernel⟩
  · decide +kernel
  · have : ∀ k ∈ [eWait 0, eWait 1, eArrive], (chained k false).entryBar 0 chain1 (entryOf k) = some (.scr 0 0x2000) ∧ (chained k false).barDead (.scr 0 0x2000) = false ∧
      (chained k false).releasedBy 0 1 (entryOf k).scope = true ∧ ({ chained k false with pend := [pst] } : State).releasedBy 0 1 (entryOf k).scope = false ∧ (Memory.wf (chained k false).mem && Memory.wf (chained k false).scr) = true := by decide +kernel
    exact fun k hk => ⟨(this k hk).1, (this k hk).2.1, by simp only [placeFits]; decide, (this k hk).2.2⟩
  · have : ∀ e ∈ [eEnd, []], (chained e false).barReady chain1.bar = true ∧ (chained e false).barDead chain1.bar = false ∧ (Memory.wf (chained e false).mem && Memory.wf (chained e false).scr) = true ∧
      (chained e false).releasedBy 0 chain1.who.uid chain1.scope = true ∧ ∀ y ∈ ((chained e false).cores[(0 : CoreId)]).convoy, y.chain ≠ some 7 := by decide +kernel
    exact fun e he => ⟨(this e he).1, (this e he).2.1, (this e he).2.2.1, by simp only [placeFits, chain1]; decide, (this e he).2.2.2⟩

/-- Abacus (0, 0)'s command has ended with ACODE 0. -/
def abEnd : AbRun := { abRun1 with cmd := bankCmd1, ended := some (0, 0, 1) }
/-- A collective at a stage, its area at 0x4000_0000_0000 or at an address of no memory. -/
def coll1 (sum : Bool) (stage : Nat) (bad : Bool) : Coll :=
  { sum := sum, words := ((Vector.replicate 8 0).set 5 (if bad then 0x200000000000 else 0x400000000000)).set 7 0x400000002000, ptroot := 0, mode := .hyp, scope := .pkg, core := 0, bar := .mem loc2, stage := stage, ecode := 0,
    mism := false, err := false, ovf := 0 }
def colls1 (x : Coll) : State := { State.reset with colls := [x] }

theorem colls_calm (x : Coll) : Calm (colls1 x) := Calm.reset.of rfl (fun _ h => nomatch h) (fun _ h => h)
theorem MemSide_colls {s t : State} (h : s.MemSide t) : t.colls = s.colls := by rw [h]

theorem pair_coll (s : State) (p : State × Taken) (h : Calm s → Calm p.1 ∧ s.MemSide p.1 ∧ p.2.waits = false ∧ p.2.err = 0) (hs : Calm s) :
    ∃ z tk, p = (z, tk) ∧ Calm z ∧ z.colls = s.colls ∧ tk.waits = false ∧ tk.err = 0 :=
  ⟨p.1, p.2, rfl, (h hs).1, MemSide_colls (h hs).2.1, (h hs).2.2.1, (h hs).2.2.2⟩

theorem witness_EngineEvents_tiles :
    ((arr1 [tileOp mm1 false, tileOp (.mwld .b8 false 0 0x2F000) false]).cores[(0 : CoreId)]).arr.queue[1]? = some (tileOp (.mwld .b8 false 0 0x2F000) false) ∧
    (let q := [tileOp mm1 false, tileOp (.mwld .b8 false 0 0x2F000) false];
      q.findIdx? (fun y => (match y.kind with | .mwld .. => true | _ => false) && !y.ran) = some 1 ∧ q.findIdx? (fun y => (match y.kind with | .mmac .. => true | _ => false) && !y.ran) = some 0 ∧
      ∀ y ∈ q.take 1, y.kind ≠ .mwsw ∧ y.kind ≠ .clear) ∧
    (let q := [tileOp mm1 true, tileOp .mwsw false];
      ((arr1 q).cores[(0 : CoreId)]).arr.queue[1]? = some (tileOp .mwsw false) ∧ q.findIdx? (fun y => (match y.kind with | .mwsw => true | _ => false) && !y.ran) = some 1 ∧
      (∀ y ∈ q.take 1, y.ran = true ∧ y.kind ≠ .mwsw ∧ y.kind ≠ .clear) ∧ (tileOp mm1 true).kind ≠ .clear ∧ q.findIdx? (·.ran) = some 0) ∧
    (tileOp .clear false).kind = .clear ∧ Ty.isBlock .bf16 = false := by decide +kernel

theorem witness_EngineEvents_banks :
    16 ≤ ((aba1 [] (List.replicate 16 bankCmd1) none).abAt 0 0).queue.length ∧ ((aba1 [bankCmd1] (List.replicate 15 bankCmd1) none).abAt 0 0).queue.length < 16 ∧ ((aba1 [bankCmd1] [] none).abAt 0 0).coming = [bankCmd1] ∧ (0 : DieId) ∉ (aba1 [bankCmd1] [] none).deadDies ∧
    (((aba1 [] [bankCmd1, bankCmd1] none).abAt 0 0).run = none ∧ ((aba1 [] [bankCmd1, bankCmd1] none).abAt 0 0).queue[1]? = some bankCmd1) ∧
    (let s := aba1 [] [] (some abEnd); let q := s.putStatus abEnd.cmd (bankStatus 0 0 1 abEnd.emitted);
      (s.abAt 0 0).run = some abEnd ∧ abEnd.ended = some (0, 0, 1) ∧ abEnd.refused = none ∧ q.2 = some 0 ∧ q.1.barReady (.mem loc2) = true ∧ q.1.barDead (.mem loc2) = false ∧ (q.1.barTake (.mem loc2)).Inv ∧ placeFits (.mem loc2)) ∧
    (∀ n ∈ [2 ^ 26 - 1, 2 ^ 26], ((aba1 [] [] (some { abRun1 with steps := n })).abAt 0 0).run = some { abRun1 with steps := n }) := by
  have f : let q := ((aba1 [] [] (some abEnd)).putStatus abEnd.cmd (bankStatus 0 0 1 abEnd.emitted)).1; q.pz = [] ∧ q.deadDies = [] ∧ q.asleep = [] ∧ q.metas = [] ∧ q.lost = [] ∧ q.pend = [] ∧ q.dir = [] := by decide +kernel
  refine ⟨?_, ?_, ?_, ?_, ?_, ⟨?_, ?_, ?_, ?_, ?_, ?_, ?bar, trivial⟩, ?_⟩
  case bar =>
    rw [Fresh.barTake ⟨f.1, f.2.1, f.2.2.1, f.2.2.2.1, f.2.2.2.2.1, f.2.2.2.2.2.1, f.2.2.2.2.2.2⟩]
    exact inv_of _ (by decide +kernel)
  all_goals decide +kernel

theorem witness_EngineEvents_collectives :
    (∀ o ∈ [(false, 0, 0x40), (true, 0, 0), (false, 1, 0), (true, 1, 0x20)], let x := coll1 o.1 o.2.1 false; let s := colls1 x;
      s.colls[0]? = some x ∧ (let r := s.getAll x.who ((va57 x.words[(5 : Fin 8)]).toNat + o.2.2 + 7) 1; r.2.waits = false ∧ r.2.err = 0 ∧ r.2.data.map (·.2) = [0] ∧ r.1.colls = s.colls)) ∧
    (let s : State := { colls1 (coll1 false 1 false) with mem := [(0x400000000007, 1)] }; let x := coll1 false 1 false;
      let r := s.getAll x.who ((va57 x.words[(5 : Fin 8)]).toNat + 0 + 7) 1;
      r.2.data.map (·.2) = [1] ∧ (1 : Byte).toNat ≠ (x.words[(0 : Fin 8)].extractLsb' 40 8).toNat ∧
      (let z := r.1.putAll x.who (va57 x.words[(7 : Fin 8)]).toNat (leBytes 8 x.stat.toNat); z.2.waits = false ∧ z.1.barReady x.bar = true ∧ z.1.colls = s.colls)) ∧
    (let x := coll1 true 4 false; let s := colls1 x; let z := s.putAll x.who (va57 x.words[(7 : Fin 8)]).toNat (leBytes 8 x.stat.toNat); z.2.waits = false ∧ z.1.barReady x.bar = true ∧ z.1.colls = s.colls) ∧
    (let x := coll1 true 2 true; let s := colls1 x; let r := s.getAll x.who ((va57 x.words[(5 : Fin 8)]).toNat + 0x60) 8;
      r.2.waits = false ∧ r.2.err ≠ 0 ∧ (let z := r.1.putAll x.who ((va57 x.words[(5 : Fin 8)]).toNat + 0x80) (List.replicate (x.sumOff - 0x80 + 512 * x.nblk) 0); z.2.waits = false ∧ z.1.colls = s.colls)) ∧
    (let x := coll1 true 2 false; let s := colls1 x; ∃ q tk, s.getAll x.who (0x400000000000 + 0x60) 8 = (q, tk) ∧ tk.waits = false ∧ tk.err = 0 ∧
      ∃ u tu, q.putAll x.who (0x400000000000 + 0x60) (leBytes 8 (wordAt (tk.data.map (·.2)) 0 &&& ~~~(1#64 <<< 47)).toNat) = (u, tu) ∧ tu.waits = false ∧
      ∃ z tz, u.putAll x.who (0x400000000000 + 0x80) (List.replicate 640 0) = (z, tz) ∧ tz.waits = false ∧ z.colls = s.colls) := by
  refine ⟨by decide +kernel, by decide +kernel, by decide +kernel, by decide +kernel, ?_⟩
  have hb : hostBase = 0x400000000000 := rfl
  dsimp only
  obtain ⟨q, tk, h1, c1, e1, w1, r1⟩ := pair_coll (colls1 (coll1 true 2 false)) ((colls1 (coll1 true 2 false)).getAll (coll1 true 2 false).who (0x400000000000 + 0x60) 8)
    (fun h => h.getAll _ _ _ rfl (by omega) (by omega) (by omega)) (colls_calm _)
  obtain ⟨u, tu, h2, c2, e2, w2, _⟩ := pair_coll q (q.putAll (coll1 true 2 false).who (0x400000000000 + 0x60) (leBytes 8 (wordAt (tk.data.map (·.2)) 0 &&& ~~~(1#64 <<< 47)).toNat))
    (fun h => h.putAll _ _ _ rfl (by rw [leBytes_length]; omega) (by omega) (by rw [leBytes_length]; omega)) c1
  obtain ⟨z, tz, h3, c3, e3, w3, _⟩ := pair_coll u (u.putAll (coll1 true 2 false).who (0x400000000000 + 0x80) (List.replicate 640 0))
    (fun h => h.putAll _ _ _ rfl (by rw [List.length_replicate]; omega) (by omega) (by rw [List.length_replicate]; omega)) c2
  exact ⟨q, tk, h1, w1, r1, u, tu, h2, w2, z, tz, h3, w3, by rw [e3, e2, e1]⟩

-- ## Launches, queues, contexts

/-- The record at 0x4000_0000_0000 of a launch, its CSC given by the top byte of word 1, its COMPL at 0x1000_0000_2000 or at an address of no memory (word 1's byte 5), its manifest at 0x4000_0000_0100. -/
def recCells (csc compl : Byte) : List (Nat × Byte) :=
  [(1, 0x01), (5, 0x40), (9, 0x20), (13, compl)] ++ (if csc = 0 then [] else [(15, csc)]) ++ [(16, 0x40), (17, 0x20), (21, 0x10), (42, 0x01), (45, 0x40), (54, 0xC0), (55, 0x03)]
/-- Launch slot 63 alone free, a record under LDOOR0, and queue 15 with n entries. -/
def sub1 (csc compl : Byte) (valid : Bool) (n : Nat) : State :=
  { State.reset with
    launches := (Vector.replicate 64 { Launch.none with on := true }).set 63 Launch.none, ldoor0 := 0x400000000000, mem := (recCells csc compl).map (fun x => (0x400000000000 + x.1, x.2))
    bazaar := State.reset.bazaar.set 15 { w0 := if valid then 1#64 <<< 63 else 0, w1 := 6, head := 0, q := List.replicate n ent0 } }
/-- The queue of a launch. -/
def bqAt (s : State) (l : Launch) : Bazaar := s.bazaar[l.bq]
/-- All launch slots taken. -/
def subFull : State := { State.reset with launches := Vector.replicate 64 { Launch.none with on := true } }

theorem witness_ContextEvents_launch :
    (∀ i : Fin 64, (subFull.launches[i]).on = true) ∧
    (∀ o ∈ [((0x60 : Byte), (0x10 : Byte), true, 0), (0x60, 0x10, true, 64), (0, 0x20, true, 0)],
      let s := sub1 o.1 o.2.1 o.2.2.1 o.2.2.2; let s0 : State := { s with ldoor1 := 0 }; let who := whoOf 0 0 .user; let r := s0.getAll who (va57 s.ldoor0).toNat 64; let w (n : Nat) : W64 := wordAt (r.2.data.map (·.2)) n;
      (s.launches[(63 : Fin 64)]).on = false ∧ (∀ i' : Fin 64, i' < 63 → (s.launches[i']).on = true) ∧ r.2.waits = false ∧ r.2.err = 0 ∧
      (let z := r.1.getAll who (va57 (w 0)).toNat 128; z.2.waits = false ∧ z.2.err = 0 ∧ (z.2.data.map (·.2)).length = 128 ∧ imageBad (z.2.data.map (·.2)) = false ∧
        (let l0 : Launch := { on := true, live := 1, tasks := 0, words := gen 8 w, ptroot := 0, poolUsed := [], record := va57 s.ldoor0, ended := false, rlist := [], counts := [] }; let bq := bqAt z.1 l0;
          recordOk w = decide (o.1 ≠ 0) ∧ s.ldoor0.extractLsb' 0 6 = 0 ∧ (w 3).extractLsb' 58 6 = 0 ∧ (z.1.launchPlaces l0).2 = some (decide (o.2.1 = 0x10)) ∧ bq.valid = o.2.2.1 ∧ bq.ctx = ctxOf 0 ∧
          bq.room = (o.2.2.1 && o.2.2.2 == 0)))) ∧
    (let s : State := { sub1 0x60 0x10 true 0 with ldoor0 := 0x200000000000 }; let r := State.getAll { s with ldoor1 := 0 } (whoOf 0 0 .user) (va57 s.ldoor0).toNat 64; r.2.waits = false ∧ r.2.err ≠ 0) :=
  ⟨by decide +kernel, by decide +kernel, by decide +kernel⟩

/-- Queue 15 with a capacity, and the steal ring with the token here or not. -/
def bqueue1 (lcap : Nat) : State := { State.reset with bazaar := State.reset.bazaar.set 15 { w0 := 0, w1 := BitVec.ofNat 64 lcap, head := 0, q := [] } }
def ring1 (tok : Bool) : State :=
  { State.reset with ring := some (1, [0, 1]), token := if tok then some { loads := [], reqs := [], entries := [], since := 0 } else none }

/-- Context 5 in entry 63 of the context table with its STATE and PRIO 3; its image in host memory or at an address of no memory. -/
def ctx5 (st : Nat) (img : W64) : State :=
  { State.reset with ctab := State.reset.ctab.set 63 (((Vector.replicate 4 0).set 0 (0x9800000000000005 ||| BitVec.ofNat 64 (st * 2 ^ 56))).set 1 img) }

theorem setChains_idle (s : State) (c : CoreId) (ctx : BitVec 12) (b : Bool) (h : (s.cores[c]).chains = Vector.replicate 8 none) : s.setChains c ctx b = s := by
  simp only [State.setChains, State.modCore, h, Vector.map_replicate, Option.map_none]
  rw [← h]
  have : s.cores.set c s.cores[c] = s.cores := Vector.set_getElem_self ..
  exact congrArg (fun x => { s with cores := x }) this

theorem setChains_all (cs : List CoreId) (s : State) (ctx : BitVec 12) (b : Bool) (h : ∀ c : CoreId, (s.cores[c]).chains = Vector.replicate 8 none) : cs.foldl (fun u i => u.setChains i ctx b) s = s := by
  induction cs with
  | nil => rfl
  | cons c cs ih => rw [List.foldl_cons, setChains_idle s c ctx b (h c)]; exact ih

theorem reset_core (c : CoreId) : State.reset.cores[c] = if c = 0 then Core.boot else Core.reset := by
  show ((Vector.replicate 256 Core.reset).set 0 Core.boot)[c] = _
  by_cases h : c = 0
  · subst h; rfl
  · have : (0 : Nat) ≠ c.val := fun e => h (Fin.ext e.symm)
    simp [h, Vector.getElem_set_ne, this]

theorem reset_chains (c : CoreId) : (State.reset.cores[c]).chains = Vector.replicate 8 none := by
  rw [reset_core]; split <;> rfl

theorem reset_str (c : CoreId) (k : SlotId) : State.reset.strAt c k = if c = 0 ∧ k = 0 then Str.boot else Str.empty := by
  show (State.reset.cores[c]).strs[k] = _
  rw [reset_core]
  by_cases h : c = 0
  · by_cases hk : k = 0
    · subst hk; simp only [h, and_self, if_true]; rfl
    · have : (0 : Nat) ≠ k.val := fun e => hk (Fin.ext e.symm)
      simp only [h, hk, and_false, if_true, if_false]
      show ((Vector.replicate 16 Str.empty).set 0 Str.boot)[k] = _
      simp [Vector.getElem_set_ne, this]
  · simp only [h, false_and, if_false]
    show (Vector.replicate 16 Str.empty)[k] = _
    simp

theorem boot_ctx : Str.boot.ctx = 0 ∧ Str.empty.ctx = 0 := ⟨rfl, rfl⟩

/-- A machine with the cores as reset leaves them. -/
structure Idle (s : State) : Prop where
  cores : s.cores = State.reset.cores

theorem Idle.str {s : State} (h : Idle s) (c : CoreId) (k : SlotId) : s.strAt c k = if c = 0 ∧ k = 0 then Str.boot else Str.empty := by
  rw [← reset_str]; simp only [State.strAt, h.cores]
theorem Idle.ctx {s : State} (h : Idle s) (c : CoreId) (k : SlotId) : (s.strAt c k).ctx = 0 := by
  rw [h.str]; split <;> rfl
theorem Idle.core {s : State} (h : Idle s) (c : CoreId) : (s.cores[c]).convoy = [] ∧ (s.cores[c]).spilled = [] ∧ (s.cores[c]).evicted = [] ∧ (s.cores[c]).serai = [] ∧ (s.cores[c]).chains = Vector.replicate 8 none ∧
    (∀ p ∈ (s.cores[c]).parts, p.ctx = 0) := by
  simp only [h.cores]
  rw [reset_core]
  split
  · exact ⟨rfl, rfl, rfl, rfl, rfl, fun p hp => by rw [List.mem_singleton.mp hp]⟩
  · exact ⟨rfl, rfl, rfl, rfl, rfl, fun p hp => nomatch hp⟩
theorem Idle.slots {s : State} (h : Idle s) (c : CoreId) (x : BitVec 12) (hx : x ≠ 0) : s.ctxSlots c x = [] := by
  rw [State.ctxSlots, List.filter_eq_nil_iff]
  intro k _
  have : ((0 : BitVec 12) == x) = false := by simpa using fun e => hx e.symm
  rw [h.ctx, this]
  simp
theorem Idle.quiet {s : State} (h : Idle s) (c : CoreId) (x : BitVec 12) (hx : x ≠ 0) : s.shareQuiet c x = true := by
  simp only [State.shareQuiet, h.slots c x hx, (h.core c).1, (h.core c).2.1]
  rfl
theorem Idle.coresOf {s : State} (h : Idle s) (x : BitVec 12) (hx : x ≠ 0) : s.coresOf x = [] := by
  rw [State.coresOf, List.filter_eq_nil_iff]
  intro c _
  have hp : s.partOf c x = none := by
    rw [State.partOf, List.find?_eq_none]
    intro p hp
    have : ((0 : BitVec 12) == x) = false := by simpa using fun e => hx e.symm
    rw [(h.core c).2.2.2.2.2 p hp, this]
    simp
  obtain ⟨-, h2, h3, h4, h5, -⟩ := h.core c
  have hc : (Vector.replicate 8 (none : Option Chain)).toList.filterMap id = [] := by rw [Vector.toList_replicate, List.filterMap_replicate_of_none rfl]
  simp only [State.shareOf, Share.isEmpty, h.slots c x hx, hp, h2, h3, h4, h5, hc, List.filter_nil, List.map_nil, List.flatMap_nil, List.append_nil, List.findSome?_nil]
  decide
theorem Idle.noChains {s : State} (h : Idle s) (x : BitVec 12) : allCores.foldl (fun u i => u.setChains i x true) s = s := setChains_all _ _ _ _ (fun c => (h.core c).2.2.2.2.1)

theorem ctx5_idle (st : Nat) (img : W64) : Idle (ctx5 st img) := ⟨rfl⟩
theorem ctx5_calm : Calm (ctx5 0 0x400000000000) := Calm.reset.of rfl (fun _ h => nomatch h) (fun _ h => h)

theorem pair_ctab (s : State) (p : State × Taken) (m : s.MemSide p.1) (h1 : p.2.waits = false) (h2 : p.2.err = 0) : ∃ q tk, p = (q, tk) ∧ tk.waits = false ∧ q.ctab = s.ctab ∧ tk.err = 0 :=
  ⟨p.1, p.2, rfl, h1, by rw [m], h2⟩

/-- Context 5 with a transfer under way on core 255. -/
def busy5 : State := let s := ctx5 0 0x400000000000; { s with cores := s.cores.set 255 { Core.reset with convoy := [{ xfer1 none false with who := { whoE with ptroot := 0x0050000000000000 } }] } }

/-- The lengths of an image's header and of a launch record in it. -/
theorem header_length (n m p : Nat) (ctx : BitVec 12) (cl : List Nat) (ls : List (Fin 64 × Launch)) (h : ls.length ≤ 64) : (imageHeader n m p ctx cl ls).length = 3072 := by
  have b : ∀ ls : List (Fin 64 × Launch), (ls.flatMap launchBytes).length = 32 * ls.length := by
    intro ls
    induction ls with
    | nil => rfl
    | cons x xs ih =>
      rw [List.flatMap_cons, List.length_append, ih, List.length_cons]
      simp only [launchBytes, List.length_append, leBytes_length]
      omega
  have t : (leBytes 8 0x4A394358 ++ leBytes 8 (p * 2 ^ 28 + ctx.toNat * 2 ^ 16 + m * 2 ^ 8 + n) ++ leBytes 8 ((cl.map (fun j => 2 ^ j)).sum)).length ≤ 1024 := by
    simp only [List.length_append, leBytes_length]
    omega
  simp only [imageHeader, List.length_append, padTo_length 1024 _ t, padTo_length 2048 _ (show (ls.flatMap launchBytes).length ≤ 2048 by rw [b]; omega)]

theorem launchesOf_length (s : State) (x : BitVec 12) : ((s.launchesOf x).map (fun i => (i, s.launches[i]))).length ≤ 64 := by
  rw [List.length_map]
  exact Nat.le_trans (List.length_filter_le _ _) (by simp)

/-- What a context with nothing but manifests holds on a core. -/
theorem bare_share (s : State) (c : CoreId) (x : BitVec 12) (es : List SEnt) (h : s.ctxSlots c x = [] ∧ s.partOf c x = none ∧ (s.cores[c]).spilled = [] ∧ (s.cores[c]).evicted = [] ∧
    (s.cores[c]).chains = Vector.replicate 8 none ∧ (s.cores[c]).serai.filter (fun e => e.ctx == x) = es ∧ s.scr = [] ∧ s.scrPz = []) : s.shareOf c x = serais es := by
  obtain ⟨h1, h2, h3, h4, h5, h6, h7, h8⟩ := h
  have hc : (Vector.replicate 8 (none : Option Chain)).toList.filterMap id = [] := by rw [Vector.toList_replicate, List.filterMap_replicate_of_none rfl]
  simp only [State.shareOf, h1, h2, h3, h4, h5, h6, h7, h8, hc, List.filter_nil, List.map_nil, List.flatMap_nil, List.append_nil, List.findSome?_nil, List.foldl_nil, List.filterMap_nil]
  rfl

/-- Context 5 with a manifest on core 255, whose cluster is its image cluster 0. -/
def ent5 : SEnt := { ent0 with ctx := 5 }
def hold5 (img : W64) : State := let s := ctx5 0 img; { s with cores := s.cores.set 255 { Core.reset with serai := [ent5] }, imap := [(5, 0, 63)] }

theorem hold5_core (img : W64) (c : CoreId) : (hold5 img).cores[c] = if c = 255 then { Core.reset with serai := [ent5] } else State.reset.cores[c] := by
  show (State.reset.cores.set 255 _)[c] = _
  by_cases h : c = 255
  · subst h; rfl
  · have : (255 : Nat) ≠ c.val := fun e => h (Fin.ext e.symm)
    rw [if_neg h, Fin.getElem_fin, Vector.getElem_set_ne _ _ this]
    rfl

theorem hold5_bare (img : W64) (c : CoreId) : (hold5 img).ctxSlots c 5 = [] ∧ (hold5 img).partOf c 5 = none ∧ ((hold5 img).cores[c]).spilled = [] ∧ ((hold5 img).cores[c]).evicted = [] ∧
    ((hold5 img).cores[c]).chains = Vector.replicate 8 none ∧ ((hold5 img).cores[c]).serai.filter (fun e => e.ctx == 5) = (if c = 255 then [ent5] else []) ∧ (hold5 img).scr = [] ∧ (hold5 img).scrPz = [] ∧
    ((hold5 img).cores[c]).convoy = [] := by
  have hs (k : SlotId) : ((hold5 img).strAt c k).ctx = 0 := by
    show (((hold5 img).cores[c]).strs[k]).ctx = 0
    rw [hold5_core]
    split
    · show ((Vector.replicate 16 Str.empty)[k]).ctx = 0
      simp only [Fin.getElem_fin, Vector.getElem_replicate]
      rfl
    · exact (show Idle State.reset from ⟨rfl⟩).ctx c k
  have slots : (hold5 img).ctxSlots c 5 = [] := by
    rw [State.ctxSlots, List.filter_eq_nil_iff]
    intro k _
    rw [hs]
    simp
  refine ⟨slots, ?_, ?_⟩
  · rw [State.partOf, hold5_core]
    split
    · rfl
    · rw [List.find?_eq_none]
      intro p hp
      rw [((show Idle State.reset from ⟨rfl⟩).core c).2.2.2.2.2 p hp]
      decide
  · rw [hold5_core]
    split
    · exact ⟨rfl, rfl, rfl, by decide, rfl, rfl, rfl⟩
    · obtain ⟨a, b, c', d, e, -⟩ := (show Idle State.reset from ⟨rfl⟩).core c
      exact ⟨b, c', e, by rw [d]; rfl, rfl, rfl, a⟩

theorem hold5_share (img : W64) (c : CoreId) : (hold5 img).shareOf c 5 = serais (if c = 255 then [ent5] else []) := by
  obtain ⟨a, b, d, e, f, g, h, i, -⟩ := hold5_bare img c
  exact bare_share _ _ _ _ ⟨a, b, d, e, f, g, h, i⟩

theorem hold5_cores (img : W64) : (hold5 img).coresToSave 5 = [252, 253, 254, 255] := by
  have e : (hold5 img).coresOf 5 = allCores.filter (fun c => decide (c = 255)) := by
    refine List.filter_congr (fun c _ => ?_)
    rw [hold5_share]
    split <;> simp_all [serais, Share.isEmpty]
  simp only [State.coresToSave, e]
  decide +kernel

theorem hold5_same (img : W64) : allCores.foldl (fun u i => u.setChains i 5 true) (hold5 img) = hold5 img ∧
    [252, 253, 254, 255].foldl (fun u i => (u.ctxSlots i 5).foldl (fun u k => u.releaseArray i k true) (u.assignCluster i 5)) (hold5 img) = hold5 img := by
  refine ⟨setChains_all _ _ _ _ (fun c => (hold5_bare img c).2.2.2.2.1), ?_⟩
  have as (c : CoreId) (h : clusterOf c = 63) : (hold5 img).assignCluster c 5 = hold5 img := by
    unfold State.assignCluster
    split
    · rfl
    · rw [if_pos (by rw [h]; rfl)]
  simp only [List.foldl_cons, List.foldl_nil, as 252 (by decide), as 253 (by decide), as 254 (by decide), as 255 (by decide), (hold5_bare img _).1]

theorem hold5_quiet (img : W64) (c : CoreId) : (hold5 img).shareQuiet c 5 = true := by
  obtain ⟨a, -, b, -, -, -, -, -, d⟩ := hold5_bare img c
  simp only [State.shareQuiet, a, b, d]
  rfl

theorem hold5_calm : Calm (hold5 0x400000000000) := ctx5_calm.of (by simp only [State.calmParts, hold5]) (fun _ h => nomatch h) (fun _ h => h)

/-- A core block of that cluster, its image at one of two places. -/
theorem hold5_block (img : W64) (hi : img ∈ [0x400000000000, 0x208000000000]) (c : CoreId) (h : clusterOf c = 63) : (hold5 img).imageBlock c 5 = some (img.toNat + 0x1000 + cidx c * coreBlock) := by
  have n : ∀ img ∈ [(0x400000000000 : W64), 0x208000000000], (hold5 img).ctxEntry 5 = some 63 ∧ (hold5 img).imageAt 63 = img.toNat := all_of _ (by decide +kernel)
  simp only [State.imageBlock, n img hi, show (hold5 img).imap = [(5, 0, 63)] from rfl, h]
  simp [blockAt, (n img hi).2]

/-- Context 5 with a store waiting to the first line of its image. -/
def pend5 : State := { ctx5 0 0x400000000000 with pend := [{ pst with line := 0x400000000000 / 128, cells := [(0x400000000000, 1)] }] }

theorem pend5_store (cs : List Byte) (h : cs.length = 128) : (pend5.sideStore (imageWho 0) false 0x400000000000 cs).2 = .wait := by
  have a : (pend5.check (imageWho 0) .store 1 (BitVec.ofNat 64 0x400000000000) 128).2 = .ok (hostAcc 0x400000000000 128) := by decide +kernel
  have l : (hostAcc 0x400000000000 128).lines = [0x400000000000 / 128] := hostAcc_lines _ _ (by decide) (by decide)
  have f : (pend5.check (imageWho 0) .store 1 (BitVec.ofNat 64 0x400000000000) 128).1.lineFree (0x400000000000 / 128) = false := by decide +kernel
  simp only [State.sideStore, Bool.false_eq_true, if_false, State.engStore, h, a, l, f, show (hostAcc 0x400000000000 128).reg = none from rfl, show (hostAcc 0x400000000000 128).remote = false from rfl,
    Bool.not_false, if_true]

/-- The records of a context's launches fit a header. -/
theorem header5 (s : State) (n m p : Nat) (ctx : BitVec 12) (cl : List Nat) : (imageHeader n m p ctx cl ((s.launchesOf ctx).map (fun i => (i, s.launches[i])))).length = 3072 := header_length _ _ _ _ _ _ (launchesOf_length s ctx)

theorem image5 : (ctx5 0 0x400000000000).imageAt 63 = 0x400000000000 ∧ (ctx5 0 0x208000000000).imageAt 63 = 0x208000000000 ∧ pend5.imageAt 63 = 0x400000000000 := by decide +kernel

/-- A header written. -/
theorem putHeader {s : State} (h : Calm s) (bs : List Byte) (hl : bs.length = 3072) : ∃ q tk, s.putAll (imageWho 0) 0x400000000000 bs = (q, tk) ∧ tk.waits = false ∧ q.ctab = s.ctab ∧ tk.err = 0 := by
  have hb : hostBase = 0x400000000000 := rfl
  obtain ⟨_, m, a, b⟩ := h.putAll (imageWho 0) 0x400000000000 bs rfl (by omega) (by omega) (by omega)
  exact pair_ctab _ _ m a b

/-- What the core holds of it. -/
theorem es5 (c : CoreId) : (if c = 255 then [ent5] else []).length ≤ 512 ∧ ∀ e ∈ (if c = 255 then [ent5] else []), e.bytes.length = 128 := by
  split
  · decide +kernel
  · decide +kernel

theorem witness_ContextEvents_save :
    (∀ st ∈ [0, 1, 7], ((ctx5 st 0).ctab[(63 : Fin 64)])[0].getLsbD 63 = true ∧ (((ctx5 st 0).ctab[(63 : Fin 64)])[0].extractLsb' 56 3).toNat = st ∧ ((ctx5 st 0).ctab[(63 : Fin 64)])[0].extractLsb' 0 12 = 5) ∧
    ((State.reset.ctab[(63 : Fin 64)])[0].getLsbD 63 = false) ∧
    (let s1 := allCores.foldl (fun u i => u.setChains i 5 true) busy5; s1.shareQuiet 255 5 = false) ∧
    (∀ n m p cl, let s := ctx5 0 0x400000000000; let s1 := allCores.foldl (fun u i => u.setChains i 5 true) s; (∀ i : CoreId, s1.shareQuiet i 5 = true) ∧ s1.coresOf 5 = [] ∧ s1.coresToSave 5 = [] ∧
      s1.saveCores 5 [] = (s1, some [], false) ∧
      ∃ q tk, s1.putAll (imageWho 0) (s1.imageAt 63) (imageHeader n m p 5 cl ((s1.launchesOf 5).map (fun i => (i, s1.launches[i])))) = (q, tk) ∧ tk.waits = false ∧ q.ctab = s.ctab ∧ tk.err = 0) ∧
    (∀ n m p cl, let s := ctx5 0 0x208000000000; let s1 := allCores.foldl (fun u i => u.setChains i 5 true) s; (∀ i : CoreId, s1.shareQuiet i 5 = true) ∧ s1.coresOf 5 = [] ∧ s1.coresToSave 5 = [] ∧
      (let r := s1.putAll (imageWho 0) (s1.imageAt 63) (imageHeader n m p 5 cl ((s1.launchesOf 5).map (fun i => (i, s1.launches[i])))); r.2.waits = false ∧ r.1.ctab = s.ctab ∧ r.2.err ≠ 0)) ∧
    (∀ n m p cl, let s1 := allCores.foldl (fun u i => u.setChains i 5 true) pend5; (∀ i : CoreId, s1.shareQuiet i 5 = true) ∧ s1.coresToSave 5 = [] ∧
      (s1.putAll (imageWho 0) (s1.imageAt 63) (imageHeader n m p 5 cl ((s1.launchesOf 5).map (fun i => (i, s1.launches[i]))))).2.waits = true) := by
  have n5 : (5 : BitVec 12) ≠ 0 := by decide
  have hb : hostBase = 0x400000000000 := rfl
  have p5 : Idle pend5 := ⟨rfl⟩
  have none5 {s : State} (h : Idle s) : s.coresToSave 5 = [] := by
    simp only [State.coresToSave, h.coresOf 5 n5]
    decide +kernel
  refine ⟨by decide +kernel, by decide +kernel, ?_, fun n m p cl => ?_, fun n m p cl => ?_, fun n m p cl => ?_⟩
  · rw [setChains_all _ busy5 5 true (fun c => by
      show (((ctx5 0 0x400000000000).cores.set 255 _)[c]).chains = _
      by_cases h : c = 255
      · subst h; rfl
      · have : (255 : Nat) ≠ c.val := fun e => h (Fin.ext e.symm)
        rw [Fin.getElem_fin, Vector.getElem_set_ne _ _ this]
        exact ((ctx5_idle 0 0x400000000000).core c).2.2.2.2.1)]
    decide +kernel
  · dsimp only
    rw [(ctx5_idle 0 0x400000000000).noChains 5, image5.1]
    exact ⟨fun i => (ctx5_idle 0 _).quiet i 5 n5, (ctx5_idle 0 _).coresOf 5 n5, none5 (ctx5_idle 0 _), rfl, putHeader ctx5_calm _ (header5 ..)⟩
  · dsimp only
    rw [(ctx5_idle 0 0x208000000000).noChains 5, image5.2.1]
    have hl := header5 (ctx5 0 0x208000000000) n m p 5 cl
    generalize imageHeader n m p 5 cl _ = bs at hl ⊢
    obtain ⟨a, b, c⟩ := putAll_hole (ctx5 0 0x208000000000) (imageWho 0) 0x208000000000 bs rfl (by omega) (by omega) (by omega)
    exact ⟨fun i => (ctx5_idle 0 _).quiet i 5 n5, (ctx5_idle 0 _).coresOf 5 n5, none5 (ctx5_idle 0 _), b, by rw [a], c⟩
  · dsimp only
    rw [p5.noChains 5, image5.2.2]
    have hl := header5 pend5 n m p 5 cl
    generalize imageHeader n m p 5 cl _ = bs at hl ⊢
    refine ⟨fun i => p5.quiet i 5 n5, none5 p5, putAll_waits _ _ _ bs 128 ((segs 0x400000000000 3072).drop 1) ?_ (by omega) pend5_store⟩
    rw [hl]
    decide +kernel

theorem side_ctab {s t : State} (m : s.MemSide t) : t.ctab = s.ctab := by rw [m]
theorem saveCores_none (s x : State) (ctx : BitVec 12) (c : CoreId) (r : List CoreId) (q : s.putShare c ctx (s.shareOf c ctx) = (x, none)) : (s.saveCores ctx (c :: r)).2.1 = none := by
  rw [State.saveCores]
  dsimp only
  rw [q]

/-- After shares, a header. -/
theorem saved_header {s : State} (ctx : BitVec 12) (cs : List CoreId) (h : Calm (s.saveCores ctx cs).1 ∧ s.MemSide (s.saveCores ctx cs).1 ∧ (∃ l, (s.saveCores ctx cs).2.1 = some l) ∧ (s.saveCores ctx cs).2.2 = false) :
    ∃ q l, s.saveCores ctx cs = (q, some l, false) ∧ ∀ n m p cl, ∃ w tk, q.putAll (imageWho 0) 0x400000000000 (imageHeader n m p ctx cl ((q.launchesOf ctx).map (fun i => (i, q.launches[i])))) = (w, tk) ∧
      tk.waits = false ∧ tk.err = 0 ∧ w.ctab = s.ctab := by
  obtain ⟨a, m, ⟨l, b⟩, d⟩ := h
  refine ⟨_, l, by rw [← b, ← d], fun n k p cl => ?_⟩
  obtain ⟨w, tk, e, x, z, y⟩ := putHeader a _ (header5 _ n k p ctx cl)
  exact ⟨w, tk, e, x, y, z.trans (side_ctab m)⟩

/-- The saves of context 5 that holds a manifest on core 255. -/
theorem witness_ContextEvents_shares :
    (∀ img : W64, let s1 := allCores.foldl (fun u i => u.setChains i 5 true) (hold5 img); s1 = hold5 img ∧ (∀ i : CoreId, s1.shareQuiet i 5 = true) ∧ s1.coresToSave 5 = [252, 253, 254, 255] ∧
      (s1.coresToSave 5).foldl (fun u i => (u.ctxSlots i 5).foldl (fun u k => u.releaseArray i k true) (u.assignCluster i 5)) s1 = hold5 img) ∧
    (∃ q l, (hold5 0x400000000000).saveCores 5 [252, 253, 254, 255] = (q, some l, false) ∧
      ∀ n m p cl, ∃ w tk, q.putAll (imageWho 0) 0x400000000000 (imageHeader n m p 5 cl ((q.launchesOf 5).map (fun i => (i, q.launches[i])))) = (w, tk) ∧ tk.waits = false ∧ tk.err = 0 ∧
        w.ctab = (hold5 0x400000000000).ctab) ∧
    ((hold5 0x208000000000).saveCores 5 [252, 253, 254, 255]).2.1 = none := by
  have hb : hostBase = 0x400000000000 := rfl
  have hk : coreBlock = 0x3B9000 := rfl
  have cl (c : CoreId) (h : c ∈ [(252 : CoreId), 253, 254, 255]) : clusterOf c = 63 ∧ cidx c < 4 := (show ∀ c ∈ [(252 : CoreId), 253, 254, 255], clusterOf c = 63 ∧ cidx c < 4 from all_of _ (by decide +kernel)) c h
  refine ⟨fun img => ?_, ?_, ?_⟩
  · dsimp only
    rw [(hold5_same img).1, hold5_cores]
    exact ⟨rfl, hold5_quiet img, rfl, (hold5_same img).2⟩
  · have im : (hold5 0x400000000000).imap = [(5, 0, 63)] := rfl
    obtain ⟨a, m, ⟨l, b⟩, d⟩ := hold5_calm.saveCores 5 [252, 253, 254, 255] (fun c h => ⟨_, _, hold5_block _ (by simp) c (cl c h).1, by
        have := (cl c h).2
        rw [show (0x400000000000 : W64).toNat = 0x400000000000 from rfl]
        omega, by
        have := (cl c h).2
        rw [show (0x400000000000 : W64).toNat = 0x400000000000 from rfl, hk]
        omega, by
        rw [show (0x400000000000 : W64).toNat = 0x400000000000 from rfl, hk]
        omega, hold5_share _ c, (es5 c).1, (es5 c).2⟩) (fun c h => by rw [im, (cl c h).1]; rfl)
    exact saved_header 5 [252, 253, 254, 255] ⟨a, m, ⟨l, b⟩, d⟩
  · have e := (cl 252 (by simp)).1
    have b : (hold5 0x208000000000).imageBlock 252 5 = some 0x208000001000 := (hold5_block 0x208000000000 (by simp) 252 e).trans (by decide +kernel)
    have sh : (hold5 0x208000000000).shareOf 252 5 = serais [] := (hold5_share _ 252).trans (by rw [if_neg (by decide)])
    have h0 : ((serais []).parts.headD (0, [])).2.length ≠ 0 := by decide +kernel
    obtain ⟨p, ps, hp⟩ : ∃ p ps, (serais []).parts = p :: ps := List.exists_cons_of_ne_nil (fun e => h0 (by rw [e]; rfl))
    rw [hp] at h0
    obtain ⟨-, h2, h3⟩ := putParts_hole (hold5 0x208000000000) (imageWho 252) (0x208000001000) p ps rfl (by omega) (Nat.pos_of_ne_zero h0) (fun q hq => by
        rw [← hp] at hq
        obtain ⟨x, y⟩ := serais_parts [] (by decide) (by simp) q hq
        refine ⟨by omega, fun z => ?_, by decide⟩
        rw [z] at y
        exact y.resolve_left (by decide))
    have q : (hold5 0x208000000000).putShare 252 5 (serais []) = (((hold5 0x208000000000).putParts (imageWho 252) 0x208000001000 (p :: ps)).1, none) := by
      unfold State.putShare
      rw [b, hp]
      show (if ((hold5 0x208000000000).putParts (imageWho 252) 0x208000001000 (p :: ps)).2.waits then _ else _) = _
      rw [h2, if_neg (by decide), if_pos h3]
    rw [← sh] at q
    exact saveCores_none _ _ _ _ _ q

/-- Context 5 saved with launch 0, some bytes of its image at 0x4000_0000_0000 by their offsets, and its entry's MINCL; `clusters` work. -/
def saved5 (st : Nat) (mincl : W64) (clusters : BitVec 64) (ls : List (Fin 64 × Launch)) (bytes : List (Nat × Byte)) : State :=
  let s := ctx5 st 0x400000000000
  { s with images := [{ ctx := 5, cores := [], launches := ls, pending := [63], slots := [] }], um := { s.um with clmask := clusters }
           ctab := s.ctab.set 63 ((s.ctab[63]).set 2 (mincl <<< 8)), mem := bytes.map (fun b => (0x400000000000 + b.1, b.2)) }
/-- IDENT of an image; its word of clusters with cluster 63; a record of launch 0 with the address of a launch record given by two bytes. -/
def ident : List (Nat × Byte) := [(0, 0x58), (1, 0x43), (2, 0x39), (3, 0x4A)]
def in63 : List (Nat × Byte) := [(23, 0x80)]
def launched (hi lo : Byte) : List (Nat × Byte) := [(0x400, 0x40)] ++ (if lo = 0 then [] else [(0x411, lo)]) ++ if hi = 0 then [] else [(0x415, hi)]
/-- The block of image cluster 63's core 3 counts one serai entry. -/
def entry63 : List (Nat × Byte) := [(0x1000 + 255 * 0x3B9000 + 0xA8000 + 528, 1)]

theorem saved5_calm (st : Nat) (mincl : W64) (clusters : BitVec 64) (ls : List (Fin 64 × Launch)) (bytes : List (Nat × Byte)) : Calm (saved5 st mincl clusters ls bytes) :=
  have h := Calm.reset
  ⟨h.pz, h.dead, h.agents, h.lost, h.l1, h.partials, h.lineq, h.seals, h.asleep, h.pend, h.closing, h.metas, h.regs, h.ranges, h.views, h.naesh, h.host, fun _ h => nomatch h⟩

/-- Such a state after the first step of a restore: the header read. -/
def header (s : State) : State × Taken := s.getAll (imageWho 0) (s.imageAt 63) 24

theorem saved5_image (st : Nat) (mincl : W64) (clusters : BitVec 64) (ls : List (Fin 64 × Launch)) (bytes : List (Nat × Byte)) : (saved5 st mincl clusters ls bytes).imageAt 63 = 0x400000000000 := by
  have e : ((saved5 st mincl clusters ls bytes).ctab[(63 : Fin 64)])[1] = 0x400000000000 := by
    have f (t : Vector (Vector W64 4) 64) (x : Vector W64 4) : (t.set 63 x)[(63 : Fin 64)] = x := Vector.getElem_set_self ..
    show (((ctx5 st 0x400000000000).ctab.set 63 (((ctx5 st 0x400000000000).ctab[63]).set 2 (mincl <<< 8)))[(63 : Fin 64)])[1] = _
    rw [f]
    simp [ctx5]
  rw [State.imageAt, e]
  decide
theorem saved5_header (st : Nat) (mincl : W64) (clusters : BitVec 64) (ls : List (Fin 64 × Launch)) (bytes : List (Nat × Byte)) :
    ReadFrom (saved5 st mincl clusters ls bytes) (header (saved5 st mincl clusters ls bytes)).1 := by
  have hb : hostBase = 0x400000000000 := rfl
  unfold header
  rw [saved5_image]
  exact ((saved5_calm ..).getHost _ _ _ rfl ⟨by omega, by omega, .inl (by decide)⟩).1

/-- A byte of an image. -/
def byteOf (b : List (Nat × Byte)) (i : Nat) : Byte := (b.find? (fun x => x.1 == i)).elim 0 (·.2)
theorem recs : ∀ b ∈ [ident, ident ++ in63 ++ launched 0 0, ident ++ launched 0x30 0], ∀ ls : List (Fin 64 × Launch),
    launchRecs (saved5 1 1 1 ls b) 63 = (List.range 32).map (fun i => byteOf b (0x400 + i)) :: List.replicate 63 (List.replicate 32 0) := by
  have e : ∀ (b : List (Nat × Byte)) (ls : List (Fin 64 × Launch)), launchRecs (saved5 1 1 1 ls b) 63 = launchRecs (saved5 1 1 1 [] b) 63 := fun _ _ => rfl
  intro b hb ls
  rw [e]
  revert b
  exact all_of _ (by decide +kernel)

/-- The launches of an image that the device remembers, read. -/
theorem known_launches {s : State} (h : Calm s) (hi : s.imageAt 63 = 0x400000000000) (im : Image) (first : List Byte) (hr : launchRecs s 63 = first :: List.replicate 63 (List.replicate 32 0))
    (hk : numAt first 0 4 / 64 % 2 = 0 ∨ (im.launches.find? (fun l => l.1 == ⟨numAt first 0 4 % 64, by omega⟩ && l.2.record == le64 (bytesAt first 16 8))).isSome = true) :
    ∃ z tl ls, (header s).1.readLaunches 63 im = (z, tl, ls) ∧ tl.waits = false ∧ tl.err = 0 ∧ ls.length = numAt first 0 4 / 64 % 2 ∧ z.launches = s.launches := by
  have hb : hostBase = 0x400000000000 := rfl
  have hh : ReadFrom s (header s).1 := by
    unfold header
    rw [hi]
    exact (h.getHost _ _ _ rfl ⟨by omega, by omega, .inl (by decide)⟩).1
  have z0 : numAt (List.replicate 32 0) 0 4 = 0 := by decide
  obtain ⟨a, b, c, d, -⟩ := readLaunches_known s (header s).1 hh 63 im ⟨by omega, by omega, .inl (by decide)⟩ (by
    intro bs hbs
    rw [hr] at hbs
    obtain rfl | hbs := List.mem_cons.mp hbs
    · exact hk
    · refine .inl ?_
      rw [List.eq_of_mem_replicate hbs, z0])
  refine ⟨_, _, _, rfl, c, b, d.trans ?_, a.launches⟩
  have none : (List.replicate 63 (List.replicate 32 (0 : Byte))).countP (fun bs => decide (numAt bs 0 4 / 64 % 2 ≠ 0)) = 0 := by
    rw [List.countP_eq_zero]
    intro y hy
    rw [List.eq_of_mem_replicate hy, z0]
    decide
  rw [hr, List.countP_cons, none]
  by_cases o : numAt first 0 4 / 64 % 2 = 0
  · rw [o]
    decide
  · rw [if_pos (by simpa using o)]
    omega

theorem getImage_waits (s : State) (at_ n : Nat) (h : (s.getAll (imageWho 0) at_ n).2.waits = true) : (getImage (s, Taken.none) at_ n).1.2.waits = true := by
  simp only [getImage, Taken.none, h, Bool.or_true]

/-- The first line of the launch records is held by an agent that sleeps. -/
def asleep5 : State := { saved5 1 1 1 [] ident with asleep := [9], dir := [(0x400000000400 / 128, .ex 9)] }

/-- Such a context where no launch slot is free. -/
def full5 : State := { saved5 1 1 1 [(0, poolLaunch)] (ident ++ in63 ++ launched 0 0) with launches := subFull.launches }

theorem witness_ContextEvents_restore :
    (∀ ls, (saved5 1 1 1 ls []).images.find? (fun i => i.ctx == 5) = some { ctx := 5, cores := [], launches := ls, pending := [63], slots := [] }) ∧ (∀ im ∈ State.reset.images, im.ctx ≠ 5) ∧
    (∀ o ∈ [(ident, (1 : W64)), (ident, 65), ([], 1)], let s := saved5 1 o.2 (BitVec.allOnes 64) [] o.1; let r := header s;
      (s.ctab[(63 : Fin 64)])[0].getLsbD 63 = true ∧ ((s.ctab[(63 : Fin 64)])[0].extractLsb' 56 3).toNat = 1 ∧ r.2.waits = false ∧ r.2.err = 0 ∧
      (wordAt (r.2.data.map (·.2)) 0 = if o.1 = [] then 0 else 0x4A394358) ∧ r.1.clcount = 64 ∧ r.1.mincl 63 = o.2.toNat) ∧
    (let s := ctx5 1 0x208000000000; let r := s.getAll (imageWho 0) (s.imageAt 63) 24; r.2.waits = false ∧ r.2.err ≠ 0) := by
  refine ⟨fun _ => rfl, by decide +kernel, all_of _ (by decide +kernel), by decide +kernel⟩

/-- The launches of such a context, read after a header that says IDENT. -/
theorem witness_ContextEvents_launches :
    (∀ o ∈ [(ident, ([] : List Nat)), (ident ++ in63 ++ launched 0 0, [63]), (ident ++ launched 0x30 0, [])], let r := header (saved5 1 1 1 [(0, poolLaunch)] o.1);
      r.2.waits = false ∧ r.2.err = 0 ∧ wordAt (r.2.data.map (·.2)) 0 = 0x4A394358 ∧ (List.range 64).filter (wordAt (r.2.data.map (·.2)) 2).getLsbD = o.2 ∧ r.1.mincl 63 ≤ r.1.clcount) ∧
    (∀ s ∈ [full5, asleep5], let r := header s; r.2.waits = false ∧ r.2.err = 0 ∧ wordAt (r.2.data.map (·.2)) 0 = 0x4A394358 ∧ r.1.mincl 63 ≤ r.1.clcount) ∧
    (∃ z tl ls, (header (saved5 1 1 1 [(0, poolLaunch)] ident)).1.readLaunches 63 ((saved5 1 1 1 [(0, poolLaunch)] ident).remembered 5) = (z, tl, ls) ∧ tl.waits = false ∧ tl.err = 0 ∧ ls = []) ∧
    (let s := saved5 1 1 1 [(0, poolLaunch)] (ident ++ in63 ++ launched 0 0); ∃ z tl ls, (header s).1.readLaunches 63 (s.remembered 5) = (z, tl, ls) ∧ tl.waits = false ∧ tl.err = 0 ∧ ls.length = 1 ∧
      (z.newSlots ls).length = 1 ∧ (∀ n : Fin 16, (s.bazaar[n]).q = [])) ∧
    (∃ z tl ls, (header full5).1.readLaunches 63 (full5.remembered 5) = (z, tl, ls) ∧ tl.waits = false ∧ tl.err = 0 ∧ ls.length = 1 ∧ (z.newSlots ls).length = 0) ∧
    (let s := saved5 1 1 1 [] (ident ++ launched 0x30 0); let q := (header s).1.readLaunches 63 (s.remembered 5); q.2.1.waits = false ∧ q.2.1.err ≠ 0) ∧
    ((header asleep5).1.readLaunches 63 (asleep5.remembered 5)).2.1.waits = true := by
  have slots (z : State) (ls : List (Fin 64 × Launch)) (n : Nat) (h : ((List.finRange 64).filter (fun i => !(z.launches[i]).on)).length = n) : (z.newSlots ls).length = min ls.length n := by
    rw [State.newSlots, List.length_zip, List.length_map, h]
  refine ⟨all_of _ (by decide +kernel), all_of _ (by decide +kernel), ?_, ?_, ?_, ?_, ?_⟩
  · obtain ⟨z, tl, ls, a, b, c, d, -⟩ := known_launches (saved5_calm 1 1 1 [(0, poolLaunch)] ident) (saved5_image ..) ((saved5 1 1 1 [(0, poolLaunch)] ident).remembered 5) _ (recs _ (by simp) _) (.inl (by decide +kernel))
    exact ⟨z, tl, ls, a, b, c, List.eq_nil_of_length_eq_zero (d.trans (by decide +kernel))⟩
  · obtain ⟨z, tl, ls, a, b, c, d, e⟩ := known_launches (saved5_calm 1 1 1 [(0, poolLaunch)] (ident ++ in63 ++ launched 0 0)) (saved5_image ..) ((saved5 1 1 1 [(0, poolLaunch)] (ident ++ in63 ++ launched 0 0)).remembered 5) _
      (recs _ (by simp) _) (.inr (by decide +kernel))
    have l1 : ls.length = 1 := d.trans (by decide +kernel)
    exact ⟨z, tl, ls, a, b, c, l1, by rw [slots z ls 64 (by rw [e]; decide +kernel), l1]; rfl, by decide +kernel⟩
  · have h5 : Calm full5 := (saved5_calm 1 1 1 [(0, poolLaunch)] (ident ++ in63 ++ launched 0 0)).of (by simp only [State.calmParts, full5]) (fun _ h => nomatch h) (fun _ h => h)
    obtain ⟨z, tl, ls, a, b, c, d, e⟩ := known_launches h5 (saved5_image 1 1 1 [(0, poolLaunch)] (ident ++ in63 ++ launched 0 0)) (full5.remembered 5) _ (recs (ident ++ in63 ++ launched 0 0) (by simp) [(0, poolLaunch)]) (.inr (by decide +kernel))
    have l1 : ls.length = 1 := d.trans (by decide +kernel)
    exact ⟨z, tl, ls, a, b, c, l1, by rw [slots z ls 0 (by rw [e]; decide +kernel), l1]; rfl⟩
  · have hb : hostBase = 0x400000000000 := rfl
    have hh := saved5_header 1 1 1 [] (ident ++ launched 0x30 0)
    obtain ⟨g, -, -, h2, h3, -⟩ := readLaunches_one _ _ hh 63 ((saved5 1 1 1 [] (ident ++ launched 0x30 0)).remembered 5) (by rw [saved5_image]; exact ⟨by omega, by omega, .inl (by decide)⟩) _ _ (recs _ (by simp) _)
      (by decide +kernel) (fun y hy => by rw [List.eq_of_mem_replicate hy]; decide)
    have root : (header (saved5 1 1 1 [] (ident ++ launched 0x30 0))).1.ctxroot = 0 := hh.ctxroot
    rw [root] at h2 h3
    dsimp only
    rw [h2, h3]
    exact readLaunch_hole g _ _ _ rfl (by decide +kernel) (by decide +kernel) (by decide +kernel)
  · refine readLaunches_waits _ _ _ ?_
    have w : ((header asleep5).1.sideLoad (imageWho 0) false 0x400000000400 128).2 = .wait := by decide +kernel
    have i : (header asleep5).1.imageAt 63 = 0x400000000000 := by decide +kernel
    have := getAll_waits (header asleep5).1 (imageWho 0) 0x400000000400 2048 (0x400000000400, 128) ((segs 0x400000000400 2048).drop 1) (by decide +kernel) w
    rw [i, show 0x400000000000 + 0x400 = 0x400000000400 from rfl]
    exact getImage_waits _ _ _ this

/-- Image cluster 63 of context 5 holds one manifest, of its core 3. -/
def back5 : State := saved5 2 1 (1#64 <<< 63) [] entry63
def im5 : Image := { ctx := 5, cores := [], launches := [], pending := [63], slots := [] }
/-- That manifest. -/
def read5 : SEnt := { bytes := List.replicate 128 0, ctx := 5, launch := 0 }
def block5 (k : Nat) : Nat := 0x400000001000 + (252 + k) * 0x3B9000

theorem back5_blocks : (∀ k < 4, (∀ i < 16, cellGet back5.mem (block5 k + slotArea * i + 0x8295) = 0) ∧ numAt (recordAt back5 (block5 k)) 0 8 = 0 ∧
    (∀ i < 8, numAt (bytesAt (recordAt back5 (block5 k)) (16 + 64 * i) 64) 16 8 % 2 = 0) ∧ entriesAt back5 (block5 k) 5 (min 512 (numAt (recordAt back5 (block5 k)) 528 8)) = if k = 3 then [read5] else []) := by decide +kernel

theorem back5_read : ReadFrom back5 (back5.readCluster 63 im5 63).1 ∧ (back5.readCluster 63 im5 63).2.1.err = 0 ∧ (back5.readCluster 63 im5 63).2.1.waits = false ∧
    (back5.readCluster 63 im5 63).2.2 = [{ cluster := 63, cidx := 3, share := serais [read5] }] := by
  have hb : hostBase = 0x400000000000 := rfl
  have hk : coreBlock = 0x3B9000 := rfl
  obtain ⟨a, b, c, d⟩ := readCluster_plain back5 63 im5 63 (saved5_calm ..) rfl block5 (fun k => if k = 3 then [read5] else []) (fun k h => by
    rw [show back5.imageAt 63 = 0x400000000000 from saved5_image ..]
    simp only [blockAt, block5, hk]) (fun k h => by
    obtain ⟨b1, b2, b3, b4⟩ := back5_blocks k h
    exact ⟨by simp only [block5]; omega, b1, b2, b3, b4⟩)
  exact ⟨a, b, c, d.trans (by decide +kernel)⟩

theorem back5_open {q : State} (h : ReadFrom back5 q) (xs : List SavedCore) : q.openClusters 5 xs = back5.openClusters 5 xs := by
  simp only [State.openClusters, State.clusterFits, State.heldBy, State.fits, State.freeSlots, State.partOf, State.freeGran, State.freeRegs, State.strAt, h.cores, h.um, h.imap]
  rfl

theorem witness_ContextEvents_cluster :
    ((saved5 1 1 1 [] []).images.find? (fun i => i.ctx == 5) = some im5 ∧ (((saved5 1 1 1 [] []).ctab[(63 : Fin 64)])[0].extractLsb' 56 3).toNat = 1) ∧
    (back5.images.find? (fun i => i.ctx == 5) = some im5 ∧ ((back5.ctab[(63 : Fin 64)])[0].extractLsb' 56 3).toNat = 2 ∧ 63 ∈ im5.pending ∧ 0 ∉ im5.pending ∧ (∀ i : CoreId, (back5.cores[i]).kept ≠ some 5)) ∧
    (∃ q tk xs, back5.readCluster 63 im5 63 = (q, tk, xs) ∧ tk.waits = false ∧ tk.err = 0 ∧ q.openClusters 5 xs = [63] ∧ q.images = back5.images ∧ xs = [{ cluster := 63, cidx := 3, share := serais [read5] }]) ∧
    (let s : State := { ctx5 2 0x208000000000 with images := [im5] }; let r := s.readCluster 63 im5 63; (∀ i : CoreId, (s.cores[i]).kept ≠ some 5) ∧ r.2.1.waits = false ∧ r.2.1.err ≠ 0) := by
  refine ⟨by decide +kernel, by decide +kernel, ?_, by decide +kernel⟩
  obtain ⟨a, b, c, d⟩ := back5_read
  have o := back5_open a (back5.readCluster 63 im5 63).2.2
  rw [d, show back5.openClusters 5 [{ cluster := 63, cidx := 3, share := serais [read5] }] = [63] by decide +kernel] at o
  generalize back5.readCluster 63 im5 63 = r at a b c d o ⊢
  exact ⟨r.1, r.2.1, r.2.2, rfl, c, b, by rw [d, o], a.images, d⟩

/-- A share that holds nothing. -/
def share0 : Share := { strs := [], spilled := [], part := none, scr := [], scrPz := [], serai := [], chains := [] }
/-- An evicted share of one string on core 0, and core 0 with nothing evicted. -/
def evict1 : Evicted := { ctx := 5, prio := 3, slot := none, share := { share0 with strs := [(0, str1)] }, at_ := 0 }
def evicted1 : State := core1 (fun x => { x with evicted := [evict1] })
/-- A share of one serai entry of context 5, to be read from an image at an address of no memory. -/
def evict2 : Evicted := { evict1 with share := { share0 with serai := [{ ent0 with ctx := 5 }] } }
def evicted2 : State := { core1 (fun x => { x with evicted := [evict2] }) with ctab := (ctx5 0 0x200000000000).ctab, imap := [(5, 0, 0)] }

theorem fits1 : evicted1.fits 0 5 evict1.share = true ∧ evicted1.ctxEntry 5 = none ∧ evicted1.freeSlots 0 = 1 :: (List.finRange 16).drop 2 := by decide +kernel

theorem evicted_second : evicted2.returning 0 = some evict2 := by
  have e : (evicted2.cores[(0 : CoreId)]).evicted = [evict2] := rfl
  have h : evicted2.fits 0 evict2.ctx evict2.share = true := by decide +kernel
  have n : evicted2.ctxEntry evict2.ctx = some 63 := by decide +kernel
  have z : (ctabSt (evicted2.ctab[(63 : Fin 64)]) == 0) = true := by decide +kernel
  simp only [State.returning, e, List.filter_cons, List.filter_nil, h, n, z, Bool.and_self, if_true, List.mergeSort_singleton, List.head?_cons]

theorem evicted_first : evicted1.returning 0 = some evict1 := by
  have e : (evicted1.cores[(0 : CoreId)]).evicted = [evict1] := rfl
  have h : evicted1.fits 0 evict1.ctx evict1.share = true := fits1.1
  have n : evicted1.ctxEntry evict1.ctx = none := fits1.2.1
  simp only [State.returning, e, List.filter_cons, List.filter_nil, h, n, Bool.and_self, if_true, List.mergeSort_singleton, List.head?_cons]

/-- A share without anything but for its image, which counts one serai entry, on core 0 whose serai is full. -/
def evict3 : Evicted := { evict1 with share := serais [] }
def evicted3 : State :=
  { core1 (fun x => { x with evicted := [evict3], serai := List.replicate 512 ent0 }) with ctab := (ctx5 0 0x400000000000).ctab, imap := [(5, 0, 0)], mem := [(0x400000001000 + 0xA8000 + 528, 1)] }

theorem evicted3_calm : Calm evicted3 := Calm.reset.of (by simp only [State.calmParts, evicted3, core1]) (fun _ h => nomatch h) (fun _ h => h)

theorem evicted_third : evicted3.returning 0 = some evict3 := by
  have e : (evicted3.cores[(0 : CoreId)]).evicted = [evict3] := rfl
  have h : evicted3.fits 0 evict3.ctx evict3.share = true := by decide +kernel
  have n : evicted3.ctxEntry evict3.ctx = some 63 := by decide +kernel
  have z : (ctabSt (evicted3.ctab[(63 : Fin 64)]) == 0) = true := by decide +kernel
  simp only [State.returning, e, List.filter_cons, List.filter_nil, h, n, z, Bool.and_self, if_true, List.mergeSort_singleton, List.head?_cons]

theorem evicted3_read : let r := evicted3.readEvicted 0 evict3; r.2.1.waits = false ∧ r.2.1.err = 0 ∧ r.1.fits 0 5 r.2.2 = false := by
  have hb : hostBase = 0x400000000000 := rfl
  have hk : coreBlock = 0x3B9000 := rfl
  have b : evicted3.imageBlock 0 evict3.ctx = some 0x400000001000 := by decide +kernel
  have p : (∀ i < 16, cellGet evicted3.mem (0x400000001000 + slotArea * i + 0x8295) = 0) ∧ numAt (recordAt evicted3 0x400000001000) 0 8 = 0 ∧
      (∀ i < 8, numAt (bytesAt (recordAt evicted3 0x400000001000) (16 + 64 * i) 64) 16 8 % 2 = 0) ∧
      entriesAt evicted3 0x400000001000 5 (min 512 (numAt (recordAt evicted3 0x400000001000) 528 8)) = [read5] := by decide +kernel
  obtain ⟨r1, r2, r3, r4⟩ := (show PlainBlock evicted3 0x400000001000 evict3.ctx [read5] from ⟨by omega, p.1, p.2.1, p.2.2.1, p.2.2.2⟩).read evicted3 (.refl evicted3_calm)
  have e : evicted3.readEvicted 0 evict3 = evicted3.readBlock 0x400000001000 evict3.ctx (serais []) := by
    simp only [State.readEvicted, b]
    rfl
  dsimp only
  rw [e]
  generalize evicted3.readBlock 0x400000001000 evict3.ctx (serais []) = r at r1 r2 r3 r4 ⊢
  refine ⟨r3, r2, ?_⟩
  have l : (evicted3.cores[(0 : CoreId)]).serai.length = 512 := List.length_replicate ..
  have s1 : (r.2.2).serai.length = 1 := by rw [r4]; rfl
  simp only [State.fits, r1.cores, l, s1]
  simp

/-- The choice among cores of which none holds anything that must go: whole clusters first. -/
def chosenAmong (may : List CoreId) (n : Nat) : List CoreId :=
  let mine (j : Fin 64) : List CoreId := may.filter (fun c => clusterOf c == j)
  let extra := ((List.finRange 64).filter (fun j => (mine j).length == 4)).foldl (fun xs j => if xs.length + (mine j).length ≤ n then xs ++ mine j else xs) []
  (extra ++ may.filter (fun c => !extra.contains c)).take n

theorem chosen_among (s : State) (n : Nat) (d : Demand) (may : List CoreId) (h : ∀ c : CoreId, s.evictions c d = 0) (hm : allCores.filter (fun c => s.mayPreempt c d.ctx) = may) :
    s.chosenCores n d = chosenAmong may n := by
  let cs : List (CoreId × Nat) := may.map (fun c => (c, 0))
  have lim (le : CoreId × Nat → CoreId × Nat → Bool) : ((cs.mergeSort le)[n - 1]?).elim 0 (·.2) = 0 := by
    cases e : (cs.mergeSort le)[n - 1]? with
    | none => rfl
    | some x =>
      have := List.mem_mergeSort.mp (List.mem_of_getElem? e)
      obtain ⟨c, -, rfl⟩ := List.mem_map.mp this
      rfl
  have must : cs.filter (fun x => decide (x.2 < 0)) = [] := by simp
  have all : (cs.filter (fun x => decide (x.2 = 0))).map (·.1) = may := by
    rw [List.filter_eq_self.mpr (fun x hx => by obtain ⟨c, -, rfl⟩ := List.mem_map.mp hx; rfl), List.map_map]
    exact List.map_id _
  simp only [State.chosenCores, hm, h]
  rw [show may.map (fun c => (c, 0)) = cs from rfl, lim, must, all]
  simp only [List.map_nil, List.nil_append, List.length_nil, Nat.zero_add]
  rw [mergeSort_of]
  · rfl
  · refine List.pairwise_of_forall_mem_list (fun a ha b hb => ?_)
    have ea := (List.mem_filter.mp ha).2
    have eb := (List.mem_filter.mp hb).2
    simp only [beq_iff_eq] at ea eb
    simp [ea, eb]

theorem Idle.evictions {s : State} (h : Idle s) (c : CoreId) (d : Demand) (hp : s.ctxEntry 0 = none) : s.evictions c d = 0 := by
  have b : s.below d.ctx 0 = false := by
    simp only [State.below, State.prioOf, hp, Option.map_none]
    exact Bool.and_false _
  have p : (s.cores[c]).parts.filter (fun p => s.below d.ctx p.ctx) = [] := by
    rw [List.filter_eq_nil_iff]
    intro p hp
    rw [(h.core c).2.2.2.2.2 p hp, b]
    simp
  have k (l : List SlotId) : l.filter (fun k => s.below d.ctx (s.strAt c k).ctx) = [] := by
    rw [List.filter_eq_nil_iff]
    intro k _
    rw [h.ctx, b]
    simp
  simp only [State.evictions, State.plan, p, k, List.mergeSort_nil]
  split <;> rfl

/-- Context 5 with `clusters` at work. -/
def pre5 (clusters : BitVec 64) : State := let s := ctx5 0 0; { s with um := { s.um with clmask := clusters } }

theorem Idle.mayPreempt {s : State} (h : Idle s) (c : CoreId) (x : BitVec 12) (hp : s.ctxEntry 0 = none) : s.mayPreempt c x = s.um.clmask.getLsbD (clusterOf c).val := by
  have st : (s.cores[c]).stopped = false := by
    simp only [h.cores]
    rw [reset_core]
    split <;> rfl
  have a : ((s.cores[c]).strs.toList.all (fun t => !t.present || t.ctx == x || (match s.prioOf t.ctx, s.prioOf x with | some p, some q => decide (p < q) | _, _ => true))) = true := by
    rw [List.all_eq_true]
    intro t ht
    obtain ⟨i, hi, rfl⟩ := Vector.getElem_of_mem (Vector.mem_toList_iff.mp ht)
    have e : ((s.cores[c]).strs[i]).ctx = 0 := h.ctx c ⟨i, hi⟩
    simp only [e, State.prioOf, hp, Option.map_none, Bool.or_true]
  simp only [State.mayPreempt, st, Bool.not_false, Bool.and_true]
  exact (congrArg (s.um.clmask.getLsbD (clusterOf c).val && ·) a).trans (Bool.and_true _)

/-- What PREEMPT asks for at most. -/
def demand5 : Demand := { ctx := 5, nslot := 16, ngran := 16, nreg := 4096 }

theorem chosen_idle {s : State} (h : Idle s) (n : Nat) (hp : s.ctxEntry 0 = none) :
    s.chosenCores n demand5 = chosenAmong (allCores.filter (fun c => s.um.clmask.getLsbD (clusterOf c).val)) n :=
  chosen_among _ _ _ _ (fun c => h.evictions c _ hp) (congrArg (List.filter · allCores) (funext (fun c => h.mayPreempt c _ hp)))

theorem chosen5 : ((pre5 1).chosenCores 5 demand5).length < 5 ∧ 256 ≤ ((ctx5 0 0).chosenCores 256 demand5).length := by
  rw [chosen_idle (s := pre5 1) ⟨rfl⟩ 5 (by decide +kernel), chosen_idle (ctx5_idle 0 0) 256 (by decide +kernel)]
  decide +kernel

theorem witness_ContextEvents :
    (∀ l ∈ [5, 6, 16, 17], (6 ≤ (((bqueue1 l).bazaar[(15 : Fin 16)]).w1.extractLsb' 0 5).toNat ∧ (((bqueue1 l).bazaar[(15 : Fin 16)]).w1.extractLsb' 0 5).toNat ≤ 16) ↔ (l = 6 ∨ l = 16)) ∧
    (∀ o ∈ [((0x8000100000000000 : W64), true), (0x800010BFFFFFF000, true), (0x80000FFFFFFFF000, false), (0x800010C000000000, false)], o.1.getLsbD 63 = true ∧ (bqueue1 6).ringOk o.1 = o.2) ∧
    (State.reset.ring = none ∧ (ring1 true).token ≠ none ∧ (ring1 false).ring = some (1, [0, 1]) ∧ (ring1 false).token = none) ∧
    ((ctx5 0 0).ctxEntry 5 = some 63 ∧ (ctx5 0 0).ctxEntry 6 = none) ∧
    ((ctx5 0 0).ctxstat.getLsbD 63 = false ∧ ((pre5 1).chosenCores 5 demand5).length < 5 ∧ 256 ≤ ((ctx5 0 0).chosenCores 256 demand5).length) ∧
    (State.reset.returning 255 = none ∧ evicted1.returning 0 = some evict1 ∧ evict1.share = { strs := [(0, str1)], spilled := [], part := none, scr := [], scrPz := [], serai := [], chains := [] } ∧
      evicted1.freeSlots 0 = 1 :: (List.finRange 16).drop 2 ∧ evicted1.readEvicted 0 evict1 = (evicted1, Taken.none, evict1.share) ∧ Taken.none.waits = false ∧ Taken.none.err = 0 ∧
      evicted2.returning 0 = some evict2 ∧ (let r := evicted2.readEvicted 0 evict2; r.2.1.waits = false ∧ r.2.1.err ≠ 0) ∧
      evicted3.returning 0 = some evict3 ∧ (let r := evicted3.readEvicted 0 evict3; r.2.1.waits = false ∧ r.2.1.err = 0 ∧ r.1.fits 0 evict3.ctx r.2.2 = false)) := by
  have r1 : evicted1.readEvicted 0 evict1 = (evicted1, Taken.none, evict1.share) := by
    have n : evicted1.imageBlock 0 evict1.ctx = none := by simp only [State.imageBlock, show evicted1.ctxEntry evict1.ctx = none from fits1.2.1]
    simp only [State.readEvicted, n]
  exact ⟨by decide +kernel, all_of _ (by decide +kernel), ⟨rfl, by decide +kernel, rfl, rfl⟩, by decide +kernel, ⟨rfl, chosen5.1, chosen5.2⟩, returning_none _ _ rfl, evicted_first, rfl, fits1.2.2, r1, rfl, rfl, evicted_second, by decide +kernel, evicted_third, evicted3_read⟩

-- ## The host, other devices, management

/-- An aperture and an entry of the fabric access table over 0x1000_0000_0000 to 0x1000_0000_2FFF. -/
def open1 : State :=
  { State.reset with apert := State.reset.apert.set 15 ((Vector.replicate 2 0xC000100000000000).set 1 0x100000003000)
                     fat := State.reset.fat.set 63 ((((Vector.replicate 4 0).set 0 0xF000000000003FFF).set 1 0x100000000000).set 2 0x100000003000) }
/-- The same with a range of f32 over the line of 0x1000_0000_2000. -/
def openRange : State := { open1 with ranges := State.reset.ranges.set 255 (some range2) }
/-- The Naesh Link down, agent 8's incarnation i. -/
def down1 (i : BitVec 16) : State := { State.reset with naeshDown := true, inc := State.reset.inc.set 8 i }
/-- Split 0's lanes waiting for another device since 0, at PTIME n. -/
def far1 : Remote := { core := 0, slot := 0, uid := 1, lanes := 1, va := 0x2000, loc := 2 * 2 ^ 48, since := 0, wr := false, sc := false, code := false, fault := none }
def afar (n : Nat) : State := { late n with remote := [far1] }
/-- A unit map of the last working die alone, and a boot image of two bytes. -/
def die7 : UnitMap := { State.reset.um with mdie := 0x80 }
def image1 : BootImage := { bytes := [1, 2], entry := 0x40, param := 5 }
/-- That access, its route of one port that is UP. -/
def routed1 : State := { afar 0 with routes := [{ lo := 1, hi := 1, ports := 0x800000 }], cport := State.reset.cport.set 23 0x18 }
theorem far_port : routed1.portOf far1.loc = some 23 := by
  have u : (List.finRange 24).filter (fun p => (routed1.portsTo (far1.loc / 2 ^ 48 - 1)).getLsbD p.val && (routed1.cport[p]).getLsbD 4) = [23] := by decide +kernel
  simp only [State.portOf, u, List.length_singleton, Nat.mod_one]
  rfl
/-- A command block of count n. -/
def mcmd (n : Byte) : State := { State.reset with mem := if n = 0 then [] else [(0x400000000000, n)] }
theorem mcmd_calm (n : Byte) : Calm (mcmd n) := Calm.reset.of rfl (fun _ h => nomatch h) (fun _ h => h)

theorem pair_calm {s : State} (p : State × Taken) (h : Calm p.1 ∧ s.MemSide p.1 ∧ p.2.waits = false ∧ p.2.err = 0) : ∃ q tk, p = (q, tk) ∧ Calm q ∧ tk.waits = false ∧ tk.err = 0 :=
  ⟨p.1, p.2, rfl, h.1, h.2.2.1, h.2.2.2⟩

theorem mcmd_block (n : Byte) (m : Nat) (hm : m ≤ 1008) : ∃ q tk, (mcmd n).getAll (imageWho 0) 0x400000000000 8 = (q, tk) ∧ tk.waits = false ∧ tk.err = 0 ∧
    ∃ z tz, q.getAll (imageWho 0) 0x400000000000 (8 + m) = (z, tz) ∧ tz.waits = false ∧ tz.err = 0 := by
  have hb : hostBase = 0x400000000000 := rfl
  obtain ⟨q, tk, e, c, w, r⟩ := pair_calm _ ((mcmd_calm n).getAll (imageWho 0) 0x400000000000 8 rfl (by omega) (by omega) (by omega))
  obtain ⟨z, tz, e', _, w', r'⟩ := pair_calm _ (c.getAll (imageWho 0) 0x400000000000 (8 + m) rfl (by omega) (by omega) (by omega))
  exact ⟨q, tk, e, w, r, z, tz, e', w', r'⟩

theorem witness_DeviceEvents :
    ((down1 13).naeshDown = true ∧ State.reset.naeshDown = false ∧ ((down1 13).inc[(8 : AgentId)]).toNat < 14 ∧ (down1 15).naeshDown = true ∧ 15 ≤ ((down1 15).inc[(8 : AgentId)]).toNat ∧
      (down1 13).ready = true ∧ (State.reset.failedReset State.reset.um 3).ready = false ∧ (State.reset.failedReset State.reset.um 3).naeshDown = true) ∧
    (State.reset.inAperture false 0x100000002000 1 = false ∧ open1.inAperture true 0x100000002FFF 1 = true ∧ open1.inAperture true 0x100000002FFF 2 = false ∧ open1.portLoc 0x100000002001 128 = none ∧
      (∀ o ∈ [(0x100000002000, 128), (0x10000000207F, 1)], open1.inAperture false o.1 o.2 = true ∧ open1.inAperture true o.1 o.2 = true ∧ open1.portLoc o.1 o.2 = some (loc2 + (o.1 - 0x100000002000)) ∧
        (∀ i < o.2, lineOf (loc2 + (o.1 - 0x100000002000) + i) = lineA)) ∧
      open1.rangeOf lineA = none ∧ open1.isPlane lineA = false ∧ open1.lineSealed lineA = false ∧ open1.bankLocalLine lineA = false ∧ open1.isMaster lineA = false ∧ open1.poisoned lineA = false ∧ open1.dirGet lineA = none ∧
      open1.metaGet lineA = none ∧ open1.l2 = []) ∧
    (∀ kd ∈ [RKind.rd, .wr, .amo .add .n64, .con .f32, .bar 1 0 0, .init 1 0, .poll, .dnb []], State.reset.admits 0 kd 0x100000002000 = false ∧ open1.admits 0x3FFF kd 0x100000002000 = true ∧ open1.admits 0 kd 0x100000003000 = false) ∧
    (open1.portBarred lineA = false ∧ open1.lineFree lineA = true ∧ open1.homeAsleep lineA = false ∧ openRange.rangeOf lineA = some range2 ∧ range2.ending = false ∧ range2.scope ≠ .sys ∧
      (let s : State := { open1 with ranges := State.reset.ranges.set 255 (some { range2 with scope := .sys }) }; s.rangeOf lineA = some { range2 with scope := .sys }) ∧
      0x7F0000040000 ≤ 0x7F000004000F ∧ 0x7F000004000F + 1 ≤ 0x7F0000040010 ∧ open1.lost = [] ∧ open1.deadAgents = [] ∧ openRange.poisoned lineA = false) ∧
    ((afar 0).remoteOf 0 0 1 0x2000 = some far1 ∧ far1.lanes ≠ 0 ∧ far1.since + 2000000 ≤ (afar 2000000).ptime ∧ (afar 1999999).ptime < far1.since + 2000000 ∧ (afar 0).remoteOf 0 0 1 0x2008 = none) ∧
    ((∀ pa ∈ [0x100000002000, 0x100000002060], open1.fabricLoc pa 32 = some (loc2 + (pa - 0x100000002000)) ∧ (loc2 + (pa - 0x100000002000)) % 32 = 0 ∧ open1.barReady (.mem (loc2 + (pa - 0x100000002000))) = true ∧ parr (open1.barWord (.mem (loc2 + (pa - 0x100000002000))) 0) ≠ 1) ∧ (∀ pa ∈ [0x100000002000, 0x10000000207F], open1.fabricLoc pa 1 = some (loc2 + (pa - 0x100000002000))) ∧
      (∀ n ∈ [4, 8], open1.fabricLoc 0x100000002000 n = some loc2) ∧ open1.fabricLoc 0x100000002061 32 = none ∧ open1.fabricLoc 0x100000002008 32 = some (loc2 + 8) ∧ (loc2 + 8) % 32 ≠ 0 ∧ openRange.portBarred lineA = true ∧ lineHbm lineA = true ∧
      (let s : State := { open1 with pend := [pst] }; s.portBarred lineA = false ∧ s.barReady (.mem loc2) = false) ∧ open1.behind lineA 8 = false ∧ ∀ l, open1.barTake (.mem l) = open1 ∧ placeFits (.mem l)) ∧
    (State.reset.remote = [] ∧ (∃ r ∈ routed1.remote, routed1.portOf r.loc = some 23)) ∧
    (die7.mdie.getLsbD 7 = true ∧ (∀ d' : DieId, d' < 7 → die7.mdie.getLsbD d'.val = false) ∧ ∃ l, (State.reset.packageReset image1 die7 none).decodePa (0x100000000000 + 7 * 2 ^ 36) = .loc l) ∧ open1.Inv ∧
    (State.reset.lsidle.extractLsb' 0 16 ≠ 0 ∧ State.reset.asleep = [] ∧ State.reset.held = [] ∧ ({ State.reset with lsidle := 0 } : State).lsidle.extractLsb' 0 16 = 0 ∧ (∃ h ∈ asleepA.held, h.agent = 9)) ∧
    ((∀ i : Fin 4, let y := State.reset.cores[coreOf 63 i.val]; (∀ sl : SlotId, (y.strs[sl]).present = false) ∧ y.parts = [] ∧ y.serai = []) ∧ ((State.reset.cores[(0 : CoreId)]).strs[(0 : SlotId)]).present = true) ∧
    (State.reset.elogLost = none ∧ (let e : ERec := { kind := 1, agent := 0, pa := 0, time := 0, cause := none }; ({ State.reset with elog := [e], elogLost := some 7 } : State).elog = [e])) ∧
    ((∀ n ∈ [0, 1, 2, 63, 64, 65], let r := (mcmd (BitVec.ofNat 8 n)).getAll (imageWho 0) 0x400000000000 8; r.2.waits = false ∧ r.2.err = 0 ∧ wordAt (r.2.data.map (·.2)) 0 = BitVec.ofNat 64 n) ∧
      (let r := State.reset.getAll (imageWho 0) 0x200000000000 8; r.2.waits = false ∧ r.2.err ≠ 0) ∧
      (∀ (n : Byte) (m : Nat), m ≤ 16 * 63 → ∃ q tk, (mcmd n).getAll (imageWho 0) 0x400000000000 8 = (q, tk) ∧ tk.waits = false ∧ tk.err = 0 ∧
        ∃ z tz, q.getAll (imageWho 0) 0x400000000000 (8 + m) = (z, tz) ∧ tz.waits = false ∧ tz.err = 0)) ∧
    (State.reset.lstat.getLsbD 63 = false ∧ ({ State.reset with lstat := 1#64 <<< 63 } : State).lstat.getLsbD 63 = true) := by
  refine ⟨?_, ?_, ?_, ?_, ?_, ⟨?_, ?_, ?_, ?_, ?_, ?_, ?_, ?_, ?_, ?_, fun l => ⟨Fresh.barTake ⟨rfl, rfl, rfl, rfl, rfl, rfl, rfl⟩ _, trivial⟩⟩, ⟨rfl, far1, List.mem_singleton.mpr rfl, far_port⟩, ⟨by decide, by decide, 481036337152, ?_⟩,
    inv_of _ (by decide +kernel), ?_, ?_, ?_, ⟨?_, ?_, fun n m h => mcmd_block n m (by omega)⟩, ?_⟩
  all_goals decide +kernel

/-- A `vwsync` at a scope at which a store of its core still waits is held. -/
theorem witness_ViewAndCollectiveIssue_held : let s : State := { recFull 1 with pend := [pst] }; s.released .pkg = false ∧ s.views[(63 : Fin 64)] = some view0 := by decide +kernel

-- ## Steps

/-- The machine about to run a core word, with the bits of a second word above it. -/
def fetching (w : Nat) : State := State.reset.withFetchWord 64 w
/-- Its next issue taken, by split 0 of core 0's slot 0, and the splits at its PC merged. -/
def taken1 (w : Nat) : State := State.modSp { fetching w with issue := [], cur := { core := 0, slot := 0, split := 0 } } (fun x => { x with starve := 0, wait := x.wait.retried })
def merged1 (w : Nat) : State := (taken1 w).modMe (fun t => t.mergeInto 0 false)

theorem witness_StepKeepsInv : State.reset.Inv ∧ step State.reset = .next (State.reset.turn exec) := ⟨inv_of _ (by decide +kernel), rfl⟩

theorem witness_StepRuns :
    ((({ State.reset with agenda := [.timeExchange 0] } : State).agenda = [.timeExchange 0]) ∧ State.reset.agenda = [] ∧ State.reset.issue = []) ∧
    (let s := State.reset.withFetchWord 32 0x80143000;
      s.agenda = [] ∧ s.issue = [.abacus 0 0] ∧ (s.abAt 0 0).run.map (·.prog) = some [0x80143000, 0] ∧ (s.abAt 0 0).run.map (·.pc) = some 0 ∧ (s.abAt 0 0).run.map (·.steps) = some 0 ∧ (s.abAt 0 0).run.map (·.ended) = some none ∧ decodeAbacus 0x80143000 = some (.adot 0 false 0 1 4 3)) ∧
    (∀ w ∈ [0x01000102FFFFFFF0, 0x123456789ABCDEF00501050000000000], let s := fetching w; let s1 := taken1 w; let s2 := merged1 w;
      s.agenda = [] ∧ s.issue = [.split 0 0 0] ∧ s1.strRuns 0 0 = true ∧ (s1.freeSplits 0 0).contains 0 = true ∧ s1.sp.unread = false ∧ s1.sp.mustEnter = false ∧ hdrMx s2.sp.hdr = true ∧ s2.core.arr.owner = some (0, s2.me.uid) ∧
      (let r := s2.checkRead s2.who .fetch true 1 s2.sp.pc 8; r.2 = .ok (accAt 8 8) ∧ (accAt 8 8).reg = none ∧ (accAt 8 8).remote = false ∧ (accAt 8 8).sc = false ∧ le64 ((accAt 8 8).locs.map (r.1.look 0)) = BitVec.ofNat 64 w ∧ r.1.cur.core = 0 ∧
        isLong (BitVec.ofNat 64 w) = decide (2 ^ 64 ≤ w) ∧
        (w < 2 ^ 64 → decode (BitVec.ofNat 64 w) 0 = some (.saddI 1 2 0xFFFFFFF0) ∧ (∀ n ∈ namedRegs r.1.me (.saddI 1 2 0xFFFFFFF0), r.1.me.vspill.getLsbD n = false) ∧ newRegs (.saddI 1 2 0xFFFFFFF0) ≤ r.1.freeRegsFor 0 r.1.me.ctx ∧ r.1.core.regWait = []) ∧
        (2 ^ 64 ≤ w → s2.sp.within (s2.sp.pc + 8) = true ∧ ({ s2.sp with hdr := 0x0000400000000200 } : Split).within (s2.sp.pc + 8) = false ∧ (let f := r.1.fetch64 r.1.who (s2.sp.pc + 8); f.2 = .ok (BitVec.ofNat 64 (w / 2 ^ 64)) ∧ f.1.cur.core = 0 ∧
          decode (BitVec.ofNat 64 w) (BitVec.ofNat 64 (w / 2 ^ 64)) = some (.sliL 5 0x123456789ABCDEF0) ∧
          (∀ n ∈ namedRegs f.1.me (.sliL 5 0x123456789ABCDEF0), f.1.me.vspill.getLsbD n = false) ∧ newRegs (.sliL 5 0x123456789ABCDEF0) ≤ f.1.freeRegsFor 0 f.1.me.ctx ∧ f.1.core.regWait = [])))) :=
  ⟨by decide +kernel, by decide +kernel, by decide +kernel⟩

theorem witness_DecodeEncode :
    (∀ i ∈ [Instr.saddI 1 2 0xFFFFFFF0, .ffma 255 .f32 .rn 254 253 252 251, .adot 5 true 15 14 15 15], i.wellFormed = true) ∧ encode (.saddI 1 2 0xFFFFFFF0) = .word 0x01000102FFFFFFF0 ∧
    encode (.sliL 5 0x123456789ABCDEF0) = .long 0x0501050000000000 0x123456789ABCDEF0 ∧ encode (.adot 0 false 0 1 4 3) = .abacus 0x80143000 ∧ decode 0x01000102FFFFFFF0 7 = some (.saddI 1 2 0xFFFFFFF0) ∧
    decodeAbacus 0x80143000 = some (.adot 0 false 0 1 4 3) := by decide +kernel

-- ## More clauses of the statements above

theorem witness_AllotmentTrap_lanes :
    (let s := State.reset
     s.sp.mode = .hyp ∧ s.me.allotFail s.sp.e (vopsOf (.rdsr 0 0x040 200)) = some 200 ∧ s.me.allotFail s.sp.e (vopsOf (.wrsr 0 0x032 200)) = some 0x1C8) ∧
    (let s := State.reset.modSp (fun x => { x with mode := .sup })
     s.sp.mode ≠ .user ∧ s.me.allotFail s.sp.e (vopsOf (.rdsr 0 0x030 200)) = some 200) := by decide +kernel

/-- A number between two powers of two is none. -/
theorem no_power (k n : Nat) (h : 2 ^ n < k) (g : k < 2 ^ (n + 1)) (j : Nat) : k ≠ 2 ^ j := by
  rintro rfl
  have a := (Nat.pow_lt_pow_iff_right (by omega)).mp h
  have b := (Nat.pow_lt_pow_iff_right (by omega)).mp g
  omega

/-- A NaN with and without 0 × ∞, a subnormal operand, and 3, 1.5 and 0.75, whose logarithms have g = 1, 0 and −1. -/
theorem witness_FloatFusedApprox_values :
    ((Ty.f32.decode 0x7F800001).isNan = true ∧ fIn .f32 false 0x7F800001 = .nan true ∧ fIn .f32 false 0 = .fin false 0 (-149)) ∧
    (Ty.f32.decode 0x40400000 = .fin false 0xC00000 (-22) ∧ Ty.f32.decode 0x3FC00000 = .fin false 0xC00000 (-23) ∧ Ty.f32.decode 0x3F400000 = .fin false 0xC00000 (-24) ∧
      Ty.f32.decode 0xC0400000 = .fin true 0xC00000 (-22) ∧ Ty.f32.decode 1 = .fin false 1 (-149)) ∧
    (∀ j, 0xC00000 ≠ 2 ^ j) ∧ ((-96 : Int) ≤ -22 ∧ ratOf false 0xC00000 (-22) < 512) ∧
    ((Nat.log2 0xC00000 : Int) + -24 = -1 ∧ (Nat.log2 0xC00000 : Int) + -23 = 0 ∧ (Nat.log2 0xC00000 : Int) + -22 = 1) :=
  ⟨by decide +kernel, by decide +kernel, no_power 0xC00000 23 (by decide) (by decide), by decide +kernel, by decide +kernel⟩

theorem witness_FloatCompareClass_values : (fIn .f32 true 0xFF800000 = .inf true ∧ fIn .f32 true 1 = .fin false 0 0 ∧ fIn .f32 true 0x7F800000 = .inf false) ∧
    (Ty.decode .f16 0x7C01 = .nan true ∧ Ty.decode .f16 0x7E00 = .nan false ∧ Ty.decode .bf16 0xFF80 = .inf true ∧ Ty.decode .f16 1 = .fin false 1 (-24)) ∧
    (Cc.eq = .eq ∨ Cc.eq = .ne) := by decide +kernel

theorem witness_FloatConvert_values :
    ((0x3C01 : Nat) < 2 ^ Ty.width .f16 ∧ fIn .f16 false 0x3C01 = .fin false 0x401 (-10) ∧ Ty.decode .f16 0xFC00 = .inf true ∧ Ty.decode .f16 0x7C01 = .nan true) ∧
    ((Ty.f16, Ty.f32) ∈ [(Ty.f16, Ty.f32), (.bf16, .f32), (.e4m3, .f16), (.e4m3, .bf16), (.e4m3, .f32), (.e5m2, .f16), (.e5m2, .f32), (.e5m2, .bf16), (.e2m1, .f32), (.e2m1, .f16),
      (.e2m1, .bf16), (.e2m1, .e4m3), (.e2m1, .e5m2)]) ∧
    (Ty.isInt .n8 = true ∧ [Ty.f32, .f16, .bf16, .e4m3, .e5m2, .e2m1].contains .e2m1 = true ∧ fIn .e2m1 true 0xF = .fin true 3 1 ∧ (Ty.decode .e4m3 0x7F).isNan = true) := by decide +kernel

/-- Lists of 32 values: with an infinity, of zeros, and one of 13 and ones, for which a 4-bit block needs its spare. -/
def blockOf (x : FVal) : List FVal := x :: List.replicate 31 (.fin false 1 0)

theorem witness_FloatBlocks_values :
    ((List.replicate 32 (0 : W32)).length = 32 ∧ (blockOf (.inf true)).length = 32 ∧ (∃ x ∈ blockOf (.inf true), ∀ n k e, x ≠ .fin n k e)) ∧
    (∀ x ∈ List.replicate 32 (FVal.fin true 0 3), ∃ n e, x = .fin n 0 e) ∧
    (blockOf (.fin true 13 0) = (List.range 32).map (fun j => FVal.fin (j == 0) (if j = 0 then 13 else 1) 0) ∧ (∃ j < 32, (if j = 0 then 13 else 1 : Nat) ≠ 0)) ∧
    (let b := (quantise .b4 .rn (List.replicate 32 0) (blockOf (.fin true 13 0))).1
     0 < b.S.toNat ∧ b.S.toNat < 254 ∧ b.P ≠ 0) ∧
    ((0xFE : Byte) ≠ 0xFF ∧ (Ty.e4m3.decode 0x7F).isNan = true ∧ Ty.e2m1.decode 9 = .fin true 1 (-1)) :=
  ⟨⟨by decide, by decide, .inf true, by simp [blockOf], nofun⟩, fun x h => ⟨true, 3, (List.mem_replicate.mp h).2⟩, ⟨by decide +kernel, 0, by decide⟩, by decide +kernel, by decide +kernel⟩

/-- A subnormal number under FZ, and operands of each kind for a quotient, a root and a comparison. -/
theorem witness_FloatValues_codes :
    (Ty.isArith .f32 = true ∧ Ty.decode .f32 1 = .fin false 1 (-149) ∧ (1 : Nat) ≠ 0 ∧ ratOf false 1 (-149) < (2 : Rat) ^ Ty.emin .f32) ∧
    (∀ n k e, Ty.decode .f32 0x7F800000 ≠ .fin n k e) ∧
    (fIn .f32 true 0xBF800000 = .fin true 0x800000 (-23) ∧ fIn .f32 true 0x40400000 = .fin false 0xC00000 (-22) ∧ fIn .f32 true 0x7FC00000 = .nan false ∧ fIn .f32 true 0xFF800000 = .inf true) :=
  ⟨by decide +kernel, by rw [show Ty.decode .f32 0x7F800000 = .inf false from by decide +kernel]; exact nofun, by decide +kernel⟩

theorem witness_AtomicValues_fadd : Ty.f32.decode ((0xFFFFFFFF3F800000 : W64).toNat % 2 ^ 32) = .fin false 0x800000 (-23) ∧ Ty.f32.decode ((0x80000000 : W64).toNat % 2 ^ 32) = .fin true 0 (-149) := by decide +kernel

theorem witness_RoundingModes_types : [Ty.f32, .f16, .bf16, .e5m2, .e4m3, .e2m1].contains .e2m1 = true ∧ Rnd.rn ≠ .rs ∧ (0x80000001 : Mask).has 31 = true ∧
    (roundAt .rz true 3 (-2) false 0 0).2 = true := by decide +kernel

/-- Lane 31 alone is past the partition's end. -/
theorem witness_ScratchAccess_some :
    (∀ l < 32, if (0x7FFFFFFF : Mask).has l then run1.scrLane 4 (0x2FF84 + BitVec.ofNat 64 (l * 4)) = .ok (.scr 0 (0x2FF84 + 4 * l))
      else ∃ o, run1.scrLane 4 (0x2FF84 + BitVec.ofNat 64 (l * 4)) = .fail o 27) ∧
    (∀ l < 32, if (0x7FFFFFFF : Mask).has l then run1.scrStoreLane 4 (0x2FF84 + BitVec.ofNat 64 (l * 4)) = .ok (.scr 0 (0x2FF84 + 4 * l))
      else ∃ o, run1.scrStoreLane 4 (0x2FF84 + BitVec.ofNat 64 (l * 4)) = .fail o 27) ∧
    (let s := run1.setS 4 0x2FF84
     ((0x7FFFFFFF : Mask).has 31 = false ∧ s.getS ((4 : BitVec 8).setWidth 6) + (0 : BitVec 12).signExtend 64 + BitVec.ofNat 64 (31 * Size.b4.bytes) = 0x30000 ∧
      Instr.wellFormed (.spld 0 .b4 true false 4 1 0) = true ∧ readyAll s [.spld 0 .b4 true false 4 1 0, .spst 0 .b4 true 4 4 0] = true ∧ s.active 0 ≠ 0 ∧
      s.full .ld = false ∧ s.full .st = false ∧ Instr.wellFormed (.spst 0 .b4 true 4 4 0) = true)) :=
  ⟨fun l hl => by
    split
    · revert l; decide +kernel
    · exact ⟨ordEntry, by revert l; decide +kernel⟩, fun l hl => by
    split
    · revert l; decide +kernel
    · exact ⟨ordEntry, by revert l; decide +kernel⟩, by decide +kernel⟩

/-- A memory hole. -/
def holeVa : W64 := 0x300000000000

theorem witness_SystemRegisterWrites_tcinv :
    (∀ n ∈ [0, 1, 2, 0xFFF6], let v := BitVec.ofNat 64 n; v.extractLsb' 16 47 = 0 ∧ v.toNat % 4 ≠ 3 ∧ v.toNat / 4 % 4 < 2) ∧ (mode1 .sup).sp.mode ≠ .user ∧ (mode1 .hyp).sp.mode ≠ .user := by decide +kernel

/-- The string of `back` in which every lane's record of the mode returned to carries a mark, and a register's old value is kept for it; `bit` says to which mode `hret` returns. -/
def marked1 (m : Mode) (bit : Bool) : State :=
  let r : Region := { (Lane.start 0 0).urec with mark := true, fpc := 0x100000003008, rentry := 0x100000002000, rblk := 0x100000001000, first := true, allot := 255, vstate := 128#256 }
  with_ { str1 with
    splits := str1.splits.set 0 { str1.splits[0] with mode := m }, staging := some { ent := { bytes := [], ctx := 0, launch := 0 }, begun := true, entered := true }
    kept := [{ reg := 7, mode := .user, lanes := 0xFFFFFFFF, v := Vector.replicate 32 9 }, { reg := 7, mode := .sup, lanes := 0xFFFFFFFF, v := Vector.replicate 32 8 }]
    lanes := Vector.replicate 32 { Lane.start 0 0 with sepc := 0x100000003008, hepc := 0x100000003008, hcause := if bit then 0x40000007 else 7, urec := r, srec := r } }

theorem witness_Returns_marked :
    ∀ x ∈ [(Mode.sup, false), (.hyp, false), (.hyp, true)], let s := marked1 x.1 x.2
      (s.sp.mode = x.1 ∧ s.sp.e = s.sp.m ∧ s.sp.m ≠ 0 ∧ s.sp.stack = []) ∧
      (∀ l < 32, ((s.me.lane l).hepc = 0x100000003008 ∧ (s.me.lane l).hcause.getLsbD 30 = x.2 ∧ (s.me.lane l).sepc = 0x100000003008) ∧
        ∀ r ∈ [(s.me.lane l).urec, (s.me.lane l).srec], r.mark = true ∧ r.fpc = 0x100000003008 ∧ r.rentry = 0x100000002000 ∧ r.rblk = 0x100000001000 ∧ r.vstate.getLsbD 7 = true ∧ r.first = true) ∧
      (∀ j : SplitId, j ≠ s.cur.split → (s.me.splits[j]).m = 0) ∧ s.me.park = [] ∧
      (∃ k ∈ s.me.kept, k.mode = .user ∧ k.reg = 7 ∧ k.lanes.has 31 = true ∧ ∀ k' ∈ s.me.kept, k'.mode = .user → k'.reg = k.reg → k' = k) ∧ s.me.staging.isSome = true := by
  intro x h
  simp only [List.mem_cons, List.not_mem_nil, or_false] at h
  obtain rfl | rfl | rfl := h <;> decide +kernel

/-- A held `seal` goes on with the operands it has read; a range refused at host memory; and one whose base is on another device is none of these. -/
theorem witness_SealsAndRanges_more :
    (let s := run1.modSp (fun x => { x with wait := .opnds 7 0x100000200000 0x200000 }); s.sp.wait = .opnds 7 0x100000200000 0x200000 ∧ ∀ n, s.sp.wait ≠ .held n) ∧
    (∀ n v w, run1.sp.wait ≠ .opnds n v w) ∧ (∀ n, run1.sp.wait ≠ .held n) ∧
    (let q := run1.pagesOf run1.who .store true true ((128 : W64).toNat / 4096 + 2) (0x100000002000 : W64).toNat ((0x100000002000 : W64).toNat + (128 : W64).toNat)
     let r := q.1.newRange .f32 .die cmrPages 0x100000002000 128
     (r.far = none ∧ r.lines ≠ [] ∧ q.1.rangeSleeper r = none) ∧
      q.1.rangeSleeper { range1 with ending := true } = none ∧ range1.far = none) ∧
    (let q := cm1.pagesOf cm1.who .store true true ((256 : W64).toNat / 4096 + 2) (0x100000002000 : W64).toNat ((0x100000002000 : W64).toNat + (256 : W64).toNat)
     let r := q.1.newRange .i32 .pkg cmrPages 0x100000002000 256
     q.2 = .ok cmrPages ∧ r.far = none ∧ q.1.matching r = none ∧ q.1.cmrRefused cmrPages r = true) :=
  ⟨⟨by decide +kernel, fun n => by rw [show (run1.modSp (fun x => { x with wait := .opnds 7 0x100000200000 0x200000 })).sp.wait = .opnds 7 0x100000200000 0x200000 from by decide +kernel]; nofun⟩,
    fun _ _ _ => by rw [show run1.sp.wait = .none from by decide +kernel]; nofun, fun _ => by rw [show run1.sp.wait = .none from by decide +kernel]; nofun, by decide +kernel, by decide +kernel⟩

theorem witness_QueueInstructions_held :
    (∀ q ∈ [[], [ent0]], (queue1 q).loadsBack = true) ∧
    (let s : State := { queue1 [ent0] with remote := (away false).remote.map (fun r => { r with uid := (queue1 [ent0]).me.uid }) }
     s.loadsBack = false ∧ (s.getS 3).toNat = 15 ∧ (s.bazaar[(15 : Fin 16)]).w0.getLsbD 63 = true ∧ (s.bazaar[(15 : Fin 16)]).w1.extractLsb' 52 12 = s.me.ctx ∧
      scrPeer s.cur.core (s.getS 1) = false ∧ s.scrCheck s.cur.core s.me.ctx 128 (s.getS 1) = .ok (.scr 0 0x100)) ∧
    (queue1 []).lineSealed (lineOf loc2) = false := by decide +kernel

/-- The conditions of R251, each where it is the first to fail: a bad geometry, registers past v255, past the allotment, one operand each at another core, outside scratchpad, misaligned and past the partition,
an output beyond the addresses, misaligned, at a hole and in no f32 range, and AL. -/
theorem witness_MatrixInstructions_traps :
    (∀ geo ∈ [0x1000000000000, 0x40000000, 0x800], let g : W64 := BitVec.ofNat 64 geo; g.extractLsb' 48 16 ≠ 0 ∨ (g.extractLsb' 24 24).toNat % 128 ≠ 0 ∨ (g.extractLsb' 8 16).toNat % 16 ≠ 0) ∧
    ((0x20 : W64).extractLsb' 0 8).toNat + 1 = 33 ∧ 256 < (1 : BitVec 8).toNat + (((31 : W64).extractLsb' 0 8).toNat + 1) * (Ty.width .f32 / 4) ∧
    ((mat1 0).me.allotFail (mat1 0).sp.e [Machine.vA 252 4] = none ∧ (with_ { str1 with allot := 200 }).me.allotFail (with_ { str1 with allot := 200 }).sp.e [Machine.vA 198 4] = some 0x1C8) ∧
    (let s := mat1 0
     let os : List ScrOp := [⟨0, 128, [(0, 512)]⟩, ⟨0x10, 16, [(0, 512)]⟩]
     (s.scrOpsFail [⟨0x1FFFFFE, 128, [(0, 512)]⟩] none = some (48, 0x1FFFFFE) ∧ s.scrOpsFail [⟨0x2000000, 128, [(0, 512)]⟩] none = some (26, 0x2000000) ∧
        s.scrOpsFail [⟨0x2FF01, 128, [(0, 512)]⟩] none = some (22, 0x2FF01) ∧ s.scrOpsFail [⟨0x2FF00, 128, [(0, 512)]⟩] none = some (27, 0x30000)) ∧
      ((∀ o ∈ os, scrPeer s.cur.core o.a = false) ∧ (∀ o ∈ os, scrRange o.a = true) ∧ (∀ o ∈ os, o.a.toNat % o.align = 0) ∧
        s.scrOpsFail os (some 0x1000000000000) = some (16, 0x1000000000000) ∧ s.scrOpsFail os (some 0x100000002001) = some (22, 0x100000002001) ∧ s.scrOpsFail os (some (s.getS 2)) = none) ∧
      (s.scrOpsFail (⟨0x20080, 128, [(0, planeBytes .b8 false)]⟩ :: (if metaBytes .b8 false = 0 then [] else [⟨0, 16, [(0, metaBytes .b8 false)]⟩])) none).isSome = true) ∧
    ((run1.outChunks .pkg [holeVa]).2 = (.fail ordPhys 21, holeVa) ∧ (run1.check run1.who .contrib 1 holeVa 128).2 = .fail ordPhys 21) ∧
    ((cm1.check cm1.who .contrib 1 0x100000002000 128).2 = .ok (accAt loc2 128) ∧ (accAt loc2 128).lines = [lineOf loc2] ∧ (accAt loc2 128).remote = false ∧ (accAt loc2 128).reg = none ∧
      (accAt loc2 128).sc = false ∧ cm1.poisoned (lineOf loc2) = false ∧ run1.rangeOf (lineOf loc2) = none ∧ cm1.rangeOf (lineOf loc2) = some range1 ∧ range1.fmt ≠ .f32 ∧ (cm1.outChunks .pkg [0x100000002000]).2 = (.fail ordRange 49, 0x100000002000)) ∧
    (let s := mat2.modMe (fun t => { t with al := true })
     s.me.al = true ∧ s.scrOpsFail [⟨s.getS 6, 16, [(0, 512)]⟩] (some (s.getS 2)) = none ∧ (s.outChunks .pkg chunks1).2 = (.ok (lines4.map (fun l => (l, []))), 0) ∧ s.Checked (s.outChunks .pkg chunks1).1) :=
  ⟨by decide, by decide, by decide, by decide +kernel, by decide +kernel, by decide +kernel, by decide +kernel,
    by decide +kernel, by decide +kernel, by decide +kernel, (State.outChunks_side _ _ _).cur, (State.outChunks_side _ _ _).me⟩

/-- All 32 lanes at once would bring BKN past 4,095. -/
theorem witness_EngineInstructions_full :
    (bank1.vecReady (.bcmd 0 .sys 2 2) ∧ bank1.active 0 ≠ 0) ∧ (∀ l ∈ (bank1.active 0).lanes, bankQ.bankLane (.mem loc2) .sys ((bankQ.getV 2 l).setWidth 64) = (bankQ, .ok bankCmd1 [bkTr, plTr])) ∧
    ¬(bank1.me.bkn.toNat + (bank1.active 0).lanes.length ≤ 4095) ∧
    (let s := cpy1 1 15 0; let q := s.barCheck s.who false (s.getS 2); s.me.count .cp = 15 ∧ q.2 = .ok (.mem loc2) ∧ s.Checked q.1) := by
  refine ⟨⟨vecReady_of bank1 [.bcmd 0 .sys 2 2] (by decide +kernel) _ (by simp), by decide +kernel⟩, fun l hl => ?_, by decide +kernel, by decide +kernel, by decide +kernel,
    ⟨(State.barCheck_side _ _ _ _).cur, (State.barCheck_side _ _ _ _).me⟩⟩
  have e : ∀ l < 32, bankQ.getV 2 l = bankQ.getV 2 31 := by decide +kernel
  rw [e l (List.mem_range.mp (List.mem_filter.mp hl).1)]
  exact bank1_lane

/-- The record of a view whose plane is at a hole. -/
def recE : State := rec1 ((recMem 0x10).map (fun c => if c.1 = loc2 + 37 then (c.1, 0x30) else c))

theorem witness_ViewAndCollectiveIssue_plane :
    recE.RecordAt (recE.getS 2) 128 recE ((accAt loc2 128).locs.map (recE.look recE.cur.core)) ∧ recE.Checked recE ∧
    (let s := recE;
      s.views[(0 : Fin 64)] = none ∧ recordBad (recWords s) = false ∧ (s.acquire .pkg).viewPages false [(recView s).areas.1] = (s.acquire .pkg, .ok recPages.1) ∧
      (s.acquire .pkg).viewPages true ((recView s).areas.2.1 ++ (recView s).areas.2.2.1 ++ [(recView s).areas.2.2.2]) = (s.acquire .pkg, .fail 0x300000004000 21) ∧ s.Checked (s.acquire .pkg)) := by
  have u : (recE.acquire .pkg).who.untranslated = true := by decide +kernel
  exact ⟨rec_at recE 128 (by decide +kernel) ⟨rfl, rfl, rfl⟩ rfl, ⟨rfl, rfl⟩, by decide +kernel, by decide +kernel, Prod.ext (viewPages_same _ _ _ u) (by decide +kernel), Prod.ext (viewPages_same _ _ _ u) (by decide +kernel), ⟨rfl, rfl⟩⟩

/-- A page of device 5 at 0x400000, and a string in user mode with the record of a collective at 0x202000 whose barrier lies there; the access to it that the fabric has answered so. -/
def farTr : Tr := { plTr with base := 0x400000, pte := 0xC002880000000718 }
def collFar (r : List Remote) : State :=
  let s : State := with_ { str1 with ptroot := 0x100000010001, sreg := str1.sreg.set 2 0x202000 }
  { s.modSp (fun x => { x with mode := .user }) with
    tlb := [plTr, farTr], mem := [(41, 0x40), (42, 0x20), (49, 0x20), (50, 0x40)].map (fun c => (loc2 + c.1, c.2)), l1 := [{ core := 0, code := false, line := loc2 / 128, exp := none }]
    routes := [{ lo := 5, hi := 5, ports := 1 }], cport := State.reset.cport.set 0 0x18, remote := r }
/-- An answer of the fabric to it. -/
def farBar (code : Nat) : Remote :=
  { core := 0, slot := 0, uid := 0, lanes := 0, va := 0x402000, loc := 6 * 2 ^ 48 + 0x100000002000, since := 0, wr := true, sc := false, code := false, fault := some code }

/-- A record behind a cached translation is read at once. -/
theorem record_hit (s : State) (va : W64) (n : Nat) (t : Tr) (a : Acc)
    (h : s.getS 2 = va ∧ s.me.launch = none ∧ s.tlbFind s.who .load va = some t ∧ s.tlbFind s.who .load (va + BitVec.ofNat 64 (n - 1)) = some t ∧ (t.isIn (s.who.first .load) || s.who.first .load == none) = true ∧
      (s.check s.who .load n va n).2 = .ok a ∧ a.reg = none ∧ a.remote = false ∧ a.sc = false ∧
      (∀ l ∈ a.lines, s.rangeOf l = none ∧ lineRemote l = false ∧ (s.lineKind a l).llcOnly = false ∧ (s.lineKind a l).noL1 = false ∧ s.l1Hit s.cur.core false l = true) ∧ (∀ p ∈ a.locs, s.viewAt p = none))
    (hd : s.deadAgents = []) (hr : s.remoteDone = s) : s.RecordAt (s.getS 2) n s (a.locs.map (s.look s.cur.core)) := by
  obtain ⟨f1, fl, f2, f3, f4, f5, f6, f7, f8, f9, f10⟩ := h
  have ld : s.chkLoad s.sp.m n va n false = (s, .go a [] false) := by
    simp [State.chkLoad, f5, f6, f7, f8, check_hit _ _ _ _ _ _ _ _ f2 f4 f3 f4, countOnce_same _ _ _ _ fl, fl, insertLow_same, readLines_same _ _ _ _ hd f9, viewLocs_same _ _ _ _ f10]
  rw [f1]
  intro k
  simp [State.recordRead, ld, State.oneAccess, State.readLanes, State.readGo, hr, f6]

/-- A barrier on another device, and what is asked of it first. -/
theorem bar_far (s : State) (va : W64) (p : Place) (x : EAns Unit) (h : (s.barCheck s.who false va).2 = .ok p) (hx : ((s.barCheck s.who false va).1.engRemote s.cur.core true va (placeLoc p)).2 = x) :
    ∃ q, s.barCheck s.who false va = (q, .ok p) ∧ s.Checked q ∧ ∃ v, s.Checked v ∧ q.engRemote s.cur.core true va (placeLoc p) = (v, x) := by
  have c : s.Checked (s.barCheck s.who false va).1 := ⟨(s.barCheck_side _ _ _).cur, (s.barCheck_side _ _ _).me⟩
  have k (q : State) (c : s.Checked q) : s.Checked (q.engRemote s.cur.core true va (placeLoc p)).1 := by
    unfold State.engRemote
    dsimp only
    repeat' split
    all_goals exact ⟨c.1, c.2⟩
  exact ⟨_, Prod.ext rfl h, c, _, k _ c, Prod.ext rfl hx⟩

/-- The record's line, and the line of its area, behind those translations. -/
def farAcc (l n : Nat) : Acc := { accAt l n with trs := [plTr] }

theorem witness_ViewAndCollectiveIssue_far :
    ∀ r ∈ [[], [farBar 24]], let s := collFar r; let w := wordAt ((farAcc loc2 64).locs.map (s.look s.cur.core))
      (s.RecordAt (s.getS 2) 64 s ((farAcc loc2 64).locs.map (s.look s.cur.core)) ∧ collBad w = false) ∧ (s.check s.who .hint 1 (va57 (w 5)) 1).2 = .ok (farAcc 0x100 1) ∧
      (∃ q, s.barCheck s.who false (va57 (w 6)) = (q, .ok (.mem (farBar 0).loc)) ∧ s.Checked q ∧
        ∃ v, s.Checked v ∧ q.engRemote s.cur.core true (va57 (w 6)) (farBar 0).loc = (v, if r = [] then (.wait : EAns Unit) else .err 24)) := by
  intro r hr
  have hd : (collFar r).remoteDone = collFar r ∧ (collFar r).deadAgents = [] := by
    simp only [List.mem_cons, List.not_mem_nil, or_false] at hr
    obtain rfl | rfl := hr <;> exact ⟨rfl, rfl⟩
  have f : ∀ r ∈ [[], [farBar 24]], let s := collFar r; let a := farAcc loc2 64
      s.getS 2 = 0x202000 ∧ s.me.launch = none ∧ s.tlbFind s.who .load 0x202000 = some plTr ∧ s.tlbFind s.who .load (0x202000 + BitVec.ofNat 64 (64 - 1)) = some plTr ∧ (plTr.isIn (s.who.first .load) || s.who.first .load == none) = true ∧
      (s.check s.who .load 64 0x202000 64).2 = .ok a ∧ a.reg = none ∧ a.remote = false ∧ a.sc = false ∧
      (∀ l ∈ a.lines, s.rangeOf l = none ∧ lineRemote l = false ∧ (s.lineKind a l).llcOnly = false ∧ (s.lineKind a l).noL1 = false ∧ s.l1Hit s.cur.core false l = true) ∧ (∀ p ∈ a.locs, s.viewAt p = none) := by
    intro r hr
    simp only [List.mem_cons, List.not_mem_nil, or_false] at hr
    obtain rfl | rfl := hr <;> decide +kernel
  have g : ∀ r ∈ [[], [farBar 24]], let s := collFar r; let w := wordAt ((farAcc loc2 64).locs.map (s.look s.cur.core))
      collBad w = false ∧ (s.check s.who .hint 1 (va57 (w 5)) 1).2 = .ok (farAcc 0x100 1) ∧ (s.barCheck s.who false (va57 (w 6))).2 = .ok (.mem (farBar 0).loc) ∧
        ((s.barCheck s.who false (va57 (w 6))).1.engRemote s.cur.core true (va57 (w 6)) (placeLoc (.mem (farBar 0).loc))).2 = if r = [] then (.wait : EAns Unit) else .err 24 := by
    intro r hr
    simp only [List.mem_cons, List.not_mem_nil, or_false] at hr
    obtain rfl | rfl := hr <;> decide +kernel
  obtain ⟨g1, g2, g3, g4⟩ := g r hr
  exact ⟨⟨record_hit _ 0x202000 64 plTr (farAcc loc2 64) (f r hr) hd.2 hd.1, g1⟩, g2, bar_far _ _ _ _ g3 g4⟩

/-- A read of n bytes within one of m. -/
theorem bytesAt_peekN (s : State) (a m o n : Nat) (h : o + n ≤ m) : bytesAt (s.peekN a m) o n = s.peekN (a + o) n := by
  have e : s.peekN a m = s.peekN a o ++ (s.peekN (a + o) n ++ s.peekN (a + o + n) (m - o - n)) := by
    rw [peekN_append, peekN_append]
    congr 1
    omega
  have l (x k : Nat) : (s.peekN x k).length = k := by simp [State.peekN]
  rw [bytesAt, e, List.drop_left' (l ..), List.take_left' (l ..)]

/-- The abacus's output line while `cmr` takes it. -/
theorem witness_AbacusInstructions_starting :
    let s : State := { ab1 true with ranges := (ab1 true).ranges.set 255 (some { base := 0x3000, len := 128, lines := [0x60], fmt := .f32, scope := .pkg, starting := true, ending := false, far := none }) }
    (s.abAt s.curAb.1 s.curAb.2).run = some abRun1 ∧ (abRun1.q[(3 : Fin 16)]).toNat = 1 ∧
      (s.rangeOf (lineOf (areaLoc abRun1.cmd.olines abRun1.cmd.ooff (4 * ((abRun1.q[(2 : Fin 16)]).toNat + 0))))).map (·.starting) = some true := by decide +kernel

/-- The state whose split counts no starvation any more. -/
def counted0 (s : State) : State := s.modSp (fun y => { y with starve := 0 })
/-- The array's owner another string, and all 16 places of its queue taken. -/
def entry5 : State := (entry3 (some (15, 99))).modCore 0 (fun x => { x with arr := { x.arr with waiters := List.replicate 16 (98, 1) } })
/-- The header's line asked for by another agent first. -/
def entry6 : State := { entry1 true with lineq := [(0, 5, 999)] }
/-- A user at ENTRY of a task, with a header that has R and X, its array free. -/
def entry7 : State := { entry4 with mem := [(1, 0x03), (5, 0x40), (6, 0xFF), (7, 0xFF)] }

theorem witness_IssueEvents_fetch :
    (∀ s ∈ [entry1 true, entry1 false, entry2, entry3 none, entry3 (some (15, 99)), entry4, entry5, entry7], s.sp.enter = true ∧ s.sp.m ≠ 0 ∧ s.sp.stack = [] ∧ s.me.single = true ∧
      ((counted0 s).fetch64 (counted0 s).who s.sp.pc).2 = (s.fetch64 s.who s.sp.pc).2 ∧ (match ((counted0 s).checkRead (counted0 s).who .fetch true 1 s.sp.pc 8).2 with | .ok a => a.reg.isNone | _ => true) = true) ∧
    (let q := (counted0 entry5).fetch64 (counted0 entry5).who entry5.sp.pc
     q.2 = .ok 0xFFFF400000000300 ∧ q.1.core.arr.owner = some (15, 99) ∧ q.1.core.arr.waiters.length = 16) ∧
    (let q := (counted0 entry6).fetch64 (counted0 entry6).who entry6.sp.pc
     (entry6.sp.enter = true ∧ entry6.sp.m ≠ 0 ∧ entry6.sp.stack = [] ∧ entry6.me.single = true) ∧ q.2 = .hold ∧ q.1.cyc = entry6.cyc ∧ q.1.agenda = entry6.agenda ∧ entry6.agenda.head? ≠ some .blockEntry) := by
  refine ⟨fun s hs => ?_, by decide +kernel, by decide +kernel⟩
  simp only [List.mem_cons, List.not_mem_nil, or_false] at hs
  obtain rfl | rfl | rfl | rfl | rfl | rfl | rfl | rfl := hs <;> decide +kernel

/-- Core 0 with claims outside its queue: of the boot string's split 0, or of none. -/
def array2 (w : List (Nat × Mask)) : State :=
  core1 (fun x => { x with arr := { x.arr with owner := some (15, 99), waiters := w },
                           strs := ((Vector.replicate 16 Str.empty).set 0 { str1 with splits := str1.splits.set 0 { str1.splits[0] with wait := .array } }).set 1 { str1 with uid := 2, splits := str1.splits.set 0 { str1.splits[0] with wait := .array } } })

theorem witness_IssueEvents_claims :
    (let s := array2 [(2, 1)]
     (s.cores[(0 : CoreId)]).arrayRoom = true ∧ (s.strAt 0 0).present = true ∧ (s.strAt 0 1).present = true ∧ ((s.strAt 0 0).splits[(0 : Fin 4)]).wait = .array ∧ (∀ w ∈ (s.cores[(0 : CoreId)]).arr.waiters, w.1 ≠ (s.strAt 0 0).uid) ∧
      ∃ w ∈ (s.cores[(0 : CoreId)]).arr.waiters, w.1 = (s.strAt 0 1).uid ∧ w.2 &&& ((s.strAt 0 1).splits[(0 : Fin 4)]).m ≠ 0) ∧
    (let s := array2 (List.replicate 16 (1, 1) ++ [(2, 1)]); (s.cores[(0 : CoreId)]).arrayRoom = false ∧ (s.cores[(0 : CoreId)]).arr.owner = some (15, 99)) ∧
    (array1.cores[(0 : CoreId)]).arrayRoom = false := by decide +kernel

/-- Core 0 probing core 2, with core 1 still to probe, which holds a manifest or none. -/
def steal4 (other : Bool) : State := (steal1 false other 0).modCore 0 (fun x => { x with probe := some 2, probes := [1] })

theorem witness_IssueEvents_probes :
    ∀ b ∈ [true, false], let s := steal4 b; let s1 := s.modCore 0 (fun y => { y with probe := none, probes := [] })
      (s.cores[(0 : CoreId)]).freeSlot = some 1 ∧ s1.mayStart 0 = true ∧ s1.takeable 0 2 = [] ∧ (s.cores[(0 : CoreId)]).probes = [1] ∧ s1.takeable 0 1 = (if b then [ent0] else []) ∧ s1.queueFor 0 = none := by decide +kernel

/-- `woken1` with an image of context 0 in host memory, the string's record holding a split with lane 0 and a value for v0. -/
def woken2 (image : Bool) : State :=
  { woken1 with ctab := if image then woken1.ctab.set 63 (((Vector.replicate 4 0).set 0 0x9800000000000000).set 1 0x400001000000) else woken1.ctab
                imap := if image then [(0, 0, 0)] else []
                mem := [(0x400000000000 + 0x8267, 1), (0x400000000000 + 0x8308, 1)] }

theorem woken2_calm (b : Bool) : Calm (woken2 b) := Calm.reset.of rfl (fun _ h => nomatch h) (fun _ h => h)

theorem woken2_first (b : Bool) : (woken2 b).firstWoken 0 = some { str := strP, woken := true, at_ := 0 } := by cases b <;> rfl

theorem woken2_facts (b : Bool) : (((woken2 b).strAt 0 0).present = false ∧ (woken2 b).mayStart 0 = true ∧ (woken2 b).faulted strP.ctx = false ∧
      (((woken2 b).launches[(63 : Fin 64)]).ptroot = 0 ∧ ((woken2 b).launches[(63 : Fin 64)]).pool + 43008 * 0 = 0x400000000000)) ∧ (woken2 b).imageBlock 0 strP.ctx = (if b then some 0x400001001000 else none) ∧
      (le32 ((woken2 b).peekN (0x400000000000 + (0x8300 + 24 * 0 + 8)) 4) = 1 ∧ leNat ((woken2 b).peekN (0x400000000000 + (0x8300 + 24 * 0 + 16)) 2) / 4 % 8 = 0) ∧
      (BitVec.ofNat 256 (leNat ((woken2 b).peekN (0x400000000000 + 0x8267) 32))).getLsbD 0 = true ∧ ∀ m < 32, m ≠ 0 → le32 ((woken2 b).peekN (0x400000000000 + (0x8300 + 24 * m + 8)) 4) = 0 := by
  cases b <;> decide +kernel

/-- The two parts of a record written to an image in a calm machine's host memory. -/
theorem parts_written (s : State) (h : Calm s) (a b : List Byte) (ha : a.length = 34816) (hb : b.length = 8192) :
    ∃ z tk, s.putParts (whoOf 0 0 .hyp) 0x400001001000 [(34816 * (0 : SlotId).val, a), (0x88000 + 8192 * (0 : SlotId).val, b)] = (z, tk) ∧ tk.waits = false ∧ tk.err = 0 := by
  have hh : hostBase = 0x400000000000 := rfl
  have h0 : (0 : SlotId).val = 0 := rfl
  obtain ⟨-, -, w, e⟩ := h.putParts (whoOf 0 0 .hyp) 0x400001001000 [(34816 * (0 : SlotId).val, a), (0x88000 + 8192 * (0 : SlotId).val, b)] rfl (by omega) (fun p hp => by
    simp only [List.mem_cons, List.not_mem_nil, or_false] at hp
    obtain rfl | rfl := hp
    · exact ⟨by dsimp only; omega, by dsimp only; omega⟩
    · exact ⟨by dsimp only; omega, by dsimp only; omega⟩)
  exact pair_ok _ w e

/-- The record of a spilled string read from a calm machine's host memory, and written to an image there. -/
theorem record_read (s : State) (h : Calm s) (x : Option Nat) (hx : s.imageBlock 0 strP.ctx = x) :
    ∃ q tk, s.getAll (whoOf 0 0 .user) 0x400000000000 43008 = (q, tk) ∧ tk.waits = false ∧ tk.err = 0 ∧ q.imageBlock 0 strP.ctx = x ∧
      (∃ z tk', q.putParts (whoOf 0 0 .hyp) 0x400001001000 [(34816 * (0 : SlotId).val, (tk.data.map (·.2)).take 34816), (0x88000 + 8192 * (0 : SlotId).val, (tk.data.map (·.2)).drop 34816)] = (z, tk') ∧
          tk'.waits = false ∧ tk'.err = 0) ∧ ∀ o n, o + n ≤ 34816 → bytesAt ((tk.data.map (·.2)).take 34816) o n = s.peekN (0x400000000000 + o) n := by
  have hb : hostBase = 0x400000000000 := rfl
  obtain ⟨c1, m, w, e⟩ := h.getAll (whoOf 0 0 .user) 0x400000000000 43008 rfl (by omega) (by omega) (by omega)
  obtain ⟨-, d⟩ := h.getAll_bytes (whoOf 0 0 .user) 0x400000000000 43008 rfl (by omega) (by omega) (by omega)
  have area (o n : Nat) (h : o + n ≤ 34816) : bytesAt ((s.peekN 0x400000000000 43008).take 34816) o n = s.peekN (0x400000000000 + o) n := by
    rw [← bytesAt_peekN s 0x400000000000 34816 o n h, show (43008 : Nat) = 34816 + 8192 from rfl, ← peekN_append, List.take_left' (by simp [State.peekN])]
  have len : (s.peekN 0x400000000000 43008).length = 43008 := by simp only [State.peekN, List.length_map, List.length_range]
  rw [← d] at area len
  generalize s.getAll (whoOf 0 0 .user) 0x400000000000 43008 = p at c1 m w e d area len
  exact ⟨p.1, p.2, (Prod.eta p).symm, w, e, (m.imageBlock 0 strP.ctx).trans hx, parts_written _ c1 _ _ (by rw [List.length_take, len]; omega) (by rw [List.length_drop, len]), area⟩

theorem witness_IssueEvents_image :
    ∀ b : Bool, (woken2 b).firstWoken 0 = some { str := strP, woken := true, at_ := 0 } ∧ ((woken2 b).strAt 0 0).present = false ∧ (woken2 b).mayStart 0 = true ∧ (woken2 b).faulted strP.ctx = false ∧
      (((woken2 b).launches[(63 : Fin 64)]).ptroot = 0 ∧ ((woken2 b).launches[(63 : Fin 64)]).pool + 43008 * 0 = 0x400000000000) ∧
      ∃ q tk, (woken2 b).getAll (whoOf 0 0 .user) 0x400000000000 43008 = (q, tk) ∧ tk.waits = false ∧ tk.err = 0 ∧ q.imageBlock 0 strP.ctx = (if b then some 0x400001001000 else none) ∧
        (∃ z tk', q.putParts (whoOf 0 0 .hyp) 0x400001001000 [(34816 * (0 : SlotId).val, (tk.data.map (·.2)).take 34816), (0x88000 + 8192 * (0 : SlotId).val, (tk.data.map (·.2)).drop 34816)] = (z, tk') ∧
          tk'.waits = false ∧ tk'.err = 0) ∧
        (let area := (tk.data.map (·.2)).take 34816
         (le32 (bytesAt area (0x8300 + 24 * 0 + 8) 4) = 1 ∧ numAt area (0x8300 + 24 * 0 + 16) 2 / 4 % 8 = 0) ∧ (BitVec.ofNat 256 (numAt area 0x8267 32)).getLsbD 0 = true ∧
          ∀ m < 32, m ≠ 0 → le32 (bytesAt area (0x8300 + 24 * m + 8) 4) = 0) := by
  intro b
  obtain ⟨f1, f2, f3, f4, f5⟩ := woken2_facts b
  obtain ⟨q, tk, h1, h2, h3, h4, h5, area⟩ := record_read (woken2 b) (woken2_calm b) _ f2
  refine ⟨woken2_first b, f1.1, f1.2.1, f1.2.2.1, f1.2.2.2, q, tk, h1, h2, h3, h4, h5, ?_⟩
  dsimp only [numAt]
  refine ⟨⟨by rw [area _ _ (by omega)]; exact f3.1, by rw [area _ _ (by omega)]; exact f3.2⟩, by rw [area _ _ (by omega)]; exact f4, fun n hn h => by rw [area _ _ (by omega)]; exact f5 n hn h⟩

/-- The string of `mode1` with splits in all its other slots. -/
def noslot1 (m : Mode) : State :=
  with_ { str1 with splits := (Vector.replicate 4 { Split.boot with m := 1, e := 1 }).set 0 { str1.splits[0] with mode := m, m := 0xFFFFFFFE, e := 0xFFFFFFFE } }

/-- Lane 31 traps alone to either destination, where a slot is free and where none is; lanes 30 and 31 go to both, slots 1 and 2 being free. -/
theorem witness_TrapEntry_lanes :
    (∀ s ∈ [mode1 .user, mode1 .sup, noslot1 .user, noslot1 .sup], ∀ ts ∈ [[(⟨31, 63, 7⟩ : Trap)], [⟨31, 64, 7⟩], [⟨31, 63, 7⟩, ⟨30, 64, 8⟩]],
      (s.sp.e ≠ 0 ∧ s.sp.e = s.sp.m ∧ s.sp.stack = [] ∧ s.sp.mode ≠ .hyp) ∧ ts ≠ [] ∧ (ts.map (·.lane)).Nodup ∧ (∀ r ∈ ts, r.lane < 32 ∧ s.sp.m.has r.lane = true ∧ r.code < 256 ∧ r.code ≠ 10 ∧ r.code ≠ 11) ∧
        s.sp.m &&& ~~~(Mask.ofLanes (ts.map (·.lane))) ≠ 0) ∧
    ((mode1 .user).me.freeSlot = some 1 ∧ (noslot1 .user).me.freeSlot = none) ∧
    ((mode1 .user).sp.mode = .user ∧ (mode1 .user).core.hdeleg.getLsbD 63 = true ∧ (noslot1 .user).core.hdeleg.getLsbD 63 = true ∧ ¬(64 : Nat) < 64) ∧
    ((∀ i : SplitId, ((mode1 .user).me.splits[i]).m = 0 → 1 ≤ i) ∧ (∀ i : SplitId, ((mode1 .user).me.splits[i]).m = 0 → i ≠ 1 → 2 ≤ i) ∧ ((mode1 .user).me.splits[(1 : SplitId)]).m = 0 ∧ ((mode1 .user).me.splits[(2 : SplitId)]).m = 0) := by
  refine ⟨fun s hs => ?_, by decide +kernel, by decide +kernel, by decide +kernel⟩
  simp only [List.mem_cons, List.not_mem_nil, or_false] at hs
  obtain rfl | rfl | rfl | rfl := hs <;> decide +kernel

theorem room_far (s : State) (l : Nat) : s.l2Room 9 l = some s := by
  unfold State.l2Room
  exact if_pos (Bool.or_eq_true_iff.mpr (.inr rfl))

/-- A set of an L2 in which nothing stands has room. -/
theorem room_empty (s : State) (a : AgentId) (l : Nat) (h : s.l2 = [] ∧ s.partials = []) : s.l2Room a l = some s := by
  have n (y : Nat) : setOf 16 2 32768 y ([] : List Nat) = [] := rfl
  simp [State.l2Room, h.1, h.2, n]

/-- The clauses about requests: room, the agent's turn or another's before it, a master line, a line in a range and a plane line. -/
theorem witness_MemoryEvents_turn :
    (∀ d ∈ [none, some (DState.sh 0x3FE), some (.ex 9)], (cached [] d).noCopy lineA = false ∧ ∀ a : AgentId, (cached [] d).l2Room a lineA = some (cached [] d)) ∧
    (let s : State := { State.reset with lineq := [(lineA, 9, 7)] }
     (∃ x, s.lineq.find? (fun x => x.1 == lineA) = some x ∧ x.2.1 = 9 ∧ x.2.1 ≠ 0) ∧ s.rangeOf lineA = none ∧ s.poisoned lineA = false ∧ s.homeAsleep lineA = false ∧ s.noCopy lineA = false ∧ s.l2Room 0 lineA = some s) ∧
    (let s := viewed true false []
     s.isMaster 0x18000000 = true ∧ s.rangeOf 0x18000000 = none ∧ s.noCopy 0x18000000 = false ∧ s.poisoned 0x18000000 = false ∧ s.lineq = [] ∧ s.homeTake 0x18000000 = (s, .ok) ∧ s.l2Room 9 0x18000000 = some s ∧
       s.isPlane 2 = true ∧ s.noCopy 2 = true ∧ s.rangeOf 2 = none) ∧
    ((ranged []).rangeOf lineA).isSome = true ∧
    (let s : State := { State.reset with pz := [lineA] }; s.noCopy lineA = false ∧ s.l2Room 9 lineA = some s ∧ s.isMaster lineA = false) ∧
    (∀ l ∈ [leasedA, heldBy 9 .shared], (cached [l] (some (.sh 0x200))).noCopy lineA = false ∧ (cached [l] (some (.sh 0x200))).isMaster lineA = false ∧ (cached [l] (some (.sh 0x200))).lineq = [] ∧ (cached [l] (some (.sh 0x200))).l2Room 9 lineA = some (cached [l] (some (.sh 0x200)))) := by
  refine ⟨fun d hd => ?_, ⟨by decide +kernel, by decide +kernel, by decide +kernel, by decide +kernel, by decide +kernel, room_empty _ _ _ ⟨rfl, rfl⟩⟩, ⟨by decide +kernel, by decide +kernel, by decide +kernel, by decide +kernel, rfl,
    Fresh.homeTake ⟨rfl, rfl, rfl, rfl, rfl, rfl, rfl⟩ _, room_empty _ _ _ ⟨rfl, rfl⟩, by decide +kernel, by decide +kernel, by decide +kernel⟩, by decide +kernel, ⟨by decide +kernel, room_empty _ _ _ ⟨rfl, rfl⟩, by decide +kernel⟩, fun l hl => ?_⟩
  · have n : ∀ d ∈ [none, some (DState.sh 0x3FE), some (.ex 9)], (cached [] d).noCopy lineA = false := by decide +kernel
    exact ⟨n d hd, fun a => room_empty _ _ _ ⟨rfl, rfl⟩⟩
  · have n : ∀ l ∈ [leasedA, heldBy 9 .shared], (cached [l] (some (.sh 0x200))).noCopy lineA = false ∧ (cached [l] (some (.sh 0x200))).isMaster lineA = false := by decide +kernel
    exact ⟨(n l hl).1, (n l hl).2, rfl, room_far _ _⟩

/-- Requests that wait for the refresh of their bank, alone or beside another, one of which hits an open row; a host line under a lease that the snoop waits for; the waiting store of all 128 bytes. -/
def resting1 (n : Nat) : State := { queued n with refreshing := [(11, 63, 31, 5000)] }
def queued2 : State :=
  { State.reset with pchq := [req1, { req1 with bank := 30, row := 6, at_ := 1 }, { req1 with bank := 29, row := 7, at_ := 2 }], refreshing := [(11, 63, 31, 5000)], rows := [(11, 63, 29, 7)] }
def leasedHost : State := { State.reset with l2 := [{ agent := 7, line := hostLine, st := .shared, lease := 1, low := false }] }

theorem witness_MemoryEvents_waits :
    (∀ n ∈ [1023, 1024], let s := resting1 n; (∃ x ∈ s.refreshing, x.1 = req1.die ∧ x.2.1 = req1.pch ∧ x.2.2.1 = req1.bank ∧ s.cyc < x.2.2.2) ∧ s.agedReq 11 63 = (if n = 1024 then some req1 else none) ∧ s.pchQueue 11 63 = [req1]) ∧
    (queued2.agedReq 11 63 = none ∧ queued2.pchQueue 11 63 = queued2.pchq ∧ (queued2.rows.contains (11, 63, 29, 7)) = true) ∧
    (queued 1024).refreshing = [] ∧
    (let e : L2Line := { agent := 7, line := hostLine, st := .shared, lease := 1, low := false }
     e ∈ leasedHost.l2 ∧ e.line = hostLine ∧ e.agent.val < 8 ∧ leasedHost.mayGiveUp e = false ∧ lineHost hostLine = true ∧ leasedHost.naeshDown = false ∧ leasedHost.leaseOn hostLine ≠ 0) ∧
    ((∀ l, homeOf l = some 11 → (11 : DieId) ∉ State.reset.deadDies) ∧ (10 : DieId) ∉ State.reset.hot) :=
  ⟨by decide +kernel, by decide +kernel, rfl, by decide +kernel, fun _ _ h => (nomatch h), nofun⟩

/-- A collective of one block, its operands and status on the host and its area in memory; the area's header has the record's shape, or not. -/
def coll2 (sum : Bool) (stage : Nat) : Coll :=
  { coll1 sum stage false with words := ((((((Vector.replicate 8 0).set 1 0x400000003000).set 2 0x400000004000).set 3 0x400000005000).set 4 0x400000006000).set 5 0x100000002000).set 7 0x400000007000 }
def gathered (x : Coll) (same : Bool) (seen : Byte) : State :=
  { colls1 x with mem := [(loc2 + 7, seen), (loc2 + 0x27, seen), (loc2 + 0x47, seen)].filter (fun c => c.2 != 0) ++ (if same then [] else [(loc2 + 0x60, 1)]) }

/-- What is read, written and arrived on, one after the other. -/
def reads1 (s : State) (x : Coll) (as : List (Nat × Nat)) : State × Bool :=
  as.foldl (fun r a => let q := r.1.getAll x.who a.1 a.2; (q.1, r.2 && !q.2.waits && q.2.err == 0)) (s, true)
def landsAt (s : State) (x : Coll) (at_ : Nat) (bs : List Byte) (off : Nat) : Bool :=
  let u := s.putAll x.who (0x100000002000 + at_) bs
  let v := u.1.barCheck x.who false (BitVec.ofNat 64 (0x100000002000 + off))
  !u.2.waits && u.2.err == 0 && decide (v.2 = .ok (.mem (loc2 + off))) && v.1.barReady (.mem (loc2 + off)) && !v.1.barDead (.mem (loc2 + off)) &&
    (let z := v.1.barTake (.mem (loc2 + off)); Memory.wf z.mem && Memory.wf z.scr) && decide (v.1.colls = s.colls)

theorem witness_EngineEvents_contributions :
    (∀ b ∈ [false, true], let x := coll2 b 0; let s := gathered x true 1;
      let h := reads1 s x [(0x100000002007 + (if b then 0 else 0x40), 1), (0x100000002060, 8)]; h.2 = true ∧
      (let e := reads1 h.1 x ([(0x400000004000, 2)] ++ if b then [(0x400000003000, 32)] else []); e.2 = true ∧
        (let u := reads1 e.1 x ([(0x100000002080, 1)] ++ if b then [(0x100000002100, 512)] else []); u.2 = true ∧
          landsAt u.1 x (if b then 0x100 else 0x80) (List.replicate (if b then 512 else 1) 0) (if b then 0x20 else 0) = true))) := by
  decide +kernel

theorem witness_EngineEvents_mismatch :
    ∀ b ∈ [false, true], let x := coll2 b 0; let s := gathered x false 1;
      let h := reads1 s x [(0x100000002007 + (if b then 0 else 0x40), 1), (0x100000002060, 8)]; h.2 = true ∧ x.ecode = 0 ∧
      (let hw := wordAt ((h.1.getAll x.who 0x100000002060 8).2.data.map (·.2)) 0; hw.extractLsb' 0 20 ≠ x.words[(0 : Fin 8)].extractLsb' 0 20) ∧
      (let e := reads1 h.1 x ([(0x400000004000, 2)] ++ if b then [(0x400000003000, 32)] else []); e.2 = true ∧ landsAt e.1 x 0x60 (List.replicate 8 1) (if b then 0x20 else 0) = true) := by
  decide +kernel

theorem witness_EngineEvents_results :
    let x := coll2 true 1; let s := gathered x true 1
    let h := reads1 s x [(0x100000002027, 1), (0x100000002060, 8)]
    let u := reads1 h.1 x [(0x100000002080, 1), (0x100000002100, 512)]; h.2 = true ∧ u.2 = true ∧
      (let v := u.1.putAll x.who 0x400000005000 (List.replicate 32 0); let w := v.1.putAll x.who 0x400000006000 [0, 0];
        v.2.waits = false ∧ w.2.waits = false ∧ v.2.err = 0 ∧ w.2.err = 0 ∧ w.1.colls = s.colls) := by decide +kernel

/-- What TCINV's drain waits for: nothing, or one thing each. -/
theorem witness_TableEvents_drain :
    (∀ ps ∈ [[], [{ pst with core := 1 }]], let s : State := { with_ { str1 with splits := str1.splits.set 0 { str1.splits[0] with wait := .tcinv true } } with pend := ps };
      s.remote = [] ∧ s.abaci = [] ∧ s.colls = [] ∧ (∀ c : CoreId, (s.cores[c]).convoy = [] ∧ (s.cores[c]).arr.queue = [] ∧ ∀ i : Fin 8, (s.cores[c]).chains[i] = none)) ∧
    (∃ r ∈ ({ State.reset with remote := [far1] } : State).remote, r.core = 0 ∧ r.fault = none) ∧ (∃ y ∈ (aba1 [bankCmd1] [] none).abaci, ∃ z ∈ y.coming ++ y.queue, z.core = bankCmd1.core) ∧
    (∃ z ∈ (colls1 (coll1 true 0 false)).colls, z.core = 0) ∧ (∃ z ∈ ((convoy1 (some (.mem loc2)) false).cores[(0 : CoreId)]).convoy, ∃ l, z.bar = some (.mem l)) ∧
    (∃ o ∈ ((arr1 [tileOp (.mmac .bf16 .core true true false 0x4000 0 0 0 [] [lineA]) false]).cores[(0 : CoreId)]).arr.queue, o.lines ≠ []) :=
  ⟨by decide +kernel, ⟨far1, .head _, rfl, rfl⟩, ⟨_, .head _, bankCmd1, .head _, rfl⟩, ⟨_, .head _, rfl⟩, ⟨_, .head _, _, rfl⟩, ⟨_, .head _, by decide⟩⟩

/-- A range still starting, its line already .cm or not; a registration with room in the L2. -/
def ranging (d : Option DState) : State :=
  { State.reset with ranges := State.reset.ranges.set 255 (some { range2 with starting := true }), dir := (d.map (fun x => (lineA, x))).toList }

theorem witness_TableEvents_starting :
    (∀ d ∈ [none, some (DState.ex 0)], (ranging d).rangeOf lineA = some { range2 with starting := true } ∧ ∀ m, (ranging d).dirGet lineA ≠ some (.cm m)) ∧
    ((ranging (some (.cm 1))).rangeOf lineA = some { range2 with starting := true } ∧ (ranging (some (.cm 1))).dirGet lineA = some (.cm 1) ∧ (ranging (some (.cm 1))).poisoned lineA = false ∧ (ranging (some (.cm 1))).partials = []) ∧
    lineOf (loc2 + 4) = lineA ∧ (ranged []).l2Room (agentOf 0) lineA = some (ranged []) := by
  refine ⟨fun d hd => ⟨?_, fun m => ?_⟩, ⟨by decide +kernel, by decide +kernel, by decide +kernel, rfl⟩, by decide, room_empty _ _ _ ⟨rfl, rfl⟩⟩
  · have : ∀ d ∈ [none, some (DState.ex 0)], (ranging d).rangeOf lineA = some { range2 with starting := true } := by decide +kernel
    exact this d hd
  · have : ∀ d ∈ [none, some (DState.ex 0)], (match (ranging d).dirGet lineA with | some (.cm _) => false | _ => true) = true := by decide +kernel
    intro e
    have := this d hd
    rw [e] at this
    exact Bool.false_ne_true this

-- ## Decoding: words that the spec writes out (R165, R170 and the instructions' own rules)

theorem test_decode_scalar : decode 0x01000102FFFFFFF0 0 = some (.saddI 1 2 0xFFFFFFF0) ∧ decode 0x0501050000000000 0x123456789ABCDEF0 = some (.sliL 5 0x123456789ABCDEF0) ∧
    decode 0x0700010203007003 0 = some (.slea 1 2 3 3) ∧ decode 0x0002050000003000 0 = some (.smul .i64 5 0 0) := by decide +kernel
theorem test_decode_vector : decode 0x2000200405002000 0 = some (.vadd 0 .i32 32 4 5) ∧ decode 0x2503020100006010 0 = some (.vshxor 0 .n32 2 1 16) ∧ decode 0x2402100400006000 0 = some (.vbcast 0 .n32 16 4) ∧
    decode 0x3F00000000000028 0 = some (.vgrow 40) ∧ decode 0x3F01000000000008 0 = some (.vshrink 8) := by decide +kernel
theorem test_decode_float : decode 0x4130040506078000 0 = some (.ffma 3 .f32 .rn 4 5 6 7) ∧ decode 0x4005010203008000 0 = some (.fdiv 0 .f32 .rn 1 2 3) ∧ decode 0x460009080000F000 0 = some (.qblk 0 .b4 .rn 9 8) ∧
    decode 0x46010A090000F000 0 = some (.dqblk 0 .b4 10 9) := by decide +kernel
theorem test_decode_memory : decode 0x6002080200000040 0 = some (.ld 0 .b4 false 8 2 0 64) ∧ decode 0x6002080200028040 0 = some (.ld 0 .b4 false 8 2 2 64) ∧ decode 0x6803000106000000 0 = some (.sst .b8 1 6 0) ∧
    decode 0x6600000200001080 0 = some (.pf 0 .l2 2 128) ∧ decode 0x8010040206006700 0 = some (.amo 1 .add .n32 .pkg true false 4 2 6 0) ∧ decode 0x8000040206006380 0 = some (.amo 0 .add .n32 .clus true true 4 2 6 0) := by
  decide +kernel
theorem test_decode_sync : decode 0x9000000000000601 0 = some (.fence .pkg .rel) ∧ decode 0x9103040102000600 0 = some (.barWait .pkg false 4 1 2) ∧ decode 0x920000003F000F0F 0 = some (.wcnt 63 0 15 15) ∧
    decode 0x9300000102000000 0 = some (.seal 1 2) ∧ decode 0x9301000102000000 0 = some (.unseal 1 2) ∧ decode 0x9400000102008600 0 = some (.cmr .f32 .pkg 1 2) := by decide +kernel
theorem test_decode_control : decode 0xA006000200000003 0 = some (.bdiv 2 3) ∧ decode 0xA0010004FFFFFFFA 0 = some (.bnz 4 0xFFFFFFFA) ∧ decode 0xA1003C0000000002 0 = some (.call 60 2) ∧ decode 0xA101003C00000000 0 = some (.ret 60) ∧
    decode 0xA200040000000000 0 = some (.spmask 4) := by decide +kernel
theorem test_decode_tasks : decode 0xB000000100000020 0 = some (.spawn .core true 1) ∧ decode 0xB001040102000620 0 = some (.spawnf .pkg true 4 1 2) ∧ decode 0xB002050204000600 0 = some (.join .pkg 5 2 4) ∧
    decode 0xB003000500000200 0 = some (.done .clus 5) ∧ decode 0xB004000000000001 0 = some (.yield true) ∧ decode 0xB100030102000600 0 = some (.qpush .pkg 3 1 2) ∧ decode 0xB202030400000000 0 = some (.pdist 3 4) := by
  decide +kernel
theorem test_decode_matrix : decode 0xC00000010000A000 0 = some (.mwld .bf16 false 1 0) ∧ decode 0xC001000000000000 0 = some .mwsw ∧ decode 0xC00206070809F640 0 = some (.mmac .b4 .pkg false true false 6 7 8 9) ∧
    decode 0xC00202100300A160 0 = some (.mmac .bf16 .core true true true 2 16 3 0) ∧ decode 0xC003000000000000 0 = some .mrdy ∧ decode 0xC004000000000000 0 = some (.mwait false 0) ∧
    decode 0xC005050000000000 0 = some (.mcnt false 5) := by decide +kernel
theorem test_decode_engines : decode 0xD000040506070160 0 = some (.cpy .core true false true true 4 5 6 7) ∧ decode 0xD001000102000600 0 = some (.chain .pkg false 1 2) ∧ decode 0xD100040100000000 0 = some (.vwreg 4 1) ∧
    decode 0xD101000400000000 0 = some (.vwdrop 4) ∧ decode 0xD102050400000600 0 = some (.vwsync .pkg 5 4) ∧ decode 0xD300000100000800 0 = some (.xscale .sys 1) ∧ decode 0xD301000100000800 0 = some (.xsum .sys 1) := by
  decide +kernel
theorem test_decode_system : decode 0xE050000000000007 0 = some (.sys 5 7) ∧ decode 0xE0E1000000000003 0 = some (.hyp 14 3) ∧ decode 0xE002000000000000 0 = some .sret ∧ decode 0xE003000000000000 0 = some .hret ∧
    decode 0xE006000000000000 0 = some .wfi ∧ decode 0xE004080000000031 0 = some (.rdsr 0 0x031 8) ∧ decode 0xE005000A00000030 0 = some (.wrsr 0 0x030 10) := by decide +kernel
/-- The programs of spec/11 and spec/19. -/
theorem test_decode_abacus : decodeAbacus 0x11000000 = some (.ali 1 0) ∧ decodeAbacus 0x13000040 = some (.ali 3 64) ∧ decodeAbacus 0x80143000 = some (.adot 0 false 0 1 4 3) ∧ decodeAbacus 0x41100400 = some (.aaddi 1 1 1024) ∧
    decodeAbacus 0xA5000600 = some (.astc false true true 5 0 0) ∧ decodeAbacus 0x50E00004 = some (.aloop 14 4) ∧ decodeAbacus 0xB052F000 = some (.aemit false 5 2 15) ∧ decodeAbacus 0 = some .ahalt := by decide +kernel
/-- A reserved opcode, a reserved field, a register beyond its file and an odd pair are refused by name. -/
theorem test_decode_refuses : decode 0x0900000000000000 0 = none ∧ decode 0x0000000000008000 0 = none ∧ decode 0x0700410203007003 0 = none ∧ decode 0x6601000300000000 0 = none ∧ decodeAbacus 0x00000001 = none := by decide +kernel
/-- The table's numbering of bits is the words' own. -/
theorem test_table_word : decodeTableWord 64 0x01000102FFFFFFF0 = some (.saddI 1 2 0xFFFFFFF0) ∧ decodeTableWord 32 0x80143000 = some (.adot 0 false 0 1 4 3) := by decide +kernel

/-- One term for each check of WellFormed, which that check refuses. -/
theorem test_ill_formed : ([.sadd .f32 1 2 3, .ssel .i32 1 2 3 4, .vadd 0 .i64 1 2 4, .vadd 0 .f32 2 4 6, .vmul 0 .i64 2 4 6, .vabs 0 .n32 1 2, .vcmp 0 .eq .i8 1 2 3, .vsel 0 .n64 1 2 4 3, .vmov 0 .i32 1 2, .vbcast 0 .n64 3 4,
    .vgetl .n64 1 3 2, .vperm 0 .i32 1 2 3, .vshup 0 .n64 2 3 1, .vred 0 .add .f32 1 2, .vscan 0 .i64 false 2 4, .vdot4 0 .i32 1 2 3 4, .vgrow 257, .vshrink 0, .fadd 0 .e4m3 .rn 1 2 3, .fcvtFf 0 .f16 .f16 .rn false 0 1 2,
    .fcvtFi 0 .i64 .f16 .rn false 0 2 1, .fcvtIf 0 .f16 .i64 .rn false 0 1 2, .fpack 0 .f32 .rn false 1 2 3, .funpack 0 .f16 1 2 3, .qblk 0 .f32 .rn 1 2, .ld 0 .b8 false 3 2 0 0, .gth 0 .b4 false 1 3 0 0, .st 0 .b8 1 3 0,
    .sct 0 .b4 3 1 0, .spld 0 .b4 true false 1 64 0, .spst 0 .b4 true 64 1 0, .sld .b16 false 1 2 0, .sst .b16 1 2 0, .pf 0 .l2 3 0, .amo 0 .fadd .n32 .pkg true false 2 4 6 0, .amo 0 .add .n32 .pkg true false 2 4 6 1,
    .racc 0 .n32 .pkg 2 4, .barArr .pkg false false 1 2, .wcnt 64 0 0 0, .cmr .n32 .pkg 1 2, .mwld .f32 false 1 0, .mmac .bf16 .pkg true true false 1 2 3 0, .cpy .core true true false true 1 2 3 0, .vwsync .core 1 2,
    .rdsr 0 0x030 3, .wrsr 1 0x000 2, .adot 6 false 0 1 2 3, .aclr 8 8, .astc false false false 0 1 15] : List Instr).all (fun i => !i.wellFormed) = true := by decide +kernel

-- ## Values: the spec's worked cases

/-- The worked case after R56: the home, the pseudo-channel and the offset there of one address, on a full part and on one without M5 where M8 has 62 pseudo-channels. -/
def region1 (mask : W64) (mdie : BitVec 12) (w8 : BitVec 7) : State :=
  { State.reset with regions := State.reset.regions.set 0 ((((Vector.replicate 4 0x40000000).set 1 0x80000000).set 2 (0x8015000000000000 ||| mask)).set 3 0x10000000)
                     um := { State.reset.um with mdie := mdie, mpcw := State.reset.um.mpcw.set 8 w8.toNat } }
theorem test_address_map : (region1 0xFFF 0xFFF 64).decodePa 0x43A12340 = .loc (5 * 2 ^ 36 + 35 * 2 ^ 30 + 0x410440) ∧ (region1 0xFDF 0xFDF 62).decodePa 0x43A12340 = .loc (8 * 2 ^ 36 + 29 * 2 ^ 30 + 0x431D40) := by
  decide +kernel
/-- The worked case after R122, with EARR 2. -/
theorem test_barrier : barApply 0x20000000 0x20000000 1 8192 0 = (0x10002000, false) ∧ barApply 0x10002000 0x20000000 0 0 4096 = (0x10001000, false) ∧ barApply 0x10001000 0x20000000 0 0 4096 = (0x10000000, false) ∧
    barApply 0x10000000 0x20000000 1 0 0 = (0x0100000020000000, true) ∧ barApply 0x20000000 0x20000000 0 0 4096 = (0x2FFFF000, false) := by decide +kernel
/-- The worked case after R36: the order of contributions decides. -/
theorem test_rod : rodAdd .f32 (rodAdd .f32 0x4B800000 0x3F800000) 0x3F800000 = 0x4B800000 ∧ rodAdd .f32 (rodAdd .f32 0x3F800000 0x3F800000) 0x4B800000 = 0x4B800001 := by decide +kernel

-- ## One step

/-- A scalar register, or a vector register's lane, of what an instruction answers. -/
def sOf (r : Res) (n : SReg) : Option W64 := match r with | .next t => some (t.getS n) | _ => none
def vOf (r : Res) (n : VReg) (l : Nat) : Option W32 := match r with | .next t => some (t.me.getV n l) | _ => none

/-- What holds of the state that an instruction answers. -/
def from_ {α : Type} (r : Res) (f : State → α) : Option α := match r with | .next t => some (f t) | _ => none
/-- The boot string with some lanes of v5 to v8 given, and k1 = 0xF, k3 = 0xFFFF; the rest as in `run1`. -/
def lanes1 (v5 v6 : W32) (f8 : Nat → W32) : State :=
  run1.modMe (fun t => { t with vreg := ((t.vreg.set 5 (some (Vector.replicate 32 v5))).set 6 (some (gen 32 (fun l => if v6 = 0 then BitVec.ofNat 32 (l + 1) else v6)))).set 8 (some (gen 32 f8)), kreg := (t.kreg.set 1 0xF).set 3 0xFFFF })
/-- The lane numbers in v8. -/
def ids : State := lanes1 0 0 (BitVec.ofNat 32)

/-- R177: results modulo 2^w, extended by the type. -/
theorem test_sadd : sOf (exec (.saddI 1 2 0xFFFFFFF0) (run1.setS 2 0x10)) 1 = some 0 ∧ sOf (exec (.sadd .i32 1 2 3) ((run1.setS 2 0x7FFFFFFF).setS 3 1)) 1 = some 0xFFFFFFFF80000000 ∧
    sOf (exec (.sadd .n32 1 2 3) ((run1.setS 2 0x7FFFFFFF).setS 3 1)) 1 = some 0x80000000 := by decide +kernel
/-- R179: toward zero, the remainder with the sign of A, and the two corners. -/
theorem test_sdiv : sOf (exec (.sdiv .i32 1 2 3) ((run1.setS 2 0xFFFFFFF9).setS 3 2)) 1 = some 0xFFFFFFFFFFFFFFFD ∧ sOf (exec (.srem .i32 1 2 3) ((run1.setS 2 0xFFFFFFF9).setS 3 2)) 1 = some 0xFFFFFFFFFFFFFFFF ∧
    sOf (exec (.sdiv .n32 1 2 3) ((run1.setS 2 7).setS 3 0)) 1 = some 0xFFFFFFFF ∧ sOf (exec (.sdiv .i64 1 2 3) ((run1.setS 2 0x8000000000000000).setS 3 0xFFFFFFFFFFFFFFFF)) 1 = some 0x8000000000000000 := by decide +kernel
/-- R178, R181. -/
theorem test_scmp_slea : sOf (exec (.scmp .lt .n32 4 2 3) ((run1.setS 2 0xFFFFFFFF).setS 3 1)) 4 = some 0 ∧ sOf (exec (.scmp .lt .i32 4 2 3) ((run1.setS 2 0xFFFFFFFF).setS 3 1)) 4 = some 1 ∧
    sOf (exec (.slea 1 2 3 3) ((run1.setS 2 0x100).setS 3 5)) 1 = some 0x128 ∧ sOf (exec (.sclz .n32 1 2) (run1.setS 2 0xFF00000000)) 1 = some 32 := by decide +kernel
/-- R182. -/
theorem test_masks : sOf (exec (.kpop 1 3) ids) 1 = some 16 ∧ sOf (exec (.kfirst 1 4) ids) 1 = some 32 ∧ sOf (exec (.ktos 1 0) ids) 1 = some 0xFFFFFFFF := by decide +kernel
/-- R187, R188, R144: a lane exchange, a running sum, a guarded reduction; lanes without the guard keep their value. -/
theorem test_vector : vOf (exec (.vshxor 0 .n32 9 8 16) ids) 9 3 = some 19 ∧ vOf (exec (.vscan 0 .i32 true 9 8) ids) 9 4 = some 6 ∧ sOf (exec (.vred 3 .add .i32 1 8) ids) 1 = some 120 ∧
    vOf (exec (.vadd 3 .i32 8 8 8) ids) 8 15 = some 30 ∧ vOf (exec (.vadd 3 .i32 8 8 8) ids) 8 16 = some 16 := by decide +kernel
/-- R189, R190: bytes signed; the field of 8 bits at 4. -/
theorem test_vdot4_vext : vOf (exec (.vdot4 0 .i8 9 5 6 8) (lanes1 0x01FF0102 0x01010101 (fun _ => 10))) 9 0 = some 13 ∧ vOf (exec (.vext 0 .i32 9 5 6) (lanes1 0x00000F80 0x704 (fun _ => 0))) 9 0 = some 0xFFFFFFF8 := by decide +kernel
/-- The worked case after R205: 2^128 overflows to infinity with OF and NX staged. -/
theorem test_fmul : let r := exec (.fmul 0 .f32 .rn 4 5 6) (lanes1 0x7F000000 0x40000000 (fun _ => 0));
    vOf r 4 0 = some 0x7F800000 ∧ from_ r (fun t => t.sp.t) = some 5 := by decide +kernel
/-- R192: 1 / 3 to nearest; a division by zero gives infinity with DZ. -/
theorem test_fdiv : vOf (exec (.fdiv 0 .f32 .rn 4 5 6) (lanes1 0x3F800000 0x40400000 (fun _ => 0))) 4 0 = some 0x3EAAAAAB ∧ vOf (exec (.fdiv 0 .f32 .rn 4 5 8) (lanes1 0xBF800000 0 (fun _ => 0))) 4 0 = some 0xFF800000 := by decide +kernel
/-- R194, R197: one rounding of 2^24 · 1 + 1; FP32 to signed integer. -/
theorem test_ffma_fcvt : vOf (exec (.ffma 0 .f32 .rn 4 5 6 8) (lanes1 0x4B800000 0x3F800000 (fun _ => 0x3F800000))) 4 0 = some 0x4B800000 ∧ vOf (exec (.fcvtFi 0 .i32 .f32 .rz false 0 4 5) (lanes1 0xC0700000 0 (fun _ => 0))) 4 0 = some 0xFFFFFFFD := by
  decide +kernel
/-- The worked case of R32 and R199: a B4 block quantised, and decoded again. -/
def blockIn (l : Nat) : W32 := match l with | 0 => 0x40A00000 | 1 => 0x3EC00000 | 2 => 0xC0280000 | 3 => 0x40580000 | 4 => 0x3F800000 | 5 => 0xBFC00000 | 6 => 0x3F000000 | 7 => 0x40000000 | 20 => 0x40A00000 | _ => 0
def blockOut (l : Nat) : W32 := match l with | 0 => 0x41B25D18 | 2 => 0x80000 | 8 => 0x4A7F | _ => 0
theorem test_qblk : ∀ l ∈ [0, 1, 2, 3, 8, 31], vOf (exec (.qblk 0 .b4 .rn 9 8) (lanes1 0 0 blockIn)) 9 l = some (blockOut l) := by decide +kernel
theorem test_dqblk : ∀ o ∈ [(0, (0x40A00000 : W32)), (1, 0x3F000000), (2, 0xC0400000), (3, 0x40400000), (7, 0x40000000), (20, 0x40A00000), (31, 0)], vOf (exec (.dqblk 0 .b4 10 8) (lanes1 0 0 blockOut)) 10 o.1 = some o.2 := by
  decide +kernel
/-- R148: the allotment of the worked case after R170. -/
theorem test_vgrow : from_ (exec (.vgrow 40) (run1.modMe (fun t => { t with allot := 24 }))) (fun t => t.me.allot) = some 40 := by decide +kernel
/-- The worked case after R218: four lanes add 1, 2, 3 and 4 to a word that holds 10; lane 4 keeps its value. -/
def word10 : State := let s := ids; { s with mem := [(loc2, 10)] }
theorem test_amo : (let r := exec (.amo 1 .add .n32 .pkg true false 4 2 6 0) word10; ∀ o ∈ [(0, (10 : W32)), (1, 11), (2, 13), (3, 16), (4, 5)], vOf r 4 o.1 = some o.2) ∧
    from_ (exec (.amo 1 .add .n32 .pkg true false 4 2 6 0) word10) (fun t => cellGet t.mem loc2) = some 20 := by decide +kernel
/-- R210: a scratchpad word written by lane 2, and read again. -/
theorem test_spst_spld : from_ (exec (.spst 0 .b4 false 5 6 0) (lanes1 0x10 0x12345678 (fun _ => 0))) (fun t => vOf (exec (.spld 0 .b4 false false 9 5 0) t) 9 2) = some (some 0x12345678) := by decide +kernel
/-- R390: a branch taken and not taken, a call. -/
theorem test_branch : from_ (exec (.bnz 4 0xFFFFFFFA) (run1.setS 4 1)) (fun t => t.sp.pc) = some 0x100000000FD8 ∧ from_ (exec (.bnz 4 0xFFFFFFFA) run1) (fun t => t.sp.pc) = some 0x100000001010 ∧
    sOf (exec (.call 60 2) run1) 60 = some 0x100000001010 := by decide +kernel
/-- R394, R402: each lane of a system call traps with cause 10, the next word's address and n. -/
theorem test_sys : from_ (exec (.sys 0 7) user1) (fun t => let x := t.me.lanes[(31 : Fin 32)]; (x.sepc, x.scause, x.stval)) = some (0x100000001010, 10, 7) := by decide +kernel
/-- R309. -/
theorem test_abacus_aaddi : from_ (exec (.aaddi 1 2 1024) (State.reset.withFetchWord 32 0)) (fun t => (t.abAt 0 0).run.map (fun x => x.q[(1 : Fin 16)])) = some (some 1024) := by decide +kernel

end Sys2Proof.Tests
end

section
/-! SUPPORT. Powers of 2, exact values as rational numbers, and the part of a magnitude that a spacing cuts off (spec/01 R21). -/
namespace Sys2Proof
open Machine

-- ## Powers of 2

theorem two_zpow_pos (e : Int) : (0 : Rat) < (2 : Rat) ^ e := Rat.zpow_pos (by decide)

theorem two_pow_pos (n : Nat) : (0 : Rat) < (2 : Rat) ^ n := Rat.pow_pos (by decide)

theorem two_zpow_add (a b : Int) : (2 : Rat) ^ (a + b) = (2 : Rat) ^ a * (2 : Rat) ^ b := Rat.zpow_add (by decide) a b

theorem two_zpow_natCast (n : Nat) : (2 : Rat) ^ (n : Int) = (2 : Rat) ^ n := Rat.zpow_natCast 2 n

theorem two_zpow_succ (a : Int) : (2 : Rat) ^ (a + 1) = 2 * (2 : Rat) ^ a := by
  rw [Int.add_comm, two_zpow_add, show (2 : Rat) ^ (1 : Int) = 2 from Rat.zpow_one 2]

/-- A power of 2 in units of a lesser one. -/
theorem zpow_eq_pow_mul {e u : Int} (h : u ≤ e) : (2 : Rat) ^ e = (2 : Rat) ^ (e - u).toNat * (2 : Rat) ^ u := by
  rw [← two_zpow_natCast, Int.toNat_of_nonneg (by omega), ← two_zpow_add, Int.sub_add_cancel]

theorem two_zpow_le {a b : Int} (h : a ≤ b) : (2 : Rat) ^ a ≤ (2 : Rat) ^ b := by
  have h1 : (1 : Rat) ≤ (2 : Rat) ^ (b - a).toNat := by exact_mod_cast Nat.one_le_two_pow
  have hmul := Rat.mul_le_mul_of_nonneg_right h1 (Rat.le_of_lt (two_zpow_pos a))
  rwa [Rat.one_mul, ← zpow_eq_pow_mul h] at hmul

theorem two_zpow_lt {a b : Int} (h : a < b) : (2 : Rat) ^ a < (2 : Rat) ^ b := by
  have hle := two_zpow_le (show a + 1 ≤ b by omega)
  have hpos := two_zpow_pos a
  rw [two_zpow_succ] at hle
  grind

theorem lt_of_two_zpow_lt {a b : Int} (h : (2 : Rat) ^ a < (2 : Rat) ^ b) : a < b := by
  refine Int.not_le.1 fun hle => ?_
  exact Rat.not_lt.2 (two_zpow_le hle) h

theorem mul_le_mul_pos_iff {a b c : Rat} (hc : 0 < c) : a * c ≤ b * c ↔ a ≤ b :=
  ⟨fun h => Rat.le_of_mul_le_mul_right h hc, fun h => Rat.mul_le_mul_of_nonneg_right h (Rat.le_of_lt hc)⟩

-- ## Exact values

theorem ratOf_false (m : Nat) (e : Int) : ratOf false m e = m * (2 : Rat) ^ e := by
  unfold ratOf
  rw [if_neg Bool.false_ne_true, Rat.one_mul]

theorem ratOf_eq_sign_mul (n : Bool) (m : Nat) (e : Int) : ratOf n m e = (if n = true then -1 else 1) * ratOf false m e := by
  rw [ratOf_false, ← Rat.mul_assoc]
  rfl

theorem ratOf_true (m : Nat) (e : Int) : ratOf true m e = -ratOf false m e := by
  rw [ratOf_eq_sign_mul, if_pos rfl]
  grind

theorem ratOf_zero (n : Bool) (e : Int) : ratOf n 0 e = 0 := by
  rw [ratOf_eq_sign_mul, ratOf_false]
  grind

theorem ratOf_false_nonneg (m : Nat) (e : Int) : 0 ≤ ratOf false m e := by
  rw [ratOf_false]
  exact Rat.mul_nonneg Rat.natCast_nonneg (Rat.le_of_lt (two_zpow_pos e))

theorem ratOf_false_pos {m : Nat} (hm : m ≠ 0) (e : Int) : 0 < ratOf false m e := by
  rw [ratOf_false]
  exact Rat.mul_pos (Rat.natCast_pos.2 (Nat.pos_of_ne_zero hm)) (two_zpow_pos e)

theorem ratOf_eq_zero {n : Bool} {m : Nat} {e : Int} : ratOf n m e = 0 ↔ m = 0 := by
  refine ⟨fun h => ?_, fun h => h ▸ ratOf_zero n e⟩
  refine Decidable.byContradiction fun hm => ?_
  have hpos := ratOf_false_pos hm e
  rw [ratOf_eq_sign_mul] at h
  cases n <;> grind

theorem ratOf_mul (n1 n2 : Bool) (m1 m2 : Nat) (e1 e2 : Int) :
    ratOf (n1 != n2) (m1 * m2) (e1 + e2) = ratOf n1 m1 e1 * ratOf n2 m2 e2 := by
  have hmag : ratOf false (m1 * m2) (e1 + e2) = ratOf false m1 e1 * ratOf false m2 e2 := by
    rw [ratOf_false, ratOf_false, ratOf_false, two_zpow_add, Rat.natCast_mul]
    grind
  rw [ratOf_eq_sign_mul, ratOf_eq_sign_mul n1, ratOf_eq_sign_mul n2, hmag]
  cases n1 <;> cases n2 <;> grind

/-- The sign of a quotient is that of the product; its magnitude is the quotient of the magnitudes. -/
theorem ratOf_div (n1 n2 : Bool) (m1 m2 : Nat) (e1 e2 : Int) :
    ratOf n1 m1 e1 / ratOf n2 m2 e2 = (if (n1 != n2) = true then -1 else 1) * (ratOf false m1 e1 / ratOf false m2 e2) := by
  rw [ratOf_eq_sign_mul n1, ratOf_eq_sign_mul n2]
  cases n1 <;> cases n2 <;> grind

/-- The integer at a common scale stands for the value. -/
theorem scaled_mul_zpow {e e0 : Int} (h : e0 ≤ e) (n : Bool) (m : Nat) :
    (scaled n m e e0 : Rat) * (2 : Rat) ^ e0 = ratOf n m e := by
  have hmag : ((m * 2 ^ (e - e0).toNat : Int) : Rat) * (2 : Rat) ^ e0 = ratOf false m e := by
    rw [ratOf_false, zpow_eq_pow_mul h]
    push_cast
    grind
  cases n with
  | false => exact hmag
  | true =>
    rw [ratOf_true, ← hmag, ← Rat.neg_mul, ← Rat.intCast_neg]
    rfl

-- ## The part cut off

/-- m × 2^e counts the multiples of 2^u that it holds. -/
theorem cut_fst (m : Nat) (e u : Int) : (cut m (u - e)).1 = m * 2 ^ (e - u).toNat / 2 ^ (u - e).toNat := by
  unfold cut
  split
  next h => rw [show (u - e).toNat = 0 by omega, Int.neg_sub, Nat.pow_zero, Nat.div_one]
  next h => rw [show (e - u).toNat = 0 by omega, Nat.pow_zero, Nat.mul_one]

/-- m × 2^e by the multiples of 2^u that it holds and the part cut off. -/
theorem cut_mul_zpow (m : Nat) (e u : Int) :
    (m : Rat) * (2 : Rat) ^ e * (2 : Rat) ^ (u - e).toNat =
      ((cut m (u - e)).1 * (2 : Rat) ^ (u - e).toNat + (cut m (u - e)).2) * (2 : Rat) ^ u := by
  unfold cut
  split
  next h =>
    dsimp only
    rw [show (u - e).toNat = 0 by omega, Int.neg_sub, zpow_eq_pow_mul (show u ≤ e by omega), Rat.natCast_mul, Rat.natCast_pow, Rat.pow_zero]
    grind
  next h =>
    have hm : (m : Rat) = (m / 2 ^ (u - e).toNat : Nat) * (2 : Rat) ^ (u - e).toNat + (m % 2 ^ (u - e).toNat : Nat) := by
      exact_mod_cast (Nat.div_add_mod' m _).symm
    dsimp only
    rw [← hm, zpow_eq_pow_mul (show e ≤ u by omega)]
    grind

/-- The part cut off is less than one multiple. -/
theorem cut_snd_lt (m : Nat) (sh : Int) : (cut m sh).2 < 2 ^ sh.toNat := by
  unfold cut
  split
  · exact Nat.two_pow_pos _
  · exact Nat.mod_lt _ (Nat.two_pow_pos _)

/-- The multiples held bracket the magnitude. -/
theorem cut_fst_mul_le (m : Nat) (e u : Int) : ((cut m (u - e)).1 : Rat) * (2 : Rat) ^ u ≤ m * (2 : Rat) ^ e := by
  have hS := two_pow_pos (u - e).toNat
  have hrem := Rat.mul_nonneg (Rat.natCast_nonneg (a := (cut m (u - e)).2)) (Rat.le_of_lt (two_zpow_pos u))
  rw [← mul_le_mul_pos_iff hS, cut_mul_zpow]
  grind

theorem lt_cut_fst_succ_mul (m : Nat) (e u : Int) : (m : Rat) * (2 : Rat) ^ e < ((cut m (u - e)).1 + 1) * (2 : Rat) ^ u := by
  have hS := two_pow_pos (u - e).toNat
  have hlt : ((cut m (u - e)).2 : Rat) < (2 : Rat) ^ (u - e).toNat := by exact_mod_cast cut_snd_lt m (u - e)
  have hrem := Rat.mul_lt_mul_of_pos_right hlt (two_zpow_pos u)
  rw [← Rat.mul_lt_mul_right hS, cut_mul_zpow]
  grind

/-- A non-zero magnitude lies between two powers of 2. -/
theorem zpow_log2_le {m : Nat} (hm : m ≠ 0) (e : Int) : (2 : Rat) ^ ((Nat.log2 m : Int) + e) ≤ m * (2 : Rat) ^ e := by
  have hlog : (2 : Rat) ^ Nat.log2 m ≤ m := by exact_mod_cast Nat.log2_self_le hm
  rw [two_zpow_add, two_zpow_natCast]
  exact Rat.mul_le_mul_of_nonneg_right hlog (Rat.le_of_lt (two_zpow_pos e))

theorem lt_zpow_log2_succ (m : Nat) (e : Int) : (m : Rat) * (2 : Rat) ^ e < (2 : Rat) ^ ((Nat.log2 m : Int) + e + 1) := by
  have hlog : (m : Rat) < (2 : Rat) ^ (Nat.log2 m + 1) := by exact_mod_cast Nat.lt_log2_self
  rw [show (Nat.log2 m : Int) + e + 1 = ((Nat.log2 m + 1 : Nat) : Int) + e by omega, two_zpow_add, two_zpow_natCast]
  exact Rat.mul_lt_mul_of_pos_right hlog (two_zpow_pos e)

end Sys2Proof
end

section
/-! SUPPORT. The model's rounding of a truncated magnitude is the rounding of the rules (R21, R22). -/
namespace Sys2Proof
open Machine

-- ## When a magnitude is incremented

/-- `.rn` increments above one half, which more below it makes of one half, and on a tie where the magnitude is odd. -/
theorem roundUp_rn (neg : Bool) (a rem : Nat) (sh : Int) (st : Bool) (r : W32) (h : rem < 2 ^ sh.toNat) :
    let half : Rat := 1 / 2 * (2 : Rat) ^ sh.toNat
    roundUp .rn neg a rem sh st r = true ↔ (if st = true then half ≤ rem else half < rem) ∨ (half ≤ rem ∧ a % 2 = 1) := by
  intro half
  by_cases hs : sh ≤ 0
  · have h0 : sh.toNat = 0 := by omega
    have hr : rem = 0 := by rw [h0, Nat.pow_zero] at h; omega
    have hlt : ¬half < (rem : Rat) := by simp only [half, h0, hr, Rat.pow_zero]; grind
    have hle : ¬half ≤ (rem : Rat) := by simp only [half, h0, hr, Rat.pow_zero]; grind
    have hup : roundUp .rn neg a rem sh st r = false := by simp only [roundUp, hs, if_true]
    simp only [hup, hlt, hle, Bool.false_eq_true, false_and, or_false, ite_self]
  · obtain ⟨n, hn⟩ : ∃ n, sh.toNat = n + 1 := ⟨sh.toNat - 1, by omega⟩
    have hhalf : half = (2 ^ n : Nat) := by
      simp only [half, hn, Rat.pow_succ, Rat.natCast_pow]
      grind
    have hup : roundUp .rn neg a rem sh st r = true ↔ 2 ^ n < rem ∨ rem = 2 ^ n ∧ (st = true ∨ a % 2 = 1) := by
      simp only [roundUp, hs, if_false, hn, Nat.add_sub_cancel, Bool.or_eq_true, decide_eq_true_eq, Bool.and_eq_true, beq_iff_eq]
    rw [hup, hhalf, Rat.natCast_le_natCast, Rat.natCast_lt_natCast]
    cases st with
    | true => simp only [if_true, true_or, and_true]; omega
    | false => simp only [Bool.false_eq_true, if_false, false_or]; omega

/-- `.rs` increments where the part cut off reaches 2^32 less the random value, in units of 2^-32. -/
theorem roundUp_rs (neg : Bool) (a rem : Nat) (sh : Int) (st : Bool) (r : W32) (h : rem < 2 ^ sh.toNat) :
    roundUp .rs neg a rem sh st r = true ↔ ((2 ^ 32 - r.toNat : Nat) : Rat) / 2 ^ 32 * (2 : Rat) ^ sh.toNat ≤ rem := by
  have hr := r.isLt
  have hscale : ((2 ^ 32 - r.toNat : Nat) : Rat) / 2 ^ 32 * (2 : Rat) ^ sh.toNat ≤ rem ↔ (2 ^ 32 - r.toNat) * 2 ^ sh.toNat ≤ rem * 2 ^ 32 := by
    rw [← Rat.natCast_le_natCast, Rat.natCast_mul, Rat.natCast_mul, Rat.natCast_pow, Rat.natCast_pow]
    grind
  rw [hscale]
  by_cases hs : sh ≤ 0
  · have h0 : sh.toNat = 0 := by omega
    have hz : rem = 0 := by rw [h0, Nat.pow_zero] at h; omega
    simp only [roundUp, hs, if_true, h0, hz, Bool.false_eq_true, false_iff]
    omega
  · have hk : 2 ^ 32 ≤ rem * 2 ^ 32 / 2 ^ sh.toNat + r.toNat ↔ (2 ^ 32 - r.toNat) * 2 ^ sh.toNat ≤ rem * 2 ^ 32 := by
      rw [← Nat.le_div_iff_mul_le (Nat.two_pow_pos _)]
      omega
    simp only [roundUp, hs, if_false, decide_eq_true_eq]
    exact hk

/-- Nothing cut off, nothing incremented. -/
theorem roundUp_exact (mode : Rnd) (neg : Bool) (a : Nat) (sh : Int) (r : W32) : roundUp mode neg a 0 sh false r = false := by
  have hr := r.isLt
  have hpos := Nat.two_pow_pos (sh.toNat - 1)
  cases mode with
  | rs =>
    have hlt : ¬2 ^ 32 ≤ 0 * 2 ^ 32 / 2 ^ sh.toNat + r.toNat := by rw [Nat.zero_mul, Nat.zero_div]; omega
    simp only [roundUp, hlt, decide_false, ite_self]
  | rn =>
    have hlt : ¬2 ^ (sh.toNat - 1) < 0 := Nat.not_lt_zero _
    have hne : (0 == 2 ^ (sh.toNat - 1)) = false := beq_false_of_ne (by omega)
    simp only [roundUp, hlt, hne, decide_false, Bool.false_and, Bool.or_false, ite_self]
  | rz => rfl
  | ru => rfl
  | rd => rfl

theorem roundAt_fst (mode : Rnd) (neg : Bool) (m : Nat) (e : Int) (sticky : Bool) (r : W32) (u : Int) :
    (roundAt mode neg m e sticky r u).1 =
      if roundUp mode neg (cut m (u - e)).1 (cut m (u - e)).2 (u - e) sticky r = true then (cut m (u - e)).1 + 1 else (cut m (u - e)).1 := rfl

theorem roundAt_snd (mode : Rnd) (neg : Bool) (m : Nat) (e : Int) (sticky : Bool) (r : W32) (u : Int) :
    (roundAt mode neg m e sticky r u).2 = ((cut m (u - e)).2 != 0 || sticky) := rfl

/-- A rounding is exact where nothing was cut off or left below. -/
theorem roundAt_snd_eq_false {mode : Rnd} {neg : Bool} {m : Nat} {e : Int} {sticky : Bool} {r : W32} {u : Int} :
    (roundAt mode neg m e sticky r u).2 = false ↔ (cut m (u - e)).2 = 0 ∧ sticky = false := by
  rw [roundAt_snd, Bool.or_eq_false_iff, bne_eq_false_iff_eq]

-- ## Rounding a truncated magnitude

/-- The magnitude of which `le q` says that it is at least q, and `lt q` that it is more, is m × 2^e; with `sticky` it lies between m × 2^e and
(m + 1) × 2^e, so that only multiples of 2^e are compared with it through m. -/
structure Truncated (le lt : Rat → Prop) (m : Nat) (e : Int) (sticky : Bool) : Prop where
  le_iff : ∀ q : Rat, (sticky = true → ∃ j : Int, q = j * (2 : Rat) ^ e) → (le q ↔ q ≤ m * (2 : Rat) ^ e)
  lt_iff : ∀ q : Rat, (sticky = true → ∃ j : Int, q = j * (2 : Rat) ^ e) →
    (lt q ↔ if sticky = true then q ≤ m * (2 : Rat) ^ e else q < m * (2 : Rat) ^ e)

theorem truncated_exact (m : Nat) (e : Int) :
    Truncated (fun q => q ≤ ratOf false m e) (fun q => q < ratOf false m e) m e false := by
  rw [ratOf_false]
  exact ⟨fun _ _ => Iff.rfl, fun _ _ => Iff.rfl⟩

/-- A multiple of a power of 2 at or above the scale is an integer multiple of the scale. -/
theorem zpow_eq_int_mul {e u : Int} (h : e ≤ u) (j : Int) : ∃ i : Int, (j : Rat) * (2 : Rat) ^ u = i * (2 : Rat) ^ e := by
  refine ⟨j * 2 ^ (u - e).toNat, ?_⟩
  rw [zpow_eq_pow_mul h, Rat.intCast_mul, Rat.intCast_pow, Rat.mul_assoc]
  rfl

/-- A rounding is the truncated magnitude or the next one. -/
theorem roundAt_fst_le {m : Nat} {e u : Int} {n : Nat} (h : (m : Rat) * (2 : Rat) ^ e < n * (2 : Rat) ^ u) (mode : Rnd) (neg sticky : Bool)
    (r : W32) : (roundAt mode neg m e sticky r u).1 ≤ n := by
  have hle := cut_fst_mul_le m e u
  have hlt : ((cut m (u - e)).1 : Rat) * (2 : Rat) ^ u < n * (2 : Rat) ^ u := by grind
  rw [Rat.mul_lt_mul_right (two_zpow_pos u), Rat.natCast_lt_natCast] at hlt
  rw [roundAt_fst]
  split <;> omega

theorem le_roundAt_fst {m : Nat} {e u : Int} {n : Nat} (h : (n : Rat) * (2 : Rat) ^ u ≤ m * (2 : Rat) ^ e) (mode : Rnd) (neg sticky : Bool)
    (r : W32) : n ≤ (roundAt mode neg m e sticky r u).1 := by
  have hup := lt_cut_fst_succ_mul m e u
  have hlt : (n : Rat) * (2 : Rat) ^ u < ((cut m (u - e)).1 + 1) * (2 : Rat) ^ u := by grind
  rw [Rat.mul_lt_mul_right (two_zpow_pos u)] at hlt
  have : n < (cut m (u - e)).1 + 1 := by exact_mod_cast hlt
  rw [roundAt_fst]
  split <;> omega

section
variable {le lt : Rat → Prop} {m : Nat} {e : Int} {sticky : Bool} (h : Truncated le lt m e sticky)
include h

/-- Above the multiples of 2^u, a step j of at most 32 bits is compared with the part cut off. -/
theorem Truncated.at_iff {u : Int} (hu : sticky = true → e + 32 ≤ u) (j : Rat) (hj : ∃ i : Int, j * 2 ^ 32 = i) :
    let step : Rat := j * (2 : Rat) ^ (u - e).toNat
    let rem : Rat := (cut m (u - e)).2
    let q : Rat := ((cut m (u - e)).1 + j) * (2 : Rat) ^ u
    (le q ↔ step ≤ rem) ∧ (lt q ↔ if sticky = true then step ≤ rem else step < rem) := by
  intro step rem q
  have hint : sticky = true → ∃ i : Int, q = i * (2 : Rat) ^ e := by
    intro hs
    obtain ⟨i, hi⟩ := hj
    obtain ⟨w, hw⟩ := zpow_eq_int_mul (show e ≤ u - 32 by have := hu hs; omega) ((cut m (u - e)).1 * 2 ^ 32 + i)
    refine ⟨w, hw ▸ ?_⟩
    have hz : (2 : Rat) ^ u = 2 ^ 32 * (2 : Rat) ^ (u - 32) := by
      rw [zpow_eq_pow_mul (show u - 32 ≤ u by omega), show (u - (u - 32)).toNat = 32 by omega]
    have hcast : (((cut m (u - e)).1 * 2 ^ 32 + i : Int) : Rat) = (cut m (u - e)).1 * 2 ^ 32 + j * 2 ^ 32 := by
      rw [hi]
      push_cast
      rfl
    rw [hcast]
    simp only [q, hz]
    grind
  have hv := cut_mul_zpow m e u
  have hS := two_pow_pos (u - e).toNat
  have hU := two_zpow_pos u
  have hq : q * (2 : Rat) ^ (u - e).toNat = ((cut m (u - e)).1 * (2 : Rat) ^ (u - e).toNat + step) * (2 : Rat) ^ u := by
    simp only [q, step]
    grind
  have hle : q ≤ m * (2 : Rat) ^ e ↔ step ≤ rem := by
    rw [← mul_le_mul_pos_iff hS, hq, hv, mul_le_mul_pos_iff hU]
    exact Rat.add_le_add_left
  have hlt : q < m * (2 : Rat) ^ e ↔ step < rem := by
    rw [← Rat.mul_lt_mul_right hS, hq, hv, Rat.mul_lt_mul_right hU]
    exact Rat.add_lt_add_left
  exact ⟨(h.le_iff q hint).trans hle, by rw [h.lt_iff q hint, hle, hlt]⟩

/-- The multiples held are at most the magnitude, and equal to it where a rounding is exact. -/
theorem Truncated.at_zero {u : Int} (hu : sticky = true → e + 32 ≤ u) (mode : Rnd) (neg : Bool) (r : W32) :
    let q : Rat := (cut m (u - e)).1 * (2 : Rat) ^ u
    le q ∧ (lt q ↔ (roundAt mode neg m e sticky r u).2 = true) := by
  obtain ⟨hle, hlt⟩ := h.at_iff hu 0 ⟨0, by grind⟩
  rw [Rat.add_zero, Rat.zero_mul] at hle hlt
  refine ⟨hle.2 Rat.natCast_nonneg, hlt.trans ?_⟩
  rw [roundAt_snd, Bool.or_eq_true, bne_iff_ne]
  split
  next hs => exact ⟨fun _ => .inr hs, fun _ => Rat.natCast_nonneg⟩
  next hs => rw [Rat.natCast_pos]; exact ⟨fun hpos => .inl (by omega), fun hne => Nat.pos_of_ne_zero (hne.resolve_right hs)⟩

/-- The next multiple exceeds the magnitude. -/
theorem Truncated.not_le_at_one {u : Int} (hu : sticky = true → e + 32 ≤ u) : ¬le (((cut m (u - e)).1 + 1) * (2 : Rat) ^ u) := by
  obtain ⟨hle, -⟩ := h.at_iff hu 1 ⟨4294967296, by grind⟩
  rw [hle, Rat.one_mul, Rat.not_le]
  exact_mod_cast cut_snd_lt m (u - e)

/-- R21, R22: the model's rounding is the one of the rules. -/
theorem Truncated.rounded_roundAt {u : Int} (hu : sticky = true → e + 32 ≤ u) (mode : Rnd) (neg : Bool) (r : W32) :
    rounded mode neg r le lt u (roundAt mode neg m e sticky r u).1 := by
  have hrem := cut_snd_lt m (u - e)
  obtain ⟨l0, t0⟩ := h.at_zero hu mode neg r
  refine ⟨(cut m (u - e)).1, ?_⟩
  dsimp only
  rw [Rat.add_zero]
  refine ⟨l0, h.not_le_at_one hu, fun hnot => ?_, fun hlt => ?_⟩
  · obtain ⟨hz, rfl⟩ := roundAt_snd_eq_false.1 (eq_false_of_ne_true (mt t0.2 hnot))
    rw [roundAt_fst, hz, roundUp_exact, if_neg Bool.false_ne_true]
  have hin : ((cut m (u - e)).2 != 0 || sticky) = true := t0.1 hlt
  cases mode with
  | rz => rfl
  | ru => cases neg <;> simp only [roundAt_fst, roundUp, hin, Bool.not_true, Bool.not_false, Bool.and_self, Bool.and_false, Bool.false_eq_true, if_true, if_false]
  | rd => cases neg <;> simp only [roundAt_fst, roundUp, hin, Bool.and_self, Bool.and_false, Bool.false_eq_true, if_true, if_false]
  | rs =>
    obtain ⟨lr, -⟩ := h.at_iff hu (((2 ^ 32 - r.toNat : Nat) : Rat) / 2 ^ 32) ⟨((2 ^ 32 - r.toNat : Nat) : Int), Rat.div_mul_cancel (by decide)⟩
    have hup := roundUp_rs neg (cut m (u - e)).1 _ (u - e) sticky r hrem
    rw [← lr] at hup
    exact ⟨fun hle => by rw [roundAt_fst, if_pos (hup.2 hle)], fun hle => by rw [roundAt_fst, if_neg (mt hup.1 hle)]⟩
  | rn =>
    obtain ⟨lh, th⟩ := h.at_iff hu (1 / 2) ⟨2147483648, by grind⟩
    have hup := roundUp_rn neg (cut m (u - e)).1 _ (u - e) sticky r hrem
    dsimp only at hup
    rw [← th, ← lh] at hup
    refine ⟨fun hle => ?_, fun hlt => ?_, fun hle hlt => ?_⟩
    · have hnlt : ¬lt (((cut m (u - e)).1 + 1 / 2) * (2 : Rat) ^ u) := fun hl =>
        hle (lh.2 (by have hstep := th.1 hl; split at hstep <;> grind))
      rw [roundAt_fst, if_neg (mt hup.1 (by rintro (hl | ⟨hl, -⟩) <;> contradiction))]
    · rw [roundAt_fst, if_pos (hup.2 (.inl hlt))]
    · rw [roundAt_fst]
      by_cases hodd : (cut m (u - e)).1 % 2 = 1
      · rw [if_pos (hup.2 (.inr ⟨hle, hodd⟩))]; omega
      · rw [if_neg (mt hup.1 (by rintro (hl | ⟨-, hl⟩) <;> contradiction))]; omega

end

end Sys2Proof
end

section
/-! SUPPORT. Codes of the floating formats: their magnitudes rise with the code, and a multiple of the spacing has a code (R12, R13). -/
namespace Sys2Proof
open Machine

-- ## Codes and their magnitudes

theorem Ty.isFloat_of_isArith {t : Ty} (h : t.isArith = true) : t.isFloat = true := by
  revert h
  cases t <;> decide

/-- The exact magnitude of a finite code without its sign. -/
def Ty.codeMag (t : Ty) (c : Nat) : Rat := ratOf false (t.mag c).1 (t.mag c).2

theorem Ty.mag_fst_lt (t : Ty) (c : Nat) : (t.mag c).1 < 2 ^ (t.manW + 1) := by
  have h : c % 2 ^ t.manW < 2 ^ t.manW := Nat.mod_lt _ (Nat.two_pow_pos _)
  unfold Ty.mag
  dsimp only
  split <;> simp only [Nat.pow_succ] <;> omega

/-- A code's magnitude by its two fields, at the spacing of its exponent. -/
theorem Ty.codeMag_fields (t : Ty) {k m : Nat} (hm : m < 2 ^ t.manW) :
    t.codeMag (k * 2 ^ t.manW + m) = ((if k = 0 then m else 2 ^ t.manW + m : Nat) : Rat) * (2 : Rat) ^ (t.emin - t.manW + (k - 1 : Nat)) := by
  have hd : (k * 2 ^ t.manW + m) / 2 ^ t.manW = k := by
    rw [Nat.mul_comm, Nat.mul_add_div (Nat.two_pow_pos _), Nat.div_eq_of_lt hm, Nat.add_zero]
  have hr : (k * 2 ^ t.manW + m) % 2 ^ t.manW = m := by rw [Nat.mul_add_mod_self_right, Nat.mod_eq_of_lt hm]
  unfold Ty.codeMag Ty.mag
  rw [hd, hr, ratOf_false]
  dsimp only
  split
  next h =>
    subst h
    rw [Nat.zero_sub, Int.natCast_zero, Int.add_zero]
  next h => rfl

/-- Each code lies above the one before it. -/
theorem Ty.codeMag_lt_succ (t : Ty) (c : Nat) : t.codeMag c < t.codeMag (c + 1) := by
  obtain ⟨k, m, hm, rfl⟩ : ∃ k m, m < 2 ^ t.manW ∧ c = k * 2 ^ t.manW + m :=
    ⟨c / 2 ^ t.manW, c % 2 ^ t.manW, Nat.mod_lt _ (Nat.two_pow_pos _), (Nat.div_add_mod' c _).symm⟩
  rw [t.codeMag_fields hm]
  by_cases hlast : m + 1 < 2 ^ t.manW
  · rw [Nat.add_assoc, t.codeMag_fields hlast, Rat.mul_lt_mul_right (two_zpow_pos _), Rat.natCast_lt_natCast]
    split <;> omega
  · have hm1 : m + 1 = 2 ^ t.manW := by omega
    have hnext : k * 2 ^ t.manW + m + 1 = (k + 1) * 2 ^ t.manW + 0 := by rw [← hm1, Nat.add_mul, Nat.one_mul]; omega
    rw [hnext, t.codeMag_fields (Nat.two_pow_pos _)]
    cases k with
    | zero =>
      rw [show t.emin - t.manW + (0 + 1 - 1 : Nat) = t.emin - t.manW + (0 - 1 : Nat) by omega, Rat.mul_lt_mul_right (two_zpow_pos _),
        Rat.natCast_lt_natCast, if_pos rfl, if_neg (Nat.succ_ne_zero 0)]
      exact hm
    | succ k =>
      have hlt : 2 ^ t.manW + m < 2 ^ t.manW * 2 := by omega
      have hman : ((2 ^ t.manW + m : Nat) : Rat) < (2 ^ t.manW : Nat) * 2 := by exact_mod_cast hlt
      have hmul := Rat.mul_lt_mul_of_pos_right hman (two_zpow_pos (t.emin - t.manW + (k + 1 - 1 : Nat)))
      rw [show t.emin - t.manW + (k + 1 + 1 - 1 : Nat) = t.emin - t.manW + (k + 1 - 1 : Nat) + 1 by omega, two_zpow_succ,
        if_neg (Nat.succ_ne_zero k), if_neg (Nat.succ_ne_zero _), Nat.add_zero, ← Rat.mul_assoc]
      exact hmul

theorem Ty.codeMag_lt (t : Ty) {c d : Nat} (h : c < d) : t.codeMag c < t.codeMag d := by
  induction h with
  | refl => exact t.codeMag_lt_succ c
  | @step d _ ih =>
    have hnext := t.codeMag_lt_succ d
    grind

theorem Ty.codeMag_le_iff (t : Ty) {c d : Nat} : t.codeMag c ≤ t.codeMag d ↔ c ≤ d := by
  refine ⟨fun h => Nat.not_lt.1 fun hlt => Rat.not_le.2 (t.codeMag_lt hlt) h, fun h => ?_⟩
  rcases Nat.eq_or_lt_of_le h with rfl | hlt
  · exact Rat.le_refl
  · exact Rat.le_of_lt (t.codeMag_lt hlt)

/-- The code of a multiple a of the spacing 2^u, a of at most one bit more than the mantissa holds. -/
def Ty.codeAt (t : Ty) (u : Int) (a : Nat) : Nat :=
  if a < 2 ^ t.manW then a else (u - (t.emin - t.manW) + 1).toNat * 2 ^ t.manW + (a - 2 ^ t.manW)

theorem Ty.codeMag_codeAt (t : Ty) {u : Int} {a : Nat} (hu : t.emin - t.manW ≤ u) (hsub : a < 2 ^ t.manW → u = t.emin - t.manW)
    (ha : a ≤ 2 ^ (t.manW + 1)) : t.codeMag (t.codeAt u a) = a * (2 : Rat) ^ u := by
  obtain ⟨p, rfl⟩ : ∃ p : Nat, u = t.emin - t.manW + p := ⟨(u - (t.emin - t.manW)).toNat, by omega⟩
  unfold Ty.codeAt
  split
  next h =>
    have hfields := t.codeMag_fields (k := 0) h
    rw [Nat.zero_mul, Nat.zero_add, if_pos rfl] at hfields
    rw [hfields, show t.emin - t.manW + (0 - 1 : Nat) = t.emin - t.manW + p by have := hsub h; omega]
  next h =>
    rw [show (t.emin - t.manW + p - (t.emin - t.manW) + 1).toNat = p + 1 by omega]
    rw [Nat.pow_succ] at ha
    by_cases hmax : a = 2 ^ t.manW * 2
    · have hcode : (p + 1) * 2 ^ t.manW + (a - 2 ^ t.manW) = (p + 2) * 2 ^ t.manW + 0 := by
        rw [show a - 2 ^ t.manW = 2 ^ t.manW by omega, Nat.add_mul, Nat.add_mul]; omega
      rw [hcode, t.codeMag_fields (Nat.two_pow_pos _), if_neg (by omega), hmax,
        show t.emin - t.manW + (p + 2 - 1 : Nat) = t.emin - t.manW + p + 1 by omega, two_zpow_succ, Rat.natCast_mul, Nat.add_zero]
      grind
    · rw [t.codeMag_fields (by omega), if_neg (by omega), show 2 ^ t.manW + (a - 2 ^ t.manW) = a by omega, Nat.add_sub_cancel]

theorem Ty.maxCode_lt {t : Ty} (h : t.isFloat = true) : t.maxCode < 2 ^ (t.width - 1) := by
  revert h
  cases t <;> decide

theorem Ty.two_pow_width (t : Ty) : 2 ^ t.width = 2 ^ (t.width - 1) * 2 := by
  cases t <;> rfl

theorem Ty.signed_lt (t : Ty) {c : Nat} (hc : c < 2 ^ (t.width - 1)) (n : Bool) : t.signed n c < 2 ^ t.width := by
  have hw := t.two_pow_width
  unfold Ty.signed
  split <;> omega

/-- Every code is a sign added to a code without one. -/
theorem Ty.eq_signed (t : Ty) {a : Nat} (ha : a < 2 ^ t.width) : ∃ n c, c < 2 ^ (t.width - 1) ∧ a = t.signed n c := by
  have hw := t.two_pow_width
  by_cases hs : a < 2 ^ (t.width - 1)
  · exact ⟨false, a, hs, rfl⟩
  · refine ⟨true, a - 2 ^ (t.width - 1), by omega, ?_⟩
    unfold Ty.signed
    rw [if_pos rfl]
    omega

/-- An infinity's code follows the largest finite one. -/
theorem Ty.infCode_eq {t : Ty} (h : t.hasInf = true) : t.infCode = t.maxCode + 1 := by
  revert h
  cases t <;> decide

/-- What a code with a sign stands for. -/
theorem Ty.decode_signed (t : Ty) {c : Nat} (hc : c < 2 ^ (t.width - 1)) (n : Bool) :
    t.decode (t.signed n c) =
      if (t.hasInf && decide (t.infCode ≤ c)) = true then
        if c = t.infCode then .inf n else .nan (c / 2 ^ (t.manW - 1) % 2 == 0)
      else if (t == .e4m3 && decide (c = 0x7F)) = true then .nan false
      else .fin n (t.mag c).1 (t.mag c).2 := by
  have hd : t.signed n c / 2 ^ (t.width - 1) = n.toNat := by
    cases n with
    | false => exact Nat.div_eq_of_lt hc
    | true => exact (Nat.add_div_right c (Nat.two_pow_pos _)).trans (congrArg Nat.succ (Nat.div_eq_of_lt hc))
  have hm : t.signed n c % 2 ^ (t.width - 1) = c := by
    cases n with
    | false => exact Nat.mod_eq_of_lt hc
    | true => exact (Nat.add_mod_right c _).trans (Nat.mod_eq_of_lt hc)
  unfold Ty.decode
  rw [hd, hm]
  cases n <;> rfl

/-- The codes up to the largest finite one are numbers. -/
theorem Ty.decode_signed_finite {t : Ty} (h : t.isFloat = true) {c : Nat} (hc : c ≤ t.maxCode) (n : Bool) :
    t.decode (t.signed n c) = .fin n (t.mag c).1 (t.mag c).2 := by
  have hinf : (t.hasInf && decide (t.infCode ≤ c)) = false := by
    cases hi : t.hasInf with
    | false => rfl
    | true => rw [infCode_eq hi, Bool.true_and]; exact decide_eq_false (by omega)
  have hnan : (t == .e4m3 && decide (c = 0x7F)) = false := by
    by_cases ht : t = .e4m3
    · subst ht
      rw [decide_eq_false (by have : Ty.e4m3.maxCode = 0x7E := rfl; omega), Bool.and_false]
    · rw [beq_false_of_ne ht, Bool.false_and]
  rw [t.decode_signed (Nat.lt_of_le_of_lt hc (maxCode_lt h)), hinf, hnan]
  rfl

end Sys2Proof
end

section
/-! SUPPORT. The model's delivery of a finite value is the one of the rules: tiny, large and exact results, their codes and flags (R20, R21, R26, R29). -/
namespace Sys2Proof
open Machine

-- ## What is tiny, large and exact

/-- The model's test for a tiny result: `top` is the exponent of the exact magnitude, f its rounding with no bound on the exponent. -/
def Ty.isTiny (t : Ty) (top : Int) (f : Nat) : Bool :=
  decide (top < t.emin) && !(decide (top = t.emin - 1) && f == 2 ^ (t.manW + 1))

/-- R29: tiny means that the rounding with no bound on the exponent lies below the least normal value. -/
theorem Ty.isTiny_iff (t : Ty) {top : Int} {f : Nat} (hlo : 2 ^ t.manW ≤ f) (hhi : f ≤ 2 ^ (t.manW + 1)) :
    t.isTiny top f = true ↔ (f : Rat) * (2 : Rat) ^ (top - t.manW) < (2 : Rat) ^ t.emin := by
  have hp := two_zpow_pos (top - t.manW)
  have hmul (w : Nat) : ((2 ^ w : Nat) : Rat) * (2 : Rat) ^ (top - t.manW) = (2 : Rat) ^ (w + (top - t.manW) : Int) := by
    rw [two_zpow_add, two_zpow_natCast, Rat.natCast_pow]
    rfl
  have hge := Rat.mul_le_mul_of_nonneg_right (Rat.natCast_le_natCast.2 hlo) (Rat.le_of_lt hp)
  have hle := Rat.mul_le_mul_of_nonneg_right (Rat.natCast_le_natCast.2 hhi) (Rat.le_of_lt hp)
  rw [hmul, show (t.manW : Int) + (top - t.manW) = top by omega] at hge
  rw [hmul, show ((t.manW + 1 : Nat) : Int) + (top - t.manW) = top + 1 by omega] at hle
  by_cases hsmall : top < t.emin - 1
  · have hlt := two_zpow_lt (show top + 1 < t.emin by omega)
    have hyes : t.isTiny top f = true := by
      rw [isTiny, decide_eq_true (by omega : top < t.emin), decide_eq_false (by omega : ¬top = t.emin - 1)]
      rfl
    exact iff_of_true hyes (by grind)
  by_cases hbig : t.emin ≤ top
  · have hle' := two_zpow_le hbig
    have hno : ¬t.isTiny top f = true := by
      rw [isTiny, decide_eq_false (by omega : ¬top < t.emin), Bool.false_and]
      exact Bool.false_ne_true
    exact iff_of_false hno (by grind)
  · have heq : (2 : Rat) ^ t.emin = ((2 ^ (t.manW + 1) : Nat) : Rat) * (2 : Rat) ^ (top - t.manW) := by
      rw [hmul, show ((t.manW + 1 : Nat) : Int) + (top - t.manW) = t.emin by omega]
    rw [heq, Rat.mul_lt_mul_right hp, Rat.natCast_lt_natCast, isTiny, decide_eq_true (by omega : top < t.emin),
      decide_eq_true (by omega : top = t.emin - 1), Bool.true_and, Bool.true_and, Bool.not_eq_true', beq_eq_false_iff_ne]
    omega

/-- The model's test for an overflow: the rounding is a multiples of 2^u. -/
def Ty.isLarge (t : Ty) (u : Int) (a : Nat) : Bool :=
  decide ((t.mag t.maxCode).1 * 2 ^ ((t.mag t.maxCode).2 - u).toNat < a) && decide (u ≤ (t.mag t.maxCode).2) || decide ((t.mag t.maxCode).2 < u)

theorem Ty.le_mag_snd (t : Ty) (c : Nat) : t.emin - t.manW ≤ (t.mag c).2 := by
  unfold Ty.mag
  dsimp only
  split
  · exact Int.le_refl _
  · dsimp only; omega

/-- R26: large means beyond the largest finite value. -/
theorem Ty.isLarge_iff (t : Ty) {u : Int} {a : Nat} (hlo : t.emin - t.manW < u → 2 ^ t.manW ≤ a) :
    t.isLarge u a = true ↔ t.codeMag t.maxCode < a * (2 : Rat) ^ u := by
  rw [codeMag, ratOf_false]
  by_cases h : u ≤ (t.mag t.maxCode).2
  · have hcast : ((t.mag t.maxCode).1 : Rat) * (2 : Rat) ^ ((t.mag t.maxCode).2 - u).toNat =
        ((t.mag t.maxCode).1 * 2 ^ ((t.mag t.maxCode).2 - u).toNat : Nat) := by rw [Rat.natCast_mul, Rat.natCast_pow]; rfl
    rw [zpow_eq_pow_mul h, ← Rat.mul_assoc, Rat.mul_lt_mul_right (two_zpow_pos u), hcast, Rat.natCast_lt_natCast, isLarge, decide_eq_true h,
      decide_eq_false (Int.not_lt.2 h), Bool.and_true, Bool.or_false, decide_eq_true_eq]
  · have hman : ((t.mag t.maxCode).1 : Rat) < (2 ^ t.manW : Nat) * 2 := by exact_mod_cast t.mag_fst_lt t.maxCode
    have ha : ((2 ^ t.manW : Nat) : Rat) ≤ a := Rat.natCast_le_natCast.2 (hlo (by have := t.le_mag_snd t.maxCode; omega))
    have hmax := Rat.mul_lt_mul_of_pos_right hman (two_zpow_pos (t.mag t.maxCode).2)
    have hy := Rat.mul_le_mul_of_nonneg_right ha (Rat.le_of_lt (two_zpow_pos u))
    have hspace := two_zpow_le (show (t.mag t.maxCode).2 + 1 ≤ u by omega)
    rw [two_zpow_succ] at hspace
    have hmid := Rat.mul_le_mul_of_nonneg_left hspace (Rat.natCast_nonneg (a := 2 ^ t.manW))
    have hyes : t.isLarge u a = true := by
      rw [isLarge, decide_eq_true (Int.not_le.1 h), Bool.or_true]
    exact iff_of_true hyes (by grind)

/-- A rounding equals the exact magnitude where nothing was cut off. -/
theorem Truncated.exact_iff {le lt : Rat → Prop} {m : Nat} {e : Int} {sticky : Bool} (h : Truncated le lt m e sticky) {u : Int}
    (hu : sticky = true → e + 32 ≤ u) (mode : Rnd) (neg : Bool) (r : W32) :
    let y : Rat := (roundAt mode neg m e sticky r u).1 * (2 : Rat) ^ u
    le y ∧ ¬lt y ↔ (roundAt mode neg m e sticky r u).2 = false := by
  intro y
  obtain ⟨l0, t0⟩ := h.at_zero hu mode neg r
  simp only [y, roundAt_fst]
  split
  next hup =>
    have hin : ¬(roundAt mode neg m e sticky r u).2 = false := fun hc => by
      obtain ⟨hz, rfl⟩ := roundAt_snd_eq_false.1 hc
      rw [hz, roundUp_exact] at hup
      exact Bool.false_ne_true hup
    have hnle := h.not_le_at_one hu
    refine iff_of_false (fun hle => hnle ?_) hin
    rw [Rat.natCast_add] at hle
    exact hle.1
  next => exact ⟨fun hy => eq_false_of_ne_true (mt t0.2 hy.2), fun hex => ⟨l0, fun hlt => Bool.false_ne_true (hex.symm.trans (t0.1 hlt))⟩⟩

-- ## The rounding of R21, R26 and R29

/-- The code and flags of a non-zero magnitude, by its rounding and the tests. -/
theorem Ty.round_eq (t : Ty) (mode : Rnd) (sat fz : Bool) (r : W32) (neg : Bool) {m : Nat} (hm : m ≠ 0) (e : Int) (sticky : Bool) :
    t.round mode sat fz r neg m e sticky =
      let top : Int := (Nat.log2 m : Int) + e
      let u : Int := max top t.emin - t.manW
      let a := roundAt mode neg m e sticky r u
      let tiny := t.isTiny top (roundAt mode neg m e sticky r (top - t.manW)).1
      if (fz && t.isArith && tiny) = true then (t.signed neg 0, Flags.round a.2 tiny false true)
      else if t.isLarge u a.1 = true then (t.overflow mode sat neg, Flags.round a.2 tiny true false)
      else (t.signed neg (t.codeAt u a.1), Flags.round a.2 tiny false false) := by
  unfold Ty.round
  rw [if_neg hm]
  rfl

/-- R26's table. -/
theorem Ty.overflow_eq {t : Ty} (ht : t.isFloat = true) (mode : Rnd) (sat neg : Bool) :
    t.overflow mode sat neg = t.signed neg
      (if t = .e4m3 ∨ t = .e2m1 ∨ sat = true then t.maxCode
       else match mode with
        | .rn | .rs => t.infCode
        | .rz => t.maxCode
        | .ru => if neg then t.maxCode else t.infCode
        | .rd => if neg then t.infCode else t.maxCode) := by
  have hinf : (!t.hasInf || sat) = true ↔ t = .e4m3 ∨ t = .e2m1 ∨ sat = true := by
    revert ht
    cases t <;> cases sat <;> decide
  unfold Ty.overflow
  by_cases hs : (!t.hasInf || sat) = true
  · rw [if_pos hs, if_pos (hinf.1 hs)]
  · rw [if_neg hs, if_neg (mt hinf.2 hs)]
    cases mode <;> rfl

section
variable (mode : Rnd) (neg : Bool) {m : Nat} (hm : m ≠ 0) (e : Int) (sticky : Bool) (r : W32) (w : Nat)
include hm

/-- To w bits below the leading one, a rounding keeps w + 1 bits, or is the next power of 2. -/
theorem le_roundAt_top : 2 ^ w ≤ (roundAt mode neg m e sticky r ((Nat.log2 m : Int) + e - w)).1 := by
  refine le_roundAt_fst ?_ ..
  have hle := zpow_log2_le hm e
  rw [show (Nat.log2 m : Int) + e = w + ((Nat.log2 m : Int) + e - w) by omega, two_zpow_add, two_zpow_natCast] at hle
  rw [Rat.natCast_pow]
  exact hle

omit hm in
theorem roundAt_le_top {u : Int} (hu : (Nat.log2 m : Int) + e - w ≤ u) : (roundAt mode neg m e sticky r u).1 ≤ 2 ^ (w + 1) := by
  refine roundAt_fst_le ?_ ..
  have hlt := lt_zpow_log2_succ m e
  have hle := two_zpow_le (show (Nat.log2 m : Int) + e + 1 ≤ ((w + 1 : Nat) : Int) + u by omega)
  rw [two_zpow_add (w + 1 : Nat) u, two_zpow_natCast] at hle
  have hcast : ((2 ^ (w + 1) : Nat) : Rat) = (2 : Rat) ^ (w + 1) := Rat.natCast_pow 2 (w + 1)
  rw [hcast]
  grind

end

/-- R29: an exact result raises no flag. -/
theorem Flags.round_exact (tiny : Bool) : Flags.round false tiny false false = 0 := by cases tiny <;> rfl

/-- R20, R21, R26, R29: the model's rounding of a truncated magnitude is the delivery of the rules. -/
theorem Truncated.rounds_round {le lt : Rat → Prop} {m : Nat} {e : Int} {sticky : Bool} (h : Truncated le lt m e sticky) {t : Ty}
    (ht : t.isFloat = true) (hm : m ≠ 0) (hst : sticky = true → t.manW + 32 ≤ Nat.log2 m) (mode : Rnd) (sat fz : Bool) (r : W32) (neg : Bool) :
    t.Rounds mode sat fz r neg le lt (t.round mode sat fz r neg m e sticky) := by
  rw [t.round_eq mode sat fz r neg hm e sticky]
  generalize htop : (Nat.log2 m : Int) + e = top
  generalize hu : max top t.emin - (t.manW : Int) = u
  have hue : sticky = true → e + 32 ≤ u := fun hs => by have := hst hs; omega
  have hfe : sticky = true → e + 32 ≤ top - t.manW := fun hs => by have := hst hs; omega
  have hpow (p : Int) (hp : e ≤ p) : le ((2 : Rat) ^ p) ↔ (2 : Rat) ^ p ≤ m * (2 : Rat) ^ e := by
    obtain ⟨i, hi⟩ := zpow_eq_int_mul hp 1
    exact h.le_iff _ fun _ => ⟨i, (Rat.one_mul _).symm.trans hi⟩
  have hflo := le_roundAt_top mode neg hm e sticky r t.manW
  have hfhi := roundAt_le_top mode neg (m := m) e sticky r t.manW (Int.le_refl _)
  rw [htop] at hflo hfhi
  have hahi : (roundAt mode neg m e sticky r u).1 ≤ 2 ^ (t.manW + 1) := roundAt_le_top _ _ _ _ _ _ (by omega)
  have halo : t.emin - t.manW < u → 2 ^ t.manW ≤ (roundAt mode neg m e sticky r u).1 := fun hlt => by
    obtain rfl : top - t.manW = u := by omega
    exact hflo
  have hexact := h.exact_iff hue mode neg r
  have htiny := t.isTiny_iff (top := top) hflo hfhi
  have hlarge := t.isLarge_iff halo
  refine ⟨top, (roundAt mode neg m e sticky r u).1, (roundAt mode neg m e sticky r (top - t.manW)).1,
    (hpow _ (by omega)).2 (htop ▸ zpow_log2_le hm e), fun hle => ?_, ?_⟩
  · exact Rat.not_lt.2 ((hpow _ (by omega)).1 hle) (htop ▸ lt_zpow_log2_succ m e)
  have hflush : (fz && t.isArith && t.isTiny top (roundAt mode neg m e sticky r (top - t.manW)).1) = true ↔
      fz = true ∧ t.isArith = true ∧ ((roundAt mode neg m e sticky r (top - t.manW)).1 : Rat) * 2 ^ (top - t.manW) < 2 ^ t.emin := by
    rw [← htiny, Bool.and_eq_true, Bool.and_eq_true, and_assoc]
  dsimp only
  rw [hu]
  refine ⟨h.rounded_roundAt hue mode neg r, h.rounded_roundAt hfe mode neg r, fun hf => ?_, fun hf hl => ?_, fun hf hl => ?_⟩
  · rw [if_pos (hflush.2 hf)]; rfl
  · rw [if_neg (mt hflush.1 hf), if_pos (hlarge.2 hl)]
    exact ⟨rfl, Ty.overflow_eq ht mode sat neg⟩
  · rw [if_neg (mt hflush.1 hf), if_neg (mt hlarge.1 hl)]
    have hmag := t.codeMag_codeAt (u := u) (by omega) (fun hlt => by have hsub := mt halo (Nat.not_le.2 hlt); omega) hahi
    have hcode : t.codeAt u (roundAt mode neg m e sticky r u).1 ≤ t.maxCode :=
      t.codeMag_le_iff.1 (hmag ▸ Rat.not_lt.1 hl)
    refine ⟨t.signed_lt (Nat.lt_of_le_of_lt hcode (Ty.maxCode_lt ht)) neg, ⟨_, _, Ty.decode_signed_finite ht hcode neg, hmag⟩, fun hle hlt => ?_, fun hne => ?_⟩
    · rw [hexact.1 ⟨hle, hlt⟩]; exact Flags.round_exact _
    · have hin : (roundAt mode neg m e sticky r u).2 = true := eq_true_of_ne_false (mt hexact.2 hne)
      rw [← htiny, hin]
      exact ⟨fun hyes => by rw [hyes]; rfl, fun hno => by rw [eq_false_of_ne_true hno]; rfl⟩

/-- A magnitude delivered with its sign is the delivery of the number. -/
theorem Ty.Rounds.gives {t : Ty} {mode : Rnd} {sat fz neg : Bool} {r : W32} {x : Rat} {o : Nat × Flags} (hx : 0 < x)
    (h : t.Rounds mode sat fz r neg (fun q => q ≤ x) (fun q => q < x) o) (zneg : Bool) :
    t.Gives mode sat fz r ((if neg = true then -1 else 1) * x) zneg o := by
  unfold Ty.Gives
  cases neg with
  | false =>
    rw [if_neg Bool.false_ne_true, Rat.one_mul]
    have hnlt : ¬x < 0 := Rat.not_lt.2 (Rat.le_of_lt hx)
    refine ⟨fun h0 => absurd h0 (Rat.ne_of_gt hx), fun _ => ?_⟩
    simp only [hnlt, if_false, decide_false]
    exact h
  | true =>
    rw [if_pos rfl, show -1 * x = -x by grind]
    have hlt : -x < 0 := by grind
    refine ⟨fun h0 => absurd h0 (Rat.ne_of_lt hlt), fun _ => ?_⟩
    simp only [hlt, if_true, decide_true, Rat.neg_neg]
    exact h

/-- R20, R21, R26: a finite value is delivered rounded once. -/
theorem Ty.gives_deliver {t : Ty} (ht : t.isFloat = true) (mode : Rnd) (sat fz : Bool) (r : W32) (neg : Bool) (m : Nat) (e : Int) :
    t.Gives mode sat fz r (ratOf neg m e) neg (t.deliver mode sat fz r (.fin neg m e)) := by
  by_cases hm : m = 0
  · subst hm
    exact ⟨fun _ => rfl, fun hx => absurd (ratOf_zero neg e) hx⟩
  · rw [ratOf_eq_sign_mul]
    exact ((truncated_exact m e).rounds_round ht hm nofun mode sat fz r neg).gives (ratOf_false_pos hm e) neg

end Sys2Proof
end

section
/-! PROOF. The rounding modes (O24): bounds of each mode, and the draws of the generators (R21 to R23). -/
namespace Sys2Proof
open Machine

theorem Ty.isFloat_of_listed {t : Ty} (h : [Ty.f32, .f16, .bf16, .e5m2, .e4m3, .e2m1].contains t = true) : t.isFloat = true := by
  revert h
  cases t <;> decide

-- ## What the rules' rounding says of each mode

/-- R21: the rounding of an exact number lies at most one spacing from it, on the side that its mode names. -/
theorem rounded_rat {mode : Rnd} {neg : Bool} {r : W32} {x : Rat} {u : Int} {a : Nat}
    (h : rounded mode neg r (fun q => q ≤ x) (fun q => q < x) u a) :
    let y : Rat := ratOf false a u
    let unit : Rat := ratOf false 1 u
    (mode = .rz ∨ (mode = .ru ∧ neg = true) ∨ (mode = .rd ∧ neg = false) → y ≤ x ∧ x < y + unit) ∧
    ((mode = .ru ∧ neg = false) ∨ (mode = .rd ∧ neg = true) → x ≤ y ∧ y < x + unit) ∧
    (mode = .rn → 2 * (x - y) ≤ unit ∧ 2 * (y - x) ≤ unit ∧ (2 * (x - y) = unit ∨ 2 * (y - x) = unit → a % 2 = 0)) := by
  have hone (a : Nat) : ratOf false a u = a * ratOf false 1 u := by
    rw [ratOf_false, ratOf_false, show ((1 : Nat) : Rat) = 1 from rfl, Rat.one_mul]
  intro y unit
  have hp : 0 < unit := ratOf_false_pos Nat.one_ne_zero u
  have hu : (2 : Rat) ^ u = unit := by
    rw [show unit = ratOf false 1 u from rfl, ratOf_false, show ((1 : Nat) : Rat) = 1 from rfl, Rat.one_mul]
  have hy : y = a * unit := hone a
  obtain ⟨k, hle, hnle, hexact, hin⟩ := h
  simp only [hu, Rat.add_zero] at hle hnle hexact hin
  have hsucc (hak : a = k + 1) : y = k * unit + unit := by
    rw [hy, hak, Rat.natCast_add, show ((1 : Nat) : Rat) = 1 from rfl, Rat.add_mul, Rat.one_mul]
  by_cases hx : (k : Rat) * unit < x
  · have hnext := hin hx
    have hdown (hak : a = k) : y ≤ x ∧ x < y + unit := by
      subst hak
      exact ⟨by grind, by grind⟩
    have hup (hak : a = k + 1) : x ≤ y ∧ y < x + unit := by
      rw [hsucc hak]
      exact ⟨by grind, by grind⟩
    refine ⟨?_, ?_, ?_⟩
    · rintro (rfl | ⟨rfl, rfl⟩ | ⟨rfl, rfl⟩) <;> exact hdown hnext
    · rintro (⟨rfl, rfl⟩ | ⟨rfl, rfl⟩) <;> exact hup hnext
    · rintro rfl
      obtain ⟨hbelow, habove, htie⟩ := hnext
      by_cases hhalf : ((k : Rat) + 1 / 2) * unit ≤ x
      · by_cases hmore : ((k : Rat) + 1 / 2) * unit < x
        · rw [hsucc (habove hmore)]
          exact ⟨by grind, by grind, by grind⟩
        · obtain ⟨heven, ha | ha⟩ := htie hhalf hmore
          · rw [hy, ha]
            exact ⟨by grind, by grind, fun _ => ha ▸ heven⟩
          · rw [hsucc ha]
            exact ⟨by grind, by grind, fun _ => heven⟩
      · rw [hy, hbelow hhalf]
        exact ⟨by grind, by grind, by grind⟩
  · have hyx : y = x := by
      rw [hy, hexact hx]
      exact Rat.le_antisymm hle (Rat.not_lt.1 hx)
    rw [hyx]
    exact ⟨fun _ => ⟨by grind, by grind⟩, fun _ => ⟨by grind, by grind⟩, fun _ => ⟨by grind, by grind, by grind⟩⟩

/-- Two multiples of one spacing that both truncate x are the same. -/
theorem truncation_unique {x : Rat} {u : Int} {a b : Nat} (ha : ratOf false a u ≤ x ∧ x < ratOf false a u + ratOf false 1 u)
    (hb : ratOf false b u ≤ x ∧ x < ratOf false b u + ratOf false 1 u) : a = b := by
  have step {c d : Nat} (hc : ratOf false c u ≤ x) (hd : x < ratOf false d u + ratOf false 1 u) : c ≤ d := by
    have hlt : (c : Rat) * (2 : Rat) ^ u < (d + 1 : Nat) * (2 : Rat) ^ u := by
      rw [ratOf_false] at hc hd
      rw [ratOf_false, show ((1 : Nat) : Rat) = 1 from rfl] at hd
      rw [Rat.natCast_add, show ((1 : Nat) : Rat) = 1 from rfl]
      grind
    rw [Rat.mul_lt_mul_right (two_zpow_pos u), Rat.natCast_lt_natCast] at hlt
    omega
  exact Nat.le_antisymm (step ha.1 hb.2) (step hb.1 ha.2)

/-- Whether a rounding is inexact is whether the multiples held differ from the magnitude. -/
theorem roundAt_inexact_iff (mode : Rnd) (neg : Bool) (m : Nat) (e : Int) (r : W32) (u : Int) :
    (roundAt mode neg m e false r u).2 = true ↔ ratOf false (m * 2 ^ (e - u).toNat / 2 ^ (u - e).toNat) u ≠ ratOf false m e := by
  have hcut := cut_mul_zpow m e u
  have hS := Rat.ne_of_gt (two_pow_pos (u - e).toNat)
  have hU := Rat.ne_of_gt (two_zpow_pos u)
  rw [← cut_fst, ratOf_false, ratOf_false, roundAt_snd, Bool.or_false, bne_iff_ne]
  refine not_congr ⟨fun hz => ?_, fun heq => ?_⟩
  · rw [hz, show ((0 : Nat) : Rat) = 0 from rfl] at hcut
    grind
  · rw [← heq] at hcut
    rw [← Rat.natCast_eq_zero_iff]
    grind

/-- An exact rounding is the magnitude. -/
theorem roundAt_exact {mode : Rnd} {neg : Bool} {m : Nat} {e : Int} {r : W32} {u : Int} (h : (roundAt mode neg m e false r u).2 = false) :
    ratOf false (roundAt mode neg m e false r u).1 u = ratOf false m e := by
  have heq := mt (roundAt_inexact_iff mode neg m e r u).2 (Bool.eq_false_iff.1 h)
  obtain ⟨hz, -⟩ := roundAt_snd_eq_false.1 h
  rw [roundAt_fst, hz, roundUp_exact, if_neg Bool.false_ne_true, cut_fst]
  exact Decidable.not_not.1 heq

end Sys2Proof

-- ## The generators of the lanes (R23)

namespace Sys2Proof.Machine
open Sys2Proof

theorem repeat_genNext_shift (n : Nat) (g : W32) : Nat.repeat genNext n (genNext g) = Nat.repeat genNext (n + 1) g := by
  induction n with
  | zero => rfl
  | succ n ih => exact congrArg genNext ih

theorem draws_eq (n : Nat) (g : W32) :
    draws n g = ((List.range n).map (fun k => Nat.repeat genNext (k + 1) g), Nat.repeat genNext n g) := by
  induction n generalizing g with
  | zero => rfl
  | succ n ih =>
    have hstep : draws (n + 1) g = (genNext g :: (draws n (genNext g)).1, (draws n (genNext g)).2) := rfl
    rw [hstep, ih]
    simp only [repeat_genNext_shift, List.range_succ_eq_map, List.map_cons, List.map_map]
    rfl

theorem State.rand_rs (s : State) (l n : Nat) :
    s.rand .rs l n = (List.range n).map (fun k => Nat.repeat genNext (k + 1) (s.me.lane l).gen) := by
  simp only [State.rand, if_true, draws_eq]

/-- Lanes changed under a mask, read back. -/
theorem Str.lane_modLanes (t : Str) (m : Mask) (f : Lane → Lane) {l : Nat} (h : l < 32) :
    (t.modLanes m f).lane l = if m.has l = true then f (t.lane l) else t.lane l := by
  have hlane : t.lane l = t.lanes[l] := by
    unfold Str.lane Array.getD
    rw [dif_pos (by rw [Vector.size_toArray]; exact h)]
    rfl
  rw [hlane]
  unfold Str.modLanes Str.mapLanes Str.lane
  rw [gen_getD _ _ _ _ h, dif_pos h]

theorem State.lane_drawn_rs (s : State) (lanes : Mask) (n : Nat) {l : Nat} (h : l < 32) :
    ((s.drawn .rs lanes n).me.lane l).gen =
      if lanes.has l = true then Nat.repeat genNext n (s.me.lane l).gen else (s.me.lane l).gen := by
  simp only [State.drawn, if_true, State.me_modMe, Str.lane_modLanes _ _ _ h, draws_eq]
  split <;> rfl

theorem State.drawn_of_ne_rs (s : State) {mode : Rnd} (h : mode ≠ .rs) (lanes : Mask) (n : Nat) : s.drawn mode lanes n = s := if_neg h

theorem genSeed_eq (v : W64) (l : Nat) :
    let g : W32 := v.setWidth 32 ^^^ (v >>> 32).setWidth 32 ^^^ BitVec.ofNat 32 (l * 0x9E3779B9)
    genSeed v l = if g = 0 then 1 else g := by
  have hlo : v.extractLsb' 0 32 = v.setWidth 32 :=
    BitVec.eq_of_toNat_eq (by rw [BitVec.extractLsb'_toNat, BitVec.toNat_setWidth, Nat.shiftRight_zero])
  have hhi : v.extractLsb' 32 32 = (v >>> 32).setWidth 32 :=
    BitVec.eq_of_toNat_eq (by rw [BitVec.extractLsb'_toNat, BitVec.toNat_setWidth, BitVec.toNat_ushiftRight])
  simp only [genSeed, hlo, hhi]

end Sys2Proof.Machine

namespace Sys2Proof
open Machine

/-- Settles O24: the model's rounding is that of the rules (`Truncated.rounded_roundAt`), from which each mode's bounds follow; a delivery is one
rounding (`Ty.gives_deliver`), and the draws of a lane are the powers of the generator's step. -/
theorem roundingModes : Obligations.RoundingModes := by
  refine ⟨fun t mode sat fz neg r m e ht => Ty.gives_deliver (Ty.isFloat_of_listed ht) mode sat fz r neg m e,
    fun s l n lanes hl => ⟨s.rand_rs l n, s.lane_drawn_rs lanes n hl, fun mode h => s.drawn_of_ne_rs h lanes n, fun v => genSeed_eq v l⟩, ?_⟩
  intro neg m e u r x at_ unit
  have hround (mode : Rnd) := (truncated_exact m e).rounded_roundAt (u := u) nofun mode neg r
  have hbound (mode : Rnd) := rounded_rat (hround mode)
  have hrz := (hbound .rz).1 (.inl rfl)
  obtain ⟨habove, hbelow, htie⟩ := (hbound .rn).2.2 rfl
  exact ⟨fun mode => roundAt_inexact_iff mode neg m e r u, fun mode => roundAt_exact, hrz,
    fun mode hm => congrArg (ratOf false · u) (truncation_unique ((hbound mode).1 (.inr hm)) hrz),
    fun mode => (hbound mode).2.1, ⟨habove, hbelow⟩, htie, hround⟩

end Sys2Proof
end

section
/-! PROOF. Special operands (O23): what is delivered of NaNs, infinities and zeros, operands under FZ, and the sign bit (R17, R20, R192, R195). -/
namespace Sys2Proof
open Machine

-- ## What is delivered of special values

theorem Flags.zero_or (f : Flags) : 0 ||| f = f := BitVec.zero_or

theorem Flags.or_zero (f : Flags) : f ||| 0 = f := BitVec.or_zero

section
variable {t : Ty} (ht : t.isArith = true) (mode : Rnd) (sat fz : Bool) (r : W32) (st : Bool)

section
include ht

theorem Ty.deliver_nan (sig : Bool) : t.deliver mode sat fz r (.nan sig) st = (t.nanCode, Flags.when sig fNV) := by
  revert ht
  cases t with
  | f32 | f16 | bf16 => exact fun _ => rfl
  | _ => exact fun hfalse => absurd hfalse Bool.false_ne_true

theorem Ty.deliver_inf (n : Bool) : t.deliver mode sat fz r (.inf n) st = (t.signed n t.infCode, 0) := by
  revert ht
  cases t with
  | f32 | f16 | bf16 => exact fun _ => rfl
  | _ => exact fun hfalse => absurd hfalse Bool.false_ne_true

theorem fOut_nan (f : Flags) : fOut t mode fz r (.nan false) st f = (t.nanCode, f) := by
  simp only [fOut, Ty.deliver_nan ht, Flags.when, Bool.false_eq_true, if_false, Flags.zero_or]

theorem fOut_inf (n : Bool) (f : Flags) : fOut t mode fz r (.inf n) st f = (t.signed n t.infCode, f) := by
  simp only [fOut, Ty.deliver_inf ht, Flags.zero_or]

end

theorem Ty.deliver_zero (n : Bool) (e : Int) : t.deliver mode sat fz r (.fin n 0 e) st = (t.signed n 0, 0) := rfl

theorem fOut_zero (n : Bool) (e : Int) (f : Flags) : fOut t mode fz r (.fin n 0 e) st f = (t.signed n 0, f) := by
  simp only [fOut, Ty.deliver_zero, Flags.zero_or]

theorem fOut_no_flag (v : FVal) : fOut t mode fz r v st 0 = t.deliver mode false fz r v st := by
  simp only [fOut, Flags.or_zero]

end

-- ## Operands (R20)

theorem FVal.exists_of_isNan {v : FVal} (h : v.isNan = true) : ∃ s, v = .nan s := by
  cases v with
  | nan s => exact ⟨s, rfl⟩
  | _ => exact absurd h Bool.false_ne_true

/-- A value below the least normal one by its leading bit lies below it. -/
theorem Ty.isSub_fin (t : Ty) (n : Bool) (m : Nat) (e : Int) :
    t.isSub (.fin n m e) = true ↔ m ≠ 0 ∧ ratOf false m e < (2 : Rat) ^ t.emin := by
  unfold Ty.isSub
  rw [Bool.and_eq_true, bne_iff_ne, decide_eq_true_eq, ratOf_false]
  refine and_congr_right fun hm => ⟨fun h => ?_, fun h => ?_⟩
  · have hlt := lt_zpow_log2_succ m e
    have hle := two_zpow_le (show (Nat.log2 m : Int) + e + 1 ≤ t.emin by omega)
    grind
  · have hle := zpow_log2_le hm e
    exact lt_of_two_zpow_lt (by grind)

/-- R20: a subnormal operand under FZ is a zero of its sign. -/
theorem fIn_of_decode_fin {t : Ty} (ht : t.isArith = true) (fz : Bool) {a : Nat} {n : Bool} {k : Nat} {e : Int} (h : t.decode a = .fin n k e) :
    fIn t fz a = if fz = true ∧ k ≠ 0 ∧ ratOf false k e < (2 : Rat) ^ t.emin then .fin n 0 0 else .fin n k e := by
  simp only [fIn, h, Ty.flushIn, ht, Bool.and_true, Bool.and_eq_true, Ty.isSub_fin]

theorem fIn_of_decode_not_fin {t : Ty} (fz : Bool) {a : Nat} (h : ∀ n k e, t.decode a ≠ .fin n k e) : fIn t fz a = t.decode a := by
  unfold fIn Ty.flushIn
  split
  next n k e heq => exact absurd heq (h n k e)
  next => rfl

theorem fIn_of_decode_nan {t : Ty} (fz : Bool) {a : Nat} {s : Bool} (h : t.decode a = .nan s) : fIn t fz a = .nan s := by
  rw [fIn_of_decode_not_fin fz (h ▸ nofun), h]

-- ## The sign bit

/-- Flipping the bit above a number adds it. -/
theorem xor_two_pow_of_lt {a k : Nat} (h : a < 2 ^ k) : a ^^^ 2 ^ k = a + 2 ^ k := by
  have hor : 2 ^ k + a = 2 ^ k ||| a := by
    have hmul := Nat.two_pow_add_eq_or_of_lt h 1
    rwa [Nat.mul_one] at hmul
  rw [Nat.add_comm, hor]
  refine Nat.eq_of_testBit_eq fun i => ?_
  by_cases hi : k = i
  · subst hi
    rw [Nat.testBit_xor, Nat.testBit_or, Nat.testBit_lt_two_pow h, Bool.false_xor, Bool.or_false]
  · rw [Nat.testBit_xor, Nat.testBit_or, Nat.testBit_two_pow_of_ne hi, Bool.xor_false, Bool.false_or]

theorem xor_two_pow_of_ge {a k : Nat} (hlo : 2 ^ k ≤ a) (hhi : a < 2 ^ (k + 1)) : a ^^^ 2 ^ k = a - 2 ^ k := by
  have h := xor_two_pow_of_lt (a := a - 2 ^ k) (k := k) (by rw [Nat.pow_succ] at hhi; omega)
  rw [Nat.sub_add_cancel hlo] at h
  calc a ^^^ 2 ^ k = (a - 2 ^ k) ^^^ 2 ^ k ^^^ 2 ^ k := by rw [h]
    _ = a - 2 ^ k := by rw [Nat.xor_assoc, Nat.xor_self, Nat.xor_zero]

theorem fSig_singleton (t : Ty) (a : Nat) : fSig t [a] = Flags.when (t.decode a).isSig fNV := by
  simp only [fSig, List.any_cons, List.any_nil, Bool.or_false]

theorem fSig_pair (t : Ty) (a b : Nat) : fSig t [a, b] = Flags.when ((t.decode a).isSig || (t.decode b).isSig) fNV := by
  simp only [fSig, List.any_cons, List.any_nil, Bool.or_false]

theorem fpAbs_of_not_nan {t : Ty} {a : Nat} (h : (t.decode a).isNan = false) : fpAbs t a = (a % 2 ^ (t.width - 1), 0) := by
  simp only [fpAbs, h, Bool.false_eq_true, if_false]

theorem fpNeg_of_not_nan {t : Ty} {a : Nat} (h : (t.decode a).isNan = false) : fpNeg t a = (a ^^^ 2 ^ (t.width - 1), 0) := by
  simp only [fpNeg, h, Bool.false_eq_true, if_false]

theorem fpNeg_fst {t : Ty} {a : Nat} (ha : a < 2 ^ t.width) (hnan : (t.decode a).isNan = false) :
    (fpNeg t a).1 = if a < 2 ^ (t.width - 1) then a + 2 ^ (t.width - 1) else a - 2 ^ (t.width - 1) := by
  have hw : t.width = t.width - 1 + 1 := by cases t <;> rfl
  rw [fpNeg_of_not_nan hnan]
  split
  next h => exact xor_two_pow_of_lt h
  next h => exact xor_two_pow_of_ge (Nat.not_lt.1 h) (hw ▸ ha)

/-- Settles O23: each special operand takes one arm of the exact operation, whose result is delivered as a zero, an infinity or a NaN. -/
theorem floatSpecials : Obligations.FloatSpecials := by
  intro t m fz r a b ht ha hb
  refine ⟨fun v hv => ?_, fun n1 n2 m1 e1 e2 hx hm hy => ?_, fun n1 n2 e1 e2 hx hy => ?_, fun n1 n2 hx hy => ?_, fun n e hx => ?_, fun hx => ?_,
    fun k e hx hk => ?_, fun hnan => ?_, fun hnan => ?_, fun w n e => ?_⟩
  · obtain ⟨s, rfl⟩ := v.exists_of_isNan hv
    rw [Ty.deliver_nan ht]
  · simp only [fpDiv, hx, hy, FVal.div, hm, if_true, if_false, fOut_inf ht]
  · simp only [fpDiv, hx, hy, FVal.div, if_true, fOut_nan ht]
  · simp only [fpDiv, hx, hy, FVal.div, fOut_nan ht]
  · simp only [fpSqrt, hx, FVal.sqrt, if_true, fOut_zero]
  · simp only [fpSqrt, hx, FVal.sqrt, fOut_inf ht]
    rfl
  · simp only [fpSqrt, hx, FVal.sqrt, hk, if_true, if_false, fOut_nan ht]
  · simp only [fpAbs, fpNeg, hnan, if_true, fSig_singleton, and_self]
  · exact ⟨fpAbs_of_not_nan hnan ▸ rfl, fpNeg_of_not_nan hnan ▸ rfl, fpAbs_of_not_nan hnan ▸ rfl, fpNeg_fst ha hnan⟩
  · cases n <;> exact ⟨rfl, rfl, rfl, rfl, rfl, rfl, rfl, rfl, rfl, rfl, rfl⟩

end Sys2Proof
end

section
/-! SUPPORT. Exact sums and products, and quotients with their sticky bit (R18, R19, R192). -/
namespace Sys2Proof
open Machine

-- ## Exact sums and products

/-- A non-zero integer at a scale, by its sign and magnitude. -/
theorem ratOf_natAbs (z e : Int) : ratOf (decide (z < 0)) z.natAbs e = z * (2 : Rat) ^ e := by
  by_cases hneg : z < 0
  · have hz : (z : Rat) = -(z.natAbs : Rat) := by
      have habs : z = -(z.natAbs : Int) := by omega
      exact (congrArg Int.cast habs).trans (Rat.intCast_neg _)
    rw [decide_eq_true hneg, ratOf_true, ratOf_false, hz, Rat.neg_mul]
  · have hz : (z : Rat) = (z.natAbs : Rat) := by
      have habs : z = (z.natAbs : Int) := by omega
      exact congrArg Int.cast habs
    rw [decide_eq_false hneg, ratOf_false, hz]

/-- R19: the exact sum, and the sign of an exact zero. -/
theorem addFin_spec (rd n1 n2 : Bool) (m1 m2 : Nat) (e1 e2 : Int) :
    ∃ n m e, addFin rd n1 m1 e1 n2 m2 e2 = .fin n m e ∧ ratOf n m e = ratOf n1 m1 e1 + ratOf n2 m2 e2 ∧
      (m = 0 → n = if m1 = 0 ∧ m2 = 0 ∧ n1 = n2 then n1 else rd) := by
  unfold addFin
  split
  next h =>
    obtain ⟨rfl, rfl⟩ := h
    refine ⟨_, 0, 0, rfl, ?_, fun _ => ?_⟩
    · rw [ratOf_zero, ratOf_zero, ratOf_zero, Rat.add_zero]
    · simp only [beq_iff_eq, true_and]
  split
  next h1 h =>
    refine ⟨n2, m2, e2, rfl, ?_, fun h2 => absurd ⟨h, h2⟩ h1⟩
    rw [h, ratOf_zero, Rat.zero_add]
  split
  next h1 h =>
    refine ⟨n1, m1, e1, rfl, ?_, fun h2 => absurd h2 h1⟩
    rw [h, ratOf_zero, Rat.add_zero]
  next h1 h2 =>
    have hsum : ((scaled n1 m1 e1 (min e1 e2) + scaled n2 m2 e2 (min e1 e2) : Int) : Rat) * (2 : Rat) ^ (min e1 e2) =
        ratOf n1 m1 e1 + ratOf n2 m2 e2 := by
      rw [Rat.intCast_add, Rat.add_mul, scaled_mul_zpow (Int.min_le_left e1 e2), scaled_mul_zpow (Int.min_le_right e1 e2)]
    have hsign : rd = if m1 = 0 ∧ m2 = 0 ∧ n1 = n2 then n1 else rd := (if_neg fun hz => h1 hz.1).symm
    dsimp only
    rw [← hsum]
    generalize scaled n1 m1 e1 (min e1 e2) + scaled n2 m2 e2 (min e1 e2) = z
    split
    next hz =>
      refine ⟨rd, 0, 0, rfl, ?_, fun _ => hsign⟩
      rw [hz, ratOf_zero, Rat.intCast_zero, Rat.zero_mul]
    next hz => exact ⟨_, _, _, rfl, ratOf_natAbs z _, fun h0 => absurd (Int.natAbs_eq_zero.1 h0) hz⟩

/-- R18: a NaN operand makes a NaN, with NV where one signals. -/
theorem FVal.add_nan (rd : Bool) {x y : FVal} (h : x.isNan = true ∨ y.isNan = true) :
    x.add rd y = (.nan false, Flags.when (x.isSig || y.isSig) fNV) := by
  cases x <;> cases y <;>
    simp only [FVal.add, FVal.isNan, FVal.isSig, Bool.or_false, Bool.false_or, Bool.false_eq_true, or_self] at h ⊢

theorem FVal.mul_nan {x y : FVal} (h : x.isNan = true ∨ y.isNan = true) :
    x.mul y = (.nan false, Flags.when (x.isSig || y.isSig) fNV) := by
  cases x <;> cases y <;>
    simp only [FVal.mul, FVal.isNan, FVal.isSig, Bool.or_false, Bool.false_or, Bool.false_eq_true, or_self] at h ⊢

theorem FVal.div_nan {x y : FVal} (h : x.isNan = true ∨ y.isNan = true) :
    x.div y = (.nan false, false, Flags.when (x.isSig || y.isSig) fNV) := by
  cases x <;> cases y <;>
    simp only [FVal.div, FVal.isNan, FVal.isSig, Bool.or_false, Bool.false_or, Bool.false_eq_true, or_self] at h ⊢

-- ## A result of exact value x

theorem Ty.gives_of_value {t : Ty} (ht : t.isFloat = true) (mode : Rnd) (sat fz : Bool) (r : W32) {n zneg : Bool} {m : Nat} {e : Int} {x : Rat}
    (hx : ratOf n m e = x) (hz : m = 0 → n = zneg) : t.Gives mode sat fz r x zneg (t.deliver mode sat fz r (.fin n m e)) := by
  subst hx
  obtain ⟨hzero, hround⟩ := t.gives_deliver ht mode sat fz r n m e
  exact ⟨fun h => hz (ratOf_eq_zero.1 h) ▸ hzero h, hround⟩

-- ## Quotients

/-- A magnitude strictly between two multiples of 2^e is truncated to the lesser. -/
theorem Truncated.of_between {le lt : Rat → Prop} {m : Nat} {e : Int} (hle : ∀ p q, p ≤ q → le q → le p) (hlt : ∀ p q, p ≤ q → lt q → lt p)
    (hlt_le : ∀ q, lt q → le q) (hm : lt (m * (2 : Rat) ^ e)) (hm1 : ¬le ((m + 1) * (2 : Rat) ^ e)) : Truncated le lt m e true := by
  have hnext (q : Rat) (hq : ∃ j : Int, q = j * (2 : Rat) ^ e) (hqm : ¬q ≤ m * (2 : Rat) ^ e) : (m + 1) * (2 : Rat) ^ e ≤ q := by
    obtain ⟨j, rfl⟩ := hq
    rw [Rat.not_le, Rat.mul_lt_mul_right (two_zpow_pos e)] at hqm
    rw [mul_le_mul_pos_iff (two_zpow_pos e)]
    have hj : (m : Int) < j := by exact_mod_cast hqm
    exact_mod_cast Int.add_one_le_of_lt hj
  refine ⟨fun q hq => ⟨fun h => Decidable.byContradiction fun hqm => ?_, fun h => hle _ _ h (hlt_le _ hm)⟩, fun q hq => ?_⟩
  · exact hm1 (hle _ _ (hnext q (hq rfl) hqm) h)
  · rw [if_pos rfl]
    refine ⟨fun h => Decidable.byContradiction fun hqm => ?_, fun h => hlt _ _ h hm⟩
    exact hm1 (hle _ _ (hnext q (hq rfl) hqm) (hlt_le _ h))

/-- A magnitude of q multiples of 2^e and a proper fraction of one more is truncated to q, and sticky where the fraction is not zero. -/
theorem Truncated.of_fraction {x : Rat} {q rem d : Nat} {e : Int} (hx : x * d = (q * d + rem) * (2 : Rat) ^ e) (hrem : rem < d) :
    Truncated (fun p => p ≤ x) (fun p => p < x) q e (rem != 0) := by
  have hd : (0 : Rat) < d := Rat.natCast_pos.2 (Nat.zero_lt_of_lt hrem)
  have hp := two_zpow_pos e
  by_cases h0 : rem = 0
  · have hxe : x = ratOf false q e := by
      have hne := Rat.ne_of_gt hd
      rw [h0, show ((0 : Nat) : Rat) = 0 from rfl] at hx
      rw [ratOf_false]
      grind
    rw [hxe, h0]
    exact truncated_exact ..
  · have hr0 := Rat.mul_pos (Rat.natCast_pos.2 (Nat.pos_of_ne_zero h0)) hp
    have hr1 := Rat.mul_lt_mul_of_pos_right (Rat.natCast_lt_natCast.2 hrem) hp
    rw [bne_iff_ne.2 h0]
    refine Truncated.of_between (fun p q h hq => Rat.le_trans h hq) (fun p q h hq => by grind) (fun q => Rat.le_of_lt) ?_ (Rat.not_le.2 ?_)
    · rw [← Rat.mul_lt_mul_right hd, hx]
      grind
    · rw [← Rat.mul_lt_mul_right hd, hx]
      grind

/-- R192: the quotient is truncated with its sticky bit. -/
theorem truncated_divMag (m1 : Nat) (e1 : Int) {m2 : Nat} (e2 : Int) (h2 : m2 ≠ 0) :
    Truncated (fun q => q ≤ ratOf false m1 e1 / ratOf false m2 e2) (fun q => q < ratOf false m1 e1 / ratOf false m2 e2)
      (divMag m1 e1 m2 e2).1 (divMag m1 e1 m2 e2).2.1 (divMag m1 e1 m2 e2).2.2 := by
  unfold divMag
  dsimp only
  generalize Nat.log2 m2 + 80 = k
  refine Truncated.of_fraction ?_ (Nat.mod_lt _ (Nat.pos_of_ne_zero h2))
  have hN : ((m1 * 2 ^ k / m2 : Nat) : Rat) * m2 + (m1 * 2 ^ k % m2 : Nat) = m1 * (2 : Rat) ^ k := by
    exact_mod_cast Nat.div_add_mod' (m1 * 2 ^ k) m2
  have hm : (m2 : Rat) ≠ 0 := Rat.ne_of_gt (Rat.natCast_pos.2 (Nat.pos_of_ne_zero h2))
  have hE := Rat.ne_of_gt (two_zpow_pos e2)
  have he : (2 : Rat) ^ e1 = (2 : Rat) ^ (e1 - e2 - k) * (2 : Rat) ^ k * (2 : Rat) ^ e2 := by
    rw [← two_zpow_natCast, ← two_zpow_add, ← two_zpow_add, show e1 - e2 - k + k + e2 = e1 by omega]
  rw [hN, ratOf_false, ratOf_false, he]
  grind

/-- The quotient has 80 bits and more. -/
theorem le_log2_divMag {m1 : Nat} (h1 : m1 ≠ 0) (e1 : Int) {m2 : Nat} (h2 : m2 ≠ 0) (e2 : Int) : 79 ≤ Nat.log2 (divMag m1 e1 m2 e2).1 := by
  have hq : 2 ^ 79 ≤ m1 * 2 ^ (Nat.log2 m2 + 80) / m2 := by
    rw [Nat.le_div_iff_mul_le (Nat.pos_of_ne_zero h2)]
    calc 2 ^ 79 * m2 ≤ 2 ^ 79 * 2 ^ (Nat.log2 m2 + 1) := Nat.mul_le_mul_left _ (Nat.le_of_lt Nat.lt_log2_self)
      _ = 2 ^ (Nat.log2 m2 + 80) := by rw [← Nat.pow_add, show 79 + (Nat.log2 m2 + 1) = Nat.log2 m2 + 80 by omega]
      _ ≤ m1 * 2 ^ (Nat.log2 m2 + 80) := Nat.le_mul_of_pos_left _ (Nat.pos_of_ne_zero h1)
  exact (Nat.le_log2 (Nat.ne_of_gt (Nat.lt_of_lt_of_le (Nat.two_pow_pos 79) hq))).2 hq

theorem Ty.manW_le (t : Ty) : t.manW ≤ 23 := by cases t <;> decide

end Sys2Proof
end

section
/-! SUPPORT. Roots with their sticky bit (R192). -/
namespace Sys2Proof
open Machine

-- ## Roots

/-- One bit at a time keeps the root between r and r + 2^(b + 1). -/
theorem isqrtGo_spec (n : Nat) : ∀ b r : Nat, r * r ≤ n → n < (r + 2 ^ (b + 1)) * (r + 2 ^ (b + 1)) →
    isqrtGo n b r * isqrtGo n b r ≤ n ∧ n < (isqrtGo n b r + 1) * (isqrtGo n b r + 1)
  | 0, r, hlo, hhi => by
    unfold isqrtGo
    split
    next h => exact ⟨h, hhi⟩
    next h => exact ⟨hlo, Nat.not_le.1 h⟩
  | b + 1, r, hlo, hhi => by
    unfold isqrtGo
    dsimp only
    split
    next h => exact isqrtGo_spec n b _ h (by rwa [Nat.add_assoc, ← Nat.two_mul, ← Nat.pow_succ'])
    next h => exact isqrtGo_spec n b r hlo (Nat.not_le.1 h)

theorem isqrt_spec (n : Nat) : isqrt n * isqrt n ≤ n ∧ n < (isqrt n + 1) * (isqrt n + 1) := by
  refine isqrtGo_spec n _ 0 (Nat.zero_le n) ?_
  calc n < 2 ^ (Nat.log2 n + 1) := Nat.lt_log2_self
    _ ≤ 2 ^ (2 * (Nat.log2 n / 2 + 1 + 1)) := Nat.pow_le_pow_right (by decide) (by omega)
    _ = _ := by rw [Nat.zero_add, Nat.two_mul, Nat.pow_add]

/-- q is at most √v, in rational terms. -/
def LeSqrt (v q : Rat) : Prop := q ≤ 0 ∨ q * q ≤ v

/-- q is less than √v. -/
def LtSqrt (v q : Rat) : Prop := q < 0 ∨ q * q < v

theorem mul_self_le_of_nonneg {a b : Rat} (ha : 0 ≤ a) (h : a ≤ b) : a * a ≤ b * b :=
  Rat.le_trans (Rat.mul_le_mul_of_nonneg_left h ha) (Rat.mul_le_mul_of_nonneg_right h (Rat.le_trans ha h))

theorem mul_self_lt_of_nonneg {a b : Rat} (ha : 0 ≤ a) (h : a < b) : a * a < b * b := by
  have hle := Rat.mul_le_mul_of_nonneg_left (Rat.le_of_lt h) ha
  have hlt := Rat.mul_lt_mul_of_pos_right h (show 0 < b by grind)
  grind

theorem leSqrt_mul_self {w : Rat} (hw : 0 ≤ w) (q : Rat) : LeSqrt (w * w) q ↔ q ≤ w := by
  refine ⟨fun h => Rat.not_lt.1 fun hlt => ?_, fun h => ?_⟩
  · rcases h with h | h
    · grind
    · exact Rat.not_le.2 (mul_self_lt_of_nonneg hw hlt) h
  · by_cases hq : q ≤ 0
    · exact .inl hq
    · exact .inr (mul_self_le_of_nonneg (by grind) h)

theorem ltSqrt_mul_self {w : Rat} (hw : 0 ≤ w) (q : Rat) : LtSqrt (w * w) q ↔ q < w := by
  refine ⟨fun h => Rat.not_le.1 fun hle => ?_, fun h => ?_⟩
  · rcases h with h | h
    · grind
    · exact Rat.not_lt.2 (mul_self_le_of_nonneg hw hle) h
  · by_cases hq : q < 0
    · exact .inl hq
    · exact .inr (mul_self_lt_of_nonneg (Rat.not_lt.1 hq) h)

theorem LeSqrt.mono {v p q : Rat} (hpq : p ≤ q) (hq : LeSqrt v q) : LeSqrt v p := by
  by_cases hp : p ≤ 0
  · exact .inl hp
  · have hsq := hq.resolve_left (by grind)
    exact .inr (Rat.le_trans (mul_self_le_of_nonneg (by grind) hpq) hsq)

theorem LtSqrt.mono {v p q : Rat} (hpq : p ≤ q) (hq : LtSqrt v q) : LtSqrt v p := by
  by_cases hp : p < 0
  · exact .inl hp
  · have hsq := hq.resolve_left (by grind)
    have hle := mul_self_le_of_nonneg (Rat.not_lt.1 hp) hpq
    exact .inr (by grind)

/-- The root of n × 2^(2 h) is ⌊√n⌋ × 2^h and less than one more, and exact where n is a square. -/
theorem truncated_isqrt (n : Nat) (h : Int) :
    Truncated (LeSqrt (n * ((2 : Rat) ^ h * 2 ^ h))) (LtSqrt (n * ((2 : Rat) ^ h * 2 ^ h))) (isqrt n) h (isqrt n * isqrt n != n) := by
  obtain ⟨hlo, hhi⟩ := isqrt_spec n
  generalize isqrt n = s at *
  have hp := two_zpow_pos h
  have hp2 := Rat.mul_pos hp hp
  by_cases hsq : s * s = n
  · have hs : (0 : Rat) ≤ s * (2 : Rat) ^ h := Rat.mul_nonneg Rat.natCast_nonneg (Rat.le_of_lt hp)
    rw [bne_eq_false_iff_eq.2 hsq, ← hsq, show ((s * s : Nat) : Rat) * ((2 : Rat) ^ h * (2 : Rat) ^ h) = (s * (2 : Rat) ^ h) * (s * (2 : Rat) ^ h) by
      rw [Rat.natCast_mul]; grind]
    exact ⟨fun q _ => leSqrt_mul_self hs q, fun q _ => ltSqrt_mul_self hs q⟩
  · rw [bne_iff_ne.2 hsq]
    have hs : ((s * s : Nat) : Rat) < n := Rat.natCast_lt_natCast.2 (Nat.lt_of_le_of_ne hlo hsq)
    have hs1 : (n : Rat) < ((s + 1) * (s + 1) : Nat) := Rat.natCast_lt_natCast.2 hhi
    have hlt := Rat.mul_lt_mul_of_pos_right hs hp2
    have hlt1 := Rat.mul_lt_mul_of_pos_right hs1 hp2
    rw [Rat.natCast_mul] at hlt hlt1
    rw [Rat.natCast_add, show ((1 : Nat) : Rat) = 1 from rfl] at hlt1
    have hpos := Rat.mul_nonneg (Rat.natCast_nonneg (a := s)) (Rat.le_of_lt hp)
    refine Truncated.of_between (fun p q => LeSqrt.mono) (fun p q => LtSqrt.mono) (fun q hq => hq.imp Rat.le_of_lt Rat.le_of_lt) (.inr ?_) ?_
    · grind
    · rintro (hneg | hle)
      · grind
      · grind

/-- The model's operand of `isqrt` and the exponent of its result: an even exponent, and 160 bits more. -/
def sqrtScaled (m : Nat) (e : Int) : Nat × Int :=
  ((if e % 2 != 0 then 2 * m else m) * 2 ^ 160, ((if e % 2 != 0 then e - 1 else e) - 160) / 2)

theorem FVal.sqrt_fin {m : Nat} (hm : m ≠ 0) (e : Int) :
    FVal.sqrt (.fin false m e) = (.fin false (isqrt (sqrtScaled m e).1) (sqrtScaled m e).2,
      isqrt (sqrtScaled m e).1 * isqrt (sqrtScaled m e).1 != (sqrtScaled m e).1, 0) := by
  simp only [FVal.sqrt, hm, if_false, Bool.false_eq_true, sqrtScaled]

theorem sqrtScaled_value (m : Nat) (e : Int) :
    ((sqrtScaled m e).1 : Rat) * ((2 : Rat) ^ (sqrtScaled m e).2 * 2 ^ (sqrtScaled m e).2) = ratOf false m e := by
  have hpow (h : Int) : (2 : Rat) ^ 160 * ((2 : Rat) ^ (h - 80) * (2 : Rat) ^ (h - 80)) = (2 : Rat) ^ (2 * h) := by
    rw [← two_zpow_natCast, ← two_zpow_add, ← two_zpow_add, show ((160 : Nat) : Int) + (h - 80 + (h - 80)) = 2 * h by omega]
  unfold sqrtScaled
  dsimp only
  rw [ratOf_false]
  by_cases hpar : e % 2 = 0
  · obtain ⟨h, rfl⟩ : ∃ h, e = 2 * h := ⟨e / 2, by omega⟩
    have heven : (2 * h % 2 != 0) = false := bne_eq_false_iff_eq.2 hpar
    rw [heven, if_neg Bool.false_ne_true, if_neg Bool.false_ne_true, show (2 * h - 160) / 2 = h - 80 by omega, ← hpow, Rat.natCast_mul, Rat.natCast_pow]
    grind
  · obtain ⟨h, rfl⟩ : ∃ h, e = 2 * h + 1 := ⟨e / 2, by omega⟩
    have hodd : ((2 * h + 1) % 2 != 0) = true := bne_iff_ne.2 hpar
    rw [hodd, if_pos rfl, if_pos rfl, show (2 * h + 1 - 1 - 160) / 2 = h - 80 by omega, two_zpow_succ, ← hpow, Rat.natCast_mul, Rat.natCast_mul,
      Rat.natCast_pow]
    grind

theorem le_log2_isqrt {m : Nat} (hm : m ≠ 0) (e : Int) : 80 ≤ Nat.log2 (isqrt (sqrtScaled m e).1) := by
  have hn : 2 ^ 160 ≤ (sqrtScaled m e).1 := Nat.le_mul_of_pos_left _ (by split <;> omega)
  have hroot : 2 ^ 80 ≤ isqrt (sqrtScaled m e).1 := by
    refine Nat.not_lt.1 fun hlt => ?_
    have hsq : (isqrt (sqrtScaled m e).1 + 1) * (isqrt (sqrtScaled m e).1 + 1) ≤ 2 ^ 80 * 2 ^ 80 := Nat.mul_le_mul (by omega) (by omega)
    have hspec := (isqrt_spec (sqrtScaled m e).1).2
    rw [← Nat.pow_add] at hsq
    omega
  exact (Nat.le_log2 (by omega)).2 hroot

/-- R192: the root is rounded once. -/
theorem rounds_fpSqrt {t : Ty} (ht : t.isFloat = true) (mode : Rnd) (fz : Bool) (r : W32) {a m : Nat} {e : Int} (ha : fIn t fz a = .fin false m e)
    (hm : m ≠ 0) : t.Rounds mode false fz r false (LeSqrt (ratOf false m e)) (LtSqrt (ratOf false m e)) (fpSqrt t mode fz r a) := by
  have htr := truncated_isqrt (sqrtScaled m e).1 (sqrtScaled m e).2
  rw [sqrtScaled_value] at htr
  have hlog := le_log2_isqrt hm e
  have hman := t.manW_le
  have hres : fpSqrt t mode fz r a = t.round mode false fz r false (isqrt (sqrtScaled m e).1) (sqrtScaled m e).2
      (isqrt (sqrtScaled m e).1 * isqrt (sqrtScaled m e).1 != (sqrtScaled m e).1) := by
    simp only [fpSqrt, ha, FVal.sqrt_fin hm, fOut_no_flag, Ty.deliver]
  rw [hres]
  exact htr.rounds_round ht (fun h0 => by rw [h0] at hlog; exact absurd hlog (by decide)) (fun _ => by omega) mode false fz r false

end Sys2Proof
end

section
/-! SUPPORT. Values that a format holds are delivered as they are, and the order of values (R193). -/
namespace Sys2Proof
open Machine

-- ## Values that a format holds

/-- A multiple of the spacing is its own rounding. -/
theorem rounded_multiple {mode : Rnd} {neg : Bool} {r : W32} {u : Int} {a n : Nat} {x : Rat} (hx : x = n * (2 : Rat) ^ u)
    (h : rounded mode neg r (fun q => q ≤ x) (fun q => q < x) u a) : (a : Rat) * (2 : Rat) ^ u = x := by
  obtain ⟨k, hle, hnle, hexact, -⟩ := h
  have hp := two_zpow_pos u
  dsimp only at hle hnle hexact
  rw [Rat.add_zero] at hle hexact
  rw [hx, mul_le_mul_pos_iff hp, Rat.natCast_le_natCast] at hle
  rw [hx, mul_le_mul_pos_iff hp] at hnle
  have hn : n < k + 1 := by exact_mod_cast Rat.not_le.1 hnle
  obtain rfl : k = n := by omega
  rw [hexact (by rw [hx]; exact Rat.lt_irrefl), hx]

/-- The magnitude of a finite code is delivered unchanged where FZ is 0. -/
theorem Ty.Rounds.value_of_code {t : Ty} {mode : Rnd} {sat neg : Bool} {r : W32} {c : Nat} {o : Nat × Flags} (hc : c ≤ t.maxCode)
    (h : t.Rounds mode sat false r neg (fun q => q ≤ t.codeMag c) (fun q => q < t.codeMag c) o) :
    ∃ m e, t.decode o.1 = .fin neg m e ∧ ratOf false m e = t.codeMag c := by
  obtain ⟨top, a, f, htop, -, hround, -, -, -, hnorm⟩ := h
  have htop_le : top < (t.manW + 1 : Nat) + (t.mag c).2 := by
    have hman : ((t.mag c).1 : Rat) < (2 : Rat) ^ (t.manW + 1) := by exact_mod_cast t.mag_fst_lt c
    have hlt := Rat.mul_lt_mul_of_pos_right hman (two_zpow_pos (t.mag c).2)
    rw [← two_zpow_natCast, ← two_zpow_add] at hlt
    rw [Ty.codeMag, ratOf_false] at htop
    exact lt_of_two_zpow_lt (by grind)
  have hmin := t.le_mag_snd c
  have hmul : t.codeMag c = ((t.mag c).1 * 2 ^ ((t.mag c).2 - (max top t.emin - t.manW)).toNat : Nat) * (2 : Rat) ^ (max top t.emin - t.manW) := by
    rw [codeMag, ratOf_false, zpow_eq_pow_mul (show max top t.emin - t.manW ≤ (t.mag c).2 by omega)]
    rw [Rat.natCast_mul, Rat.natCast_pow, Rat.mul_assoc]
    rfl
  have hy := rounded_multiple hmul hround
  obtain ⟨-, ⟨m, e, hdec, hval⟩, -⟩ := hnorm (fun hf => Bool.false_ne_true hf.1) (by
    rw [hy]; exact Rat.not_lt.2 (t.codeMag_le_iff.2 hc))
  exact ⟨m, e, hdec, hval.trans hy⟩

theorem Ty.mag_zero (t : Ty) : (t.mag 0).1 = 0 := by
  unfold Ty.mag
  rw [Nat.zero_div, Nat.zero_mod]
  rfl

/-- An operand of an arithmetic format is delivered in that format as it is. -/
theorem same_deliver_signed {t : Ty} (ht : t.isArith = true) {c : Nat} (hc : c ≤ t.maxCode) (n : Bool) :
    (t.decode (t.deliver .rn false false 0 (.fin n (t.mag c).1 (t.mag c).2)).1).same (.fin n (t.mag c).1 (t.mag c).2) := by
  have hf := Ty.isFloat_of_isArith ht
  by_cases h0 : (t.mag c).1 = 0
  · rw [h0, Ty.deliver_zero, Ty.decode_signed_finite hf (Nat.zero_le _)]
    exact ⟨rfl, by rw [ratOf_zero, t.mag_zero, ratOf_zero]⟩
  · have hr := (truncated_exact (t.mag c).1 (t.mag c).2).rounds_round hf h0 nofun .rn false false 0 n
    obtain ⟨m, e, hdec, hval⟩ := Ty.Rounds.value_of_code hc hr
    rw [Ty.deliver, hdec]
    refine ⟨rfl, ?_⟩
    rw [ratOf_eq_sign_mul, hval, ratOf_eq_sign_mul n]
    rfl

theorem same_deliver_fIn {t : Ty} (ht : t.isArith = true) (fz : Bool) {a : Nat} (ha : a < 2 ^ t.width) (h : (fIn t fz a).isNan = false) :
    (t.decode (t.deliver .rn false false 0 (fIn t fz a)).1).same (fIn t fz a) := by
  have hf := Ty.isFloat_of_isArith ht
  have hi : t.hasInf = true := by revert ht; cases t <;> decide
  have h4 : (t == .e4m3) = false := by revert ht; cases t <;> decide
  obtain ⟨n, c, hc, rfl⟩ := t.eq_signed ha
  have hdec := t.decode_signed hc n
  rw [hi, h4, Bool.true_and, Bool.false_and, if_neg Bool.false_ne_true] at hdec
  by_cases hinf : t.infCode ≤ c
  · rw [if_pos (decide_eq_true hinf)] at hdec
    by_cases heq : c = t.infCode
    · rw [if_pos heq] at hdec
      have hfin : fIn t fz (t.signed n c) = .inf n := by rw [fIn_of_decode_not_fin fz (hdec ▸ nofun), hdec]
      rw [hfin, Ty.deliver_inf ht, ← heq, hdec]
      rfl
    · rw [if_neg heq] at hdec
      rw [fIn_of_decode_nan fz hdec] at h
      exact absurd h Bool.noConfusion
  · rw [if_neg (mt of_decide_eq_true hinf)] at hdec
    have hmax : c ≤ t.maxCode := by rw [Ty.infCode_eq hi] at hinf; omega
    rw [fIn_of_decode_fin ht fz hdec]
    split
    · rw [Ty.deliver_zero, Ty.decode_signed_finite hf (Nat.zero_le _)]
      exact ⟨rfl, by rw [ratOf_zero, t.mag_zero, ratOf_zero]⟩
    · exact same_deliver_signed ht hmax n

-- ## The order of values (R193)

theorem FVal.cmp_fin (n1 n2 : Bool) (m1 m2 : Nat) (e1 e2 : Int) :
    ((FVal.fin n1 m1 e1).cmp (.fin n2 m2 e2) < 0 ↔ ratOf n1 m1 e1 < ratOf n2 m2 e2) ∧
    (0 < (FVal.fin n1 m1 e1).cmp (.fin n2 m2 e2) ↔ ratOf n2 m2 e2 < ratOf n1 m1 e1) := by
  have hp := two_zpow_pos (min e1 e2)
  rw [← scaled_mul_zpow (Int.min_le_left e1 e2), ← scaled_mul_zpow (Int.min_le_right e1 e2), Rat.mul_lt_mul_right hp, Rat.mul_lt_mul_right hp,
    Rat.intCast_lt_intCast, Rat.intCast_lt_intCast]
  unfold FVal.cmp
  dsimp only
  split
  · omega
  split <;> omega

theorem FVal.cmp_swap {x y : FVal} (hx : x.isNan = false) (hy : y.isNan = false) : y.cmp x = -x.cmp y := by
  cases x with
  | nan => contradiction
  | inf a => cases y with
    | nan => contradiction
    | inf b => revert a b; decide
    | fin n m e => cases a <;> rfl
  | fin n1 m1 e1 => cases y with
    | nan => contradiction
    | inf b => cases b <;> rfl
    | fin n2 m2 e2 =>
      unfold FVal.cmp
      dsimp only
      rw [Int.min_comm e2 e1]
      split <;> split <;> grind

/-- R193: the order by `cmp`, with −0 below +0. -/
theorem FVal.below_iff {x y : FVal} (hx : x.isNan = false) (hy : y.isNan = false) :
    x.below y ↔ x.cmp y < 0 ∨ x.cmp y = 0 ∧ x.isNeg = true ∧ y.isNeg = false := by
  cases x with
  | nan => contradiction
  | inf a => cases y with
    | nan => contradiction
    | inf b => cases a <;> cases b <;> simp only [FVal.below, FVal.cmp, FVal.isNeg] <;> decide
    | fin n m e => cases a <;> simp only [FVal.below, FVal.cmp, FVal.isNeg] <;> grind
  | fin n1 m1 e1 => cases y with
    | nan => contradiction
    | inf b => cases b <;> simp only [FVal.below, FVal.cmp, FVal.isNeg] <;> grind
    | fin n2 m2 e2 =>
      obtain ⟨hlt, hgt⟩ := FVal.cmp_fin n1 n2 m1 m2 e1 e2
      rw [hlt]
      refine or_congr_right ⟨?_, ?_⟩
      · rintro ⟨rfl, rfl, rfl, rfl⟩
        rw [ratOf_zero, ratOf_zero] at hlt hgt
        exact ⟨Int.le_antisymm (Int.not_lt.1 (mt hgt.1 Rat.lt_irrefl)) (Int.not_lt.1 (mt hlt.1 Rat.lt_irrefl)), rfl, rfl⟩
      · rintro ⟨hcmp, hn1, hn2⟩
        obtain rfl : n1 = true := hn1
        obtain rfl : n2 = false := hn2
        have heq : ratOf true m1 e1 = ratOf false m2 e2 :=
          Rat.le_antisymm (Rat.not_lt.1 (mt hgt.2 (by omega))) (Rat.not_lt.1 (mt hlt.2 (by omega)))
        have h1 := ratOf_false_nonneg m1 e1
        have h2 := ratOf_false_nonneg m2 e2
        rw [ratOf_true] at heq
        exact ⟨(ratOf_eq_zero (n := false) (e := e1)).1 (by grind), (ratOf_eq_zero (n := false) (e := e2)).1 (by grind), rfl, rfl⟩

theorem FVal.not_below_self {x : FVal} (hx : x.isNan = false) : ¬x.below x := by
  have hswap := FVal.cmp_swap hx hx
  rw [FVal.below_iff hx hx]
  rintro (h | ⟨-, h1, h2⟩)
  · omega
  · exact Bool.false_ne_true (h2.symm.trans h1)

/-- The lesser and the greater of two values are each one of them, with neither below or above. -/
theorem FVal.lesser_spec {x y : FVal} (hx : x.isNan = false) (hy : y.isNan = false) :
    (x.lesser y = x ∨ x.lesser y = y) ∧ ¬x.below (x.lesser y) ∧ ¬y.below (x.lesser y) := by
  have hswap := FVal.cmp_swap hx hy
  unfold FVal.lesser
  split
  next h => exact ⟨.inl rfl, not_below_self hx, by rw [below_iff hy hx]; omega⟩
  split
  next h => exact ⟨.inr rfl, by rw [below_iff hx hy]; omega, not_below_self hy⟩
  split
  next h => exact ⟨.inl rfl, not_below_self hx, by rw [below_iff hy hx, h]; grind⟩
  next h => exact ⟨.inr rfl, by rw [below_iff hx hy]; grind, not_below_self hy⟩

theorem FVal.greater_spec {x y : FVal} (hx : x.isNan = false) (hy : y.isNan = false) :
    (x.greater y = x ∨ x.greater y = y) ∧ ¬(x.greater y).below x ∧ ¬(x.greater y).below y := by
  have hswap := FVal.cmp_swap hx hy
  unfold FVal.greater
  split
  next h => exact ⟨.inr rfl, by rw [below_iff hy hx]; omega, not_below_self hy⟩
  split
  next h => exact ⟨.inl rfl, not_below_self hx, by rw [below_iff hx hy]; omega⟩
  split
  next h => exact ⟨.inr rfl, by rw [below_iff hy hx, h]; grind, not_below_self hy⟩
  next h => exact ⟨.inl rfl, not_below_self hx, by rw [below_iff hx hy]; grind⟩

end Sys2Proof
end

section
/-! PROOF. What sums, products, quotients, roots, minima and maxima deliver (O22). -/
namespace Sys2Proof
open Machine

-- ## The operations on codes

theorem FVal.isNan_neg (v : FVal) : v.neg.isNan = v.isNan := by cases v <;> rfl
theorem FVal.isSig_neg (v : FVal) : v.neg.isSig = v.isSig := by cases v <;> rfl

/-- The second operand of a sum or a difference. -/
theorem neg_fin_if (sub n : Bool) (m : Nat) (e : Int) : (if sub = true then (FVal.fin n m e).neg else .fin n m e) = .fin (n != sub) m e := by
  cases sub <;> cases n <;> rfl

theorem neg_inf_if (sub n : Bool) : (if sub = true then (FVal.inf n).neg else .inf n) = .inf (n != sub) := by
  cases sub <;> cases n <;> rfl

section
variable {t : Ty} (ht : t.isArith = true) (mode : Rnd) (fz : Bool) (r : W32) {a b : Nat} {n1 n2 : Bool} {m1 m2 : Nat} {e1 e2 : Int}
  (ha : fIn t fz a = .fin n1 m1 e1) (hb : fIn t fz b = .fin n2 m2 e2)
include ht ha hb

theorem gives_fpAdd (sub : Bool) : t.Gives mode false fz r (ratOf n1 m1 e1 + ratOf (n2 != sub) m2 e2)
    (if m1 = 0 ∧ m2 = 0 ∧ n1 = (n2 != sub) then n1 else decide (mode = .rd)) (fpAdd t mode fz sub r a b) := by
  obtain ⟨n, m, e, hsum, hval, hzero⟩ := addFin_spec (mode == .rd) n1 (n2 != sub) m1 m2 e1 e2
  have hres : fpAdd t mode fz sub r a b = t.deliver mode false fz r (.fin n m e) := by
    simp only [fpAdd, ha, hb, neg_fin_if, FVal.add, hsum, fOut_no_flag]
  rw [hres]
  exact Ty.gives_of_value (Ty.isFloat_of_isArith ht) mode false fz r hval hzero

theorem gives_fpMul : t.Gives mode false fz r (ratOf n1 m1 e1 * ratOf n2 m2 e2) (n1 != n2) (fpMul t mode fz r a b) := by
  have hres : fpMul t mode fz r a b = t.deliver mode false fz r (.fin (n1 != n2) (m1 * m2) (e1 + e2)) := by
    simp only [fpMul, ha, hb, FVal.mul, fOut_no_flag]
  rw [hres]
  exact Ty.gives_of_value (Ty.isFloat_of_isArith ht) mode false fz r (ratOf_mul ..) fun _ => rfl

theorem gives_fpDiv (h2 : m2 ≠ 0) : t.Gives mode false fz r (ratOf n1 m1 e1 / ratOf n2 m2 e2) (n1 != n2) (fpDiv t mode fz r a b) := by
  by_cases h1 : m1 = 0
  · have hres : fpDiv t mode fz r a b = (t.signed (n1 != n2) 0, 0) := by
      simp only [fpDiv, ha, hb, FVal.div, h1, h2, if_true, if_false, fOut_zero]
    have hx : ratOf n1 m1 e1 / ratOf n2 m2 e2 = 0 := by rw [h1, ratOf_zero, Rat.div_def, Rat.zero_mul]
    exact ⟨fun _ => hres, fun h => absurd hx h⟩
  · have hlog := le_log2_divMag h1 e1 h2 e2
    have hman := t.manW_le
    have hpos : 0 < ratOf false m1 e1 / ratOf false m2 e2 := Rat.mul_pos (ratOf_false_pos h1 e1) (Rat.inv_pos.2 (ratOf_false_pos h2 e2))
    have hres : fpDiv t mode fz r a b = t.round mode false fz r (n1 != n2) (divMag m1 e1 m2 e2).1 (divMag m1 e1 m2 e2).2.1 (divMag m1 e1 m2 e2).2.2 := by
      simp only [fpDiv, ha, hb, FVal.div, h1, h2, if_false, fOut_no_flag, Ty.deliver]
    have hrounds := (truncated_divMag m1 e1 e2 h2).rounds_round (Ty.isFloat_of_isArith ht) (fun h0 => by rw [h0] at hlog; exact absurd hlog (by decide))
      (fun _ => by omega) mode false fz r (n1 != n2)
    rw [ratOf_div, hres]
    exact hrounds.gives hpos _

end

/-- R20 leaves NaNs as they are. -/
theorem isNan_fIn (t : Ty) (fz : Bool) (a : Nat) : (fIn t fz a).isNan = (t.decode a).isNan := by
  unfold fIn
  cases t.decode a with
  | fin n m e => dsimp only [Ty.flushIn]; split <;> rfl
  | _ => rfl

theorem isSig_fIn (t : Ty) (fz : Bool) (a : Nat) : (fIn t fz a).isSig = (t.decode a).isSig := by
  unfold fIn
  cases t.decode a with
  | fin n m e => dsimp only [Ty.flushIn]; split <;> rfl
  | _ => rfl

section
variable {t : Ty} (ht : t.isArith = true) (mode : Rnd) (fz sub : Bool) (r : W32) {a b : Nat}
include ht

/-- R17, R18: NaN operands. -/
theorem fpArith_of_nan (h : (t.decode a).isNan = true ∨ (t.decode b).isNan = true) :
    let o := (t.nanCode, Flags.when ((t.decode a).isSig || (t.decode b).isSig) fNV)
    fpAdd t mode fz sub r a b = o ∧ fpMul t mode fz r a b = o ∧ fpDiv t mode fz r a b = o := by
  rw [← isNan_fIn t fz a, ← isNan_fIn t fz b] at h
  have hneg : (fIn t fz a).isNan = true ∨ (if sub = true then (fIn t fz b).neg else fIn t fz b).isNan = true := by
    cases sub with
    | false => exact h
    | true => exact h.imp_right (FVal.isNan_neg _).trans
  have hsig : (if sub = true then (fIn t fz b).neg else fIn t fz b).isSig = (t.decode b).isSig := by
    cases sub with
    | false => exact isSig_fIn t fz b
    | true => exact (FVal.isSig_neg _).trans (isSig_fIn t fz b)
  refine ⟨?_, ?_, ?_⟩
  · simp only [fpAdd, FVal.add_nan _ hneg, fOut_nan ht, hsig, isSig_fIn]
  · simp only [fpMul, FVal.mul_nan h, fOut_nan ht, isSig_fIn]
  · simp only [fpDiv, FVal.div_nan h, fOut_nan ht, isSig_fIn]

theorem fpSqrt_nan (h : (t.decode a).isNan = true) : fpSqrt t mode fz r a = (t.nanCode, Flags.when (t.decode a).isSig fNV) := by
  obtain ⟨s, hs⟩ := FVal.exists_of_isNan h
  simp only [fpSqrt, fIn_of_decode_nan fz hs, hs, FVal.sqrt, fOut_nan ht, FVal.isSig]

/-- R29: two infinities. -/
theorem fpArith_of_inf_inf {n1 n2 : Bool} (ha : fIn t fz a = .inf n1) (hb : fIn t fz b = .inf n2) :
    (fpAdd t mode fz sub r a b = if n1 = (n2 != sub) then (t.signed n1 t.infCode, 0) else (t.nanCode, fNV)) ∧
    fpMul t mode fz r a b = (t.signed (n1 != n2) t.infCode, 0) := by
  refine ⟨?_, by simp only [fpMul, ha, hb, FVal.mul, fOut_inf ht]⟩
  simp only [fpAdd, ha, hb, neg_inf_if, FVal.add, beq_iff_eq]
  split
  · exact fOut_inf ht ..
  · exact fOut_nan ht ..

/-- R29: an infinity and a number. -/
theorem fpArith_of_inf_fin {n1 n2 : Bool} {m2 : Nat} {e2 : Int} (ha : fIn t fz a = .inf n1) (hb : fIn t fz b = .fin n2 m2 e2) :
    fpAdd t mode fz sub r a b = (t.signed n1 t.infCode, 0) ∧ fpAdd t mode fz sub r b a = (t.signed (n1 != sub) t.infCode, 0) ∧
    (fpMul t mode fz r a b = if m2 = 0 then (t.nanCode, fNV) else (t.signed (n1 != n2) t.infCode, 0)) ∧
    fpMul t mode fz r b a = fpMul t mode fz r a b ∧
    fpDiv t mode fz r a b = (t.signed (n1 != n2) t.infCode, 0) ∧ fpDiv t mode fz r b a = (t.signed (n1 != n2) 0, 0) := by
  refine ⟨?_, ?_, ?_, ?_, ?_, ?_⟩
  · simp only [fpAdd, ha, hb, neg_fin_if, FVal.add, fOut_inf ht]
  · simp only [fpAdd, ha, hb, neg_inf_if, FVal.add, fOut_inf ht]
  · simp only [fpMul, ha, hb, FVal.mul]
    split
    · exact fOut_nan ht ..
    · exact fOut_inf ht ..
  · simp only [fpMul, ha, hb, FVal.mul]
  · simp only [fpDiv, ha, hb, FVal.div, fOut_inf ht]
  · rw [show (n1 != n2) = (n2 != n1) from bne_comm]
    simp only [fpDiv, ha, hb, FVal.div, fOut_zero]

/-- R193: `fmin` and `fmax` deliver one of their operands that is no NaN, with neither operand beyond it. -/
theorem fpMinMax_spec (mx : Bool) (ha : a < 2 ^ t.width) (hb : b < 2 ^ t.width) :
    let X := fIn t fz a
    let Y := fIn t fz b
    let o := fpMinMax t fz mx a b
    o.2 = Flags.when ((t.decode a).isSig || (t.decode b).isSig) fNV ∧
    (X.isNan = true → Y.isNan = true → o.1 = t.nanCode) ∧
    (X.isNan = true → Y.isNan = false → (t.decode o.1).same Y) ∧ (X.isNan = false → Y.isNan = true → (t.decode o.1).same X) ∧
    (X.isNan = false → Y.isNan = false → ∃ v, (v = X ∨ v = Y) ∧ (t.decode o.1).same v ∧
      if mx then ¬v.below X ∧ ¬v.below Y else ¬X.below v ∧ ¬Y.below v) := by
  intro X Y o
  have hsameX := same_deliver_fIn ht fz ha
  have hsameY := same_deliver_fIn ht fz hb
  have hpick {v : FVal} (hv : v = X ∨ v = Y) (hx : X.isNan = false) (hy : Y.isNan = false) :
      (t.decode (t.deliver .rn false false 0 v).1).same v := by
    rcases hv with rfl | rfl
    · exact hsameX hx
    · exact hsameY hy
  have ho : o.1 = (t.deliver .rn false false 0
      (if X.isNan = true then Y else if Y.isNan = true then X else if mx = true then X.greater Y else X.lesser Y)).1 := rfl
  refine ⟨fSig_pair t a b, fun hx hy => ?_, fun hx hy => ?_, fun hx hy => ?_, fun hx hy => ?_⟩ <;> rw [ho, hx]
  · obtain ⟨s, hs⟩ := FVal.exists_of_isNan hy
    rw [if_pos rfl, hs, Ty.deliver_nan ht]
  · exact hsameY hy
  · rw [hy]
    exact hsameX hx
  · rw [hy]
    cases mx with
    | false =>
      obtain ⟨hv, hbelow⟩ := FVal.lesser_spec hx hy
      exact ⟨_, hv, hpick hv hx hy, hbelow⟩
    | true =>
      obtain ⟨hv, hbelow⟩ := FVal.greater_spec hx hy
      exact ⟨_, hv, hpick hv hx hy, hbelow⟩

end

/-- Settles O22: exact sums, products, quotients and roots, each rounded once; NaNs and infinities by the arms of the exact operations. -/
theorem floatValues : Obligations.FloatValues := by
  intro rd x y n1 n2 m1 m2 e1 e2
  refine ⟨?_, fun h => ?_, ?_, ?_, fun t mode fz sub r a b ht ha hb => ?_⟩
  · rintro rfl rfl
    obtain ⟨n, m, e, hsum, hval, hzero⟩ := addFin_spec rd n1 n2 m1 m2 e1 e2
    exact ⟨⟨n, m, e, by rw [FVal.add, hsum], hval, hzero⟩, _, _, _, rfl, ratOf_mul .., rfl⟩
  · rw [FVal.add_nan rd h, FVal.mul_nan h]
    exact ⟨rfl, rfl, rfl, rfl⟩
  · simp only [FVal.add, beq_iff_eq]
  · rfl
  · refine ⟨fun n k e => fIn_of_decode_fin ht fz, fIn_of_decode_not_fin fz, fun hx hy => ⟨gives_fpAdd ht mode fz r hx hy sub, gives_fpMul ht mode fz r hx hy,
      gives_fpDiv ht mode fz r hx hy, ?_⟩, fpArith_of_nan ht mode fz sub r, fpSqrt_nan ht mode fz r, fpArith_of_inf_inf ht mode fz sub r, fpArith_of_inf_fin ht mode fz sub r,
      fun mx => fpMinMax_spec ht fz mx ha hb⟩
    rintro rfl hm
    exact rounds_fpSqrt (Ty.isFloat_of_isArith ht) mode fz r hx hm

end Sys2Proof
end

section
/-!
SUPPORT. The canonical form of memory and scratchpads (O57): what an outcome keeps, and the rules that the lemmas of the sections after this one share.
Those sections elaborate one lemma after another (`Elab.async false`): side by side, lemmas wait for one another's unfolding equations in more
threads than the check's memory holds.
-/
namespace Sys2Proof.Machine
open Sys2Proof

/-- What a meaning answers keeps the canonical form. -/
def Res.Inv : Res → Prop
  | .next t => t.Inv
  | _ => True

/-- A change of other fields. -/
theorem State.Inv.keep {t u : State} (h : t.Inv) (hm : u.mem = t.mem := by rfl) (hs : u.scr = t.scr := by rfl) : u.Inv := by
  unfold State.Inv
  rw [hm, hs]
  exact h

-- ## Bytes written

theorem State.Inv.poke {s : State} (h : s.Inv) : (s.poke cs).Inv := ⟨State.poke_wf s _ h.1, h.2⟩

theorem State.Inv.scrPut {s : State} (h : s.Inv) : (s.scrPut cs).Inv := ⟨h.1, State.scrPut_wf s _ h.2⟩

-- ## States with an answer

theorem State.Inv.of_fst {p : State × α} {q : State} {x : α} (h : p.1.Inv) (e : p = (q, x)) : q.Inv := by
  rw [e] at h
  exact h

/-- Stated so that no answer is compared when a pair is built. -/
theorem State.Inv.pair {t : State} {x : α} (ht : t.Inv) : (t, x).1.Inv := ht

-- ## Folds

theorem State.Inv.foldl {s : State} (h : s.Inv) {xs : List α} {f : State → α → State} (hf : ∀ t x, t.Inv → (f t x).Inv) : (xs.foldl f s).Inv := by
  induction xs generalizing s with
  | nil => exact h
  | cons x xs ih => exact ih (hf _ _ h)

theorem State.Inv.foldl_fst {xs : List α} {f : State × β → α → State × β} {r : State × β} (h : r.1.Inv)
    (hf : ∀ r x, r.1.Inv → (f r x).1.Inv) : (xs.foldl f r).1.Inv := by
  induction xs generalizing r with
  | nil => exact h
  | cons x xs ih => exact ih (hf _ _ h)

-- ## Choices

theorem ite_inv {c : Prop} [Decidable c] {t u : State} (ht : t.Inv) (hu : u.Inv) : State.Inv (if c then t else u) := by
  split
  · exact ht
  · exact hu

theorem dite_inv {c : Prop} [Decidable c] {t : c → State} {u : ¬c → State} (ht : ∀ x, (t x).Inv) (hu : ∀ x, (u x).Inv) :
    State.Inv (if x : c then t x else u x) := by
  split
  · exact ht _
  · exact hu _

theorem ite_fst_inv {c : Prop} [Decidable c] {p q : State × α} (hp : p.1.Inv) (hq : q.1.Inv) : (if c then p else q).1.Inv := by
  split
  · exact hp
  · exact hq

theorem ite_res_inv {c : Prop} [Decidable c] {r q : Res} (hr : r.Inv) (hq : q.Inv) : Res.Inv (if c then r else q) := by
  split
  · exact hr
  · exact hq

end Sys2Proof.Machine
end

section
/-!
SUPPORT. The canonical form under caches, homes, rods, views and translation: one lemma for each function of the model, in the model's order.
-/
namespace Sys2Proof.Machine
open Sys2Proof

set_option Elab.async false

variable {s : State} (h : s.Inv)
include h

/-! ### Machine/State.lean -/

omit h in
theorem State.resetWith_inv : (State.resetWith um' boot).Inv := ⟨rfl, rfl⟩

/-! ### Machine/Mem.lean -/

theorem State.Inv.tick : (s.tick).Inv := h

theorem State.Inv.pokeN : (s.pokeN loc bs).Inv := h.poke

theorem State.Inv.placePut : (s.placePut p bs).Inv := by
  unfold State.placePut
  split
  · exact h.scrPut
  · exact h.pokeN

/-! ### Machine/Coherence.lean -/

theorem State.Inv.signalHost : (s.signalHost i).Inv := by
  unfold State.signalHost
  split <;> exact h

theorem State.Inv.raiseIrq : (s.raiseIrq i).Inv := by
  unfold State.raiseIrq
  dsimp only
  split
  · exact h
  · exact h.signalHost

theorem State.Inv.logErr : (s.logErr kind agent pa cause).Inv := by
  unfold State.logErr
  split
  · exact .raiseIrq (.keep h)
  · exact h

theorem State.Inv.dirDel : (s.dirDel line).Inv := h

theorem State.Inv.dirSet : (s.dirSet line d).Inv := h

theorem State.Inv.metaClear : (s.metaClear line).Inv := h

theorem State.Inv.l2Set : (s.l2Set a line st).Inv := h

theorem State.Inv.l2Drop : (s.l2Drop a line).Inv := h

theorem State.Inv.closeLine : (s.closeLine line).Inv := by
  unfold State.closeLine
  split <;> exact h

theorem State.Inv.l1Room : (s.l1Room c code line).Inv := by
  unfold State.l1Room
  dsimp only
  split
  · split
    · exact h
    · split <;> exact h
  · split
    · exact h
    · split <;> exact h

theorem State.Inv.dramReq : (s.dramReq line).Inv := by
  unfold State.dramReq
  dsimp only
  split <;> exact h

theorem State.Inv.llcRoom : (s.llcRoom line).Inv := by
  unfold State.llcRoom
  dsimp only
  split
  · exact h
  · split
    · split
      · exact .dramReq (.keep h)
      · exact h
    · exact h

theorem State.Inv.llcTouch : (s.llcTouch line dirty).Inv := by
  unfold State.llcTouch
  dsimp only
  split
  · exact h
  · split
    · split <;> exact h
    · exact h.dramReq.llcRoom

theorem State.Inv.allocLlc : (s.allocLlc line).Inv := h.llcTouch

theorem State.Inv.homeWritten : (s.homeWritten line bank).Inv := by
  unfold State.homeWritten
  split
  · exact h.llcTouch.dramReq
  · exact h.llcTouch

theorem State.Inv.l1Drop : (s.l1Drop line).Inv := h

theorem State.Inv.poison : (s.poison line cause).Inv := by
  unfold State.poison
  refine .logErr ?_
  show State.Inv (((s.metaClear line).dirDel line).l1Drop line)
  exact h.metaClear.dirDel.l1Drop

theorem State.Inv.dirRoom : (s.dirRoom line).Inv := by
  unfold State.dirRoom
  split
  · exact h
  · dsimp only
    split
    · exact h
    · split <;> exact h

theorem State.Inv.dirPut : (s.dirPut line d).Inv := h.dirRoom.dirSet

theorem State.Inv.found : (s.found line).Inv := by
  unfold State.found
  show State.Inv (s.metaClear line)
  exact h.metaClear

theorem State.Inv.discover : (s.discover line).1.Inv := by
  unfold State.discover
  dsimp only
  split
  · exact h
  · split
    · exact h.poison
    · split
      · split
        · exact h.found.dirPut.llcTouch
        · exact h.found.dirPut
      · split
        · exact h.found.dirPut
        · split
          · split
            · exact h.poison
            · exact h.found
          · exact h.found

theorem State.Inv.lookup : (s.lookup line).1.Inv := by
  unfold State.lookup
  split
  · exact h
  · split
    · exact h.discover
    · exact h

theorem State.Inv.queueUp : (s.queueUp line a).Inv := h

theorem State.Inv.inTurn (hserve : ∀ t, t.Inv → (serve t).1.Inv) : (s.inTurn line a serve).1.Inv := by
  unfold State.inTurn
  dsimp only
  split
  · exact h.queueUp
  · split
    · exact (hserve _ h).queueUp
    · exact (hserve _ h).queueUp
    · exact hserve _ h

theorem State.Inv.serveRead : (s.serveRead line a).1.Inv := by
  unfold State.serveRead
  dsimp only
  split
  · exact h
  · split
    · exact h
    · split
      · exact h.allocLlc.lookup
      · split
        · split
          · exact h.allocLlc.lookup.l2Set
          · split
            · exact h.allocLlc.lookup
            · refine .l2Set ?_
              refine .dirSet ?_
              split
              · refine .l2Set ?_
                split
                · exact h.allocLlc.lookup.llcTouch
                · exact h.allocLlc.lookup
              · exact h.allocLlc.lookup
        · exact h.allocLlc.lookup.dirSet.l2Set
        · exact h.allocLlc.lookup
        · split <;> exact h.allocLlc.lookup.dirPut.l2Set

theorem State.Inv.homeRead : (s.homeRead line a).1.Inv := by
  unfold State.homeRead
  split
  · exact h
  · exact .inTurn h (fun q hq => hq.serveRead)

theorem State.Inv.clearPz : (s.clearPz line a bank).Inv := by
  unfold State.clearPz
  dsimp only
  split
  · exact .homeWritten (.metaClear (.keep h))
  · exact .l2Set (.dirPut (.llcTouch (.metaClear (.keep h))))

theorem State.Inv.homeTake : (s.homeTake line).1.Inv := by
  unfold State.homeTake
  dsimp only
  split
  · exact h
  · split
    · exact h
    · split
      · exact h.lookup
      · split
        · exact h.lookup
        · split
          · exact h.lookup.closeLine
          · split
            · exact .llcTouch (.dirDel (.foldl h.lookup (fun q x hq => hq.l2Drop)))
            · exact .dirDel (.foldl h.lookup (fun q x hq => hq.l2Drop))

theorem State.Inv.serveOwn : (s.serveOwn line a).1.Inv := by
  unfold State.serveOwn
  dsimp only
  split
  · exact h
  · split
    · split
      · exact h.homeTake.homeWritten
      · exact h.homeTake
    · split
      · exact h
      · split
        · exact h.allocLlc.lookup
        · split
          · exact h.allocLlc.lookup
          · split
            · exact h.allocLlc.lookup.closeLine
            · exact .l2Set (.dirPut (.foldl h.allocLlc.lookup (fun q x hq => hq.l2Drop)))

theorem State.Inv.homeOwn : (s.homeOwn line a full').1.Inv := by
  unfold State.homeOwn
  split
  · exact h
  · split
    · exact h.clearPz
    · exact .inTurn h (fun q hq => hq.serveOwn)

theorem State.Inv.rodHome : (s.rodHome fmt loc v).Inv := by
  unfold State.rodHome
  dsimp only
  split
  · exact h
  · exact h.pokeN.llcTouch

theorem State.Inv.foldPartial : (s.foldPartial fmt p).Inv := by
  unfold State.foldPartial
  extract_lets n t
  have ht : State.Inv t := .foldl h fun _ _ hq => hq.rodHome
  clear_value t
  exact .keep ht

theorem State.Inv.foldFrom : (s.foldFrom a line).Inv := by
  unfold State.foldFrom
  split
  · exact h.foldPartial.dirPut
  · exact h

theorem State.Inv.evictL2 : (s.evictL2 e).Inv := by
  unfold State.evictL2
  dsimp only
  split
  · exact h.l2Drop
  · split
    · exact h.l2Drop.dirDel.metaClear.llcTouch
    · exact h.l2Drop.dirDel.metaClear

theorem State.Inv.l2Room (e : s.l2Room a line = some t) : t.Inv := by
  unfold State.l2Room at e
  dsimp only at e
  split at e
  · cases e; exact h
  · obtain ⟨v, -, rfl⟩ := Option.map_eq_some_iff.mp e
    split
    · exact h.evictL2
    · exact h.foldFrom

theorem State.Inv.homeWake : (s.homeWake a c line).Inv := by
  unfold State.homeWake
  dsimp only
  split <;> exact h

theorem State.Inv.l1Fill : (s.l1Fill c code isSealed line).Inv := by
  unfold State.l1Fill
  dsimp only
  split <;> exact h.l1Room

theorem State.Inv.l2Fill : (s.l2Fill a line).1.Inv := by
  unfold State.l2Fill
  dsimp only
  split
  · exact h
  · split
    · exact h
    · exact (h.l2Room ‹_›).homeRead

theorem State.Inv.readLine : (s.readLine c k l1' code line).1.Inv := by
  unfold State.readLine
  dsimp only
  split
  · exact h
  · split
    · exact h
    · split
      · exact h
      · split
        · split
          · exact h
          · exact h.allocLlc
        · split
          · exact h
          · split
            · split
              · exact h.l2Fill
              · split
                · exact h.l2Fill.l1Fill
                · exact h.l2Fill
            · exact h.l2Fill

theorem State.Inv.ownLine : (s.ownLine c k full' line).1.Inv := by
  unfold State.ownLine
  dsimp only
  split
  · exact h
  · split
    · exact h
    · split
      · split
        · exact h
        · split
          · exact h
          · split
            · exact h
            · exact h.l2Room ‹_›
      · split
        · exact h.homeWritten
        · split
          · exact h.homeOwn
          · split
            · split
              · exact h.homeOwn
              · exact h.l2Set
            · split
              · exact h
              · exact (h.l2Room ‹_›).homeOwn

theorem State.Inv.unpoison : (s.unpoison a bank cells).Inv := by
  unfold State.unpoison
  refine .foldl h (fun q x hq => ?_)
  split
  · exact hq.clearPz
  · exact hq

theorem State.Inv.l1Acquire : (s.l1Acquire c).Inv := h

/-! ### Machine/Rods.lean -/

theorem State.Inv.newPartial : (s.newPartial d line fmt).Inv := by
  unfold State.newPartial
  show State.Inv (s.dirPut line (DState.cm (s.cmMask line ||| agentBit (agentOf d))))
  exact h.dirPut

theorem State.Inv.cmRegister (e : s.cmRegister d line fmt = some t) : t.Inv := by
  unfold State.cmRegister at e
  split at e
  · cases e; exact h
  · obtain ⟨u, hu, rfl⟩ := Option.map_eq_some_iff.mp e
    exact (h.l2Room hu).newPartial

theorem State.Inv.rodL2 : (s.rodL2 d fmt loc v).Inv := by
  unfold State.rodL2
  split
  · exact h
  · cases e : s.cmRegister d (lineOf loc) fmt with
    | some t => exact .keep (h.cmRegister e)
    | none => exact .keep (h.newPartial (d := d) (line := lineOf loc) (fmt := fmt))

theorem State.Inv.rodAddAt : (s.rodAddAt d sc fmt loc v).Inv := by
  unfold State.rodAddAt
  split
  · exact h.rodL2
  · exact h.rodHome

theorem State.Inv.combine : (s.combine fmt line).1.Inv := by
  unfold State.combine
  dsimp only
  split
  · exact h
  · split
    · exact h
    · refine .dirPut ?_
      refine .allocLlc ?_
      refine .foldl h (fun q x hq => ?_)
      split
      · exact hq.foldPartial
      · exact hq

theorem State.Inv.readAny : (s.readAny c k l1' code line).1.Inv := by
  unfold State.readAny
  split
  · split
    · exact h.readLine
    · exact h.combine
  · exact h.readLine

/-! ### Machine/ViewCore.lean -/

theorem State.Inv.tagSet : (s.tagSet v b t).Inv := h.pokeN

theorem State.Inv.trigger : (s.trigger h' b).Inv := by
  unfold State.trigger
  dsimp only
  split
  · exact h
  · split
    · exact h
    · split <;> exact h.tagSet

theorem State.Inv.startDelay : (s.startDelay h' v b).Inv := by
  unfold State.startDelay
  split
  · exact h.trigger
  · split <;> exact h

theorem State.Inv.oweBlock : (s.oweBlock h' v b).Inv := by
  unfold State.oweBlock
  dsimp only
  split
  · exact h.tagSet.trigger
  · split
    · split
      · exact h.tagSet.startDelay
      · exact h.tagSet
    · exact h.tagSet.startDelay

theorem State.Inv.masterWritten : (s.masterWritten line bytes).Inv := by
  unfold State.masterWritten
  refine .foldl h (fun q x hq => ?_)
  dsimp only
  split
  · exact hq
  · exact .foldl hq (fun q1 _ hq1 => hq1.oweBlock)

theorem State.Inv.derive : (s.derive h' b n).Inv := by
  unfold State.derive
  dsimp only
  split
  · exact h
  · split
    · split
      · exact h
      · exact h.tagSet
    · split
      · split
        · exact h.poke
        · exact h.poke.tagSet
      · split
        · exact h.poke.pokeN
        · exact h.poke.pokeN.tagSet

theorem State.Inv.keepSample : (s.keepSample who' h' b n).Inv := by
  unfold State.keepSample
  split <;> exact h

theorem State.Inv.viewBlock : (s.viewBlock rd h' v b engine).1.Inv := by
  have hw {n} : State.Inv (s.keepSample rd h' b n) := h.keepSample
  have ht {n} : State.Inv ((s.keepSample rd h' b n).trigger h' b) := h.keepSample.trigger
  unfold State.viewBlock
  extract_lets t old n wait stale
  clear_value stale n
  split
  · split
    · exact h
    · exact ht
  split
  · exact hw
  split
  · exact h
  split
  · split <;> exact h
  · exact h

/-! ### Machine/Translate.lean -/

theorem State.Inv.noteBank : (s.noteBank e).Inv := by
  unfold State.noteBank
  dsimp only
  split <;> exact h

theorem State.Inv.walkKeep : (s.walkKeep w va level node).Inv := by
  unfold State.walkKeep
  dsimp only
  split <;> exact h

theorem State.Inv.walkRead : (s.walkRead w pa l).1.Inv := h.readAny

theorem State.Inv.walkGo : (s.walkGo w va level node).1.Inv := by
  induction level generalizing s node with
  | zero =>
    unfold State.walkGo
    extract_lets pa
    clear_value pa
    split
    next l _ =>
      refine ite_fst_inv (.pair h) ?_
      extract_lets r e
      have hr : State.Inv r.1 := h.walkRead
      clear_value e r
      split
      · exact .pair hr
      · exact .pair hr
      · exact .pair hr
      refine ite_fst_inv (.pair hr) ?_
      refine ite_fst_inv (.pair hr) ?_
      exact ite_fst_inv (.pair hr) (.pair hr)
    next => exact .pair h
  | succ k ih =>
    unfold State.walkGo
    extract_lets pa
    clear_value pa
    split
    next l _ =>
      refine ite_fst_inv (.pair h) ?_
      extract_lets r e
      have hr : State.Inv r.1 := h.walkRead
      clear_value e r
      split
      · exact .pair hr
      · exact .pair hr
      · exact .pair hr
      refine ite_fst_inv (.pair hr) ?_
      refine ite_fst_inv (.pair hr) ?_
      exact ite_fst_inv (ih hr.walkKeep) (.pair hr)
    next => exact .pair h

theorem State.Inv.tlbPut : (s.tlbPut f t).Inv := h

theorem State.Inv.setPte : (s.setPte loc e).1.Inv := by
  unfold State.setPte
  dsimp only
  split
  · exact h.closeLine
  · split
    · split
      · exact h.homeTake.pokeN.homeWritten.masterWritten
      · exact h.homeTake.pokeN.homeWritten
    · exact h.homeTake

theorem State.Inv.walk : (s.walk w k va).1.Inv := by
  unfold State.walk
  dsimp only
  split
  · split
    · exact h.walkGo.noteBank.tlbPut
    · split
      · exact h.walkGo.noteBank
      · split
        · exact h.walkGo.noteBank.setPte.tlbPut
        · exact h.walkGo.noteBank.setPte
        · exact h.walkGo.noteBank.setPte
        · exact h.walkGo.noteBank.setPte
  · exact h.walkGo
  · exact h.walkGo
  · exact h.walkGo

theorem State.Inv.translate : (s.translate w k va).1.Inv := by
  unfold State.translate
  dsimp only
  split
  · split
    · exact h
    · exact h.tlbPut
  · split
    · exact h.walk
    · exact h
    · exact h.walk

theorem State.Inv.setDirty : (s.setDirty t).1.Inv := by
  unfold State.setDirty
  dsimp only
  split
  · exact h
  · split
    · split <;> exact h.setPte
    · exact h

theorem State.Inv.check : (s.check w k align va n).1.Inv := by
  unfold State.check
  extract_lets bad ps last
  refine ite_fst_inv (.pair h) ?_
  refine ite_fst_inv (.pair h) ?_
  refine ite_fst_inv ?_ ?_
  · split
    · exact .pair h
    · exact .pair h
  have hfirst : State.Inv (s.translate w k va).1 := h.translate
  generalize s.translate w k va = p at hfirst ⊢
  obtain ⟨t, r1⟩ := p
  have hlast : State.Inv (if va.toNat / 4096 = last.toNat / 4096 then (t, r1) else t.translate w k last).1 := by
    split
    · exact hfirst
    · exact State.Inv.translate hfirst
  dsimp only
  generalize (if va.toNat / 4096 = last.toNat / 4096 then (t, r1) else t.translate w k last) = q at hlast ⊢
  obtain ⟨u, r2⟩ := q
  dsimp only at hlast ⊢
  split
  · exact hlast
  · exact hlast
  · exact hlast
  · exact hlast
  · split <;> exact hlast
  · split <;> exact hlast
  · split <;> exact hlast
  · split
    · exact hlast
    · split <;> exact hlast

theorem State.Inv.readLines {ls : List Nat} : (s.readLines c a cl code ls).1.Inv := by
  induction ls generalizing s with
  | nil => exact h
  | cons l ls ih =>
    unfold State.readLines
    extract_lets r
    have hr : State.Inv r.1 := h.readAny
    clear_value r
    split
    · exact ih hr
    · exact .pair hr
    · exact .pair hr
    · exact .pair hr

theorem State.Inv.checkRead : (s.checkRead w k l1' align va n).1.Inv := by
  unfold State.checkRead
  split
  split
  · split
    · exact h.check.of_fst ‹_›
    · split
      split <;> exact (h.check.of_fst ‹_›).readLines.of_fst ‹_›
  · exact h.check.of_fst ‹_›
  · exact h.check.of_fst ‹_›
  · exact h.check.of_fst ‹_›

theorem State.Inv.setDirties : (s.setDirties ts).1.Inv := by
  induction ts generalizing s with
  | nil => exact h
  | cons t ts ih =>
    unfold State.setDirties
    extract_lets r
    have hr : State.Inv r.1 := h.setDirty
    clear_value r
    split
    · exact ih hr
    · exact hr

end Sys2Proof.Machine
end

section
/-!
SUPPORT. The canonical form under registers, traps, barriers and accesses: one lemma for each function of the model, in the model's order.
-/
namespace Sys2Proof.Machine
open Sys2Proof

set_option Elab.async false

variable {s : State} (h : s.Inv)
include h

/-! ### Machine/Ops.lean -/

theorem State.Inv.modCore : (s.modCore c f).Inv := h

theorem State.Inv.modStr : (s.modStr c k f).Inv := h.modCore

theorem State.Inv.modMe : (s.modMe f).Inv := h.modStr

theorem State.Inv.modSp : (s.modSp f).Inv := h.modMe

theorem State.Inv.asSplit (hf : ∀ t, t.Inv → (f t).Inv) : (s.asSplit u f).Inv := hf _ (.keep h)

theorem State.Inv.adv : (s.adv n).Inv := h.modSp

theorem State.Inv.holdMe : (s.holdMe).Inv := h.modSp

theorem State.Inv.holdString : (s.holdString).Inv := h.modSp

theorem State.Inv.waitMe : (s.waitMe w).Inv := h.modSp

theorem State.Inv.setS : (s.setS r v).Inv := h.modMe

theorem State.Inv.setK : (s.setK r v).Inv := by
  unfold State.setK
  split
  · exact h
  · exact h.modMe

theorem State.Inv.newOp : (s.newOp c done).Inv := by
  have hu {t : State} (ht : t.Inv) (n : Nat) : State.Inv { t with uids := n } := .keep ht
  exact hu h.modMe _

theorem State.Inv.modUid : (s.modUid c uid f).Inv := by
  unfold State.modUid
  split
  · exact h.modStr
  · exact h.modCore

theorem State.Inv.opDone : (s.opDone c uid id').Inv := h.modUid

theorem State.Inv.commit : (s.commit n).Inv := h.modMe

theorem State.Inv.soon : (s.soon i).Inv := h

theorem State.Inv.later : (s.later i).Inv := h

theorem State.Inv.doubleTrap : (s.doubleTrap c k lanes).Inv := by
  unfold State.doubleTrap
  dsimp only
  split <;> exact h

theorem State.Inv.trapAt : (s.trapAt epc cont int ts).Inv := by
  unfold State.trapAt
  split
  · exact h
  · split
    · exact h.doubleTrap
    · exact h.modMe

theorem State.Inv.trapAll : (s.trapAll code tval).Inv := h.trapAt

theorem State.Inv.trapSome : (s.trapSome n ts).Inv := by
  unfold State.trapSome
  split
  · exact h.adv
  · exact h.trapAt

theorem State.Inv.trapHere : (s.trapHere ts).Inv := h.trapAt

/-! ### Machine/Barrier.lean -/

theorem State.Inv.noteSpilled : (s.noteSpilled c).Inv := h.modCore

theorem State.Inv.wakeBar : (s.wakeBar p).Inv := by
  unfold State.wakeBar
  exact .foldl h (fun q x hq => hq.modUid.noteSpilled)

theorem State.Inv.rewake : (s.rewake q n).Inv := by
  unfold State.rewake
  exact .foldl h (fun _ x hq => hq.wakeBar)

theorem State.Inv.putBytes : (s.putBytes p bs).Inv := h.placePut.rewake

theorem State.Inv.homePut : (s.homePut p bs).Inv := by
  unfold State.homePut
  split
  · split
    · exact h.placePut
    · exact h.placePut.homeWritten
  · exact h.placePut

theorem State.Inv.barUpdate : (s.barUpdate p arrivals expected landed).Inv := by
  unfold State.barUpdate
  dsimp only
  split
  · exact h.homePut.wakeBar
  · exact h.homePut

theorem State.Inv.barError : (s.barError p e).Inv := h.homePut

theorem State.Inv.barPut : (s.barPut p i w).Inv := h.homePut

theorem State.Inv.noteBar : (s.noteBar l).Inv := by
  unfold State.noteBar
  dsimp only
  split <;> exact h.allocLlc

theorem State.Inv.barHome : (s.barHome p).1.Inv := by
  unfold State.barHome
  dsimp only
  split
  · split <;> exact h
  · split
    · exact h
    · split
      · exact h
      · split
        · exact h.homeTake.noteBar
        · exact h.homeTake
        · exact h.homeTake
        · exact h.homeTake
        · exact h.homeTake

theorem State.Inv.barCheck : (s.barCheck w sp' a).1.Inv := by
  unfold State.barCheck
  dsimp only
  split
  · split
    · exact h.barHome
    · exact h
  · split
    · exact h.check
    · exact h.check
    · exact h.check
    · split
      · split
        · exact h.check
        · split
          · exact h.check
          · split
            · exact h.check
            · split
              · exact h.check.barHome.setDirties
              · exact h.check.barHome
      · exact h.check

theorem State.Inv.sleepOn : (s.sleepOn a lanes va).Inv := by
  unfold State.sleepOn
  refine .holdMe ?_
  split <;> exact h

theorem State.Inv.onCheck (hk : ∀ t y1, t.Inv → (k t y1).Inv) : (s.onCheck r tv k).Inv := by
  unfold State.onCheck
  split
  · exact hk _ _ h
  · exact h.trapAll
  · exact h.sleepOn
  · exact h.holdMe

theorem State.Inv.acquire : (s.acquire sc).Inv := by
  unfold State.acquire
  split
  · exact h
  · exact h.l1Acquire

theorem State.Inv.releasing (hk : ∀ t, t.Inv → (k t).Inv) : (s.releasing sc k).Inv := by
  unfold State.releasing
  split
  · exact hk _ h
  · exact h.holdMe

theorem State.Inv.waitOn : (s.waitOn p ph).Inv := by
  unfold State.waitOn
  extract_lets reg isRemote home room t
  have ht : State.Inv t := h.waitMe
  exact iteInduction (fun _ => ht) fun _ => ht

theorem State.Inv.unreg : (s.unreg p).Inv := by
  unfold State.unreg
  split <;> exact h

/-! ### Machine/Operands.lean -/

theorem State.Inv.spoil : (s.spoil os).Inv := by
  unfold State.spoil
  refine .foldl h (fun q x hq => ?_)
  show State.Inv (q.modMe fun t => t.setV q.cyc x (BitVec.allOnes 32) (freeWord q.free))
  exact hq.modMe

theorem State.Inv.vec (hk : ∀ t, t.Inv → (k t).Inv) : Res.Inv (s.vec i k) := by
  unfold State.vec
  dsimp only
  split
  · exact h.trapAll
  · split
    · exact hk _ h
    · split
      · exact (hk _ h.spoil).spoil
      · exact hk _ h

theorem State.Inv.putV : (s.putV t r lanes f).Inv := by
  unfold State.putV
  dsimp only
  split
  · exact h
  · split
    · exact h.modMe.modMe
    · exact h.modMe

theorem State.Inv.put1 : (s.put1 r lanes f).Inv := by
  unfold State.put1
  split
  · exact h
  · exact h.modMe

theorem State.Inv.sBin : Res.Inv (s.sBin t d a b f) := by
  unfold State.sBin
  exact h.setS.adv

theorem State.Inv.sShift : Res.Inv (s.sShift t d a b f) := by
  unfold State.sShift
  exact h.setS.adv

theorem State.Inv.sImm : Res.Inv (s.sImm d a imm f) := by
  unfold State.sImm
  exact h.setS.adv

theorem State.Inv.sCount : Res.Inv (s.sCount t d a f) := by
  unfold State.sCount
  exact h.setS.adv

theorem State.Inv.kSet : Res.Inv (s.kSet d v) := by
  unfold State.kSet
  exact h.setK.adv

theorem State.Inv.kToS : Res.Inv (s.kToS d v) := by
  unfold State.kToS
  exact h.setS.adv

theorem State.Inv.vBin : (s.vBin g t d a b f).Inv := h.putV.adv

theorem State.Inv.vUn : (s.vUn g t d a f).Inv := h.putV.adv

theorem State.Inv.vTern : (s.vTern g t d a b c f).Inv := h.putV.adv

theorem State.Inv.vImm : (s.vImm g d a imm f).Inv := h.put1.adv

theorem State.Inv.vRel : (s.vRel g d p).Inv := by
  unfold State.vRel
  dsimp only
  split
  · exact h
  · exact h.setK

theorem State.Inv.vLane : (s.vLane g t d a src).Inv := h.putV.adv

theorem State.Inv.stage : (s.stage f).Inv := h.modSp

theorem State.Inv.drawn : (s.drawn mode lanes n).Inv := by
  unfold State.drawn
  split
  · exact h.modMe
  · exact h

theorem State.Inv.fElems : (s.fElems g mode dt at_ n d f).Inv := h.drawn.putV.stage.adv

theorem State.Inv.fUn : (s.fUn g t mode d a f).Inv := h.fElems

theorem State.Inv.fBin : (s.fBin g t mode d a b f).Inv := h.fElems

theorem State.Inv.fTern : (s.fTern g t mode d a b c f).Inv := h.fElems

/-! ### Machine/Regs.lean -/

theorem State.Inv.resqTake : (s.resqTake).1.Inv := by
  unfold State.resqTake
  split <;> exact h

theorem State.Inv.elogTake : (s.elogTake).1.Inv := by
  unfold State.elogTake
  dsimp only
  split
  · exact h
  · split
    · exact .raiseIrq (.keep h)
    · exact h

theorem State.Inv.regLoad : (s.regLoad a n).1.Inv := by
  unfold State.regLoad
  dsimp only
  split
  · split
    · exact h.elogTake
    · exact h
  · split
    · split
      · exact h.resqTake
      · exact h
    · exact h

theorem State.Inv.writeCtxcmd : (s.writeCtxcmd v).Inv := by
  have hs {t : State} (ht : t.Inv) (c : W64) : State.Inv { t with ctxstat := c } := .keep ht
  unfold State.writeCtxcmd
  refine ite_inv h ?_
  extract_lets t e
  have ht : State.Inv t := .keep h
  clear_value t e
  split
  · exact ht.soon
  · exact ht.soon
  · exact ht.soon
  · exact ht.soon
  · exact hs ht _

theorem State.Inv.writeMcmd : (s.writeMcmd v).Inv := by
  unfold State.writeMcmd
  refine ite_inv h ?_
  extract_lets t
  have ht : State.Inv t := .keep h
  clear_value t
  split
  · exact ht.soon
  · exact ht.soon
  · exact .keep ht

theorem State.Inv.regStore : (s.regStore a v).Inv := by
  have hctab (c : Vector (Vector W64 4) 64) : State.Inv { s with ctab := c } := .keep h
  have hbazaar (c : Vector Bazaar 16) : State.Inv { s with bazaar := c } := .keep h
  unfold State.regStore
  extract_lets o _ _ w locked
  clear_value w locked
  refine dite_inv (fun _ => ?_) fun _ => ?_
  · exact ite_inv (ite_inv h.soon h.soon) h.soon
  refine ite_inv (.keep h) ?_
  refine ite_inv (ite_inv h h.soon) ?_
  refine dite_inv (fun _ => ?_) fun _ => ?_
  · exact ite_inv (ite_inv h.soon h.soon) (ite_inv h (hbazaar _))
  refine ite_inv ?_ ?_
  · split
    · exact hctab _
    · exact ite_inv h (hctab _)
    · exact ite_inv h (hctab _)
    · exact h
  refine ite_inv h.writeCtxcmd ?_
  refine ite_inv (.keep h) ?_
  refine ite_inv h.raiseIrq ?_
  refine ite_inv (.keep h) ?_
  refine ite_inv (.keep h) ?_
  refine ite_inv (.keep h) ?_
  refine ite_inv (ite_inv (.keep h) h) ?_
  refine ite_inv (.keep h) ?_
  exact ite_inv h.writeMcmd h

theorem State.Inv.regStoreEv : (s.regStoreEv a n v).Inv := by
  unfold State.regStoreEv
  split
  · exact h.later
  · exact h

/-! ### Machine/MemAccess.lean -/

theorem State.Inv.countRange : (s.countRange launch c va line).Inv := by
  unfold State.countRange
  dsimp only
  split
  · exact h
  · split <;> exact h

theorem State.Inv.countLine : (s.countLine va load line).Inv := by
  unfold State.countLine
  dsimp only
  split
  · exact h
  · exact h.countRange

theorem State.Inv.countOnce : (s.countOnce va a load).Inv := by
  unfold State.countOnce
  split
  · exact h
  · split
    · exact h
    · exact .foldl h (fun q x hq => hq.countLine)

theorem State.Inv.insertLow : (s.insertLow s0 launch c va lines).Inv := by
  unfold State.insertLow
  dsimp only
  split <;> exact h

theorem State.Inv.viewLocs : (s.viewLocs rd engine locs).1.Inv := by
  unfold State.viewLocs
  extract_lets hits blocks
  refine .foldl_fst h ?_
  intro r b ht
  obtain ⟨t, out, zs⟩ := r
  have hq : State.Inv (t.viewBlock rd b.1 b.2.1 b.2.2 engine).1 := ht.viewBlock
  dsimp only
  generalize t.viewBlock rd b.1 b.2.1 b.2.2 engine = q at hq ⊢
  obtain ⟨q, ans⟩ := q
  split <;> exact hq

theorem State.Inv.remoteGo : (s.remoteGo lanes va loc wr sc).1.Inv := by
  unfold State.remoteGo
  dsimp only
  split <;> exact h

theorem State.Inv.remoteDone : (s.remoteDone).Inv := h

theorem State.Inv.chkLoad : (s.chkLoad lanes align va n res).1.Inv := by
  unfold State.chkLoad
  dsimp only
  split
  · exact h.check
  · exact h.check
  · exact h.check
  · split
    · exact h.check
    · split
      · exact h.check
      · split
        · split
          · split
            · exact h.check.countOnce.readLines.insertLow.viewLocs.remoteGo
            · exact h.check.countOnce.readLines.insertLow.viewLocs
          · split
            · exact h.check.countOnce.readLines.insertLow.viewLocs.remoteGo
            · exact h.check.countOnce.readLines.insertLow.viewLocs
          · exact h.check.countOnce.readLines.insertLow.viewLocs
        · exact h.check.countOnce.readLines
        · exact h.check.countOnce.readLines
        · exact h.check.countOnce.readLines

theorem State.Inv.chkWrite : (s.chkWrite k align va n).1.Inv := by
  unfold State.chkWrite
  dsimp only
  split
  · exact h.check
  · exact h.check
  · exact h.check
  · split
    · exact h.check
    · split
      · exact h.check
      · exact h.check.countOnce

theorem State.Inv.chkLanes (hf : ∀ t y1, t.Inv → (f t y1).1.Inv) : (s.chkLanes lanes f).1.Inv := by
  unfold State.chkLanes
  exact .foldl_fst h (fun _ x hq => hf _ _ hq)

theorem State.Inv.settled (hk : ∀ t, t.Inv → (k t).Inv) : (s.settled rs addr k).Inv := by
  unfold State.settled
  split
  · exact h.sleepOn
  · split
    · exact h.holdMe
    · exact hk _ h

theorem State.Inv.performingAs (hk : ∀ t, t.Inv → (k t).Inv) : (s.performingAs ret rs mask addr k).Inv := by
  unfold State.performingAs
  dsimp only
  split
  · split
    · exact hk _ (.foldl_fst h.setDirties fun _ _ h => h.remoteGo)
    · exact State.Inv.holdMe (.foldl_fst h.setDirties fun _ _ h => h.remoteGo)
  · exact h.setDirties.sleepOn
  · exact h.setDirties.holdMe

theorem State.Inv.performing (hk : ∀ t, t.Inv → (k t).Inv) : (s.performing rs mask addr k).Inv := by
  unfold State.performing
  exact .performingAs h (fun q hq => hk _ hq)

theorem State.Inv.readGo : (s.readGo a zeros n).1.Inv := by
  unfold State.readGo
  split
  · exact h.regLoad
  · exact h

theorem State.Inv.readLanes : (s.readLanes rs n).1.Inv := by
  unfold State.readLanes
  refine .foldl_fst h (fun r x hq => ?_)
  dsimp only
  split
  · exact hq.readGo
  · exact hq
  · exact hq

theorem State.Inv.perform : (s.perform cells).Inv := by
  unfold State.perform
  exact .foldl (.foldl h.poke (fun q x hq => hq.rewake)) (fun q x hq => hq.masterWritten)

theorem State.Inv.storeLine : (s.storeLine op line bank cells).Inv := by
  unfold State.storeLine
  split
  · exact h
  · exact h.unpoison.perform

theorem State.Inv.ownEach : (s.ownEach rs addr).1.Inv := by
  unfold State.ownEach
  refine .foldl_fst h (fun r x hq => ?_)
  dsimp only
  split
  · split
    · exact hq
    · split
      · exact hq.ownLine.insertLow
      · exact hq.ownLine
  · split
    · exact hq
    · split
      · exact hq.ownLine.insertLow
      · exact hq.ownLine
  · split
    · exact hq
    · split
      · exact hq.ownLine.insertLow
      · exact hq.ownLine
  · split
    · exact hq
    · split
      · exact hq.ownLine.insertLow
      · exact hq.ownLine

theorem State.Inv.ownLanes : (s.ownLanes rs addr).1.Inv := by
  unfold State.ownLanes
  dsimp only
  exact h.ownEach

theorem State.Inv.storeLanes : (s.storeLanes rs bytes).Inv := by
  unfold State.storeLanes
  refine .foldl (.foldl h.newOp (fun q x hq => hq.storeLine)) (fun q x hq => ?_)
  split
  · exact hq.regStoreEv
  · exact hq

/-! ### Machine/BarrierOps.lean -/

theorem execFence_inv : Res.Inv (execFence sc k s) := by
  unfold execFence
  split
  · split
    · exact h.acquire.adv
    · exact h.holdMe
  · refine .releasing h (fun q hq => ?_)
    refine .adv ?_
    split
    · exact hq.acquire
    · exact hq

theorem State.Inv.withBar (hk : ∀ t y1, t.Inv → (k t y1).Inv) : (s.withBar sp' wr va k).Inv := by
  unfold State.withBar
  refine .onCheck h.barCheck (fun q y1 hq => ?_)
  dsimp only
  split
  · split
    · exact hk _ _ hq.remoteGo.remoteDone
    · exact hq.remoteGo.holdMe
  · exact hk _ _ hq

theorem execBarInit_inv : Res.Inv (execBarInit sp' a b c s) := by
  unfold execBarInit
  refine .withBar h (fun q y1 hq => ?_)
  dsimp only
  split
  · exact hq.trapAll
  · split
    · exact hq.trapAll
    · exact hq.homePut.wakeBar.commit.adv

theorem execBarExp_inv : Res.Inv (execBarExp sp' a b s) := by
  unfold execBarExp
  refine .withBar h (fun q y1 hq => ?_)
  dsimp only
  split
  · exact hq.trapAll
  · exact hq.barUpdate.commit.adv

theorem execBarArr_inv : Res.Inv (execBarArr sc expv sp' a b s) := by
  unfold execBarArr
  refine .withBar h (fun q y1 hq => ?_)
  dsimp only
  split
  · split
    · exact hq.trapAll
    · exact .releasing hq (fun q1 hq1 => hq1.barUpdate.commit.adv)
  · split
    · exact hq.trapAll
    · exact .releasing hq (fun q1 hq1 => hq1.barUpdate.commit.adv)

theorem State.Inv.barWaited : (s.barWaited sc d p).Inv := h.acquire.setS.unreg.waitMe.adv

theorem execBarWait_inv : Res.Inv (execBarWait sc sp' d a b s) := by
  unfold execBarWait
  dsimp only
  split
  · split
    · exact h.barWaited
    · exact h
  · refine .withBar h (fun q y1 hq => ?_)
    split
    · exact hq.waitOn
    · split
      · exact hq.barWaited
      · exact hq.holdMe

theorem execBarTest_inv : Res.Inv (execBarTest sc sp' d a s) := by
  unfold execBarTest
  refine .withBar h (fun q y1 hq => ?_)
  split
  · exact hq.acquire.setS.adv
  · exact hq.holdMe

theorem execWcnt_inv : Res.Inv (execWcnt ld st cp tl s) := by
  unfold execWcnt
  split
  · exact h.adv
  · exact h.holdMe

end Sys2Proof.Machine
end

section
/-!
SUPPORT. The canonical form under ranges, seals, engines' reads, fences and views: one lemma for each function of the model, in the model's order.
-/
namespace Sys2Proof.Machine
open Sys2Proof

set_option Elab.async false

variable {s : State} (h : s.Inv)
include h

/-! ### Machine/Ranges.lean -/

theorem State.Inv.withOps (hk : ∀ t y1 y2, t.Inv → (k t y1 y2).Inv) : (s.withOps a b k).Inv := by
  unfold State.withOps
  dsimp only
  split
  · refine .waitMe ?_
    split
    · exact hk _ _ _ h.waitMe
    · exact hk _ _ _ h
  · split
    · exact hk _ _ _ h.waitMe
    · exact hk _ _ _ h

theorem State.Inv.pageAt : (s.pageAt w k sealCond mapped va).1.Inv := by
  unfold State.pageAt
  dsimp only
  split
  · split
    · exact h
    · split <;> exact h
  · split
    · exact h
    · split
      · exact h.translate
      · exact h.translate
      · exact h.translate
      · split
        · exact h.translate
        · split <;> exact h.translate

theorem State.Inv.pagesOf : (s.pagesOf w k sealCond mapped n va stop).1.Inv := by
  induction n generalizing s va with
  | zero => exact h
  | succ n ih =>
    unfold State.pagesOf
    refine ite_fst_inv (.pair h) ?_
    extract_lets r
    have hr : State.Inv r.1 := h.pageAt
    clear_value r
    split
    · exact .pair hr
    · exact .pair hr
    · exact .pair hr
    next p _ =>
      extract_lets q
      have hq : State.Inv q.1 := ih hr
      clear_value q
      split
      · exact .pair hq
      · exact .pair hq

theorem State.Inv.onPages (hk : ∀ t y1, t.Inv → (k t y1).Inv) : (s.onPages r k).Inv := by
  unfold State.onPages
  split
  · exact hk _ _ h
  · exact h.trapAll
  · exact h.sleepOn
  · exact h.holdMe

theorem State.Inv.dropTrs : (s.dropTrs pas).Inv := h

theorem State.Inv.sealPages (hk : ∀ t y1, t.Inv → (k t y1).Inv) : (s.sealPages base len k).Inv := by
  unfold State.sealPages
  dsimp only
  split
  · exact h.trapAll
  · refine .onPages h.pagesOf (fun q y1 hq => ?_)
    split
    · exact hq.trapAll
    · exact hk _ _ hq

theorem execSeal_inv : Res.Inv (execSeal a b s) := by
  unfold execSeal
  refine h.withOps (fun q y1 y2 hq => ?_)
  refine hq.sealPages (fun q1 y11 hq1 => ?_)
  dsimp only
  split
  · exact hq1.trapAll
  · split
    · exact hq1.trapAll
    · split
      · split
        · exact .holdMe (.dropTrs (.keep hq1))
        · refine .releasing (.dropTrs (.keep hq1)) (fun q2 hq2 => ?_)
          split
          · exact hq2.acquire.adv
          · exact hq2.holdMe
      · split
        · exact .holdMe (.dropTrs (.keep hq1))
        · refine .releasing (.dropTrs (.keep hq1)) (fun q2 hq2 => ?_)
          split
          · exact hq2.acquire.adv
          · exact hq2.holdMe

theorem execUnseal_inv : Res.Inv (execUnseal a b s) := by
  have hl1 {t : State} (ht : t.Inv) (n : List L1Line) : State.Inv { t with l1 := n } := .keep ht
  have hseals {t : State} (ht : t.Inv) (n : List Nat) : State.Inv { t with seals := n } := .keep ht
  unfold execUnseal
  refine h.withOps fun q base len hq => ?_
  refine hq.sealPages fun t ps ht => ?_
  extract_lets held pas isIn s1 s2 copies s3 s4
  have h2 : State.Inv s2 := hl1 ht.dropTrs _
  clear_value s2
  have h4 : State.Inv s4 := hseals (.foldl h2 fun _ _ hv => hv.evictL2) _
  clear_value s4
  split
  · exact h2.sleepOn
  · refine ite_inv (State.Inv.holdMe (.foldl h2 fun _ _ hv => hv.closeLine)) ?_
    exact h4.releasing fun v hv => ite_inv hv.acquire.adv hv.holdMe

theorem State.Inv.farFirst (hk : ∀ t, t.Inv → (k t).Inv) : (s.farFirst far va k).Inv := by
  unfold State.farFirst
  dsimp only
  split
  · split
    · exact hk _ h.remoteGo.remoteDone
    · exact h.remoteGo.holdMe
  · exact hk _ h

theorem State.Inv.waitRange : (s.waitRange i r a b).Inv := by
  unfold State.waitRange
  split
  · exact h.sleepOn
  · exact h.waitMe

theorem execCmr_inv : Res.Inv (execCmr t sc a b s) := by
  unfold execCmr
  refine h.withOps (fun q y1 y2 hq => ?_)
  dsimp only
  split
  · exact hq.trapAll
  · refine hq.pagesOf.onPages (fun q1 y11 hq1 => ?_)
    split
    · split
      · split
        · exact hq1.holdMe
        · refine hq1.farFirst (fun q2 hq2 => ?_)
          split
          · exact hq2.waitRange
          · exact hq2.commit.adv
      · exact hq1.holdMe
    · split
      · exact hq1.trapAll
      · refine hq1.farFirst (fun q2 hq2 => ?_)
        split
        · split
          · exact hq2.commit.adv
          · exact .waitRange (.keep hq2)
        · exact hq2.commit.adv

theorem execCmrend_inv : Res.Inv (execCmrend a s) := by
  unfold execCmrend
  refine h.withOps (fun q y1 y2 hq => ?_)
  refine hq.check.onCheck (fun q1 y11 hq1 => ?_)
  dsimp only
  split
  · refine hq1.farFirst (fun q2 hq2 => ?_)
    split
    · split
      · exact hq2.holdMe
      · exact .waitRange (.keep hq2)
    · exact hq2.commit.adv
  · exact hq1.commit.adv

theorem State.Inv.wakeParked : (s.wakeParked p).Inv := h

theorem State.Inv.retryAll : (s.retryAll p).Inv := by
  unfold State.retryAll
  show State.Inv (s.wakeParked p)
  exact h.wakeParked

theorem State.Inv.passAll : (s.passAll p).Inv := by
  unfold State.passAll
  exact .foldl h.wakeParked (fun q x hq => .asSplit hq (fun q1 hq1 => hq1.commit.adv.waitMe))

theorem State.Inv.cmLine : (s.cmLine line).Inv := by
  unfold State.cmLine
  dsimp only
  split
  · exact h.homeTake.dirPut
  · exact h

theorem State.Inv.wakeFor : (s.wakeFor lines).Inv := by
  unfold State.wakeFor
  refine .foldl h (fun q x hq => ?_)
  split
  · exact hq.homeWake
  · exact hq

theorem State.Inv.askLink : (s.askLink i r).Inv := by
  unfold State.askLink
  split
  · exact h.retryAll
  · exact h

theorem execCmrComplete_inv : Res.Inv (execCmrComplete s) := by
  unfold execCmrComplete
  split
  · split
    next r _ =>
      split
      · have hc : State.Inv (r.lines.foldl State.cmLine s) := .foldl h fun _ _ h => h.cmLine
        exact .passAll (.keep hc)
      · have hc : State.Inv (r.lines.foldl State.closeLine s) := .foldl h fun _ _ h => h.closeLine
        show State.Inv (if _ then _ else _)
        split
        · exact hc.wakeFor.askLink
        · exact h
    · exact h
  · trivial

theorem State.Inv.endLine : (s.endLine fmt line).Inv := h.combine.dirDel

theorem execCmrendComplete_inv : Res.Inv (execCmrendComplete s) := by
  unfold execCmrendComplete
  split
  · split
    next r _ =>
      split
      · have he : State.Inv (r.lines.foldl (fun s l => s.endLine r.fmt l) s) := .foldl h fun _ _ h => h.endLine
        exact .passAll (.keep he)
      · refine .askLink (.foldl h fun t l ht => ?_)
        split
        · exact ht.homeWake
        · exact ht
    · exact h
  · trivial

/-! ### Machine/Engine.lean -/

theorem State.Inv.engSleep : (s.engSleep c a va : State × EAns α).1.Inv := by
  unfold State.engSleep
  dsimp only
  split
  · split <;> exact h
  · exact h

theorem State.Inv.engRemote : (s.engRemote c wr va loc).1.Inv := by
  unfold State.engRemote
  dsimp only
  split
  · split
    · exact h
    · split <;> exact h
  · exact h

theorem State.Inv.engLoad : (s.engLoad w va n).1.Inv := by
  unfold State.engLoad
  dsimp only
  split
  · exact h.check
  · unfold State.engSleep
    dsimp only
    split
    · split <;> exact h.check
    · exact h.check
  · exact h.check
  · split
    · exact h.check.regLoad
    · split
      · split <;> exact h.check.engRemote
      · split
        · exact h.check.readLines
        · unfold State.engSleep
          dsimp only
          split
          · split <;> exact h.check.readLines
          · exact h.check.readLines
        · exact h.check.readLines
        · split <;> exact h.check.readLines.insertLow.viewLocs

theorem State.Inv.engStore : (s.engStore w va bs).1.Inv := by
  unfold State.engStore
  dsimp only
  split
  · exact h.check
  · unfold State.engSleep
    dsimp only
    split
    · split <;> exact h.check
    · exact h.check
  · exact h.check
  · split
    · exact h.check.regStoreEv
    · split
      · split
        · split
          · exact h.check.setDirties.engRemote.perform
          · exact h.check.setDirties.engRemote
        · unfold State.engSleep
          dsimp only
          split
          · split <;> exact h.check.setDirties
          · exact h.check.setDirties
        · exact h.check.setDirties
      · split
        · split
          · exact h.check.closeLine
          · split
            · split
              · exact h.check.ownLine.insertLow.setDirties.unpoison.perform
              · unfold State.engSleep
                dsimp only
                split
                · split <;> exact h.check.ownLine.insertLow.setDirties
                · exact h.check.ownLine.insertLow.setDirties
              · exact h.check.ownLine.insertLow.setDirties
            · exact h.check.ownLine
            · unfold State.engSleep
              dsimp only
              split
              · split <;> exact h.check.ownLine
              · exact h.check.ownLine
            · exact h.check.ownLine
        · exact h.check

theorem State.Inv.scrStore : (s.scrStore c ctx a bs).1.Inv := by
  unfold State.scrStore
  split
  · exact h.putBytes
  · exact h
  · exact h

theorem State.Inv.sideLoad : (s.sideLoad w sp' va n).1.Inv := by
  unfold State.sideLoad
  split
  · exact h
  · exact h.engLoad

theorem State.Inv.sideStore : (s.sideStore w sp' va bs).1.Inv := by
  unfold State.sideStore
  split
  · exact h.scrStore
  · exact h.engStore

theorem State.Inv.take : (s.take w sp' va n at_' t).1.Inv := by
  unfold State.take
  refine .foldl_fst h (fun r x hq => ?_)
  dsimp only
  split <;> exact hq.sideLoad

theorem State.Inv.land : (s.land w sp' va n at_' t).1.Inv := by
  unfold State.land
  refine .foldl_fst h (fun r x hq => ?_)
  dsimp only
  split
  · split <;> exact hq.sideStore
  · exact hq

theorem State.Inv.markBusy : (s.markBusy h' b).Inv := by
  unfold State.markBusy
  dsimp only
  split
  · exact h.tagSet
  · exact h

theorem State.Inv.waited : (s.waited u).Inv := by
  refine .foldl (.keep h) fun t d ht => ?_
  exact ht.markBusy

theorem State.Inv.closeBar : (s.closeBar p).Inv := by
  unfold State.closeBar
  split
  · exact h
  · exact h.closeLine.wakeFor

theorem State.Inv.barTake : (s.barTake p).Inv := by
  unfold State.barTake
  split
  · exact h
  · split
    · exact h
    · exact h.homeTake

theorem State.Inv.engArrive : (s.engArrive p code arrivals expected landed).Inv := by
  unfold State.engArrive
  dsimp only
  split
  · exact h
  · refine .barUpdate ?_
    split
    · exact h.barTake
    · exact h.barTake.barError

/-! ### Machine/MemoryOps.lean -/

theorem State.Inv.putLoads : (s.putLoads sz sx d rs).Inv := by
  unfold State.putLoads
  exact .foldl h (fun q x hq => hq.put1)

theorem State.Inv.loadLanes : (s.loadLanes g sz sx d res addr).Inv := by
  unfold State.loadLanes
  dsimp only
  split
  · exact h.adv
  · split
    · exact h.holdMe
    · refine .settled (.chkLanes h (fun q _ hq => hq.chkLoad)) (fun q hq => ?_)
      refine .trapSome ?_
      refine .remoteDone ?_
      refine .newOp ?_
      split
      · exact hq.readLanes.putLoads
      · exact hq.readLanes.putLoads.setK

theorem State.Inv.storeTo : (s.storeTo g n addr bytes).Inv := by
  unfold State.storeTo
  dsimp only
  split
  · exact h.adv
  · split
    · exact h.holdMe
    · refine .settled (.ownLanes (.chkLanes h (fun q _ hq => hq.chkWrite))) (fun q hq => ?_)
      split
      · exact hq.remoteDone.trapHere
      · refine .performing hq (fun q1 hq1 => ?_)
        split
        · exact hq1.storeLanes.remoteDone.commit.adv
        · exact hq1.storeLanes.remoteDone.trapSome

theorem execLd_inv : Res.Inv (execLd g sz sx d a res off s) := by
  unfold execLd
  exact h.vec (fun q hq => hq.loadLanes)

theorem execSt_inv : Res.Inv (execSt g sz a b off s) := by
  unfold execSt
  exact h.vec (fun q hq => hq.storeTo)

theorem execGth_inv : Res.Inv (execGth g sz sx d a res off s) := by
  unfold execGth
  exact h.vec (fun q hq => hq.loadLanes)

theorem execSct_inv : Res.Inv (execSct g sz a b off s) := by
  unfold execSct
  exact h.vec (fun q hq => hq.storeTo)

theorem execSpld_inv : Res.Inv (execSpld g sz am sx d a off s) := by
  unfold execSpld
  refine h.vec (fun q hq => ?_)
  dsimp only
  split
  · exact hq.adv
  · split
    · exact hq.holdMe
    · exact hq.putLoads.newOp.trapSome

theorem execSpst_inv : Res.Inv (execSpst g sz am a b off s) := by
  unfold execSpst
  refine h.vec (fun q hq => ?_)
  dsimp only
  split
  · exact hq.adv
  · split
    · exact hq.holdMe
    · exact ((hq.foldl (fun q1 x hq1 => hq1.putBytes)).newOp ).trapSome

theorem State.Inv.oneAccess (hk : ∀ t, t.Inv → (k t).Inv) : (s.oneAccess c va k).Inv := by
  unfold State.oneAccess
  split
  · exact hk _ h
  · exact h.remoteDone.trapAll
  · exact h.remoteDone.trapAll
  · exact h.sleepOn
  · exact h.holdMe

theorem execSld_inv : Res.Inv (execSld sz sx d a off s) := by
  unfold execSld
  dsimp only
  split
  · exact h.holdMe
  · exact .oneAccess h.chkLoad (fun q hq => hq.readLanes.setS.newOp.remoteDone.adv)

theorem execSst_inv : Res.Inv (execSst sz a b off s) := by
  unfold execSst
  dsimp only
  split
  · exact h.holdMe
  · refine .oneAccess h.chkWrite.ownLanes (fun q hq => ?_)
    refine .performing hq (fun q1 hq1 => ?_)
    refine .adv ?_
    split
    · exact hq1.storeLanes.remoteDone.commit
    · exact hq1.storeLanes.remoteDone

theorem State.Inv.dropHint : (s.dropHint lane).Inv := h.modSp

theorem State.Inv.prefetchLine : (s.prefetchLine tgt k line).1.Inv := by
  unfold State.prefetchLine
  dsimp only
  split
  · exact h
  · split
    · exact h
    · split
      · exact h.allocLlc
      · exact h.readLine

theorem State.Inv.prefetchPage : (s.prefetchPage tgt lanes).Inv := by
  unfold State.prefetchPage
  dsimp only
  split
  · refine .foldl_fst h (fun r x hq => ?_)
    split
    · exact hq
    · split
      · refine .foldl_fst hq.check (fun r1 x1 hq1 => ?_)
        split
        · exact hq1.prefetchLine.insertLow
        · exact hq1
      · exact hq
  · exact h.dropHint

theorem execPf_inv : Res.Inv (execPf g tgt a off s) := by
  unfold execPf
  exact h.vec (fun q hq => (hq.foldl (fun q1 x hq1 => hq1.prefetchPage)).adv )

theorem State.Inv.postResid : (s.postResid va).Inv := by
  unfold State.postResid
  dsimp only
  split
  · exact h
  · exact .raiseIrq (.keep h)

theorem State.Inv.residPage : (s.residPage lanes).Inv := by
  unfold State.residPage
  dsimp only
  split
  · exact h
  · split
    · split
      · exact h.dropHint
      · exact h.check
    · split
      · exact h.dropHint.postResid
      · exact h.dropHint
    · exact h.dropHint

theorem execResid_inv : Res.Inv (execResid g a off s) := by
  unfold execResid
  exact h.vec (fun q hq => (hq.foldl (fun q1 x hq1 => hq1.residPage)).adv )

/-! ### Machine/Views.lean -/

theorem State.Inv.viewPages : (s.viewPages bk as).1.Inv := by
  induction as generalizing s with
  | nil => exact h
  | cons a as ih =>
    unfold State.viewPages
    extract_lets q z
    have hq : State.Inv q.1 := h.pagesOf
    have hz : State.Inv z.1 := ih hq
    clear_value z q
    split
    · refine ite_fst_inv (.pair hq) ?_
      split
      · exact .pair hz
      · exact .pair hz
    · exact .pair hq

theorem State.Inv.recallLine : (s.recallLine line).Inv := h.homeTake

theorem State.Inv.dropLineTrs : (s.dropLineTrs lines).Inv := h

theorem State.Inv.register : (s.register h' v).Inv := by
  unfold State.register
  refine .foldl ?_ (fun q x hq => hq.trigger)
  refine .foldl ?_ (fun q x hq => hq.tagSet)
  show State.Inv (List.foldl State.recallLine (s.dropLineTrs v.mlines) (v.mlines ++ v.elines.flatten ++ v.slines.flatten ++ v.tlines))
  exact .foldl h.dropLineTrs (fun q x hq => hq.recallLine)

theorem State.Inv.vwregGo : (s.vwregGo d ws).Inv := by
  unfold State.vwregGo
  extract_lets out v as m e t free
  have hout {u : State} (hu : u.Inv) (x : W64) : State.Inv (out u x) := hu.setS.commit.adv
  have hm : State.Inv m.1 := h.viewPages
  have he : State.Inv e.1 := hm.viewPages
  have ht : State.Inv t := he
  clear_value t m e out
  split
  · exact hout h _
  split
  · exact hout h _
  split
  · extract_lets lin w all
    split
    · exact hout ht _
    split
    · refine .holdMe (.wakeFor (.foldl ht fun u l hu => ?_))
      exact hu.closeLine
    · exact hout (.register (.keep ht)) _
  · exact hout hm _
  · exact hout he _
  · exact hm.sleepOn
  · exact he.sleepOn
  · exact hm.holdMe
  · exact he.holdMe

theorem execVwreg_inv : Res.Inv (execVwreg d a s) := by
  unfold execVwreg
  exact .oneAccess h.chkLoad (fun q hq => hq.readLanes.remoteDone.acquire.vwregGo)

theorem execVwdrop_inv : Res.Inv (execVwdrop a s) := by
  unfold execVwdrop
  split
  · exact .waitMe (.keep h)
  · exact h.commit.adv

theorem execVwsync_inv : Res.Inv (execVwsync sc d a s) := by
  unfold execVwsync
  refine .releasing h (fun q hq => ?_)
  dsimp only
  split
  · exact hq.acquire.setS.adv
  · refine .waitMe ?_
    refine .foldl hq (fun q1 x hq1 => ?_)
    split
    · exact hq1.trigger
    · exact hq1

theorem execVwdropComplete_inv : Res.Inv (execVwdropComplete s) := by
  unfold execVwdropComplete
  dsimp only
  split
  · split
    · split
      · refine State.Inv.passAll ?_
        split
        · exact h
        · exact .dropLineTrs (.keep h)
      · exact h
    · exact h
  · trivial

theorem State.Inv.endSync : (s.endSync v sc d).Inv := h.acquire.setS.adv.waitMe

theorem execVwsyncComplete_inv : Res.Inv (execVwsyncComplete s) := by
  unfold execVwsyncComplete
  dsimp only
  split
  · split
    · split
      · split
        · exact .asSplit h (fun q hq => hq.endSync)
        · exact h
      · exact .asSplit h (fun q hq => hq.endSync)
    · exact h
  · trivial

theorem execMasterWrite_inv : Res.Inv (execMasterWrite s) := by
  unfold execMasterWrite
  split
  · split
    · exact h.masterWritten
    · exact h
  · trivial

theorem execDerivationDelayExpiry_inv : Res.Inv (execDerivationDelayExpiry s) := by
  unfold execDerivationDelayExpiry
  split
  · split
    · unfold State.trigger
      dsimp only
      split
      · exact h
      · split
        · exact h
        · split <;> exact h.tagSet
    · exact h
  · trivial

theorem execDerivationStart_inv : Res.Inv (execDerivationStart s) := by
  unfold execDerivationStart
  dsimp only
  split
  · split
    · split
      · exact h.tagSet
      · exact h
    · exact h
  · trivial

theorem execDerivationComplete_inv : Res.Inv (execDerivationComplete s) := by
  unfold execDerivationComplete
  split
  · split
    · unfold State.derive
      dsimp only
      split
      · exact h
      · split
        · split
          · exact h
          · exact h.tagSet
        · split
          · split
            · exact h.poke
            · exact h.poke.tagSet
          · split
            · exact h.poke.pokeN
            · exact h.poke.pokeN.tagSet
    · exact h
  · trivial

theorem execViewRead_inv : Res.Inv (execViewRead s) := by
  unfold execViewRead
  split
  next i b engine _ =>
    split
    next v _ =>
      have hr : State.Inv (s.viewBlock (blockReader v b) i v b engine).1 := h.viewBlock
      dsimp only
      generalize s.viewBlock (blockReader v b) i v b engine = r at hr ⊢
      obtain ⟨r, a⟩ := r
      exact ite_inv hr hr
    next => exact h
  next => trivial

end Sys2Proof.Machine
end

section
/-!
SUPPORT. The canonical form under abaci, atomics, blocks and spilled registers: one lemma for each function of the model, in the model's order.
-/
namespace Sys2Proof.Machine
open Sys2Proof

set_option Elab.async false

variable {s : State} (h : s.Inv)
include h

/-! ### Machine/Abacus.lean -/

theorem State.Inv.modAb : (s.modAb d p f).Inv := h

theorem State.Inv.extPages : (s.extPages k va len).1.Inv := by
  unfold State.extPages
  split
  · exact h
  · exact h.pagesOf

theorem State.Inv.extAll : (s.extAll es).1.Inv := by
  induction es generalizing s with
  | nil => exact h
  | cons e es ih =>
    unfold State.extAll
    extract_lets q
    have hq : State.Inv q.1 := h.extPages
    clear_value q
    split
    · exact .pair (ih hq)
    · exact .pair hq

theorem State.Inv.bankPages : (s.bankPages es out status).1.Inv := by
  unfold State.bankPages
  dsimp only
  split
  · split
    · exact h.extAll
    · split
      · split
        · split
          · exact h.extAll.extPages
          · split <;> exact h.extAll.extPages
        · exact h.extAll.extPages
      · exact h.extAll.extPages
  · exact h.extAll

theorem State.Inv.bankFields : (s.bankFields bar sc at_' w).1.Inv := by
  unfold State.bankFields
  dsimp only
  split
  · exact h
  · split
    · exact h.bankPages
    · exact h.bankPages
    · exact h.bankPages
    · split <;> exact h.bankPages

theorem State.Inv.bankLane : (s.bankLane bar sc a).1.Inv := by
  unfold State.bankLane
  dsimp only
  split
  · exact h
  · split
    · exact h
    · split
      · exact h
      · split
        · split
          · exact h
          · exact h.bankFields
        · exact h
        · exact h

theorem execBcmd_inv : Res.Inv (execBcmd g sc a b s) := by
  refine h.vec fun s h => ?_
  split
  · exact h.adv
  refine State.Inv.onCheck h.barCheck fun s bar h => ?_
  extract_lets lanes q u ts cs trs d v
  have hu : State.Inv u := .foldl_fst h fun _ _ h => h.bankLane
  have hd : State.Inv d.1 := hu.setDirties
  have hv : State.Inv v := .foldl hd fun _ _ h => h.modAb
  clear_value u d v
  split
  · exact hu.sleepOn
  split
  · exact hu.holdMe
  split
  · exact hu.trapHere
  split
  · exact hu.holdString
  split
  · exact hv
  · exact hd.sleepOn
  · exact hd.holdMe

theorem execBwait_inv : Res.Inv (execBwait sc d s) := by
  unfold execBwait
  dsimp only
  split
  · exact h.waitMe
  · split
    · exact h.holdMe
    · exact h.setS.modMe.acquire.commit.adv

theorem State.Inv.enqueueBank : (s.enqueueBank d p).Inv := h.modAb

theorem State.Inv.startReads : (s.startReads c).Inv := by
  unfold State.startReads
  refine .foldl h (fun q x hq => ?_)
  split
  · exact hq
  · exact hq.allocLlc

theorem execBankCommandStart_inv : Res.Inv (execBankCommandStart s) := by
  unfold execBankCommandStart
  dsimp only
  split
  · split
    · split
      · exact h
      · exact h.startReads.modAb
    · exact h
  · trivial

theorem State.Inv.modAny : (s.modAny c uid f).Inv := by
  unfold State.modAny
  dsimp only
  split
  · exact h.modUid.noteSpilled
  · exact h

theorem State.Inv.bankNotify : (s.bankNotify c bad).Inv := h.modAny

theorem State.Inv.putStatus : (s.putStatus c w).1.Inv := by
  unfold State.putStatus
  dsimp only
  split
  · exact h
  · split
    · exact h
    · split
      · exact h
      · split
        · exact h
        · split
          · exact h.homeTake.perform.homeWritten
          · exact h.homeTake
          · split
            · exact h.engSleep.of_fst ‹_›
            · exact h
          · exact h

theorem State.Inv.closeCmd : (s.closeCmd c).Inv := by
  unfold State.closeCmd
  dsimp only
  split
  · split
    · exact h.closeLine.closeBar
    · split
      · exact h.closeLine.closeBar
      · exact h.closeLine.closeBar.engSleep.of_fst ‹_›
  · exact h.closeLine.closeBar

theorem State.Inv.bankClose (e : s.bankClose c ec ac pc' n = some t) : t.Inv := by
  unfold State.bankClose at e
  extract_lets r at e
  have hr : State.Inv r.1 := h.putStatus
  clear_value r
  split at e
  · cases e
  · split at e
    · cases e
    · cases e; exact hr.engArrive.bankNotify

theorem execBankCommandEnqueue_inv : Res.Inv (execBankCommandEnqueue s) := by
  unfold execBankCommandEnqueue
  split
  · split
    · split
      · split
        next e => exact (h.bankClose e).modAb
        next => exact h.closeCmd
      · exact h
    · exact h.enqueueBank
  · trivial

theorem execBankCommandEnd_inv : Res.Inv (execBankCommandEnd s) := by
  unfold execBankCommandEnd
  split
  · split
    · split
      · dsimp only
        split
        next e => exact (h.bankClose e).modAb
        next => exact h.closeCmd
      · exact h
    · exact h
  · trivial

theorem State.Inv.modRun : (s.modRun f).Inv := h.modAb

theorem State.Inv.endRun : (s.endRun acode ecode').Inv := h.modRun

theorem State.Inv.abStep : (s.abStep f).Inv := by
  unfold State.abStep
  split
  · exact h
  · split
    · exact h
    · split
      · exact h.endRun
      · split
        · exact h.endRun
        · split
          · exact h.endRun
          · exact h.modRun

theorem execAhalt_inv : Res.Inv (execAhalt s) := by
  unfold execAhalt
  split
  · split
    · exact h
    · split <;> exact h.endRun
  · exact h

theorem execAli_inv : Res.Inv (execAli d imm s) := by
  unfold execAli
  exact h.abStep

theorem execAlih_inv : Res.Inv (execAlih d imm s) := by
  unfold execAlih
  exact h.abStep

theorem execAadd_inv : Res.Inv (execAadd d a b s) := by
  unfold execAadd
  exact h.abStep

theorem execAaddi_inv : Res.Inv (execAaddi d a imm s) := by
  unfold execAaddi
  exact h.abStep

theorem execAloop_inv : Res.Inv (execAloop a t s) := by
  unfold execAloop
  exact h.abStep

theorem execAbne_inv : Res.Inv (execAbne a b t s) := by
  unfold execAbne
  exact h.abStep

theorem State.Inv.abReadStep : (s.abReadStep reads f).Inv := by
  unfold State.abReadStep
  dsimp only
  split
  · split
    · exact .foldl h.abStep (fun q x hq => hq.dramReq)
    · exact h.abStep
  · exact h.abStep

theorem execAldw_inv : Res.Inv (execAldw inc' d a b s) := by
  unfold execAldw
  exact h.abReadStep

theorem execAdot_inv : Res.Inv (execAdot wf inc' d a b c s) := by
  unfold execAdot
  exact h.abReadStep

theorem execAclr_inv : Res.Inv (execAclr d n s) := by
  unfold execAclr
  exact h.abStep

theorem execAstc_inv : Res.Inv (execAstc sf cl inc' d a n s) := by
  unfold execAstc
  exact h.abStep

theorem State.Inv.emit1 : (s.emit1 r pc j v).Inv := by
  unfold State.emit1
  dsimp only
  split
  · exact h
  · split
    · split
      · exact h.modRun
      · exact h.rodHome.modRun
    · exact h.modRun

theorem execAemit_inv : Res.Inv (execAemit inc' a b c s) := by
  unfold execAemit
  dsimp only
  split
  · exact h
  · split
    · exact h
    · split
      · exact .abStep (.foldl h (fun q x hq => hq.emit1))
      · exact h.abStep

theorem execAfadd_inv : Res.Inv (execAfadd d a b s) := by
  unfold execAfadd
  exact h.abStep

theorem execAfmul_inv : Res.Inv (execAfmul d a b s) := by
  unfold execAfmul
  exact h.abStep

theorem execAldc_inv : Res.Inv (execAldc d a s) := by
  unfold execAldc
  exact h.abStep

theorem execAnop_inv : Res.Inv (execAnop s) := by
  unfold execAnop
  exact h.abStep

theorem execAbacusStepLimit_inv : Res.Inv (execAbacusStepLimit s) := by
  unfold execAbacusStepLimit
  split
  · split
    · split
      · exact h.modAb
      · exact h
    · exact h
  · trivial

/-! ### Machine/Atomic.lean -/

theorem State.Inv.amoLine : (s.amoLine sc a line).1.Inv := by
  unfold State.amoLine
  dsimp only
  split
  · exact h
  · split
    · exact h.closeLine
    · split
      · split
        · exact h.homeTake.homeWritten
        · exact h.homeTake
      · exact h.ownLine

theorem State.Inv.chkAmo : (s.chkAmo sc va n).1.Inv := by
  unfold State.chkAmo
  dsimp only
  split
  · split
    · exact h.chkWrite
    · split
      · exact h.chkWrite.amoLine.insertLow
      · exact h.chkWrite.amoLine
      · exact h.chkWrite.amoLine
      · exact h.chkWrite.amoLine
  · exact h.chkWrite

theorem State.Inv.amoAt : (s.amoAt op t a b c).1.Inv := by
  unfold State.amoAt
  dsimp only
  split
  · exact h.regLoad.regStoreEv
  · exact h.perform

theorem State.Inv.amoScr : (s.amoScr op t p b c).1.Inv := h.putBytes

theorem State.Inv.amoLanes (hf : ∀ t y1 y2, t.Inv → (f t y1 y2).1.Inv) : (s.amoLanes xs f).1.Inv := by
  unfold State.amoLanes
  exact .foldl_fst h (fun _ x hq => hf _ _ _ hq)

theorem State.Inv.amoEnd : (s.amoEnd t ret d olds).Inv := by
  unfold State.amoEnd
  refine .adv ?_
  refine .commit ?_
  refine .remoteDone ?_
  split
  · exact h.putV.newOp
  · exact h.newOp

theorem execAmo_inv : Res.Inv (execAmo g op t sc rt sp' d a b c s) := by
  unfold execAmo
  refine h.vec (fun q hq => ?_)
  dsimp only
  split
  · exact hq.adv
  · split
    · split
      · exact hq.holdMe
      · split
        · split
          · exact hq.trapHere
          · exact (hq.amoLanes (fun q1 _ _ hq1 => hq1.amoScr)).amoEnd
        · refine (hq.chkLanes (fun q1 _ hq1 => hq1.chkAmo)).settled (fun q1 hq1 => ?_)
          split
          · exact hq1.remoteDone.trapHere
          · exact hq1.performingAs (fun q2 hq2 => (hq2.amoLanes (fun q3 _ _ hq3 => hq3.amoAt)).amoEnd )
    · split
      · exact hq.holdMe
      · split
        · split
          · exact hq.trapHere
          · exact (hq.amoLanes (fun q1 _ _ hq1 => hq1.amoScr)).amoEnd
        · refine (hq.chkLanes (fun q1 _ hq1 => hq1.chkAmo)).settled (fun q1 hq1 => ?_)
          split
          · exact hq1.remoteDone.trapHere
          · exact hq1.performingAs (fun q2 hq2 => (hq2.amoLanes (fun q3 _ _ hq3 => hq3.amoAt)).amoEnd )

theorem State.Inv.chkRacc : (s.chkRacc t sc va).1.Inv := by
  unfold State.chkRacc
  dsimp only
  split
  · split
    · exact h.chkWrite
    · split
      · exact h.chkWrite
      · split
        · exact h.chkWrite
        · split
          · split
            · exact h.chkWrite
            · split
              · split
                · exact h.chkWrite.cmRegister ‹_›
                · exact h.chkWrite
              · exact h.chkWrite
          · split
            · exact h.chkWrite
            · split
              · split
                · exact h.chkWrite.cmRegister ‹_›
                · exact h.chkWrite
              · exact h.chkWrite
  · exact h.chkWrite

theorem execRacc_inv : Res.Inv (execRacc g t sc a b s) := by
  unfold execRacc
  refine h.vec (fun q hq => ?_)
  dsimp only
  split
  · exact hq.adv
  · split
    · exact hq.holdMe
    · refine (hq.chkLanes (fun q1 _ hq1 => hq1.chkRacc)).settled (fun q1 hq1 => ?_)
      split
      · exact hq1.remoteDone.trapHere
      · refine hq1.performing (fun q2 hq2 => ?_)
        refine .adv ?_
        refine .commit ?_
        refine .remoteDone ?_
        refine .newOp ?_
        refine hq2.foldl (fun q3 x hq3 => ?_)
        split
        · exact hq3.rodAddAt
        · exact hq3

/-! ### Machine/Blocks.lean -/

theorem State.Inv.remoteFetch : (s.remoteFetch va loc sc).1.Inv := by
  unfold State.remoteFetch
  split
  · split <;> exact h
  · exact h

theorem State.Inv.fetch64 : (s.fetch64 w va).1.Inv := by
  unfold State.fetch64
  dsimp only
  split
  · split
    · exact h.checkRead.regLoad
    · split
      · exact h.checkRead
      · split
        · exact h.checkRead.remoteFetch
        · exact h.checkRead
  · exact h.checkRead
  · exact h.checkRead
  · exact h.checkRead

theorem State.Inv.ownArray : (s.ownArray c k).Inv := h.modCore

theorem State.Inv.releaseArray : (s.releaseArray c k involuntary).Inv := by
  unfold State.releaseArray
  dsimp only
  split
  · split
    · exact h.modCore.modStr
    · exact h.modCore
  · exact h

theorem State.Inv.claimArray : (s.claimArray).1.Inv := by
  unfold State.claimArray
  dsimp only
  split
  · exact h
  · split
    · split
      · exact h.modCore.ownArray
      · exact h.modCore.waitMe
    · split
      · exact h.modCore.ownArray
      · exact h.modCore.waitMe

theorem State.Inv.hintWord : (s.hintWord va).1.Inv := by
  unfold State.hintWord
  dsimp only
  split
  · exact h
  · split
    · split
      · exact h
      · split
        · exact h.check.readLines
        · exact h
    · exact h

theorem State.Inv.hintLines : (s.hintLines vas).Inv := by
  induction vas generalizing s with
  | nil => exact h
  | cons va vas ih =>
    unfold State.hintLines
    split
    next e => exact ih (h.hintWord.of_fst e)
    next e => exact h.hintWord.of_fst e

theorem State.Inv.hintForward : (s.hintForward n pc w).Inv := by
  induction n generalizing s pc w with
  | zero => exact h.hintLines
  | succ n ih =>
    unfold State.hintForward
    dsimp only
    split
    next t g e =>
      have ht : State.Inv t := h.hintWord.of_fst e
      exact ite_inv (ih ht) ht
    next e => exact h.hintWord.of_fst e

theorem State.Inv.hint : (s.hint pc h').Inv := by
  unfold State.hint
  split
  · exact h
  · split
    · exact h.hintLines
    · exact h.hintForward

theorem State.Inv.enterBlock : (s.enterBlock h').Inv := by
  unfold State.enterBlock
  dsimp only
  split
  · split
    · refine .hint ?_
      refine .modSp ?_
      split
      · exact h.claimArray.modMe.modMe
      · exact h.claimArray.modMe
    · exact h.claimArray
  · refine .hint ?_
    refine .modSp ?_
    split
    · split
      · exact h.releaseArray.modMe.modMe
      · exact h.releaseArray.modMe
    · split
      · exact h.modMe.modMe
      · exact h.modMe

theorem State.Inv.blockEntry : (s.blockEntry).Inv := by
  unfold State.blockEntry
  dsimp only
  split
  · split
    · refine .trapAll ?_
      split
      · exact h.modSp.modMe.fetch64.modMe
      · exact h.modSp.modMe.fetch64
    · refine .enterBlock ?_
      split
      · exact h.modSp.modMe.fetch64.modMe
      · exact h.modSp.modMe.fetch64
  · exact h.modSp.modMe.fetch64.trapAll
  · exact h.modSp.modMe.fetch64.sleepOn
  · exact h.modSp.modMe.fetch64.holdMe

theorem State.Inv.readHeader : (s.readHeader).1.Inv := by
  unfold State.readHeader
  refine ite_fst_inv (.pair h) ?_
  extract_lets blk r
  have hr : State.Inv r.1 := h.fetch64
  clear_value r
  split
  · exact .pair hr.modSp
  · exact .pair hr.trapAll
  · exact .pair hr.sleepOn
  · exact .pair hr.holdMe

/-! ### Machine/Spill.lean -/

theorem State.Inv.modLaunch : (s.modLaunch i f).Inv := h

theorem State.Inv.putAll : (s.putAll w va bs).1.Inv := h.land

theorem State.Inv.putParts : (s.putParts w base ps).1.Inv := by
  unfold State.putParts
  exact .foldl_fst h (fun _ x hq => hq.putAll)

theorem State.Inv.getAll : (s.getAll w va n).1.Inv := h.take

theorem State.Inv.canStore : (s.canStore w va n).1.Inv := by
  unfold State.canStore
  exact .foldl_fst h (fun _ x hq => hq.check)

theorem State.Inv.arriveCompl : (s.arriveCompl l code).1.Inv := by
  unfold State.arriveCompl
  dsimp only
  split
  · split
    · exact h.barCheck.engArrive
    · exact h.barCheck.closeBar
  · exact h.barCheck.logErr
  · exact h.barCheck

theorem State.Inv.closeLaunch : (s.closeLaunch l).1.Inv := by
  unfold State.closeLaunch
  extract_lets n rpt c r st u a
  have hc : State.Inv c.1 := h.canStore
  have hr : State.Inv r.1 := by
    simp only [r]
    split
    · exact h
    split
    · exact h
    split
    · exact hc
    · exact hc.putAll
  have ha : State.Inv a.1 := hr.putAll.arriveCompl
  clear_value r u a
  split
  · exact h.waited
  split
  · exact h.waited
  split
  · exact ha.raiseIrq
  · exact h.waited

theorem State.Inv.launchEnd : (s.launchEnd i).Inv := by
  unfold State.launchEnd
  dsimp only
  split
  · exact h.closeLaunch.modLaunch
  · exact h.closeLaunch

theorem State.Inv.liveDown : (s.liveDown i).Inv := by
  unfold State.liveDown
  dsimp only
  split
  · exact h.modLaunch.launchEnd
  · exact h.modLaunch

theorem State.Inv.liveUp : (s.liveUp i).Inv := h.modLaunch

theorem State.Inv.modQueue : (s.modQueue q f).Inv := h

theorem State.Inv.ringPut : (s.ringPut q j bs).Inv := by
  unfold State.ringPut
  dsimp only
  split
  · exact h
  · split
    · exact h
    · refine .homeWritten ?_
      refine .perform ?_
      refine .unpoison ?_
      split
      · exact h.homeTake
      · exact h

theorem State.Inv.pushQueue : (s.pushQueue q e).Inv := h.ringPut.modQueue

theorem State.Inv.readRing : (s.readRing q n).Inv := by
  unfold State.readRing
  refine .foldl h (fun q1 x hq => ?_)
  split
  · exact hq.allocLlc
  · exact hq

theorem State.Inv.popQueue : (s.popQueue q).Inv := h.readRing

theorem State.Inv.keepQueue : (s.keepQueue q es).Inv := by
  unfold State.keepQueue
  exact .foldl h.readRing.modQueue (fun _ x hq => hq.ringPut)

theorem State.Inv.modQueues : (s.modQueues ctx f).Inv := by
  unfold State.modQueues
  refine .foldl h (fun q x hq => ?_)
  split
  · exact hq.keepQueue
  · exact hq

theorem State.Inv.zeroGran : (s.zeroGran c gm).Inv := ⟨h.1, Memory.filter_wf _ _ h.2⟩

theorem State.Inv.allocPart : (s.allocPart c ctx n keeps).Inv := by
  unfold State.allocPart
  split
  · exact h
  · exact .keep h.zeroGran

theorem State.Inv.assignCluster : (s.assignCluster c ctx).Inv := by
  unfold State.assignCluster
  split
  · exact h
  · split
    · exact h
    · split
      · exact h
      · split <;> exact h

theorem State.Inv.poolFor : (s.poolFor c k).1.Inv := by
  unfold State.poolFor
  dsimp only
  split
  · exact h
  · exact h
  · split
    · exact h.modLaunch.modStr
    · exact h

theorem State.Inv.spillArea : (s.spillArea c k).1.Inv := by
  unfold State.spillArea
  dsimp only
  split
  · exact h
  · split
    · exact h.poolFor.modStr
    · exact h.poolFor

theorem State.Inv.spillStr (e : s.spillStr c k woken = some t) : t.Inv := by
  unfold State.spillStr at e
  extract_lets r t' at e
  have hr : State.Inv r.1 := h.poolFor
  clear_value r t'
  split at e
  · extract_lets base q u v at e
    have hq : State.Inv q.1 := hr.putParts
    clear_value q
    have hu : State.Inv u := hq.releaseArray
    clear_value u
    split at e
    · cases e; exact h.waited
    · split at e
      · cases e; exact hq.soon
      · cases e; exact hu
  · cases e

theorem State.Inv.freePool : (s.freePool t).Inv := by
  unfold State.freePool
  split
  · exact h.modLaunch
  · exact h

theorem State.Inv.restoreStr : (s.restoreStr c k p).Inv := by
  unfold State.restoreStr
  dsimp only
  split
  · split
    · exact h.waited
    · split
      · exact h.getAll.soon
      · split
        · split
          · exact h.waited
          · split
            · exact h.getAll.putParts.soon
            · refine .modStr ?_
              split
              · exact h.getAll.putParts.modCore
              · exact h.getAll.putParts.modCore.freePool
        · split
          · exact h.waited
          · split
            · exact h.getAll.soon
            · refine .modStr ?_
              split
              · exact h.getAll.modCore
              · exact h.getAll.modCore.freePool
  · exact h.modCore.modStr

end Sys2Proof.Machine
end

section
/-!
SUPPORT. The canonical form under collectives, the convoy, system instructions and tasks: one lemma for each function of the model, in the model's order.
-/
namespace Sys2Proof.Machine
open Sys2Proof

set_option Elab.async false

variable {s : State} (h : s.Inv)
include h

/-! ### Machine/Collective.lean -/

theorem State.Inv.collIssue : (s.collIssue sum sc va).Inv := by
  unfold State.collIssue
  refine h.chkLoad.oneAccess fun s h => ?_
  extract_lets r t bs w areaRemote b
  have ht : State.Inv t := h.readLanes.remoteDone
  have hb : State.Inv b.1 := ht.barCheck
  clear_value r t areaRemote b
  split
  · exact ht.trapAll
  · refine hb.onCheck fun s bar h => ?_
    extract_lets go
    have hgo {u : State} (hu : u.Inv) : State.Inv (go u) := hu.releasing fun v hv => .adv (.commit (.keep hv))
    clear_value go
    split
    · split
      · exact hgo (h.engRemote.of_fst ‹_›)
      · exact (h.engRemote.of_fst ‹_›).trapAll
      · exact (h.engRemote.of_fst ‹_›).holdMe
    · exact hgo h

theorem execXscale_inv : Res.Inv (execXscale sc a s) := by
  unfold execXscale
  exact h.collIssue

theorem execXsum_inv : Res.Inv (execXsum sc a s) := by
  unfold execXsum
  exact h.collIssue

theorem State.Inv.modColl : (s.modColl k f).Inv := h

theorem State.Inv.areaGet : (s.areaGet c off n).1.Inv := h.getAll

theorem State.Inv.areaPut : (s.areaPut c off bs).1.Inv := h.putAll

theorem State.Inv.areaArrive : (s.areaArrive c off).1.Inv := by
  unfold State.areaArrive
  extract_lets r
  have hr : State.Inv r.1 := h.barCheck
  clear_value r
  split
  · exact ite_fst_inv (.pair hr.engArrive) (.pair hr.closeBar)
  · exact .pair hr
  · exact .pair hr

theorem State.Inv.collWait (hgo : ∀ t, t.Inv → (go t).Inv) : (s.collWait k c off ph go).Inv := by
  unfold State.collWait
  extract_lets p
  have hp : State.Inv p.1 := h.areaGet
  clear_value p
  split
  · exact h.waited
  split
  · exact hgo _ hp.modColl
  split
  · exact h
  · exact hgo _ hp

theorem State.Inv.collContribute : (s.collContribute k c).Inv := by
  have hfree {t : State} (ht : t.Inv) (n : Nat) : State.Inv { t with free := n } := .keep ht
  unfold State.collContribute
  extract_lets w g i e hw mism own ok st su u a
  have hg : State.Inv g.1 := h.areaGet
  clear_value g
  have hi : State.Inv i.1 := hg.getAll
  clear_value i
  have he : State.Inv e.1 :=
    ite_fst_inv hi.getAll (.pair hi)
  clear_value e
  have hst : State.Inv st.1 :=
    ite_fst_inv he.areaGet (.pair he)
  clear_value st
  have hsu : State.Inv su.1 :=
    ite_fst_inv hst.areaGet (.pair hst)
  clear_value su
  have hu : State.Inv u.1 :=
    ite_fst_inv hsu.areaPut (ite_fst_inv hsu.areaPut (ite_fst_inv hsu.areaPut (.pair hsu)))
  clear_value u
  have ha : State.Inv a.1 := hu.areaArrive
  clear_value a
  refine ite_inv h.waited ?_
  exact ite_inv h.waited ((hfree ha _).modColl)

theorem execXscaleUnitContribute_inv : Res.Inv (execXscaleUnitContribute s) := by
  unfold execXscaleUnitContribute
  split
  · split
    · split
      · exact h.collWait fun _ ht => ht.collContribute
      · exact h
    · exact h
  · trivial

theorem execXsumUnitContribute_inv : Res.Inv (execXsumUnitContribute s) := by
  unfold execXsumUnitContribute
  split
  · split
    · split
      · exact h.collWait fun _ ht => ht.collContribute
      · exact h
    · exact h
  · trivial

theorem State.Inv.collClose : (s.collClose k c).Inv := by
  unfold State.collClose
  dsimp only
  split
  · exact h.waited
  · exact h.putAll.engArrive

theorem execXscaleUnitFinish_inv : Res.Inv (execXscaleUnitFinish s) := by
  unfold execXscaleUnitFinish
  split
  · split
    · split
      · exact h.collWait fun _ ht => ht.collClose
      · exact h
    · exact h
  · trivial

theorem State.Inv.collResults : (s.collResults k c).Inv := by
  unfold State.collResults
  dsimp only
  split
  · exact h.waited
  · split
    · exact h.areaGet.areaGet.areaGet.modColl
    · split
      · exact h.areaGet.areaGet.areaGet.modColl
      · split
        · exact h.areaGet.areaGet.areaGet.modColl
        · split
          · exact h.waited
          · exact h.areaGet.areaGet.areaGet.putAll.putAll.modColl

theorem State.Inv.lastRank : (s.lastRank c).1.Inv := h.areaGet

theorem State.Inv.collDone : (s.collDone k c).Inv := by
  unfold State.collDone
  dsimp only
  split
  · exact h.waited
  · split
    · exact h.lastRank.soon
    · split
      · exact h.waited
      · exact h.lastRank.areaArrive.modColl

theorem execXsumUnitFinish_inv : Res.Inv (execXsumUnitFinish s) := by
  unfold execXsumUnitFinish
  split
  · split
    · split
      · exact h
      · split
        · exact h
        · exact h.collWait fun _ ht => ht.collResults
        · exact h.collDone
        · exact h.collDone
        · exact h.collClose
    · exact h
  · trivial

theorem execCollectiveAreaClear_inv : Res.Inv (execCollectiveAreaClear s) := by
  unfold execCollectiveAreaClear
  split
  · split
    · refine ite_res_inv ?_ h
      extract_lets g hw u d z
      have hg : State.Inv g.1 := h.areaGet
      clear_value g
      have hu : State.Inv u.1 :=
        ite_fst_inv hg.areaPut (.pair hg)
      clear_value u
      have hz : State.Inv z.1 := hu.areaPut
      clear_value z
      exact ite_res_inv h.waited (State.Inv.soon hz.modColl)
    · exact h
  · trivial

/-! ### Machine/Convoy.lean -/

theorem State.Inv.engBar (hk : ∀ t y1, t.Inv → (k t y1).Inv) : (s.engBar given sp' va k).Inv := by
  unfold State.engBar
  dsimp only
  split
  · exact .onCheck h.barCheck (fun q _ hq => hk _ _ hq)
  · exact hk _ _ h

theorem State.Inv.queueXfer : (s.queueXfer c x).Inv := h.modCore

theorem execCpy_inv : Res.Inv (execCpy sc dsp ssp bv bsp d a b c s) := by
  unfold execCpy
  dsimp only
  split
  · exact h.trapAll
  · refine .engBar h (fun q y1 hq => ?_)
    split
    · exact hq.holdMe
    · split
      · exact hq.holdString
      · exact hq.newOp.queueXfer.commit.adv

theorem execChain_inv : Res.Inv (execChain sc bsp a b s) := by
  unfold execChain
  refine .engBar h (fun q y1 hq => ?_)
  dsimp only
  split
  · split
    · exact hq.holdMe
    · exact hq.newOp.modCore.commit.adv
  · split
    · exact hq.holdMe
    · exact hq.holdString

theorem State.Inv.xferRead : (s.xferRead c x).1.Inv := by
  unfold State.xferRead
  dsimp only
  split
  · exact h.take
  · refine .foldl_fst h (fun r x1 hq => ?_)
    split
    · exact hq.take
    · exact hq
  · exact h.take

theorem State.Inv.xferWrite : (s.xferWrite c x t).1.Inv := by
  unfold State.xferWrite
  dsimp only
  split
  · exact h.land
  · exact h.land
  · refine .foldl_fst h (fun r x1 hq => ?_)
    split
    · exact hq.land
    · exact hq

theorem execConvoyTransferStart_inv : Res.Inv (execConvoyTransferStart s) := by
  unfold execConvoyTransferStart
  dsimp only
  split
  · split
    · split
      · split
        · exact h.waited.modCore
        · exact h.xferRead.modCore
      · exact h
    · exact h
  · trivial

theorem execConvoyLanding_inv : Res.Inv (execConvoyLanding s) := by
  unfold execConvoyLanding
  dsimp only
  split
  · split
    · split
      · exact h
      · split
        · exact h.waited
        · split
          · refine .opDone ?_
            split
            · exact h.xferWrite.modCore.engArrive
            · split
              · split
                · exact h.xferWrite.modCore
                · exact h.xferWrite.modCore.barTake.barError
              · split
                · exact h.xferWrite.modCore
                · exact h.xferWrite.modCore.barTake.barError
            · split
              · split
                · exact h.xferWrite.modCore
                · exact h.xferWrite.modCore.modUid
              · split
                · exact h.xferWrite.modCore
                · exact h.xferWrite.modCore.modUid
          · split
            · exact h.xferWrite.modCore.engArrive
            · split
              · split
                · exact h.xferWrite.modCore
                · exact h.xferWrite.modCore.barTake.barError
              · split
                · exact h.xferWrite.modCore
                · exact h.xferWrite.modCore.barTake.barError
            · split
              · split
                · exact h.xferWrite.modCore
                · exact h.xferWrite.modCore.modUid
              · split
                · exact h.xferWrite.modCore
                · exact h.xferWrite.modCore.modUid
    · exact h
  · trivial

theorem execEngineBankStarvation_inv : Res.Inv (execEngineBankStarvation s) := by
  unfold execEngineBankStarvation
  split
  · split
    · exact h.soon
    · exact h
  · trivial

theorem State.Inv.modChain : (s.modChain c k f).Inv := h.modCore

theorem State.Inv.chainTo : (s.chainTo c k p).Inv := h.modChain

theorem execChainCopy_inv : Res.Inv (execChainCopy s) := by
  unfold execChainCopy
  dsimp only
  split
  · split
    · exact h.queueXfer.chainTo
    · exact h
  · trivial

theorem execChainGather_inv : Res.Inv (execChainGather s) := by
  unfold execChainGather
  split
  · split
    · exact h.queueXfer.chainTo
    · exact h
  · trivial

theorem execChainScatter_inv : Res.Inv (execChainScatter s) := by
  unfold execChainScatter
  split
  · split
    · exact h.queueXfer.chainTo
    · exact h
  · trivial

theorem execChainLoop_inv : Res.Inv (execChainLoop s) := by
  unfold execChainLoop
  dsimp only
  split
  · split
    · split <;> exact h.modChain.chainTo
    · exact h
  · trivial

theorem execChainCond_inv : Res.Inv (execChainCond s) := by
  unfold execChainCond
  dsimp only
  split
  · split
    · split
      · exact h.sideLoad.chainTo
      · split
        · refine .chainTo ?_
          split
          · exact h.sideLoad
          · exact h.sideLoad.barTake.barError
        · exact h.waited
      · exact h.waited
    · exact h
  · trivial

theorem State.Inv.chainDead : (s.chainDead c k x).Inv := by
  unfold State.chainDead
  refine .chainTo ?_
  split
  · exact h
  · exact h.barTake.barError

theorem execChainWait_inv : Res.Inv (execChainWait s) := by
  unfold execChainWait
  split
  · split
    · split
      · split
        · split
          · exact h.chainDead
          · exact h.closeBar
        · split
          · exact h.chainTo
          · exact h
      · exact h
    · exact h
  · trivial

theorem execChainArrive_inv : Res.Inv (execChainArrive s) := by
  unfold execChainArrive
  split
  · split
    · split
      · split
        · exact h
        · split
          · split
            · exact h.chainDead
            · exact h.closeBar
          · split
            · exact h
            · exact h.engArrive.chainTo
      · exact h
    · exact h
  · trivial

theorem State.Inv.chainOver : (s.chainOver c k x code).Inv := by
  unfold State.chainOver
  split
  · exact h
  · split
    · exact h.closeBar
    · exact h.engArrive.modCore.opDone

theorem execChainEnd_inv : Res.Inv (execChainEnd s) := by
  unfold execChainEnd
  split
  · split
    · exact h.chainOver
    · exact h
  · trivial

theorem execChainStop_inv : Res.Inv (execChainStop s) := by
  unfold execChainStop
  split
  · split
    · split
      · exact h
      · split
        · exact h.chainOver
        · exact h
    · exact h
  · trivial

/-! ### Machine/System.lean -/

theorem State.Inv.writeTcinv : (s.writeTcinv v).Inv := by
  unfold State.writeTcinv
  dsimp only
  split
  · exact h.modCore.adv
  · split
    · split <;> exact h.modCore.waitMe.soon
    · exact h.modCore.waitMe.soon
    · exact h.modCore.waitMe.soon

theorem State.Inv.sysPut : (s.sysPut n v).Inv := by
  unfold State.sysPut
  dsimp only
  split
  · exact h.modMe.adv
  · exact h.modMe.modSp.adv
  · exact h.modMe.adv
  · exact h.modMe.adv
  · exact h.modMe.adv
  · refine .adv ?_
    split
    · exact h.modCore
    · exact h
  · refine .adv ?_
    split
    · exact h.modCore
    · exact h
  · exact h.modMe.adv
  · exact h.modCore.adv
  · exact h.writeTcinv
  · exact h.modCore.adv
  · exact .adv (.keep h)
  · exact h.modCore.adv
  · exact h.modCore.adv
  · exact h.adv

theorem execRdsr_inv : Res.Inv (execRdsr g n d s) := by
  unfold execRdsr
  dsimp only
  split
  · exact h.trapAll
  · split
    · exact h.vec (fun q hq => hq.putV.adv)
    · exact h.setS.adv

theorem execWrsr_inv : Res.Inv (execWrsr g n a s) := by
  unfold execWrsr
  dsimp only
  split
  · exact h.trapAll
  · exact h.trapAll
  · exact h.adv
  · split
    · exact h.vec (fun q hq => hq.modMe.adv)
    · exact h.sysPut

theorem State.Inv.callUp : (s.callUp g code n).Inv := by
  unfold State.callUp
  dsimp only
  split
  · exact h.adv
  · exact h.commit.trapAt

theorem execSys_inv : Res.Inv (execSys g n s) := by
  unfold execSys
  split
  · exact h.callUp
  · exact h.trapAll
  · exact h.trapAll

theorem execHyp_inv : Res.Inv (execHyp g n s) := by
  unfold execHyp
  split
  · exact h.callUp
  · exact h.trapAll
  · exact h.trapAll

theorem State.Inv.goBack : (s.goBack hyp).Inv := by
  unfold State.goBack
  split
  · exact h.trapAll
  · exact h.modMe

theorem execSret_inv : Res.Inv (execSret s) := by
  unfold execSret
  split
  · exact h.goBack
  · exact h.trapAll
  · exact h.trapAll

theorem execHret_inv : Res.Inv (execHret s) := by
  unfold execHret
  split
  · exact h.goBack
  · exact h.trapAll
  · exact h.trapAll

theorem execWfi_inv : Res.Inv (execWfi s) := by
  unfold execWfi
  split
  · exact h.trapAll
  · split
    · exact h.waitMe
    · exact h.adv

theorem execWfiWake_inv : Res.Inv (execWfiWake s) := by
  unfold execWfiWake
  split
  · split
    · exact h
    · exact h.modStr
  · trivial

theorem State.Inv.deliverIrq : (s.deliverIrq c).Inv := by
  unfold State.deliverIrq
  dsimp only
  split
  · exact h
  · exact h.modStr

theorem execInterruptDelivery_inv : Res.Inv (execInterruptDelivery s) := by
  unfold execInterruptDelivery
  split
  · exact h.deliverIrq
  · trivial

/-! ### Machine/Tasks.lean -/

theorem State.Inv.pushHot : (s.pushHot c i e).Inv := by
  unfold State.pushHot
  dsimp only
  split
  · exact h.modCore
  · split
    · exact h.pushQueue.modCore.modCore
    · exact h

theorem State.Inv.withManifest (hk : ∀ t y1, t.Inv → (k t y1).Inv) : (s.withManifest sp' va k).Inv := by
  unfold State.withManifest
  dsimp only
  split
  · split
    · exact h.trapAll
    · split
      · split
        · exact h.trapAll
        · exact hk _ _ h
      · exact h.trapAll
      · exact h.holdMe
  · exact .oneAccess h.chkLoad (fun q hq => hk _ _ hq.readLanes.remoteDone)

theorem State.Inv.withLaunch (hk : ∀ t y1, t.Inv → (k t y1).Inv) : (s.withLaunch va k).Inv := by
  unfold State.withLaunch
  split
  · exact hk _ _ h
  · exact h.trapAll

theorem State.Inv.spawnPush (hbefore : ∀ t, t.Inv → (before t).Inv) : (s.spawnPush sc i bs before).Inv := by
  unfold State.spawnPush
  dsimp only
  split
  · exact h.waitMe
  · exact .releasing h (fun q hq => .releasing hq (fun q1 hq1 => (hbefore _ hq1).pushHot.liveUp.commit.adv))

theorem execSpawn_inv : Res.Inv (execSpawn sc sp' a s) := by
  unfold execSpawn
  refine h.withLaunch (fun q y1 hq => ?_)
  refine hq.withManifest (fun q1 y11 hq1 => ?_)
  split
  · exact hq1.trapAll
  · exact hq1.spawnPush (fun q2 hq2 => hq2)

theorem State.Inv.initFuture : (s.initFuture d p).Inv := .setS (.barPut (.barPut (.barPut (.keep h))))

theorem execSpawnf_inv : Res.Inv (execSpawnf sc sp' d a b s) := by
  unfold execSpawnf
  refine .withLaunch h (fun q y1 hq => ?_)
  refine .withManifest hq (fun q1 y11 hq1 => ?_)
  split
  · exact hq1.trapAll
  · exact .withBar hq1 (fun q2 _ hq2 => .spawnPush hq2 (fun q3 hq3 => hq3.initFuture))

theorem State.Inv.joined : (s.joined d p).Inv := h.acquire.setS.unreg.waitMe.adv

theorem execJoin_inv : Res.Inv (execJoin _sc' d a b s) := by
  unfold execJoin
  dsimp only
  split
  · split
    · exact h.joined
    · exact h
  · refine .withBar h (fun q y1 hq => ?_)
    split
    · exact hq.waitOn
    · split
      · exact hq.joined
      · exact hq.holdMe

theorem State.Inv.freeSlot : (s.freeSlot c k).Inv := h.freePool.releaseArray.modStr.modCore

theorem State.Inv.endTask : (s.endTask).Inv := by
  unfold State.endTask
  dsimp only
  split
  · exact h.freeSlot
  · exact h.freeSlot.modLaunch.liveDown

theorem execDone_inv : Res.Inv (execDone sc a s) := by
  unfold execDone
  dsimp only
  split
  · exact h.trapAll
  · split
    · exact h.holdMe
    · split
      · exact h.releasing (fun q hq => hq.endTask)
      · exact h.withBar (fun q _ hq => hq.releasing (fun q1 hq1 => .endTask (.keep hq1.barPut.barUpdate)))

theorem execYield_inv : Res.Inv (execYield spill s) := by
  have hg : State.Inv ((s.modMe (fun t => { t with age := s.cyc })).adv 1) := h
  unfold execYield
  show State.Inv (if _ then _ else _)
  split
  · split
    next s' e =>
      have hs := hg.spillStr e
      split
      · exact h.waited.holdMe
      · exact hs
    · exact hg
  · exact hg

theorem State.Inv.queueOut : (s.queueOut d v).Inv := h.setS.commit.adv

theorem execQpush_inv : Res.Inv (execQpush sc d a b s) := by
  unfold execQpush
  refine .withLaunch h (fun q y1 hq => ?_)
  refine .withManifest hq (fun q1 y11 hq1 => ?_)
  split
  · exact hq1.trapAll
  · split
    · exact hq1.queueOut
    · refine .releasing hq1 (fun q2 hq2 => ?_)
      refine .releasing hq2 (fun q3 hq3 => ?_)
      split
      · exact hq3.pushQueue.liveUp.queueOut
      · exact hq3.queueOut

theorem execQpop_inv : Res.Inv (execQpop _sc' d a b s) := by
  unfold execQpop
  dsimp only
  split
  · exact h.trapAll
  · split
    · split
      · exact h.queueOut
      · split
        · exact h.holdMe
        · split
          · exact h.acquire.queueOut
          · exact h.popQueue.putBytes.liveDown.acquire.queueOut
    · exact h.trapAll
    · exact h.holdMe

theorem execStlpause_inv : Res.Inv (execStlpause s) := by
  unfold execStlpause
  exact h.modCore.adv

theorem execStlresume_inv : Res.Inv (execStlresume s) := by
  unfold execStlresume
  exact h.modCore.adv

theorem execPdist_inv : Res.Inv (execPdist d a s) := by
  unfold execPdist
  exact h.setS.adv

theorem State.Inv.takeInto : (s.takeInto c k e).Inv := by
  unfold State.takeInto
  extract_lets src x base u
  have hbase : State.Inv base := h.modStr
  have hu : State.Inv u := State.Inv.soon (State.Inv.keep hbase)
  clear_value u
  exact ite_inv hu.soon hu

end Sys2Proof.Machine
end

section
/-!
SUPPORT. The canonical form under saved, evicted and restored contexts: one lemma for each function of the model, in the model's order.
-/
namespace Sys2Proof.Machine
open Sys2Proof

set_option Elab.async false

variable {s : State} (h : s.Inv)
include h

/-! ### Machine/Evict.lean -/

theorem State.Inv.putPart : (s.putPart c ctx cs ws).Inv := ⟨h.1, cellPut_wf _ _ h.2⟩

theorem State.Inv.forget : (s.forget c uid).Inv := by
  have hr {t : State} (ht : t.Inv) (n : List (Place × CoreId × Nat)) : State.Inv { t with regs := n } := .keep ht
  exact hr h.modCore _

theorem State.Inv.clearSlot : (s.clearSlot c k).Inv := h.releaseArray.forget.modStr

theorem State.Inv.dropShare : (s.dropShare c ctx).Inv := by
  unfold State.dropShare
  exact .modCore (.foldl (.foldl h (fun q x hq => hq.clearSlot)) (fun q x hq => hq.forget))

theorem State.Inv.setChains : (s.setChains c ctx off).Inv := h.modCore

theorem State.Inv.putShare : (s.putShare c ctx h').1.Inv := by
  unfold State.putShare
  dsimp only
  split
  · exact h
  · split
    · exact h.waited
    · split <;> exact h.putParts

theorem State.Inv.evictStr : (s.evictStr c k).Inv := by
  unfold State.evictStr
  extract_lets uid s1 s2 t
  have h1 : State.Inv s1 := h.modCore
  have h2 : State.Inv s2 := h1.releaseArray.assignCluster
  clear_value s1 s2
  split
  · exact h1
  split
  · exact h2.soon
  split
  · extract_lets j q e
    have hq : State.Inv q.1 := h2.putParts
    clear_value q
    split
    · exact h2.waited
    split
    · exact hq.soon
    · exact hq.clearSlot.modCore
  · exact h2

theorem State.Inv.evictShare : (s.evictShare c ctx).Inv := by
  unfold State.evictShare
  dsimp only
  split
  · exact h.setChains.assignCluster
  · split
    · exact .soon (.putShare (.foldl h.setChains.assignCluster (fun q x hq => hq.releaseArray)))
    · exact h.setChains.assignCluster.waited
    · exact .modCore (.dropShare (.putShare (.foldl h.setChains.assignCluster (fun q x hq => hq.releaseArray))))

theorem State.Inv.evictStep : (s.evictStep c).Inv := by
  unfold State.evictStep
  split
  · exact h
  · split
    · exact h.evictShare
    · exact h.evictStr
    · exact h.modCore

theorem State.Inv.demandOn : (s.demandOn c d).Inv := h.modCore

theorem State.Inv.placeStrs : (s.placeStrs c ts).Inv := by
  unfold State.placeStrs
  refine .foldl h (fun q x hq => ?_)
  split
  · exact hq.modStr
  · exact hq

theorem State.Inv.placeChain : (s.placeChain c x).Inv := by
  unfold State.placeChain
  dsimp only
  split
  · exact h.modCore
  · exact h

theorem State.Inv.usePool : (s.usePool t).Inv := by
  unfold State.usePool
  split
  · exact h.modLaunch
  · exact h

theorem State.Inv.placeShare : (s.placeShare c ctx sh).Inv := by
  unfold State.placeShare
  extract_lets t u mine v
  have ht : State.Inv t := by
    simp only [t]
    split
    · exact h.allocPart.putPart
    · exact h
  have hu : State.Inv u := .foldl ht fun _ _ h => h.usePool
  have hv : State.Inv v := hu.modCore
  clear_value v
  refine .placeStrs (.foldl hv fun t k ht => ?_)
  exact ht.placeChain

omit h in
theorem getImage_inv {r : State × Taken} (h : r.1.Inv) : (getImage r at_ n).1.1.Inv := h.getAll

omit h in
theorem readSlot_inv {r : State × Taken} (h : r.1.Inv) : (readSlot r b i old).1.1.Inv := getImage_inv (getImage_inv h)

omit h in
theorem readStrs_inv {r : State × Taken} (h : r.1.Inv) : (readStrs r b sh).1.1.Inv := by
  unfold readStrs
  refine List.foldlRecOn (motive := fun a : (State × Taken) × List (Nat × Str) => a.1.1.Inv) _ _ h fun a ha i _ => ?_
  have hq (n m : Nat) : State.Inv (getImage a.1 n m).1.1 := getImage_inv ha
  refine iteInduction (motive := fun a : (State × Taken) × List (Nat × Str) => a.1.1.Inv) (fun _ => hq _ _) fun _ => ?_
  generalize Option.getD _ _ = old
  exact readSlot_inv (old := old) (hq _ _)

omit h in
theorem readEntries_inv {r : State × Taken} (h : r.1.Inv) : (readEntries r b ctx n).1.1.Inv :=
  List.foldlRecOn (motive := fun a : (State × Taken) × List SEnt => a.1.1.Inv) _ _ h fun _ ha _ _ => getImage_inv ha

theorem State.Inv.readBlock : (s.readBlock b ctx sh).1.Inv := by
  have hg {q : State × Taken} (hq : q.1.Inv) (n m : Nat) : State.Inv (getImage q n m).1.1 := getImage_inv hq
  unfold State.readBlock
  extract_lets r n ts cs es p ts'
  have hr : State.Inv r.1.1 := hg (q := (s, Taken.none)) h _ _
  clear_value r
  have hts : State.Inv ts.1.1 := readStrs_inv hr
  clear_value ts
  have hes : State.Inv es.1.1 := readEntries_inv hts
  clear_value es
  have hp : State.Inv p.1.1 := hg hes _ _
  clear_value p
  have hu {t : State} (ht : t.Inv) (n : Nat) : State.Inv { t with uids := n } := .keep ht
  exact hu hp _

theorem State.Inv.readEvicted : (s.readEvicted c e).1.Inv := by
  have hr (b k : Nat) (old : Str) : State.Inv (readSlot (s, Taken.none) b k old).1.1 := readSlot_inv (r := (s, Taken.none)) h
  unfold State.readEvicted
  split
  · exact h
  · exact h.readBlock
  · split
    · exact .pair (hr _ _ _)
    · exact h

theorem execEvictedShareReturn_inv : Res.Inv (execEvictedShareReturn s) := by
  unfold execEvictedShareReturn
  dsimp only
  split
  · split
    · split
      · exact h.waited
      · split
        · exact h.readEvicted.soon
        · split
          · exact h.readEvicted
          · split
            · refine .soon ?_
              unfold State.placeShare
              refine .placeStrs ?_
              refine .foldl ?_ (fun q x hq => hq.placeChain)
              refine .modCore ?_
              refine .foldl ?_ (fun q x hq => hq.usePool)
              split
              · exact h.readEvicted.modCore.allocPart.putPart
              · exact h.readEvicted.modCore
            · unfold State.placeShare
              refine .placeStrs ?_
              refine .foldl ?_ (fun q x hq => hq.placeChain)
              refine .modCore ?_
              refine .foldl ?_ (fun q x hq => hq.usePool)
              split
              · exact h.readEvicted.modCore.allocPart.putPart
              · exact h.readEvicted.modCore
    · exact h
  · trivial

/-! ### Machine/Contexts.lean -/

theorem State.Inv.ctxDone : (s.ctxDone e err).Inv := h

theorem State.Inv.ctxBusy : (s.ctxBusy e).Inv := h

theorem State.Inv.setCtxState : (s.setCtxState e st).Inv := h

theorem State.Inv.discardCtx : (s.discardCtx ctx).Inv := by
  unfold State.discardCtx
  extract_lets t
  have ht : State.Inv t := .modQueues (.foldl h fun _ _ h => h.dropShare)
  clear_value t
  exact .keep ht

theorem State.Inv.endLaunches : (s.endLaunches ctx).Inv := by
  unfold State.endLaunches
  exact .foldl h (fun q x hq => hq.modLaunch)

theorem State.Inv.endSaved : (s.endSaved ctx).Inv := by
  unfold State.endSaved
  split
  · exact h
  extract_lets r others
  have hr : State.Inv r.1 := by
    refine .foldl_fst h fun t l ht => ?_
    dsimp only
    split <;> exact ht.closeLaunch
  exact .keep hr

theorem State.Inv.endCtx : (s.endCtx ctx).1.Inv := by
  unfold State.endCtx
  dsimp only
  refine .endSaved (.foldl h.discardCtx.endLaunches fun t l ht => ?_)
  exact ht.launchEnd

theorem execCtxEnd_inv : Res.Inv (execCtxEnd s) := by
  have hc {t : State} (ht : t.Inv) (c : Vector (Vector W64 4) 64) : State.Inv { t with ctab := c } := .keep ht
  unfold execCtxEnd
  split
  · refine ite_res_inv h.ctxDone ?_
    extract_lets r
    have hr : State.Inv r.1 := h.endCtx
    clear_value r
    exact ite_inv (State.Inv.ctxDone (hc hr _)) hr.ctxBusy
  · trivial

theorem State.Inv.releaseArrays : (s.releaseArrays ctx).Inv := by
  unfold State.releaseArrays
  exact .foldl h (fun q x hq => .foldl hq (fun q1 _ hq1 => hq1.releaseArray.forget))

theorem State.Inv.report : (s.report r).Inv := h

theorem execContextFault_inv : Res.Inv (execContextFault s) := by
  have hu {t : State} (ht : t.Inv) (c : Vector (Vector W64 4) 64) : State.Inv { t with ctab := c } := .keep ht
  unfold execContextFault
  split
  · split
    · exact hu h.report.releaseArrays.setCtxState _
    · exact h.report.endCtx
  · trivial

theorem State.Inv.saveCores : (s.saveCores ctx cs).1.Inv := by
  induction cs generalizing s with
  | nil => exact h
  | cons c cs ih =>
    unfold State.saveCores
    extract_lets b q t
    have hq : State.Inv q.1 := h.putShare
    have ht : State.Inv t.1 := ih hq
    clear_value t q
    split
    · exact .pair ht
    · exact .pair hq

theorem State.Inv.saveCtx : (s.saveCtx e).Inv := by
  unfold State.saveCtx
  extract_lets ctx cs s1 q
  have hq : State.Inv q.1 := by
    refine .saveCores (.foldl h fun t c ht => .foldl ht.assignCluster fun u k hu => ?_)
    exact hu.releaseArray
  clear_value q
  split
  · exact hq.ctxDone.soon
  extract_lets cl m w ls im u v x y
  have hw : State.Inv w.1 := hq.putAll
  have hu : State.Inv u := .foldl hw fun _ _ h => h.dropShare
  have hv : State.Inv v := .foldl hu fun _ _ h => h.modLaunch
  clear_value w v
  split
  · exact h.waited.ctxBusy
  split
  · exact hw.ctxDone.soon
  · exact .ctxDone (.setCtxState (.keep hv))

theorem execCtxSave_inv : Res.Inv (execCtxSave s) := by
  unfold execCtxSave
  dsimp only
  split
  · split
    · exact h.ctxDone
    · split
      · exact .saveCtx (.foldl h (fun q x hq => hq.setChains))
      · exact .ctxBusy (.foldl h (fun q x hq => hq.setChains))
  · trivial

theorem State.Inv.readLaunch : (s.readLaunch root im bs).1.Inv := by
  unfold State.readLaunch
  dsimp only
  split
  · exact h
  · split
    · exact h.getAll
    · exact h.getAll.getAll

theorem State.Inv.readLaunches : (s.readLaunches e im).1.Inv := by
  unfold State.readLaunches
  refine .foldl_fst h.getAll (fun r x hq => ?_)
  dsimp only
  split
  · exact hq
  · exact hq.readLaunch

theorem State.Inv.acceptRestore : (s.acceptRestore e im ls cl).Inv := by
  unfold State.acceptRestore
  refine .ctxDone ?_
  refine .setCtxState ?_
  refine .modQueues ?_
  show State.Inv (List.foldl (fun s_1 l => s_1.modLaunch (slotIn (s.newSlots ls) l.1) fun x => l.2) s ls)
  exact .foldl h (fun q x hq => hq.modLaunch)

theorem execCtxRestore_inv : Res.Inv (execCtxRestore s) := by
  unfold execCtxRestore
  dsimp only
  split
  · split
    · exact h.ctxDone
    · split
      · exact h.waited.ctxBusy
      · split
        · exact h.getAll.ctxDone
        · split
          · exact h.getAll.ctxDone
          · split
            · exact h.waited.ctxBusy
            · split
              · exact h.getAll.readLaunches.ctxDone
              · split
                · exact h.getAll.readLaunches.ctxDone
                · exact h.getAll.readLaunches.acceptRestore
  · trivial

theorem State.Inv.findBars : (s.findBars sh).1.Inv := by
  unfold State.findBars
  extract_lets r
  refine State.Inv.foldl_fst (f := _) (r := (s, Taken.none, [])) h fun a x ha => ?_
  have hq : State.Inv (a.1.barCheck (whoOf 0 x.who.ptroot x.who.mode) false x.barVa).1 := ha.barCheck
  dsimp only
  split
  · exact ha
  split <;> exact hq

theorem State.Inv.readCluster : (s.readCluster e im j).1.Inv := by
  unfold State.readCluster
  generalize s.imageAt e = at_
  refine List.foldlRecOn (motive := fun a : State × Taken × List SavedCore => a.1.Inv) _ _ h fun a ha k _ => ?_
  exact .pair ha.readBlock.findBars

theorem State.Inv.placeCluster : (s.placeCluster e im j xs dst).Inv := by
  have himap {t : State} (ht : t.Inv) (m : List (BitVec 12 × Nat × Fin 64)) (i : List Image) :
      State.Inv { t with imap := m, images := i } := .keep ht
  unfold State.placeCluster
  extract_lets t left u v
  have ht : State.Inv t := .foldl h fun _ _ h => h.placeShare
  clear_value t
  have hu : State.Inv u := himap ht _ _
  clear_value u
  have hv : State.Inv v := ite_inv hu.setCtxState hu
  clear_value v
  exact ite_inv hv.soon hv

theorem State.Inv.demandCluster : (s.demandCluster j ctx xs).Inv := by
  unfold State.demandCluster
  exact .foldl h (fun q x hq => hq.demandOn)

theorem execCtxRestoreCluster_inv : Res.Inv (execCtxRestoreCluster s) := by
  have hu {t : State} (ht : t.Inv) (n : Nat) : State.Inv { t with free := n } := .keep ht
  unfold execCtxRestoreCluster
  split
  · split
    · exact h
    refine ite_res_inv h ?_
    extract_lets s1 r t xs ok
    have h1 : State.Inv s1 := .foldl (f := State.evictStep) h fun _ _ h => h.evictStep
    clear_value s1
    have hr : State.Inv r.1 := h1.readCluster
    clear_value r
    have ht : State.Inv t := hr
    clear_value t
    refine ite_res_inv h1.waited ?_
    refine ite_res_inv hr.soon ?_
    split
    · exact State.Inv.placeCluster (hu ht _)
    refine ite_res_inv ht ?_
    split
    · exact ht.demandCluster
    · exact ht
  · trivial

theorem execCtxPreempt_inv : Res.Inv (execCtxPreempt s) := by
  unfold execCtxPreempt
  dsimp only
  split
  · split
    · split
      · exact .ctxBusy (.foldl h (fun q x hq => hq.evictStep))
      · exact .ctxDone (.foldl h (fun q x hq => hq.evictStep))
    · split
      · exact h.ctxDone
      · split
        · exact h.ctxDone
        · split
          · exact h.ctxDone
          · split
            · exact .ctxBusy (.foldl (.foldl h (fun q x hq => hq.demandOn)) (fun q x hq => hq.evictStep))
            · exact .ctxDone (.foldl (.foldl h (fun q x hq => hq.demandOn)) (fun q x hq => hq.evictStep))
  · trivial

end Sys2Proof.Machine
end

section
/-!
SUPPORT. The canonical form under control flow, floating point and the homes' events: one lemma for each function of the model, in the model's order.
-/
namespace Sys2Proof.Machine
open Sys2Proof

set_option Elab.async false

variable {s : State} (h : s.Inv)
include h

/-! ### Machine/Control.lean -/

theorem State.Inv.jump : (s.jump t).Inv := h.modSp

theorem State.Inv.branchIf : Res.Inv (s.branchIf c imm) := by
  unfold State.branchIf
  split
  · exact h.jump
  · exact h.adv

theorem State.Inv.jumpReg (hk : ∀ t, t.Inv → (k t).Inv) : Res.Inv (s.jumpReg t k) := by
  unfold State.jumpReg
  split
  · exact h.trapAll
  · split
    · exact h.trapAll
    · exact (hk _ h).jump

theorem execBr_inv : Res.Inv (execBr imm s) := by
  unfold execBr
  exact h.jump

theorem execBnz_inv : Res.Inv (execBnz a imm s) := by
  unfold execBnz
  exact h.branchIf

theorem execBz_inv : Res.Inv (execBz a imm s) := by
  unfold execBz
  exact h.branchIf

theorem execBany_inv : Res.Inv (execBany a imm s) := by
  unfold execBany
  exact h.branchIf

theorem execBall_inv : Res.Inv (execBall a imm s) := by
  unfold execBall
  exact h.branchIf

theorem execBnone_inv : Res.Inv (execBnone a imm s) := by
  unfold execBnone
  exact h.branchIf

theorem State.Inv.checkReconv : (s.checkReconv).1.Inv := by
  unfold State.checkReconv
  dsimp only
  split
  · exact h
  · split
    · split <;> exact h.fetch64
    · exact h.fetch64
    · exact h.fetch64
    · exact h.fetch64

theorem State.Inv.divide : (s.divide j t n target').Inv := h.modMe

theorem State.Inv.pushStack : (s.pushStack t n target').Inv := h.modSp

theorem execBdiv_inv : Res.Inv (execBdiv a imm s) := by
  unfold execBdiv
  dsimp only
  split
  · exact h.jump
  · split
    · exact h.adv
    · split
      · split
        · exact h.checkReconv.divide
        · split
          · exact h.checkReconv.trapAll
          · split
            · exact h.checkReconv.trapAll
            · exact h.checkReconv.pushStack
      · exact h.checkReconv.trapAll
      · exact h.checkReconv.sleepOn
      · exact h.checkReconv.holdMe

theorem execCall_inv : Res.Inv (execCall d imm s) := by
  unfold execCall
  exact h.setS.jump

theorem execRet_inv : Res.Inv (execRet a s) := by
  unfold execRet
  exact h.jumpReg (fun q hq => hq)

theorem execCallr_inv : Res.Inv (execCallr d a s) := by
  unfold execCallr
  exact h.jumpReg (fun q hq => hq.setS)

theorem execJmpr_inv : Res.Inv (execJmpr a s) := by
  unfold execJmpr
  exact h.jumpReg (fun q hq => hq)

theorem execSpmask_inv : Res.Inv (execSpmask d s) := by
  unfold execSpmask
  exact h.setK.adv

/-! ### Machine/Convert.lean -/

theorem State.Inv.cvt : (s.cvt g dt st m part d a f).Inv := h.fElems

theorem execFcvtFf_inv : Res.Inv (execFcvtFf g dt st m sat part d a s) := by
  unfold execFcvtFf
  exact h.vec (fun q hq => hq.cvt)

theorem execFcvtFi_inv : Res.Inv (execFcvtFi g dt st m sat part d a s) := by
  unfold execFcvtFi
  exact h.vec (fun q hq => hq.cvt)

theorem execFcvtIf_inv : Res.Inv (execFcvtIf g dt st m sat part d a s) := by
  unfold execFcvtIf
  exact h.vec (fun q hq => hq.cvt)

theorem execFpack_inv : Res.Inv (execFpack g dt m sat d a b s) := by
  unfold execFpack
  exact h.vec (fun q hq => hq.fElems)

theorem execFunpack_inv : Res.Inv (execFunpack g st part d a s) := by
  unfold execFunpack
  exact h.vec (fun q hq => hq.put1.put1.stage.adv)

theorem execQblk_inv : Res.Inv (execQblk g t m d a s) := by
  unfold execQblk
  refine h.vec (fun q hq => ?_)
  dsimp only
  split
  · exact hq.adv
  · exact hq.drawn.put1.stage.adv

theorem execDqblk_inv : Res.Inv (execDqblk g t d a s) := by
  unfold execDqblk
  exact h.vec (fun q hq => hq.put1.stage.adv)

/-! ### Machine/Float.lean -/

theorem execFadd_inv : Res.Inv (execFadd g t m d a b s) := by
  unfold execFadd
  exact h.vec (fun q hq => hq.fBin)

theorem execFsub_inv : Res.Inv (execFsub g t m d a b s) := by
  unfold execFsub
  exact h.vec (fun q hq => hq.fBin)

theorem execFmul_inv : Res.Inv (execFmul g t m d a b s) := by
  unfold execFmul
  exact h.vec (fun q hq => hq.fBin)

theorem execFdiv_inv : Res.Inv (execFdiv g t m d a b s) := by
  unfold execFdiv
  exact h.vec (fun q hq => hq.fBin)

theorem execFmin_inv : Res.Inv (execFmin g t d a b s) := by
  unfold execFmin
  exact h.vec (fun q hq => hq.fBin)

theorem execFmax_inv : Res.Inv (execFmax g t d a b s) := by
  unfold execFmax
  exact h.vec (fun q hq => hq.fBin)

theorem execFsqrt_inv : Res.Inv (execFsqrt g t m d a s) := by
  unfold execFsqrt
  exact h.vec (fun q hq => hq.fUn)

theorem execFabs_inv : Res.Inv (execFabs g t d a s) := by
  unfold execFabs
  exact h.vec (fun q hq => hq.fUn)

theorem execFneg_inv : Res.Inv (execFneg g t d a s) := by
  unfold execFneg
  exact h.vec (fun q hq => hq.fUn)

theorem execFfma_inv : Res.Inv (execFfma g t m d a b c s) := by
  unfold execFfma
  exact h.vec (fun q hq => hq.fTern)

theorem execFfms_inv : Res.Inv (execFfms g t m d a b c s) := by
  unfold execFfms
  exact h.vec (fun q hq => hq.fTern)

theorem execFfnma_inv : Res.Inv (execFfnma g t m d a b c s) := by
  unfold execFfnma
  exact h.vec (fun q hq => hq.fTern)

theorem execFfnms_inv : Res.Inv (execFfnms g t m d a b c s) := by
  unfold execFfnms
  exact h.vec (fun q hq => hq.fTern)

theorem execFrcp_inv : Res.Inv (execFrcp g t d a s) := by
  unfold execFrcp
  exact h.vec (fun q hq => hq.fUn)

theorem execFrsq_inv : Res.Inv (execFrsq g t d a s) := by
  unfold execFrsq
  exact h.vec (fun q hq => hq.fUn)

theorem execFexp2_inv : Res.Inv (execFexp2 g t d a s) := by
  unfold execFexp2
  exact h.vec (fun q hq => hq.fUn)

theorem execFlog2_inv : Res.Inv (execFlog2 g t d a s) := by
  unfold execFlog2
  exact h.vec (fun q hq => hq.fUn)

theorem execFcmp_inv : Res.Inv (execFcmp g cc d a b s) := by
  unfold execFcmp
  exact h.vec (fun q hq => hq.vRel.stage.adv)

theorem execFclass_inv : Res.Inv (execFclass g t d a s) := by
  unfold execFclass
  exact h.vec (fun q hq => hq.fUn)

/-! ### Machine/Homes.lean -/

theorem State.Inv.opsDone : (s.opsDone ps).Inv := by
  unfold State.opsDone
  refine .foldl h (fun q x hq => ?_)
  split
  · exact hq
  · exact hq.opDone

theorem State.Inv.performPend : (s.performPend d line).Inv := by
  unfold State.performPend
  dsimp only
  split
  · exact .opsDone (.keep h)
  · split
    · exact .opsDone (.foldl (.perform (.unpoison (.keep h.ownLine))) (fun q x hq => hq.perform))
    · exact .opsDone (.keep h.ownLine)
    · exact h.ownLine.homeWake
    · exact h.ownLine

theorem execL2WaitingStorePerform_inv : Res.Inv (execL2WaitingStorePerform s) := by
  unfold execL2WaitingStorePerform
  split
  · split
    · split
      · exact h.performPend
      · exact h
    · exact h
  · trivial

theorem execL1LeaseExpiry_inv : Res.Inv (execL1LeaseExpiry s) := by
  unfold execL1LeaseExpiry
  split
  · exact h
  · trivial

theorem execL2VictimEvict_inv : Res.Inv (execL2VictimEvict s) := by
  unfold execL2VictimEvict
  dsimp only
  split
  · split
    · split
      · split
        · exact h.l2Drop
        · exact h.l2Drop.soon
      · exact h
    · split
      · split
        · exact h.soon
        · exact h
      · exact h
  · trivial

theorem State.Inv.serveHere : (s.serveHere line a).Inv := h.allocLlc.viewLocs

theorem State.Inv.readHere : (s.readHere line a).Inv := by
  unfold State.readHere
  split
  · exact h.combine
  split
  · exact h.serveHere
  extract_lets q
  have hq {t : State} (e : q = some t) : State.Inv t := by
    simp only [q] at e
    split at e
    · cases e; exact h
    · exact h.l2Room e
  clear_value q
  split
  · exact h
  next t =>
    have ht := (hq rfl).homeRead (line := line) (a := a)
    dsimp only
    split
    · exact ht.homeWake
    · exact ht

theorem execHomeReadRequest_inv : Res.Inv (execHomeReadRequest s) := by
  unfold execHomeReadRequest
  split
  · split
    · exact h.logErr
    · exact h.readHere
  · trivial

theorem State.Inv.ownHere : (s.ownHere line a full').Inv := by
  unfold State.ownHere
  split
  · exact h
  extract_lets room
  have hr {t : State} (e : room = some t) : State.Inv t := by
    simp only [room] at e
    split at e
    · cases e; exact h
    · exact h.l2Room e
  clear_value room
  split
  · exact h
  next t =>
    have ht := (hr rfl).homeOwn (line := line) (a := a) (full' := full'.length == 128)
    dsimp only
    split
    · split
      · exact ht.pokeN
      · exact ht
    · exact ht.homeWake
    · exact ht

theorem execHomeOwnRequest_inv : Res.Inv (execHomeOwnRequest s) := by
  unfold execHomeOwnRequest
  split
  · split
    · exact h.logErr
    · exact h.ownHere
  · trivial

theorem execHomeWriteback_inv : Res.Inv (execHomeWriteback s) := by
  unfold execHomeWriteback
  dsimp only
  split
  · split
    · exact h.logErr
    · split
      · exact h.poison
      · refine .metaClear ?_
        refine .dirDel ?_
        refine .l2Drop ?_
        split
        · exact h
        · exact h.pokeN.homeWritten
  · trivial

theorem State.Inv.homeAmo : (s.homeAmo op t loc b c).Inv := by
  unfold State.homeAmo
  dsimp only
  split
  · exact h
  · split
    · exact h.closeLine
    · split
      · exact h.homeTake.perform.homeWritten
      · exact h.homeTake.homeWake
      · exact h.homeTake

theorem execHomeAtomic_inv : Res.Inv (execHomeAtomic s) := by
  unfold execHomeAtomic
  split
  · exact h.homeAmo
  · trivial

theorem execDiscover_inv : Res.Inv (execDiscover s) := by
  unfold execDiscover
  dsimp only
  split
  · split
    · split
      · exact h.homeWake
      · exact h.discover
    · exact h
  · trivial

theorem execAgentProbeAnswer_inv : Res.Inv (execAgentProbeAnswer s) := by
  unfold execAgentProbeAnswer
  split
  · split
    · exact h.logErr
    · split
      · split
        · exact h
        · split
          · exact h.evictL2
          · split
            · exact h
            · refine .dirSet ?_
              refine .l2Set ?_
              split
              · exact h.llcTouch
              · exact h
      · exact h
  · trivial

theorem execLinkUp_inv : Res.Inv (execLinkUp s) := by
  unfold execLinkUp
  split
  · exact h
  · trivial

theorem State.Inv.answerTrap : (s.answerTrap c k lanes code va).Inv := by
  unfold State.answerTrap
  dsimp only
  split
  · refine .asSplit ?_ (fun q hq => hq.trapHere)
    split <;> exact h
  · exact h

theorem execLinkWakeTimeout_inv : Res.Inv (execLinkWakeTimeout s) := by
  unfold execLinkWakeTimeout
  split
  · extract_lets hs first t
    have ht : State.Inv t := h
    clear_value t
    split
    · exact h
    · refine State.Inv.foldl ht.logErr fun u x hu => ?_
      split
      · exact hu
      · exact hu.answerTrap
  · trivial

theorem State.Inv.purgeAgent : (s.purgeAgent a).Inv := by
  refine .foldl (.keep h) fun t l ht => ?_
  exact ht.poison

theorem State.Inv.faultDie : (s.faultDie a).Inv := by
  unfold State.faultDie
  exact .foldl h (fun q x hq => hq.soon)

theorem State.Inv.raiseInc : (s.raiseInc a).Inv := h

theorem execAgentDeclaredDead_inv : Res.Inv (execAgentDeclaredDead s) := by
  unfold execAgentDeclaredDead
  dsimp only
  split
  · split
    · exact .faultDie (.purgeAgent (.logErr (.raiseInc (.keep h))))
    · exact h
  · trivial

theorem State.Inv.resetAgent : (s.resetAgent a).Inv := by
  unfold State.resetAgent
  refine .faultDie ?_
  refine .purgeAgent ?_
  show State.Inv (if s.worn a = true then s else s.raiseInc a)
  split
  · exact h
  · exact h.raiseInc

theorem execAgentReset_inv : Res.Inv (execAgentReset s) := by
  unfold execAgentReset
  split
  · exact h.resetAgent
  · trivial

theorem execDirectoryEccError_inv : Res.Inv (execDirectoryEccError s) := by
  unfold execDirectoryEccError
  split
  · extract_lets u m v t r
    have hu : State.Inv u := h.logErr
    have hv : State.Inv v := hu.dirDel
    have ht : State.Inv t := .keep hv
    have hr : State.Inv r.1 := ht.discover
    clear_value u t r
    split
    · exact hu.dirPut
    · show State.Inv (match r.2.2 with | .wait a => _ | _ => r.1)
      split
      · exact ht.homeWake
      · exact hr
  · trivial

theorem State.Inv.countCorrected : (s.countCorrected d).Inv := by
  unfold State.countCorrected
  split
  · exact h
  · exact .logErr (.keep h)

theorem State.Inv.poisonScr : (s.poisonScr c word).Inv := h

theorem execEccError_inv : Res.Inv (execEccError s) := by
  unfold execEccError
  dsimp only
  split
  · split
    · exact h.countCorrected
    · exact h
    · split
      · split
        · exact h.logErr.poison
        · exact h.logErr.evictL2
      · exact h
    · exact h.logErr.poison
    · exact h.logErr.poison
    · exact h.poisonScr
    · split
      · exact h.soon
      · exact h
    · split
      · exact h.modCore.soon
      · exact h
    · split
      · exact h.logErr.poison
      · exact h
  · trivial

theorem State.Inv.killDie : (s.killDie d).Inv := by
  unfold State.killDie
  exact .foldl (.foldl (.opsDone (.keep h)) (fun q x hq => hq.noteSpilled)) (fun q x hq => hq.logErr)

theorem execMemoryDieDead_inv : Res.Inv (execMemoryDieDead s) := by
  unfold execMemoryDieDead
  split
  · split
    · exact h
    · exact h.killDie
  · trivial

theorem State.Inv.servePch : (s.servePch r).Inv := h

theorem execPchRequestServe_inv : Res.Inv (execPchRequestServe s) := by
  unfold execPchRequestServe
  split
  · split
    · exact h.servePch
    · exact h
  · trivial

theorem execPchAgeLimit_inv : Res.Inv (execPchAgeLimit s) := by
  unfold execPchAgeLimit
  split
  · split
    · split
      · exact h
      · exact h.servePch
    · exact h
  · trivial

theorem execBankRefresh_inv : Res.Inv (execBankRefresh s) := by
  unfold execBankRefresh
  split
  · exact h
  · trivial

theorem execRodContribution_inv : Res.Inv (execRodContribution s) := by
  unfold execRodContribution
  split
  · split
    · split
      · exact h
      · split
        · exact h.rodL2
        · exact h.rodHome
    · exact h
  · trivial

theorem execCmRegistration_inv : Res.Inv (execCmRegistration s) := by
  unfold execCmRegistration
  split
  · split
    next q _ =>
      show State.Inv (if _ then s else _)
      split
      · exact h
      · rename_i a line _ _ _ _
        cases e : s.cmRegister a line q.fmt with
        | some t => exact h.cmRegister e
        | none => exact h
    · exact h
  · trivial

theorem execPartialRecallAnswer_inv : Res.Inv (execPartialRecallAnswer s) := by
  unfold execPartialRecallAnswer
  split
  · split
    · exact h.logErr
    · split
      · exact h
      · exact h.foldFrom
  · trivial

theorem execPartialWriteback_inv : Res.Inv (execPartialWriteback s) := by
  unfold execPartialWriteback
  split
  · split
    · exact h.logErr
    · exact h.foldFrom
  · trivial

theorem execBarrierUpdate_inv : Res.Inv (execBarrierUpdate s) := by
  unfold execBarrierUpdate
  split
  · split
    · exact h.engArrive
    · exact h.closeBar
  · trivial

theorem execBarrierPoll_inv : Res.Inv (execBarrierPoll s) := by
  unfold execBarrierPoll
  split
  · exact .foldl (f := State.noteSpilled) (.keep h) fun _ _ h => h.noteSpilled
  · trivial

end Sys2Proof.Machine
end

section
/-!
SUPPORT. The canonical form under the host's port, management, the device's maps and masks: one lemma for each function of the model, in the model's order.
-/
namespace Sys2Proof.Machine
open Sys2Proof

set_option Elab.async false

variable {s : State} (h : s.Inv)
include h

/-! ### Machine/HostPort.lean -/

theorem State.Inv.homePeek : (s.homePeek line).1.Inv := by
  unfold State.homePeek
  refine ite_fst_inv h ?_
  extract_lets r
  have hr : State.Inv r.1 := h.allocLlc.lookup
  clear_value r
  split
  · refine ite_fst_inv (.pair h.homeWake) ?_
    extract_lets t
    have ht : State.Inv t := ite_inv hr.llcTouch hr
    clear_value t
    exact .pair ht.l2Set.dirSet
  · exact .pair hr

theorem State.Inv.portCombine : (s.portCombine fmt loc n).1.Inv := by
  unfold State.portCombine
  extract_lets r
  have hr : State.Inv r.1 := h.combine
  clear_value r
  split
  · exact .pair hr
  · exact .pair hr
  · exact .pair hr.homeWake
  · exact .pair hr

theorem State.Inv.portView : (s.portView wait loc n).1.Inv := by
  have hu {t : State} (ht : t.Inv) (n : List VRead) : State.Inv { t with vreads := n } := .keep ht
  unfold State.portView
  refine ite_fst_inv h ?_
  extract_lets rd r met zero t
  have hr : State.Inv r.1 := .foldl_fst h.allocLlc fun _ _ ha => .pair ha.viewBlock
  clear_value r
  have ht : State.Inv t := hu hr _
  clear_value t
  split
  · exact hr
  · exact ht

theorem State.Inv.portWrite : (s.portWrite loc bs).1.Inv := by
  have hp (n : List Nat) : State.Inv { s with pz := n } := .keep h
  unfold State.portWrite
  extract_lets line r
  have hr : State.Inv r.1 := h.homeTake
  clear_value r line
  refine ite_fst_inv ?_ ?_
  · exact ite_fst_inv (.pair (hp _).metaClear.perform.homeWritten) (.pair h)
  refine ite_fst_inv (.pair h.closeLine) ?_
  split
  · exact .pair hr.perform.homeWritten
  · exact .pair hr
  · exact .pair hr.homeWake
  · exact .pair hr

theorem State.Inv.hostRefuse : (s.hostRefuse pa).Inv := by
  have hg (g : Option (List Byte)) : State.Inv { s with hostGot := g } := .keep h
  exact (hg none).logErr

omit h in
theorem State.Inv.hostAnswer {r : State × PortAns} (h : r.1.Inv) : (State.hostAnswer pa r).Inv := by
  unfold State.hostAnswer
  split
  · exact .keep h
  · exact h.hostRefuse
  · exact .keep h
  · exact h

theorem State.Inv.hostLineRead : (s.hostLineRead loc n).1.Inv := by
  unfold State.hostLineRead
  extract_lets line p r t
  have hp : State.Inv p.1 := h.homePeek
  have hr : State.Inv r.1 := h.homeRead
  have ht : State.Inv t := ite_inv hr.dirSet.l2Set hr
  clear_value t r p line
  split
  · exact h.portCombine
  refine ite_fst_inv h.portView ?_
  refine ite_fst_inv (.pair hp) ?_
  split
  · exact .pair ht
  · exact .pair hr.homeWake
  · exact .pair hr

theorem execHostRead_inv : Res.Inv (execHostRead s) := by
  have hg (g : Option (List Byte)) : State.Inv { s with hostGot := g } := .keep h
  unfold execHostRead
  split
  · refine ite_res_inv h ?_
    refine ite_res_inv (hg _) ?_
    refine ite_res_inv (hg _) ?_
    refine ite_res_inv h.hostRefuse ?_
    split
    · exact h.hostRefuse
    · exact h.hostLineRead.hostAnswer
  · trivial

theorem State.Inv.hostLineWrite : (s.hostLineWrite loc bs).1.Inv := by
  unfold State.hostLineWrite
  extract_lets line r
  have hr : State.Inv r.1 := h.homeOwn
  clear_value r line
  refine ite_fst_inv (.pair h) ?_
  refine ite_fst_inv h.portWrite ?_
  refine ite_fst_inv ?_ (.pair h.closeLine)
  split
  · exact .pair hr.perform
  · exact .pair hr

theorem execHostWrite_inv : Res.Inv (execHostWrite s) := by
  have hg (g : Option (List Byte)) : State.Inv { s with hostGot := g } := .keep h
  unfold execHostWrite
  split
  · refine ite_res_inv h ?_
    refine ite_res_inv (State.Inv.soon (hg _)) ?_
    refine ite_res_inv (State.Inv.keep h) ?_
    refine ite_res_inv (hg _) ?_
    refine ite_res_inv h.hostRefuse ?_
    split
    · exact h.hostRefuse
    · exact h.hostLineWrite.hostAnswer
  · trivial

theorem execDbellWrite_inv : Res.Inv (execDbellWrite s) := by
  unfold execDbellWrite
  split
  · exact h.raiseIrq
  · trivial

theorem State.Inv.giveUpAll : (s.giveUpAll line).Inv := by
  unfold State.giveUpAll
  exact .metaClear (.dirDel (.foldl h (fun q x hq => hq.evictL2)))

theorem execHostSnoop_inv : Res.Inv (execHostSnoop s) := by
  unfold execHostSnoop
  split
  · refine ite_inv h ?_
    refine ite_inv h.closeLine ?_
    refine ite_inv h.giveUpAll ?_
    exact .foldl h fun _ _ ht => ite_inv ht ht.l2Set.dirSet
  · trivial

theorem execSnoopFilterRecall_inv : Res.Inv (execSnoopFilterRecall s) := by
  unfold execSnoopFilterRecall
  split
  · split
    · exact h
    · split
      · exact h.giveUpAll
      · exact h.closeLine
  · trivial

theorem execNaeshLinkReturn_inv : Res.Inv (execNaeshLinkReturn s) := by
  unfold execNaeshLinkReturn
  dsimp only
  split
  · split
    · exact h
    · exact h.resetAgent
  · trivial

theorem execFlitRetransmit_inv : Res.Inv (execFlitRetransmit s) := by
  unfold execFlitRetransmit
  split
  · exact h
  · trivial

theorem State.Inv.setPort : (s.setPort p up lanes).Inv := h

theorem execCaravanLaneFail_inv : Res.Inv (execCaravanLaneFail s) := by
  unfold execCaravanLaneFail
  split
  · exact h.setPort
  · trivial

theorem execCaravanRetrainDone_inv : Res.Inv (execCaravanRetrainDone s) := by
  unfold execCaravanRetrainDone
  split
  · extract_lets lanes t
    have ht : State.Inv t := .keep h
    clear_value t
    exact ht.setPort
  · trivial

theorem State.Inv.homeSet : (s.homeSet cells).1.Inv := by
  unfold State.homeSet
  extract_lets lines r
  have hr : State.Inv r.1 := .foldl_fst h fun a _ ha =>
    ite_fst_inv ha (.pair ha.homeTake)
  clear_value r
  exact ite_fst_inv (.pair (.foldl hr.perform fun _ _ ht => ht.homeWritten)) hr

theorem State.Inv.portBar (hgo : ∀ t, t.Inv → (go t).1.Inv) : (s.portBar loc go).1.Inv := by
  unfold State.portBar
  refine ite_fst_inv (.pair h) ?_
  refine ite_fst_inv (.pair h) ?_
  exact ite_fst_inv (.pair h.closeLine) (hgo s h)

theorem State.Inv.portDo : (s.portDo k loc n data).1.Inv := by
  unfold State.portDo
  extract_lets line
  clear_value line
  cases k with
  | rd =>
    dsimp only
    split
    · exact h.portCombine
    exact ite_fst_inv h.portView (.pair h.homePeek)
  | wr => exact ite_fst_inv (.pair h) h.portWrite
  | amo op t =>
    refine ite_fst_inv (.pair h) ?_
    refine ite_fst_inv (.pair h) ?_
    refine ite_fst_inv (.pair h.closeLine) ?_
    exact ite_fst_inv (.pair h.homeAmo) (.pair h.homeAmo)
  | con t =>
    dsimp only
    split
    · refine ite_fst_inv (.pair h) ?_
      refine ite_fst_inv (.pair h) ?_
      exact ite_fst_inv (.pair h) (.pair h.rodHome)
    · exact .pair h
  | bar a e l => exact h.portBar fun _ ht => .pair ht.engArrive
  | init a b => exact h.portBar fun _ ht => .pair ht.barTake.homePut.wakeBar
  | poll => exact h.portBar fun _ ht => .pair ht
  | dnb pages =>
    refine h.portBar fun t ht => ?_
    extract_lets r
    have hr : State.Inv r.1 :=
      ite_fst_inv ht.homeSet ht
    clear_value r
    exact ite_fst_inv (.pair hr.engArrive) (.pair hr)

theorem execRemoteAccess_inv : Res.Inv (execRemoteAccess s) := by
  unfold execRemoteAccess
  dsimp only
  split
  · split
    · exact h
    · split
      · exact h
      · split <;> exact h.portDo
  · trivial

theorem State.Inv.answerRemote : (s.answerRemote r code).Inv := by
  have hr (n : List Remote) : State.Inv { s with remote := n } := .keep h
  unfold State.answerRemote
  refine ite_inv (hr _) ?_
  extract_lets t
  have ht : State.Inv t := hr _
  clear_value t
  exact ite_inv ht.answerTrap ht

theorem execRemoteRefusal_inv : Res.Inv (execRemoteRefusal s) := by
  unfold execRemoteRefusal
  split
  · split
    · exact h.answerRemote
    · exact h
  · trivial

theorem execRemoteAccessTimeout_inv : Res.Inv (execRemoteAccessTimeout s) := by
  unfold execRemoteAccessTimeout
  split
  · split
    · split
      · exact h.answerRemote
      · exact h
    · exact h
  · trivial

/-! ### Machine/Manage.lean -/

theorem State.Inv.copyImage : (s.copyImage im).Inv := by
  unfold State.copyImage
  split
  · exact h.pokeN
  · exact h

theorem State.Inv.packageReset : (s.packageReset im um' domain).Inv := by
  unfold State.packageReset
  extract_lets c e r r'
  have hr : State.Inv r' := ⟨Memory.filter_wf _ _ h.1, rfl⟩
  exact hr.modStr.modStr.copyImage

theorem State.Inv.failedReset : (s.failedReset um' n).Inv := by
  refine ⟨?_, rfl⟩
  show Memory.wf (if _ then _ else _) = true
  split
  · exact h.1
  · exact Memory.filter_wf _ _ h.1

theorem execPackageReset_inv : Res.Inv (execPackageReset s) := by
  unfold execPackageReset
  split
  · split
    · split
      · exact h.failedReset
      · exact h.packageReset
    · exact h.failedReset
  · trivial

theorem execPowerAverage_inv : Res.Inv (execPowerAverage s) := by
  unfold execPowerAverage
  split
  · split <;> exact h
  · trivial

theorem execLinkSleep_inv : Res.Inv (execLinkSleep s) := by
  unfold execLinkSleep
  split
  · split <;> exact h
  · trivial

theorem State.Inv.modCluster : (s.modCluster j f).Inv := by
  unfold State.modCluster
  exact .foldl h (fun q x hq => hq.modCore)

theorem execClusterGate_inv : Res.Inv (execClusterGate s) := by
  unfold execClusterGate
  split
  · split
    · exact h.modCluster
    · exact h
  · trivial

theorem execClusterUngate_inv : Res.Inv (execClusterUngate s) := by
  unfold execClusterUngate
  split
  · extract_lets t
    have ht : State.Inv t := h.modCluster
    clear_value t
    exact State.Inv.keep ht
  · trivial

theorem execCaravanPortIdle_inv : Res.Inv (execCaravanPortIdle s) := by
  unfold execCaravanPortIdle
  split
  · split <;> exact h
  · trivial

theorem execCaravanPortWake_inv : Res.Inv (execCaravanPortWake s) := by
  unfold execCaravanPortWake
  split
  · exact h
  · trivial

theorem execThermalThrottle_inv : Res.Inv (execThermalThrottle s) := by
  unfold execThermalThrottle
  split
  · extract_lets t
    have ht : State.Inv t := .keep h
    clear_value t
    exact ite_inv ht.soon ht
  · trivial

theorem execThermalThrottleEnd_inv : Res.Inv (execThermalThrottleEnd s) := by
  unfold execThermalThrottleEnd
  split
  · exact h
  · trivial

theorem execMemoryDieHot_inv : Res.Inv (execMemoryDieHot s) := by
  unfold execMemoryDieHot
  split
  · split <;> exact h
  · trivial

theorem execMemoryDieCooled_inv : Res.Inv (execMemoryDieCooled s) := by
  unfold execMemoryDieCooled
  split
  · exact h
  · trivial

theorem execThermalStop_inv : Res.Inv (execThermalStop s) := by
  unfold execThermalStop
  split
  · refine State.Inv.foldl (.logErr (.keep h)) fun t x ht => ?_
    exact ht.soon
  · trivial

theorem execResqRead_inv : Res.Inv (execResqRead s) := by
  unfold execResqRead
  split
  · exact h.resqTake
  · trivial

theorem execElogRead_inv : Res.Inv (execElogRead s) := by
  unfold execElogRead
  split
  · exact h.elogTake
  · trivial

theorem State.Inv.mcmdDone : (s.mcmdDone err).Inv := h

theorem State.Inv.withBlock (hk : ∀ t bs, t.Inv → (k t bs).Inv) : (s.withBlock pa n k).Inv := by
  unfold State.withBlock
  split
  · exact h.mcmdDone
  extract_lets r t
  have hr : State.Inv r.1 := h.getAll
  have ht : State.Inv t := h.waited
  clear_value r t
  split
  · exact .keep ht
  split
  · exact hr.mcmdDone
  · exact hk _ _ hr

theorem execMcmdRoutes_inv : Res.Inv (execMcmdRoutes s) := by
  have hr {t : State} (ht : t.Inv) (r : List Route) : State.Inv { t with routes := r } := .keep ht
  unfold execMcmdRoutes
  split
  · refine h.withBlock fun t _ ht => ite_inv ht.mcmdDone ?_
    exact ht.withBlock fun u _ hu => ite_inv hu.mcmdDone (hr hu _).mcmdDone
  · trivial

theorem execMcmdStealRing_inv : Res.Inv (execMcmdStealRing s) := by
  have hr {t : State} (ht : t.Inv) (r : Option (BitVec 16 × List (BitVec 14))) (k : Option Token) :
      State.Inv { t with ring := r, token := k } := .keep ht
  unfold execMcmdStealRing
  split
  · refine h.withBlock fun t _ ht => ite_inv (hr ht _ _).mcmdDone (ite_inv ht.mcmdDone ?_)
    exact ht.withBlock fun u _ hu => (hr hu _ _).mcmdDone
  · trivial

theorem execRegisterWrite_inv : Res.Inv (execRegisterWrite s) := by
  unfold execRegisterWrite
  split
  · split
    · exact h.regStore
    · exact h
  · trivial

theorem execIllegalInstruction_inv : Res.Inv (execIllegalInstruction s) := by
  unfold execIllegalInstruction
  split
  · exact h.trapAll
  · trivial

/-! ### Machine/Maps.lean -/

theorem execPageWalkComplete_inv : Res.Inv (execPageWalkComplete s) := by
  unfold execPageWalkComplete
  dsimp only
  split
  · split
    · exact h.translate
    · exact h
  · trivial

theorem State.Inv.dropTlb : (s.dropTlb c dev p q).Inv := h

theorem execTcinvAll_inv : Res.Inv (execTcinvAll s) := by
  unfold execTcinvAll
  split
  · exact h.dropTlb
  · trivial

theorem execTcinvCtx_inv : Res.Inv (execTcinvCtx s) := by
  unfold execTcinvCtx
  split
  · exact h.dropTlb
  · trivial

theorem execTcinvPage_inv : Res.Inv (execTcinvPage s) := by
  unfold execTcinvPage
  dsimp only
  split
  · exact h.dropTlb
  · trivial

theorem State.Inv.passTcinv : (s.passTcinv c dev).Inv := by
  unfold State.passTcinv
  exact .foldl h (fun q x hq => .asSplit hq (fun q1 hq1 => hq1.adv.waitMe))

theorem State.Inv.passTcinvParked : (s.passTcinvParked c dev).Inv := h.modCore

theorem execTcinvDrained_inv : Res.Inv (execTcinvDrained s) := by
  unfold execTcinvDrained
  dsimp only
  split
  · split
    · split
      · exact h
      · exact h.passTcinv.passTcinvParked
    · refine .passTcinvParked ?_
      refine .passTcinv ?_
      split
      · exact h
      · exact h.passTcinv.passTcinvParked
  · trivial

theorem State.Inv.setRt : (s.setRt i err).Inv := h

theorem execRegionEntryValidate_inv : Res.Inv (execRegionEntryValidate s) := by
  unfold execRegionEntryValidate
  dsimp only
  split
  · split
    · exact .setRt (.keep h)
    · exact h.setRt
    · exact .setRt (.keep h)
  · trivial

theorem execRegionEntryInvalidate_inv : Res.Inv (execRegionEntryInvalidate s) := by
  unfold execRegionEntryInvalidate
  split
  · show State.Inv (if _ then _ else _)
    split <;> exact h
  · trivial

theorem execRegionWordWrite_inv : Res.Inv (execRegionWordWrite s) := by
  unfold execRegionWordWrite
  split
  · split
    · exact h.setRt
    · exact .setRt (.keep h)
  · trivial

theorem execRegionDrainDone_inv : Res.Inv (execRegionDrainDone s) := by
  unfold execRegionDrainDone
  split
  · split <;> exact h
  · trivial

theorem execTimeExchange_inv : Res.Inv (execTimeExchange s) := by
  unfold execTimeExchange
  split
  · split <;> exact h
  · trivial

theorem execDomainTimeLost_inv : Res.Inv (execDomainTimeLost s) := by
  unfold execDomainTimeLost
  split
  · split
    · exact .logErr (.keep h)
    · exact h
  · trivial

/-! ### Machine/MaskOps.lean -/

theorem execKand_inv : Res.Inv (execKand d a b s) := by
  unfold execKand
  exact h.kSet

theorem execKor_inv : Res.Inv (execKor d a b s) := by
  unfold execKor
  exact h.kSet

theorem execKxor_inv : Res.Inv (execKxor d a b s) := by
  unfold execKxor
  exact h.kSet

theorem execKandn_inv : Res.Inv (execKandn d a b s) := by
  unfold execKandn
  exact h.kSet

theorem execKnot_inv : Res.Inv (execKnot d a s) := by
  unfold execKnot
  exact h.kSet

theorem execKmov_inv : Res.Inv (execKmov d a s) := by
  unfold execKmov
  exact h.kSet

theorem execKpop_inv : Res.Inv (execKpop d a s) := by
  unfold execKpop
  exact h.kToS

theorem execKfirst_inv : Res.Inv (execKfirst d a s) := by
  unfold execKfirst
  exact h.kToS

theorem execKtos_inv : Res.Inv (execKtos d a s) := by
  unfold execKtos
  exact h.kToS

theorem execStok_inv : Res.Inv (execStok d a s) := by
  unfold execStok
  exact h.kSet

end Sys2Proof.Machine
end

section
/-!
SUPPORT. The canonical form under tiles, scalars, stealing, the core cycle and vectors: one lemma for each function of the model, in the model's order.
-/
namespace Sys2Proof.Machine
open Sys2Proof

set_option Elab.async false

variable {s : State} (h : s.Inv)
include h

/-! ### Machine/Matrix.lean -/

theorem State.Inv.tileIssue : (s.tileIssue mk').1.Inv := h.newOp.modMe.modCore

theorem execMwld_inv : Res.Inv (execMwld wt s24 a b s) := by
  unfold execMwld
  dsimp only
  split
  · exact h.trapAll
  · split
    · exact h.trapAll
    · split
      · exact h.holdMe
      · exact h.tileIssue.modMe.adv

theorem execMwsw_inv : Res.Inv (execMwsw s) := by
  unfold execMwsw
  split
  · exact h.trapAll
  · split
    · exact h.holdMe
    · exact h.tileIssue.modMe.commit.adv

theorem State.Inv.outChunk : (s.outChunk sc va).1.Inv := by
  unfold State.outChunk
  dsimp only
  split
  · exact h.check
  · exact h.check
  · exact h.check
  · split
    · split
      · exact h.check
      · split
        · exact h.check
        · split
          · exact h.check
          · split
            · split
              · exact h.check
              · split
                · exact h.check
                · split <;> exact h.check
            · exact h.check
    · exact h.check

theorem State.Inv.outChunks : (s.outChunks sc vas).1.Inv := by
  unfold State.outChunks
  dsimp only
  split <;> exact .foldl_fst h (fun _ x hq => hq.outChunk)

theorem State.Inv.mmacIssue : (s.mmacIssue xt sc osp add asrc out a src scl geo lines).Inv := by
  unfold State.mmacIssue
  refine .adv ?_
  dsimp only
  split
  · refine .commit ?_
    refine .modMe ?_
    refine .tileIssue ?_
    split
    · exact h.spoil
    · exact h
  · refine .modMe ?_
    refine .tileIssue ?_
    split
    · exact h.spoil
    · exact h

theorem execMmac_inv : Res.Inv (execMmac xt sc osp add asrc d a b c s) := by
  unfold execMmac
  extract_lets out geo va vc rows n vops outExts os vas q
  have hq : State.Inv q.1 := h.outChunks
  clear_value q
  refine ite_inv (c := _ = _) h.trapAll ?_
  refine ite_inv h.trapAll ?_
  refine ite_inv h.trapAll ?_
  split
  · exact h.trapAll
  split
  · exact h.trapAll
  split
  · exact hq.trapAll
  · exact hq.sleepOn
  · exact hq.holdMe
  next ls _ =>
    extract_lets issue w g
    have hi {t : State} (ht : t.Inv) : State.Inv (issue t) := ht.mmacIssue
    have hw : State.Inv w.1 := hq.setDirties
    clear_value w
    have hg : State.Inv g.1 := hw.remoteGo
    clear_value g issue
    refine ite_inv hq.trapAll ?_
    refine ite_inv hq.holdMe ?_
    split
    · exact ite_inv (ite_inv (hi hg.remoteDone) hg.holdMe) (hi hw)
    · exact hw.sleepOn
    · exact hw.holdMe

theorem execMrdy_inv : Res.Inv (execMrdy s) := by
  unfold execMrdy
  split
  · exact h.trapAll
  · exact h.adv

theorem execMwait_inv : Res.Inv (execMwait opnd' n s) := by
  unfold execMwait
  dsimp only
  split
  · exact h.trapAll
  · split
    · split
      · exact h.adv
      · exact h.modMe.adv
    · exact h.holdMe

theorem execMcnt_inv : Res.Inv (execMcnt clr d s) := by
  unfold execMcnt
  dsimp only
  split
  · exact h.trapAll
  · split
    · exact h.setS.modMe.commit.adv
    · exact h.setS.adv

theorem State.Inv.modTile : (s.modTile c i f).Inv := h.modCore

theorem State.Inv.tileRead : (s.tileRead c w).Inv := h.modUid

theorem execTileMwldLoad_inv : Res.Inv (execTileMwldLoad s) := by
  unfold execTileMwldLoad
  dsimp only
  split
  · split
    · split
      · split
        · exact h.modCore.modTile.tileRead
        · exact h
      · exact h
    · exact h
  · trivial

theorem execTileMwswExchange_inv : Res.Inv (execTileMwswExchange s) := by
  unfold execTileMwswExchange
  dsimp only
  split
  · split
    · split
      · split
        · exact h.modCore.modTile.tileRead
        · exact h
      · exact h
    · exact h
  · trivial

theorem State.Inv.emitRow : (s.emitRow c o sc osp add off lines ys).Inv := by
  unfold State.emitRow
  dsimp only
  split
  · refine .foldl h (fun q x hq => ?_)
    split
    · exact hq.putBytes
    · exact hq
  · exact .foldl h (fun q x hq => hq.rodAddAt)

theorem execTileMmacStream_inv : Res.Inv (execTileMmacStream s) := by
  unfold execTileMmacStream
  split
  · extract_lets a n per
    split
    · split
      · split
        · extract_lets ctx r t
          have hr : State.Inv r.1 := .foldl_fst h fun _ _ h => h.emitRow
          clear_value r
          have ht : State.Inv t := hr.modTile.tileRead
          exact State.Inv.keep ht
        · exact h
      · exact h
    · exact h
  · trivial

theorem execTileOpComplete_inv : Res.Inv (execTileOpComplete s) := by
  unfold execTileOpComplete
  dsimp only
  split
  · split
    · split
      · exact h.modCore
      · split
        · split
          · exact h.modCore.modUid.opDone
          · exact h
        · exact h
    · exact h
  · trivial

theorem State.Inv.leaveArray : (s.leaveArray c p).Inv := h.modCore

theorem State.Inv.callOutside : (s.callOutside c).Inv := h.modCore.noteSpilled

theorem execArrayClaimGrant_inv : Res.Inv (execArrayClaimGrant s) := by
  unfold execArrayClaimGrant
  dsimp only
  split
  · split
    · exact h.callOutside
    · split
      · split
        · split
          · exact h.leaveArray.ownArray.modStr
          · exact h.leaveArray
        · split
          · exact h.modUid.noteSpilled
          · exact h.modUid.noteSpilled.leaveArray
      · exact h
  · trivial

/-! ### Machine/Scalar.lean -/

theorem execSadd_inv : Res.Inv (execSadd t d a b s) := by
  unfold execSadd
  exact h.sBin

theorem execSsub_inv : Res.Inv (execSsub t d a b s) := by
  unfold execSsub
  exact h.sBin

theorem execSmul_inv : Res.Inv (execSmul t d a b s) := by
  unfold execSmul
  exact h.sBin

theorem execSmulh_inv : Res.Inv (execSmulh t d a b s) := by
  unfold execSmulh
  exact h.sBin

theorem execSand_inv : Res.Inv (execSand t d a b s) := by
  unfold execSand
  exact h.sBin

theorem execSor_inv : Res.Inv (execSor t d a b s) := by
  unfold execSor
  exact h.sBin

theorem execSxor_inv : Res.Inv (execSxor t d a b s) := by
  unfold execSxor
  exact h.sBin

theorem execSshl_inv : Res.Inv (execSshl t d a b s) := by
  unfold execSshl
  exact h.sShift

theorem execSshr_inv : Res.Inv (execSshr t d a b s) := by
  unfold execSshr
  exact h.sShift

theorem execSsar_inv : Res.Inv (execSsar t d a b s) := by
  unfold execSsar
  exact h.sShift

theorem execSmin_inv : Res.Inv (execSmin t d a b s) := by
  unfold execSmin
  exact h.sBin

theorem execSmax_inv : Res.Inv (execSmax t d a b s) := by
  unfold execSmax
  exact h.sBin

theorem execSandn_inv : Res.Inv (execSandn t d a b s) := by
  unfold execSandn
  exact h.sBin

theorem execSaddI_inv : Res.Inv (execSaddI d a imm s) := by
  unfold execSaddI
  exact h.sImm

theorem execSsubI_inv : Res.Inv (execSsubI d a imm s) := by
  unfold execSsubI
  exact h.sImm

theorem execSmulI_inv : Res.Inv (execSmulI d a imm s) := by
  unfold execSmulI
  exact h.sImm

theorem execSmulhI_inv : Res.Inv (execSmulhI d a imm s) := by
  unfold execSmulhI
  exact h.sImm

theorem execSandI_inv : Res.Inv (execSandI d a imm s) := by
  unfold execSandI
  exact h.sImm

theorem execSorI_inv : Res.Inv (execSorI d a imm s) := by
  unfold execSorI
  exact h.sImm

theorem execSxorI_inv : Res.Inv (execSxorI d a imm s) := by
  unfold execSxorI
  exact h.sImm

theorem execSshlI_inv : Res.Inv (execSshlI d a imm s) := by
  unfold execSshlI
  exact h.sImm

theorem execSshrI_inv : Res.Inv (execSshrI d a imm s) := by
  unfold execSshrI
  exact h.sImm

theorem execSsarI_inv : Res.Inv (execSsarI d a imm s) := by
  unfold execSsarI
  exact h.sImm

theorem execSminI_inv : Res.Inv (execSminI d a imm s) := by
  unfold execSminI
  exact h.sImm

theorem execSmaxI_inv : Res.Inv (execSmaxI d a imm s) := by
  unfold execSmaxI
  exact h.sImm

theorem execSandnI_inv : Res.Inv (execSandnI d a imm s) := by
  unfold execSandnI
  exact h.sImm

theorem execScmp_inv : Res.Inv (execScmp cc t d a b s) := by
  unfold execScmp
  exact h.setS.adv

theorem execScmpI_inv : Res.Inv (execScmpI cc d a imm s) := by
  unfold execScmpI
  exact h.setS.adv

theorem execSdiv_inv : Res.Inv (execSdiv t d a b s) := by
  unfold execSdiv
  exact h.sBin

theorem execSrem_inv : Res.Inv (execSrem t d a b s) := by
  unfold execSrem
  exact h.sBin

theorem execSliI_inv : Res.Inv (execSliI d imm s) := by
  unfold execSliI
  exact h.setS.adv

theorem execSliL_inv : Res.Inv (execSliL d imm s) := by
  unfold execSliL
  exact h.setS.adv

theorem execSsel_inv : Res.Inv (execSsel _t' d a b c s) := by
  unfold execSsel
  exact h.setS.adv

theorem execSpop_inv : Res.Inv (execSpop t d a s) := by
  unfold execSpop
  exact h.sCount

theorem execSclz_inv : Res.Inv (execSclz t d a s) := by
  unfold execSclz
  exact h.sCount

theorem execSctz_inv : Res.Inv (execSctz t d a s) := by
  unfold execSctz
  exact h.sCount

theorem execSlea_inv : Res.Inv (execSlea d a b sh s) := by
  unfold execSlea
  exact h.setS.adv

/-! ### Machine/Steal.lean -/

theorem State.Inv.setLstat : (s.setLstat err slot).Inv := h

theorem State.Inv.launchPlaces : (s.launchPlaces l).1.Inv := by
  unfold State.launchPlaces
  dsimp only
  split <;> exact h.barCheck.check

theorem State.Inv.acceptLaunch : (s.acceptLaunch i l root).Inv := h.modLaunch.pushQueue.setLstat

theorem State.Inv.submit : (s.submit v).Inv := by
  unfold State.submit
  extract_lets t pt w r root busy ws n l0 q ok p g rl
  have ht : State.Inv t := h
  have hr : State.Inv r.1 := ht.getAll
  have hroot : State.Inv root.1 := by
    simp only [root]
    split
    · exact hr.getAll
    · exact hr
  have hbusy (u : State) : State.Inv (busy u) := .keep ht.waited
  have hp : State.Inv p.1 := hroot.launchPlaces
  have hg : State.Inv g.1 := by
    simp only [g]
    split
    · exact hp
    · exact hp.getAll
  clear_value g p
  split
  · exact ht.setLstat
  split
  · exact hbusy _
  split
  · exact hroot.setLstat
  split
  · split
    · exact hbusy _
    · exact hroot.setLstat
  split
  · exact hp.setLstat
  split
  · exact hp.setLstat
  split
  · exact hbusy _
  · exact hg.acceptLaunch

theorem execLaunchSubmit_inv : Res.Inv (execLaunchSubmit s) := by
  unfold execLaunchSubmit
  split
  · exact h.submit
  · trivial

theorem State.Inv.discardEnt : (s.discardEnt e).Inv := by
  unfold State.discardEnt
  dsimp only
  split
  · exact h
  · exact h.liveDown

theorem State.Inv.emptyQueue : (s.emptyQueue q).Inv := by
  unfold State.emptyQueue
  exact .foldl h.modQueue (fun _ x hq => hq.discardEnt)

theorem execBazaarQueueEnable_inv : Res.Inv (execBazaarQueueEnable s) := by
  unfold execBazaarQueueEnable
  dsimp only
  split
  · exact h.emptyQueue
  · trivial

theorem execBazaarQueueDisable_inv : Res.Inv (execBazaarQueueDisable s) := by
  unfold execBazaarQueueDisable
  dsimp only
  split
  · exact h.emptyQueue
  · trivial

theorem State.Inv.searchAmong : (s.searchAmong c k vs).Inv := by
  unfold State.searchAmong
  split
  · exact h
  split
  · split
    · exact h.popQueue.modCore.takeInto
    · exact h
  · exact h

theorem State.Inv.searchWork : (s.searchWork c k).Inv := by
  unfold State.searchWork
  split
  · exact h.modCore.takeInto
  · exact h.searchAmong

theorem execStealSearch_inv : Res.Inv (execStealSearch s) := by
  unfold execStealSearch
  split
  · split
    · exact h
    · split
      · exact h
      · split
        · exact h.soon
        · split
          · exact h.soon
          · exact h.searchWork
  · trivial

theorem execStealRetry_inv : Res.Inv (execStealRetry s) := by
  unfold execStealRetry
  split
  · split
    · exact h.soon
    · exact h
  · trivial

theorem execStealTake_inv : Res.Inv (execStealTake s) := by
  unfold execStealTake
  dsimp only
  split
  · split
    · split
      · exact h.modCore
      · exact h.modCore.modCore.takeInto
    · split
      · exact h.modCore.searchAmong
      · exact h.modCore
    · exact h.modCore
  · trivial

theorem State.Inv.showCounts : (s.showCounts).Inv := by
  unfold State.showCounts
  exact .foldl h (fun q x hq => hq.modCore)

theorem execDroveSummary_inv : Res.Inv (execDroveSummary s) := by
  unfold execDroveSummary
  dsimp only
  split
  · split <;> exact h
  · trivial

theorem execStealPauseLapse_inv : Res.Inv (execStealPauseLapse s) := by
  unfold execStealPauseLapse
  split
  · exact h.modCore
  · trivial

theorem State.Inv.joinEntry : (s.joinEntry i bs).Inv := h.pushQueue.liveUp

theorem State.Inv.takeEntries : (s.takeEntries es).1.Inv := by
  unfold State.takeEntries
  refine .foldl_fst h (fun r x hq => ?_)
  split
  · split
    · exact hq.joinEntry
    · exact hq
  · exact hq

theorem State.Inv.fillReq : (s.fillReq dev tag n).1.Inv := by
  unfold State.fillReq
  dsimp only
  split
  · exact .foldl h.keepQueue (fun q x hq => hq.liveDown)
  · exact h

theorem State.Inv.fillReqs : (s.fillReqs reqs).1.Inv := by
  unfold State.fillReqs
  refine .foldl_fst h (fun r x hq => ?_)
  dsimp only
  split
  · exact hq.fillReq
  · exact hq

theorem execCaravanToken_inv : Res.Inv (execCaravanToken s) := by
  unfold execCaravanToken
  dsimp only
  split
  · split
    · exact h.takeEntries.fillReqs
    · exact h
  · trivial

theorem execCaravanTokenPass_inv : Res.Inv (execCaravanTokenPass s) := by
  unfold execCaravanTokenPass
  split
  · exact h
  · trivial

theorem execTaskStart_inv : Res.Inv (execTaskStart s) := by
  unfold execTaskStart
  split
  · extract_lets t
    split
    · split
      · exact h
      · exact (h.l1Acquire.allocPart.assignCluster).modStr.modCore
    · exact h
  · trivial

theorem State.Inv.stageOp : (s.stageOp c t d).1.Inv := by
  unfold State.stageOp
  refine .foldl_fst h fun r k hr => ?_
  extract_lets va a u
  have ha : State.Inv a.1 := by
    refine .foldl_fst hr fun a g ha => ?_
    exact .insertLow (.take (.foldl ha fun _ _ h => h.countRange))
  exact ha.land

theorem State.Inv.stageTrap : (s.stageTrap c k entry code tval).Inv := by
  unfold State.stageTrap
  exact .foldl h (fun q x hq => .asSplit hq (fun q1 hq1 => hq1.trapAll))

theorem execPorterStagingComplete_inv : Res.Inv (execPorterStagingComplete s) := by
  unfold execPorterStagingComplete
  split
  · extract_lets t ready
    have hready {u : State} (hu : u.Inv) : State.Inv (ready u) := hu.modStr
    clear_value ready
    split
    · split
      · exact h
      split
      · exact (hready h).stageTrap
      · extract_lets r
        have hr : State.Inv r.1 := .foldl_fst h fun _ _ h => h.stageOp
        clear_value r
        show State.Inv (if _ then _ else if _ then _ else _)
        split
        · exact h.waited
        split
        · exact (hready hr).stageTrap
        · exact hready hr
    · exact h
  · trivial

theorem execPartitionRelease_inv : Res.Inv (execPartitionRelease s) := by
  unfold execPartitionRelease
  split
  · split
    · split
      · exact h.modCore
      · exact h
    · exact h
  · trivial

theorem execParkSpill_inv : Res.Inv (execParkSpill s) := by
  unfold execParkSpill
  split
  next c _ =>
    split
    · split
      next k _ =>
        cases e : s.spillStr c k false with
        | some t => exact h.spillStr e
        | none => exact h
      · exact h
    · exact h
  · trivial

theorem execSpillRestore_inv : Res.Inv (execSpillRestore s) := by
  unfold execSpillRestore
  split
  · split
    · split
      · exact h
      · exact h.restoreStr
    · exact h
  · trivial

/-! ### Machine/Sched.lean -/

theorem State.Inv.spillReg : (s.spillReg c k r w area).Inv := by
  unfold State.spillReg
  dsimp only
  split
  · exact h
  · split
    · exact h.waited
    · split
      · exact h.putAll.soon
      · exact h.putAll.modStr

theorem execRegisterSpill_inv : Res.Inv (execRegisterSpill s) := by
  unfold execRegisterSpill
  dsimp only
  split
  · split
    · exact h
    · split
      · split
        · exact h.spillArea.spillReg
        · exact h
      · exact h
  · trivial

theorem execRegisterFill_inv : Res.Inv (execRegisterFill s) := by
  unfold execRegisterFill
  dsimp only
  split
  · split
    · exact h
    · split
      · exact h
      · split
        · exact h.waited
        · split
          · exact h.spillArea.getAll.soon
          · exact h.spillArea.getAll.modStr
  · trivial

theorem State.Inv.pick : (s.pick c k j).Inv := by
  have hi {t : State} (ht : t.Inv) (n : List IssueRef) : State.Inv { t with issue := n } := .keep ht
  exact hi h.modCore _

theorem State.Inv.pickSplit : (s.pickSplit c k).Inv := by
  unfold State.pickSplit
  dsimp only
  split
  · exact h.soon
  · split
    · exact h.pick
    · exact h

theorem execIssueCycle_inv : Res.Inv (execIssueCycle s) := by
  unfold execIssueCycle
  dsimp only
  split
  · split
    · exact h.soon
    · split
      · exact h.pickSplit
      · exact h
  · trivial

theorem execStringStarvation_inv : Res.Inv (execStringStarvation s) := by
  unfold execStringStarvation
  split
  · split
    · exact h.pickSplit
    · exact h
  · trivial

theorem execSplitStarvation_inv : Res.Inv (execSplitStarvation s) := by
  unfold execSplitStarvation
  split
  · split
    · exact h.pick
    · exact h
  · trivial

theorem State.Inv.fetchInstr : (s.fetchInstr).1.Inv := by
  unfold State.fetchInstr
  extract_lets x pc r q
  have hr : State.Inv r.1 := h.fetch64
  have hq : State.Inv q.1 := hr.fetch64
  clear_value q r
  split
  · exact .pair hr.trapAll
  · exact .pair hr.sleepOn
  · exact .pair hr.holdMe
  refine ite_fst_inv ?_ ?_
  · split
    · exact .pair hq.trapAll
    · exact .pair hq.sleepOn
    · exact .pair hq.holdMe
    refine ite_fst_inv (.pair hq.soon) ?_
    split
    · exact .pair hq
    · exact .pair hq.soon
  · refine ite_fst_inv (.pair hr.soon) ?_
    split
    · exact .pair hr
    · exact .pair hr.soon

theorem State.Inv.reclaim : (s.reclaim).1.Inv := by
  unfold State.reclaim
  split
  · exact h.claimArray
  · exact h

theorem State.Inv.regShort : (s.regShort).Inv := by
  unfold State.regShort
  dsimp only
  split
  · split
    · exact h.holdMe.soon
    · exact h.holdMe
  · exact h.modCore.holdMe

theorem State.Inv.regsFound : (s.regsFound).Inv := by
  unfold State.regsFound
  dsimp only
  split
  · exact h.modCore
  · exact h

theorem State.Inv.withRegs : (s.withRegs i).1.Inv := by
  unfold State.withRegs
  extract_lets t
  split
  · exact .pair h.holdMe.soon
  · exact ite_fst_inv (.pair h.regShort) (.pair h.regsFound)

theorem State.Inv.prepareSplit : (s.prepareSplit).1.Inv := by
  unfold State.prepareSplit
  extract_lets p t u r f
  have ht : State.Inv t := h.readHeader
  clear_value t
  have hu : State.Inv u := ht.modMe
  clear_value u
  have hr : State.Inv r.1 := hu.reclaim
  clear_value r
  have hf : State.Inv f.1 := hr.fetchInstr
  clear_value f
  refine ite_fst_inv (.pair ht) ?_
  refine ite_fst_inv (.pair ht.soon) ?_
  refine ite_fst_inv (.pair hr) ?_
  split
  · exact hf
  · exact hf.withRegs

theorem State.Inv.prepareAbacus : (s.prepareAbacus).1.Inv := by
  unfold State.prepareAbacus
  split
  · exact .pair h
  refine ite_fst_inv (.pair h) ?_
  refine ite_fst_inv (.pair h.soon) ?_
  split
  · exact .pair h.endRun
  split
  · exact .pair h
  · exact .pair h.endRun

theorem State.Inv.prepare : (s.prepare x).1.Inv := by
  have hab (d : DieId × PchId) : State.Inv { s with curAb := d } := .keep h
  have hcur (c : Cur) : State.Inv { s with cur := c } := .keep h
  unfold State.prepare
  split
  · exact (hab _).prepareAbacus
  · extract_lets t
    have ht : State.Inv t := hcur _
    clear_value t
    exact ite_fst_inv ht.modSp.prepareSplit (.pair ht)

theorem State.Inv.afterIssue : (s.afterIssue x n).Inv := by
  unfold State.afterIssue
  dsimp only
  split
  · exact h
  · split
    · exact h.modStr
    · refine .later ?_
      split
      · exact h.modCore.modStr
      · split <;> exact h.modStr

theorem execBlockEntry_inv : Res.Inv (execBlockEntry s) := by
  unfold execBlockEntry
  split
  · exact h.modSp.blockEntry.afterIssue
  · trivial

theorem State.Inv.wakePushes : (s.wakePushes c).Inv := by
  unfold State.wakePushes
  dsimp only
  split
  · exact h.modCore.noteSpilled
  · exact h

theorem State.Inv.endCycle : (s.endCycle run).Inv := by
  unfold State.endCycle
  extract_lets t u
  have ht : State.Inv t := .foldl h fun _ _ h => h.modCore
  have hu : State.Inv u := .showCounts (.foldl (f := State.wakePushes) ht fun _ _ h => h.wakePushes)
  clear_value u
  refine .foldl hu fun v i hv => ?_
  split
  · exact hv.launchEnd
  · exact hv

theorem State.Inv.turn : (s.turn run).Inv := by
  have hu {t : State} (ht : t.Inv) (a : List Ev) (i : List IssueRef) (n : Nat) :
      State.Inv { t with agenda := a, issue := i, free := n } := .keep ht
  unfold State.turn
  exact hu h.endCycle.tick _ _ _

/-! ### Machine/VectorInt.lean -/

theorem execVadd_inv : Res.Inv (execVadd g t d a b s) := by
  unfold execVadd
  exact h.vec (fun q hq => hq.vBin)

theorem execVsub_inv : Res.Inv (execVsub g t d a b s) := by
  unfold execVsub
  exact h.vec (fun q hq => hq.vBin)

theorem execVmul_inv : Res.Inv (execVmul g t d a b s) := by
  unfold execVmul
  exact h.vec (fun q hq => hq.vBin)

theorem execVmulh_inv : Res.Inv (execVmulh g t d a b s) := by
  unfold execVmulh
  exact h.vec (fun q hq => hq.vBin)

theorem execVand_inv : Res.Inv (execVand g t d a b s) := by
  unfold execVand
  exact h.vec (fun q hq => hq.vBin)

theorem execVor_inv : Res.Inv (execVor g t d a b s) := by
  unfold execVor
  exact h.vec (fun q hq => hq.vBin)

theorem execVxor_inv : Res.Inv (execVxor g t d a b s) := by
  unfold execVxor
  exact h.vec (fun q hq => hq.vBin)

theorem execVshl_inv : Res.Inv (execVshl g t d a b s) := by
  unfold execVshl
  exact h.vec (fun q hq => hq.vBin)

theorem execVshr_inv : Res.Inv (execVshr g t d a b s) := by
  unfold execVshr
  exact h.vec (fun q hq => hq.vBin)

theorem execVsar_inv : Res.Inv (execVsar g t d a b s) := by
  unfold execVsar
  exact h.vec (fun q hq => hq.vBin)

theorem execVmin_inv : Res.Inv (execVmin g t d a b s) := by
  unfold execVmin
  exact h.vec (fun q hq => hq.vBin)

theorem execVmax_inv : Res.Inv (execVmax g t d a b s) := by
  unfold execVmax
  exact h.vec (fun q hq => hq.vBin)

theorem execVadds_inv : Res.Inv (execVadds g t d a b s) := by
  unfold execVadds
  exact h.vec (fun q hq => hq.vBin)

theorem execVsubs_inv : Res.Inv (execVsubs g t d a b s) := by
  unfold execVsubs
  exact h.vec (fun q hq => hq.vBin)

theorem execVabs_inv : Res.Inv (execVabs g t d a s) := by
  unfold execVabs
  exact h.vec (fun q hq => hq.vUn)

theorem execVneg_inv : Res.Inv (execVneg g t d a s) := by
  unfold execVneg
  exact h.vec (fun q hq => hq.vUn)

theorem execVaddI_inv : Res.Inv (execVaddI g d a imm s) := by
  unfold execVaddI
  exact h.vec (fun q hq => hq.vImm)

theorem execVsubI_inv : Res.Inv (execVsubI g d a imm s) := by
  unfold execVsubI
  exact h.vec (fun q hq => hq.vImm)

theorem execVmulI_inv : Res.Inv (execVmulI g d a imm s) := by
  unfold execVmulI
  exact h.vec (fun q hq => hq.vImm)

theorem execVmulhI_inv : Res.Inv (execVmulhI g d a imm s) := by
  unfold execVmulhI
  exact h.vec (fun q hq => hq.vImm)

theorem execVandI_inv : Res.Inv (execVandI g d a imm s) := by
  unfold execVandI
  exact h.vec (fun q hq => hq.vImm)

theorem execVorI_inv : Res.Inv (execVorI g d a imm s) := by
  unfold execVorI
  exact h.vec (fun q hq => hq.vImm)

theorem execVxorI_inv : Res.Inv (execVxorI g d a imm s) := by
  unfold execVxorI
  exact h.vec (fun q hq => hq.vImm)

theorem execVshlI_inv : Res.Inv (execVshlI g d a imm s) := by
  unfold execVshlI
  exact h.vec (fun q hq => hq.vImm)

theorem execVshrI_inv : Res.Inv (execVshrI g d a imm s) := by
  unfold execVshrI
  exact h.vec (fun q hq => hq.vImm)

theorem execVsarI_inv : Res.Inv (execVsarI g d a imm s) := by
  unfold execVsarI
  exact h.vec (fun q hq => hq.vImm)

theorem execVminI_inv : Res.Inv (execVminI g d a imm s) := by
  unfold execVminI
  exact h.vec (fun q hq => hq.vImm)

theorem execVmaxI_inv : Res.Inv (execVmaxI g d a imm s) := by
  unfold execVmaxI
  exact h.vec (fun q hq => hq.vImm)

theorem execVcmp_inv : Res.Inv (execVcmp g cc t d a b s) := by
  unfold execVcmp
  exact h.vec (fun q hq => hq.vRel.adv)

theorem execVcmpI_inv : Res.Inv (execVcmpI g cc d a imm s) := by
  unfold execVcmpI
  exact h.vec (fun q hq => hq.vRel.adv)

theorem execVsel_inv : Res.Inv (execVsel g t d a b c s) := by
  unfold execVsel
  exact h.vec (fun q hq => hq.putV.adv)

theorem execVmov_inv : Res.Inv (execVmov g t d a s) := by
  unfold execVmov
  exact h.vec (fun q hq => hq.putV.adv)

theorem execVbcast_inv : Res.Inv (execVbcast g t d a s) := by
  unfold execVbcast
  exact h.vec (fun q hq => hq.putV.adv)

theorem execVlid_inv : Res.Inv (execVlid g d s) := by
  unfold execVlid
  exact h.vec (fun q hq => hq.put1.adv)

theorem execVgetl_inv : Res.Inv (execVgetl t d a b s) := by
  unfold execVgetl
  exact h.vec (fun q hq => hq.setS.adv)

theorem execVsetl_inv : Res.Inv (execVsetl g t d a b s) := by
  unfold execVsetl
  exact h.vec (fun q hq => hq.putV.adv)

theorem execVperm_inv : Res.Inv (execVperm g t d a b s) := by
  unfold execVperm
  exact h.vec (fun q hq => hq.vLane)

theorem execVshup_inv : Res.Inv (execVshup g t d a dist' s) := by
  unfold execVshup
  exact h.vec (fun q hq => hq.vLane)

theorem execVshdn_inv : Res.Inv (execVshdn g t d a dist' s) := by
  unfold execVshdn
  exact h.vec (fun q hq => hq.vLane)

theorem execVshxor_inv : Res.Inv (execVshxor g t d a dist' s) := by
  unfold execVshxor
  exact h.vec (fun q hq => hq.vLane)

theorem execVrot_inv : Res.Inv (execVrot g t d a dist' s) := by
  unfold execVrot
  exact h.vec (fun q hq => hq.vLane)

theorem execVred_inv : Res.Inv (execVred g op t d a s) := by
  unfold execVred
  refine h.vec (fun q hq => ?_)
  split
  · exact hq.setS.adv
  · exact hq.adv

theorem execVscan_inv : Res.Inv (execVscan g t ex d a s) := by
  unfold execVscan
  exact h.vec (fun q hq => hq.put1.adv)

theorem execVmad_inv : Res.Inv (execVmad g t d a b c s) := by
  unfold execVmad
  exact h.vec (fun q hq => hq.vTern)

theorem execVdot4_inv : Res.Inv (execVdot4 g t d a b c s) := by
  unfold execVdot4
  exact h.vec (fun q hq => hq.put1.adv)

theorem execVpop_inv : Res.Inv (execVpop g t d a s) := by
  unfold execVpop
  exact h.vec (fun q hq => hq.vUn)

theorem execVclz_inv : Res.Inv (execVclz g t d a s) := by
  unfold execVclz
  exact h.vec (fun q hq => hq.vUn)

theorem execVctz_inv : Res.Inv (execVctz g t d a s) := by
  unfold execVctz
  exact h.vec (fun q hq => hq.vUn)

theorem execVext_inv : Res.Inv (execVext g t d a b s) := by
  unfold execVext
  exact h.vec (fun q hq => hq.put1.adv)

theorem execVgrow_inv : Res.Inv (execVgrow n s) := by
  unfold execVgrow
  exact h.modMe.adv

theorem execVshrink_inv : Res.Inv (execVshrink n s) := by
  unfold execVshrink
  exact h.modMe.adv

end Sys2Proof.Machine
end

section
/-!
SUPPORT. The canonical form under the dispatch and the step: one lemma for each function of the model, in the model's order.
-/
namespace Sys2Proof.Machine
open Sys2Proof

set_option Elab.async false

variable {s : State} (h : s.Inv)
include h

/-! ### Machine/Dispatch.lean -/

theorem exec_inv : Res.Inv (exec i s) := by
  unfold exec
  split
  · exact execSadd_inv h
  · exact execSsub_inv h
  · exact execSmul_inv h
  · exact execSmulh_inv h
  · exact execSand_inv h
  · exact execSor_inv h
  · exact execSxor_inv h
  · exact execSshl_inv h
  · exact execSshr_inv h
  · exact execSsar_inv h
  · exact execSmin_inv h
  · exact execSmax_inv h
  · exact execSandn_inv h
  · exact execSaddI_inv h
  · exact execSsubI_inv h
  · exact execSmulI_inv h
  · exact execSmulhI_inv h
  · exact execSandI_inv h
  · exact execSorI_inv h
  · exact execSxorI_inv h
  · exact execSshlI_inv h
  · exact execSshrI_inv h
  · exact execSsarI_inv h
  · exact execSminI_inv h
  · exact execSmaxI_inv h
  · exact execSandnI_inv h
  · exact execScmp_inv h
  · exact execScmpI_inv h
  · exact execSdiv_inv h
  · exact execSrem_inv h
  · exact execSliI_inv h
  · exact execSliL_inv h
  · exact execSsel_inv h
  · exact execSpop_inv h
  · exact execSclz_inv h
  · exact execSctz_inv h
  · exact execSlea_inv h
  · exact execKand_inv h
  · exact execKor_inv h
  · exact execKxor_inv h
  · exact execKandn_inv h
  · exact execKnot_inv h
  · exact execKmov_inv h
  · exact execKpop_inv h
  · exact execKfirst_inv h
  · exact execKtos_inv h
  · exact execStok_inv h
  · exact execVadd_inv h
  · exact execVsub_inv h
  · exact execVmul_inv h
  · exact execVmulh_inv h
  · exact execVand_inv h
  · exact execVor_inv h
  · exact execVxor_inv h
  · exact execVshl_inv h
  · exact execVshr_inv h
  · exact execVsar_inv h
  · exact execVmin_inv h
  · exact execVmax_inv h
  · exact execVabs_inv h
  · exact execVneg_inv h
  · exact execVadds_inv h
  · exact execVsubs_inv h
  · exact execVaddI_inv h
  · exact execVsubI_inv h
  · exact execVmulI_inv h
  · exact execVmulhI_inv h
  · exact execVandI_inv h
  · exact execVorI_inv h
  · exact execVxorI_inv h
  · exact execVshlI_inv h
  · exact execVshrI_inv h
  · exact execVsarI_inv h
  · exact execVminI_inv h
  · exact execVmaxI_inv h
  · exact execVcmp_inv h
  · exact execVcmpI_inv h
  · exact execVsel_inv h
  · exact execVmov_inv h
  · exact execVbcast_inv h
  · exact execVlid_inv h
  · exact execVgetl_inv h
  · exact execVsetl_inv h
  · exact execVperm_inv h
  · exact execVshup_inv h
  · exact execVshdn_inv h
  · exact execVshxor_inv h
  · exact execVrot_inv h
  · exact execVred_inv h
  · exact execVscan_inv h
  · exact execVmad_inv h
  · exact execVdot4_inv h
  · exact execVpop_inv h
  · exact execVclz_inv h
  · exact execVctz_inv h
  · exact execVext_inv h
  · exact execVgrow_inv h
  · exact execVshrink_inv h
  · exact execFadd_inv h
  · exact execFsub_inv h
  · exact execFmul_inv h
  · exact execFmin_inv h
  · exact execFmax_inv h
  · exact execFdiv_inv h
  · exact execFsqrt_inv h
  · exact execFabs_inv h
  · exact execFneg_inv h
  · exact execFfma_inv h
  · exact execFfms_inv h
  · exact execFfnma_inv h
  · exact execFfnms_inv h
  · exact execFrcp_inv h
  · exact execFrsq_inv h
  · exact execFexp2_inv h
  · exact execFlog2_inv h
  · exact execFcmp_inv h
  · exact execFclass_inv h
  · exact execFcvtFf_inv h
  · exact execFcvtFi_inv h
  · exact execFcvtIf_inv h
  · exact execFpack_inv h
  · exact execFunpack_inv h
  · exact execQblk_inv h
  · exact execDqblk_inv h
  · exact execLd_inv h
  · exact execSt_inv h
  · exact execGth_inv h
  · exact execSct_inv h
  · exact execSpld_inv h
  · exact execSpst_inv h
  · exact execPf_inv h
  · exact execResid_inv h
  · exact execSld_inv h
  · exact execSst_inv h
  · exact execAmo_inv h
  · exact execRacc_inv h
  · exact execFence_inv h
  · exact execBarInit_inv h
  · exact execBarExp_inv h
  · exact execBarArr_inv h
  · exact execBarWait_inv h
  · exact execBarTest_inv h
  · exact execWcnt_inv h
  · exact execSeal_inv h
  · exact execUnseal_inv h
  · exact execCmr_inv h
  · exact execCmrend_inv h
  · exact execBr_inv h
  · exact execBnz_inv h
  · exact execBz_inv h
  · exact execBany_inv h
  · exact execBall_inv h
  · exact execBnone_inv h
  · exact execBdiv_inv h
  · exact execCall_inv h
  · exact execRet_inv h
  · exact execCallr_inv h
  · exact execJmpr_inv h
  · exact execSpmask_inv h
  · exact execSpawn_inv h
  · exact execSpawnf_inv h
  · exact execJoin_inv h
  · exact execDone_inv h
  · exact execYield_inv h
  · exact execQpush_inv h
  · exact execQpop_inv h
  · exact execStlpause_inv h
  · exact execStlresume_inv h
  · exact execPdist_inv h
  · exact execMwld_inv h
  · exact execMwsw_inv h
  · exact execMmac_inv h
  · exact execMrdy_inv h
  · exact execMwait_inv h
  · exact execMcnt_inv h
  · exact execCpy_inv h
  · exact execChain_inv h
  · exact execVwreg_inv h
  · exact execVwdrop_inv h
  · exact execVwsync_inv h
  · exact execBcmd_inv h
  · exact execBwait_inv h
  · exact execXscale_inv h
  · exact execXsum_inv h
  · exact execSys_inv h
  · exact execHyp_inv h
  · exact execSret_inv h
  · exact execHret_inv h
  · exact execRdsr_inv h
  · exact execWrsr_inv h
  · exact execWfi_inv h
  · exact execAhalt_inv h
  · exact execAli_inv h
  · exact execAlih_inv h
  · exact execAadd_inv h
  · exact execAaddi_inv h
  · exact execAloop_inv h
  · exact execAbne_inv h
  · exact execAldw_inv h
  · exact execAdot_inv h
  · exact execAclr_inv h
  · exact execAstc_inv h
  · exact execAemit_inv h
  · exact execAfadd_inv h
  · exact execAfmul_inv h
  · exact execAldc_inv h
  · exact execAnop_inv h
  · exact execBlockEntry_inv h
  · exact execIssueCycle_inv h
  · exact execStringStarvation_inv h
  · exact execSplitStarvation_inv h
  · exact execRegisterSpill_inv h
  · exact execRegisterFill_inv h
  · exact execInterruptDelivery_inv h
  · exact execWfiWake_inv h
  · exact execL2WaitingStorePerform_inv h
  · exact execL1LeaseExpiry_inv h
  · exact execL2VictimEvict_inv h
  · exact execHomeReadRequest_inv h
  · exact execHomeOwnRequest_inv h
  · exact execHomeWriteback_inv h
  · exact execHomeAtomic_inv h
  · exact execDiscover_inv h
  · exact execAgentProbeAnswer_inv h
  · exact execLinkUp_inv h
  · exact execLinkWakeTimeout_inv h
  · exact execAgentDeclaredDead_inv h
  · exact execAgentReset_inv h
  · exact execDirectoryEccError_inv h
  · exact execEccError_inv h
  · exact execMemoryDieDead_inv h
  · exact execPchRequestServe_inv h
  · exact execPchAgeLimit_inv h
  · exact execBankRefresh_inv h
  · exact execPageWalkComplete_inv h
  · exact execTcinvAll_inv h
  · exact execTcinvCtx_inv h
  · exact execTcinvPage_inv h
  · exact execTcinvDrained_inv h
  · exact execRegionEntryValidate_inv h
  · exact execRegionEntryInvalidate_inv h
  · exact execRegionWordWrite_inv h
  · exact execRegionDrainDone_inv h
  · exact execTimeExchange_inv h
  · exact execDomainTimeLost_inv h
  · exact execBarrierUpdate_inv h
  · exact execBarrierPoll_inv h
  · exact execConvoyTransferStart_inv h
  · exact execConvoyLanding_inv h
  · exact execEngineBankStarvation_inv h
  · exact execChainCopy_inv h
  · exact execChainGather_inv h
  · exact execChainScatter_inv h
  · exact execChainLoop_inv h
  · exact execChainCond_inv h
  · exact execChainWait_inv h
  · exact execChainArrive_inv h
  · exact execChainEnd_inv h
  · exact execChainStop_inv h
  · exact execPorterStagingComplete_inv h
  · exact execPartitionRelease_inv h
  · exact execArrayClaimGrant_inv h
  · exact execTileMwldLoad_inv h
  · exact execTileMwswExchange_inv h
  · exact execTileMmacStream_inv h
  · exact execTileOpComplete_inv h
  · exact execRodContribution_inv h
  · exact execCmRegistration_inv h
  · exact execPartialRecallAnswer_inv h
  · exact execPartialWriteback_inv h
  · exact execCmrComplete_inv h
  · exact execCmrendComplete_inv h
  · exact execMasterWrite_inv h
  · exact execDerivationDelayExpiry_inv h
  · exact execDerivationStart_inv h
  · exact execDerivationComplete_inv h
  · exact execViewRead_inv h
  · exact execVwdropComplete_inv h
  · exact execVwsyncComplete_inv h
  · exact execBankCommandEnqueue_inv h
  · exact execBankCommandStart_inv h
  · exact execBankCommandEnd_inv h
  · exact execAbacusStepLimit_inv h
  · exact execLaunchSubmit_inv h
  · exact execBazaarQueueEnable_inv h
  · exact execBazaarQueueDisable_inv h
  · exact execStealSearch_inv h
  · exact execStealRetry_inv h
  · exact execStealTake_inv h
  · exact execDroveSummary_inv h
  · exact execStealPauseLapse_inv h
  · exact execCaravanToken_inv h
  · exact execCaravanTokenPass_inv h
  · exact execTaskStart_inv h
  · exact execParkSpill_inv h
  · exact execSpillRestore_inv h
  · exact execContextFault_inv h
  · exact execCtxSave_inv h
  · exact execCtxRestore_inv h
  · exact execCtxRestoreCluster_inv h
  · exact execCtxPreempt_inv h
  · exact execCtxEnd_inv h
  · exact execEvictedShareReturn_inv h
  · exact execHostRead_inv h
  · exact execHostWrite_inv h
  · exact execHostSnoop_inv h
  · exact execSnoopFilterRecall_inv h
  · exact execDbellWrite_inv h
  · exact execNaeshLinkReturn_inv h
  · exact execCaravanLaneFail_inv h
  · exact execCaravanRetrainDone_inv h
  · exact execRemoteAccess_inv h
  · exact execRemoteRefusal_inv h
  · exact execRemoteAccessTimeout_inv h
  · exact execXscaleUnitContribute_inv h
  · exact execXscaleUnitFinish_inv h
  · exact execXsumUnitContribute_inv h
  · exact execXsumUnitFinish_inv h
  · exact execCollectiveAreaClear_inv h
  · exact execPackageReset_inv h
  · exact execPowerAverage_inv h
  · exact execLinkSleep_inv h
  · exact execClusterGate_inv h
  · exact execClusterUngate_inv h
  · exact execCaravanPortIdle_inv h
  · exact execCaravanPortWake_inv h
  · exact execThermalThrottle_inv h
  · exact execMemoryDieHot_inv h
  · exact execThermalStop_inv h
  · exact execResqRead_inv h
  · exact execElogRead_inv h
  · exact execMcmdRoutes_inv h
  · exact execMcmdStealRing_inv h
  · exact execRegisterWrite_inv h
  · exact execIllegalInstruction_inv h
  · exact execFlitRetransmit_inv h
  · exact execThermalThrottleEnd_inv h
  · exact execMemoryDieCooled_inv h

/-! ### Machine/Step.lean -/

theorem issueStep_inv : Res.Inv (issueStep x s) := by
  have hp : State.Inv (s.prepare x).1 := h.prepare
  unfold issueStep
  generalize s.prepare x = p at hp ⊢
  obtain ⟨t, i⟩ := p
  cases i with
  | none => exact State.Inv.afterIssue hp
  | some i =>
    have he : Res.Inv (exec i t) := exec_inv hp
    dsimp only
    generalize exec i t = r at he ⊢
    cases r with
    | next u => exact State.Inv.afterIssue he
    | fault _ => trivial
    | refused _ => trivial

theorem step_inv : Res.Inv (step s) := by
  have he (e : Ev) (a : List Ev) : State.Inv { s with agenda := a, ev := e } := .keep h
  have hi (r : List IssueRef) : State.Inv { s with issue := r } := .keep h
  unfold step
  split
  · exact exec_inv (he _ _)
  · split
    · exact issueStep_inv (hi _)
    · exact h.turn

end Sys2Proof.Machine
end

section
/-! PROOF. Obligation O57. -/
namespace Sys2Proof
open Machine

/-- Settles O57: the event, the instruction or the cycle that a step carries out keeps the canonical form. -/
theorem stepKeepsInv : Obligations.StepKeepsInv := by
  intro s t h e
  have hr : Res.Inv (step s) := step_inv h
  rw [e] at hr
  exact hr

end Sys2Proof
end

section
/-!
SUPPORT. The end of the waits for an invalidation (R95), where no split in a slot is in one: only parked splits go on.
-/
namespace Sys2Proof.Machine
open Sys2Proof

/-- No split in a slot waits for an invalidation. -/
def State.NoneWaits (s : State) (dev : Bool) : Prop := ∀ (c : CoreId) (k : SlotId) (j : SplitId), ((s.strAt c k).splits[j]).wait ≠ .tcinv dev

theorem State.passTcinv_of_noneWaits {s : State} {dev : Bool} (h : State.NoneWaits s dev) (c : CoreId) : s.passTcinv c dev = s := by
  unfold State.passTcinv
  rw [List.filter_eq_nil_iff.2]
  · rfl
  · intro u _
    rw [Bool.and_eq_true, Bool.and_eq_true, beq_iff_eq, beq_iff_eq]
    rintro ⟨⟨-, hwait⟩, -⟩
    exact h u.core u.slot u.split hwait

/-- Parked splits that pass change no other field of a string. -/
theorem State.strAt_passTcinvParked (s : State) (c : CoreId) (dev : Bool) (k : SlotId) :
    ∃ go : Split → Split, (∀ x, x.wait ≠ .tcinv dev → go x = x) ∧ (∀ x, x.wait = .tcinv dev → (go x).wait = .none) ∧
      (s.passTcinvParked c dev).strAt c k = { s.strAt c k with park := (s.strAt c k).park.map go } := by
  refine ⟨fun x => if x.wait == .tcinv dev then { x with wait := .none, pc := x.pc + 8 } else x, fun x hx => ?_, fun x hx => ?_, ?_⟩
  · simp [hx]
  · simp [hx]
  · simp [State.passTcinvParked, State.strAt]

theorem State.splits_passTcinvParked (s : State) (c : CoreId) (dev : Bool) (c' : CoreId) (k : SlotId) :
    ((s.passTcinvParked c dev).strAt c' k).splits = (s.strAt c' k).splits := by
  by_cases h : c' = c
  · subst h
    obtain ⟨go, -, -, e⟩ := s.strAt_passTcinvParked c' dev k
    rw [e]
  · unfold State.passTcinvParked State.strAt
    simp [State.modCore_get_other _ _ _ _ h]

end Sys2Proof.Machine
end

section
/-!
PROOF. Obligation O51. Its clause on TCINV_DRAINED says that a transfer with a barrier anywhere in memory keeps the invalidation waiting; the model counts the
barriers of this device alone (`placeLine`), so a transfer to another device's barrier does not keep it.
-/
namespace Sys2Proof
open Machine

/-- A transfer whose barrier is the first location of another device. -/
def farXfer : Xfer :=
  { kind := .copy, who := { slot := 0, uid := 0, op := 0, ptroot := 0, mode := .user }, chain := none, ssp := true, dsp := true, src := 0, dst := 0, len := 16,
    idx := 0, nrows := 0, rlen := 0, rstr := 0, bar := some (.mem (2 ^ 48)), scope := .pkg, rows := [], data := none, err := 0, errAddr := 0 }

/-- A parked split that waits for its core's invalidation. -/
def parkedSplit : Split := { Split.empty with m := 1, e := 1, wait := .tcinv false }

/-- A string with four splits that run and that parked one. -/
def waitingStr : Str :=
  { Str.empty with st := .ready, splits := Vector.replicate 4 { Split.empty with m := 2, e := 2 }, park := [parkedSplit] }

/-- Every core with such a transfer under way and such strings, at TCINV_DRAINED of core 0. -/
def farBarrier : State :=
  { State.reset with ev := .tcinvDrained 0, cores := Vector.replicate 256 { Core.reset with convoy := [farXfer], strs := Vector.replicate 16 waitingStr } }

theorem farBarrier_core (c : CoreId) : farBarrier.cores[c] = { Core.reset with convoy := [farXfer], strs := Vector.replicate 16 waitingStr } := by
  simp [farBarrier]

/-- Another device's barrier is no place of this one. -/
theorem placeLine_farXfer : farXfer.bar.bind placeLine = none := by decide

/-- No access of this device is under way. -/
theorem busyOn_farBarrier (on : CoreId → Bool) (near : W64 → W64 → Bool) : farBarrier.busyOn on near = false := by
  have hcore (c : CoreId) : (on c && ((farBarrier.cores[c]).convoy.any (fun t => (t.bar.bind placeLine).isSome) || (farBarrier.cores[c]).arr.queue.any (fun o => !o.lines.isEmpty)
      || ((farBarrier.cores[c]).chains.toList.filterMap id).any (fun h => (placeLine h.bar).isSome && near h.who.ptroot h.barVa))) = false := by
    rw [farBarrier_core]
    simp [placeLine_farXfer, Core.reset]
  unfold State.busyOn
  rw [Bool.or_eq_false_iff]
  exact ⟨rfl, List.any_eq_false.2 fun c _ => ne_true_of_eq_false (hcore c)⟩

theorem strAt_farBarrier (c : CoreId) (k : SlotId) : farBarrier.strAt c k = waitingStr := by
  unfold State.strAt
  rw [farBarrier_core]
  simp

theorem farBarrier_noneWaits (dev : Bool) : State.NoneWaits farBarrier dev := by
  intro c k j
  rw [strAt_farBarrier]
  simp [waitingStr, Split.empty]

/-- What TCINV_DRAINED makes of that state: the parked splits of core 0 wait no more. -/
def farDrained : State := (farBarrier.passTcinvParked 0 false).passTcinvParked 0 true

theorem exec_farBarrier : exec .tcinvDrained farBarrier = .next farDrained := by
  have hev : farBarrier.ev = .tcinvDrained 0 := rfl
  have hwaits : State.NoneWaits (farBarrier.passTcinvParked 0 false) true := fun c k j => by
    rw [State.splits_passTcinvParked]
    exact farBarrier_noneWaits true c k j
  show execTcinvDrained farBarrier = _
  rw [execTcinvDrained, hev]
  simp only [busyOn_farBarrier, Bool.false_eq_true, if_false]
  rw [State.passTcinv_of_noneWaits (farBarrier_noneWaits false), State.passTcinv_of_noneWaits hwaits]
  rfl

theorem farDrained_ne : farDrained ≠ farBarrier := by
  intro e
  obtain ⟨go, -, hgo, hfirst⟩ := State.strAt_passTcinvParked farBarrier 0 false 0
  obtain ⟨go', hgo', -, hsecond⟩ := State.strAt_passTcinvParked (farBarrier.passTcinvParked 0 false) 0 true 0
  have hpark : (farDrained.strAt 0 0).park = waitingStr.park := by rw [e, strAt_farBarrier]
  rw [farDrained, hsecond, hfirst, strAt_farBarrier] at hpark
  have hnone := hgo parkedSplit rfl
  have hhead : go' (go parkedSplit) = parkedSplit := (List.cons.inj hpark).1
  rw [hgo' _ (by rw [hnone]; decide)] at hhead
  rw [hhead] at hnone
  cases hnone

/-- Refutes O51: TCINV_DRAINED does not wait for a transfer whose barrier lies on another device. -/
theorem not_tableEvents : ¬ Obligations.TableEvents := by
  unfold Obligations.TableEvents
  intro h
  obtain ⟨-, -, -, -, -, -, hbusy, -⟩ := h farBarrier 0 0 0 false 0 0 0 0 0 0 0 0 0 0
  have hfar : ∃ z ∈ (farBarrier.cores[(0 : CoreId)]).convoy, ∃ l, z.bar = some (.mem l) := by
    rw [farBarrier_core]
    exact ⟨farXfer, List.mem_singleton_self _, 2 ^ 48, rfl⟩
  obtain ⟨t, hexec, hsame⟩ := hbusy (.inr (.inr (.inr (.inr (.inl hfar))))) rfl
  have hdrained : farDrained = t := Host.Outcome.next.inj (exec_farBarrier.symm.trans hexec)
  exact farDrained_ne (hdrained.trans hsame)

end Sys2Proof
end

section
/-!
PROOF. Obligation O26. Its frame (`State.WroteV`) names what a vector write changes in the issuing string and leaves out `lent`, the physical registers that tile
operations read (R147). A load into a register that an `mmac` has read detaches the register from its old physical register, and that entry stands until the next
tile operation is issued: `mwait` ends the loan (R261) but not the entry, so the load changes `lent` where nothing is on loan any more.
-/
namespace Sys2Proof
open Machine

/-- The frame of a vector write says that no physical register is given up. -/
theorem Machine.State.WroteV.lent_eq {s u : State} {rs : List VReg} {m : Mask} (h : s.WroteV u rs m) : u.me.lent = s.me.lent := (congrArg Str.lent h.str :)

/-- The boot string after an `mmac` that read v16 and the `mwait` that covers it: v16 is on loan no more, and its physical register is still listed as lent to
operation 1, which is complete. The base of the host's memory is in s2, and lane 0 alone in k1. -/
def tiledStr : Str :=
  { Str.boot with sreg := (Vector.replicate 64 0).set 2 (BitVec.ofNat 64 hostBase), kreg := (Vector.replicate 16 0).set 1 1, lent := [(some 16, [1])], tls := [1] }

/-- The machine after reset with that string, the first line of the host's memory in core 0's L1. -/
def tiled : State :=
  { State.reset with
    cores := (Vector.replicate 256 Core.reset).set 0 { Core.boot with strs := (Vector.replicate 16 Str.empty).set 0 tiledStr }
    l1 := [{ core := 0, code := false, line := lineOf hostBase, exp := none }] }

/-- A load of 4 bytes by lane 0 into v16. -/
def loadV16 : Instr := .ld 1 .b4 false 16 2 0 0

/-- The addresses of its lanes. -/
def hostAddr (l : Nat) : W64 := tiled.getS 2 + (0 : BitVec 12).signExtend 64 + BitVec.ofNat 64 (l * Size.b4.bytes)

/-- The access of 4 bytes at the base of the host's memory. -/
def hostAcc : Acc :=
  { locs := (List.range 4).map (hostBase + ·), reg := none, sc := false, scLines := [], bkLines := [], sealLines := [], remote := false, trs := [] }

theorem active_tiled : (tiled.active 1).lanes = [0] := by decide +kernel

theorem vecReady_loadV16 : tiled.vecReady loadV16 := ⟨by decide +kernel, by decide +kernel⟩

/-- Lane 0 passes its checks, its line being in the L1, and the state stays as it was. -/
theorem chkLoad_tiled : tiled.chkLoad (Mask.ofLanes [0]) 1 (hostAddr 0) 4 false = (tiled, .go hostAcc [] false) :=
  chkLoad_same _ _ _ _ _ _ _ (by decide +kernel) rfl rfl (by decide +kernel) ⟨rfl, rfl, rfl⟩ (by decide +kernel) (by decide +kernel)

theorem chkLanes_tiled : tiled.chkLanes (tiled.active 1).lanes (fun s l => s.chkLoad (Mask.ofLanes [l]) 1 (hostAddr l) Size.b4.bytes ((0 : KReg) != 0)) =
    (tiled, [(0, .go hostAcc [] false)]) := by
  rw [active_tiled]
  show ((tiled.chkLoad (Mask.ofLanes [0]) 1 (hostAddr 0) 4 false).1, [(0, (tiled.chkLoad (Mask.ofLanes [0]) 1 (hostAddr 0) 4 false).2)]) = _
  rw [chkLoad_tiled]

/-- The state after the load. -/
def loaded16 : State :=
  (((tiled.putLoads .b4 false 16 [(0, hostAcc.locs.map (tiled.look 0))]).newOp .ld true).remoteDone).adv 1

theorem exec_loadV16 : exec loadV16 tiled = .next loaded16 := by
  have hvec := State.vec_ok tiled loadV16 (fun s => s.loadLanes 1 .b4 false 16 0 (s.unitAddr 2 0 Size.b4.bytes)) vecReady_loadV16.1 vecReady_loadV16.2
  have hload : tiled.loadLanes 1 .b4 false 16 0 hostAddr = loaded16 := by
    rw [State.loadLanes, if_neg (by decide +kernel), if_neg (by decide +kernel)]
    dsimp only
    rw [chkLanes_tiled]
    rfl
  exact hvec.trans (congrArg _ hload)

/-- v16 has gone from its old physical register. -/
theorem lent_loaded16 : loaded16.me.lent = [(none, [1])] := by decide +kernel

/-- Refutes O26: a load detaches its destination from a physical register lent to a tile operation (R147), which `State.WroteV` says it leaves as it was. -/
theorem not_memoryLoads : ¬ Obligations.MemoryLoads := by
  unfold Obligations.MemoryLoads
  intro h
  obtain ⟨hload, -⟩ := h tiled 1 .b4 false 16 0 2 0 0 0
  obtain ⟨u, hexec, hwrote, -⟩ := hload loadV16 hostAddr (.inl ⟨rfl, rfl⟩) rfl vecReady_loadV16 (by decide +kernel) (by decide +kernel)
    _ chkLanes_tiled (fun _ => hostAcc) (fun _ => []) (fun _ => false) (by rw [active_tiled]; rfl) (fun _ => rfl) rfl rfl
  obtain rfl : loaded16 = u := Host.Outcome.next.inj (exec_loadV16.symm.trans hexec)
  have hframe := hwrote.lent_eq
  rw [lent_loaded16] at hframe
  exact absurd hframe (by decide +kernel)

end Sys2Proof
end
